-- ==== Sys2Proof/Word.lean ====
section
/-!
DEFINITION. Word.lean: the word types of the X9 (R5, R26, R95) and their plainest arithmetic.
-/

namespace Sys2Proof

/-- A 32-bit register value. -/
abbrev Word := BitVec 32

/-- A 64-bit address or f register value. -/
abbrev DWord := BitVec 64

/-- A byte of memory. -/
abbrev Byte := BitVec 8

/-- The 32 virtual slots of a tray (R12). -/
abbrev Slots (α : Type) := Vector α 32

/-- The slot numbers 0 to 31 in ascending order. -/
def slotList : List (Fin 32) := List.finRange 32

/-- A value for each slot, computed from the slot's number. -/
def Slots.gen {α : Type} (f : Fin 32 → α) : Slots α :=
  ⟨(slotList.map f).toArray, by simp [slotList]⟩

@[simp] theorem Slots.gen_get {α : Type} (f : Fin 32 → α) (t : Fin 32) : (Slots.gen f)[t] = f t := by
  simp [Slots.gen, slotList]

/-- The slots of a mask, ascending (R6). -/
def maskSlots (m : BitVec 32) : List (Fin 32) := slotList.filter fun t => m.getLsbD t.val

/-- The mask of the slots that satisfy a test. -/
def maskOf (f : Fin 32 → Bool) : BitVec 32 :=
  slotList.foldl (fun m t => if f t then m ||| (1#32 <<< t.val) else m) 0#32

/-- The lowest slot of a mask, 0 when the mask is empty. -/
def lowestSlot (m : BitVec 32) : Fin 32 := (maskSlots m).headD 0

/-- A 64-bit value from its low and high words (R27). -/
def dword (lo hi : Word) : DWord := (hi ++ lo : BitVec (32 + 32))

/-- Bits 31:0 of a 64-bit value. -/
def loWord (x : DWord) : Word := x.extractLsb' 0 32

/-- Bits 63:32 of a 64-bit value. -/
def hiWord (x : DWord) : Word := x.extractLsb' 32 32

end Sys2Proof
end

