-- ==== Sys2Proof/Machine/Float.lean ====
section
/-!
DEFINITION. Machine/Float.lean: the floating-point formats (R96, R97), exact values, the one rounding (R99, R100), the IEEE
operations on exact values (R114 to R121), and the special functions (R123) by fixed-point arithmetic (log 14).
-/

namespace Sys2Proof.Machine

/-- A floating-point format (R96): exponent bits, fraction bits, bias; E4M3 has no infinity. -/
structure Fmt where
  ebits : Nat
  fbits : Nat
  bias : Nat
  e4m3 : Bool
  deriving DecidableEq, Repr

def Fmt.f64 : Fmt := ⟨11, 52, 1023, false⟩
def Fmt.f32 : Fmt := ⟨8, 23, 127, false⟩
def Fmt.f16 : Fmt := ⟨5, 10, 15, false⟩
def Fmt.bf16 : Fmt := ⟨8, 7, 127, false⟩
def Fmt.e4 : Fmt := ⟨4, 3, 7, true⟩
def Fmt.e5 : Fmt := ⟨5, 2, 15, false⟩

/-- An exact value: NaN, an infinity, or (−1)^neg × m × 2^e, a signed zero when m = 0. -/
inductive FVal where
  | nan
  | inf (neg : Bool)
  | fin (neg : Bool) (m : Nat) (e : Int)
  deriving DecidableEq, Repr

/-- Rounding modes (R78, R99). -/
inductive Rnd where
  | rn
  | rz
  | ru
  | rd
  deriving DecidableEq, Repr

/-- RND's codes (R78). -/
def Rnd.of (x : BitVec 2) : Rnd := if x == 0 then .rn else if x == 1 then .rz else if x == 2 then .ru else .rd

/-- Number of bits of m. -/
def bitLen (m : Nat) : Nat := if m = 0 then 0 else Nat.log2 m + 1

/-- The sign bit's weight. -/
def Fmt.sign (f : Fmt) : Nat := 2 ^ (f.ebits + f.fbits)

/-- The largest finite magnitude's bits (R96). -/
def Fmt.maxBits (f : Fmt) : Nat := if f.e4m3 then 0x7E else (2 ^ f.ebits - 1) * 2 ^ f.fbits - 1

/-- The magnitude bits of infinity, where there is one. -/
def Fmt.infBits (f : Fmt) : Nat := (2 ^ f.ebits - 1) * 2 ^ f.fbits

/-- The canonical NaN (R96, R98). -/
def Fmt.nanBits (f : Fmt) : Nat := if f.e4m3 then 0x7F else f.infBits + 2 ^ (f.fbits - 1)

/-- Exponent of the smallest normal value. -/
def Fmt.emin (f : Fmt) : Int := 1 - f.bias

/-- The value of a bit pattern (R96); under FTZ a subnormal reads as zero of its sign (R100). -/
def Fmt.decode (f : Fmt) (ftz : Bool) (bits : Nat) : FVal :=
  let neg := bits / f.sign % 2 == 1
  let e := bits / 2 ^ f.fbits % 2 ^ f.ebits
  let m := bits % 2 ^ f.fbits
  if f.e4m3 then
    if bits % 0x80 == 0x7F then .nan
    else if e == 0 then (if ftz then .fin neg 0 0 else .fin neg m (f.emin - f.fbits))
    else .fin neg (m + 2 ^ f.fbits) (f.emin - f.fbits + (e - 1 : Nat))
  else if e == 2 ^ f.ebits - 1 then (if m == 0 then .inf neg else .nan)
  else if e == 0 then (if ftz then .fin neg 0 0 else .fin neg m (f.emin - f.fbits))
  else .fin neg (m + 2 ^ f.fbits) (f.emin - f.fbits + (e - 1 : Nat))

/-- m × 2^e as an integer number of units 2^q, rounded (R99). -/
def roundAt (rm : Rnd) (neg : Bool) (m : Nat) (e q : Int) : Nat :=
  if q ≤ e then m * 2 ^ (e - q).toNat
  else
    let d := 2 ^ (q - e).toNat
    let k := m / d
    let r := m % d
    let up := match rm with
      | .rn => 2 * r > d || (2 * r == d && k % 2 == 1)
      | .rz => false
      | .ru => r != 0 && !neg
      | .rd => r != 0 && neg
    if up then k + 1 else k

/-- What overflow writes, without the sign (R99). -/
def Fmt.overflow (f : Fmt) (rm : Rnd) (sat neg : Bool) : Nat :=
  if sat || f.e4m3 then f.maxBits
  else match rm with
    | .rn => f.infBits
    | .rz => f.maxBits
    | .ru => if neg then f.maxBits else f.infBits
    | .rd => if neg then f.infBits else f.maxBits

/-- Round an exact value once into a format (R98 to R100). -/
def Fmt.round (f : Fmt) (rm : Rnd) (ftz sat : Bool) (x : FVal) : Nat :=
  match x with
  | .nan => f.nanBits
  | .inf neg => (if neg then f.sign else 0) + (if f.e4m3 then f.maxBits else f.infBits)
  | .fin neg m e =>
    let s := if neg then f.sign else 0
    if m == 0 then s
    else
      let top : Int := e + bitLen m - 1
      let qn := top - f.fbits
      let qmin := f.emin - f.fbits
      let q := if qn < qmin then qmin else qn
      -- tiny: rounded with unbounded exponent, still below the smallest normal value (R100)
      let tiny := qn < qmin && roundAt rm neg m e qn < 2 ^ (f.emin - qn).toNat
      if ftz && tiny then s
      else
        let k := roundAt rm neg m e q
        let bits := k + (q - qmin).toNat * 2 ^ f.fbits
        if bits > f.maxBits then s + f.overflow rm sat neg else s + bits

/-- Change the sign. -/
def FVal.neg : FVal → FVal
  | .nan => .nan
  | .inf n => .inf !n
  | .fin n m e => .fin (!n) m e

/-- The sum of finite values as a signed integer of units 2^e. -/
def finSum (n1 : Bool) (m1 : Nat) (e1 : Int) (n2 : Bool) (m2 : Nat) (e2 : Int) : Int × Int :=
  let e := if e1 ≤ e2 then e1 else e2
  let a : Int := m1 * 2 ^ (e1 - e).toNat
  let b : Int := m2 * 2 ^ (e2 - e).toNat
  ((if n1 then -a else a) + (if n2 then -b else b), e)

/-- The exact sum; an exact zero takes its sign from IEEE 754-2019 (R114). -/
def FVal.add (rm : Rnd) (x y : FVal) : FVal :=
  match x, y with
  | .nan, _ | _, .nan => .nan
  | .inf a, .inf b => if a == b then .inf a else .nan
  | .inf a, _ => .inf a
  | _, .inf b => .inf b
  | .fin n1 m1 e1, .fin n2 m2 e2 =>
    if m1 == 0 && m2 == 0 then .fin (if n1 == n2 then n1 else rm == .rd) 0 0
    else if m1 == 0 then y
    else if m2 == 0 then x
    else
      let (v, e) := finSum n1 m1 e1 n2 m2 e2
      if v == 0 then .fin (rm == .rd) 0 0 else .fin (v < 0) v.natAbs e

/-- The exact product (R114). -/
def FVal.mul (x y : FVal) : FVal :=
  match x, y with
  | .nan, _ | _, .nan => .nan
  | .inf a, .inf b => .inf (a != b)
  | .inf a, .fin n m _ | .fin n m _, .inf a => if m == 0 then .nan else .inf (a != n)
  | .fin n1 m1 e1, .fin n2 m2 e2 => .fin (n1 != n2) (m1 * m2) (e1 + e2)

/-- The quotient to at least p + 3 bits with a sticky bit: rounds as the exact quotient does in p bits (R114). -/
def FVal.div (p : Nat) (x y : FVal) : FVal :=
  match x, y with
  | .nan, _ | _, .nan => .nan
  | .inf _, .inf _ => .nan
  | .inf a, .fin n _ _ => .inf (a != n)
  | .fin n _ _, .inf b => .fin (n != b) 0 0
  | .fin n1 m1 e1, .fin n2 m2 e2 =>
    if m2 == 0 then (if m1 == 0 then .nan else .inf (n1 != n2))
    else if m1 == 0 then .fin (n1 != n2) 0 0
    else
      let k := p + 3 + bitLen m2
      let q := m1 * 2 ^ k / m2
      .fin (n1 != n2) (2 * q + (if q * m2 == m1 * 2 ^ k then 0 else 1)) (e1 - e2 - k - 1)

/-- The integer square root, bit by bit from bit i − 1 down. -/
def isqrtFrom (n : Nat) : Nat → Nat → Nat
  | 0, r => r
  | i + 1, r => isqrtFrom n i (if (r + 2 ^ i) ^ 2 ≤ n then r + 2 ^ i else r)

/-- ⌊√n⌋. -/
def isqrt (n : Nat) : Nat := isqrtFrom n (bitLen n / 2 + 1) 0

/-- The square root to at least p + 3 bits with a sticky bit (R118). -/
def FVal.sqrt (p : Nat) (x : FVal) : FVal :=
  match x with
  | .nan => .nan
  | .inf n => if n then .nan else .inf false
  | .fin n m e =>
    if m == 0 then x
    else if n then .nan
    else
      let odd := e % 2 == 1
      let m' := (if odd then 2 * m else m) * 4 ^ (p + 3)
      let e' := (if odd then e - 1 else e) / 2 - (p + 3)
      let r := isqrt m'
      .fin false (2 * r + (if r * r == m' then 0 else 1)) (e' - 1)

/-- Compare two numbers: negative, zero or positive difference. Zeros are equal; none for a NaN (R121). -/
def FVal.cmp (x y : FVal) : Option Int :=
  match x, y with
  | .nan, _ | _, .nan => none
  | .inf a, .inf b => some (if a == b then 0 else if a then -1 else 1)
  | .inf a, _ => some (if a then -1 else 1)
  | _, .inf b => some (if b then 1 else -1)
  | .fin n1 m1 e1, .fin n2 m2 e2 => some (finSum n1 m1 e1 (!n2) m2 e2).1

/-- Whether a value is NaN or infinite. -/
def FVal.special : FVal → Bool
  | .fin .. => false
  | _ => true

/-- minimumNumber and maximumNumber of two patterns after FTZ (R115): a pattern is returned bit for bit. -/
def Fmt.pick (f : Fmt) (ftz max : Bool) (a b : Nat) : Nat :=
  let x := f.decode ftz a
  let y := f.decode ftz b
  let out (bits : Nat) (v : FVal) : Nat := match v with | .fin n 0 _ => if n then f.sign else 0 | _ => bits
  match x, y with
  | .nan, .nan => f.nanBits
  | .nan, _ => out b y
  | _, .nan => out a x
  | _, _ =>
    let c : Int := match x.cmp y with
      | some c =>
        if c == 0 then (match x, y with
          | .fin n1 0 _, .fin n2 0 _ => if n1 == n2 then 0 else if n1 then -1 else (1 : Int)
          | _, _ => 0)
        else c
      | none => 0
    if c == 0 then out a x
    else if (c < 0) != max then out a x else out b y

/-- Round an exact value to an integer in a mode (R126, R129); NaN and infinities are the caller's. -/
def FVal.toInt (rm : Rnd) (x : FVal) : Int :=
  match x with
  | .fin n m e => let k : Int := roundAt rm n m e 0; if n then -k else k
  | _ => 0

/-- An integer as an exact value. -/
def FVal.ofInt (i : Int) : FVal := .fin (i < 0) i.natAbs 0

/-- x × 2^k (R116). -/
def FVal.scale (x : FVal) (k : Int) : FVal :=
  match x with
  | .fin n m e => .fin n m (e + k)
  | v => v

/-! The special functions: fixed point with `sfuBits` fraction bits. -/

/-- Fraction bits of the fixed-point arithmetic. -/
def sfuBits : Nat := 320

/-- ln 2 × 2^320. -/
def ln2Fix : Nat := 0xb17217f7d1cf79abc9e3b39803f2f6af40f343267298b62d8a0d175b8baafa2be7b876206debac98

/-- π × 2^640. -/
def piFix : Nat :=
  0x3243f6a8885a308d313198a2e03707344a4093822299f31d0082efa98ec4e6c89452821e638d01377be5466cf34e90c6cc0ac29b7c97c50dd3f84d5b5b54709179216d5d98979fb1bd1310ba698dfb5ac

/-- A fixed-point product. -/
def fixMul (a b : Nat) : Nat := a * b / 2 ^ sfuBits

/-- Σ_{i ≥ k} term × r^(i−k) × (k − 1)! / (i − 1)!, n terms: the exponential series from its (k − 1)-th term on. -/
def expSeries (r : Nat) : Nat → Nat → Nat → Nat
  | 0, _, _ => 0
  | n + 1, k, term => term + expSeries r n (k + 1) (fixMul term r / k)

/-- 2^f for a fraction f, both in fixed point; the result lies from 1 to 2. -/
def exp2Fix (f : Nat) : Nat := expSeries (fixMul f ln2Fix) 80 1 (2 ^ sfuBits)

/-- ⌊m × 2^e⌋ in fixed point with n fraction bits. -/
def fixOf (n m : Nat) (e : Int) : Nat := if e + n ≥ 0 then m * 2 ^ (e + n).toNat else m / 2 ^ (-e - (n : Int)).toNat

/-- 2^x for x = ±m × 2^e with a magnitude below 2^20, as an exact value with a sticky bit when it is not a power of two. -/
def exp2Val (neg : Bool) (m : Nat) (e : Int) : FVal :=
  let f := fixOf sfuBits m e
  let i := f / 2 ^ sfuBits
  let r := f % 2 ^ sfuBits
  if r == 0 then .fin false 1 (if neg then -(i : Int) else i)
  else
    -- 2^−(i + r) = 2^(1 − r) × 2^−(i + 1)
    let v := exp2Fix (if neg then 2 ^ sfuBits - r else r)
    .fin false (2 * v + 1) ((if neg then -(i : Int) - 1 else i) - sfuBits - 1)

/-- FEXP2 (R123). -/
def FVal.exp2 (x : FVal) : FVal :=
  match x with
  | .nan => .nan
  | .inf n => if n then .fin false 0 0 else .inf false
  | .fin n m e =>
    if m == 0 then .fin false 1 0
    else if e + bitLen m > 20 then (if n then .fin false 0 0 else .inf false)
    else if n && 151 ≤ fixOf 0 m e then .fin false 0 0
    else if !n && 128 ≤ fixOf 0 m e then .inf false
    else exp2Val n m e

/-- Σ z^(2i+1) / (2i + 1), n terms from the term z^k with index k. -/
def atanhSeries (z2 : Nat) : Nat → Nat → Nat → Nat
  | 0, _, _ => 0
  | n + 1, k, pow => pow / k + atanhSeries z2 n (k + 2) (fixMul pow z2)

/-- log₂ of m × 2^e with m > 0 as a fixed-point number (R123). -/
def log2Fix (m : Nat) (e : Int) : Int :=
  let l := bitLen m - 1
  let one := 2 ^ sfuBits
  let y := m * 2 ^ sfuBits / 2 ^ l
  let z := (y - one) * one / (y + one)
  (e + l) * one + (2 * atanhSeries (fixMul z z) 110 1 z * one / ln2Fix : Nat)

/-- FLOG2 (R123). -/
def FVal.log2 (x : FVal) : FVal :=
  match x with
  | .nan => .nan
  | .inf n => if n then .nan else .inf false
  | .fin n m e =>
    if m == 0 then .inf true
    else if n then .nan
    else
      let l := bitLen m - 1
      if m == 2 ^ l then .fin (e + l < 0) (e + l).natAbs 0
      else
        let v := log2Fix m e
        .fin (v < 0) (2 * v.natAbs + 1) (-(sfuBits : Int) - 1)

/-- Σ (−1)^i y^(2i) terms of sine and cosine: n terms, alternating, from `term` with factorial index k. -/
def trigSeries (y2 : Nat) : Nat → Nat → Nat → Int
  | 0, _, _ => 0
  | n + 1, k, term => (term : Int) - trigSeries y2 n (k + 2) (fixMul term y2 / ((k + 1) * (k + 2)))

/-- sin y for 0 ≤ y ≤ π/2 in fixed point. -/
def sinFix (y : Nat) : Int := trigSeries (fixMul y y) 50 1 y

/-- cos y for 0 ≤ y ≤ π/2 in fixed point. -/
def cosFix (y : Nat) : Int := trigSeries (fixMul y y) 50 0 (2 ^ sfuBits)

/-- |x| = m × 2^e reduced by multiples of π/2: the quadrant modulo 4 and the rest in fixed point (R123). -/
def trigReduce (m : Nat) (e : Int) : Nat × Nat :=
  let half := piFix / 2
  let a := fixOf 640 m e
  (a / half % 4, a % half / 2 ^ (640 - sfuBits))

/-- A fixed-point number as an exact value with a sticky bit. -/
def ofFix (v : Int) : FVal := .fin (v < 0) (2 * v.natAbs + 1) (-(sfuBits : Int) - 1)

/-- FSIN (R123). A magnitude below 2^−60 rounds to itself. -/
def FVal.sin (x : FVal) : FVal :=
  match x with
  | .nan | .inf _ => .nan
  | .fin n m e =>
    if m == 0 || e + bitLen m < -60 then x
    else
      let (q, y) := trigReduce m e
      let v := match q with | 0 => sinFix y | 1 => cosFix y | 2 => -sinFix y | _ => -cosFix y
      ofFix (if n then -v else v)

/-- FCOS (R123). -/
def FVal.cos (x : FVal) : FVal :=
  match x with
  | .nan | .inf _ => .nan
  | .fin _ m e =>
    if m == 0 || e + bitLen m < -60 then .fin false 1 0
    else
      let (q, y) := trigReduce m e
      ofFix (match q with | 0 => cosFix y | 1 => -sinFix y | 2 => -cosFix y | _ => sinFix y)

/-- e^−y in fixed point for y = m × 2^e ≥ 0: 0 from 2^10 up. -/
def expNegFix (m : Nat) (e : Int) : Nat :=
  if e + bitLen m > 10 then 0
  else
    let t := fixOf sfuBits m e * 2 ^ sfuBits / ln2Fix
    let i := t / 2 ^ sfuBits
    let r := t % 2 ^ sfuBits
    if r == 0 then 2 ^ sfuBits / 2 ^ i else exp2Fix (2 ^ sfuBits - r) / 2 ^ (i + 1)

/-- FTANH (R123): (1 − e^−2|x|) / (1 + e^−2|x|). A magnitude below 2^−60 rounds to itself. -/
def FVal.tanh (x : FVal) : FVal :=
  match x with
  | .nan => .nan
  | .inf n => .fin n 1 0
  | .fin n m e =>
    if m == 0 || e + bitLen m < -60 then x
    else
      let one := 2 ^ sfuBits
      let u := expNegFix m (e + 1)
      if u == 0 then .fin n 1 0
      else match ofFix ((one - u) * one / (one + u) : Nat) with
        | .fin _ k j => .fin n k j
        | v => v

/-- FSIGM (R123): 1 / (1 + e^−x). -/
def FVal.sigm (x : FVal) : FVal :=
  match x with
  | .nan => .nan
  | .inf n => if n then .fin false 0 0 else .fin false 1 0
  | .fin n m e =>
    let one := 2 ^ sfuBits
    if m == 0 then .fin false 1 (-1)
    else
      let u := expNegFix m e
      if n then (if u == 0 then .fin false 0 0 else ofFix (u * one / (one + u) : Nat))
      else if u == 0 then .fin false 1 0
      else ofFix (one * one / (one + u) : Nat)

/-- 32-bit results. -/
def w32 (n : Nat) : Word := BitVec.ofNat 32 n

end Sys2Proof.Machine
end

