-- ==== Sys2Proof/Config.lean ====
section
/-!
DEFINITION. Config.lean: what an implementation fixes, and the free values (opaque constants without a body), which the
manual leaves open. Nothing can be proved of a free value, so a claim holds whatever it is.
-/

namespace Sys2Proof.Config

/-- Which of the enabled moves comes next, as a function of the model's own counter (log 2). -/
opaque pick : Nat → Nat

/-- A free 64-bit value for the n-th use (log 10). -/
opaque freeValue : Nat → BitVec 64

/-- A free choice for the n-th use (log 10). -/
opaque freeBit : Nat → Bool

/-- Whether, in a step, an observer (a slot, or 32 for an engine) misses a write that it need not see yet (R225, R229, log 4). -/
opaque misses : Nat → Nat → Nat → Bool

/-- Whether, in a step, a write that an engine need not see stands after the engine's in its location's order (R288, log 4). -/
opaque standsAfter : Nat → Nat → Bool

/-- Whether, in a step, a line's on-chip copy is still there to be hit (R196, log 135). -/
opaque hits : Nat → Nat → Bool

/-- Bytes of a part of a save image whose form the manual does not give (R186, log 11). -/
opaque saveImageBytes : Nat → List (BitVec 8)

/-- Bytes of the report of a die's evacuation, in a layout that the manual does not give, from what it lists: items demoted (0), lost (1)
and evicted (2), by a pinned range's number, an allocation's handle, a tile's name (R367, log 11). -/
opaque dieReportBytes : List (Nat × Nat) → List (BitVec 8)

/-- Whether a firmware image verifies against both root keys (R388, log 12). -/
opaque imageVerifies : List (BitVec 8) → Bool

/-- The signature of an attestation report by the Ed25519 identity key (R389, log 12). -/
opaque signEd25519 : List (BitVec 8) → List (BitVec 8)

/-- The signature of an attestation report by the ML-DSA-65 identity key (R389, log 12). -/
opaque signMlDsa65 : List (BitVec 8) → List (BitVec 8)

/-- The SHA-384 measurement of an image (R389, log 12). -/
opaque sha384 : List (BitVec 8) → List (BitVec 8)

/-- The hash of a partition table in an attestation report (R389, log 12). -/
opaque tableHash : List (BitVec 8) → List (BitVec 8)

/-- The security version in an image's header (R388, log 12). -/
opaque securityVersion : List (BitVec 8) → BitVec 32

/-- The least security version that the fuses accept (R388, log 12). -/
opaque minimumVersion : BitVec 32

end Sys2Proof.Config
end

