-- ==== Sys2Proof/Syntax.lean ====
section
/-!
DEFINITION. Syntax.lean: the ONE inductive of operations, a constructor for every row of the opcode table: the 32-bit
words (R81), the compact forms (R72) and the events. A word's constructor holds the fields of its format (R69 to R71)
and, where the row accepts one, its prefixes (R74 to R80).
-/

namespace Sys2Proof

/-- GUARD payload (R76): guard register, inversion, and the clear policy (POL = 1). -/
structure Guard where
  p : BitVec 3
  neg : Bool
  clear : Bool
  deriving DecidableEq, Repr

/-- MOD payload (R78). -/
structure Mod where
  emp : BitVec 2
  fmt : BitVec 4
  grp : BitVec 2
  scope : BitVec 3
  scen : Bool
  sb : Bool
  sa : Bool
  sgnen : Bool
  sat : Bool
  ftz : Bool
  rnd : BitVec 2
  deriving DecidableEq, Repr

/-- The prefixes of a group (R74, R80). -/
structure Pfx where
  imm : Option (BitVec 23)
  guard : Option Guard
  mod : Option Mod
  ximm : Option (BitVec 23)
  deriving DecidableEq, Repr

/-- No prefix. -/
def Pfx.empty : Pfx := { imm := none, guard := none, mod := none, ximm := none }

/-- Field layout: destination, two sources and their trap bits. -/
structure F3 where
  d : BitVec 7
  a : BitVec 7
  b : BitVec 7
  ta : Bool
  tb : Bool
  deriving DecidableEq, Repr

/-- Field layout: destination and one source. -/
structure F3A where
  d : BitVec 7
  a : BitVec 7
  ta : Bool
  deriving DecidableEq, Repr

/-- Field layout: predicate destination and two sources. -/
structure FCmp where
  p : BitVec 3
  a : BitVec 7
  b : BitVec 7
  ta : Bool
  tb : Bool
  deriving DecidableEq, Repr

/-- Field layout: SEL: predicate number in the funct field. -/
structure FSel where
  n : BitVec 3
  d : BitVec 7
  a : BitVec 7
  b : BitVec 7
  ta : Bool
  tb : Bool
  deriving DecidableEq, Repr

/-- Field layout: three predicate numbers. -/
structure FPP where
  p : BitVec 3
  pa : BitVec 3
  pb : BitVec 3
  deriving DecidableEq, Repr

/-- Field layout: two predicate numbers. -/
structure FPA where
  p : BitVec 3
  pa : BitVec 3
  deriving DecidableEq, Repr

/-- Field layout: predicate destination and one source. -/
structure FPF where
  p : BitVec 3
  a : BitVec 7
  ta : Bool
  deriving DecidableEq, Repr

/-- Field layout: register destination and a predicate. -/
structure FDP where
  d : BitVec 7
  pa : BitVec 3
  deriving DecidableEq, Repr

/-- Field layout: MOVI. -/
structure FMovi where
  d : BitVec 7
  imm : BitVec 8
  deriving DecidableEq, Repr

/-- Field layout: FI layout. -/
structure FI where
  d : BitVec 7
  a : BitVec 7
  imm : BitVec 8
  ta : Bool
  deriving DecidableEq, Repr

/-- Field layout: FQ layout. -/
structure FQ where
  d : BitVec 7
  a : BitVec 7
  s : BitVec 7
  bsel : BitVec 2
  deriving DecidableEq, Repr

/-- Field layout: FM layout of a load. -/
structure FLd where
  d : BitVec 7
  a : BitVec 7
  off : BitVec 7
  ta : Bool
  deriving DecidableEq, Repr

/-- Field layout: FM layout of a store. -/
structure FSt where
  d : BitVec 7
  a : BitVec 7
  off : BitVec 7
  ta : Bool
  td : Bool
  deriving DecidableEq, Repr

/-- Field layout: two sources. -/
structure FAB where
  a : BitVec 7
  b : BitVec 7
  ta : Bool
  tb : Bool
  deriving DecidableEq, Repr

/-- Field layout: one source. -/
structure FA where
  a : BitVec 7
  ta : Bool
  deriving DecidableEq, Repr

/-- Field layout: no field. -/
structure F0 where
  deriving DecidableEq, Repr

/-- Field layout: CTAG. -/
structure FTag where
  d : BitVec 7
  n : BitVec 2
  deriving DecidableEq, Repr

/-- Field layout: MLOOP. -/
structure FDB where
  d : BitVec 7
  b : BitVec 7
  tb : Bool
  deriving DecidableEq, Repr

/-- Field layout: ACCPOP. -/
structure FPop where
  d : BitVec 7
  n : BitVec 1
  deriving DecidableEq, Repr

/-- Field layout: array number and a source. -/
structure FNA where
  n : BitVec 1
  a : BitVec 7
  ta : Bool
  deriving DecidableEq, Repr

/-- Field layout: IXSET. -/
structure FIxs where
  x : BitVec 3
  a : BitVec 7
  b : BitVec 7
  tb : Bool
  deriving DecidableEq, Repr

/-- Field layout: IXGET. -/
structure FIxg where
  d : BitVec 7
  x : BitVec 3
  sel : BitVec 1
  deriving DecidableEq, Repr

/-- Field layout: IXMOV. -/
structure FIxm where
  x : BitVec 3
  a : BitVec 7
  ta : Bool
  deriving DecidableEq, Repr

/-- Field layout: MOVSR. -/
structure FSr where
  d : BitVec 7
  sr : BitVec 7
  deriving DecidableEq, Repr

/-- Field layout: BRA. -/
structure FBra where
  pri : BitVec 6
  off : BitVec 14
  deriving DecidableEq, Repr

/-- Field layout: BRP, BRNP, BRSP. -/
structure FBrp where
  p : BitVec 3
  pri : BitVec 6
  off : BitVec 14
  deriving DecidableEq, Repr

/-- Field layout: CALL. -/
structure FCall where
  w : BitVec 3
  pri : BitVec 6
  off : BitVec 14
  deriving DecidableEq, Repr

/-- Field layout: JMPI. -/
structure FJmp where
  pri : BitVec 6
  a : BitVec 7
  ta : Bool
  deriving DecidableEq, Repr

/-- Field layout: LOOP. -/
structure FLoop where
  lc : BitVec 2
  a : BitVec 7
  e : BitVec 7
  ta : Bool
  deriving DecidableEq, Repr

/-- Field layout: destination only. -/
structure FD where
  d : BitVec 7
  deriving DecidableEq, Repr

/-- Field layout: MEETL. -/
structure FMeet where
  n : BitVec 3
  deriving DecidableEq, Repr

/-- Compact register form (R72): d, b and the flag that selects an s register. -/
structure CReg where
  d : BitVec 5
  b : BitVec 5
  s : Bool
  deriving DecidableEq, Repr

/-- Compact immediate form (R72). -/
structure CImm where
  d : BitVec 5
  imm : BitVec 6
  deriving DecidableEq, Repr

/-- What issues an instruction: an entry of a tray's frontier, or the front strand of a team (R134, R151). -/
inductive Agent where
  | none
  | tray (id entry : Nat)
  | front (team : Nat)
  deriving DecidableEq, Repr

/-- The former's group: team, PC and priority (R144). -/
structure GroupKey where
  team : Nat
  pc : BitVec 64
  prio : Nat
  deriving DecidableEq, Repr

/-- A barrier episode: launch, level, and the number of the unit at that level (R154). -/
structure BarrierKey where
  launch : Nat
  level : Nat
  unit : Nat
  deriving DecidableEq, Repr

/-- A squash or commit notice (R326, R328): the version's global id and, for a commit, the parent's. -/
structure Notice where
  src : Nat
  gid : BitVec 16
  parent : BitVec 16
  deriving DecidableEq, Repr

/-- What a fabric request asks (R370): read n bytes, write bytes, one of the atomics of R205 (its funct, operands), the
increment of a release sequence (R248), whether a write of n bytes passes the check of the leaf (R190, R194), other. -/
inductive FabOp where
  | read (n : Nat)
  | write (bytes : List (BitVec 8))
  | atomic (funct : BitVec 3) (b c : BitVec 32) (unsigned : Bool)
  | increment
  /-- whether n bytes may be written; `vers` asks for a versioned page too (R324), `eng` asks for an engine (R295) -/
  | check (n : Nat) (vers eng : Bool)
  | other
  deriving DecidableEq, Repr

/-- A fabric request as it arrives (R370, R375). -/
structure FabReq where
  src : Nat
  part : Nat
  tag : Nat
  op : FabOp
  addr : BitVec 64
  gid : BitVec 16
  ancestors : List (BitVec 16)
  locseq : Nat
  deriving DecidableEq, Repr

/-- A fabric response: the tag of the access, whether it succeeded, the bytes of a read, and the cause of the peer's own check that
failed, 0 for none (R190, R194, R287). -/
structure FabResp where
  tag : Nat
  ok : Bool
  data : List (BitVec 8)
  cause : Nat := 0
  deriving DecidableEq, Repr

/-- A parity delta (R381): stripe, byte offset in it, the XOR. -/
structure Delta where
  part : Nat
  src : Nat
  tag : Nat
  stripe : Nat
  off : Nat
  xor : List (BitVec 8)
  deriving DecidableEq, Repr

/-- A request to rebuild a stripe of a lost member into a frame (R382); `peers` holds the other members' stripes as read, each with its
member. -/
structure Rebuild where
  part : Nat
  member : Nat
  stripe : Nat
  frame : Nat
  peers : List (Nat × List (Nat × BitVec 8))
  deriving DecidableEq, Repr

/-- A packet at a crossbar (R373, R374). -/
structure Packet where
  dst : Nat
  src : Nat
  vc : Nat
  age : Nat
  mask : Nat
  inj : BitVec 32
  deriving DecidableEq, Repr

/-- A work item as taken (R333), with its chain, its partition and the number of its taking. -/
structure Item where
  chain : Nat
  part : Nat
  num : Nat
  kind : BitVec 8
  prio : BitVec 8
  flags : BitVec 16
  ctxid : BitVec 32
  deadline : BitVec 64
  result : BitVec 64
  seq : BitVec 32
  est : BitVec 32
  arg0 : BitVec 64
  arg1 : BitVec 64
  arg2 : BitVec 64
  deriving DecidableEq, Repr

/-- What an event names or brings from outside the device: the events of the opcode table carry no operand bits, so each
reads what it needs here. -/
structure Input where
  /-- the object it names: a command, a producer, a tray, a team, a chain, a link, a function, an offset -/
  id : Nat
  /-- a second number: a peer, a lane, a member, a slot -/
  n : Nat
  /-- a third number -/
  k : Nat
  /-- a yes or no from outside: a failed check, an error, the direction of a clock step -/
  flag : Bool
  /-- a register value written by the host -/
  val : BitVec 64
  /-- the memory class of an uncorrectable error (R180) -/
  err : Option Nat
  agent : Agent
  group : GroupKey
  barrier : BarrierKey
  item : Item
  notice : Notice
  req : FabReq
  resp : FabResp
  delta : Delta
  rebuild : Rebuild
  packets : List Packet
  pairs : List (Nat × Nat)
  cells : List (Nat × BitVec 8)
  bytes : List (BitVec 8)
  images : List (List (BitVec 8))
  deriving DecidableEq, Repr

/-- An item with every field 0. -/
def Item.blank : Item :=
  { chain := 0, part := 0, num := 0, kind := 0, prio := 0, flags := 0, ctxid := 0, deadline := 0, result := 0, seq := 0,
    est := 0, arg0 := 0, arg1 := 0, arg2 := 0 }

/-- No input. -/
def Input.blank : Input :=
  { id := 0, n := 0, k := 0, flag := false, val := 0, err := none, agent := .none, group := { team := 0, pc := 0, prio := 0 },
    barrier := { launch := 0, level := 0, unit := 0 }, item := Item.blank, notice := { src := 0, gid := 0, parent := 0 },
    req := { src := 0, part := 0, tag := 0, op := .other, addr := 0, gid := 0, ancestors := [], locseq := 0 },
    resp := { tag := 0, ok := true, data := [] }, delta := { part := 0, src := 0, tag := 0, stripe := 0, off := 0, xor := [] },
    rebuild := { part := 0, member := 0, stripe := 0, frame := 0, peers := [] }, packets := [], pairs := [], cells := [],
    bytes := [], images := [] }

/-- The operations of the opcode table. -/
inductive Instr where
  | add (p : Pfx) (f : F3)
  | sub (p : Pfx) (f : F3)
  | mul (p : Pfx) (f : F3)
  | mulh (p : Pfx) (f : F3)
  | mulhu (p : Pfx) (f : F3)
  | min (p : Pfx) (f : F3)
  | max (p : Pfx) (f : F3)
  | minu (p : Pfx) (f : F3)
  | maxu (p : Pfx) (f : F3)
  | div (p : Pfx) (f : F3)
  | divu (p : Pfx) (f : F3)
  | rem (p : Pfx) (f : F3)
  | remu (p : Pfx) (f : F3)
  | and (p : Pfx) (f : F3)
  | or (p : Pfx) (f : F3)
  | xor (p : Pfx) (f : F3)
  | andn (p : Pfx) (f : F3)
  | shl (p : Pfx) (f : F3)
  | shr (p : Pfx) (f : F3)
  | sra (p : Pfx) (f : F3)
  | rol (p : Pfx) (f : F3)
  | ror (p : Pfx) (f : F3)
  | bcnt (p : Pfx) (f : F3A)
  | clz (p : Pfx) (f : F3A)
  | ctz (p : Pfx) (f : F3A)
  | bitrev (p : Pfx) (f : F3A)
  | cmpeq (p : Pfx) (f : FCmp)
  | cmpne (p : Pfx) (f : FCmp)
  | cmplt (p : Pfx) (f : FCmp)
  | cmple (p : Pfx) (f : FCmp)
  | cmpltu (p : Pfx) (f : FCmp)
  | cmpleu (p : Pfx) (f : FCmp)
  | sel (p : Pfx) (f : FSel)
  | pand (p : Pfx) (f : FPP)
  | por (p : Pfx) (f : FPP)
  | pxor (p : Pfx) (f : FPP)
  | pnot (p : Pfx) (f : FPA)
  | pfrom (p : Pfx) (f : FPF)
  | pto (p : Pfx) (f : FDP)
  | movi (p : Pfx) (f : FMovi)
  | addi (p : Pfx) (f : FI)
  | shli (p : Pfx) (f : FI)
  | shri (p : Pfx) (f : FI)
  | andi (p : Pfx) (f : FI)
  | ori (p : Pfx) (f : FI)
  | xori (p : Pfx) (f : FI)
  | fadd (p : Pfx) (f : F3)
  | fsub (p : Pfx) (f : F3)
  | fmul (p : Pfx) (f : F3)
  | fdiv (p : Pfx) (f : F3)
  | fmin (p : Pfx) (f : F3)
  | fmax (p : Pfx) (f : F3)
  | fscale (p : Pfx) (f : F3)
  | fma (p : Pfx) (f : F3)
  | fms (p : Pfx) (f : F3)
  | fnma (p : Pfx) (f : F3)
  | fsqrt (p : Pfx) (f : F3A)
  | frcpa (p : Pfx) (f : F3A)
  | frsqa (p : Pfx) (f : F3A)
  | fcmpeq (p : Pfx) (f : FCmp)
  | fcmpne (p : Pfx) (f : FCmp)
  | fcmplt (p : Pfx) (f : FCmp)
  | fcmple (p : Pfx) (f : FCmp)
  | fcmpun (p : Pfx) (f : FCmp)
  | fclass (p : Pfx) (f : F3A)
  | ftstnf (p : Pfx) (f : FPF)
  | fexp2 (p : Pfx) (f : F3A)
  | flog2 (p : Pfx) (f : F3A)
  | fsin (p : Pfx) (f : F3A)
  | fcos (p : Pfx) (f : F3A)
  | ftanh (p : Pfx) (f : F3A)
  | fsigm (p : Pfx) (f : F3A)
  | phadd (p : Pfx) (f : F3)
  | phmul (p : Pfx) (f : F3)
  | phfma (p : Pfx) (f : F3)
  | phmax (p : Pfx) (f : F3)
  | pbadd (p : Pfx) (f : F3)
  | pbfma (p : Pfx) (f : F3)
  | f64add (p : Pfx) (f : F3)
  | f64sub (p : Pfx) (f : F3)
  | f64mul (p : Pfx) (f : F3)
  | f64fma (p : Pfx) (f : F3)
  | f64div (p : Pfx) (f : F3)
  | cvtfi (p : Pfx) (f : F3A)
  | cvtif (p : Pfx) (f : F3A)
  | cvtfh (p : Pfx) (f : F3A)
  | cvthf (p : Pfx) (f : F3A)
  | cvtfb (p : Pfx) (f : F3A)
  | cvtfd (p : Pfx) (f : F3A)
  | cvtdf (p : Pfx) (f : F3A)
  | pke4 (p : Pfx) (f : FQ)
  | pke5 (p : Pfx) (f : FQ)
  | unpe4 (p : Pfx) (f : FQ)
  | unpe5 (p : Pfx) (f : FQ)
  | unpi8 (p : Pfx) (f : FQ)
  | unpi4 (p : Pfx) (f : FQ)
  | pki8 (p : Pfx) (f : FQ)
  | pki4 (p : Pfx) (f : FQ)
  | idot4 (p : Pfx) (f : F3)
  | idot8 (p : Pfx) (f : F3)
  | bperm (p : Pfx) (f : F3)
  | sext8 (p : Pfx) (f : F3A)
  | sext16 (p : Pfx) (f : F3A)
  | xpick (p : Pfx) (f : F3)
  | xpickx (p : Pfx) (f : F3)
  | pall (p : Pfx) (f : FPA)
  | pany (p : Pfx) (f : FPA)
  | pmask (p : Pfx) (f : FDP)
  | traysum (p : Pfx) (f : F3A)
  | ld8 (p : Pfx) (f : FLd)
  | ld8s (p : Pfx) (f : FLd)
  | ld16 (p : Pfx) (f : FLd)
  | ld32 (p : Pfx) (f : FLd)
  | ld64 (p : Pfx) (f : FLd)
  | ld128 (p : Pfx) (f : FLd)
  | lds (p : Pfx) (f : FLd)
  | st8 (p : Pfx) (f : FSt)
  | st16 (p : Pfx) (f : FSt)
  | st32 (p : Pfx) (f : FSt)
  | st64 (p : Pfx) (f : FSt)
  | st128 (p : Pfx) (f : FSt)
  | sts (p : Pfx) (f : FSt)
  | stnt (p : Pfx) (f : FSt)
  | atadd (p : Pfx) (f : F3)
  | atmin (p : Pfx) (f : F3)
  | atmax (p : Pfx) (f : F3)
  | atand (p : Pfx) (f : F3)
  | atxchg (p : Pfx) (f : F3)
  | atcas (p : Pfx) (f : F3)
  | atfadd (p : Pfx) (f : F3)
  | ldres (p : Pfx) (f : F3A)
  | stcnd (p : Pfx) (f : FCmp)
  | acq (p : Pfx) (f : FAB)
  | rel (p : Pfx) (f : FA)
  | fence (p : Pfx)
  | bind (p : Pfx) (f : F3)
  | unbind (p : Pfx) (f : FA)
  | waitne (p : Pfx) (f : F3)
  | cpy (p : Pfx) (f : F3)
  | cpyt (p : Pfx) (f : F3)
  | ctag (p : Pfx) (f : FTag)
  | gath (p : Pfx) (f : F3)
  | tsalloc (p : Pfx) (f : F3A)
  | tsfree (p : Pfx) (f : FA)
  | publish (p : Pfx) (f : F3A)
  | mwld (p : Pfx) (f : F3)
  | mstr (p : Pfx) (f : F3)
  | mloop (p : Pfx) (f : FDB)
  | accpop (p : Pfx) (f : FPop)
  | accclr (p : Pfx) (f : FNA)
  | scpy (p : Pfx) (f : F3)
  | mshape (p : Pfx) (f : FNA)
  | board (p : Pfx) (f : F3)
  | catch_ (p : Pfx) (f : F3)
  | alight (p : Pfx) (f : FA)
  | rplc (p : Pfx) (f : F3)
  | migrate (f : FA)
  | homeq (p : Pfx) (f : F3A)
  | kvmap (p : Pfx) (f : F3)
  | kvld (p : Pfx) (f : F3)
  | kvst (p : Pfx) (f : F3)
  | osmx (p : Pfx) (f : F3A)
  | osmxf (p : Pfx) (f : F3)
  | verify (p : Pfx) (f : F3)
  | sample (p : Pfx) (f : F3)
  | launch (p : Pfx) (f : F3A)
  | launchs (p : Pfx) (f : F3)
  | resolve (p : Pfx) (f : FA)
  | squash (p : Pfx) (f : FA)
  | verq (p : Pfx) (f : F3A)
  | postres (p : Pfx) (f : FA)
  | xacq
  | xrel
  | ixset (p : Pfx) (f : FIxs)
  | ixget (f : FIxg)
  | ixmov (f : FIxm)
  | movsr (f : FSr)
  | setpri (p : Pfx) (f : FA)
  | bra (f : FBra)
  | brp (f : FBrp)
  | brnp (f : FBrp)
  | brsp (p : Pfx) (f : FBrp)
  | call (f : FCall)
  | ret
  | jmpi (f : FJmp)
  | loop (p : Pfx) (f : FLoop)
  | dqpush (f : FA)
  | dqpop (f : FD)
  | meet
  | meetl (f : FMeet)
  | exit (p : Pfx)
  | land
  | trap (p : Pfx)
  | eret
  | brk (p : Pfx)
  | nop
  | waitt (p : Pfx) (f : FA)
  | kill
  | mov (f : CReg)
  | addC (f : CReg)
  | subC (f : CReg)
  | andC (f : CReg)
  | orC (f : CReg)
  | xorC (f : CReg)
  | shliC (f : CImm)
  | shriC (f : CImm)
  | addiC (f : CImm)
  | moviC (f : CImm)
  | faddC (f : CReg)
  | fsubC (f : CReg)
  | fmulC (f : CReg)
  | fmaxC (f : CReg)
  | ld32C (f : CReg)
  | st32C (f : CReg)
  | loadReturn
  | longLatencyResult
  | spillWrite
  | fillRestore
  | poolWaitServe
  | fairnessLapse
  | spawnRecordWrite
  | formerTimeout
  | formerLaunch
  | formedTrayBind
  | frameFree
  | barrierComplete
  | acqWake
  | waitneWake
  | waitneTimeout
  | waittWake
  | engineTrap
  | cpyComplete
  | cpytCopyComplete
  | ctagToken
  | gathComplete
  | publishInstant
  | mwldComplete
  | mstrStep
  | mloopStep
  | scpyComplete
  | accpopFill
  | kvldComplete
  | kvstComplete
  | carAdvance
  | stationRegister
  | boardLoad
  | catchLatch
  | rplcServe
  | alightServe
  | carouselNotServed
  | migrateShip
  | bindRecordPlace
  | teamSave
  | commitNoticeSend
  | squashNoticeAck
  | peerSquashNotice
  | peerCommitNotice
  | fabricRequest
  | fabricResponse
  | parityDelta
  | drainMarkerAck
  | crossbarGrant
  | linkCrcFail
  | linkFailed
  | portTrain
  | fabtoExpiry
  | memberLost
  | rebuildRequest
  | replacementJoin
  | itemTake
  | pifoRelease
  | itemNop
  | itemLaunch
  | itemRecord
  | groupTimerLapse
  | itemGraph
  | itemCtxcreate
  | itemCtxctl
  | itemInval
  | itemPreempt
  | itemUpdate
  | takeover
  | sliceLapse
  | drainDeadline
  | tailPoll
  | chainRegister
  | chainRetire
  | doorbell
  | quiesce
  | l2hselWrite
  | dieOffline
  | dieReadmit
  | fabnoWrite
  | fabReconfig
  | pwrcapWrite
  | registerWrite
  | cxlMemWrite
  | cxlMemRead
  | clockStep
  | thermalTrip
  | powerOnBoot
  | tsallocHandleFill
  | verifyResult
  | sampleResult
  | hostReset
  | debuggerResume
  | attestationRequest
  deriving DecidableEq, Repr

end Sys2Proof
end

