-- ==== Sys2Proof/WellFormed.lean ====
section
/-!
DEFINITION. WellFormed.lean: when an operation is a legal instruction of a code section (R70, R71, R76 to R79, R82, R86 to
R92 and the field rules of R49, R162, R164, R201, R209, R246, R264, R282, R297, R322). Illegality that depends on data (R33,
R277) is decided where the instruction runs.
-/

namespace Sys2Proof

/-- The prefixes and MOD fields that a mnemonic accepts (R86): GUARD, IMM, XIMM, then RND, FTZ, SAT, SGNEN, SCEN, GRP, FMT;
`reads` says that it reads a register operand, so that its MOD may carry EMP. -/
structure Acc where
  g : Bool
  i : Bool
  x : Bool
  r : Bool
  z : Bool
  t : Bool
  s : Bool
  c : Bool
  q : Bool
  f : Bool
  reads : Bool
  deriving DecidableEq, Repr

/-- A MOD prefix as such is accepted (R86): some field of it is. -/
def Acc.mod (a : Acc) : Bool := a.r || a.z || a.t || a.s || a.c || a.q || a.f || (a.g && a.reads)

/-- GUARD payload values (R76): the clear policy needs a guard other than p0. -/
def Guard.ok (g : Guard) : Bool := !(g.clear && g.p == 0)

/-- MOD payload values (R78). -/
def Mod.ok (m : Mod) : Bool :=
  m.emp != 3 && m.fmt.toNat ≤ 11 && m.scope.toNat ≤ 5 && (m.scen || m.scope == 0) && (m.sgnen || (!m.sa && !m.sb))

/-- No MOD field outside the row is nonzero (R78), and SURV is FENCE's alone (R92; `surv` says that it may stand). -/
def Mod.fits (a : Acc) (surv : Bool) (m : Mod) : Bool :=
  (a.r || m.rnd == 0) && (a.z || !m.ftz) && (a.t || !m.sat) && (a.s || !m.sgnen) && (a.c || !m.scen) &&
  (a.q || m.grp == 0) && (a.f || m.fmt == 0) && ((a.g && a.reads) || m.emp == 0) && (surv || m.scope != 5)

/-- A group's prefixes are accepted by the row (R79, R86): at most two, XIMM only with IMM. -/
def Pfx.ok (a : Acc) (surv : Bool) (p : Pfx) : Bool :=
  (p.guard.isNone || a.g) && (p.imm.isNone || a.i) && (p.ximm.isNone || a.x) && (p.mod.isNone || a.mod) &&
  (p.ximm.isNone || p.imm.isSome) &&
  (p.imm.isSome.toNat + p.guard.isSome.toNat + p.mod.isSome.toNat + p.ximm.isSome.toNat ≤ 2) &&
  (match p.guard with | some g => g.ok | none => true) &&
  (match p.mod with | some m => m.ok && m.fits a surv | none => true)

/-- A register code that front code cannot name (R30). -/
def frontBad (front : Bool) (c : BitVec 7) : Bool :=
  front && ((32 ≤ c.toNat && c.toNat < 64) || (96 ≤ c.toNat && c.toNat < 112))

/-- A source code (R28, R82). -/
def okSrc (front : Bool) (c : BitVec 7) : Bool := c.toNat < 120 && !frontBad front c

/-- A destination code (R29, R82). -/
def okDst (front : Bool) (c : BitVec 7) : Bool := c.toNat < 112 && !frontBad front c

/-- An even pair code (R27, R70). -/
def okPair (front : Bool) (c : BitVec 7) : Bool := c.toNat < 96 && c.toNat % 2 == 0 && !frontBad front c

/-- A quad code (R201). -/
def okQuad (front : Bool) (c : BitVec 7) : Bool := c.toNat < 96 && c.toNat % 4 == 0 && !frontBad front c

/-- An s-register code that is a multiple of n, or the f code with the same alignment in front code (R30, R257, R282). -/
def okS (n : Nat) (front : Bool) (c : BitVec 7) : Bool :=
  c.toNat % n == 0 && ((64 ≤ c.toNat && c.toNat < 96) || (front && c.toNat < 32))

/-- A v code (R162, R49). -/
def okV (c : BitVec 7) : Bool := c.toNat < 64

/-- A v code that is a multiple of 4 (R282, R297). -/
def okV4 (c : BitVec 7) : Bool := c.toNat < 64 && c.toNat % 4 == 0

/-- The scale operand of major 15 (R103). -/
def okScale (c : BitVec 7) : Bool := c.toNat < 96

/-- IXSET's config source: an s code or a constant code (R52). -/
def okCfg (c : BitVec 7) : Bool := (64 ≤ c.toNat && c.toNat < 96) || (112 ≤ c.toNat && c.toNat < 120)

/-- A code that names a register source, so that a trap bit may stand on it (R70, R201). -/
def okTrap (t : Bool) (c : BitVec 7) : Bool := !(t && 112 ≤ c.toNat)

/-- The field and trap bit of the immediate position under IMM (R75). -/
def immOk (p : Pfx) (c : BitVec 7) (t : Bool) (plain : Bool) : Bool :=
  match p.imm with
  | some _ => c == 0 && !t
  | none => plain && okTrap t c

/-- The special register codes of R48. -/
def srValid (n : Nat) : Bool := n ≤ 20 || (24 ≤ n && n ≤ 27) || (32 ≤ n && n ≤ 47)

/-- The per-thread special registers, illegal in front code (R48). -/
def srPerThread (n : Nat) : Bool := n == 0 || n == 1 || n == 17 || (32 ≤ n && n ≤ 47)

/-- No index register stands as v[x+] in more than one operand position (R40). -/
def distinctAdv : List (BitVec 7) → Bool
  | [] => true
  | c :: cs => !(104 ≤ c.toNat && c.toNat < 112 && cs.contains c) && distinctAdv cs

/-- The payload of IMM read as a number, 0 when there is none. -/
def Pfx.immNat (p : Pfx) : Nat := (p.imm.getD 0).toNat

/-- The letters G of R87 and R88. -/
def accG : Acc := ⟨true, false, false, false, false, false, false, false, false, false, true⟩
/-- The letters GI of R87 and R88. -/
def accGI : Acc := ⟨true, true, false, false, false, false, false, false, false, false, true⟩
/-- The letters GI of R87 and R88, of a row that reads no register operand. -/
def accGIN : Acc := ⟨true, true, false, false, false, false, false, false, false, false, false⟩
/-- The letters GIX of R87 and R88. -/
def accGIX : Acc := ⟨true, true, true, false, false, false, false, false, false, false, true⟩
/-- The letters GIc of R87 and R88. -/
def accGIc : Acc := ⟨true, true, false, false, false, false, false, true, false, false, true⟩
/-- The letters GIcs of R87 and R88. -/
def accGIcs : Acc := ⟨true, true, false, false, false, false, true, true, false, false, true⟩
/-- The letters GIrf of R87 and R88. -/
def accGIrf : Acc := ⟨true, true, false, true, false, false, false, false, false, true, true⟩
/-- The letters GIrz of R87 and R88. -/
def accGIrz : Acc := ⟨true, true, false, true, true, false, false, false, false, false, true⟩
/-- The letters GIs of R87 and R88. -/
def accGIs : Acc := ⟨true, true, false, false, false, false, true, false, false, false, true⟩
/-- The letters GIt of R87 and R88. -/
def accGIt : Acc := ⟨true, true, false, false, false, true, false, false, false, false, true⟩
/-- The letters GIts of R87 and R88. -/
def accGIts : Acc := ⟨true, true, false, false, false, true, true, false, false, false, true⟩
/-- The letters GIz of R87 and R88. -/
def accGIz : Acc := ⟨true, true, false, false, true, false, false, false, false, false, true⟩
/-- The letters G of R87 and R88, of a row that reads no register operand. -/
def accGN : Acc := ⟨true, false, false, false, false, false, false, false, false, false, false⟩
/-- The letters Gc of R87 and R88. -/
def accGc : Acc := ⟨true, false, false, false, false, false, false, true, false, false, true⟩
/-- The letters Gc of R87 and R88, of a row that reads no register operand. -/
def accGcN : Acc := ⟨true, false, false, false, false, false, false, true, false, false, false⟩
/-- The letters Gf of R87 and R88. -/
def accGf : Acc := ⟨true, false, false, false, false, false, false, false, false, true, true⟩
/-- The letters Gr of R87 and R88. -/
def accGr : Acc := ⟨true, false, false, true, false, false, false, false, false, false, true⟩
/-- The letters Grsq of R87 and R88. -/
def accGrsq : Acc := ⟨true, false, false, true, false, false, true, false, true, false, true⟩
/-- The letters Grt of R87 and R88. -/
def accGrt : Acc := ⟨true, false, false, true, false, true, false, false, false, false, true⟩
/-- The letters Grz of R87 and R88. -/
def accGrz : Acc := ⟨true, false, false, true, true, false, false, false, false, false, true⟩
/-- The letters Grzf of R87 and R88. -/
def accGrzf : Acc := ⟨true, false, false, true, true, false, false, false, false, true, true⟩
/-- The letters Grzt of R87 and R88. -/
def accGrzt : Acc := ⟨true, false, false, true, true, true, false, false, false, false, true⟩
/-- The letters Gz of R87 and R88. -/
def accGz : Acc := ⟨true, false, false, false, true, false, false, false, false, false, true⟩
/-- The letters I of R87 and R88. -/
def accI : Acc := ⟨false, true, false, false, false, false, false, false, false, false, true⟩

/-- An instruction is legal in a code section, as far as its encoding decides (R82). Events are no instructions. -/
def Instr.legal (front : Bool) : Instr → Bool
  | .add p f => !front && p.ok accGIts false && okDst front f.d && okSrc front f.a && okTrap f.ta f.a && immOk p f.b f.tb (okSrc front f.b) && distinctAdv [f.d, f.a, f.b] && (match p.mod with | some m => !m.sgnen || (m.sat && m.sa == m.sb) | none => true)
  | .sub p f => !front && p.ok accGIts false && okDst front f.d && okSrc front f.a && okTrap f.ta f.a && immOk p f.b f.tb (okSrc front f.b) && distinctAdv [f.d, f.a, f.b] && (match p.mod with | some m => !m.sgnen || (m.sat && m.sa == m.sb) | none => true)
  | .mul p f => !front && p.ok accGI false && okDst front f.d && okSrc front f.a && okTrap f.ta f.a && immOk p f.b f.tb (okSrc front f.b) && distinctAdv [f.d, f.a, f.b]
  | .mulh p f => !front && p.ok accGIs false && okDst front f.d && okSrc front f.a && okTrap f.ta f.a && immOk p f.b f.tb (okSrc front f.b) && distinctAdv [f.d, f.a, f.b]
  | .mulhu p f => !front && p.ok accGIs false && okDst front f.d && okSrc front f.a && okTrap f.ta f.a && immOk p f.b f.tb (okSrc front f.b) && distinctAdv [f.d, f.a, f.b]
  | .min p f => !front && p.ok accGIs false && okDst front f.d && okSrc front f.a && okTrap f.ta f.a && immOk p f.b f.tb (okSrc front f.b) && distinctAdv [f.d, f.a, f.b]
  | .max p f => !front && p.ok accGIs false && okDst front f.d && okSrc front f.a && okTrap f.ta f.a && immOk p f.b f.tb (okSrc front f.b) && distinctAdv [f.d, f.a, f.b]
  | .minu p f => !front && p.ok accGIs false && okDst front f.d && okSrc front f.a && okTrap f.ta f.a && immOk p f.b f.tb (okSrc front f.b) && distinctAdv [f.d, f.a, f.b]
  | .maxu p f => !front && p.ok accGIs false && okDst front f.d && okSrc front f.a && okTrap f.ta f.a && immOk p f.b f.tb (okSrc front f.b) && distinctAdv [f.d, f.a, f.b]
  | .div p f => !front && p.ok accGIs false && okDst front f.d && okSrc front f.a && okTrap f.ta f.a && immOk p f.b f.tb (okSrc front f.b) && distinctAdv [f.d, f.a, f.b]
  | .divu p f => !front && p.ok accGIs false && okDst front f.d && okSrc front f.a && okTrap f.ta f.a && immOk p f.b f.tb (okSrc front f.b) && distinctAdv [f.d, f.a, f.b]
  | .rem p f => !front && p.ok accGIs false && okDst front f.d && okSrc front f.a && okTrap f.ta f.a && immOk p f.b f.tb (okSrc front f.b) && distinctAdv [f.d, f.a, f.b]
  | .remu p f => !front && p.ok accGIs false && okDst front f.d && okSrc front f.a && okTrap f.ta f.a && immOk p f.b f.tb (okSrc front f.b) && distinctAdv [f.d, f.a, f.b]
  | .and p f => !front && p.ok accGI false && okDst front f.d && okSrc front f.a && okTrap f.ta f.a && immOk p f.b f.tb (okSrc front f.b) && distinctAdv [f.d, f.a, f.b]
  | .or p f => !front && p.ok accGI false && okDst front f.d && okSrc front f.a && okTrap f.ta f.a && immOk p f.b f.tb (okSrc front f.b) && distinctAdv [f.d, f.a, f.b]
  | .xor p f => !front && p.ok accGI false && okDst front f.d && okSrc front f.a && okTrap f.ta f.a && immOk p f.b f.tb (okSrc front f.b) && distinctAdv [f.d, f.a, f.b]
  | .andn p f => !front && p.ok accGI false && okDst front f.d && okSrc front f.a && okTrap f.ta f.a && immOk p f.b f.tb (okSrc front f.b) && distinctAdv [f.d, f.a, f.b]
  | .shl p f => !front && p.ok accGI false && okDst front f.d && okSrc front f.a && okTrap f.ta f.a && immOk p f.b f.tb (okSrc front f.b) && distinctAdv [f.d, f.a, f.b]
  | .shr p f => !front && p.ok accGI false && okDst front f.d && okSrc front f.a && okTrap f.ta f.a && immOk p f.b f.tb (okSrc front f.b) && distinctAdv [f.d, f.a, f.b]
  | .sra p f => !front && p.ok accGI false && okDst front f.d && okSrc front f.a && okTrap f.ta f.a && immOk p f.b f.tb (okSrc front f.b) && distinctAdv [f.d, f.a, f.b]
  | .rol p f => !front && p.ok accGI false && okDst front f.d && okSrc front f.a && okTrap f.ta f.a && immOk p f.b f.tb (okSrc front f.b) && distinctAdv [f.d, f.a, f.b]
  | .ror p f => !front && p.ok accGI false && okDst front f.d && okSrc front f.a && okTrap f.ta f.a && immOk p f.b f.tb (okSrc front f.b) && distinctAdv [f.d, f.a, f.b]
  | .bcnt p f => !front && p.ok accG false && okDst front f.d && okSrc front f.a && okTrap f.ta f.a && distinctAdv [f.d, f.a]
  | .clz p f => !front && p.ok accG false && okDst front f.d && okSrc front f.a && okTrap f.ta f.a && distinctAdv [f.d, f.a]
  | .ctz p f => !front && p.ok accG false && okDst front f.d && okSrc front f.a && okTrap f.ta f.a && distinctAdv [f.d, f.a]
  | .bitrev p f => !front && p.ok accG false && okDst front f.d && okSrc front f.a && okTrap f.ta f.a && distinctAdv [f.d, f.a]
  | .cmpeq p f => !front && p.ok accGI false && okSrc front f.a && okTrap f.ta f.a && immOk p f.b f.tb (okSrc front f.b) && distinctAdv [f.a, f.b]
  | .cmpne p f => !front && p.ok accGI false && okSrc front f.a && okTrap f.ta f.a && immOk p f.b f.tb (okSrc front f.b) && distinctAdv [f.a, f.b]
  | .cmplt p f => !front && p.ok accGIs false && okSrc front f.a && okTrap f.ta f.a && immOk p f.b f.tb (okSrc front f.b) && distinctAdv [f.a, f.b]
  | .cmple p f => !front && p.ok accGIs false && okSrc front f.a && okTrap f.ta f.a && immOk p f.b f.tb (okSrc front f.b) && distinctAdv [f.a, f.b]
  | .cmpltu p f => !front && p.ok accGIs false && okSrc front f.a && okTrap f.ta f.a && immOk p f.b f.tb (okSrc front f.b) && distinctAdv [f.a, f.b]
  | .cmpleu p f => !front && p.ok accGIs false && okSrc front f.a && okTrap f.ta f.a && immOk p f.b f.tb (okSrc front f.b) && distinctAdv [f.a, f.b]
  | .sel p f => !front && p.ok accGI false && okDst front f.d && okSrc front f.a && okTrap f.ta f.a && immOk p f.b f.tb (okSrc front f.b) && distinctAdv [f.d, f.a, f.b] && f.n != 0
  | .pand p _ => !front && p.ok accG false
  | .por p _ => !front && p.ok accG false
  | .pxor p _ => !front && p.ok accG false
  | .pnot p _ => !front && p.ok accG false
  | .pfrom p f => !front && p.ok accG false && okSrc front f.a && okTrap f.ta f.a
  | .pto p f => !front && p.ok accG false && okDst front f.d
  | .movi p f => !front && p.ok accGIN false && okDst front f.d
  | .addi p f => !front && p.ok accGIt false && okDst front f.d && okSrc front f.a && okTrap f.ta f.a && distinctAdv [f.d, f.a]
  | .shli p f => !front && p.ok accG false && okDst front f.d && okSrc front f.a && okTrap f.ta f.a && distinctAdv [f.d, f.a]
  | .shri p f => !front && p.ok accG false && okDst front f.d && okSrc front f.a && okTrap f.ta f.a && distinctAdv [f.d, f.a]
  | .andi p f => !front && p.ok accGI false && okDst front f.d && okSrc front f.a && okTrap f.ta f.a && distinctAdv [f.d, f.a]
  | .ori p f => !front && p.ok accGI false && okDst front f.d && okSrc front f.a && okTrap f.ta f.a && distinctAdv [f.d, f.a]
  | .xori p f => !front && p.ok accGI false && okDst front f.d && okSrc front f.a && okTrap f.ta f.a && distinctAdv [f.d, f.a]
  | .fadd p f => !front && p.ok accGIrz false && okDst front f.d && okSrc front f.a && okTrap f.ta f.a && immOk p f.b f.tb (okSrc front f.b) && distinctAdv [f.d, f.a, f.b]
  | .fsub p f => !front && p.ok accGIrz false && okDst front f.d && okSrc front f.a && okTrap f.ta f.a && immOk p f.b f.tb (okSrc front f.b) && distinctAdv [f.d, f.a, f.b]
  | .fmul p f => !front && p.ok accGIrz false && okDst front f.d && okSrc front f.a && okTrap f.ta f.a && immOk p f.b f.tb (okSrc front f.b) && distinctAdv [f.d, f.a, f.b]
  | .fdiv p f => !front && p.ok accGIrz false && okDst front f.d && okSrc front f.a && okTrap f.ta f.a && immOk p f.b f.tb (okSrc front f.b) && distinctAdv [f.d, f.a, f.b]
  | .fmin p f => !front && p.ok accGIz false && okDst front f.d && okSrc front f.a && okTrap f.ta f.a && immOk p f.b f.tb (okSrc front f.b) && distinctAdv [f.d, f.a, f.b]
  | .fmax p f => !front && p.ok accGIz false && okDst front f.d && okSrc front f.a && okTrap f.ta f.a && immOk p f.b f.tb (okSrc front f.b) && distinctAdv [f.d, f.a, f.b]
  | .fscale p f => !front && p.ok accGIrz false && okDst front f.d && okSrc front f.a && okTrap f.ta f.a && immOk p f.b f.tb (okSrc front f.b) && distinctAdv [f.d, f.a, f.b]
  | .fma p f => !front && p.ok accGIrz false && okDst front f.d && okSrc front f.a && okTrap f.ta f.a && immOk p f.b f.tb (okSrc front f.b) && distinctAdv [f.d, f.a, f.b]
  | .fms p f => !front && p.ok accGIrz false && okDst front f.d && okSrc front f.a && okTrap f.ta f.a && immOk p f.b f.tb (okSrc front f.b) && distinctAdv [f.d, f.a, f.b]
  | .fnma p f => !front && p.ok accGIrz false && okDst front f.d && okSrc front f.a && okTrap f.ta f.a && immOk p f.b f.tb (okSrc front f.b) && distinctAdv [f.d, f.a, f.b]
  | .fsqrt p f => !front && p.ok accGrz false && okDst front f.d && okSrc front f.a && okTrap f.ta f.a && distinctAdv [f.d, f.a]
  | .frcpa p f => !front && p.ok accGz false && okDst front f.d && okSrc front f.a && okTrap f.ta f.a && distinctAdv [f.d, f.a]
  | .frsqa p f => !front && p.ok accGz false && okDst front f.d && okSrc front f.a && okTrap f.ta f.a && distinctAdv [f.d, f.a]
  | .fcmpeq p f => !front && p.ok accGIz false && okSrc front f.a && okTrap f.ta f.a && immOk p f.b f.tb (okSrc front f.b) && distinctAdv [f.a, f.b]
  | .fcmpne p f => !front && p.ok accGIz false && okSrc front f.a && okTrap f.ta f.a && immOk p f.b f.tb (okSrc front f.b) && distinctAdv [f.a, f.b]
  | .fcmplt p f => !front && p.ok accGIz false && okSrc front f.a && okTrap f.ta f.a && immOk p f.b f.tb (okSrc front f.b) && distinctAdv [f.a, f.b]
  | .fcmple p f => !front && p.ok accGIz false && okSrc front f.a && okTrap f.ta f.a && immOk p f.b f.tb (okSrc front f.b) && distinctAdv [f.a, f.b]
  | .fcmpun p f => !front && p.ok accGIz false && okSrc front f.a && okTrap f.ta f.a && immOk p f.b f.tb (okSrc front f.b) && distinctAdv [f.a, f.b]
  | .fclass p f => !front && p.ok accGf false && okDst front f.d && okSrc front f.a && okTrap f.ta f.a && distinctAdv [f.d, f.a] && (match p.mod with | some m => m.fmt == 0 || 7 ≤ m.fmt.toNat | none => true)
  | .ftstnf p f => !front && p.ok accGf false && okSrc front f.a && okTrap f.ta f.a && (match p.mod with | some m => m.fmt == 0 || 7 ≤ m.fmt.toNat | none => true)
  | .fexp2 p f => !front && p.ok accGz false && okDst front f.d && okSrc front f.a && okTrap f.ta f.a && distinctAdv [f.d, f.a]
  | .flog2 p f => !front && p.ok accGz false && okDst front f.d && okSrc front f.a && okTrap f.ta f.a && distinctAdv [f.d, f.a]
  | .fsin p f => !front && p.ok accGz false && okDst front f.d && okSrc front f.a && okTrap f.ta f.a && distinctAdv [f.d, f.a]
  | .fcos p f => !front && p.ok accGz false && okDst front f.d && okSrc front f.a && okTrap f.ta f.a && distinctAdv [f.d, f.a]
  | .ftanh p f => !front && p.ok accGz false && okDst front f.d && okSrc front f.a && okTrap f.ta f.a && distinctAdv [f.d, f.a]
  | .fsigm p f => !front && p.ok accGz false && okDst front f.d && okSrc front f.a && okTrap f.ta f.a && distinctAdv [f.d, f.a]
  | .phadd p f => !front && p.ok accGIrz false && okDst front f.d && okSrc front f.a && okTrap f.ta f.a && immOk p f.b f.tb (okSrc front f.b) && distinctAdv [f.d, f.a, f.b] && p.immNat < 65536
  | .phmul p f => !front && p.ok accGIrz false && okDst front f.d && okSrc front f.a && okTrap f.ta f.a && immOk p f.b f.tb (okSrc front f.b) && distinctAdv [f.d, f.a, f.b] && p.immNat < 65536
  | .phfma p f => !front && p.ok accGIrz false && okDst front f.d && okSrc front f.a && okTrap f.ta f.a && immOk p f.b f.tb (okSrc front f.b) && distinctAdv [f.d, f.a, f.b] && p.immNat < 65536
  | .phmax p f => !front && p.ok accGIrz false && okDst front f.d && okSrc front f.a && okTrap f.ta f.a && immOk p f.b f.tb (okSrc front f.b) && distinctAdv [f.d, f.a, f.b] && p.immNat < 65536
  | .pbadd p f => !front && p.ok accGIrz false && okDst front f.d && okSrc front f.a && okTrap f.ta f.a && immOk p f.b f.tb (okSrc front f.b) && distinctAdv [f.d, f.a, f.b] && p.immNat < 65536
  | .pbfma p f => !front && p.ok accGIrz false && okDst front f.d && okSrc front f.a && okTrap f.ta f.a && immOk p f.b f.tb (okSrc front f.b) && distinctAdv [f.d, f.a, f.b] && p.immNat < 65536
  | .f64add p f => !front && p.ok accGrz false && okPair front f.d && okPair front f.a && okPair front f.b
  | .f64sub p f => !front && p.ok accGrz false && okPair front f.d && okPair front f.a && okPair front f.b
  | .f64mul p f => !front && p.ok accGrz false && okPair front f.d && okPair front f.a && okPair front f.b
  | .f64fma p f => !front && p.ok accGrz false && okPair front f.d && okPair front f.a && okPair front f.b
  | .f64div p f => !front && p.ok accGrz false && okPair front f.d && okPair front f.a && okPair front f.b
  | .cvtfi p f => !front && p.ok accGrzf false && okDst front f.d && okSrc front f.a && okTrap f.ta f.a && distinctAdv [f.d, f.a] && (match p.mod with | some m => m.fmt.toNat ≤ 6 | none => true)
  | .cvtif p f => !front && p.ok accGIrf false && okDst front f.d && immOk p f.a f.ta (okSrc front f.a) && distinctAdv [f.d, f.a] && (match p.mod with | some m => m.fmt.toNat ≤ 6 | none => true)
  | .cvtfh p f => !front && p.ok accGrzt false && okDst front f.d && okSrc front f.a && okTrap f.ta f.a && distinctAdv [f.d, f.a]
  | .cvthf p f => !front && p.ok accGz false && okDst front f.d && okSrc front f.a && okTrap f.ta f.a && distinctAdv [f.d, f.a]
  | .cvtfb p f => !front && p.ok accGrzt false && okDst front f.d && okSrc front f.a && okTrap f.ta f.a && distinctAdv [f.d, f.a]
  | .cvtfd p f => !front && p.ok accGz false && okPair front f.d && okSrc front f.a && okTrap f.ta f.a
  | .cvtdf p f => !front && p.ok accGrzt false && okDst front f.d && okPair front f.a
  | .pke4 p f => !front && p.ok accGr false && okDst front f.d && okSrc front f.a && okScale f.s && distinctAdv [f.d, f.a]
  | .pke5 p f => !front && p.ok accGrt false && okDst front f.d && okSrc front f.a && okScale f.s && distinctAdv [f.d, f.a]
  | .unpe4 p f => !front && p.ok accG false && okDst front f.d && okSrc front f.a && okScale f.s && distinctAdv [f.d, f.a]
  | .unpe5 p f => !front && p.ok accG false && okDst front f.d && okSrc front f.a && okScale f.s && distinctAdv [f.d, f.a]
  | .unpi8 p f => !front && p.ok accGrsq false && okDst front f.d && okSrc front f.a && okScale f.s && distinctAdv [f.d, f.a] && (match p.mod with | some m => !m.sb | none => true)
  | .unpi4 p f => !front && p.ok accGrsq false && okPair front f.d && okSrc front f.a && okScale f.s && (match p.mod with | some m => !m.sb | none => true)
  | .pki8 p f => !front && p.ok accGrsq false && okDst front f.d && okSrc front f.a && okScale f.s && distinctAdv [f.d, f.a] && (match p.mod with | some m => !m.sb | none => true)
  | .pki4 p f => !front && p.ok accGrsq false && okDst front f.d && okPair front f.a && okScale f.s && (match p.mod with | some m => !m.sb | none => true)
  | .idot4 p f => !front && p.ok accGIs false && okDst front f.d && okSrc front f.a && okTrap f.ta f.a && immOk p f.b f.tb (okSrc front f.b) && distinctAdv [f.d, f.a, f.b]
  | .idot8 p f => !front && p.ok accGIs false && okDst front f.d && okSrc front f.a && okTrap f.ta f.a && immOk p f.b f.tb (okSrc front f.b) && distinctAdv [f.d, f.a, f.b]
  | .bperm p f => !front && p.ok accGI false && okDst front f.d && okSrc front f.a && okTrap f.ta f.a && immOk p f.b f.tb (okSrc front f.b) && distinctAdv [f.d, f.a, f.b]
  | .sext8 p f => !front && p.ok accG false && okDst front f.d && okSrc front f.a && okTrap f.ta f.a && distinctAdv [f.d, f.a]
  | .sext16 p f => !front && p.ok accG false && okDst front f.d && okSrc front f.a && okTrap f.ta f.a && distinctAdv [f.d, f.a]
  | .xpick p f => !front && p.ok accGI false && okDst front f.d && okV f.a && immOk p f.b f.tb (okSrc front f.b) && distinctAdv [f.d, f.b]
  | .xpickx p f => !front && p.ok accGI false && okDst front f.d && okV f.a && immOk p f.b f.tb (okSrc front f.b) && distinctAdv [f.d, f.b]
  | .pall p _ => !front && p.ok accG false
  | .pany p _ => !front && p.ok accG false
  | .pmask p f => !front && p.ok accG false && okDst front f.d
  | .traysum p f => !front && p.ok accGrz false && okDst front f.d && okSrc front f.a && okTrap f.ta f.a && distinctAdv [f.d, f.a]
  | .ld8 p f => p.ok accGIX false && okDst front f.d && okPair front f.a
  | .ld8s p f => p.ok accGIX false && okDst front f.d && okPair front f.a
  | .ld16 p f => p.ok accGIX false && okDst front f.d && okPair front f.a
  | .ld32 p f => p.ok accGIX false && okDst front f.d && okPair front f.a
  | .ld64 p f => p.ok accGIX false && okPair front f.d && okPair front f.a
  | .ld128 p f => p.ok accGIX false && okQuad front f.d && okPair front f.a
  | .lds p f => p.ok accGIX false && okS 1 front f.d && okS 2 front f.a
  | .st8 p f => p.ok accGIX false && okSrc front f.d && okTrap f.td f.d && okPair front f.a
  | .st16 p f => p.ok accGIX false && okSrc front f.d && okTrap f.td f.d && okPair front f.a
  | .st32 p f => p.ok accGIX false && okSrc front f.d && okTrap f.td f.d && okPair front f.a
  | .st64 p f => p.ok accGIX false && okPair front f.d && okPair front f.a
  | .st128 p f => p.ok accGIX false && okQuad front f.d && okPair front f.a
  | .sts p f => p.ok accGIX false && okS 1 front f.d && okS 2 front f.a
  | .stnt p f => p.ok accGIX false && okSrc front f.d && okTrap f.td f.d && okPair front f.a
  | .atadd p f => p.ok accGIc false && okDst front f.d && okPair front f.a && immOk p f.b f.tb (okSrc front f.b) && distinctAdv [f.d, f.b]
  | .atmin p f => p.ok accGIcs false && okDst front f.d && okPair front f.a && immOk p f.b f.tb (okSrc front f.b) && distinctAdv [f.d, f.b] && (match p.mod with | some m => !m.sa | none => true)
  | .atmax p f => p.ok accGIcs false && okDst front f.d && okPair front f.a && immOk p f.b f.tb (okSrc front f.b) && distinctAdv [f.d, f.b] && (match p.mod with | some m => !m.sa | none => true)
  | .atand p f => p.ok accGIc false && okDst front f.d && okPair front f.a && immOk p f.b f.tb (okSrc front f.b) && distinctAdv [f.d, f.b]
  | .atxchg p f => p.ok accGIc false && okDst front f.d && okPair front f.a && immOk p f.b f.tb (okSrc front f.b) && distinctAdv [f.d, f.b]
  | .atcas p f => p.ok accGc false && okDst front f.d && okPair front f.a && okPair front f.b
  | .atfadd p f => p.ok accGIc false && okDst front f.d && okPair front f.a && immOk p f.b f.tb (okSrc front f.b) && distinctAdv [f.d, f.b]
  | .ldres p f => p.ok accG false && okDst front f.d && okPair front f.a
  | .stcnd p f => p.ok accG false && okPair front f.a && okSrc front f.b && okTrap f.tb f.b
  | .acq p f => p.ok accGIc false && okPair front f.a && immOk p f.b f.tb (okPair front f.b)
  | .rel p f => p.ok accGc false && okPair front f.a
  | .fence p => p.ok accGcN true
  | .bind p f => p.ok accGIc false && okPair front f.d && okPair front f.a && immOk p f.b f.tb (okSrc front f.b)
  | .unbind p f => p.ok accG false && okPair front f.a
  | .waitne p f => p.ok accGI false && okDst front f.d && okPair front f.a && immOk p f.b f.tb (okSrc front f.b) && distinctAdv [f.d, f.b]
  | .cpy p f => p.ok accGIX false && okS 1 front f.d && okPair front f.a && okPair front f.b && p.imm.isSome && (p.ximm.getD 0).toNat < 2^22
  | .cpyt p f => !front && p.ok accGI false && okSrc front f.d && okPair front f.a && okPair front f.b && p.immNat < 4
  | .ctag p f => !front && p.ok accGN false && okS 1 front f.d
  | .gath p f => p.ok accGIX false && okS 1 front f.d && okPair front f.a && okPair front f.b && p.imm.isSome && p.ximm.isSome && (p.immNat / 4096) % 256 == 0
  | .tsalloc p f => p.ok accGI false && okPair front f.d && immOk p f.a f.ta (okSrc front f.a)
  | .tsfree p f => p.ok accG false && okPair front f.a
  | .publish p f => p.ok accG false && okS 1 front f.d && okPair front f.a
  | .mwld p f => p.ok accG false && okS 1 front f.d && okPair front f.a && okS 2 front f.b
  | .mstr p f => p.ok accG false && okS 1 front f.d && okPair front f.a && okS 2 front f.b
  | .mloop p f => p.ok accG false && okS 1 front f.d && okS 8 front f.b
  | .accpop p f => !front && p.ok accGN false && okV4 f.d
  | .accclr p f => p.ok accGI false && immOk p f.a f.ta (okSrc front f.a)
  | .scpy p f => p.ok accG false && okS 1 front f.d && okPair front f.a && okSrc front f.b && okTrap f.tb f.b
  | .mshape p f => p.ok accG false && okPair front f.a
  | .board p f => p.ok accGI false && okS 1 front f.d && immOk p f.a f.ta (okSrc front f.a) && okPair front f.b
  | .catch_ p f => p.ok accGI false && okS 1 front f.d && immOk p f.a f.ta (okSrc front f.a) && okPair front f.b
  | .alight p f => p.ok accGI false && immOk p f.a f.ta (okSrc front f.a)
  | .rplc p f => p.ok accGI false && okS 1 front f.d && immOk p f.a f.ta (okSrc front f.a) && okPair front f.b
  | .migrate f => !front && okPair front f.a
  | .homeq p f => p.ok accG false && okDst front f.d && okPair front f.a
  | .kvmap p f => p.ok accGI false && okDst front f.d && okPair front f.a && immOk p f.b f.tb (okSrc front f.b) && distinctAdv [f.d, f.b]
  | .kvld p f => p.ok accGI false && okS 4 front f.d && okPair front f.a && immOk p f.b f.tb (okSrc front f.b)
  | .kvst p f => p.ok accGI false && okS 4 front f.d && okPair front f.a && immOk p f.b f.tb (okSrc front f.b)
  | .osmx p f => !front && p.ok accG false && okV4 f.d && okSrc front f.a && okTrap f.ta f.a
  | .osmxf p f => !front && p.ok accG false && okDst front f.d && okSrc front f.a && okTrap f.ta f.a && okSrc front f.b && okTrap f.tb f.b && distinctAdv [f.d, f.a, f.b]
  | .verify p f => !front && p.ok accG false && okDst front f.d && okPair front f.a && okSrc front f.b && okTrap f.tb f.b && distinctAdv [f.d, f.b]
  | .sample p f => !front && p.ok accG false && okDst front f.d && okPair front f.a && okSrc front f.b && okTrap f.tb f.b && distinctAdv [f.d, f.b]
  | .launch p f => p.ok accG false && okS 2 front f.d && okPair front f.a
  | .launchs p f => p.ok accG false && okS 4 front f.d && okPair front f.a && okPair front f.b
  | .resolve p f => p.ok accGI false && immOk p f.a f.ta (okSrc front f.a)
  | .squash p f => p.ok accGI false && immOk p f.a f.ta (okSrc front f.a)
  | .verq p f => p.ok accGI false && okDst front f.d && immOk p f.a f.ta (okSrc front f.a) && distinctAdv [f.d, f.a]
  | .postres p f => p.ok accG false && okPair front f.a
  | .xacq => !front
  | .xrel => !front
  | .ixset p f => !front && p.ok accI false && okV f.a && immOk p f.b f.tb (okCfg f.b)
  | .ixget f => !front && okDst front f.d
  | .ixmov f => !front && okSrc front f.a && okTrap f.ta f.a
  | .movsr f => okDst front f.d && srValid f.sr.toNat && !(front && srPerThread f.sr.toNat)
  | .setpri p f => p.ok accI false && immOk p f.a f.ta (okSrc front f.a)
  | .bra _ => true
  | .brp _ => true
  | .brnp _ => true
  | .brsp p _ => !front && p.ok accI false && p.immNat ≤ 32
  | .call f => f.w.toNat ≤ 4 && (!front || f.w == 0)
  | .ret => true
  | .jmpi f => okPair front f.a
  | .loop p f => p.ok accI false && okSrc front f.a && okTrap f.ta f.a && f.lc.toNat ≤ 2 && (if p.imm.isSome then f.e == 0 && 3 ≤ p.immNat else 3 ≤ f.e.toNat)
  | .dqpush f => okPair front f.a
  | .dqpop f => okS 2 front f.d
  | .meet => !front
  | .meetl f => !front && f.n != 0
  | .exit p => !front && p.ok accGN false
  | .land => true
  | .trap p => p.ok accGIN false
  | .eret => true
  | .brk p => p.ok accGN false
  | .nop => true
  | .waitt p f => p.ok accGIX false && immOk p f.a f.ta (okPair front f.a)
  | .kill => !front
  | .mov _ => true
  | .addC _ => true
  | .subC _ => true
  | .andC _ => true
  | .orC _ => true
  | .xorC _ => true
  | .shliC _ => true
  | .shriC _ => true
  | .addiC _ => true
  | .moviC _ => true
  | .faddC _ => true
  | .fsubC _ => true
  | .fmulC _ => true
  | .fmaxC _ => true
  | .ld32C f => f.b.toNat % 2 == 0
  | .st32C f => f.b.toNat % 2 == 0
  | .loadReturn => false
  | .longLatencyResult => false
  | .spillWrite => false
  | .fillRestore => false
  | .poolWaitServe => false
  | .fairnessLapse => false
  | .spawnRecordWrite => false
  | .formerTimeout => false
  | .formerLaunch => false
  | .formedTrayBind => false
  | .frameFree => false
  | .barrierComplete => false
  | .acqWake => false
  | .waitneWake => false
  | .waitneTimeout => false
  | .waittWake => false
  | .engineTrap => false
  | .cpyComplete => false
  | .cpytCopyComplete => false
  | .ctagToken => false
  | .gathComplete => false
  | .publishInstant => false
  | .mwldComplete => false
  | .mstrStep => false
  | .mloopStep => false
  | .scpyComplete => false
  | .accpopFill => false
  | .kvldComplete => false
  | .kvstComplete => false
  | .carAdvance => false
  | .stationRegister => false
  | .boardLoad => false
  | .catchLatch => false
  | .rplcServe => false
  | .alightServe => false
  | .carouselNotServed => false
  | .migrateShip => false
  | .bindRecordPlace => false
  | .teamSave => false
  | .commitNoticeSend => false
  | .squashNoticeAck => false
  | .peerSquashNotice => false
  | .peerCommitNotice => false
  | .fabricRequest => false
  | .fabricResponse => false
  | .parityDelta => false
  | .drainMarkerAck => false
  | .crossbarGrant => false
  | .linkCrcFail => false
  | .linkFailed => false
  | .portTrain => false
  | .fabtoExpiry => false
  | .memberLost => false
  | .rebuildRequest => false
  | .replacementJoin => false
  | .itemTake => false
  | .pifoRelease => false
  | .itemNop => false
  | .itemLaunch => false
  | .itemRecord => false
  | .groupTimerLapse => false
  | .itemGraph => false
  | .itemCtxcreate => false
  | .itemCtxctl => false
  | .itemInval => false
  | .itemPreempt => false
  | .itemUpdate => false
  | .takeover => false
  | .sliceLapse => false
  | .drainDeadline => false
  | .tailPoll => false
  | .chainRegister => false
  | .chainRetire => false
  | .doorbell => false
  | .quiesce => false
  | .l2hselWrite => false
  | .dieOffline => false
  | .dieReadmit => false
  | .fabnoWrite => false
  | .fabReconfig => false
  | .pwrcapWrite => false
  | .registerWrite => false
  | .cxlMemWrite => false
  | .cxlMemRead => false
  | .clockStep => false
  | .thermalTrip => false
  | .powerOnBoot => false
  | .tsallocHandleFill => false
  | .verifyResult => false
  | .sampleResult => false
  | .hostReset => false
  | .debuggerResume => false
  | .attestationRequest => false

/-- An operation is an event, not an encoded instruction. -/
def Instr.isEvent : Instr → Bool
  | .loadReturn => true
  | .longLatencyResult => true
  | .spillWrite => true
  | .fillRestore => true
  | .poolWaitServe => true
  | .fairnessLapse => true
  | .spawnRecordWrite => true
  | .formerTimeout => true
  | .formerLaunch => true
  | .formedTrayBind => true
  | .frameFree => true
  | .barrierComplete => true
  | .acqWake => true
  | .waitneWake => true
  | .waitneTimeout => true
  | .waittWake => true
  | .engineTrap => true
  | .cpyComplete => true
  | .cpytCopyComplete => true
  | .ctagToken => true
  | .gathComplete => true
  | .publishInstant => true
  | .mwldComplete => true
  | .mstrStep => true
  | .mloopStep => true
  | .scpyComplete => true
  | .accpopFill => true
  | .kvldComplete => true
  | .kvstComplete => true
  | .carAdvance => true
  | .stationRegister => true
  | .boardLoad => true
  | .catchLatch => true
  | .rplcServe => true
  | .alightServe => true
  | .carouselNotServed => true
  | .migrateShip => true
  | .bindRecordPlace => true
  | .teamSave => true
  | .commitNoticeSend => true
  | .squashNoticeAck => true
  | .peerSquashNotice => true
  | .peerCommitNotice => true
  | .fabricRequest => true
  | .fabricResponse => true
  | .parityDelta => true
  | .drainMarkerAck => true
  | .crossbarGrant => true
  | .linkCrcFail => true
  | .linkFailed => true
  | .portTrain => true
  | .fabtoExpiry => true
  | .memberLost => true
  | .rebuildRequest => true
  | .replacementJoin => true
  | .itemTake => true
  | .pifoRelease => true
  | .itemNop => true
  | .itemLaunch => true
  | .itemRecord => true
  | .groupTimerLapse => true
  | .itemGraph => true
  | .itemCtxcreate => true
  | .itemCtxctl => true
  | .itemInval => true
  | .itemPreempt => true
  | .itemUpdate => true
  | .takeover => true
  | .sliceLapse => true
  | .drainDeadline => true
  | .tailPoll => true
  | .chainRegister => true
  | .chainRetire => true
  | .doorbell => true
  | .quiesce => true
  | .l2hselWrite => true
  | .dieOffline => true
  | .dieReadmit => true
  | .fabnoWrite => true
  | .fabReconfig => true
  | .pwrcapWrite => true
  | .registerWrite => true
  | .cxlMemWrite => true
  | .cxlMemRead => true
  | .clockStep => true
  | .thermalTrip => true
  | .powerOnBoot => true
  | .tsallocHandleFill => true
  | .verifyResult => true
  | .sampleResult => true
  | .hostReset => true
  | .debuggerResume => true
  | .attestationRequest => true
  | _ => false

/-- An instruction is well formed: legal in tray code or in front code. -/
def Instr.wf (i : Instr) : Bool := i.legal false || i.legal true

end Sys2Proof
end

