-- ==== Sys2Proof/Decode.lean ====
section
/-!
DEFINITION. Decode.lean: the bits of an instruction group (R68 to R81) to its operation, total on any bytes and rejecting by
name, and the encoder from the same formats.
-/

namespace Sys2Proof

/-- Why bytes are no instruction group; each is cause 0x01 where it is met (R79, R82), but for `short`. -/
inductive DecodeError where
  /-- fewer bytes than the group needs -/
  | short
  /-- three or more consecutive prefix words (R79) -/
  | threePrefixes
  /-- two prefixes of one kind (R79) -/
  | twoOfOneKind
  /-- a prefix followed by a compact form (R79) -/
  | prefixBeforeCompact
  /-- prefix funct 4 to 7 (R74) -/
  | prefixFunct
  /-- a prefix payload with a required-zero or illegal field (R79) -/
  | prefixPayload
  /-- a prefix before an instruction that accepts none (R79, R86) -/
  | prefixNotAccepted
  /-- a reserved slot of the opcode map (R81) -/
  | reservedSlot
  /-- a required-zero bit of the format that is not 0 (R70) -/
  | requiredZero
  deriving DecidableEq, Repr

/-- Bits hi:lo of a word, lo first and the width after it. -/
def fieldOf {n : Nat} (w : BitVec n) (lo len : Nat) : BitVec len := w.extractLsb' lo len

/-- A field put at its place in a 32-bit word. -/
def putField {n : Nat} (x : BitVec n) (lo : Nat) : BitVec 32 := x.setWidth 32 <<< lo

/-- One bit put at its place in a 32-bit word. -/
def putBit (b : Bool) (lo : Nat) : BitVec 32 := putField (BitVec.ofBool b) lo

/-- The fixed part of a 32-bit word: bit 0, major and funct (R69). -/
def wordBase (major funct : Nat) : BitVec 32 := 1#32 ||| BitVec.ofNat 32 (major * 2) ||| BitVec.ofNat 32 (funct * 64)

/-- The fields of layout F3 read from a word (R69 to R71). -/
def F3.read (w : BitVec 32) : F3 :=
  { d := fieldOf w 9 7, a := fieldOf w 16 7, b := fieldOf w 23 7, ta := w.getLsbD 30, tb := w.getLsbD 31 }
/-- The fields of layout F3 at their places in a word. -/
def F3.bits (f : F3) : BitVec 32 :=
  putField f.d 9 ||| putField f.a 16 ||| putField f.b 23 ||| putBit f.ta 30 ||| putBit f.tb 31

/-- The fields of layout F3A read from a word (R69 to R71). -/
def F3A.read (w : BitVec 32) : F3A :=
  { d := fieldOf w 9 7, a := fieldOf w 16 7, ta := w.getLsbD 30 }
/-- The fields of layout F3A at their places in a word. -/
def F3A.bits (f : F3A) : BitVec 32 :=
  putField f.d 9 ||| putField f.a 16 ||| putBit f.ta 30

/-- The fields of layout FCmp read from a word (R69 to R71). -/
def FCmp.read (w : BitVec 32) : FCmp :=
  { p := fieldOf w 9 3, a := fieldOf w 16 7, b := fieldOf w 23 7, ta := w.getLsbD 30, tb := w.getLsbD 31 }
/-- The fields of layout FCmp at their places in a word. -/
def FCmp.bits (f : FCmp) : BitVec 32 :=
  putField f.p 9 ||| putField f.a 16 ||| putField f.b 23 ||| putBit f.ta 30 ||| putBit f.tb 31

/-- The fields of layout FSel read from a word (R69 to R71). -/
def FSel.read (w : BitVec 32) : FSel :=
  { n := fieldOf w 6 3, d := fieldOf w 9 7, a := fieldOf w 16 7, b := fieldOf w 23 7, ta := w.getLsbD 30, tb := w.getLsbD 31 }
/-- The fields of layout FSel at their places in a word. -/
def FSel.bits (f : FSel) : BitVec 32 :=
  putField f.n 6 ||| putField f.d 9 ||| putField f.a 16 ||| putField f.b 23 ||| putBit f.ta 30 ||| putBit f.tb 31

/-- The fields of layout FPP read from a word (R69 to R71). -/
def FPP.read (w : BitVec 32) : FPP :=
  { p := fieldOf w 9 3, pa := fieldOf w 16 3, pb := fieldOf w 23 3 }
/-- The fields of layout FPP at their places in a word. -/
def FPP.bits (f : FPP) : BitVec 32 :=
  putField f.p 9 ||| putField f.pa 16 ||| putField f.pb 23

/-- The fields of layout FPA read from a word (R69 to R71). -/
def FPA.read (w : BitVec 32) : FPA :=
  { p := fieldOf w 9 3, pa := fieldOf w 16 3 }
/-- The fields of layout FPA at their places in a word. -/
def FPA.bits (f : FPA) : BitVec 32 :=
  putField f.p 9 ||| putField f.pa 16

/-- The fields of layout FPF read from a word (R69 to R71). -/
def FPF.read (w : BitVec 32) : FPF :=
  { p := fieldOf w 9 3, a := fieldOf w 16 7, ta := w.getLsbD 30 }
/-- The fields of layout FPF at their places in a word. -/
def FPF.bits (f : FPF) : BitVec 32 :=
  putField f.p 9 ||| putField f.a 16 ||| putBit f.ta 30

/-- The fields of layout FDP read from a word (R69 to R71). -/
def FDP.read (w : BitVec 32) : FDP :=
  { d := fieldOf w 9 7, pa := fieldOf w 16 3 }
/-- The fields of layout FDP at their places in a word. -/
def FDP.bits (f : FDP) : BitVec 32 :=
  putField f.d 9 ||| putField f.pa 16

/-- The fields of layout FMovi read from a word (R69 to R71). -/
def FMovi.read (w : BitVec 32) : FMovi :=
  { d := fieldOf w 9 7, imm := fieldOf w 23 8 }
/-- The fields of layout FMovi at their places in a word. -/
def FMovi.bits (f : FMovi) : BitVec 32 :=
  putField f.d 9 ||| putField f.imm 23

/-- The fields of layout FI read from a word (R69 to R71). -/
def FI.read (w : BitVec 32) : FI :=
  { d := fieldOf w 9 7, a := fieldOf w 16 7, imm := fieldOf w 23 8, ta := w.getLsbD 31 }
/-- The fields of layout FI at their places in a word. -/
def FI.bits (f : FI) : BitVec 32 :=
  putField f.d 9 ||| putField f.a 16 ||| putField f.imm 23 ||| putBit f.ta 31

/-- The fields of layout FQ read from a word (R69 to R71). -/
def FQ.read (w : BitVec 32) : FQ :=
  { d := fieldOf w 9 7, a := fieldOf w 16 7, s := fieldOf w 23 7, bsel := fieldOf w 30 2 }
/-- The fields of layout FQ at their places in a word. -/
def FQ.bits (f : FQ) : BitVec 32 :=
  putField f.d 9 ||| putField f.a 16 ||| putField f.s 23 ||| putField f.bsel 30

/-- The fields of layout FLd read from a word (R69 to R71). -/
def FLd.read (w : BitVec 32) : FLd :=
  { d := fieldOf w 9 7, a := fieldOf w 16 7, off := fieldOf w 23 7, ta := w.getLsbD 30 }
/-- The fields of layout FLd at their places in a word. -/
def FLd.bits (f : FLd) : BitVec 32 :=
  putField f.d 9 ||| putField f.a 16 ||| putField f.off 23 ||| putBit f.ta 30

/-- The fields of layout FSt read from a word (R69 to R71). -/
def FSt.read (w : BitVec 32) : FSt :=
  { d := fieldOf w 9 7, a := fieldOf w 16 7, off := fieldOf w 23 7, ta := w.getLsbD 30, td := w.getLsbD 31 }
/-- The fields of layout FSt at their places in a word. -/
def FSt.bits (f : FSt) : BitVec 32 :=
  putField f.d 9 ||| putField f.a 16 ||| putField f.off 23 ||| putBit f.ta 30 ||| putBit f.td 31

/-- The fields of layout FAB read from a word (R69 to R71). -/
def FAB.read (w : BitVec 32) : FAB :=
  { a := fieldOf w 16 7, b := fieldOf w 23 7, ta := w.getLsbD 30, tb := w.getLsbD 31 }
/-- The fields of layout FAB at their places in a word. -/
def FAB.bits (f : FAB) : BitVec 32 :=
  putField f.a 16 ||| putField f.b 23 ||| putBit f.ta 30 ||| putBit f.tb 31

/-- The fields of layout FA read from a word (R69 to R71). -/
def FA.read (w : BitVec 32) : FA :=
  { a := fieldOf w 16 7, ta := w.getLsbD 30 }
/-- The fields of layout FA at their places in a word. -/
def FA.bits (f : FA) : BitVec 32 :=
  putField f.a 16 ||| putBit f.ta 30

/-- The fields of layout FTag read from a word (R69 to R71). -/
def FTag.read (w : BitVec 32) : FTag :=
  { d := fieldOf w 9 7, n := fieldOf w 16 2 }
/-- The fields of layout FTag at their places in a word. -/
def FTag.bits (f : FTag) : BitVec 32 :=
  putField f.d 9 ||| putField f.n 16

/-- The fields of layout FDB read from a word (R69 to R71). -/
def FDB.read (w : BitVec 32) : FDB :=
  { d := fieldOf w 9 7, b := fieldOf w 23 7, tb := w.getLsbD 31 }
/-- The fields of layout FDB at their places in a word. -/
def FDB.bits (f : FDB) : BitVec 32 :=
  putField f.d 9 ||| putField f.b 23 ||| putBit f.tb 31

/-- The fields of layout FPop read from a word (R69 to R71). -/
def FPop.read (w : BitVec 32) : FPop :=
  { d := fieldOf w 9 7, n := fieldOf w 16 1 }
/-- The fields of layout FPop at their places in a word. -/
def FPop.bits (f : FPop) : BitVec 32 :=
  putField f.d 9 ||| putField f.n 16

/-- The fields of layout FNA read from a word (R69 to R71). -/
def FNA.read (w : BitVec 32) : FNA :=
  { n := fieldOf w 9 1, a := fieldOf w 16 7, ta := w.getLsbD 30 }
/-- The fields of layout FNA at their places in a word. -/
def FNA.bits (f : FNA) : BitVec 32 :=
  putField f.n 9 ||| putField f.a 16 ||| putBit f.ta 30

/-- The fields of layout FIxs read from a word (R69 to R71). -/
def FIxs.read (w : BitVec 32) : FIxs :=
  { x := fieldOf w 9 3, a := fieldOf w 16 7, b := fieldOf w 23 7, tb := w.getLsbD 31 }
/-- The fields of layout FIxs at their places in a word. -/
def FIxs.bits (f : FIxs) : BitVec 32 :=
  putField f.x 9 ||| putField f.a 16 ||| putField f.b 23 ||| putBit f.tb 31

/-- The fields of layout FIxg read from a word (R69 to R71). -/
def FIxg.read (w : BitVec 32) : FIxg :=
  { d := fieldOf w 9 7, x := fieldOf w 16 3, sel := fieldOf w 23 1 }
/-- The fields of layout FIxg at their places in a word. -/
def FIxg.bits (f : FIxg) : BitVec 32 :=
  putField f.d 9 ||| putField f.x 16 ||| putField f.sel 23

/-- The fields of layout FIxm read from a word (R69 to R71). -/
def FIxm.read (w : BitVec 32) : FIxm :=
  { x := fieldOf w 9 3, a := fieldOf w 16 7, ta := w.getLsbD 30 }
/-- The fields of layout FIxm at their places in a word. -/
def FIxm.bits (f : FIxm) : BitVec 32 :=
  putField f.x 9 ||| putField f.a 16 ||| putBit f.ta 30

/-- The fields of layout FSr read from a word (R69 to R71). -/
def FSr.read (w : BitVec 32) : FSr :=
  { d := fieldOf w 9 7, sr := fieldOf w 16 7 }
/-- The fields of layout FSr at their places in a word. -/
def FSr.bits (f : FSr) : BitVec 32 :=
  putField f.d 9 ||| putField f.sr 16

/-- The fields of layout FBra read from a word (R69 to R71). -/
def FBra.read (w : BitVec 32) : FBra :=
  { pri := fieldOf w 12 6, off := fieldOf w 18 14 }
/-- The fields of layout FBra at their places in a word. -/
def FBra.bits (f : FBra) : BitVec 32 :=
  putField f.pri 12 ||| putField f.off 18

/-- The fields of layout FBrp read from a word (R69 to R71). -/
def FBrp.read (w : BitVec 32) : FBrp :=
  { p := fieldOf w 9 3, pri := fieldOf w 12 6, off := fieldOf w 18 14 }
/-- The fields of layout FBrp at their places in a word. -/
def FBrp.bits (f : FBrp) : BitVec 32 :=
  putField f.p 9 ||| putField f.pri 12 ||| putField f.off 18

/-- The fields of layout FCall read from a word (R69 to R71). -/
def FCall.read (w : BitVec 32) : FCall :=
  { w := fieldOf w 9 3, pri := fieldOf w 12 6, off := fieldOf w 18 14 }
/-- The fields of layout FCall at their places in a word. -/
def FCall.bits (f : FCall) : BitVec 32 :=
  putField f.w 9 ||| putField f.pri 12 ||| putField f.off 18

/-- The fields of layout FJmp read from a word (R69 to R71). -/
def FJmp.read (w : BitVec 32) : FJmp :=
  { pri := fieldOf w 12 6, a := fieldOf w 18 7, ta := w.getLsbD 25 }
/-- The fields of layout FJmp at their places in a word. -/
def FJmp.bits (f : FJmp) : BitVec 32 :=
  putField f.pri 12 ||| putField f.a 18 ||| putBit f.ta 25

/-- The fields of layout FLoop read from a word (R69 to R71). -/
def FLoop.read (w : BitVec 32) : FLoop :=
  { lc := fieldOf w 9 2, a := fieldOf w 16 7, e := fieldOf w 23 7, ta := w.getLsbD 30 }
/-- The fields of layout FLoop at their places in a word. -/
def FLoop.bits (f : FLoop) : BitVec 32 :=
  putField f.lc 9 ||| putField f.a 16 ||| putField f.e 23 ||| putBit f.ta 30

/-- The fields of layout FD read from a word (R69 to R71). -/
def FD.read (w : BitVec 32) : FD :=
  { d := fieldOf w 9 7 }
/-- The fields of layout FD at their places in a word. -/
def FD.bits (f : FD) : BitVec 32 :=
  putField f.d 9

/-- The fields of layout FMeet read from a word (R69 to R71). -/
def FMeet.read (w : BitVec 32) : FMeet :=
  { n := fieldOf w 16 3 }
/-- The fields of layout FMeet at their places in a word. -/
def FMeet.bits (f : FMeet) : BitVec 32 :=
  putField f.n 16

/-- The fields of a compact register form (R72). -/
def CReg.read (h : BitVec 16) : CReg := { d := fieldOf h 5 5, b := fieldOf h 10 5, s := h.getLsbD 15 }
/-- A compact register form of an op (R72). -/
def CReg.bits (op : Nat) (f : CReg) : BitVec 16 :=
  BitVec.ofNat 16 (op * 2) ||| f.d.setWidth 16 <<< 5 ||| f.b.setWidth 16 <<< 10 ||| (BitVec.ofBool f.s).setWidth 16 <<< 15

/-- The fields of a compact immediate form (R72). -/
def CImm.read (h : BitVec 16) : CImm := { d := fieldOf h 5 5, imm := fieldOf h 10 6 }
/-- A compact immediate form of an op (R72). -/
def CImm.bits (op : Nat) (f : CImm) : BitVec 16 :=
  BitVec.ofNat 16 (op * 2) ||| f.d.setWidth 16 <<< 5 ||| f.imm.setWidth 16 <<< 10

/-- The word of a prefix: kind and 23-bit payload (R74). -/
def prefixWord (kind : Nat) (payload : BitVec 23) : BitVec 32 := 0x3F#32 ||| BitVec.ofNat 32 (kind * 64) ||| putField payload 9

/-- GUARD's payload (R76). -/
def Guard.payload (g : Guard) : BitVec 23 :=
  g.p.setWidth 23 ||| (BitVec.ofBool g.neg).setWidth 23 <<< 3 ||| (BitVec.ofBool g.clear).setWidth 23 <<< 4

/-- GUARD from its payload; the policies 2 and 3 and nonzero bits 31:15 are refused (R76). -/
def Guard.ofPayload (p : BitVec 23) : Option Guard :=
  let g : Guard := { p := fieldOf p 0 3, neg := p.getLsbD 3, clear := p.getLsbD 4 }
  if g.payload == p then some g else none

/-- MOD's payload (R78), whose bit 0 is bit 9 of the word. -/
def Mod.payload (m : Mod) : BitVec 23 :=
  m.rnd.setWidth 23 ||| (BitVec.ofBool m.ftz).setWidth 23 <<< 2 ||| (BitVec.ofBool m.sat).setWidth 23 <<< 3 |||
  (BitVec.ofBool m.sgnen).setWidth 23 <<< 4 ||| (BitVec.ofBool m.sa).setWidth 23 <<< 5 |||
  (BitVec.ofBool m.sb).setWidth 23 <<< 6 ||| (BitVec.ofBool m.scen).setWidth 23 <<< 7 ||| m.scope.setWidth 23 <<< 8 |||
  m.grp.setWidth 23 <<< 11 ||| m.fmt.setWidth 23 <<< 13 ||| m.emp.setWidth 23 <<< 17

/-- MOD from its payload; nonzero bits 31:28 are refused (R78). -/
def Mod.ofPayload (p : BitVec 23) : Option Mod :=
  let m : Mod :=
    { rnd := fieldOf p 0 2, ftz := p.getLsbD 2, sat := p.getLsbD 3, sgnen := p.getLsbD 4, sa := p.getLsbD 5,
      sb := p.getLsbD 6, scen := p.getLsbD 7, scope := fieldOf p 8 3, grp := fieldOf p 11 2, fmt := fieldOf p 13 4,
      emp := fieldOf p 17 2 }
  if m.payload == p then some m else none

/-- The prefix words of a group in ascending funct order (R74). -/
def Pfx.words (p : Pfx) : List (BitVec 32) :=
  (p.imm.toList.map (prefixWord 0)) ++ (p.guard.toList.map fun g => prefixWord 1 g.payload) ++
  (p.mod.toList.map fun m => prefixWord 2 m.payload) ++ (p.ximm.toList.map (prefixWord 3))

/-- A prefix word joins the prefixes read before it (R74, R79). -/
def Pfx.add (p : Pfx) (w : BitVec 32) : Except DecodeError Pfx :=
  let payload := fieldOf w 9 23
  match (fieldOf w 6 3).toNat with
  | 0 => if p.imm.isSome then .error .twoOfOneKind else .ok { p with imm := some payload }
  | 1 =>
    if p.guard.isSome then .error .twoOfOneKind
    else match Guard.ofPayload payload with
      | some g => .ok { p with guard := some g }
      | none => .error .prefixPayload
  | 2 =>
    if p.mod.isSome then .error .twoOfOneKind
    else match Mod.ofPayload payload with
      | some m => .ok { p with mod := some m }
      | none => .error .prefixPayload
  | 3 => if p.ximm.isSome then .error .twoOfOneKind else .ok { p with ximm := some payload }
  | _ => .error .prefixFunct

/-- The prefixes of an instruction, none for a row that accepts none. -/
def Instr.pfx : Instr → Pfx
  | .add p _ => p
  | .sub p _ => p
  | .mul p _ => p
  | .mulh p _ => p
  | .mulhu p _ => p
  | .min p _ => p
  | .max p _ => p
  | .minu p _ => p
  | .maxu p _ => p
  | .div p _ => p
  | .divu p _ => p
  | .rem p _ => p
  | .remu p _ => p
  | .and p _ => p
  | .or p _ => p
  | .xor p _ => p
  | .andn p _ => p
  | .shl p _ => p
  | .shr p _ => p
  | .sra p _ => p
  | .rol p _ => p
  | .ror p _ => p
  | .bcnt p _ => p
  | .clz p _ => p
  | .ctz p _ => p
  | .bitrev p _ => p
  | .cmpeq p _ => p
  | .cmpne p _ => p
  | .cmplt p _ => p
  | .cmple p _ => p
  | .cmpltu p _ => p
  | .cmpleu p _ => p
  | .sel p _ => p
  | .pand p _ => p
  | .por p _ => p
  | .pxor p _ => p
  | .pnot p _ => p
  | .pfrom p _ => p
  | .pto p _ => p
  | .movi p _ => p
  | .addi p _ => p
  | .shli p _ => p
  | .shri p _ => p
  | .andi p _ => p
  | .ori p _ => p
  | .xori p _ => p
  | .fadd p _ => p
  | .fsub p _ => p
  | .fmul p _ => p
  | .fdiv p _ => p
  | .fmin p _ => p
  | .fmax p _ => p
  | .fscale p _ => p
  | .fma p _ => p
  | .fms p _ => p
  | .fnma p _ => p
  | .fsqrt p _ => p
  | .frcpa p _ => p
  | .frsqa p _ => p
  | .fcmpeq p _ => p
  | .fcmpne p _ => p
  | .fcmplt p _ => p
  | .fcmple p _ => p
  | .fcmpun p _ => p
  | .fclass p _ => p
  | .ftstnf p _ => p
  | .fexp2 p _ => p
  | .flog2 p _ => p
  | .fsin p _ => p
  | .fcos p _ => p
  | .ftanh p _ => p
  | .fsigm p _ => p
  | .phadd p _ => p
  | .phmul p _ => p
  | .phfma p _ => p
  | .phmax p _ => p
  | .pbadd p _ => p
  | .pbfma p _ => p
  | .f64add p _ => p
  | .f64sub p _ => p
  | .f64mul p _ => p
  | .f64fma p _ => p
  | .f64div p _ => p
  | .cvtfi p _ => p
  | .cvtif p _ => p
  | .cvtfh p _ => p
  | .cvthf p _ => p
  | .cvtfb p _ => p
  | .cvtfd p _ => p
  | .cvtdf p _ => p
  | .pke4 p _ => p
  | .pke5 p _ => p
  | .unpe4 p _ => p
  | .unpe5 p _ => p
  | .unpi8 p _ => p
  | .unpi4 p _ => p
  | .pki8 p _ => p
  | .pki4 p _ => p
  | .idot4 p _ => p
  | .idot8 p _ => p
  | .bperm p _ => p
  | .sext8 p _ => p
  | .sext16 p _ => p
  | .xpick p _ => p
  | .xpickx p _ => p
  | .pall p _ => p
  | .pany p _ => p
  | .pmask p _ => p
  | .traysum p _ => p
  | .ld8 p _ => p
  | .ld8s p _ => p
  | .ld16 p _ => p
  | .ld32 p _ => p
  | .ld64 p _ => p
  | .ld128 p _ => p
  | .lds p _ => p
  | .st8 p _ => p
  | .st16 p _ => p
  | .st32 p _ => p
  | .st64 p _ => p
  | .st128 p _ => p
  | .sts p _ => p
  | .stnt p _ => p
  | .atadd p _ => p
  | .atmin p _ => p
  | .atmax p _ => p
  | .atand p _ => p
  | .atxchg p _ => p
  | .atcas p _ => p
  | .atfadd p _ => p
  | .ldres p _ => p
  | .stcnd p _ => p
  | .acq p _ => p
  | .rel p _ => p
  | .fence p => p
  | .bind p _ => p
  | .unbind p _ => p
  | .waitne p _ => p
  | .cpy p _ => p
  | .cpyt p _ => p
  | .ctag p _ => p
  | .gath p _ => p
  | .tsalloc p _ => p
  | .tsfree p _ => p
  | .publish p _ => p
  | .mwld p _ => p
  | .mstr p _ => p
  | .mloop p _ => p
  | .accpop p _ => p
  | .accclr p _ => p
  | .scpy p _ => p
  | .mshape p _ => p
  | .board p _ => p
  | .catch_ p _ => p
  | .alight p _ => p
  | .rplc p _ => p
  | .homeq p _ => p
  | .kvmap p _ => p
  | .kvld p _ => p
  | .kvst p _ => p
  | .osmx p _ => p
  | .osmxf p _ => p
  | .verify p _ => p
  | .sample p _ => p
  | .launch p _ => p
  | .launchs p _ => p
  | .resolve p _ => p
  | .squash p _ => p
  | .verq p _ => p
  | .postres p _ => p
  | .ixset p _ => p
  | .setpri p _ => p
  | .brsp p _ => p
  | .loop p _ => p
  | .exit p => p
  | .trap p => p
  | .brk p => p
  | .waitt p _ => p
  | _ => Pfx.empty

/-- The instruction word or halfword that ends a group, or nothing for an event. -/
inductive MainWord where
  | word (w : BitVec 32)
  | half (h : BitVec 16)
  | event
  deriving DecidableEq, Repr

/-- The instruction word of an operation (R69 to R72, R81). -/
def Instr.main : Instr → MainWord
  | .add _ f => .word (wordBase 0 0 ||| f.bits)
  | .sub _ f => .word (wordBase 0 1 ||| f.bits)
  | .mul _ f => .word (wordBase 0 2 ||| f.bits)
  | .mulh _ f => .word (wordBase 0 3 ||| f.bits)
  | .mulhu _ f => .word (wordBase 0 4 ||| f.bits)
  | .min _ f => .word (wordBase 0 5 ||| f.bits)
  | .max _ f => .word (wordBase 0 6 ||| f.bits)
  | .minu _ f => .word (wordBase 1 0 ||| f.bits)
  | .maxu _ f => .word (wordBase 1 1 ||| f.bits)
  | .div _ f => .word (wordBase 1 2 ||| f.bits)
  | .divu _ f => .word (wordBase 1 3 ||| f.bits)
  | .rem _ f => .word (wordBase 1 4 ||| f.bits)
  | .remu _ f => .word (wordBase 1 5 ||| f.bits)
  | .and _ f => .word (wordBase 2 0 ||| f.bits)
  | .or _ f => .word (wordBase 2 1 ||| f.bits)
  | .xor _ f => .word (wordBase 2 2 ||| f.bits)
  | .andn _ f => .word (wordBase 2 3 ||| f.bits)
  | .shl _ f => .word (wordBase 2 4 ||| f.bits)
  | .shr _ f => .word (wordBase 2 5 ||| f.bits)
  | .sra _ f => .word (wordBase 3 0 ||| f.bits)
  | .rol _ f => .word (wordBase 3 1 ||| f.bits)
  | .ror _ f => .word (wordBase 3 2 ||| f.bits)
  | .bcnt _ f => .word (wordBase 3 3 ||| f.bits)
  | .clz _ f => .word (wordBase 3 4 ||| f.bits)
  | .ctz _ f => .word (wordBase 3 5 ||| f.bits)
  | .bitrev _ f => .word (wordBase 3 6 ||| f.bits)
  | .cmpeq _ f => .word (wordBase 4 0 ||| f.bits)
  | .cmpne _ f => .word (wordBase 4 1 ||| f.bits)
  | .cmplt _ f => .word (wordBase 4 2 ||| f.bits)
  | .cmple _ f => .word (wordBase 4 3 ||| f.bits)
  | .cmpltu _ f => .word (wordBase 4 4 ||| f.bits)
  | .cmpleu _ f => .word (wordBase 4 5 ||| f.bits)
  | .sel _ f => .word (wordBase 5 0 ||| f.bits)
  | .pand _ f => .word (wordBase 6 0 ||| f.bits)
  | .por _ f => .word (wordBase 6 1 ||| f.bits)
  | .pxor _ f => .word (wordBase 6 2 ||| f.bits)
  | .pnot _ f => .word (wordBase 6 3 ||| f.bits)
  | .pfrom _ f => .word (wordBase 6 4 ||| f.bits)
  | .pto _ f => .word (wordBase 6 5 ||| f.bits)
  | .movi _ f => .word (wordBase 7 0 ||| f.bits)
  | .addi _ f => .word (wordBase 7 1 ||| f.bits)
  | .shli _ f => .word (wordBase 7 2 ||| f.bits)
  | .shri _ f => .word (wordBase 7 3 ||| f.bits)
  | .andi _ f => .word (wordBase 7 4 ||| f.bits)
  | .ori _ f => .word (wordBase 7 5 ||| f.bits)
  | .xori _ f => .word (wordBase 7 6 ||| f.bits)
  | .fadd _ f => .word (wordBase 8 0 ||| f.bits)
  | .fsub _ f => .word (wordBase 8 1 ||| f.bits)
  | .fmul _ f => .word (wordBase 8 2 ||| f.bits)
  | .fdiv _ f => .word (wordBase 8 3 ||| f.bits)
  | .fmin _ f => .word (wordBase 8 4 ||| f.bits)
  | .fmax _ f => .word (wordBase 8 5 ||| f.bits)
  | .fscale _ f => .word (wordBase 8 6 ||| f.bits)
  | .fma _ f => .word (wordBase 9 0 ||| f.bits)
  | .fms _ f => .word (wordBase 9 1 ||| f.bits)
  | .fnma _ f => .word (wordBase 9 2 ||| f.bits)
  | .fsqrt _ f => .word (wordBase 9 3 ||| f.bits)
  | .frcpa _ f => .word (wordBase 9 4 ||| f.bits)
  | .frsqa _ f => .word (wordBase 9 5 ||| f.bits)
  | .fcmpeq _ f => .word (wordBase 10 0 ||| f.bits)
  | .fcmpne _ f => .word (wordBase 10 1 ||| f.bits)
  | .fcmplt _ f => .word (wordBase 10 2 ||| f.bits)
  | .fcmple _ f => .word (wordBase 10 3 ||| f.bits)
  | .fcmpun _ f => .word (wordBase 10 4 ||| f.bits)
  | .fclass _ f => .word (wordBase 10 5 ||| f.bits)
  | .ftstnf _ f => .word (wordBase 10 6 ||| f.bits)
  | .fexp2 _ f => .word (wordBase 11 0 ||| f.bits)
  | .flog2 _ f => .word (wordBase 11 1 ||| f.bits)
  | .fsin _ f => .word (wordBase 11 2 ||| f.bits)
  | .fcos _ f => .word (wordBase 11 3 ||| f.bits)
  | .ftanh _ f => .word (wordBase 11 4 ||| f.bits)
  | .fsigm _ f => .word (wordBase 11 5 ||| f.bits)
  | .phadd _ f => .word (wordBase 12 0 ||| f.bits)
  | .phmul _ f => .word (wordBase 12 1 ||| f.bits)
  | .phfma _ f => .word (wordBase 12 2 ||| f.bits)
  | .phmax _ f => .word (wordBase 12 3 ||| f.bits)
  | .pbadd _ f => .word (wordBase 12 4 ||| f.bits)
  | .pbfma _ f => .word (wordBase 12 5 ||| f.bits)
  | .f64add _ f => .word (wordBase 13 0 ||| f.bits)
  | .f64sub _ f => .word (wordBase 13 1 ||| f.bits)
  | .f64mul _ f => .word (wordBase 13 2 ||| f.bits)
  | .f64fma _ f => .word (wordBase 13 3 ||| f.bits)
  | .f64div _ f => .word (wordBase 13 4 ||| f.bits)
  | .cvtfi _ f => .word (wordBase 14 0 ||| f.bits)
  | .cvtif _ f => .word (wordBase 14 1 ||| f.bits)
  | .cvtfh _ f => .word (wordBase 14 2 ||| f.bits)
  | .cvthf _ f => .word (wordBase 14 3 ||| f.bits)
  | .cvtfb _ f => .word (wordBase 14 4 ||| f.bits)
  | .cvtfd _ f => .word (wordBase 14 5 ||| f.bits)
  | .cvtdf _ f => .word (wordBase 14 6 ||| f.bits)
  | .pke4 _ f => .word (wordBase 15 0 ||| f.bits)
  | .pke5 _ f => .word (wordBase 15 1 ||| f.bits)
  | .unpe4 _ f => .word (wordBase 15 2 ||| f.bits)
  | .unpe5 _ f => .word (wordBase 15 3 ||| f.bits)
  | .unpi8 _ f => .word (wordBase 15 4 ||| f.bits)
  | .unpi4 _ f => .word (wordBase 15 5 ||| f.bits)
  | .pki8 _ f => .word (wordBase 15 6 ||| f.bits)
  | .pki4 _ f => .word (wordBase 15 7 ||| f.bits)
  | .idot4 _ f => .word (wordBase 16 0 ||| f.bits)
  | .idot8 _ f => .word (wordBase 16 1 ||| f.bits)
  | .bperm _ f => .word (wordBase 16 2 ||| f.bits)
  | .sext8 _ f => .word (wordBase 16 3 ||| f.bits)
  | .sext16 _ f => .word (wordBase 16 4 ||| f.bits)
  | .xpick _ f => .word (wordBase 17 0 ||| f.bits)
  | .xpickx _ f => .word (wordBase 17 1 ||| f.bits)
  | .pall _ f => .word (wordBase 17 2 ||| f.bits)
  | .pany _ f => .word (wordBase 17 3 ||| f.bits)
  | .pmask _ f => .word (wordBase 17 4 ||| f.bits)
  | .traysum _ f => .word (wordBase 17 5 ||| f.bits)
  | .ld8 _ f => .word (wordBase 18 0 ||| f.bits)
  | .ld8s _ f => .word (wordBase 18 1 ||| f.bits)
  | .ld16 _ f => .word (wordBase 18 2 ||| f.bits)
  | .ld32 _ f => .word (wordBase 18 3 ||| f.bits)
  | .ld64 _ f => .word (wordBase 18 4 ||| f.bits)
  | .ld128 _ f => .word (wordBase 18 5 ||| f.bits)
  | .lds _ f => .word (wordBase 18 6 ||| f.bits)
  | .st8 _ f => .word (wordBase 19 0 ||| f.bits)
  | .st16 _ f => .word (wordBase 19 1 ||| f.bits)
  | .st32 _ f => .word (wordBase 19 2 ||| f.bits)
  | .st64 _ f => .word (wordBase 19 3 ||| f.bits)
  | .st128 _ f => .word (wordBase 19 4 ||| f.bits)
  | .sts _ f => .word (wordBase 19 5 ||| f.bits)
  | .stnt _ f => .word (wordBase 19 6 ||| f.bits)
  | .atadd _ f => .word (wordBase 20 0 ||| f.bits)
  | .atmin _ f => .word (wordBase 20 1 ||| f.bits)
  | .atmax _ f => .word (wordBase 20 2 ||| f.bits)
  | .atand _ f => .word (wordBase 20 3 ||| f.bits)
  | .atxchg _ f => .word (wordBase 20 4 ||| f.bits)
  | .atcas _ f => .word (wordBase 20 5 ||| f.bits)
  | .atfadd _ f => .word (wordBase 20 6 ||| f.bits)
  | .ldres _ f => .word (wordBase 21 0 ||| f.bits)
  | .stcnd _ f => .word (wordBase 21 1 ||| f.bits)
  | .acq _ f => .word (wordBase 21 2 ||| f.bits)
  | .rel _ f => .word (wordBase 21 3 ||| f.bits)
  | .fence _ => .word (wordBase 21 4)
  | .bind _ f => .word (wordBase 21 5 ||| f.bits)
  | .unbind _ f => .word (wordBase 21 6 ||| f.bits)
  | .waitne _ f => .word (wordBase 21 7 ||| f.bits)
  | .cpy _ f => .word (wordBase 22 0 ||| f.bits)
  | .cpyt _ f => .word (wordBase 22 1 ||| f.bits)
  | .ctag _ f => .word (wordBase 22 2 ||| f.bits)
  | .gath _ f => .word (wordBase 22 3 ||| f.bits)
  | .tsalloc _ f => .word (wordBase 22 4 ||| f.bits)
  | .tsfree _ f => .word (wordBase 22 5 ||| f.bits)
  | .publish _ f => .word (wordBase 22 6 ||| f.bits)
  | .mwld _ f => .word (wordBase 23 0 ||| f.bits)
  | .mstr _ f => .word (wordBase 23 1 ||| f.bits)
  | .mloop _ f => .word (wordBase 23 2 ||| f.bits)
  | .accpop _ f => .word (wordBase 23 3 ||| f.bits)
  | .accclr _ f => .word (wordBase 23 4 ||| f.bits)
  | .scpy _ f => .word (wordBase 23 5 ||| f.bits)
  | .mshape _ f => .word (wordBase 23 6 ||| f.bits)
  | .board _ f => .word (wordBase 24 0 ||| f.bits)
  | .catch_ _ f => .word (wordBase 24 1 ||| f.bits)
  | .alight _ f => .word (wordBase 24 2 ||| f.bits)
  | .rplc _ f => .word (wordBase 24 3 ||| f.bits)
  | .migrate f => .word (wordBase 24 4 ||| f.bits)
  | .homeq _ f => .word (wordBase 24 5 ||| f.bits)
  | .kvmap _ f => .word (wordBase 25 0 ||| f.bits)
  | .kvld _ f => .word (wordBase 25 1 ||| f.bits)
  | .kvst _ f => .word (wordBase 25 2 ||| f.bits)
  | .osmx _ f => .word (wordBase 25 3 ||| f.bits)
  | .osmxf _ f => .word (wordBase 25 4 ||| f.bits)
  | .verify _ f => .word (wordBase 25 5 ||| f.bits)
  | .sample _ f => .word (wordBase 25 6 ||| f.bits)
  | .launch _ f => .word (wordBase 26 0 ||| f.bits)
  | .launchs _ f => .word (wordBase 26 1 ||| f.bits)
  | .resolve _ f => .word (wordBase 26 2 ||| f.bits)
  | .squash _ f => .word (wordBase 26 3 ||| f.bits)
  | .verq _ f => .word (wordBase 26 4 ||| f.bits)
  | .postres _ f => .word (wordBase 26 5 ||| f.bits)
  | .xacq => .word (wordBase 27 0)
  | .xrel => .word (wordBase 27 1)
  | .ixset _ f => .word (wordBase 27 2 ||| f.bits)
  | .ixget f => .word (wordBase 27 3 ||| f.bits)
  | .ixmov f => .word (wordBase 27 4 ||| f.bits)
  | .movsr f => .word (wordBase 27 5 ||| f.bits)
  | .setpri _ f => .word (wordBase 27 6 ||| f.bits)
  | .bra f => .word (wordBase 28 0 ||| f.bits)
  | .brp f => .word (wordBase 28 1 ||| f.bits)
  | .brnp f => .word (wordBase 28 2 ||| f.bits)
  | .brsp _ f => .word (wordBase 28 3 ||| f.bits)
  | .call f => .word (wordBase 28 4 ||| f.bits)
  | .ret => .word (wordBase 28 5)
  | .jmpi f => .word (wordBase 28 6 ||| f.bits)
  | .loop _ f => .word (wordBase 29 0 ||| f.bits)
  | .dqpush f => .word (wordBase 29 1 ||| f.bits)
  | .dqpop f => .word (wordBase 29 2 ||| f.bits)
  | .meet => .word (wordBase 29 3)
  | .meetl f => .word (wordBase 29 4 ||| f.bits)
  | .exit _ => .word (wordBase 29 5)
  | .land => .word (wordBase 29 6)
  | .trap _ => .word (wordBase 30 0)
  | .eret => .word (wordBase 30 1)
  | .brk _ => .word (wordBase 30 2)
  | .nop => .word (wordBase 30 3)
  | .waitt _ f => .word (wordBase 30 4 ||| f.bits)
  | .kill => .word (wordBase 30 5)
  | .mov f => .half (f.bits 0)
  | .addC f => .half (f.bits 1)
  | .subC f => .half (f.bits 2)
  | .andC f => .half (f.bits 3)
  | .orC f => .half (f.bits 4)
  | .xorC f => .half (f.bits 5)
  | .shliC f => .half (f.bits 6)
  | .shriC f => .half (f.bits 7)
  | .addiC f => .half (f.bits 8)
  | .moviC f => .half (f.bits 9)
  | .faddC f => .half (f.bits 10)
  | .fsubC f => .half (f.bits 11)
  | .fmulC f => .half (f.bits 12)
  | .fmaxC f => .half (f.bits 13)
  | .ld32C f => .half (f.bits 14)
  | .st32C f => .half (f.bits 15)
  | _ => .event

/-- The operation of a compact halfword (R72). -/
def decodeHalf (h : BitVec 16) : Instr :=
  match (fieldOf h 1 4).toNat with
  | 0 => .mov (CReg.read h)
  | 1 => .addC (CReg.read h)
  | 2 => .subC (CReg.read h)
  | 3 => .andC (CReg.read h)
  | 4 => .orC (CReg.read h)
  | 5 => .xorC (CReg.read h)
  | 6 => .shliC (CImm.read h)
  | 7 => .shriC (CImm.read h)
  | 8 => .addiC (CImm.read h)
  | 9 => .moviC (CImm.read h)
  | 10 => .faddC (CReg.read h)
  | 11 => .fsubC (CReg.read h)
  | 12 => .fmulC (CReg.read h)
  | 13 => .fmaxC (CReg.read h)
  | 14 => .ld32C (CReg.read h)
  | _ => .st32C (CReg.read h)

/-- The operation of a word of major 0 (R81): none for a reserved slot. -/
def decodeMajor0 (p : Pfx) (funct : Nat) (w : BitVec 32) : Option Instr :=
  match funct with
  | 0 => some (.add p (F3.read w))
  | 1 => some (.sub p (F3.read w))
  | 2 => some (.mul p (F3.read w))
  | 3 => some (.mulh p (F3.read w))
  | 4 => some (.mulhu p (F3.read w))
  | 5 => some (.min p (F3.read w))
  | 6 => some (.max p (F3.read w))
  | _ => none

/-- The operation of a word of major 1 (R81): none for a reserved slot. -/
def decodeMajor1 (p : Pfx) (funct : Nat) (w : BitVec 32) : Option Instr :=
  match funct with
  | 0 => some (.minu p (F3.read w))
  | 1 => some (.maxu p (F3.read w))
  | 2 => some (.div p (F3.read w))
  | 3 => some (.divu p (F3.read w))
  | 4 => some (.rem p (F3.read w))
  | 5 => some (.remu p (F3.read w))
  | _ => none

/-- The operation of a word of major 2 (R81): none for a reserved slot. -/
def decodeMajor2 (p : Pfx) (funct : Nat) (w : BitVec 32) : Option Instr :=
  match funct with
  | 0 => some (.and p (F3.read w))
  | 1 => some (.or p (F3.read w))
  | 2 => some (.xor p (F3.read w))
  | 3 => some (.andn p (F3.read w))
  | 4 => some (.shl p (F3.read w))
  | 5 => some (.shr p (F3.read w))
  | _ => none

/-- The operation of a word of major 3 (R81): none for a reserved slot. -/
def decodeMajor3 (p : Pfx) (funct : Nat) (w : BitVec 32) : Option Instr :=
  match funct with
  | 0 => some (.sra p (F3.read w))
  | 1 => some (.rol p (F3.read w))
  | 2 => some (.ror p (F3.read w))
  | 3 => some (.bcnt p (F3A.read w))
  | 4 => some (.clz p (F3A.read w))
  | 5 => some (.ctz p (F3A.read w))
  | 6 => some (.bitrev p (F3A.read w))
  | _ => none

/-- The operation of a word of major 4 (R81): none for a reserved slot. -/
def decodeMajor4 (p : Pfx) (funct : Nat) (w : BitVec 32) : Option Instr :=
  match funct with
  | 0 => some (.cmpeq p (FCmp.read w))
  | 1 => some (.cmpne p (FCmp.read w))
  | 2 => some (.cmplt p (FCmp.read w))
  | 3 => some (.cmple p (FCmp.read w))
  | 4 => some (.cmpltu p (FCmp.read w))
  | 5 => some (.cmpleu p (FCmp.read w))
  | _ => none

/-- The operation of a word of major 5 (R81): none for a reserved slot. -/
def decodeMajor5 (p : Pfx) (funct : Nat) (w : BitVec 32) : Option Instr :=
  if funct = 0 then none else some (.sel p (FSel.read w))

/-- The operation of a word of major 6 (R81): none for a reserved slot. -/
def decodeMajor6 (p : Pfx) (funct : Nat) (w : BitVec 32) : Option Instr :=
  match funct with
  | 0 => some (.pand p (FPP.read w))
  | 1 => some (.por p (FPP.read w))
  | 2 => some (.pxor p (FPP.read w))
  | 3 => some (.pnot p (FPA.read w))
  | 4 => some (.pfrom p (FPF.read w))
  | 5 => some (.pto p (FDP.read w))
  | _ => none

/-- The operation of a word of major 7 (R81): none for a reserved slot. -/
def decodeMajor7 (p : Pfx) (funct : Nat) (w : BitVec 32) : Option Instr :=
  match funct with
  | 0 => some (.movi p (FMovi.read w))
  | 1 => some (.addi p (FI.read w))
  | 2 => some (.shli p (FI.read w))
  | 3 => some (.shri p (FI.read w))
  | 4 => some (.andi p (FI.read w))
  | 5 => some (.ori p (FI.read w))
  | 6 => some (.xori p (FI.read w))
  | _ => none

/-- The operation of a word of major 8 (R81): none for a reserved slot. -/
def decodeMajor8 (p : Pfx) (funct : Nat) (w : BitVec 32) : Option Instr :=
  match funct with
  | 0 => some (.fadd p (F3.read w))
  | 1 => some (.fsub p (F3.read w))
  | 2 => some (.fmul p (F3.read w))
  | 3 => some (.fdiv p (F3.read w))
  | 4 => some (.fmin p (F3.read w))
  | 5 => some (.fmax p (F3.read w))
  | 6 => some (.fscale p (F3.read w))
  | _ => none

/-- The operation of a word of major 9 (R81): none for a reserved slot. -/
def decodeMajor9 (p : Pfx) (funct : Nat) (w : BitVec 32) : Option Instr :=
  match funct with
  | 0 => some (.fma p (F3.read w))
  | 1 => some (.fms p (F3.read w))
  | 2 => some (.fnma p (F3.read w))
  | 3 => some (.fsqrt p (F3A.read w))
  | 4 => some (.frcpa p (F3A.read w))
  | 5 => some (.frsqa p (F3A.read w))
  | _ => none

/-- The operation of a word of major 10 (R81): none for a reserved slot. -/
def decodeMajor10 (p : Pfx) (funct : Nat) (w : BitVec 32) : Option Instr :=
  match funct with
  | 0 => some (.fcmpeq p (FCmp.read w))
  | 1 => some (.fcmpne p (FCmp.read w))
  | 2 => some (.fcmplt p (FCmp.read w))
  | 3 => some (.fcmple p (FCmp.read w))
  | 4 => some (.fcmpun p (FCmp.read w))
  | 5 => some (.fclass p (F3A.read w))
  | 6 => some (.ftstnf p (FPF.read w))
  | _ => none

/-- The operation of a word of major 11 (R81): none for a reserved slot. -/
def decodeMajor11 (p : Pfx) (funct : Nat) (w : BitVec 32) : Option Instr :=
  match funct with
  | 0 => some (.fexp2 p (F3A.read w))
  | 1 => some (.flog2 p (F3A.read w))
  | 2 => some (.fsin p (F3A.read w))
  | 3 => some (.fcos p (F3A.read w))
  | 4 => some (.ftanh p (F3A.read w))
  | 5 => some (.fsigm p (F3A.read w))
  | _ => none

/-- The operation of a word of major 12 (R81): none for a reserved slot. -/
def decodeMajor12 (p : Pfx) (funct : Nat) (w : BitVec 32) : Option Instr :=
  match funct with
  | 0 => some (.phadd p (F3.read w))
  | 1 => some (.phmul p (F3.read w))
  | 2 => some (.phfma p (F3.read w))
  | 3 => some (.phmax p (F3.read w))
  | 4 => some (.pbadd p (F3.read w))
  | 5 => some (.pbfma p (F3.read w))
  | _ => none

/-- The operation of a word of major 13 (R81): none for a reserved slot. -/
def decodeMajor13 (p : Pfx) (funct : Nat) (w : BitVec 32) : Option Instr :=
  match funct with
  | 0 => some (.f64add p (F3.read w))
  | 1 => some (.f64sub p (F3.read w))
  | 2 => some (.f64mul p (F3.read w))
  | 3 => some (.f64fma p (F3.read w))
  | 4 => some (.f64div p (F3.read w))
  | _ => none

/-- The operation of a word of major 14 (R81): none for a reserved slot. -/
def decodeMajor14 (p : Pfx) (funct : Nat) (w : BitVec 32) : Option Instr :=
  match funct with
  | 0 => some (.cvtfi p (F3A.read w))
  | 1 => some (.cvtif p (F3A.read w))
  | 2 => some (.cvtfh p (F3A.read w))
  | 3 => some (.cvthf p (F3A.read w))
  | 4 => some (.cvtfb p (F3A.read w))
  | 5 => some (.cvtfd p (F3A.read w))
  | 6 => some (.cvtdf p (F3A.read w))
  | _ => none

/-- The operation of a word of major 15 (R81): none for a reserved slot. -/
def decodeMajor15 (p : Pfx) (funct : Nat) (w : BitVec 32) : Option Instr :=
  match funct with
  | 0 => some (.pke4 p (FQ.read w))
  | 1 => some (.pke5 p (FQ.read w))
  | 2 => some (.unpe4 p (FQ.read w))
  | 3 => some (.unpe5 p (FQ.read w))
  | 4 => some (.unpi8 p (FQ.read w))
  | 5 => some (.unpi4 p (FQ.read w))
  | 6 => some (.pki8 p (FQ.read w))
  | _ => some (.pki4 p (FQ.read w))

/-- The operation of a word of major 16 (R81): none for a reserved slot. -/
def decodeMajor16 (p : Pfx) (funct : Nat) (w : BitVec 32) : Option Instr :=
  match funct with
  | 0 => some (.idot4 p (F3.read w))
  | 1 => some (.idot8 p (F3.read w))
  | 2 => some (.bperm p (F3.read w))
  | 3 => some (.sext8 p (F3A.read w))
  | 4 => some (.sext16 p (F3A.read w))
  | _ => none

/-- The operation of a word of major 17 (R81): none for a reserved slot. -/
def decodeMajor17 (p : Pfx) (funct : Nat) (w : BitVec 32) : Option Instr :=
  match funct with
  | 0 => some (.xpick p (F3.read w))
  | 1 => some (.xpickx p (F3.read w))
  | 2 => some (.pall p (FPA.read w))
  | 3 => some (.pany p (FPA.read w))
  | 4 => some (.pmask p (FDP.read w))
  | 5 => some (.traysum p (F3A.read w))
  | _ => none

/-- The operation of a word of major 18 (R81): none for a reserved slot. -/
def decodeMajor18 (p : Pfx) (funct : Nat) (w : BitVec 32) : Option Instr :=
  match funct with
  | 0 => some (.ld8 p (FLd.read w))
  | 1 => some (.ld8s p (FLd.read w))
  | 2 => some (.ld16 p (FLd.read w))
  | 3 => some (.ld32 p (FLd.read w))
  | 4 => some (.ld64 p (FLd.read w))
  | 5 => some (.ld128 p (FLd.read w))
  | 6 => some (.lds p (FLd.read w))
  | _ => none

/-- The operation of a word of major 19 (R81): none for a reserved slot. -/
def decodeMajor19 (p : Pfx) (funct : Nat) (w : BitVec 32) : Option Instr :=
  match funct with
  | 0 => some (.st8 p (FSt.read w))
  | 1 => some (.st16 p (FSt.read w))
  | 2 => some (.st32 p (FSt.read w))
  | 3 => some (.st64 p (FSt.read w))
  | 4 => some (.st128 p (FSt.read w))
  | 5 => some (.sts p (FSt.read w))
  | 6 => some (.stnt p (FSt.read w))
  | _ => none

/-- The operation of a word of major 20 (R81): none for a reserved slot. -/
def decodeMajor20 (p : Pfx) (funct : Nat) (w : BitVec 32) : Option Instr :=
  match funct with
  | 0 => some (.atadd p (F3.read w))
  | 1 => some (.atmin p (F3.read w))
  | 2 => some (.atmax p (F3.read w))
  | 3 => some (.atand p (F3.read w))
  | 4 => some (.atxchg p (F3.read w))
  | 5 => some (.atcas p (F3.read w))
  | 6 => some (.atfadd p (F3.read w))
  | _ => none

/-- The operation of a word of major 21 (R81): none for a reserved slot. -/
def decodeMajor21 (p : Pfx) (funct : Nat) (w : BitVec 32) : Option Instr :=
  match funct with
  | 0 => some (.ldres p (F3A.read w))
  | 1 => some (.stcnd p (FCmp.read w))
  | 2 => some (.acq p (FAB.read w))
  | 3 => some (.rel p (FA.read w))
  | 4 => some (.fence p)
  | 5 => some (.bind p (F3.read w))
  | 6 => some (.unbind p (FA.read w))
  | _ => some (.waitne p (F3.read w))

/-- The operation of a word of major 22 (R81): none for a reserved slot. -/
def decodeMajor22 (p : Pfx) (funct : Nat) (w : BitVec 32) : Option Instr :=
  match funct with
  | 0 => some (.cpy p (F3.read w))
  | 1 => some (.cpyt p (F3.read w))
  | 2 => some (.ctag p (FTag.read w))
  | 3 => some (.gath p (F3.read w))
  | 4 => some (.tsalloc p (F3A.read w))
  | 5 => some (.tsfree p (FA.read w))
  | 6 => some (.publish p (F3A.read w))
  | _ => none

/-- The operation of a word of major 23 (R81): none for a reserved slot. -/
def decodeMajor23 (p : Pfx) (funct : Nat) (w : BitVec 32) : Option Instr :=
  match funct with
  | 0 => some (.mwld p (F3.read w))
  | 1 => some (.mstr p (F3.read w))
  | 2 => some (.mloop p (FDB.read w))
  | 3 => some (.accpop p (FPop.read w))
  | 4 => some (.accclr p (FNA.read w))
  | 5 => some (.scpy p (F3.read w))
  | 6 => some (.mshape p (FNA.read w))
  | _ => none

/-- The operation of a word of major 24 (R81): none for a reserved slot. -/
def decodeMajor24 (p : Pfx) (funct : Nat) (w : BitVec 32) : Option Instr :=
  match funct with
  | 0 => some (.board p (F3.read w))
  | 1 => some (.catch_ p (F3.read w))
  | 2 => some (.alight p (FA.read w))
  | 3 => some (.rplc p (F3.read w))
  | 4 => some (.migrate (FA.read w))
  | 5 => some (.homeq p (F3A.read w))
  | _ => none

/-- The operation of a word of major 25 (R81): none for a reserved slot. -/
def decodeMajor25 (p : Pfx) (funct : Nat) (w : BitVec 32) : Option Instr :=
  match funct with
  | 0 => some (.kvmap p (F3.read w))
  | 1 => some (.kvld p (F3.read w))
  | 2 => some (.kvst p (F3.read w))
  | 3 => some (.osmx p (F3A.read w))
  | 4 => some (.osmxf p (F3.read w))
  | 5 => some (.verify p (F3.read w))
  | 6 => some (.sample p (F3.read w))
  | _ => none

/-- The operation of a word of major 26 (R81): none for a reserved slot. -/
def decodeMajor26 (p : Pfx) (funct : Nat) (w : BitVec 32) : Option Instr :=
  match funct with
  | 0 => some (.launch p (F3A.read w))
  | 1 => some (.launchs p (F3.read w))
  | 2 => some (.resolve p (FA.read w))
  | 3 => some (.squash p (FA.read w))
  | 4 => some (.verq p (F3A.read w))
  | 5 => some (.postres p (FA.read w))
  | _ => none

/-- The operation of a word of major 27 (R81): none for a reserved slot. -/
def decodeMajor27 (p : Pfx) (funct : Nat) (w : BitVec 32) : Option Instr :=
  match funct with
  | 0 => some (.xacq)
  | 1 => some (.xrel)
  | 2 => some (.ixset p (FIxs.read w))
  | 3 => some (.ixget (FIxg.read w))
  | 4 => some (.ixmov (FIxm.read w))
  | 5 => some (.movsr (FSr.read w))
  | 6 => some (.setpri p (FA.read w))
  | _ => none

/-- The operation of a word of major 28 (R81): none for a reserved slot. -/
def decodeMajor28 (p : Pfx) (funct : Nat) (w : BitVec 32) : Option Instr :=
  match funct with
  | 0 => some (.bra (FBra.read w))
  | 1 => some (.brp (FBrp.read w))
  | 2 => some (.brnp (FBrp.read w))
  | 3 => some (.brsp p (FBrp.read w))
  | 4 => some (.call (FCall.read w))
  | 5 => some (.ret)
  | 6 => some (.jmpi (FJmp.read w))
  | _ => none

/-- The operation of a word of major 29 (R81): none for a reserved slot. -/
def decodeMajor29 (p : Pfx) (funct : Nat) (w : BitVec 32) : Option Instr :=
  match funct with
  | 0 => some (.loop p (FLoop.read w))
  | 1 => some (.dqpush (FA.read w))
  | 2 => some (.dqpop (FD.read w))
  | 3 => some (.meet)
  | 4 => some (.meetl (FMeet.read w))
  | 5 => some (.exit p)
  | 6 => some (.land)
  | _ => none

/-- The operation of a word of major 30 (R81): none for a reserved slot. -/
def decodeMajor30 (p : Pfx) (funct : Nat) (w : BitVec 32) : Option Instr :=
  match funct with
  | 0 => some (.trap p)
  | 1 => some (.eret)
  | 2 => some (.brk p)
  | 3 => some (.nop)
  | 4 => some (.waitt p (FA.read w))
  | 5 => some (.kill)
  | _ => none

/-- The operation of a 32-bit word that is no prefix, under the prefixes read before it. -/
def decodeFields (p : Pfx) (w : BitVec 32) : Option Instr :=
  let funct := (fieldOf w 6 3).toNat
  match (fieldOf w 1 5).toNat with
  | 0 => decodeMajor0 p funct w
  | 1 => decodeMajor1 p funct w
  | 2 => decodeMajor2 p funct w
  | 3 => decodeMajor3 p funct w
  | 4 => decodeMajor4 p funct w
  | 5 => decodeMajor5 p funct w
  | 6 => decodeMajor6 p funct w
  | 7 => decodeMajor7 p funct w
  | 8 => decodeMajor8 p funct w
  | 9 => decodeMajor9 p funct w
  | 10 => decodeMajor10 p funct w
  | 11 => decodeMajor11 p funct w
  | 12 => decodeMajor12 p funct w
  | 13 => decodeMajor13 p funct w
  | 14 => decodeMajor14 p funct w
  | 15 => decodeMajor15 p funct w
  | 16 => decodeMajor16 p funct w
  | 17 => decodeMajor17 p funct w
  | 18 => decodeMajor18 p funct w
  | 19 => decodeMajor19 p funct w
  | 20 => decodeMajor20 p funct w
  | 21 => decodeMajor21 p funct w
  | 22 => decodeMajor22 p funct w
  | 23 => decodeMajor23 p funct w
  | 24 => decodeMajor24 p funct w
  | 25 => decodeMajor25 p funct w
  | 26 => decodeMajor26 p funct w
  | 27 => decodeMajor27 p funct w
  | 28 => decodeMajor28 p funct w
  | 29 => decodeMajor29 p funct w
  | 30 => decodeMajor30 p funct w
  | _ => none

/-- A 32-bit word under its prefixes (R70, R79, R81). -/
def decodeWord (p : Pfx) (w : BitVec 32) : Except DecodeError Instr :=
  match decodeFields p w with
  | none => .error .reservedSlot
  | some i =>
    if i.main != .word w then .error .requiredZero
    else if i.pfx != p then .error .prefixNotAccepted
    else .ok i

/-- Two bytes as a halfword, the low byte first (R68). -/
def halfOf (b0 b1 : Byte) : BitVec 16 := (b1 ++ b0 : BitVec (8 + 8))

/-- Four bytes as a word, the low byte first (R68). -/
def wordOf (b0 b1 b2 b3 : Byte) : BitVec 32 := (halfOf b2 b3 ++ halfOf b0 b1 : BitVec (16 + 16))

/-- Decode a group from bytes after the prefixes already read; the first argument bounds the words still allowed. -/
def decodeFrom : Nat → Pfx → List Byte → Except DecodeError (Instr × List Byte)
  | 0, _, _ => .error .threePrefixes
  | n + 1, p, b0 :: b1 :: rest =>
    if !b0.getLsbD 0 then
      if p == Pfx.empty then .ok (decodeHalf (halfOf b0 b1), rest) else .error .prefixBeforeCompact
    else match rest with
      | b2 :: b3 :: rest =>
        let w := wordOf b0 b1 b2 b3
        if fieldOf w 0 6 == 0x3F#6 then
          match p.add w with
          | .ok q => decodeFrom n q rest
          | .error e => .error e
        else match decodeWord p w with
          | .ok i => .ok (i, rest)
          | .error e => .error e
      | _ => .error .short
  | _ + 1, _, _ => .error .short

/-- The group that stands at the head of the bytes, and the bytes after it (R68, R79, R80). -/
def decode (bytes : List Byte) : Except DecodeError (Instr × List Byte) := decodeFrom 3 Pfx.empty bytes

/-- The bytes of a halfword, low first. -/
def halfBytes (h : BitVec 16) : List Byte := [fieldOf h 0 8, fieldOf h 8 8]

/-- The bytes of a word, low first. -/
def wordBytes (w : BitVec 32) : List Byte := [fieldOf w 0 8, fieldOf w 8 8, fieldOf w 16 8, fieldOf w 24 8]

/-- The bytes of an instruction group: its prefixes in ascending funct order, then its word (R68, R74). -/
def encode (i : Instr) : List Byte :=
  (i.pfx.words.flatMap wordBytes) ++
  match i.main with
  | .word w => wordBytes w
  | .half h => halfBytes h
  | .event => []

/-- The length of a group in bytes (R68, R80). -/
def Instr.size (i : Instr) : Nat := (encode i).length

/-- The bytes of prefixes before the instruction word of a group. -/
def Instr.pfxSize (i : Instr) : Nat := 4 * i.pfx.words.length

/-- The instruction the decoder reads from an instruction whose bits are w, numbered as the opcode table numbers them;
the bytes above nbits, up to the longest group of 12 bytes, are 0. -/
def decodeTableWord (nbits w : Nat) : Option Instr :=
  let bytes := (List.range 12).map fun k => if 8 * k < nbits then BitVec.ofNat 8 (w / 2 ^ (8 * k)) else 0#8
  match decode bytes with
  | .ok (i, _) => some i
  | .error _ => none

end Sys2Proof
end

