-- ==== Sys2Proof/Machine/State.lean ====
section
/-!
DEFINITION. Machine/State.lean: everything the manual gives the device, as plain data, and the device right after reset. A
field that has no rule of the manual is the model's own and says so. Lists that hold objects are keyed by the objects' own
numbers, which `State.nextId` hands out.
-/

namespace Sys2Proof.Machine

/-- Why the model stops. -/
inductive Fault where
  /-- Raised by `step` when the device is without power or in reset (R388, R391) and no host input stands in the agenda:
  nothing can step until the host acts. Safe: the device does nothing either. -/
  | unpowered
  deriving DecidableEq, Repr

/-- Why an instruction has no meaning here. -/
inductive Refusal where
  /-- Raised by an arm of `exec` whose instruction is not modelled. Safe: the model stops. -/
  | notModelled (mnemonic : String)
  deriving DecidableEq, Repr

/-- A number-keyed list: strictly rising keys, no entry equal to the default. -/
abbrev Sparse (α : Type) := List (Nat × α)

/-- Bytes by address; an unlisted address reads 0x00 (log 1 for HBM, R200 for the other stores). -/
abbrev Memory := List Host.Cell

/-- A v or s register with its full bit (R26, R43). A register that is marked empty keeps its value, which R47 restores. -/
structure Reg where
  val : Word
  full : Bool
  deriving DecidableEq, Repr

/-- An f register with its full bit (R26, R30). -/
structure FReg where
  val : DWord
  full : Bool
  deriving DecidableEq, Repr

/-- Where a register lives: v0 to v31 of a slot, register i of the frame with a number, of the extended block, s, f. -/
inductive RegName where
  | base (slot : Fin 32) (n : Nat)
  | win (frame : Nat) (slot : Fin 32) (n : Nat)
  | ext (slot : Fin 32) (n : Nat)
  | s (n : Nat)
  | f (n : Nat)
  | none
  deriving DecidableEq, Repr

/-- Whose register file a register name belongs to. -/
inductive Owner where
  | tray (id : Nat)
  | front (team : Nat)
  deriving DecidableEq, Repr

/-- A 32-bit value on its way into a register; `hi` is meant for an f register's upper half (R30). -/
structure RegWrite where
  reg : RegName
  val : Word
  hi : Word
  deriving DecidableEq, Repr

/-- An index register's descriptor (R39, R53). -/
structure IxDesc where
  base : BitVec 6
  boundM1 : BitVec 6
  step : BitVec 4
  wrap : Bool
  set : Bool
  deriving DecidableEq, Repr

/-- A hardware loop in progress (R149). -/
structure Loop where
  lc : BitVec 2
  count : Word
  start : DWord
  stop : DWord
  deriving DecidableEq, Repr

/-- How far a frame's copy in the spill area is (R34, R35, R57). -/
inductive Spill where
  | none
  | pending
  | written
  deriving DecidableEq, Repr

/-- A frame of the register stack (R33, R147); `held` says that it occupies registers now. -/
structure Frame where
  uid : Nat
  size : Nat
  regs : Slots (Vector Reg 16)
  held : Bool
  spill : Spill
  retAddr : DWord
  prio : BitVec 6
  callers : BitVec 32
  /-- when its fill began to wait, in the order of waits (R35, R58); 0 for none -/
  asked : Nat
  deriving DecidableEq, Repr

/-- Storage with a valid bit for each 128-byte sector and a swizzle tag for each 1,024-byte line (R200, R261). -/
structure Store where
  bytes : Memory
  valid : List Nat
  tags : Sparse (BitVec 2)
  deriving DecidableEq, Repr

/-- A byte's place: HBM, a team's shared memory, a landing scratch, a tile-store allocation, a pinned HOME 11 range (its
number in the home table), a peer device. -/
inductive Loc where
  | hbm (pa : Nat)
  | shared (team off : Nat)
  | scratch (tray off : Nat)
  | tile (alloc off : Nat)
  | pin (entry off : Nat)
  | peer (dev addr : Nat)
  deriving DecidableEq, Repr

/-- What WAITNE watches in one slot: the word's place, the value it compares with, where the result goes, and for a peer's
word the tag of the read under way and what the last one brought (R253). -/
structure Watch where
  slot : Nat
  loc : Loc
  va : DWord
  cmp : Word
  regs : List RegName
  tag : Nat
  got : Option Word
  deriving DecidableEq, Repr

/-- What an allocation in the lane pool is for (R34): XACQ's block, a CALL's frame, the fill of a frame. -/
inductive PoolNeed where
  | ext
  | frame (size : Nat)
  | fill (uid : Nat)
  deriving DecidableEq, Repr

/-- What a frontier entry or a front strand waits for after its instruction began (R159). -/
inductive Wait where
  | none
  /-- at MEET or MEETL, level n (R154) -/
  | meet (level : Nat)
  /-- at a RET (R148) -/
  | ret
  /-- in ACQ: the object's place, the target, the group's size, the tag of a read at a peer, and what it acquires from: the object's
  address, the scope, the slots (R249) -/
  | acq (obj : Loc) (v : DWord) (size tag : Nat) (va : DWord) (scope : Nat) (act : BitVec 32)
  /-- in WAITNE: device time at issue, the group's size, what it watches, the cursors that advance at the end (R253), and the first
  v register and the length of the range that an indirect destination keeps pending (R42) -/
  | waitne (t0 size : Nat) (ws : List Watch) (adv : List (BitVec 7)) (range : Option (Nat × Nat))
  /-- in WAITT (R169) -/
  | waitt (v : DWord) (size : Nat)
  /-- for pool space; the order in which it began (R34, R58) -/
  | pool (order : Nat) (need : PoolNeed)
  /-- for a fabric route during a reconfiguration or for acknowledgements, since a device time (R241, R378); the instruction
  looks again at each issue -/
  | fabric (t0 : Nat)
  /-- for the peers' responses that a producer still needs, since a device time -/
  | reply (prod : Nat) (t0 : Nat)
  /-- in MIGRATE to a die (R220) -/
  | migrate (die : Nat)
  /-- held at a branch until an entry leaves the frontier (R137) -/
  | held
  /-- to be spawned with a live count once the spawn area has room (R163) -/
  | spawn (live : Nat)
  deriving DecidableEq, Repr

/-- A frontier entry (R134). `loops` lists the active loops, innermost first; the group at the PC has no effect in the slots of
`skip`, for which it retires once after a trap with cause 0x02 (R178). -/
structure Entry where
  pc : DWord
  prio : BitVec 6
  mask : BitVec 32
  depth : Nat
  loops : List Loop
  wait : Wait
  skip : BitVec 32
  deriving DecidableEq, Repr

/-- A batch tag of a tray: TAGCNT and the open epoch with what its ended copies gave (R267, R268). -/
structure TagState where
  count : Word
  epoch : Nat
  deriving DecidableEq, Repr

/-- What an epoch's copies gave so far: valid bytes, smallest cause of an abandoned copy (0 for none), a cancelled one. -/
structure Epoch where
  tray : Nat
  tag : Nat
  epoch : Nat
  left : Nat
  bytes : Nat
  cause : Nat
  cancelled : Bool
  /-- its copies, whose writes the tag's token acquires (R392) -/
  copies : List Nat
  deriving DecidableEq, Repr

/-- The frontier a trap saved, and the position of the entry that trapped (R176). -/
structure TrapState where
  frontier : List Entry
  issuer : Nat
  size : Nat
  /-- the instruction acts once for all its slots (R89) -/
  once : Bool
  deriving DecidableEq, Repr

/-- A tray (R12, R24, R26, R134, R146). -/
structure Tray where
  id : Nat
  team : Nat
  trayno : Nat
  formed : Bool
  bench : Nat
  lane : Nat
  pos : Nat
  landed : Option Nat
  scratch : Store
  base : Slots (Vector Reg 32)
  frames : List Frame
  ext : Option (Slots (Vector Reg 16))
  /-- tray-registers of its frames and extended block that it holds in the lane's common pool, not in its reserve (R31) -/
  drawn : Nat
  sregs : Vector Reg 32
  preds : Slots (BitVec 8)
  ix : Vector IxDesc 8
  cursors : Slots (Vector (BitVec 8) 8)
  frontier : List Entry
  remap : Slots (Option Nat)
  parked : BitVec 32
  prio : BitVec 4
  trap : Option TrapState
  fpc : DWord
  fcause : BitVec 8
  fmask : BitVec 32
  timehi : Word
  resv : Slots (Option Loc)
  tags : Vector TagState 4
  dqPos : Nat
  stream : BitVec 8
  fairClk : Nat
  lapsed : Bool
  /-- when its lane last took it: a lane takes ready trays of equal priority in turn (R140) -/
  turn : Nat
  /-- stopped by BRK for an attached debugger (R169) -/
  stopped : Bool
  /-- levels and units whose barrier episode now under way began before the tray was attached again (R222) -/
  excused : List (Nat × Nat)
  deriving DecidableEq, Repr

/-- Whether a front strand runs (R151). -/
inductive FrontStatus where
  | idle
  | running
  | ended
  deriving DecidableEq, Repr

/-- A front strand (R151). -/
structure Front where
  status : FrontStatus
  fregs : Vector FReg 32
  preds : BitVec 8
  pc : DWord
  loops : List Loop
  stack : List DWord
  prio : BitVec 4
  wait : Wait
  resv : Option Loc
  timehi : Word
  stopped : Bool
  deriving DecidableEq, Repr

/-- A spawned thread: its record's place in the spawn area and whether it is written yet (R142, R143). -/
structure Spawn where
  id : Nat
  tid : Nat
  tray : Nat
  slot : Fin 32
  live : Nat
  pc : DWord
  prio : BitVec 6
  preds : BitVec 8
  curs : Vector (BitVec 8) 8
  off : Nat
  written : Bool
  /-- the record as it was written, and when (R142, R144) -/
  image : List Byte
  since : Nat
  deriving DecidableEq, Repr

/-- A formed tray that waits for a tray position, with the records it takes (R144). -/
structure Formed where
  id : Nat
  spawns : List Spawn
  deriving DecidableEq, Repr

/-- A pre-emption under way for a team (R345 to R348). -/
inductive Fate where
  | run
  /-- waits for its producers, copies and synchronization, then is saved into the area (R186, R346) -/
  | save (area : Nat) (req : Nat)
  /-- runs on until the deadline (0: until it ends) -/
  | drain (deadline area req : Nat)
  deriving DecidableEq, Repr

/-- The shared memory of a team that has ended, while copies of the team still use it (R259). -/
structure Remnant where
  team : Nat
  shmem : Nat
  shared : Store
  deriving DecidableEq, Repr

/-- A team (R14, R17). -/
structure Team where
  id : Nat
  launch : Nat
  teamno : Nat
  bench : Nat
  shared : Store
  front : Front
  /-- decision queue, oldest first, and the number of its oldest entry (R152) -/
  dq : List DWord
  dqBase : Nat
  spawns : List Spawn
  formed : List Formed
  retired : Nat
  fate : Fate
  deriving DecidableEq, Repr

/-- A level descriptor (R21). -/
structure Level where
  scope : BitVec 3
  dom : BitVec 3
  extent : Nat
  deriving DecidableEq, Repr

/-- Where a result word goes (R321, R323, R324, R341, R342). -/
inductive Dest where
  | none
  /-- two s registers, or one f register, of the submitter -/
  | regs (o : Owner) (lo hi : RegName)
  | item (it : Item)
  /-- a work-graph group, by its number -/
  | group (g : Nat)
  /-- a task graph, by its number -/
  | graph (g : Nat)
  deriving DecidableEq, Repr

/-- A launch with its record (R21) and how far it is (R321). -/
structure Launch where
  id : Nat
  ctx : Nat
  ver : Nat
  recAddr : DWord
  trayPc : DWord
  frontPc : DWord
  regres : Nat
  prio : BitVec 4
  restart : Bool
  shmem : Nat
  spillBase : DWord
  spillStride : Nat
  fairPeriod : Nat
  formerTimeout : Nat
  args : Vector Word 8
  levels : List Level
  /-- first team not yet given to dispatch, and the teams that have ended -/
  nextTeam : Nat
  endedTeams : Nat
  value : BitVec 56
  cause : Option Nat
  dest : Dest
  /-- priority, deadline, estimate, stream and role of the work item (R333, R344) -/
  itemPrio : Nat
  deadline : Nat
  est : Nat
  stream : Nat
  role : Nat
  /-- sequence number of the work item behind it (R174 under cause 0x17) -/
  seq : BitVec 32
  /-- the function whose chain brought that item (R185, R383) -/
  fn : Nat
  /-- the dies of its DIE units, by unit, once chosen (R18) -/
  dies : List (Nat × Nat)
  deriving DecidableEq, Repr

/-- The state of a version's newest incarnation (R318, R331). -/
inductive VerState where
  | live
  | committed (into : BitVec 16)
  | squashed
  deriving DecidableEq, Repr

/-- A local version id that has been used (R318). -/
structure Version where
  loc : Nat
  inc : Nat
  state : VerState
  parent : Nat
  /-- TSFREEs recorded in it (R270) -/
  frees : List Nat
  /-- peers that have had its ancestors (R319, R370) -/
  told : List Nat
  /-- where the result words of its launches that have ended went (R354) -/
  ended : List Dest
  deriving DecidableEq, Repr

/-- A binding (R227). -/
structure Binding where
  base : Nat
  len : Nat
  obj : Nat
  scope : BitVec 3
  deriving DecidableEq, Repr

/-- A context (R171, R172, R227, R303, R312, R336). -/
structure Context where
  id : Nat
  part : Nat
  recAddr : DWord
  ccb : DWord
  root : Nat
  tsap : Nat
  save : DWord
  slice : Nat
  grace : Nat
  sqdrop : BitVec 64
  estStep : Nat
  estCopy : Nat
  estBase : Nat
  vback : Nat
  trapPc : DWord
  fcBase : DWord
  fcCap : Nat
  stopped : Bool
  stopCause : BitVec 8
  fcHead : BitVec 64
  fcLost : BitVec 64
  lostPend : Bool
  sticky : BitVec 26
  approx : BitVec 4
  streams : Vector (BitVec 16) 256
  versions : List Version
  bindings : List Binding
  debugger : Bool
  /-- device time at which the running slice began (R345) -/
  sliceStart : Nat
  /-- number of the context's newest engine command on each die (R258) -/
  engLast : Vector (BitVec 32) 4
  deriving DecidableEq, Repr

/-- Whose version lines: a version of a context here, or a global id of a peer in a partition's context (R319). -/
inductive VKey where
  | here (ctx ver : Nat)
  | remote (ctx : Nat) (gid : BitVec 16)
  deriving DecidableEq, Repr

/-- What a leaf or home-table entry says of an address (R193, R199). -/
structure Attr where
  w : Bool
  x : Bool
  kv : Bool
  vers : Bool
  prot : Bool
  home : BitVec 2
  aff : BitVec 2
  deriving DecidableEq, Repr

/-- A version's copy of a 128-byte sector, at the sector's place (R319). -/
structure VLine where
  key : VKey
  loc : Loc
  bytes : List Byte
  /-- a store to it went to a page with PROT = 1 (R193, R243) -/
  prot : Bool
  deriving DecidableEq, Repr

/-- A version's swizzle tag of a line (R261, R319). -/
structure VTag where
  key : VKey
  loc : Loc
  tag : BitVec 2
  deriving DecidableEq, Repr

/-- Who observes memory: the threads of an owner in the slots of a mask (a front strand is slot 0), an engine command in
progress, the engines of a die for the commands they will get (R224, R225). -/
inductive Party where
  | threads (o : Owner) (m : BitVec 32)
  | cmd (id : Nat)
  | die (d : Nat)
  deriving DecidableEq, Repr

/-- What a release is made on: a sync object by its address, the implicit object of a scope (R233), a team's decision queue
(R255), every object and the implicit one (R235, R239); such a release for the threads of one launch, or at the end of a launch
(R235). -/
inductive Guard where
  | object (a : Nat)
  | implicit
  | queue (team : Nat)
  | all
  | launch (id : Nat)
  | phase
  deriving DecidableEq, Repr

/-- The scope instances a thread belongs to: its tray or front strand, its team (0 for a detached tray), its die (R224). -/
structure Seat where
  owner : Owner
  team : Nat
  die : Nat
  deriving DecidableEq, Repr

/-- A release that covers a write: on what, at which scope (already the narrower of the release's and the binding's), by whom
(R230, R234). -/
structure Release where
  on : Guard
  scope : Nat
  seat : Seat
  deriving DecidableEq, Repr

/-- A write that some observer may still not see (R229), or one at a peer that is not acknowledged yet (R241): the version copy
and the place it was made in, what stood there before, whose own write it counts as (R239, R392), who carries it for which
releases (R231), and who may still read what stood before. `launch` is the launch of the writer. `va` is none for a write that every object's regions count as their
own; `cmd` is the engine command that made it; `tag` that of its fabric request. The list stands in coherence order. -/
structure Past where
  id : Nat
  ctx : Nat
  launch : Nat
  key : Option VKey
  loc : Loc
  va : Option DWord
  old : List Byte
  own : List (Owner × BitVec 32)
  carried : List (Guard × Owner × BitVec 32)
  cmd : Option Nat
  unseen : List Party
  rels : List Release
  tag : Nat
  /-- no write, but the service of a carousel command in the present dwell, of which threads learn as they do of its writes (R256) -/
  dwell : Bool := false
  deriving DecidableEq, Repr

/-- Whose writes the first read of a register acquires: an engine command's (R225, R392), a launch's (R355). -/
inductive Fruit where
  | cmd (id : Nat)
  | launch (id : Nat)
  deriving DecidableEq, Repr

/-- A token or result word that is written and not read yet (R225, R355, R392). -/
structure Token where
  owner : Owner
  reg : RegName
  fruit : Fruit
  deriving DecidableEq, Repr

/-- A line in an on-chip copy, with its translation: the physical address and the leaf's fields, against which later hits are
checked (R196). -/
structure LineCopy where
  ctx : Nat
  line : Nat
  pa : Nat
  attr : Attr
  deriving DecidableEq, Repr

/-- A tile-store allocation (R269, R270). -/
structure Alloc where
  id : Nat
  ctx : Nat
  ver : Nat
  handle : Nat
  units : Nat
  die : Nat
  /-- first unit in the die's tile store -/
  first : Nat
  store : Store
  lost : Bool
  deriving DecidableEq, Repr

/-- A home-table entry (R199) with its tile-store copy when HOME is 11 (R195, R200). -/
structure HomeEntry where
  base : Nat
  pages : Nat
  ctx : Nat
  home : BitVec 2
  aff : BitVec 2
  w : Bool
  vers : Bool
  prot : Bool
  valid : Bool
  frame : Nat
  store : Store
  lost : Bool
  deriving DecidableEq, Repr

/-- A remap filter entry of a memory die: the canonical pair of a physical page (R198). -/
structure Remap where
  frame : Nat
  ctx : Nat
  page : Nat
  deriving DecidableEq, Repr

/-- A sector of a shadow (R271): key address, the command that wrote it, the sector's place and contents. -/
structure ShadowSector where
  ctx : Nat
  ver : Nat
  key : DWord
  cmd : Nat
  va : DWord
  loc : Loc
  bytes : List Byte
  /-- offsets in the sector that a store has written since the command issued (R240) -/
  written : List Nat
  /-- the swizzle tag that the command gave its line (R262) -/
  tag : BitVec 2
  deriving DecidableEq, Repr

/-- A store made while a command for a shadow that observes it is in progress: the command, the place, the length (R240). -/
structure Stray where
  cmd : Nat
  loc : Loc
  n : Nat
  deriving DecidableEq, Repr

/-- What will fill an outstanding producer (R43). -/
inductive ProdKind where
  | load
  | long
  | handle
  | verify
  | sample
  deriving DecidableEq, Repr

/-- An outstanding producer: registers marked empty and the values they will take (R43). -/
structure Producer where
  id : Nat
  owner : Owner
  kind : ProdKind
  pc : DWord
  size : Nat
  mask : BitVec 32
  writes : List RegWrite
  /-- registers marked empty for it, which R47 marks full again -/
  marks : List RegName
  /-- slots whose accesses at peers failed: slot, address, cause -/
  bad : List (Nat × DWord × Nat)
  /-- fabric accesses whose responses it still needs, and the operand codes whose cursors advance once they are in -/
  tags : List Nat
  adv : List (BitVec 7)
  /-- guard register and disabling value when a fault clears (R77) -/
  clear : Option (BitVec 3 × Bool)
  /-- the scope of the acquire that a scoped atomic makes once its responses are in (R233) -/
  acquire : Option (BitVec 3)
  deriving DecidableEq, Repr

/-- What an engine or carousel command does, with its captured operands. -/
inductive CmdOp where
  | cpy (dst src : DWord) (rows len sstr dstr : Nat) (swz : BitVec 2) (shd : Bool)
  | gath (dst list : DWord) (row count stride : Nat) (swz : BitVec 2) (shd : Bool)
  | cpyt (dst src : DWord) (n : Nat) (slot : Fin 32) (tag epoch : Nat)
  | ctag (tag epoch : Nat)
  | publish (key : DWord) (waits : List Nat)
  | mwld (arr : Nat) (addr : DWord) (ctl s4 : Word)
  | mstr (arr : Nat) (addr : DWord) (ctl s4 : Word) (shape : Option (List (Nat × Nat)))
  | mloop (arr : Nat) (blk : List Word) (shape : Option (List (Nat × Nat)))
  | scpy (arr : Nat) (addr : DWord) (first count : Nat)
  | accclr (arr first count : Nat)
  | accpop (arr : Nat) (mask : BitVec 32) (regs : Slots (List RegName))
  | kvld (desc tile : DWord) (pos : Word) (sel : Word)
  | kvst (desc src : DWord) (pos : Word) (sel : Word)
  | board (name : Word) (src : DWord)
  | catchTile (name : Word) (dst : DWord)
  | rplc (name : Word) (src : DWord)
  | alight (name : Word)
  deriving DecidableEq, Repr

/-- How far a command is. -/
inductive CmdState where
  | queued
  /-- a carousel command registered at its station, with the order of registration and the dwells left (R211) -/
  | registered (order dwells : Nat)
  /-- a caught tile latched, in part written (R213, R223) -/
  | latched
  /-- held at its resumption point until its trap's ERET (R179); `told` once the trap is delivered -/
  | held (cause : Nat) (addr : DWord) (detail : DWord) (told : Bool)
  /-- its writes at peers await acknowledgement; then the token takes this value (R241) -/
  | closing (token : Word)
  deriving DecidableEq, Repr

/-- An engine or carousel command in progress (R257, R209). -/
structure Cmd where
  id : Nat
  die : Nat
  bench : Nat
  /-- number on its die (R258), none for commands that are not engine commands -/
  seq : Option (BitVec 32)
  /-- number of the context's engine command before it on the die, 0 for none (R258) -/
  prevSeq : BitVec 32
  ctx : Nat
  ver : Nat
  launch : Nat
  team : Nat
  teamno : Nat
  owner : Owner
  pc : DWord
  token : RegName
  prio : BitVec 4
  op : CmdOp
  state : CmdState
  /-- MLOOP steps completed -/
  steps : Nat
  /-- source bytes and swizzle tags read for BOARD, RPLC (R212), latched for CATCH, and the generation latched -/
  data : List Byte
  swz : BitVec 32
  gen : Nat
  /-- fabric accesses it waits for, and what earlier ones brought: peer, address there, bytes -/
  tags : List Nat
  got : List (Nat × Nat × List Byte)
  /-- clk at issue (R211) -/
  since : Nat
  /-- device time at which the cause that holds it was met (R174) -/
  met : Nat
  /-- a carousel command that follows the service of another in the dwell of its issue (R256) -/
  chained : Bool
  /-- what a peer answered to whether the command may update its descriptor there (R291) -/
  may : Option Bool
  deriving DecidableEq, Repr

/-- A plane of a matrix array with its recorded weight fields (R283). -/
structure Plane where
  wfmt : BitVec 4
  wsgn : Bool
  grp : BitVec 2
  scb : BitVec 7
  wswz : BitVec 2
  k : Nat
  data : List Byte
  deriving DecidableEq, Repr

/-- A matrix array (R273). An accumulator sector, keyed 4 × row + sector, is valid when listed. -/
structure ArrayState where
  bench : Nat
  num : Nat
  holder : Option Nat
  acc : Sparse (List Word)
  scale : Sparse Word
  queue : List Nat
  shape : Option (List (Nat × Nat))
  active : Option Plane
  shadow : Option Plane
  deriving DecidableEq, Repr

/-- A busy car (R207). -/
structure Car where
  num : Nat
  name : Word
  owner : Nat
  part : Nat
  gen : Nat
  swz : BitVec 32
  crc : BitVec 32
  data : List Byte
  boarded : Nat
  /-- its owner stopped: freed at its next dwell (R208) -/
  doomed : Bool
  deriving DecidableEq, Repr

/-- The carousel (R207, R368): car i stands at position (i + turn) mod size. -/
structure Ring where
  cars : List Car
  turn : Nat
  size : Nat
  count : Nat
  /-- cars freed in the present dwell (R216) -/
  freed : List Nat
  deriving DecidableEq, Repr

/-- A function's chain slot: CHAINn, ACTIVE, REFUSED and the TAIL last read (R332, R384). -/
structure Chain where
  fn : Nat
  slot : Nat
  part : Nat
  reg : BitVec 64
  active : Bool
  refused : Bool
  tail : Nat
  taken : Nat
  nextSeq : BitVec 32
  /-- a doorbell asks that TAIL be read before any item is taken -/
  rung : Bool
  /-- device time of the last read of TAIL -/
  polled : Nat
  /-- items taken whose result word is not written yet, in order (R335) -/
  open_ : List Nat
  deriving DecidableEq, Repr

/-- What a PIFO entry releases (R338). -/
inductive Work where
  | item (it : Item)
  | launch (id : Nat)
  | group (g : Nat)
  | saved (id : Nat)
  deriving DecidableEq, Repr

/-- A PIFO entry (R338). -/
structure PifoEntry where
  rank : Nat
  arrival : Nat
  work : Work
  prio : Nat
  deadline : Nat
  est : Nat
  deriving DecidableEq, Repr

/-- A node's open group, or one launched that has not ended (R341). -/
structure Group where
  id : Nat
  ctx : Nat
  node : Nat
  recs : List Item
  timer : Option Nat
  closed : Bool
  launched : Bool
  lists : Nat
  deriving DecidableEq, Repr

/-- A task graph in progress: its item and the node that runs (R342). -/
structure Graph where
  id : Nat
  item : Item
  node : Nat
  deriving DecidableEq, Repr

/-- A bind record in a slot table (R343). -/
structure BindRec where
  id : Nat
  ctx : Nat
  launch : Nat
  teamno : Nat
  bench : Nat
  ver : Nat
  prio : BitVec 4
  deriving DecidableEq, Repr

/-- Why teams are pre-empted: a PREEMPT item, a lapsed slice (R345), a quiesce (R362), a die that goes offline with its
FORCE (R366). -/
inductive PreemptKind where
  | item (it : Item)
  | slice
  | quiesce
  | die (force : Bool)
  deriving DecidableEq, Repr

/-- A pre-emption request of a context (R345, R350): its save area and where its last image ends there, its report entries as
TEAMNO, outcome and offset, the teams left. -/
structure Preempt where
  id : Nat
  kind : PreemptKind
  ctx : Nat
  area : Nat
  used : Nat
  done : List (Nat × Nat × Nat)
  left : List Nat
  deriving DecidableEq, Repr

/-- A saved team (R186): its context, its area and offset, and what its image holds. -/
structure Saved where
  id : Nat
  ctx : Nat
  area : Nat
  off : Nat
  len : Nat
  team : Team
  trays : List Tray
  arrays : List ArrayState
  cmds : List Cmd
  deriving DecidableEq, Repr

/-- The scheduler (R332 to R351). -/
structure Sched where
  chains : List Chain
  /-- the PIFO's 4,096 entries, and behind them, in order, work of the complex's own that waits to enter it (R9, R338, log 149) -/
  pifo : List PifoEntry
  arrivals : Nat
  groups : List Group
  graphs : List Graph
  slots : List BindRec
  preempts : List Preempt
  saved : List Saved
  /-- which complex is active, and the UPDATE item whose image waits to take over (R351) -/
  activeB : Bool
  /-- what stands in the active complex's rank-program slot; none for the firmware's default rank (R9, R338) -/
  rankProg : Option (List Byte)
  update : Option Item
  updImage : List Byte
  deriving DecidableEq, Repr

/-- What a fabric access in flight is for. -/
inductive FabUse where
  /-- a read, an atomic or a release of a thread: the producer, the slot, the registers for its bytes, the load's funct -/
  | load (prod : Nat) (slot : Nat) (regs : List RegName) (n : Nat) (signed : Bool)
  /-- a write of a thread, with its object bytes covered (R241) -/
  | store
  /-- a read for ACQ or WAITNE -/
  | probe
  /-- a read of a record for an instruction that looks again at each issue -/
  | peek
  /-- an engine command's access; `weight` tells a matrix command's operand (R174) -/
  | cmd (id : Nat) (weight : Bool)
  /-- an engine command asks whether it may update its descriptor at a peer (R291) -/
  | desc (id : Nat)
  deriving DecidableEq, Repr

/-- A fabric access in flight (R241, R370, R375). -/
structure FabAccess where
  tag : Nat
  peer : Nat
  owner : Owner
  op : FabOp
  addr : BitVec 64
  /-- the address as the thread wrote it, for R241's cover -/
  va : BitVec 64
  gid : BitVec 16
  locseq : Nat
  use : FabUse
  since : Nat
  deriving DecidableEq, Repr

/-- What a read of a record at a peer brought: the bytes, or the cause of its failure. -/
structure Pulled where
  owner : Owner
  peer : Nat
  addr : Nat
  data : List Byte
  cause : Option Nat
  deriving DecidableEq, Repr

/-- What a device knows of a peer's version (R329). -/
structure PeerVer where
  dev : Nat
  loc : Nat
  inc : Nat
  squashed : Bool
  committed : Option (BitVec 16)
  ancestors : List (BitVec 16)
  deriving DecidableEq, Repr

/-- A notice that waits to be sent or acknowledged (R326, R328, R377). -/
structure NoticeOut where
  id : Nat
  squash : Bool
  gid : BitVec 16
  parent : BitVec 16
  /-- peers that have not acknowledged; after FABTO they are left out and owed a repeat -/
  waits : List Nat
  owed : List Nat
  since : Nat
  sent : List Nat
  /-- the producer with which the RESOLVE or SQUASH that waits stands -/
  waiter : Option Nat
  deriving DecidableEq, Repr

/-- A later write that waits for earlier ones of its location (R375). -/
structure LocWait where
  src : Nat
  addr : BitVec 64
  next : Nat
  deriving DecidableEq, Repr

/-- A reconfiguration under way (R378): the ports that change, with their new peers and the markers not yet acknowledged. -/
structure Reconfig where
  ports : List (Nat × Nat)
  markers : List (Nat × Nat)
  deriving DecidableEq, Repr

/-- The fabric (R370 to R382). -/
structure Fab where
  flights : List FabAccess
  pulled : List Pulled
  notices : List NoticeOut
  peerVers : List PeerVer
  /-- per source and location, the next sequence number to apply, and the writes held (R375) -/
  locNext : List LocWait
  heldReqs : List FabReq
  /-- sequence numbers given to this device's own writes, per location -/
  locSent : List LocWait
  /-- hold registers: die, port, packet (R374) -/
  holds : List (Nat × Nat × Packet)
  reconfig : Option Reconfig
  /-- parity deltas sent and not acknowledged: tag, writer, partition, stripe, holder (R381) -/
  deltas : List (Nat × Party × Nat × Nat × Nat)
  /-- protected sectors of version 0 that are dirty, with the bytes the holder knows and the writers (R243, R381, R392) -/
  dirty : List (Nat × List Byte × List Party)
  /-- stripes rebuilding and the deltas queued for them (R382) -/
  rebuilds : List (Nat × Nat)
  queued : List Delta
  /-- the next injection number of this device's packets, and those that have not been through a crossbar yet (R374) -/
  injected : BitVec 32
  queue : List Packet
  /-- replay buffers: port, virtual channel, packet (R373) -/
  replay : List (Nat × Nat × Packet)
  deriving DecidableEq, Repr

/-- A partition record in force (R386). -/
structure Partition where
  id : Nat
  benches : List Nat
  l2q : Nat
  carq : Nat
  fabsh : Nat
  tsq : List Nat
  fabctx : Nat
  vfs : Nat
  pgroup : Nat
  hbm : List (Nat × Nat)
  deriving DecidableEq, Repr

/-- The package variant (R1, R25). -/
inductive Variant where
  | x9
  | solo
  | lite
  deriving DecidableEq, Repr

/-- Whether the dies run (R388, R391). -/
inductive Power where
  | running
  /-- firmware did not verify (R388) -/
  | inReset
  /-- power removed at 110 °C (R391) -/
  | tripped
  deriving DecidableEq, Repr

/-- The package registers and die states (R359 to R391). -/
structure Pkg where
  power : Power
  /-- L2HSEL and L2LIVE in force, and as last written (R361) -/
  nlive : BitVec 7
  live : BitVec 96
  nliveNew : BitVec 7
  liveNew : BitVec 96
  pend : Bool
  /-- QUIESCE[2:0]: running, a range demoted, the partition table refused (R362, R387) -/
  quiesce : BitVec 3
  diectl : Word
  diereq : BitVec 64
  /-- the request record of the die that goes offline: its NODEMOTE mask and report address (R365) -/
  nodemote : BitVec 256
  report : BitVec 64
  fabno : BitVec 4
  fabcfgGo : Bool
  fabto : Word
  parttab : BitVec 64
  portstat : Vector Word 16
  pwrcap : BitVec 12
  /-- arithmetic clock in steps of 93.75 MHz: 16 is 1.5 GHz (R4, R391) -/
  clock : Nat
  parts : List Partition
  /-- hub slices fenced, benches removed, failures of a bench (R185) -/
  fenced : List Nat
  removed : List Nat
  benchFail : Sparse Nat
  /-- functions fenced after a failure (R185) -/
  fencedFns : List Nat
  /-- corrected memory errors, counted by die (R180) -/
  corrected : Sparse Nat
  offline : List Nat
  /-- consecutive failed replays of a link, keyed 16 × die + link (R358) -/
  replays : Sparse Nat
  /-- dead links of E0, E1, F or H: no work until the host resets (R358) -/
  dead : Bool
  /-- images loaded at boot: measured bytes (R389) -/
  images : List (List Byte)
  deriving DecidableEq, Repr

/-- What leaves the device. -/
inductive Out where
  /-- MSI-X vector 0 of a function (R384) -/
  | msix (fn : Nat)
  | cxlData (bytes : List Byte)
  | report (bytes : List Byte)
  /-- a packet to a peer, by its route header, and the neighbour to which it leaves: the peer, or the relay to it (R373, R376) -/
  | request (h : Packet) (hop : Nat) (r : FabReq)
  | response (h : Packet) (hop : Nat) (r : FabResp)
  | delta (h : Packet) (hop : Nat) (d : Delta)
  | ack (h : Packet) (hop tag : Nat)
  /-- a notice to the peer of the header, or with a multicast mask to the peers of the mask (R377) -/
  | notice (h : Packet) (squash : Bool) (n : Notice)
  | marker (port vc : Nat)
  | packet (die port : Nat) (p : Packet)
  /-- F reports the thermal trip (R391), the debugger is told of a BRK (R169) -/
  | trip
  | brk (tray : Nat)
  deriving DecidableEq, Repr

/-- A move already decided: an agent issues, or an event happens (log 2). -/
inductive Move where
  | issue (a : Agent)
  | event (i : Instr) (x : Input)
  deriving DecidableEq, Repr

/-- The device. -/
structure State where
  variant : Variant
  ctxs : List Context
  launches : List Launch
  teams : List Team
  trays : List Tray
  prods : List Producer
  cmds : List Cmd
  epochs : List Epoch
  remnants : List Remnant
  /-- next number of an engine command on a die (R258) -/
  dieSeq : Vector (BitVec 32) 4
  arrays : List ArrayState
  ring : Ring
  mem : Memory
  /-- swizzle tags of HBM lines (R261) -/
  tags : Sparse (BitVec 2)
  vlines : List VLine
  vtags : List VTag
  allocs : List Alloc
  homeTab : List HomeEntry
  remapFilt : List Remap
  /-- translated lines that caches may still hold (R196) -/
  copies : List LineCopy
  /-- frames that a full remap filter serves as HOME 01 under every name (R198) -/
  uncached : List Nat
  /-- physical lines of HOME 10 pages that are dirty in their hub slices (R195) -/
  hubDirty : List Nat
  /-- writes that some observer may not see yet, in coherence order (R229), and filled tokens not read yet (R225) -/
  past : List Past
  tokens : List Token
  shadows : List ShadowSector
  strays : List Stray
  /-- KV pages promoted into the hub L2, by frame, for a version (R296) -/
  promoted : List (Nat × VKey)
  sched : Sched
  fab : Fab
  pkg : Pkg
  /-- clk since reset, and device time in units of 1/2162160 ns (R4, R48, log 3) -/
  clk : Nat
  timeU : Nat
  outbox : List Out
  /-- the model's own (log 2): moves decided, who issues, what the event brings, whether the last issue only waited, counters -/
  agenda : List Move
  cur : Agent
  input : Input
  stalled : Bool
  tick : Nat
  nextId : Nat
  deriving DecidableEq, Repr

/-- A full register that holds 0 (R24). -/
def Reg.zero : Reg := { val := 0, full := true }

/-- A full f register that holds 0 (R24). -/
def FReg.zero : FReg := { val := 0, full := true }

/-- Storage in which no sector is valid (R200). -/
def Store.empty : Store := { bytes := [], valid := [], tags := [] }

/-- The descriptor of an index register no IXSET has written (R39). -/
def IxDesc.unset : IxDesc := { base := 0, boundM1 := 0, step := 0, wrap := false, set := false }

/-- An empty scheduler. -/
def Sched.reset : Sched :=
  { chains := [], pifo := [], arrivals := 0, groups := [], graphs := [], slots := [], preempts := [], saved := [],
    activeB := false, rankProg := none, update := none, updImage := [] }

/-- A fabric at rest. -/
def Fab.reset : Fab :=
  { flights := [], pulled := [], notices := [], peerVers := [], locNext := [], heldReqs := [], locSent := [], holds := [],
    reconfig := none, deltas := [], dirty := [], rebuilds := [], queued := [], injected := 0, queue := [], replay := [] }

/-- The package registers after reset (R361, R365, R371, R372, R391; log 9 for those without a reset value). -/
def Pkg.reset : Pkg :=
  { power := .running, nlive := 96, live := BitVec.allOnes 96, nliveNew := 96, liveNew := BitVec.allOnes 96, pend := false,
    quiesce := 0, diectl := 0, diereq := 0, nodemote := 0, report := 0, fabno := 0, fabcfgGo := false, fabto := 0, parttab := 0,
    portstat := Vector.replicate 16 0, pwrcap := 3500, clock := 16, parts := [], fenced := [], removed := [],
    benchFail := [], fencedFns := [], corrected := [], offline := [], replays := [], dead := false, images := [] }

/-- The device right after reset: no context exists, nothing is resident, memory lists nothing. -/
def State.reset : State :=
  { variant := .x9, ctxs := [], launches := [], teams := [], trays := [], prods := [], cmds := [], epochs := [], remnants := [],
    dieSeq := Vector.replicate 4 1, arrays := [], ring := { cars := [], turn := 0, size := 1024, count := 1024, freed := [] },
    mem := [], tags := [], vlines := [], vtags := [], allocs := [], homeTab := [], remapFilt := [], copies := [], uncached := [], hubDirty := [],
    past := [],
    tokens := [], shadows := [], strays := [],
    promoted := [], sched := .reset, fab := .reset, pkg := .reset, clk := 0, timeU := 0, outbox := [], agenda := [],
    cur := .none, input := .blank, stalled := false, tick := 0, nextId := 1 }

end Sys2Proof.Machine
end

