-- ==== Sys2Proof/Machine/Mem.lean ====
section
/-!
DEFINITION. Machine/Mem.lean: sparse storage, the versions' views of it (R238, R319), swizzle tags (R261, R262), the classes
of address (R188 to R190), translation and its checks (R192 to R199), and the one operation each that reads and writes
bytes.
-/

namespace Sys2Proof.Machine

/-- The value at a key, the default d when it is not listed. -/
def Sparse.get {α : Type} (d : α) : Sparse α → Nat → α
  | [], _ => d
  | (k, v) :: rest, a => if k = a then v else Sparse.get d rest a

/-- Put a value at a key, keeping the keys rising and no entry equal to the default d. -/
def Sparse.put {α : Type} [DecidableEq α] (d : α) : Sparse α → Nat → α → Sparse α
  | [], a, x => if x = d then [] else [(a, x)]
  | (k, v) :: rest, a, x =>
    if a < k then (if x = d then (k, v) :: rest else (a, x) :: (k, v) :: rest)
    else if a = k then (if x = d then rest else (a, x) :: rest)
    else (k, v) :: Sparse.put d rest a x

/-- The canonical form: keys above the bound and rising, no entry equal to the default. -/
def Sparse.wfAbove {α : Type} [DecidableEq α] (d : α) : Nat → Sparse α → Bool
  | _, [] => true
  | lo, (k, v) :: rest => lo ≤ k && v != d && Sparse.wfAbove d (k + 1) rest

/-- The canonical form of a sparse list. -/
def Sparse.wf {α : Type} [DecidableEq α] (d : α) (m : Sparse α) : Bool := Sparse.wfAbove d 0 m

/-- What a byte that nothing has written reads as: 0x00 (R200; for HBM log 1). -/
def Memory.unlisted : Byte := 0

/-- Read one byte. -/
def Memory.read (m : Memory) (a : Nat) : Byte := Sparse.get Memory.unlisted m a

/-- Write one byte. -/
def Memory.write (m : Memory) (a : Nat) (x : Byte) : Memory := Sparse.put Memory.unlisted m a x

/-- The canonical form of memory. -/
def Memory.wf (m : Memory) : Bool := Sparse.wf Memory.unlisted m

/-- A number from bytes, the lowest first. -/
def leNat : List Byte → Nat
  | [] => 0
  | b :: bs => b.toNat + 256 * leNat bs

/-- The n low bytes of a number, the lowest first. -/
def leBytes : Nat → Nat → List Byte
  | 0, _ => []
  | n + 1, x => BitVec.ofNat 8 x :: leBytes n (x / 256)

/-- The n bytes of memory from an address. -/
def Memory.readN (m : Memory) (a n : Nat) : List Byte := (List.range n).map fun i => m.read (a + i)

/-- Write bytes from an address upward. -/
def Memory.writeN : Memory → Nat → List Byte → Memory
  | m, _, [] => m
  | m, a, b :: bs => Memory.writeN (m.write a b) (a + 1) bs

/-- Read a byte of a store. -/
def Store.read (st : Store) (a : Nat) : Byte := st.bytes.read a

/-- Write a byte of a store: its sector becomes valid (R200). -/
def Store.write (st : Store) (a : Nat) (x : Byte) : Store :=
  { st with
    bytes := st.bytes.write a x
    valid := if st.valid.contains (a / 128) then st.valid else st.valid ++ [a / 128] }

/-- A place i bytes further. -/
def Loc.add : Loc → Nat → Loc
  | .hbm a, i => .hbm (a + i)
  | .shared t o, i => .shared t (o + i)
  | .scratch t o, i => .scratch t (o + i)
  | .tile al o, i => .tile al (o + i)
  | .pin e o, i => .pin e (o + i)
  | .peer d a, i => .peer d (a + i)

/-- The offset of a place in its store. -/
def Loc.off : Loc → Nat
  | .hbm a | .shared _ a | .scratch _ a | .tile _ a | .pin _ a | .peer _ a => a

/-- The same store at another offset. -/
def Loc.at : Loc → Nat → Loc
  | .hbm _, o => .hbm o
  | .shared t _, o => .shared t o
  | .scratch t _, o => .scratch t o
  | .tile al _, o => .tile al o
  | .pin e _, o => .pin e o
  | .peer d _, o => .peer d o

/-- The 128-byte sector of a place, which is also a reservation's granule (R236). -/
def Loc.sector (l : Loc) : Loc := l.at (l.off / 128 * 128)

/-- The 1,024-byte line of a place (R261). -/
def Loc.line (l : Loc) : Loc := l.at (l.off / 1024 * 1024)

/-- The object with a number. -/
def State.tray? (s : State) (id : Nat) : Option Tray := s.trays.find? (·.id == id)
def State.team? (s : State) (id : Nat) : Option Team := s.teams.find? (·.id == id)
def State.launch? (s : State) (id : Nat) : Option Launch := s.launches.find? (·.id == id)
def State.ctx? (s : State) (id : Nat) : Option Context := s.ctxs.find? (·.id == id)
def State.alloc? (s : State) (id : Nat) : Option Alloc := s.allocs.find? (·.id == id)
def State.cmd? (s : State) (id : Nat) : Option Cmd := s.cmds.find? (·.id == id)

/-- Change the object with a number. -/
def State.modTray (s : State) (id : Nat) (f : Tray → Tray) : State :=
  { s with trays := s.trays.map fun x => if x.id == id then f x else x }
def State.modTeam (s : State) (id : Nat) (f : Team → Team) : State :=
  { s with teams := s.teams.map fun x => if x.id == id then f x else x }
def State.modLaunch (s : State) (id : Nat) (f : Launch → Launch) : State :=
  { s with launches := s.launches.map fun x => if x.id == id then f x else x }
def State.modCtx (s : State) (id : Nat) (f : Context → Context) : State :=
  { s with ctxs := s.ctxs.map fun x => if x.id == id then f x else x }
def State.modAlloc (s : State) (id : Nat) (f : Alloc → Alloc) : State :=
  { s with allocs := s.allocs.map fun x => if x.id == id then f x else x }
def State.modCmd (s : State) (id : Nat) (f : Cmd → Cmd) : State :=
  { s with cmds := s.cmds.map fun x => if x.id == id then f x else x }
def State.modFront (s : State) (team : Nat) (f : Front → Front) : State :=
  s.modTeam team fun t => { t with front := f t.front }

/-- Change element i of a list. -/
def modAt {α : Type} (f : α → α) : List α → Nat → List α
  | [], _ => []
  | x :: xs, 0 => f x :: xs
  | x :: xs, n + 1 => x :: modAt f xs n

/-- A fresh number. -/
def State.fresh (s : State) : Nat × State := (s.nextId, { s with nextId := s.nextId + 1 })

/-- Device time in whole ns (R48): the unit is 1/2162160 ns. -/
def State.time (s : State) : Nat := s.timeU / 2162160

/-- CAPS as the variant gives it (R1). -/
def Variant.caps : Variant → Word
  | .x9 => 0x0000C01F#32
  | .solo => 0x0001C018#32
  | .lite => 0x0002A000#32

/-- A CAPS bit (R1): 0 FABRIC, 1 PARITY, 2 REMOTE, 3 FP64, 4 KVDEC. -/
def State.cap (s : State) (bit : Nat) : Bool := s.variant.caps.getLsbD bit

/-- The benches of a compute die (R11). -/
def Variant.benchesPerDie : Variant → Nat
  | .lite => 40
  | _ => 48

/-- A die's number from a bench's (R11). -/
def dieOf (bench : Nat) : Nat := bench / 48

/-- The version record of a local id in a context. -/
def Context.ver? (c : Context) (v : Nat) : Option Version := c.versions.find? (·.loc == v)

/-- A version followed by its ancestors up to version 0, nearest first (R238, R318). -/
def Context.chainFrom (c : Context) : Nat → Nat → List Nat
  | 0, _ => []
  | fuel + 1, v => if v = 0 then [0] else v :: c.chainFrom fuel (match c.ver? v with | some r => r.parent | none => 0)

/-- A version and its ancestors. -/
def Context.chain (c : Context) (v : Nat) : List Nat := c.chainFrom 65 v

/-- A version's global id (R317); version 0's is DEV × 4,096. -/
def Context.gid (c : Context) (fabno : BitVec 4) (v : Nat) : BitVec 16 :=
  let inc := match c.ver? v with | some r => r.inc | none => 0
  BitVec.ofNat 16 (fabno.toNat * 4096 + v * 64 + (if v = 0 then 0 else inc))

/-- The device's number in global version ids: 0 without a fabric (R317). -/
def State.devNo (s : State) : BitVec 4 := if s.cap 0 then s.pkg.fabno else 0

/-- The shared memory of a team, of one that has ended too while its copies use it (R189, R259). -/
def State.sharedOf (s : State) (team : Nat) : Option Store :=
  match s.team? team with
  | some tm => some tm.shared
  | none => (s.remnants.find? (·.team == team)).map (·.shared)

/-- Change a team's shared memory. -/
def State.modShared (s : State) (team : Nat) (f : Store → Store) : State :=
  let s := s.modTeam team fun tm => { tm with shared := f tm.shared }
  { s with remnants := s.remnants.map fun x => if x.team == team then { x with shared := f x.shared } else x }

/-- The committed byte at a place. A peer's bytes are not held here. -/
def State.baseByte (s : State) : Loc → Byte
  | .hbm a => s.mem.read a
  | .shared t o => match s.sharedOf t with | some x => x.read o | none => 0
  | .scratch t o => match s.tray? t with | some tr => tr.scratch.read o | none => 0
  | .tile al o => match s.alloc? al with | some x => x.store.read o | none => 0
  | .pin e o => match s.homeTab[e]? with | some x => x.store.read o | none => 0
  | .peer _ _ => 0

/-- Write the committed byte at a place. -/
def State.putBase (s : State) (l : Loc) (x : Byte) : State :=
  match l with
  | .hbm a => { s with mem := s.mem.write a x }
  | .shared t o => s.modShared t fun st => st.write o x
  | .scratch t o => s.modTray t fun tr => { tr with scratch := tr.scratch.write o x }
  | .tile al o => s.modAlloc al fun a => { a with store := a.store.write o x }
  | .pin e o => { s with homeTab := modAt (fun h => { h with store := h.store.write o x }) s.homeTab e }
  | .peer _ _ => s

/-- The version lines' keys that a version of a context observes, nearest first, version 0 left out (R238). -/
def Context.keys (c : Context) (v : Nat) : List VKey := ((c.chain v).filter (· != 0)).map (VKey.here c.id)

/-- The line of a key that holds a sector. -/
def State.vline? (s : State) (k : VKey) (l : Loc) : Option VLine := s.vlines.find? fun x => x.key == k && x.loc == l

/-- The byte at a place as an observer of the keys sees it (R238, R319). -/
def State.byteSeen (s : State) (keys : List VKey) (l : Loc) : Byte :=
  match keys.findSome? fun k => s.vline? k l.sector with
  | some x => x.bytes.getD (l.off % 128) 0
  | none => s.baseByte l

/-- n bytes from a place as an observer of the keys sees them. -/
def State.seen (s : State) (keys : List VKey) (l : Loc) (n : Nat) : List Byte :=
  (List.range n).map fun i => s.byteSeen keys (l.add i)

/-- Write one byte into the copy of the key that stands first, copying its sector at its first write (R319). -/
def State.putVersion (s : State) (keys : List VKey) (k : VKey) (l : Loc) (x : Byte) : State :=
  match s.vline? k l.sector with
  | some _ =>
    { s with
      vlines := s.vlines.map fun y =>
        if y.key == k && y.loc == l.sector then { y with bytes := y.bytes.set (l.off % 128) x } else y }
  | none =>
    { s with vlines := s.vlines ++ [{ key := k, loc := l.sector, bytes := (s.seen keys l.sector 128).set (l.off % 128) x, prot := false }] }

/-- Write one byte in a version: into its copy when the place is versioned and the version is not 0, else in place. -/
def State.putSeen (s : State) (keys : List VKey) (versioned : Bool) (l : Loc) (x : Byte) : State :=
  match versioned, keys with
  | true, k :: _ => s.putVersion keys k l x
  | _, _ => s.putBase l x

/-- Write bytes upward from a place in a version. -/
def State.putBytes (s : State) (keys : List VKey) (versioned : Bool) (l : Loc) : List Byte → State
  | [] => s
  | b :: bs => (s.putSeen keys versioned l b).putBytes keys versioned (l.add 1) bs

/-- A line's swizzle tag in place (R261). -/
def State.baseTag (s : State) (l : Loc) : BitVec 2 :=
  match l with
  | .hbm a => Sparse.get 0 s.tags (a / 1024)
  | .shared t o => match s.sharedOf t with | some x => Sparse.get 0 x.tags (o / 1024) | none => 0
  | .scratch t o => match s.tray? t with | some x => Sparse.get 0 x.scratch.tags (o / 1024) | none => 0
  | .tile al o => match s.alloc? al with | some x => Sparse.get 0 x.store.tags (o / 1024) | none => 0
  | .pin e o => match s.homeTab[e]? with | some x => Sparse.get 0 x.store.tags (o / 1024) | none => 0
  | .peer _ _ => 3

/-- A line's swizzle tag as a version sees it (R261, R319). -/
def State.tagSeen (s : State) (keys : List VKey) (l : Loc) : BitVec 2 :=
  match keys.findSome? fun k => s.vtags.find? fun x => x.key == k && x.loc == l.line with
  | some x => x.tag
  | none => s.baseTag l

/-- Set a store's tag of a line. -/
def Store.setTag (st : Store) (o : Nat) (t : BitVec 2) : Store := { st with tags := Sparse.put 0 st.tags (o / 1024) t }

/-- Set a line's tag in a version (R262). -/
def State.putTag (s : State) (keys : List VKey) (versioned : Bool) (l : Loc) (t : BitVec 2) : State :=
  match versioned, keys with
  | true, k :: _ =>
    { s with vtags := (s.vtags.filter fun x => !(x.key == k && x.loc == l.line)) ++ [{ key := k, loc := l.line, tag := t }] }
  | _, _ =>
    match l with
    | .hbm a => { s with tags := Sparse.put 0 s.tags (a / 1024) t }
    | .shared tm o => s.modShared tm fun x => x.setTag o t
    | .scratch tr o => s.modTray tr fun x => { x with scratch := x.scratch.setTag o t }
    | .tile al o => s.modAlloc al fun x => { x with store := x.store.setTag o t }
    | .pin e o => { s with homeTab := modAt (fun h => { h with store := h.store.setTag o t }) s.homeTab e }
    | .peer _ _ => s

/-- Who writes: a thread of a tray, a front strand, or an engine, peer or host (R170). -/
inductive Writer where
  | thread (tray : Nat) (slot : Fin 32)
  | strand (team : Nat)
  | agent
  deriving DecidableEq, Repr

/-- Every reservation on a granule is lost but the writer's own (R170, R236). The granule is the place: a write of it in any
version counts (log 138). -/
def State.loseResv (s : State) (g : Loc) (w : Writer) : State :=
  { s with
    trays := s.trays.map fun tr =>
      { tr with resv := Slots.gen fun t => if tr.resv[t] == some g && w != .thread tr.id t then none else tr.resv[t] }
    teams := s.teams.map fun tm =>
      if tm.front.resv == some g && w != .strand tm.id then { tm with front := { tm.front with resv := none } } else tm }

/-- The sectors that n bytes from a place touch, ascending. -/
def Loc.sectors (l : Loc) (n : Nat) : List Loc :=
  if n = 0 then []
  else (List.range ((l.off + n - 1) / 128 - l.off / 128 + 1)).map fun i => l.at ((l.off / 128 + i) * 128)

/-- The lines that n bytes from a place touch, ascending. -/
def Loc.lines (l : Loc) (n : Nat) : List Loc :=
  if n = 0 then []
  else (List.range ((l.off + n - 1) / 1024 - l.off / 1024 + 1)).map fun i => l.at ((l.off / 1024 + i) * 1024)

/-- What an access does to its address (R194). An engine may write KV pages (R295). -/
inductive Access where
  | read
  | write
  | engineWrite
  | fetch
  deriving DecidableEq, Repr

/-- Whether an access is a write. -/
def Access.isWrite : Access → Bool
  | .write | .engineWrite => true
  | _ => false

/-- An 8-byte word of a translation table. -/
def State.tableWord (s : State) (pa : Nat) : BitVec 64 := BitVec.ofNat 64 (leNat (s.mem.readN pa 8))

/-- The frame field of a table entry. -/
def frameOf (e : BitVec 64) : Nat := (e.extractLsb' 16 36).toNat

/-- A table pointer is valid with every other bit 0 (R192). -/
def pointerOk (e : BitVec 64) : Bool := e.getLsbD 0 && e &&& 0xFFF000000000FFFE#64 == 0#64

/-- A leaf is valid, its reserved bits are 0, LARGE fits its level and the frame is aligned (R193, R194). -/
def leafOk (large : Bool) (e : BitVec 64) : Bool :=
  e.getLsbD 0 && e &&& 0xFFE000000000FC00#64 == 0#64 && e.getLsbD 52 == large && (!large || frameOf e % 512 == 0)

/-- What a leaf says. -/
def leafAttr (e : BitVec 64) : Attr :=
  { w := e.getLsbD 1, x := e.getLsbD 2, kv := e.getLsbD 9, vers := e.getLsbD 8, prot := e.getLsbD 7,
    home := e.extractLsb' 3 2, aff := e.extractLsb' 5 2 }

/-- Walk the three levels for a local address (R192): the physical address and the leaf, or nothing (cause 0x08). -/
def State.walk (s : State) (root : Nat) (va : DWord) : Option (Nat × BitVec 64) :=
  let a := va.toNat
  let e2 := s.tableWord (root + a / 2 ^ 38 % 2 ^ 18 * 8)
  if !pointerOk e2 then none
  else
    let e1 := s.tableWord (frameOf e2 * 65536 + a / 2 ^ 25 % 2 ^ 13 * 8)
    if e1.getLsbD 52 then
      if leafOk true e1 then some (frameOf e1 * 65536 + a % 2 ^ 25, e1) else none
    else if !pointerOk e1 then none
    else
      let e0 := s.tableWord (frameOf e1 * 65536 + a / 2 ^ 16 % 2 ^ 9 * 8)
      if leafOk false e0 then some (frameOf e0 * 65536 + a % 2 ^ 16, e0) else none

/-- The partition of a context. -/
def State.part? (s : State) (id : Nat) : Option Partition := s.pkg.parts.find? (·.id == id)

/-- Frames of the device's 1 TiB of HBM (R4). -/
def hbmFrames : Nat := 2 ^ 24

/-- A frame lies in a partition's HBM ranges and in the HBM there is (R4, R194, R386; log 136: what a frame that a range names
beyond the HBM does). -/
def State.frameIn (s : State) (part frame : Nat) : Bool :=
  frame < hbmFrames &&
    match s.part? part with
    | some p => p.hbm.any fun r => r.1 ≤ frame && frame < r.1 + r.2
    | none => false

/-- The home-table entry that serves an address of a context: the lowest-numbered valid one (R199). -/
def State.homeFor (s : State) (ctx a : Nat) : Option (Nat × HomeEntry) :=
  ((List.range s.homeTab.length).zip s.homeTab).find? fun (_, h) =>
    h.valid && h.ctx == ctx && h.base ≤ a && a < h.base + h.pages * 65536

/-- The tile-store allocation that a version observes at an address (R269, R270). -/
def State.allocFor (s : State) (c : Context) (ver a : Nat) : Option Alloc :=
  s.allocs.find? fun x => x.ctx == c.id && (c.chain ver).contains x.ver && x.handle ≤ a && a < x.handle + x.units * 65536

/-- The home slice of a line (R360). -/
def State.slice (s : State) (ctx : Nat) (va : DWord) : Nat :=
  let l := va.toNat / 1024 % 2 ^ 46
  let h := (l % 65536) ^^^ (l / 65536 % 65536) ^^^ (l / 2 ^ 32 % 2 ^ 14) ^^^ (ctx % 4096)
  ((List.range 96).filter fun i => s.pkg.live.getLsbD i).getD (h % s.pkg.nlive.toNat) 0

/-- How a peer can be reached (R376). -/
inductive Route where
  | direct
  | relay (via : Nat)
  | waits
  | unreachable
  deriving DecidableEq, Repr

/-- Whether a peer can be sent to now. -/
def Route.open_ : Route → Bool
  | .direct | .relay _ => true
  | _ => false

/-- A port is trained to a peer. -/
def State.portTo (s : State) (peer : Nat) : Bool :=
  s.pkg.portstat.toList.any fun p => p.getLsbD 31 && (p.extractLsb' 16 4).toNat == peer

/-- A port is trained to a peer and no reconfiguration changes it (R378). -/
def State.steadyTo (s : State) (peer : Nat) : Bool :=
  ((List.range 16).zip s.pkg.portstat.toList).any fun p =>
    p.2.getLsbD 31 && (p.2.extractLsb' 16 4).toNat == peer &&
      (match s.fab.reconfig with | some r => !(r.ports.any fun x => x.1 == p.1) | none => true)

/-- The route to a peer: direct, through the lowest-numbered neighbour announced on a trained port, waiting while a
reconfiguration is in progress and no other port reaches it, or none (R376, R378). Whether a neighbour's own ports reach the peer
is not visible to the device, so a free value says it (log 10). -/
def State.route (s : State) (peer : Nat) : Route :=
  if s.steadyTo peer then .direct
  else if s.portTo peer then .waits
  else
    match (List.range 16).find? fun c => s.steadyTo c && Config.freeBit (s.tick * 16 + c) with
    | some c => .relay c
    | none => if s.fab.reconfig.isSome then .waits else .unreachable

/-- The neighbour to which a packet for a peer leaves (R376). -/
def State.hop (s : State) (peer : Nat) : Nat := match s.route peer with | .relay via => via | _ => peer

/-- The route header of a packet of this device to a peer on a virtual channel, with the next injection number; it waits for a
crossbar (R373, R374). -/
def State.inject (s : State) (dst vc mask : Nat) : Packet × State :=
  let h : Packet := { dst := dst, src := s.pkg.fabno.toNat, vc := vc, age := 0, mask := mask, inj := s.fab.injected }
  (h, { s with fab := { s.fab with injected := s.fab.injected + 1, queue := s.fab.queue ++ [h] } })

/-- Send a packet to a peer on a virtual channel (R373, R376). -/
def State.sendOut (s : State) (peer vc : Nat) (o : Packet → Nat → Out) : State :=
  let (h, s) := s.inject peer vc 0
  { s with outbox := s.outbox ++ [o h (s.hop peer)] }

/-- The mask of a multicast to peers (R377). -/
def peerMask (ps : List Nat) : Nat := (ps.map fun p => 2 ^ (p % 16)).sum

/-- Send a notice to peers on VC2: one multicast packet to those of them whose branch has a free output now, which is a free choice,
and a unicast copy to each of the others (R377). -/
def State.sendNotice (s : State) (squash : Bool) (n : Notice) (ps : List Nat) : State :=
  let many := if 2 ≤ ps.length then ps.filter fun p => Config.freeBit (s.tick * 65536 + 256 * s.fab.injected.toNat + p) else []
  let s : State := if many.isEmpty then s
    else
      let (h, s) := s.inject s.pkg.fabno.toNat 2 (peerMask many)
      { s with outbox := s.outbox ++ [.notice h squash n] }
  (ps.filter fun p => !many.contains p).foldl (fun s p =>
    let (h, s) := s.inject p 2 0
    { s with outbox := s.outbox ++ [.notice h squash n] }) s

/-- What an address resolves to: a place with its attributes, or a cause; `wait` says that the access waits for a fabric
route. -/
inductive Resolved where
  | ok (l : Loc) (a : Attr)
  | fault (cause : Nat)
  | wait
  deriving DecidableEq, Repr

/-- The checks of R194 on an address's attributes, in order. -/
def Attr.check (a : Attr) (acc : Access) (ver : Nat) : Option Nat :=
  if acc.isWrite && (!a.w || (acc == .write && a.kv) || (ver != 0 && !a.vers)) then some 0x09
  else if acc == .fetch && !a.x then some 0x0A
  else none

/-- The attributes of the team region (R189): readable and writable in every version, never executable. -/
def Attr.team : Attr := { w := true, x := false, kv := false, vers := false, prot := false, home := 0, aff := 0 }

/-- The physical address that backs a place: HBM itself, and the frame of a pinned range. -/
def State.physOf (s : State) : Loc → Option Nat
  | .hbm a => some a
  | .pin e o => (s.homeTab[e]?).map fun h => h.frame * 65536 + o
  | _ => none

/-- Where the newest version 0 bytes of a physical address rest: in a pinned range's tile-store copy, or in HBM (R195, R385). -/
def State.physLoc (s : State) (pa : Nat) : Loc :=
  match ((List.range s.homeTab.length).zip s.homeTab).find? fun (_, h) =>
      h.valid && h.home == 3 && !h.lost && h.frame ≤ pa / 65536 && pa / 65536 < h.frame + h.pages with
  | some (i, h) => .pin i (pa - h.frame * 65536)
  | none => .hbm pa

/-- A line's translation as an access of it meets it: what an on-chip copy holds that is still there (a HOME 10 line is never
evicted), else the walk of the tables (R192, R195, R196). -/
def State.translate (s : State) (c : Context) (va : DWord) : Option (Nat × Attr) :=
  let walked := (s.walk c.root va).map fun x => (x.1, leafAttr x.2)
  match s.copies.find? fun x => x.ctx == c.id && x.line == va.toNat / 1024 with
  | some x =>
    let held := some (x.pa + va.toNat % 1024, x.attr)
    if held != walked && (x.attr.home == 2 || Config.hits s.tick x.line) then held else walked
  | none => walked

/-- A pinned hub line whose home slice is fenced (R363). -/
def State.slicePinLost (s : State) (c : Context) (va : DWord) (a : Attr) : Bool :=
  a.home == 2 && s.pkg.fenced.contains (s.slice c.id va)

/-- Resolve a local virtual address of a context (R192 to R199, R269, R363, R367): the checks of R194 come before the cause of a
place that is lost. -/
def State.resolveLocal (s : State) (c : Context) (ver : Nat) (acc : Access) (va : DWord) : Resolved :=
  let a := va.toNat
  let at_ (lost : Bool) (l : Loc) (x : Attr) : Resolved :=
    match x.check acc ver with
    | some e => .fault e
    | none => if lost || s.slicePinLost c va x then .fault 0x14 else .ok l x
  let byLeaf : Resolved :=
    match s.translate c va with
    | none => .fault 0x08
    | some (pa, x) => if !s.frameIn c.part (pa / 65536) then .fault 0x08 else at_ false (s.physLoc pa) x
  match s.homeFor c.id a with
  | some (i, h) =>
    let off := a - h.base
    let x : Attr := { w := h.w, x := false, kv := false, vers := h.vers, prot := h.prot, home := h.home, aff := h.aff }
    -- an entry that differs from its leaves is served with either (R199): a free choice
    let differs := match s.walk c.root va with
      | some (pa, e) => pa / 65536 != h.frame + off / 65536 || { leafAttr e with x := false } != x
      | none => false
    if acc == .fetch || (differs && Config.freeBit s.tick) then byLeaf
    else at_ h.lost (if h.home == 3 then .pin i off else s.physLoc (h.frame * 65536 + off)) x
  | none =>
    match s.allocFor c ver a with
    | some x =>
      at_ x.lost (.tile x.id (a - x.handle))
        { w := true, x := false, kv := false, vers := true, prot := false, home := 3, aff := BitVec.ofNat 2 x.die }
    | none => byLeaf

/-- Resolve an address for an agent of a team (R188 to R190): `tray` names the tray that issued, none for a front strand. -/
def State.resolve (s : State) (c : Context) (ver : Nat) (team : Nat) (tray : Option Nat) (acc : Access) (va : DWord) :
    Resolved :=
  let a := va.toNat
  if a / 2 ^ 57 != 0 then .fault 0x08
  else if a / 2 ^ 56 == 1 then
    let peer := a / 2 ^ 52 % 16
    if acc == .fetch then .fault 0x0A
    else if !s.cap 0 then .fault 0x02
    else if peer == s.pkg.fabno.toNat then s.resolveLocal c ver acc (BitVec.ofNat 64 (a % 2 ^ 52))
    else match s.route peer with
      | .unreachable => .fault 0x10
      | .waits => .wait
      | _ => .ok (.peer peer (a % 2 ^ 52)) { Attr.team with vers := true }
  else if a / 2 ^ 48 == 0xF0 then
    if acc == .fetch then .fault 0x0A
    else
      let off := a % 2 ^ 48
      let landed := match tray with
        | some t => (match s.tray? t with | some tr => tr.landed.isSome | none => false)
        | none => false
      let shmem := match s.team? team with
        | some tm => (match s.launch? tm.launch with | some l => l.shmem | none => 0)
        | none => (match s.remnants.find? (·.team == team) with | some x => x.shmem | none => 0)
      if off < shmem && !landed then .ok (.shared team off) Attr.team
      else match tray with
        | some t => if landed && 0x80000 ≤ off && off < 0x84000 then .ok (.scratch t (off - 0x80000)) Attr.team else .fault 0x08
        | none => .fault 0x08
  else s.resolveLocal c ver acc va

/-- Entries of a memory die's remap filter (R198). -/
def remapRoom : Nat := 65536

/-- The memory die of a frame: E0 has the lower half of HBM, E1 the upper one (log 137). -/
def frameDie (frame : Nat) : Nat := if frame < hbmFrames / 2 then 0 else 1

/-- An on-chip copy of a line is filled with its translation, but for a page with HOME 01 (R195, R196). -/
def State.fillLine (s : State) (ctx : Nat) (va : DWord) (pa : Nat) (a : Attr) : State :=
  if a.home == 1 || s.copies.any (fun x => x.ctx == ctx && x.line == va.toNat / 1024) then s
  else { s with copies := s.copies ++ [{ ctx := ctx, line := va.toNat / 1024, pa := pa / 1024 * 1024, attr := a }] }

/-- A page of HBM is reached under a name: the first pair that translates to it becomes its canonical one, and only under that one
is a line of it copied. With the die's filter full, a page without an entry that is reached under a second name is served as HOME
01 under every name (R198). Accesses through any name are accesses to one location. -/
def State.named (s : State) (ctx : Nat) (va : DWord) (l : Loc) (a : Attr) : State :=
  match l with
  | .hbm pa =>
    let frame := pa / 65536
    let page := va.toNat / 65536
    if (s.homeFor ctx va.toNat).isSome then s
    else match s.remapFilt.find? (·.frame == frame) with
      | some r => if r.ctx == ctx && r.page == page then s.fillLine ctx va pa a else s
      | none =>
        if (s.remapFilt.filter fun r => frameDie r.frame == frameDie frame).length < remapRoom then
          let s : State := { s with remapFilt := s.remapFilt ++ [{ frame := frame, ctx := ctx, page := page }] }
          s.fillLine ctx va pa a
        else if s.uncached.contains frame then s
        else if s.copies.any fun x => x.pa / 65536 == frame && !(x.ctx == ctx && x.line / 64 == page) then
          { s with uncached := s.uncached ++ [frame], copies := s.copies.filter fun x => x.pa / 65536 != frame }
        else s.fillLine ctx va pa a
  | _ => s

/-- A protected sector of version 0 is written: its bytes before, as the parity holder knows them, and its writer are
recorded until a write-back (R243, R381). -/
def State.markDirty (s : State) (sec : Nat) (o : Option Party) : State :=
  let add (os : List Party) : List Party := match o with | some x => if os.contains x then os else os ++ [x] | none => os
  if s.fab.dirty.any (·.1 == sec) then
    { s with fab := { s.fab with dirty := s.fab.dirty.map fun (k, b, os) => if k == sec then (k, b, add os) else (k, b, os) } }
  else
    { s with fab := { s.fab with dirty := s.fab.dirty ++ [(sec, s.mem.readN (sec * 128) 128, add [])] } }

/-- Record the dirty protected sectors of a write in version 0 to a page that a frame backs. -/
def State.markProt (s : State) (a : Attr) (keys : List VKey) (l : Loc) (n : Nat) (o : Option Party) : State :=
  if a.prot && s.cap 1 && keys.isEmpty then
    (l.sectors n).foldl (fun s g => match s.physOf g with | some pa => s.markDirty (pa / 128) o | none => s) s
  else s

/-- The version lines of a write to a protected page remember it: their commit into version 0 is a protected store. -/
def State.markLines (s : State) (a : Attr) (keys : List VKey) (l : Loc) (n : Nat) : State :=
  match keys with
  | k :: _ =>
    if a.prot && a.vers then
      { s with vlines := s.vlines.map fun (x : VLine) => if x.key == k && (l.sectors n).contains x.loc then { x with prot := true } else x }
    else s
  | [] => s

/-- A page that rests in a hub slice: its home-table entry or a resident line says HOME 10 (R195, R199). -/
def State.hubHome (s : State) (pa : Nat) : Bool :=
  (s.copies.any fun x => x.attr.home == 2 && x.pa == pa / 1024 * 1024) ||
    s.homeTab.any fun h => h.valid && h.home == 2 && h.frame ≤ pa / 65536 && pa / 65536 < h.frame + h.pages

/-- The lines of HOME 10 pages that a write in place makes dirty in their slices (R195). -/
def State.markHub (s : State) (hub : Bool) (l : Loc) (n : Nat) : State :=
  match hub, l with
  | true, .hbm _ =>
    (l.lines n).foldl (fun s x =>
      if s.hubDirty.contains (x.off / 1024) then s else { s with hubDirty := s.hubDirty ++ [x.off / 1024] }) s
  | _, _ => s

/-- A version of a context observes what is written in a copy (R238). -/
def State.verSees (s : State) (ctx ver : Nat) (k : Option VKey) : Bool :=
  match k with
  | none => true
  | some (.here i v) => i == ctx && (match s.ctx? i with | some c => (c.chain ver).contains v | none => false)
  | some (.remote ..) => false

/-- A command for a shadow (R271). -/
def CmdOp.shadowed : CmdOp → Bool
  | .cpy _ _ _ _ _ _ _ shd => shd
  | .gath _ _ _ _ _ _ shd => shd
  | _ => false

/-- The offsets of a sector that a store of n bytes writes. -/
def hitOffsets (sec l : Loc) (n : Nat) : List Nat :=
  if l.at 0 == sec.at 0 then (List.range 128).filter fun i => l.off ≤ sec.off + i && sec.off + i < l.off + n else []

/-- A store in a copy is noted in the shadows' sectors that it changes (R240). -/
def State.touchShadows (s : State) (k : Option VKey) (l : Loc) (n : Nat) : State :=
  if s.shadows.isEmpty then s
  else { s with shadows := s.shadows.map fun x =>
    if s.verSees x.ctx x.ver k then { x with written := (x.written ++ hitOffsets x.loc l n).eraseDups } else x }

/-- A store in a copy is noted for the commands that are to write a shadow of its place (R240). -/
def State.touchCmds (s : State) (k : Option VKey) (l : Loc) (n : Nat) : State :=
  let cs := s.cmds.filter fun x => x.op.shadowed && s.verSees x.ctx x.ver k
  if cs.isEmpty then s else { s with strays := s.strays ++ cs.map fun x => { cmd := x.id, loc := l, n := n } }

/-- A store is noted for the shadows of its range (R240). -/
def State.touch (s : State) (keys : List VKey) (versioned : Bool) (l : Loc) (n : Nat) : State :=
  let k := if versioned then keys.head? else none
  (s.touchShadows k l n).touchCmds k l n

/-- The one store of bytes: parity bookkeeping, dirty hub lines, what shadows remember, the bytes in the writer's version, the lines'
tag 3 unless a tag is kept back (R262), and the other threads' reservations. -/
def State.store (s : State) (keys : List VKey) (a : Attr) (l : Loc) (bytes : List Byte) (w : Writer) (o : Option Party)
    (tag : Bool) : State :=
  let s := s.markProt a keys l bytes.length o
  let s := s.markHub (a.home == 2 && (keys.isEmpty || !a.vers)) l bytes.length
  let s := s.touch keys a.vers l bytes.length
  let s := s.putBytes keys a.vers l bytes
  let s := s.markLines a keys l bytes.length
  let s := if tag then (l.lines bytes.length).foldl (fun s ln => s.putTag keys a.vers ln 3) s else s
  (l.sectors bytes.length).foldl (fun s g => s.loseResv g w) s

/-- Write the sectors and tags of a version's lines into another version, or in place (R320): each replaces the other copy
whole. `o` names whose protected stores they count as (R239). The commit writes the granules as another agent would, so that every
thread's reservation on them is lost (log 138). -/
def State.merge (s : State) (k : VKey) (into : Option VKey) (o : Option Party) : State :=
  let mine := s.vlines.filter (·.key == k)
  let tags := s.vtags.filter (·.key == k)
  let s := { s with vlines := s.vlines.filter (·.key != k), vtags := s.vtags.filter (·.key != k) }
  let s := match into with
    | some j =>
      { s with
        vlines := (s.vlines.filter fun (x : VLine) => !(x.key == j && mine.any fun y => y.loc == x.loc)) ++
          mine.map fun (y : VLine) => { y with key := j }
        vtags := (s.vtags.filter fun (x : VTag) => !(x.key == j && tags.any fun y => y.loc == x.loc)) ++
          tags.map fun (y : VTag) => { y with key := j } }
    | none =>
      let s := mine.foldl (fun s y =>
        (((s.markProt { Attr.team with prot := y.prot } [] y.loc 128 o).markHub (s.hubHome y.loc.off) y.loc 128).touch [] false
          y.loc 128).putBytes [] false y.loc y.bytes) s
      tags.foldl (fun s y => s.putTag [] false y.loc y.tag) s
  mine.foldl (fun s y => s.loseResv y.loc .agent) s

/-- Read bytes of a context's memory in a version at a virtual address for the device's own use; nothing if an address does not
resolve in this device. -/
def State.ctxRead (s : State) (c : Context) (ver : Nat) (va n : Nat) : Option (List Byte) :=
  (List.range n).mapM fun i =>
    match s.resolve c ver 0 none .read (BitVec.ofNat 64 (va + i)) with
    | .ok (.peer ..) _ => none
    | .ok l _ => some (s.byteSeen (c.keys ver) l)
    | _ => none

/-- Write bytes of a context's memory in a version at a virtual address for the device's own use; a byte whose address does
not resolve for a read, or resolves at a peer, is dropped, and the page's W and VERS bits are not asked (log 139). -/
def State.ctxWrite (s : State) (c : Context) (ver : Nat) (va : Nat) : List Byte → State
  | [] => s
  | b :: bs =>
    let s' := match s.resolve c ver 0 none .read (BitVec.ofNat 64 va) with
      | .ok (.peer ..) _ => s
      | .ok l a => s.store (c.keys ver) a l [b] .agent none true
      | _ => s
    s'.ctxWrite c ver (va + 1) bs

/-- A little-endian number of a context's memory in version 0, 0 where it cannot be read. -/
def State.ctxNat (s : State) (c : Context) (va n : Nat) : Nat := leNat ((s.ctxRead c 0 va n).getD [])

end Sys2Proof.Machine
end

