-- ==== Sys2Proof/Machine/Order.lean ====
section
/-!
DEFINITION. Machine/Order.lean: the order of memory (R224 to R242, R254, R255, R259, R288, R392). The bytes of a place are the
newest write of its coherence order; `State.past` holds, in that order, the writes that some observer may still miss. An ordinary
load and an engine read may return what stood before such a write; a release says at which scope a write is made visible, and an
acquire takes the acquirer out of those that may miss it.
-/

namespace Sys2Proof.Machine

/-- The threads of a mask that a party and a set of slots share. -/
def Party.meets (p : Party) (o : Owner) (m : BitVec 32) : Bool :=
  match p with
  | .threads o' m' => o' == o && m' &&& m != 0
  | _ => false

/-- A party without some threads of an owner; nothing when none is left. -/
def Party.minus (o : Owner) (m : BitVec 32) (p : Party) : Option Party :=
  match p with
  | .threads o' m' => if o' == o then (if m' &&& ~~~m == 0 then none else some (.threads o' (m' &&& ~~~m))) else some p
  | _ => some p

/-- An engine's party, or another that covers one thread, is a party of the list. -/
def missedBy (ps : List Party) (who : Party) : Bool :=
  match who with
  | .threads o m => ps.any fun p => p.meets o m
  | q => ps.contains q

/-- Threads of an owner are in a list of threads. -/
def holds (xs : List (Owner × BitVec 32)) (o : Owner) (m : BitVec 32) : Bool := xs.any fun x => x.1 == o && x.2 &&& m != 0

/-- Add threads to a list of threads. -/
def addThreads (xs : List (Owner × BitVec 32)) (o : Owner) (m : BitVec 32) : List (Owner × BitVec 32) :=
  if xs.any (·.1 == o) then xs.map fun x => if x.1 == o then (o, x.2 ||| m) else x else xs ++ [(o, m)]

/-- The scope instances of an owner (R224): a landed tray is on its landing die, and its team instance is the package's. -/
def State.seat (s : State) (o : Owner) : Seat :=
  match o with
  | .tray id =>
    (match s.tray? id with
     | some tr => { owner := o, team := if tr.landed.isSome then 0 else tr.team, die := dieOf tr.bench }
     | none => { owner := o, team := 0, die := 4 })
  | .front t =>
    (match s.team? t with
     | some tm => { owner := o, team := t, die := dieOf tm.bench }
     | none => { owner := o, team := t, die := 4 })

/-- Two threads share an instance of a scope (R224). -/
def shares (scope : Nat) (a b : Seat) : Bool :=
  match scope with
  | 0 => a.owner == b.owner
  | 1 => a.team == b.team
  | 2 => a.die == b.die
  | _ => true

/-- The threads of a context: of its resident trays and front strands, of its saved teams, and those that wait in a spawn former,
which go by the slot they left. -/
def State.threadsOf (s : State) (ctx : Nat) : List Party :=
  let mine (launch : Nat) : Bool := match s.launch? launch with | some l => l.ctx == ctx | none => false
  let left (tm : Team) : List Party :=
    (tm.spawns ++ tm.formed.flatMap (·.spawns)).map fun sp => .threads (.tray sp.tray) (1#32 <<< sp.slot.val)
  let all : BitVec 32 := BitVec.allOnes 32
  let here := s.teams.filter fun tm => mine tm.launch
  let kept := s.sched.saved.filter (·.ctx == ctx)
  here.flatMap (fun tm =>
      .threads (.front tm.id) 1 :: ((s.trays.filter (·.team == tm.id)).map fun tr => .threads (.tray tr.id) all) ++ left tm) ++
    kept.flatMap fun x =>
      .threads (.front x.team.id) 1 :: (x.trays.map fun tr => .threads (.tray tr.id) all) ++ left x.team

/-- An owner can reach a place: shared memory is its team's, a landing scratch its tray's (R189). -/
def State.canReach (s : State) (l : Loc) (o : Owner) : Bool :=
  match l, o with
  | .shared t _, .front u => t == u
  | .shared t _, .tray id => (match s.tray? id with | some tr => tr.team == t | none => true)
  | .scratch t _, o => o == .tray t
  | _, _ => true

/-- Who may miss a write that `own`'s slots, or command `k`, make at a place in a context: its other threads, its engine commands in
progress, and the engines of the dies. -/
def State.mayMiss (s : State) (ctx : Nat) (l : Loc) (own : Option (Owner × BitVec 32)) (k : Option Nat) : List Party :=
  let ps := (s.threadsOf ctx).filter fun p => match p with | .threads o _ => s.canReach l o | _ => true
  (match own with | some (o, m) => ps.filterMap (Party.minus o m) | none => ps) ++
    ((s.cmds.filter fun x => x.ctx == ctx && k != some x.id).map fun x => .cmd x.id) ++ (List.range 4).map .die

/-- The copy in which an observer of the keys finds a place (R238). -/
def State.copyKey (s : State) (keys : List VKey) (l : Loc) : Option VKey := keys.find? fun k => (s.vline? k l.sector).isSome

/-- A write touches a range. -/
def Past.touches (e : Past) (l : Loc) (n : Nat) : Bool :=
  e.loc.at 0 == l.at 0 && e.loc.off < l.off + n && l.off < e.loc.off + e.old.length

/-- What stood at a place before a write. -/
def Past.at? (e : Past) (l : Loc) : Option Byte :=
  if e.loc.at 0 == l.at 0 && e.loc.off ≤ l.off then e.old[l.off - e.loc.off]? else none

/-- The byte that an observer returns: the newest, or what stood before the writes, newest first, that it does not see. -/
def olderByte (sees : Past → Bool) (l : Loc) : List Past → Byte → Byte
  | [], x => x
  | e :: es, x =>
    match e.at? l with
    | none => olderByte sees l es x
    | some y => if sees e then x else olderByte sees l es y

/-- The writes of a range, newest first, in the copy in which an observer finds it. -/
def State.pastOf (s : State) (keys : List VKey) (l : Loc) (n : Nat) : List Past :=
  if s.past.isEmpty then []
  else
    let k := s.copyKey keys l
    (s.past.filter fun e => e.key == k && e.touches l n).reverse

/-- n bytes as an ordinary load or an engine reads them: of the writes that it need not see yet it misses whichever ones the
machine chooses (R225, R229, R259). `nth` tells the step's readers apart. -/
def State.viewed (s : State) (keys : List VKey) (who : Party) (nth : Nat) (l : Loc) (n : Nat) : List Byte :=
  let es := s.pastOf keys l n
  let sees (e : Past) : Bool := !(missedBy e.unseen who && Config.misses s.tick nth e.id)
  (List.range n).map fun i => olderByte sees (l.add i) es (s.byteSeen keys (l.add i))

/-- A write about to be made is remembered, when somebody may miss it. -/
def State.remember (s : State) (e : Past) : State :=
  if e.unseen.isEmpty && e.tag == 0 then s
  else { s with past := s.past ++ [{ e with id := s.nextId }], nextId := s.nextId + 1 }

/-- A write of n bytes by threads is about to be made in place or in their version's copy. -/
def State.willWrite (s : State) (ctx launch : Nat) (keys : List VKey) (a : Attr) (o : Owner) (m : BitVec 32) (va : DWord) (l : Loc)
    (n : Nat) : State :=
  s.remember
    { id := 0, ctx := ctx, launch := launch, key := if a.vers then keys.head? else none, loc := l, va := some va, old := s.seen keys l n,
      own := [(o, m)], carried := [], cmd := none, unseen := s.mayMiss ctx l (some (o, m)) none, rels := [], tag := 0 }

/-- A write at a peer under way: it stands in the list until it is acknowledged (R241). -/
def State.willSend (s : State) (ctx launch : Nat) (own : Option (Owner × BitVec 32)) (cmd : Option Nat) (va : DWord) (l : Loc)
    (tag : Nat) : State :=
  s.remember
    { id := 0, ctx := ctx, launch := launch, key := none, loc := l, va := some va, old := [], own := own.toList, carried := [], cmd := cmd,
      unseen := s.mayMiss ctx l own cmd, rels := [], tag := tag }

/-- A write at a peer is acknowledged. -/
def State.pastLanded (s : State) (tag : Nat) : State :=
  if s.past.any (·.tag == tag) then { s with past := s.past.filter (·.tag != tag) } else s

/-- Change the list and forget the writes that nobody can miss any more. -/
def State.modPast (s : State) (f : Past → Past) : State :=
  if s.past.isEmpty then s
  else { s with past := (s.past.map f).filter fun e => !(e.unseen.isEmpty && e.tag == 0) }

/-- The scope at which a release covers a write, none when it does not (R230, R233, R241): an object covers its regions, each at
most at its binding's scope, and the implicit object covers unbound memory. -/
def Context.relScope (cx : Context) (g : Guard) (scope : Nat) (va : Option DWord) : Option Nat :=
  match g, va with
  | .object o, some a =>
    (cx.bindings.find? fun b => b.obj == o && b.base ≤ a.toNat && a.toNat < b.base + b.len).map fun b =>
      Nat.min scope b.scope.toNat
  | .implicit, some a =>
    if cx.bindings.any fun b => b.base ≤ a.toNat && a.toNat < b.base + b.len then none else some scope
  | _, _ => some scope

/-- A release or acquire that orders bound and unbound memory alike (R235). -/
def Guard.wide : Guard → Bool
  | .all | .launch _ | .phase => true
  | _ => false

/-- An acquire from this meets a release on that: the threads of a launch alone acquire what was released to them (R235). -/
def Guard.meets (acq rel : Guard) : Bool :=
  acq == rel || rel == .all || (acq == .all && (match rel with | .launch _ => false | _ => true))

/-- A write is the threads' own, or they carry it for a release on this (R231). -/
def Past.mine (e : Past) (g : Guard) (o : Owner) (m : BitVec 32) : Bool :=
  holds e.own o m || e.carried.any fun c => (c.1 == g || c.1.wide || g.wide) && c.2.1 == o && c.2.2 &&& m != 0

/-- A write as a release made it visible: engines on the releaser's die see it from DIE scope on, all from PKG scope on (R225,
R230). -/
def Past.released (e : Past) (r : Release) : Past :=
  { e with
    rels := if e.rels.contains r then e.rels else e.rels ++ [r]
    unseen := e.unseen.filter fun p => match p with
      | .die d => !(2 < r.scope || (r.scope == 2 && d == r.seat.die))
      | _ => true }

/-- Threads release on something at a scope (R230, R233, R235). -/
def State.releaseOn (s : State) (cx : Context) (o : Owner) (m : BitVec 32) (g : Guard) (scope : Nat) : State :=
  let seat := s.seat o
  s.modPast fun e =>
    if e.ctx == cx.id && e.mine g o m then
      match cx.relScope g scope e.va with
      | some x => e.released { on := g, scope := x, seat := seat }
      | none => e
    else e

/-- A write as threads that acquired it have it. -/
def Past.acquired (e : Past) (o : Owner) (m : BitVec 32) (g : Guard) : Past :=
  let c := (g, o, m)
  { e with unseen := e.unseen.filterMap (Party.minus o m), carried := if e.carried.contains c then e.carried else e.carried ++ [c] }

/-- Threads acquire from something at a scope every release whose scope instance they share (R230, R232, R234). -/
def State.acquireOn (s : State) (cx : Context) (o : Owner) (m : BitVec 32) (g : Guard) (scope : Nat) : State :=
  let seat := s.seat o
  s.modPast fun e =>
    if e.ctx == cx.id && e.rels.any (fun r => g.meets r.on && shares (Nat.min scope r.scope) r.seat seat)
    then e.acquired o m g
    else e

/-- Members of a barrier synchronize at a scope: each one's earlier writes, and those it carries, reach the others that share its
instance (R155). -/
def State.syncAll (s : State) (ctx : Nat) (scope : Nat) (ms : List (Owner × BitVec 32)) : State :=
  if s.past.isEmpty then s
  else
    let xs := ms.map fun x => (x.1, x.2, s.seat x.1)
    s.modPast fun e =>
      if e.ctx != ctx then e
      else
        let from_ := xs.filter fun x => e.mine .all x.1 x.2.1
        let e := from_.foldl (fun (e : Past) x => { e with unseen := e.unseen.filter fun p => match p with
          | .die d => !(2 < scope || (scope == 2 && d == x.2.2.die))
          | _ => true }) e
        xs.foldl (fun (e : Past) y =>
          if from_.any (fun x => shares scope x.2.2 y.2.2) then e.acquired y.1 y.2.1 .all else e) e

/-- The first read of a filled token or of a result word by threads of an owner. A command's writes outside shadows are acquired for
all of the owner and count as the readers' own (R225, R392); the writes of a launch's threads are acquired at PKG scope (R355). -/
def State.tokenRead (s : State) (o : Owner) (m : BitVec 32) (x : Fruit) : State :=
  let s := { s with tokens := s.tokens.filter fun t => t.fruit != x }
  match x with
  | .cmd cmd =>
    let s := s.modPast fun e =>
      if e.cmd == some cmd then
        { e with own := addThreads e.own o m, unseen := e.unseen.filterMap (Party.minus o (BitVec.allOnes 32)) }
      else e
    let also (p : Party) : List Party := if p == .cmd cmd then [p, .threads o (BitVec.allOnes 32)] else [p]
    { s with fab := { s.fab with
        dirty := s.fab.dirty.map fun (k, b, ps) => (k, b, (ps.flatMap also).eraseDups)
        deltas := s.fab.deltas.flatMap fun (t, p, x, y, z) => (also p).map fun q => (t, q, x, y, z) } }
  | .launch id => s.modPast fun e => if e.launch == id then e.acquired o m .all else e

/-- A launch has ended: the writing of its result word releases its threads' writes at PKG scope (R235, R355), so that every
engine command issued from then on sees them. -/
def State.launchReleased (s : State) (id : Nat) : State :=
  s.modPast fun e =>
    if e.launch == id then
      e.released { on := .phase, scope := 3, seat := { owner := .front 0, team := 0, die := 4 } }
    else e

/-- Threads of a launch start: they have acquired what its submission released, and what launches that had ended released; any other
write that is listed they may miss (R229, R235). -/
def State.joins (s : State) (ctx launch : Nat) (o : Owner) (m : BitVec 32) : State :=
  s.modPast fun e =>
    if e.ctx != ctx || !s.canReach e.loc o then e
    else if e.rels.any fun r => r.on == .launch launch || r.on == .phase then e.acquired o m .all
    else { e with unseen := e.unseen ++ [.threads o m] }

/-- A thread goes on in another tray: what it may miss, what is its own and what it carries goes with it (R235), and so does what
its releases wait for (R241, R243). -/
def State.threadMoves (s : State) (old : Nat) (t : Fin 32) (new : Nat) (u : Fin 32) : State :=
  let o := Owner.tray old
  let m := 1#32 <<< t.val
  let o' := Owner.tray new
  let m' := 1#32 <<< u.val
  let s := s.modPast fun e =>
    { e with
      own := if holds e.own o m then addThreads e.own o' m' else e.own
      carried := e.carried ++ ((e.carried.filter fun c => c.2.1 == o && c.2.2 &&& m != 0).map fun c => (c.1, o', m'))
      unseen :=
        let rest := e.unseen.filterMap (Party.minus o m)
        if missedBy e.unseen (.threads o m) then rest ++ [.threads o' m'] else rest.filterMap (Party.minus o' m') }
  let also (p : Party) : List Party := if p.meets o (BitVec.allOnes 32) then [p, .threads o' (BitVec.allOnes 32)] else [p]
  { s with fab := { s.fab with
      dirty := s.fab.dirty.map fun (k, b, ps) => (k, b, (ps.flatMap also).eraseDups)
      deltas := (s.fab.deltas.flatMap fun (x, p, y, z, w) => (also p).map fun q => (x, q, y, z, w)).eraseDups } }

/-- A carousel command is served in the present dwell: whoever reads its token, or acquires from one who did, comes after it
(R256). -/
def State.servedNow (s : State) (ctx launch cmd : Nat) : State :=
  s.remember
    { id := 0, ctx := ctx, launch := launch, key := none, loc := .hbm 0, va := none, old := [], own := [], carried := [], cmd := some cmd,
      unseen := s.mayMiss ctx (.hbm 0) none (some cmd), rels := [], tag := s.nextId, dwell := true }

/-- Some thread of a mask comes after a service in the present dwell (R256). -/
def State.afterService (s : State) (ctx : Nat) (o : Owner) (m : BitVec 32) : Bool :=
  s.past.any fun e =>
    e.dwell && e.ctx == ctx &&
      slotList.any fun t => m.getLsbD t.val && !missedBy e.unseen (.threads o (1#32 <<< t.val))

/-- An engine command issues: it need not see what the engines of its die have not been shown (R225, R259). -/
def State.cmdIssued (s : State) (ctx die id : Nat) : State :=
  s.modPast fun e => if e.ctx == ctx && e.unseen.contains (.die die) then { e with unseen := e.unseen ++ [.cmd id] } else e

/-- A command has ended: it reads nothing any more, and a team that has ended keeps its shared memory for its last copy only
(R259). -/
def State.cmdOver (s : State) (id : Nat) : State :=
  let s := s.modPast fun e => { e with unseen := e.unseen.filter (· != .cmd id) }
  { s with
    strays := s.strays.filter (·.cmd != id)
    remnants := s.remnants.filter fun x => s.cmds.any fun k => k.team == x.team }

/-- Commands are cancelled or dropped: nothing stays of them (R183, R259, R328). -/
def State.dropCmds (s : State) (gone : Cmd → Bool) : State :=
  let ids := (s.cmds.filter gone).map (·.id)
  ids.foldl State.cmdOver { s with cmds := s.cmds.filter fun k => !gone k }

/-- The writes of copies count as those of the command whose token stands for them (R268, R392). -/
def State.cmdFor (s : State) (ids : List Nat) (id : Nat) : State :=
  let one (p : Party) : Party := match p with | .cmd i => if ids.contains i then .cmd id else p | _ => p
  let s := s.modPast fun e =>
    { e with cmd := match e.cmd with | some i => some (if ids.contains i then id else i) | none => none }
  { s with fab := { s.fab with
      dirty := s.fab.dirty.map fun (k, b, ps) => (k, b, (ps.map one).eraseDups)
      deltas := s.fab.deltas.map fun (x, p, y, z, w) => (x, one p, y, z, w) } }

/-- The threads of an owner have ended: nobody waits for what they would see. -/
def State.forgetOwner (s : State) (o : Owner) : State :=
  s.modPast fun e => { e with unseen := e.unseen.filterMap (Party.minus o (BitVec.allOnes 32)) }

/-- Every observer sees what is written to a range from now on and nothing older (R240). -/
def State.settleRange (s : State) (k : Option VKey) (l : Loc) (n : Nat) : State :=
  if s.past.isEmpty then s else { s with past := s.past.filter fun e => !(e.key == k && e.touches l n && e.tag == 0) }

/-- The writes of squashed versions are never observed (R239). -/
def State.dropPast (s : State) (dead : VKey → Bool) : State :=
  if s.past.isEmpty then s
  else { s with past := s.past.filter fun e => match e.key with | some k => !dead k | none => true }

/-- A version is about to be merged into another: its own writes' history goes, and its sectors become writes of the parent's that
the resolver released at PKG scope on every object (R239). -/
def State.willMerge (s : State) (cx : Context) (k : VKey) (into : Option VKey) (keys : List VKey) (o : Owner) (m : BitVec 32) :
    State :=
  let mine := s.vlines.filter (·.key == k)
  let s := s.dropPast (· == k)
  let seat := s.seat o
  mine.foldl (fun s y =>
    s.remember
      { id := 0, ctx := cx.id, launch := 0, key := into, loc := y.loc, va := none, old := s.seen keys y.loc 128, own := [(o, m)],
        carried := [], cmd := none,
        unseen := ((s.threadsOf cx.id).filterMap (Party.minus o m)) ++ ((s.cmds.filter fun x => x.ctx == cx.id).map fun x => .cmd x.id),
        rels := [{ on := .all, scope := 3, seat := seat }], tag := 0 }) s

/-- The writes of a byte that stand, by the machine's choice, after an engine's write that it makes now in a copy: the newest ones there
that the engine need not see (R288). -/
def State.later (s : State) (keys : List VKey) (copy : Option VKey) (cmd : Nat) (l : Loc) : List Past :=
  if s.copyKey keys l == copy then
    (s.pastOf keys l 1).takeWhile fun e => missedBy e.unseen (.cmd cmd) && Config.standsAfter s.tick e.id
  else []

/-- An engine command's write of one byte under a later one: it becomes what stood before the oldest of the later writes. -/
def State.writeUnder (s : State) (id : Nat) (l : Loc) (x : Byte) : State :=
  { s with past := s.past.map fun e => if e.id == id then { e with old := e.old.set (l.off - e.loc.off) x } else e }

/-- An engine command's write in place or in its version's copy, after every other write of its location: another engine or thread
may miss it (R225, R229). -/
def State.engineUpdate (s : State) (k : Cmd) (keys : List VKey) (a : Attr) (va : DWord) (l : Loc) (bytes : List Byte) (tag : Bool) :
    State :=
  (s.remember
    { id := 0, ctx := k.ctx, launch := k.launch, key := if a.vers then keys.head? else none, loc := l, va := some va,
      old := s.seen keys l bytes.length, own := [], carried := [], cmd := some k.id,
      unseen := s.mayMiss k.ctx l none (some k.id), rels := [], tag := 0 }).store keys a l bytes .agent (some (Party.cmd k.id)) tag

/-- An engine command's write (R288): each byte stands after what the engine would see; those that a thread's write may come after
are put under it. In a KV page, which only engines write, it stands last (R295). -/
def State.engineStore (s : State) (k : Cmd) (keys : List VKey) (a : Attr) (va : DWord) (l : Loc) (bytes : List Byte)
    (tag : Bool) : State :=
  let copy := if a.vers then keys.head? else none
  if a.kv || (List.range bytes.length).all fun i => (s.later keys copy k.id (l.add i)).isEmpty then
    s.engineUpdate k keys a va l bytes tag
  else
    ((List.range bytes.length).zip bytes).foldl (fun s (i, b) =>
      match (s.later keys copy k.id (l.add i)).getLast? with
      | some y => s.writeUnder y.id (l.add i) b
      | none => s.engineUpdate k keys a (va + BitVec.ofNat 64 i) (l.add i) [b] tag) s

end Sys2Proof.Machine
end

