-- ==== Sys2Proof/Machine/Ends.lean ====
section
/-!
DEFINITION. Machine/Ends.lean: fault records and the sticky word (R171 to R174), result words (R321), and how trays, teams,
launches, versions and contexts end (R168, R183, R328).
-/

namespace Sys2Proof.Machine

/-- The fields of a fault record that its raiser gives (R174). -/
structure Record where
  cause : Nat
  trap : Bool := false
  kill : Bool := false
  stop : Bool := false
  info : Bool := false
  front : Bool := false
  engine : Bool := false
  ver : BitVec 16 := 0
  bench : Nat := 0xFF
  trayno : Nat := 0xFF
  pc : DWord := 0
  fmask : BitVec 32 := 0
  teamno : Nat := 0
  addr : DWord := 0
  d0 : BitVec 64 := 0
  d1 : BitVec 64 := 0
  /-- when the cause was raised, for one that waited (R179) -/
  raisedAt : Option Nat := none
  deriving DecidableEq, Repr

/-- FLAGS of a record (R174). -/
def Record.flags (r : Record) (lost : Bool) : Nat :=
  r.trap.toNat + 2 * r.kill.toNat + 4 * r.stop.toNat + 8 * r.info.toNat + 16 * r.front.toNat + 32 * r.engine.toNat +
    64 * lost.toNat

/-- The 64 bytes of a record (R174). -/
def Record.bytes (r : Record) (seq ctx time : Nat) (lost : Bool) : List Byte :=
  leBytes 8 seq ++ leBytes 1 r.cause ++ leBytes 1 (r.flags lost) ++ leBytes 2 ctx ++ leBytes 2 r.ver.toNat ++
  leBytes 1 r.bench ++ leBytes 1 r.trayno ++ leBytes 8 r.pc.toNat ++ leBytes 4 r.fmask.toNat ++ leBytes 4 r.teamno ++
  leBytes 8 time ++ leBytes 8 r.addr.toNat ++ leBytes 8 r.d0.toNat ++ leBytes 8 r.d1.toNat

/-- The device writes the CCB's hardware fields: STATE, FCHEAD, FCLOST, STICKY, STOPCAUSE (R171). -/
def State.writeCcb (s : State) (ctx : Nat) : State :=
  match s.ctx? ctx with
  | none => s
  | some c =>
    let s := s.ctxWrite c 0 (c.ccb.toNat + 0x14) (leBytes 4 c.stopped.toNat ++ leBytes 8 c.fcHead.toNat)
    s.ctxWrite c 0 (c.ccb.toNat + 0x28) (leBytes 8 c.fcLost.toNat ++ leBytes 4 c.sticky.toNat ++ leBytes 4 c.stopCause.toNat)

/-- A cause sets its bit of the sticky word, but for 0x0F, 0x17 and a cause-less stop (R172). -/
def stickyBit (cause : Nat) : BitVec 26 := if cause = 0 || cause = 0x0F || cause = 0x17 then 0 else 1#26 <<< (cause - 1)

/-- Append a fault record to a context's chain, or count it lost, set STICKY, and write the CCB (R172, R173). -/
def State.record (s : State) (ctx : Nat) (r : Record) : State :=
  match s.ctx? ctx with
  | none => s
  | some c =>
    let seq := c.fcHead + 1
    let tail := BitVec.ofNat 64 (s.ctxNat c (c.ccb.toNat + 0x20) 8)
    let bit : BitVec 26 := if r.info && r.cause == 0x14 then 0 else stickyBit r.cause
    if (seq - tail).toNat ≤ c.fcCap then
      let s := s.ctxWrite c 0 (c.fcBase.toNat + 64 * ((seq.toNat - 1) % c.fcCap))
        (r.bytes seq.toNat ctx (r.raisedAt.getD s.time) c.lostPend)
      (s.modCtx ctx fun c => { c with fcHead := seq, lostPend := false, sticky := c.sticky ||| bit }).writeCcb ctx
    else
      (s.modCtx ctx fun c =>
        { c with fcLost := c.fcLost + 1, lostPend := true, sticky := c.sticky ||| bit }).writeCcb ctx

/-- A result word from its code and value (R321). -/
def resultWord (code value : Nat) : DWord := BitVec.ofNat 64 (code * 2 ^ 56 + value % 2 ^ 56)

/-- The register with a name in a tray; a register that does not exist reads as 0 and full. -/
def Tray.reg (tr : Tray) : RegName → Reg
  | .base t n => (tr.base[t][n]?).getD Reg.zero
  | .win u t n =>
    match tr.frames.find? (·.uid == u) with
    | some f => (f.regs[t][n]?).getD Reg.zero
    | none => Reg.zero
  | .ext t n => match tr.ext with | some e => (e[t][n]?).getD Reg.zero | none => Reg.zero
  | .s n => (tr.sregs[n]?).getD Reg.zero
  | _ => Reg.zero

/-- A tray with a register changed; a register that does not exist takes nothing. -/
def Tray.setReg (tr : Tray) (r : RegName) (x : Reg) : Tray :=
  match r with
  | .base t n => { tr with base := tr.base.set t (tr.base[t].setIfInBounds n x) }
  | .win u t n =>
    { tr with
      frames := tr.frames.map fun f => if f.uid == u then { f with regs := f.regs.set t (f.regs[t].setIfInBounds n x) } else f }
  | .ext t n => { tr with ext := tr.ext.map fun e => e.set t (e[t].setIfInBounds n x) }
  | .s n => { tr with sregs := tr.sregs.setIfInBounds n x }
  | _ => tr

/-- An f register. -/
def Front.reg (fr : Front) : RegName → FReg
  | .f n => (fr.fregs[n]?).getD FReg.zero
  | _ => FReg.zero

/-- Change an f register. -/
def Front.setReg (fr : Front) (r : RegName) (x : FReg) : Front :=
  match r with
  | .f n => { fr with fregs := fr.fregs.setIfInBounds n x }
  | _ => fr

/-- Write a value into its register and mark it full (R43, R30). -/
def State.putReg (s : State) (o : Owner) (w : RegWrite) : State :=
  match o with
  | .tray id => s.modTray id fun tr => tr.setReg w.reg { val := w.val, full := true }
  | .front t => s.modFront t fun fr => fr.setReg w.reg { val := dword w.val w.hi, full := true }

/-- Write several values. -/
def State.putRegs (s : State) (o : Owner) (ws : List RegWrite) : State := ws.foldl (fun s w => s.putReg o w) s

/-- Set a register's full bit and keep its value (R43, R47). -/
def State.setFull (s : State) (o : Owner) (r : RegName) (b : Bool) : State :=
  match o with
  | .tray id => s.modTray id fun tr => tr.setReg r { tr.reg r with full := b }
  | .front t => s.modFront t fun fr => fr.setReg r { fr.reg r with full := b }

/-- Mark registers empty (R43). -/
def State.markEmpty (s : State) (o : Owner) (rs : List RegName) : State := rs.foldl (fun s r => s.setFull o r false) s

/-- Product of the extents of the levels of a list. -/
def extents (ls : List Level) : Nat := ls.foldl (fun n l => n * l.extent) 1

/-- The team level: the first level with domain BENCH, level 1 when there is none (R17, R155). -/
def Launch.teamLevel (l : Launch) : Nat := (l.levels.findIdx? fun x => x.dom == 2).getD 1

/-- Trays of a team (R17). -/
def Launch.traysPerTeam (l : Launch) : Nat := extents ((l.levels.take l.teamLevel).drop 1)

/-- Teams of a launch. -/
def Launch.teams (l : Launch) : Nat := extents (l.levels.drop l.teamLevel)

/-- The function that a chain number names, and MSI-X for it. -/
def chainFn (chain : Nat) : Nat := chain / 4

/-- An item ends: its result word is written, its chain forgets it, NOTIFY signals the host (R333, R335, R384). -/
def State.endItem (s : State) (it : Item) (w : DWord) : State :=
  let s := match s.ctx? (it.ctxid.toNat % 4096) with
    | some c => if it.result == 0 then s else s.ctxWrite c 0 it.result.toNat (leBytes 8 w.toNat)
    | none => s
  let chains := s.sched.chains.map fun ch =>
    if ch.fn * 4 + ch.slot == it.chain then { ch with open_ := ch.open_.erase it.num } else ch
  let s := { s with sched := { s.sched with chains := chains } }
  if it.flags.getLsbD 1 then { s with outbox := s.outbox ++ [.msix (chainFn it.chain)] } else s

/-- The branch of a task-graph node that a result word takes: the next node, or nothing when the graph ends (R342). -/
def graphBranch (node : List Byte) (w : DWord) : Option Nat :=
  let br := (List.range 4).map fun i => leNat ((node.drop (16 + 4 * i)).take 4)
  match br.find? fun b =>
      (b % 256 == 0xFF || b % 256 == w.toNat / 2 ^ 56) && (b / 2 ^ 24 == 0xFF || b / 2 ^ 24 == w.toNat % 256) with
  | some b => if b / 256 % 65536 == 0xFFFF then none else some (b / 256 % 65536)
  | none => none

/-- Change a saved team (R186): what reaches it while it waits is found in it when it is restored. -/
def State.modSaved (s : State) (mine : Saved → Bool) (f : Saved → Saved) : State :=
  { s with sched := { s.sched with saved := s.sched.saved.map fun x => if mine x then f x else x } }

/-- A result word is written into its issuer's registers, resident or saved (R321, R354); its first read is an acquire (R355). -/
def State.putResult (s : State) (o : Owner) (ws : List RegWrite) (launch : Nat) : State :=
  let s : State := s.putRegs o ws
  let s : State := match o with
    | .tray id =>
      s.modSaved (fun x => x.trays.any (·.id == id)) fun x =>
        { x with trays := x.trays.map fun tr =>
            if tr.id == id then ws.foldl (fun tr w => tr.setReg w.reg { val := w.val, full := true }) tr else tr }
    | .front t =>
      s.modSaved (fun x => x.team.id == t) fun x =>
        let fr := ws.foldl (fun (fr : Front) (w : RegWrite) => fr.setReg w.reg { val := dword w.val w.hi, full := true }) x.team.front
        { x with team := { x.team with front := fr } }
  let rest := s.tokens.filter fun t => !(t.owner == o && ws.any fun w => w.reg == t.reg)
  { s with tokens := if launch == 0 then rest
      else rest ++ ws.map fun (w : RegWrite) => { owner := o, reg := w.reg, fruit := .launch launch } }

/-- A result word of a launch, 0 for none, reaches its destination (R321, R323, R324, R341, R342). -/
def State.deliver (s : State) (d : Dest) (w : DWord) (launch : Nat) : State :=
  match d with
  | .none => s
  | .regs o lo hi =>
    match hi with
    | .none => s.putResult o [{ reg := lo, val := loWord w, hi := hiWord w }] launch
    | _ => s.putResult o [{ reg := lo, val := loWord w, hi := 0 }, { reg := hi, val := hiWord w, hi := 0 }] launch
  | .item it => s.endItem it w
  | .group g =>
    match s.sched.groups.find? (·.id == g) with
    | some x =>
      let s := x.recs.foldl (fun s it => s.endItem it w) s
      let s : State := { s with sched := { s.sched with groups := s.sched.groups.filter (·.id != g) } }
      -- a closed group that waited for a list goes on
      (match s.sched.groups.find? fun y => y.ctx == x.ctx && y.node == x.node && y.closed && !y.launched with
       | some y => { s with agenda := .event .groupTimerLapse { Input.blank with id := y.id } :: s.agenda }
       | none => s)
    | none => s
  | .graph g =>
    match s.sched.graphs.find? (·.id == g) with
    | none => s
    | some x =>
      let s := { s with sched := { s.sched with graphs := s.sched.graphs.filter (·.id != g) } }
      match s.ctx? (x.item.ctxid.toNat % 4096) with
      | none => s.endItem x.item w
      | some c =>
        let node := (s.ctxRead c 0 (x.item.arg0.toNat + 32 * x.node) 32).getD []
        let res := leNat ((node.drop 8).take 8)
        let s := if res == 0 then s else s.ctxWrite c 0 res (leBytes 8 w.toNat)
        match if c.stopped then none else graphBranch node w with
        | some nx => { s with agenda := .event .itemGraph { Input.blank with flag := true, item := { x.item with arg1 := BitVec.ofNat 64 nx } } :: s.agenda }
        | none => s.endItem x.item w

/-- A launch ends with a result word: nothing of it stays (R321). -/
def State.endLaunch (s : State) (id : Nat) (w : DWord) : State :=
  match s.launch? id with
  | none => s
  | some l =>
    let s := { s with
      launches := s.launches.filter (·.id != id)
      sched := { s.sched with
        pifo := s.sched.pifo.filter fun e => e.work != Work.launch id
        slots := s.sched.slots.filter fun b => b.launch != id } }
    let s := if l.ver == 0 then s
      else s.modCtx l.ctx fun c =>
        { c with versions := c.versions.map fun (v : Version) => if v.loc == l.ver then { v with ended := v.ended ++ [l.dest] } else v }
    (s.launchReleased id).deliver l.dest w id

/-- The result word of a launch whose teams have all ended (R321). -/
def Launch.result (l : Launch) : DWord :=
  match l.cause with
  | some c => resultWord 4 c
  | none => resultWord 1 l.value.toNat

/-- A command drives a matrix array. -/
def CmdOp.array? : CmdOp → Option Nat
  | .mwld a .. | .mstr a .. | .mloop a .. | .scpy a .. | .accclr a .. | .accpop a .. => some a
  | _ => none

/-- An array that no team holds (R273). -/
def ArrayState.free (a : ArrayState) : ArrayState :=
  { a with holder := none, acc := [], scale := [], queue := [], shape := none, active := none, shadow := none }

/-- A report entry (R350): TEAMNO, outcome, offset. -/
def reportEntry (x : Nat × Nat × Nat) : List Byte := leBytes 4 x.1 ++ leBytes 4 x.2.1 ++ leBytes 8 x.2.2

/-- Insert a report entry by TEAMNO. -/
def insertReport (x : Nat × Nat × Nat) : List (Nat × Nat × Nat) → List (Nat × Nat × Nat)
  | [] => [x]
  | y :: ys => if x.1 < y.1 then x :: y :: ys else y :: insertReport x ys

/-- A pre-emption request that has no team left is over: a PREEMPT item's report is written, in ascending TEAMNO, and then its
result word; a quiesce and an offline die wait for more (R350, R362, R366). -/
def State.preemptOver (s : State) (p : Preempt) : State :=
  if !p.left.isEmpty then s
  else
    let gone : State := { s with sched := { s.sched with preempts := s.sched.preempts.filter fun q => q.id != p.id } }
    match p.kind with
    | .item it =>
      (match s.ctx? p.ctx with
       | some c =>
         (gone.ctxWrite c 0 it.arg2.toNat ((p.done.foldr insertReport []).flatMap reportEntry)).endItem it (resultWord 1 0)
       | none => gone.endItem it (resultWord 1 0))
    | .slice => gone
    | _ => s

/-- A team of a pre-emption request is done (R350): 0 completed, 1 drained, 2 discarded, 3 saved at an offset. -/
def State.reported (s : State) (team teamno outcome off : Nat) : State :=
  let mine (p : Preempt) : Bool := p.left.contains team
  let s : State := { s with sched := { s.sched with
      preempts := s.sched.preempts.map fun p =>
        if mine p then { p with left := p.left.erase team, done := p.done ++ [(teamno, outcome, off)] } else p } }
  s.sched.preempts.foldl (fun s p => s.preemptOver p) s

/-- Registers of a lane's pool, or of a landing slot's own store, are released: waits there are examined at once (R58). -/
def State.poolFreed (s : State) (bench lane : Nat) (landed : Bool) : State :=
  let waits (e : Entry) : Bool := match e.wait with | .pool .. => true | _ => false
  let inNeed (tr : Tray) : Bool :=
    tr.bench == bench && tr.lane == lane && tr.landed.isSome == landed &&
      (tr.frontier.any waits || (match tr.frames.head? with | some f => !f.held && 0 < f.size | none => false))
  if s.trays.any inNeed then
    { s with agenda := .event .poolWaitServe { Input.blank with id := bench, n := lane, flag := landed } :: s.agenda }
  else s

/-- What is resident of a team goes: trays, producers, matrix commands, arrays, the team itself (R168, R259, R273). -/
def State.dropTeam (s : State) (id : Nat) : State :=
  let gone := s.trays.filter (·.team == id)
  let s : State := { (s.dropCmds fun c => c.team == id && c.op.array?.isSome) with
    trays := s.trays.filter (·.team != id)
    prods := s.prods.filter fun p => match p.owner with
      | .tray t => !(s.trays.any fun tr => tr.id == t && tr.team == id)
      | .front t => t != id
    arrays := s.arrays.map fun a => if a.holder == some id then a.free else a
    teams := s.teams.filter (·.id != id) }
  gone.foldl (fun s tr => s.poolFreed tr.bench tr.lane tr.landed.isSome) s

/-- The trays of a team and its front strand. -/
def State.ownersOf (s : State) (team : Nat) : List Owner :=
  .front team :: (s.trays.filter (·.team == team)).map fun tr => .tray tr.id

/-- A team has ended: shared memory, front strand and arrays go, and its launch ends with its last team (R168, R321). Copies of the
team in progress still find the shared memory as they need it (R259). -/
def State.endTeam (s : State) (id : Nat) : State :=
  match s.team? id with
  | none => s
  | some tm =>
    let s := (s.ownersOf id).foldl State.forgetOwner s
    let s : State := match s.launch? tm.launch with
      | some l =>
        if 0 < l.shmem && s.cmds.any fun k => k.team == id && k.op.array?.isNone then
          { s with remnants := s.remnants ++ [{ team := id, shmem := l.shmem, shared := tm.shared }] }
        else s
      | none => s
    let s := (s.dropTeam id).reported id tm.teamno (match tm.fate with | .drain .. => 1 | _ => 0) 0
    let s := s.modLaunch tm.launch fun l => { l with endedTeams := l.endedTeams + 1 }
    match s.launch? tm.launch with
    | some l => if l.endedTeams ≥ l.teams then s.endLaunch l.id l.result else s
    | none => s

/-- A team ends when no thread of it is left in a tray, spawned, or on its way into a formed tray (R168). -/
def State.checkTeam (s : State) (id : Nat) : State :=
  match s.team? id with
  | none => s
  | some tm =>
    if s.trays.any (·.team == id) || !tm.spawns.isEmpty || !tm.formed.isEmpty then s else s.endTeam id

/-- A tray ends and gives back its registers and position; parked threads do not keep it (R168, R32). -/
def State.endTray (s : State) (id : Nat) : State :=
  match s.tray? id with
  | none => s
  | some tr =>
    let spawned : Bool := match s.team? tr.team with
      | some tm => (tm.spawns ++ tm.formed.flatMap (·.spawns)).any (·.tray == id)
      | none => false
    let s := if spawned then s else s.forgetOwner (.tray id)
    let s : State := { s with
      trays := s.trays.filter (·.id != id)
      prods := s.prods.filter (·.owner != Owner.tray id) }
    (s.poolFreed tr.bench tr.lane tr.landed.isSome).checkTeam tr.team

/-- A tray whose frontier holds no thread ends, once its spawned threads' records are written (R143, R168). A trap whose
handler entries have all ended gives way to the frontier it saved. -/
def State.checkTray (s : State) (id : Nat) : State :=
  match s.tray? id with
  | none => s
  | some tr =>
    if !tr.frontier.isEmpty then s
    else match (tr.trap.map (·.frontier)).getD [] with
      | [] =>
        let s := s.modTray id fun tr => { tr with trap := none }
        (match s.team? tr.team with
         | some tm => if tm.spawns.any fun sp => sp.tray == id && !sp.written then s else s.endTray id
         | none => s.endTray id)
      | es => s.modTray id fun tr => { tr with frontier := es, trap := none }

/-- Slots leave a tray's frontier, the saved one of a trap included (R134, R168). -/
def Tray.without (tr : Tray) (m : BitVec 32) : Tray :=
  let cut (es : List Entry) : List Entry :=
    (es.map fun e => { e with mask := e.mask &&& ~~~m }).filter fun e => e.mask != 0
  { tr with
    frontier := cut tr.frontier
    trap := tr.trap.map fun ts =>
      { ts with frontier := cut ts.frontier, issuer := ((ts.frontier.take ts.issuer).filter fun e => e.mask &&& ~~~m != 0).length } }

/-- A tray is killed: its threads end, and its launch keeps the first cause (R82, R321). Threads spawned from it that are not
written yet keep it until they are (R143). -/
def State.killTray (s : State) (id cause : Nat) : State :=
  match s.tray? id with
  | none => s
  | some tr =>
    let s := match s.team? tr.team with
      | some tm => s.modLaunch tm.launch fun l => { l with cause := some (l.cause.getD cause) }
      | none => s
    (s.modTray id fun tr => { tr with frontier := [], trap := none }).checkTray id

/-- Saved teams that are not to be restored, and their places in the PIFO, go. -/
def State.forgetSaved (s : State) (mine : Saved → Bool) : State :=
  let ids := (s.sched.saved.filter mine).map (·.id)
  { s with sched := { s.sched with
      saved := s.sched.saved.filter fun x => !mine x
      pifo := s.sched.pifo.filter fun e => match e.work with | .saved i => !ids.contains i | _ => true } }

/-- The versions of a context that descend from one, itself included (R328). -/
def Context.descend (c : Context) (v : Nat) : List Nat :=
  (c.versions.filter fun r => r.state == .live && (c.chain r.loc).contains v).map (·.loc)

/-- The peers that ports announce, trained ones or ones that are down, other than the device itself (R328, R371). -/
def State.peers (s : State) : List Nat :=
  (List.range 16).filter fun p =>
    s.pkg.portstat.toList.any (fun w => w != 0 && (w.extractLsb' 16 4).toNat == p) && p != s.pkg.fabno.toNat

/-- The peers that a version's squash notice goes to (R328): those that ports announce, and those to which a request of the version
went. -/
def State.noticed (s : State) (v : Version) : List Nat :=
  s.peers ++ v.told.filter fun p => !s.peers.contains p && p != s.pkg.fabno.toNat

/-- A notice to peers, for which a RESOLVE or SQUASH waits or nobody does (R326, R328, R377): a squash notice leaves at once to the
peers that can be reached, and to the others when a route returns. -/
def State.notify (s : State) (squash : Bool) (gid parent : BitVec 16) (peers : List Nat) (waiter : Option Nat) : State :=
  let (id, s) := s.fresh
  let n : Notice := { src := s.pkg.fabno.toNat, gid := gid, parent := parent }
  let now := if squash then peers.filter fun p => (s.route p).open_ else []
  let s := s.sendNotice true n now
  { s with
    fab := { s.fab with
      notices := s.fab.notices ++
        [{ id := id, squash := squash, gid := gid, parent := parent, waits := peers, owed := [], since := s.time,
           sent := now, waiter := waiter }] } }

/-- Squash a set of versions of a context (R328): its launches end with 03, its commands are cancelled, its allocations,
lines and shadows go, and a notice for each version leaves. -/
def State.squashSet (s : State) (ctx : Nat) (vs : List Nat) (waiter : Option Nat) : State :=
  match s.ctx? ctx with
  | none => s
  | some c =>
    -- step 1: unbind, end the launches
    let ls := s.launches.filter fun l => l.ctx == ctx && vs.contains l.ver
    let teams := s.teams.filter fun t => ls.any (·.id == t.launch)
    let s := teams.foldl (fun s t => (s.dropTeam t.id).reported t.id t.teamno 0 0) s
    let s := s.forgetSaved fun x => ls.any (·.id == x.team.launch)
    let s := s.modCtx ctx fun c =>
      { c with versions := c.versions.map fun r => if vs.contains r.loc then { r with state := .squashed, frees := [] } else r }
    let ended := (c.versions.filter fun r => vs.contains r.loc).flatMap (·.ended)
    let s := ended.foldl (fun s d => s.deliver d (resultWord 3 0) 0) s
    let s := ls.foldl (fun s l => s.endLaunch l.id (resultWord 3 0)) s
    -- step 2: cancel the commands
    let cs := s.cmds.filter fun k => k.ctx == ctx && vs.contains k.ver
    let s := cs.foldl (fun s k => s.putReg k.owner { reg := k.token, val := 0xC0000000#32, hi := 0 }) s
    let s := s.dropCmds fun k => k.ctx == ctx && vs.contains k.ver
    -- steps 3 and 4: allocations, lines, tags, shadows
    let dead (k : VKey) : Bool := match k with | .here c' v => c' == ctx && vs.contains v | .remote .. => false
    let s := { s with
      allocs := s.allocs.filter fun a => !(a.ctx == ctx && vs.contains a.ver)
      past := (s.dropPast dead).past
      vlines := s.vlines.filter fun x => !dead x.key
      vtags := s.vtags.filter fun x => !dead x.key
      shadows := s.shadows.filter fun x => !(x.ctx == ctx && vs.contains x.ver)
      promoted := s.promoted.filter fun x => !dead x.2 }
    -- step 5: notices
    (c.versions.filter fun r => vs.contains r.loc).foldl (fun u v =>
      if (s.noticed v).isEmpty then u else u.notify true (c.gid s.devNo v.loc) 0 (s.noticed v) waiter) s

/-- A context stops (R183, R184): the record, its trays and strands, its commands without tokens, its items with 04, its
versions; its cars are freed at their next dwell (R208). -/
def State.stopContext (s : State) (ctx cause : Nat) (r : Record) : State :=
  match s.ctx? ctx with
  | none => s
  | some c =>
    if c.stopped then s
    else
      let s := s.modCtx ctx fun c => { c with stopped := true, stopCause := BitVec.ofNat 8 cause }
      let s := s.record ctx { r with cause := cause, stop := true }
      let s := s.dropCmds fun k => k.ctx == ctx
      let ls := s.launches.filter (·.ctx == ctx)
      let s := (s.teams.filter fun t => ls.any (·.id == t.launch)).foldl (fun s t => (s.dropTeam t.id).reported t.id t.teamno 0 0) s
      let s := s.forgetSaved fun x => ls.any (·.id == x.team.launch)
      let s := ls.foldl (fun s l => s.endLaunch l.id (resultWord 4 cause)) s
      let queued := s.sched.pifo.filterMap fun e => match e.work with
        | .item it => if it.ctxid.toNat % 4096 == ctx then some it else none
        | _ => none
      let recs := (s.sched.groups.filter (·.ctx == ctx)).flatMap (·.recs)
      let graphs := (s.sched.graphs.filter fun g => g.item.ctxid.toNat % 4096 == ctx).map (·.item)
      let s := { s with sched := { s.sched with
        pifo := s.sched.pifo.filter fun e => match e.work with
          | .item it => it.ctxid.toNat % 4096 != ctx
          | .group g => !(s.sched.groups.any fun x => x.id == g && x.ctx == ctx)
          | _ => true
        groups := s.sched.groups.filter (·.ctx != ctx)
        graphs := s.sched.graphs.filter fun g => g.item.ctxid.toNat % 4096 != ctx } }
      let s := (queued ++ recs ++ graphs).foldl (fun s it => s.endItem it (resultWord 4 cause)) s
      let live := (c.versions.filter (·.state == .live)).map (·.loc)
      let s := s.squashSet ctx live none
      { s with ring := { s.ring with cars := s.ring.cars.map fun k => if k.owner == ctx then { k with doomed := true } else k } }

end Sys2Proof.Machine
end

