-- ==== Sys2Proof/Machine/Ops.lean ====
section
/-!
DEFINITION. Machine/Ops.lean: who issues an instruction and with what (R134, R151), predicates, taking an exception (R175 to
R177), returning from one (R178), and retiring a group: the PC, the hardware loops and the merge of entries (R135, R150).
-/

namespace Sys2Proof.Machine

/-- What an instruction issues with: its tray and entry, or its front strand as one entry with slot 0, its team, launch and
context, its active slots and its prefixes. `tray` is blank for a front strand. -/
structure Ctx where
  front : Bool
  tray : Tray
  entry : Nat
  ent : Entry
  team : Team
  launch : Launch
  cx : Context
  act : BitVec 32
  pfx : Pfx
  size : Nat
  /-- operand codes whose cursors advance when the group retires (R40) -/
  adv : List (BitVec 7)
  deriving DecidableEq, Repr

/-- A tray at bind time, before its threads are placed (R24, R39). -/
def Tray.fresh : Tray :=
  { id := 0, team := 0, trayno := 0, formed := false, bench := 0, lane := 0, pos := 0, landed := none,
    scratch := Store.empty, base := Vector.replicate 32 (Vector.replicate 32 Reg.zero), frames := [], ext := none, drawn := 0,
    sregs := Vector.replicate 32 Reg.zero, preds := Vector.replicate 32 1, ix := Vector.replicate 8 IxDesc.unset,
    cursors := Vector.replicate 32 (Vector.replicate 8 0), frontier := [], remap := Vector.replicate 32 none, parked := 0,
    prio := 0, trap := none, fpc := 0, fcause := 0, fmask := 0, timehi := 0, resv := Vector.replicate 32 none,
    tags := Vector.replicate 4 { count := 0, epoch := 0 }, dqPos := 0, stream := 0, fairClk := 0, lapsed := false,
    turn := 0, stopped := false, excused := [] }

/-- The register file an instruction uses. -/
def Ctx.owner (c : Ctx) : Owner := if c.front then .front c.team.id else .tray c.tray.id

/-- The issuer as a party of the parity holders' acknowledgements (R243). -/
def Ctx.party (c : Ctx) : Party := .threads c.owner (BitVec.allOnes 32)

/-- The issuing version's local id. -/
def Ctx.ver (c : Ctx) : Nat := c.launch.ver

/-- The version keys that the issuer observes (R238). -/
def Ctx.keys (c : Ctx) : List VKey := c.cx.keys c.ver

/-- The bench on which the issuer runs (R48, R221). -/
def Ctx.bench (c : Ctx) : Nat := if c.front then c.team.bench else c.tray.bench

/-- The tray's number for address resolution, none for a front strand (R189). -/
def Ctx.tray? (c : Ctx) : Option Nat := if c.front then none else some c.tray.id

/-- The writer that a slot is. -/
def Ctx.writer (c : Ctx) (t : Fin 32) : Writer := if c.front then .strand c.team.id else .thread c.tray.id t

/-- A detached tray (R221). -/
def Ctx.detached (c : Ctx) : Bool := !c.front && c.tray.landed.isSome

/-- The lowest active slot (R89). -/
def Ctx.low (c : Ctx) : Fin 32 := lowestSlot c.act

/-- A predicate register in a slot; p0 reads as true (R26). -/
def Ctx.pred (c : Ctx) (p : BitVec 3) (t : Fin 32) : Bool :=
  p == 0 || (if c.front then c.team.front.preds else c.tray.preds[t]).getLsbD p.toNat

/-- Set bit p of a predicate word. -/
def setPredBit (w : BitVec 8) (p : BitVec 3) (v : Bool) : BitVec 8 :=
  if v then w ||| (1#8 <<< p.toNat) else w &&& ~~~(1#8 <<< p.toNat)

/-- Write a predicate in the slots of a mask; a write to p0 is discarded (R26, R151). -/
def State.setPred (s : State) (c : Ctx) (p : BitVec 3) (m : BitVec 32) (v : Fin 32 → Bool) : State :=
  if p == 0 then s
  else if c.front then
    if m.getLsbD 0 then s.modFront c.team.id fun fr => { fr with preds := setPredBit fr.preds p (v 0) } else s
  else
    s.modTray c.tray.id fun tr =>
      { tr with preds := Slots.gen fun t => if m.getLsbD t.val then setPredBit tr.preds[t] p (v t) else tr.preds[t] }

/-- The slots of an entry that a guard leaves active (R76), without those for which the group retires with no effect
(R178). -/
def Ctx.guarded (c : Ctx) : BitVec 32 :=
  let m := c.ent.mask &&& ~~~c.ent.skip
  match c.pfx.guard with
  | none => m
  | some g => maskOf fun t => m.getLsbD t.val && (c.pred g.p t != g.neg)

/-- A held engine command of the tray whose trap is not delivered yet comes before the tray's next issue (R179). -/
def State.engineTrapDue (s : State) (tray : Nat) : Bool :=
  s.cmds.any fun k => k.owner == Owner.tray tray && (match k.state with | .held _ _ _ told => !told | _ => false)

/-- The context for a team's agent. -/
def State.around (s : State) (team : Nat) : Option (Team × Launch × Context) :=
  match s.team? team with
  | none => none
  | some tm =>
    match s.launch? tm.launch with
    | none => none
    | some l =>
      match s.ctx? l.ctx with
      | none => none
      | some cx => some (tm, l, cx)

/-- An entry of a tray as an issuing context, whatever it waits for. -/
def State.trayCtx (s : State) (tray entry : Nat) (p : Pfx) (size : Nat) : Option Ctx :=
  match s.tray? tray with
  | none => none
  | some tr =>
    match tr.frontier[entry]?, s.around tr.team with
    | some e, some (tm, l, cx) =>
      let c : Ctx :=
        { front := false, tray := tr, entry := entry, ent := e, team := tm, launch := l, cx := cx, act := 0, pfx := p,
          size := size, adv := [] }
      some { c with act := c.guarded }
    | _, _ => none

/-- A front strand as an issuing context, whatever it waits for. -/
def State.frontCtx (s : State) (team : Nat) (p : Pfx) (size : Nat) : Option Ctx :=
  match s.around team with
  | none => none
  | some (tm, l, cx) =>
    let e : Entry := { pc := tm.front.pc, prio := 0, mask := 1, depth := 0, loops := tm.front.loops, wait := tm.front.wait, skip := 0 }
    let c : Ctx :=
      { front := true, tray := Tray.fresh, entry := 0, ent := e, team := tm, launch := l, cx := cx, act := 0, pfx := p,
        size := size, adv := [] }
    some { c with act := c.guarded }

/-- The entry can try its instruction: it waits for nothing, or looks again for the fabric, or is held at a branch and an
entry has left the frontier since (R137). -/
def Ctx.freeToIssue (c : Ctx) : Bool :=
  match c.ent.wait with
  | .none => true
  | .fabric _ => true
  | .held => c.tray.frontier.length < 6
  | _ => false

/-- The tray waits in MIGRATE, which acts for all of it (R220). -/
def Tray.moving (tr : Tray) : Bool := tr.frontier.any fun e => match e.wait with | .migrate _ => true | _ => false

/-- A copy or carousel command of a tray is held for its handler's ERET: it has to end before a save (R186, R218). -/
def State.owes (s : State) (tray : Nat) : Bool :=
  s.cmds.any fun k => k.owner == Owner.tray tray && k.op.array?.isNone && (match k.state with | .held .. => true | _ => false)

/-- A team that is to be saved issues only what it has begun, what waits for the fabric, and what its held copies and carousel
commands wait for (R186, R218, R244). -/
def State.resting (s : State) (c : Ctx) : Bool :=
  match c.team.fate, c.ent.wait with
  | .save .., .fabric _ => false
  | .save .., _ => c.front || !s.owes c.tray.id
  | _, _ => false

/-- The context in which the current agent can issue now: not waiting, at its stack's depth, not stopped, not about to be saved
(R134, R147, R151, R169, R179, R186). -/
def State.issuer (s : State) (p : Pfx) (size : Nat) : Option Ctx :=
  match s.cur with
  | .none => none
  | .tray id k =>
    match s.trayCtx id k p size with
    | some c =>
      if c.freeToIssue && !s.resting c && c.ent.depth == c.tray.frames.length && !c.tray.stopped && !c.tray.moving && (c.tray.trap.isSome || !s.engineTrapDue id) then some c
      else none
    | none => none
  | .front t =>
    match s.frontCtx t p size with
    | some c =>
      if c.team.front.status == .running && c.freeToIssue && !s.resting c && !c.team.front.stopped then some c else none
    | none => none

/-- The group's size in bytes: its prefixes and a 32-bit word (R68, R80). -/
def groupSize (p : Pfx) : Nat :=
  4 * (1 + p.imm.isSome.toNat + p.guard.isSome.toNat + p.mod.isSome.toNat + p.ximm.isSome.toNat)

/-- A cause as it is raised: its code, the slots that raised it, address and details (R174, R175). -/
structure Cause where
  code : Nat
  mask : BitVec 32
  addr : DWord := 0
  d0 : BitVec 64 := 0
  d1 : BitVec 64 := 0
  /-- the instruction acts once for all its slots (R89) -/
  once : Bool := false
  deriving DecidableEq, Repr

/-- A cause that a GUARD with POL = 1 clears (R77, R175). -/
def clearable (code : Nat) : Bool := [0x04, 0x07, 0x08, 0x09, 0x10, 0x11].contains code

/-- A byte of code at an address as a version sees it, or the fetch's cause (R68, R194). -/
def State.fetchByte (s : State) (cx : Context) (ver team : Nat) (va : DWord) : Except Nat Byte :=
  match s.resolve cx ver team none .fetch va with
  | .ok l _ => .ok (s.byteSeen (cx.keys ver) l)
  | .fault c => .error c
  | .wait => .error 0x0A

/-- Whether an address is a landing point (R158). -/
def State.landing (s : State) (cx : Context) (ver team : Nat) (va : DWord) : Bool :=
  va.toNat % 2 == 0 &&
    ((List.range 4).zip [0xBB#8, 0x01#8, 0x00#8, 0x00#8]).all fun (i, b) =>
      match s.fetchByte cx ver team (va + BitVec.ofNat 64 i) with
      | .ok x => x == b
      | .error _ => false

/-- The context has a trap handler: TRAPPC is not 0 and a landing point now (R171). -/
def State.handler (s : State) (cx : Context) (ver team : Nat) : Bool := cx.trapPc != 0 && s.landing cx ver team cx.trapPc

/-- The record of a cause raised by an issuing context (R174, R175). -/
def Ctx.recordOf (c : Ctx) (dev : BitVec 4) (f : Cause) : Record :=
  { cause := f.code, front := c.front, ver := c.cx.gid dev c.ver, bench := c.bench,
    trayno := if c.front then 0xFF else c.tray.trayno, pc := c.ent.pc, fmask := if c.front then 0 else f.mask,
    teamno := c.team.teamno, addr := f.addr, d0 := f.d0, d1 := f.d1 }

/-- The entry that runs the handler (R176). -/
def handlerEntry (e : Entry) (trapPc : DWord) : Entry :=
  { pc := trapPc, prio := 63, mask := e.mask, depth := e.depth, loops := [], wait := .none, skip := 0 }

/-- Deliver a trap to a tray: the frontier is saved, FPC, FCAUSE and FMASK are set, every reservation is lost, and one
handler entry stands at TRAPPC (R176). -/
def Tray.deliver (tr : Tray) (c : Ctx) (f : Cause) : Tray :=
  { tr with
    fpc := c.ent.pc
    fcause := BitVec.ofNat 8 f.code
    fmask := f.mask
    trap := some { frontier := tr.frontier, issuer := c.entry, size := c.size, once := f.once }
    frontier := [handlerEntry c.ent c.cx.trapPc]
    resv := Vector.replicate 32 none }

/-- Take an exception: a front strand ends; a tray is killed for an illegal instruction, for a cause raised in a handler, or
without a handler; else the trap is delivered. The record is appended first and STICKY updated; what the instruction's reads at peers
brought is forgotten (R82, R151, R175 to R177). -/
def State.raise (s : State) (c : Ctx) (f : Cause) : State :=
  let s := { s with stalled := false, fab := { s.fab with pulled := s.fab.pulled.filter fun x => x.owner != c.owner } }
  if c.front then
    (s.record c.cx.id { c.recordOf s.devNo f with kill := true }).modFront c.team.id fun fr => { fr with status := .ended }
  else if f.code == 1 || c.tray.trap.isSome || !s.handler c.cx c.ver c.team.id then
    (s.record c.cx.id { c.recordOf s.devNo f with kill := true }).killTray c.tray.id f.code
  else
    (s.record c.cx.id { c.recordOf s.devNo f with trap := true }).modTray c.tray.id fun tr => tr.deliver c f

/-- The sequential flow test at loop ends: the innermost loop that ends at the PC goes round or is cleared, and then the
next outer one is tested (R150). -/
def loopEnd (pc : DWord) : List Loop → DWord × List Loop
  | [] => (pc, [])
  | l :: ls =>
    if l.stop == pc then
      if l.count.toNat > 1 then (l.start, { l with count := l.count - 1 } :: ls) else loopEnd pc ls
    else (pc, l :: ls)

/-- An entry after sequential flow to an address. -/
def Entry.flowTo (e : Entry) (pc : DWord) : Entry :=
  { e with pc := (loopEnd pc e.loops).1, loops := (loopEnd pc e.loops).2, skip := 0 }

/-- An entry that waits at its instruction can begin it again with others; one whose instruction has had its effect and waits for
replies, for room to spawn, or for its tray's move cannot (log 13). -/
def Wait.again : Wait → Bool
  | .reply .. | .spawn _ | .migrate _ => false
  | _ => true

/-- Entries that merge: PC, priority, depth and loop state are equal (R135). -/
def Entry.merges (a b : Entry) : Bool :=
  a.pc == b.pc && a.prio == b.prio && a.depth == b.depth && a.loops == b.loops &&
    (a.wait == b.wait || (a.wait.again && b.wait.again))

/-- Two merging entries as one: entries that wait for different things begin their instruction again together (log 13). -/
def Entry.union (a b : Entry) : Entry :=
  { a with mask := a.mask ||| b.mask, skip := a.skip ||| b.skip, wait := if a.wait == b.wait then a.wait else .none }

/-- Put an entry into a frontier, merged with an equal one. -/
def mergeInto : List Entry → Entry → List Entry
  | [], e => [e]
  | x :: xs, e => if x.merges e then x.union e :: xs else x :: mergeInto xs e

/-- The frontier with every pair of equal entries merged (R135). -/
def mergeAll (es : List Entry) : List Entry := es.foldl mergeInto []

/-- Change the issuing entry, or the front strand's PC, loops and wait, then merge. -/
def State.modEntry (s : State) (c : Ctx) (f : Entry → Entry) : State :=
  if c.front then
    s.modFront c.team.id fun fr => { fr with pc := (f c.ent).pc, loops := (f c.ent).loops, wait := (f c.ent).wait }
  else s.modTray c.tray.id fun tr => { tr with frontier := mergeAll (modAt f tr.frontier c.entry) }

/-- An issue serves a pending fairness lapse of its tray (R138). -/
def State.served (s : State) (c : Ctx) : State :=
  let s := { s with stalled := false }
  if c.front || !c.tray.lapsed then s
  else s.modTray c.tray.id fun tr => { tr with lapsed := false, fairClk := s.clk }

/-- Count a retired group of the team (R347). -/
def State.counted (s : State) (c : Ctx) : State :=
  (s.modTeam c.team.id fun tm => { tm with retired := tm.retired + 1 }).served c

/-- A cursor after v[x+] (R40): modulo the bound in wrap mode, as an 8-bit signed number else. -/
def IxDesc.advance (d : IxDesc) (cur : BitVec 8) : BitVec 8 :=
  if d.wrap then BitVec.ofInt 8 ((cur.toInt % (d.boundM1.toNat + 1 : Int) + d.step.toInt) % (d.boundM1.toNat + 1 : Int))
  else cur + d.step.signExtend 8

/-- The cursors after one advancing operand, in the active slots (R40). -/
def Tray.advance (tr : Tray) (act : BitVec 32) (code : BitVec 7) : Tray :=
  if 104 ≤ code.toNat && code.toNat < 112 then
    let x := code.toNat - 104
    { tr with
      cursors := Slots.gen fun t =>
        if act.getLsbD t.val then
          tr.cursors[t].setIfInBounds x (((tr.ix[x]?).getD IxDesc.unset).advance ((tr.cursors[t][x]?).getD 0))
        else tr.cursors[t] }
  else tr

/-- The cursor advances of a group, after its effect (R40). -/
def State.advance (s : State) (c : Ctx) : State :=
  if c.front || c.adv.isEmpty then s else s.modTray c.tray.id fun tr => c.adv.foldl (fun tr x => tr.advance c.act x) tr

/-- Retire the group: sequential flow to the address after it (R135, R150). -/
def State.retire (s : State) (c : Ctx) : State :=
  ((s.advance c).modEntry c fun e => { e.flowTo (c.ent.pc + BitVec.ofNat 64 c.size) with wait := .none }).counted c

/-- The entry begins a wait at its instruction (R159). -/
def State.waitAt (s : State) (c : Ctx) (w : Wait) : State :=
  (s.modEntry c fun e => { e with wait := w }).served c

/-- The instruction cannot issue yet: nothing changes (R44, R139). -/
def State.stall (s : State) : State := { s with stalled := true }

/-- FABTO in ns (R359). -/
def State.fabtoNs (s : State) : Nat := (if s.pkg.fabto == 0 then 2000 else s.pkg.fabto.toNat) * 1000

/-- The entry has waited FABTO for the fabric (R378). -/
def Ctx.fabricOver (c : Ctx) (s : State) : Bool :=
  match c.ent.wait with
  | .fabric t0 => t0 + s.fabtoNs ≤ s.time
  | _ => false

/-- The entry looks for the fabric again at its next issue; its wait began at its first look. -/
def State.pollFabric (s : State) (c : Ctx) : State :=
  match c.ent.wait with
  | .fabric _ => s.stall
  | _ => s.waitAt c (.fabric s.time)

/-- The frontier that an ERET restores: the entry that trapped goes past its group after cause 0x1A; after cause 0x02 its group
retires without effect in the slots of FMASK, in every slot if it acts once; it stands at its group otherwise (R169, R178). -/
def TrapState.restored (ts : TrapState) (fcause : BitVec 8) (fmask : BitVec 32) : List Entry :=
  match ts.frontier[ts.issuer]? with
  | none => ts.frontier
  | some e =>
    let past : Entry := e.flowTo (e.pc + BitVec.ofNat 64 ts.size)
    if fcause == 0x1A then modAt (fun _ => past) ts.frontier ts.issuer
    else if fcause == 0x02 then
      modAt (fun (e : Entry) => { e with skip := e.skip ||| (if ts.once then e.mask else fmask) }) ts.frontier ts.issuer
    else ts.frontier

/-- Return from a trap: every handler entry is discarded, the saved frontier restored and merged, and the tray's held
commands restart; registers keep what the handler wrote (R178, R179). -/
def State.eret (s : State) (c : Ctx) (ts : TrapState) : State :=
  let s := { s with stalled := false }.modTray c.tray.id fun tr =>
    { tr with frontier := mergeAll (ts.restored tr.fcause tr.fmask), trap := none }
  { s with
    cmds := s.cmds.map fun k => match k.state with
      | .held _ _ _ true => if k.owner == Owner.tray c.tray.id then { k with state := .queued, tags := [], got := [] } else k
      | _ => k }

/-- The slots of a mask end as threads and leave the frontier; their registers stay until the tray ends (R168). -/
def State.endSlots (s : State) (tray : Nat) (m : BitVec 32) : State :=
  (s.modTray tray fun tr =>
    { tr.without m with
      remap := Slots.gen fun t => if m.getLsbD t.val then none else tr.remap[t] }).checkTray tray

end Sys2Proof.Machine
end

