-- ==== Sys2Proof/Machine/Operands.lean ====
section
/-!
DEFINITION. Machine/Operands.lean: every operand form (R27 to R30, R39 to R41), the causes and waits that operands bring
(R33, R37, R40, R44 to R46, R93), the clear policy (R77), the immediates (R75, R105), and the one pipeline through which
every instruction issues.
-/

namespace Sys2Proof

/-- The guard register of a group, as a list. -/
def Pfx.guards (p : Pfx) : List (BitVec 3) := match p.guard with | some g => [g.p] | none => []

/-- The IMM payload as a signed 32-bit number (R105). -/
def Pfx.immS (p : Pfx) : Word := (p.imm.getD 0).signExtend 32

/-- The IMM payload as an unsigned 32-bit number. -/
def Pfx.immU (p : Pfx) : Word := (p.imm.getD 0).setWidth 32

/-- The IMM payload as an FP32 operand: in bits 31:9 (R105). -/
def Pfx.immF (p : Pfx) : Word := (p.imm.getD 0).setWidth 32 <<< 9

/-- The IMM payload as a packed half operand: in both halves (R105). -/
def Pfx.immH (p : Pfx) : Word :=
  let h : BitVec 16 := (p.imm.getD 0).setWidth 16
  (h ++ h : BitVec (16 + 16))

/-- E of a 64-bit operand in the F3 layout: IMM, with XIMM above it, sign-extended (R75). -/
def Pfx.immX (p : Pfx) : BitVec 64 :=
  match p.ximm with
  | some x => ((x ++ p.imm.getD 0 : BitVec (23 + 23))).signExtend 64
  | none => (p.imm.getD 0).signExtend 64

/-- A MOD field, with the value in force without a MOD prefix. -/
def Pfx.modOr {α : Type} (p : Pfx) (d : α) (f : Mod → α) : α := match p.mod with | some m => f m | none => d

/-- The SCOPE in force: none without SCEN (R78, R91); FAB acts as PKG without a fabric (R3). -/
def Pfx.scope (p : Pfx) (fabric : Bool) : Option (BitVec 3) :=
  match p.mod with
  | some m => if m.scen then some (if m.scope == 4 && !fabric then 3 else m.scope) else none
  | none => none

/-- The operand code of a compact form's b: a v register, or an s register under its flag (R72). -/
def CReg.code (f : CReg) : BitVec 7 := (BitVec.ofBool f.s).setWidth 7 <<< 6 ||| f.b.setWidth 7

end Sys2Proof

namespace Sys2Proof.Machine

/-- Which constants an operand's codes 112 to 119 name (R28, R104). -/
inductive Konst where
  | int
  | f32
  | f16
  | bf16
  deriving DecidableEq, Repr

/-- The constant with an index 0 to 7 (R28, R104). -/
def Konst.word (k : Konst) (i : Nat) : Word :=
  let tab : List Word := match k with
    | .int => [0, 1, 2, 3, 4, 8, 16, 0xFFFFFFFF]
    | .f32 => [0, 0x3F800000, 0x40000000, 0x3F000000, 0x40800000, 0x41000000, 0x41800000, 0xBF800000]
    | .f16 => [0, 0x3C003C00, 0x40004000, 0x38003800, 0x44004400, 0x48004800, 0x4C004C00, 0xBC00BC00]
    | .bf16 => [0, 0x3F803F80, 0x40004000, 0x3F003F00, 0x40804080, 0x41004100, 0x41804180, 0xBF80BF80]
  tab.getD i 0

/-- A source operand: registers from a code, an immediate, or a register of another slot (R103). -/
inductive Src where
  | reg (code : BitVec 7) (n : Nat) (trap : Bool) (k : Konst)
  | imm (v : DWord)
  | at_ (code : BitVec 7) (slot : Fin 32 → Fin 32)

/-- What one slot raises (R175). -/
structure SlotCause where
  code : Nat
  addr : DWord := 0
  d0 : BitVec 64 := 0
  d1 : BitVec 64 := 0
  deriving DecidableEq, Repr

/-- What an instruction asks of its operands: sources, destinations (code and number of registers), predicates it names, and
whether it acts once with the operands of the lowest active slot (R89). -/
structure Req where
  srcs : List Src := []
  dsts : List (BitVec 7 × Nat) := []
  /-- codes whose names alone are judged: XPICK reads them in other slots (R162) -/
  named : List (BitVec 7) := []
  preds : List (BitVec 3) := []
  once : Bool := false
  /-- the cause of the instruction's own that a slot whose sources can be read raises: the smallest of it and the operands' causes
  is raised (R175) -/
  own : Ctx → State → Fin 32 → Option SlotCause := fun _ _ _ => none

/-- The register that v n names in a slot, in the current frame (R33, R37). -/
def Tray.vName (tr : Tray) (t : Fin 32) (n : Nat) : Except SlotCause RegName :=
  if n < 32 then .ok (.base t n)
  else if n < 48 then
    match tr.frames.head? with
    | some f => if n - 32 < f.size then .ok (.win f.uid t (n - 32)) else .error { code := 0x01 }
    | none => .error { code := 0x01 }
  else match tr.ext with
    | some _ => .ok (.ext t (n - 48))
    | none => .error { code := 0x05 }

/-- DETAIL0 of an index-bound fault at an index operand (R174). -/
def ixDetail (x : Nat) (cur : BitVec 8) (d : IxDesc) (reg : Int) : BitVec 64 :=
  BitVec.ofNat 64 x ||| cur.setWidth 64 <<< 8 ||| d.base.setWidth 64 <<< 16 ||| d.boundM1.setWidth 64 <<< 24 |||
    (BitVec.ofInt 16 reg).setWidth 64 <<< 32

/-- The number of the v register that an index operand names in a slot (R40). -/
def Tray.ixName (tr : Tray) (t : Fin 32) (x : Nat) : Except SlotCause Nat :=
  let d := (tr.ix[x]?).getD IxDesc.unset
  let cur := (tr.cursors[t][x]?).getD 0
  let bound : Int := d.boundM1.toNat + 1
  let k : Int := if d.wrap then cur.toInt % bound else cur.toInt
  if 0 ≤ k ∧ k < bound then .ok (d.base.toNat + k.toNat)
  else .error { code := 0x04, d0 := ixDetail x cur d (d.base.toNat + k) }

/-- The registers that an operand of n registers names in a slot; constant codes name none (R27 to R30). -/
def Ctx.names (c : Ctx) (code : BitVec 7) (n : Nat) (t : Fin 32) : Except SlotCause (List RegName) :=
  let k := code.toNat
  if 112 ≤ k then .ok []
  else if c.front then
    let f := if k < 64 then k else k - 64
    .ok (if n == 2 then [.f f] else (List.range n).map fun i => .f (f + i))
  else if k < 64 then (List.range n).mapM fun i => c.tray.vName t (k + i)
  else if k < 96 then .ok ((List.range n).map fun i => .s (k - 64 + i))
  else do
    let r ← c.tray.ixName t (k % 8)
    .ok [← c.tray.vName t r]

/-- A register of the issuer is full. -/
def Ctx.isFull (c : Ctx) (r : RegName) : Bool :=
  if c.front then (c.team.front.reg r).full else (c.tray.reg r).full

/-- The 64 bits that a register name holds; only an f register has an upper half (R30). -/
def Ctx.raw (c : Ctx) (r : RegName) : DWord :=
  if c.front then (c.team.front.reg r).val else (c.tray.reg r).val.setWidth 64

/-- The registers a source names in a slot. -/
def Ctx.srcNames (c : Ctx) (x : Src) (t : Fin 32) : Except SlotCause (List RegName) :=
  match x with
  | .reg code n _ _ => c.names code n t
  | .imm _ => .ok []
  | .at_ code m => c.names code 1 (m t)

/-- The words of a source in a slot: its registers' low words, its constant, or its immediate (R28, R30, R75). -/
def Ctx.words (c : Ctx) (x : Src) (t : Fin 32) : List Word :=
  match x with
  | .imm v => [loWord v, hiWord v]
  | .reg code n _ k =>
    if 112 ≤ code.toNat then [k.word (code.toNat - 112)]
    else match c.names code n t with
      | .ok rs => if c.front && n == 2 then rs.flatMap fun r => [loWord (c.raw r), hiWord (c.raw r)] else rs.map fun r => loWord (c.raw r)
      | .error _ => []
  | .at_ code m =>
    match c.names code 1 (m t) with
    | .ok rs => rs.map fun r => loWord (c.raw r)
    | .error _ => []

/-- The 32-bit value of a source in a slot. -/
def Ctx.val (c : Ctx) (x : Src) (t : Fin 32) : Word := (c.words x t).headD 0

/-- The 64-bit value of a pair source in a slot (R27). -/
def Ctx.val64 (c : Ctx) (x : Src) (t : Fin 32) : DWord := dword ((c.words x t).getD 0 0) ((c.words x t).getD 1 0)

/-- Whether a source traps on an empty register (R45, R93). -/
def Ctx.traps (c : Ctx) (x : Src) : Bool :=
  match c.pfx.mod with
  | some m => if m.emp == 1 then true else if m.emp == 2 then false else (match x with | .reg _ _ t _ => t | _ => false)
  | none => match x with | .reg _ _ t _ => t | _ => false

/-- The smaller of two causes of one slot (R175). -/
def SlotCause.min (a : Option SlotCause) (b : SlotCause) : Option SlotCause :=
  match a with
  | some x => if x.code ≤ b.code then some x else some b
  | none => some b

/-- What a slot raises for its operands: the smallest of the causes of their names and of the empty sources that trap. -/
def Ctx.slotCause (c : Ctx) (r : Req) (t : Fin 32) : Option SlotCause :=
  let srcs := r.srcs.foldl (fun a x =>
    match c.srcNames x t with
    | .error e => SlotCause.min a e
    | .ok rs => if c.traps x && rs.any (fun n => !c.isFull n) then SlotCause.min a { code := 0x03 } else a) none
  (r.dsts ++ r.named.map fun x => (x, 1)).foldl (fun a (code, n) =>
    match c.names code n t with
    | .error e => SlotCause.min a e
    | .ok _ => a) srcs

/-- A slot waits: a source that does not trap or a destination is empty (R44, R46). -/
def Ctx.slotWaits (c : Ctx) (r : Req) (t : Fin 32) : Bool :=
  (r.srcs.any fun x => match c.srcNames x t with
    | .ok rs => rs.any fun n => !c.isFull n
    | .error _ => false) ||
  (r.dsts.any fun (code, n) => match c.names code n t with
    | .ok rs => rs.any fun m => !c.isFull m
    | .error _ => false)

/-- What a set of slots raises: nothing, a cause, or slots to clear (R77, R175). -/
inductive Verdict where
  | raise (f : Cause)
  | clear (m : BitVec 32)
  deriving DecidableEq, Repr

/-- The issuer's guard clears faults (R77). -/
def Ctx.clears (c : Ctx) : Bool := match c.pfx.guard with | some g => g.clear | none => false

/-- Judge the slots' causes: those a clear policy takes are cleared; of the others the smallest code is raised, FMASK shows
the slots that raised it, and the lowest of them gives the address and details (R77, R175). -/
def Ctx.judge (c : Ctx) (once : Bool) (slots : List (Fin 32)) (bad : Fin 32 → Option SlotCause) : Verdict :=
  let hard := slots.filterMap fun t => match bad t with
    | some x => if c.clears && clearable x.code then none else some (t, x)
    | none => none
  match hard with
  | [] => .clear (maskOf fun t => slots.contains t && (bad t).isSome)
  | (_, x) :: rest =>
    let code := rest.foldl (fun n y => Nat.min n y.2.code) x.code
    let m := maskOf fun t => hard.any fun y => y.1 == t && y.2.code == code
    match hard.find? fun y => y.2.code == code with
    | some y => .raise { code := code, mask := m, addr := y.2.addr, d0 := y.2.d0, d1 := y.2.d1, once := once }
    | none => .raise { code := code, mask := m, once := once }

/-- Clear slots: the guard register takes the disabling value in them, and they take no effect (R77). -/
def State.clearSlots (s : State) (c : Ctx) (m : BitVec 32) : State :=
  match c.pfx.guard with
  | some g => s.setPred c g.p m fun _ => g.neg
  | none => s

/-- Go on with the slots that raise nothing: take the exception, or clear and continue; with no slot left the group only
retires. An instruction that acts once has its one slot cleared for all; the cursors of the other slots advance. -/
def State.judged (s : State) (c : Ctx) (once : Bool) (slots : List (Fin 32)) (bad : Fin 32 → Option SlotCause)
    (k : Ctx → State → State) : State :=
  match c.judge once slots bad with
  | .raise f => s.raise c f
  | .clear m =>
    if m == 0 then k c s
    else if once then (s.clearSlots c m).retire { c with act := c.act &&& ~~~m }
    else
      let c' := { c with act := c.act &&& ~~~m }
      if c'.act == 0 then (s.clearSlots c m).retire c' else k c' (s.clearSlots c m)

/-- The slots whose operands an instruction uses. -/
def Ctx.slots (c : Ctx) (once : Bool) : List (Fin 32) := if once then [c.low] else maskSlots c.act

/-- As `judged`, for the causes of operands, which are looked at in every active slot even when the instruction acts once (R40,
R44, R45): a cleared slot is cleared for itself. -/
def State.judgedOps (s : State) (c : Ctx) (once : Bool) (bad : Fin 32 → Option SlotCause) (k : Ctx → State → State) : State :=
  match c.judge once (maskSlots c.act) bad with
  | .raise f => s.raise c f
  | .clear m =>
    if m == 0 then k c s
    else
      let c' := { c with act := c.act &&& ~~~m }
      if c'.act == 0 then (s.clearSlots c m).retire c' else k c' (s.clearSlots c m)

/-- A predicate that an outstanding guarded producer may still clear is not ready (R77). -/
def State.predsBusy (s : State) (c : Ctx) (ps : List (BitVec 3)) : Bool :=
  s.prods.any fun x => x.owner == c.owner && (match x.clear with | some (p, _) => ps.contains p | none => false)

/-- Operand codes of a request. -/
def Req.codes (r : Req) : List (BitVec 7) :=
  r.dsts.map (·.1) ++ r.srcs.filterMap fun x => match x with | .reg code _ _ _ => some code | _ => none

/-- The codes whose cursors advance (R40): a position that is both read and written advances its cursor once. -/
def Req.adv (r : Req) : List (BitVec 7) := (r.codes.filter fun x => 104 ≤ x.toNat && x.toNat < 112).foldr List.insert []

/-- A slot's sources can be read: each names registers, and they are full. -/
def Ctx.readable (c : Ctx) (r : Req) (t : Fin 32) : Bool :=
  r.srcs.all fun x => match c.srcNames x t with
    | .ok rs => rs.all c.isFull
    | .error _ => false

/-- What a slot raises: the smallest of its operands' causes and, once some slot's operands raise one, of the instruction's own
(R175). -/
def State.slotBad (s : State) (c : Ctx) (r : Req) (t : Fin 32) : Option SlotCause :=
  if (maskSlots c.act).any fun u => (c.slotCause r u).isSome then
    match (if c.readable r t && (!r.once || t == c.low) then r.own c s t else none) with
    | some e => SlotCause.min (c.slotCause r t) e
    | none => c.slotCause r t
  else none

/-- The number of the v register that a name is in the current frame. -/
def RegName.vNum : RegName → Option Nat
  | .base _ n => some n
  | .win _ _ n => some (32 + n)
  | .ext _ n => some (48 + n)
  | _ => Option.none

/-- The ranges that WAITNEs of a tray with an indirect destination keep pending (R42). -/
def Tray.pending (tr : Tray) : List (Nat × Nat) :=
  (tr.frontier ++ (match tr.trap with | some ts => ts.frontier | none => [])).filterMap fun e =>
    match e.wait with | .waitne _ _ _ _ range => range | _ => none

/-- A slot reads or writes a register that is pending (R42). -/
def Ctx.pendingHit (c : Ctx) (r : Req) (t : Fin 32) : Bool :=
  let hit (x : Except SlotCause (List RegName)) : Bool := match x with
    | .ok rs => rs.any fun n => match n.vNum with
      | some v => c.tray.pending.any fun p => p.1 ≤ v && v < p.1 + p.2
      | none => false
    | .error _ => false
  (r.srcs.any fun x => hit (c.srcNames x t)) || (r.dsts.any fun x => hit (c.names x.1 x.2 t)) ||
    r.named.any fun x => hit (c.names x 1 t)

/-- A group waits for its operands in some active slot (R42, R44, R46). -/
def Ctx.opsWait (c : Ctx) (r : Req) : Bool :=
  (maskSlots c.act).any fun t => c.slotWaits r t || (!c.front && !c.tray.pending.isEmpty && c.pendingHit r t)

/-- The registers that a group's sources name. -/
def Ctx.sources (c : Ctx) (r : Req) : List RegName :=
  (maskSlots c.act).flatMap fun t => r.srcs.flatMap fun x => match c.srcNames x t with | .ok rs => rs | .error _ => []

/-- The registers that a group's destinations name. -/
def Ctx.targets (c : Ctx) (r : Req) : List RegName :=
  (maskSlots c.act).flatMap fun t => r.dsts.flatMap fun x => match c.names x.1 x.2 t with | .ok rs => rs | .error _ => []

/-- A group reads tokens and result words for the first time (R225, R355, R392); one that it overwrites unread is lost. -/
def State.readTokens (s : State) (c : Ctx) (r : Req) : State :=
  if s.tokens.isEmpty then s
  else
    let own := s.tokens.filter (·.owner == c.owner)
    let srcs := c.sources r
    let s := (own.filter fun t => srcs.contains t.reg).foldl (fun s t => s.tokenRead c.owner c.act t.fruit) s
    let dsts := c.targets r
    { s with tokens := s.tokens.filter fun t => !(t.owner == c.owner && dsts.contains t.reg) }

/-- Issue a group: without an agent that can issue it stalls; with every slot guarded off it only retires; its operands
raise, wait or let the effect happen. The effect retires the group itself. -/
def State.run (s : State) (p : Pfx) (size : Nat) (r : Req) (k : Ctx → State → State) : State :=
  match s.issuer p size with
  | none => s.stall
  | some c0 =>
    if s.predsBusy c0 p.guards then s.stall
    else if c0.act == 0 then s.retire c0
    else
      let c := { c0 with adv := r.adv }
      if s.predsBusy c r.preds then s.stall
      else s.judgedOps c r.once (s.slotBad c r) fun c s =>
        if c.opsWait r then s.stall else k c (s.readTokens c r)

/-- The values that go into a destination: each active slot's into its own v registers, the lowest active slot's into s or f
registers (R29, R30). -/
def Ctx.writes (c : Ctx) (code : BitVec 7) (n : Nat) (v : Fin 32 → List Word) : List RegWrite :=
  let uniform := c.front || (64 ≤ code.toNat && code.toNat < 96)
  let slots := if uniform then [c.low] else maskSlots c.act
  slots.flatMap fun t =>
    match c.names code n t with
    | .error _ => []
    | .ok rs =>
      if c.front && n == 2 then rs.map fun r => { reg := r, val := (v t).getD 0 0, hi := (v t).getD 1 0 }
      else (rs.zip (v t)).map fun (r, w) => { reg := r, val := w, hi := 0 }

/-- Write a destination and retire: the instructions that write full at once (R107). -/
def State.finish (s : State) (c : Ctx) (code : BitVec 7) (n : Nat) (v : Fin 32 → List Word) : State :=
  (s.putRegs c.owner (c.writes code n v)).retire c

/-- Mark registers empty and leave their values with a new producer, which may need the responses of fabric accesses (R43). -/
def State.newProducer (s : State) (c : Ctx) (kind : ProdKind) (marks : List RegName) (ws : List RegWrite) (tags : List Nat) :
    Nat × State :=
  let (id, s) := s.fresh
  let s := s.markEmpty c.owner marks
  let pr : Producer :=
    { id := id, owner := c.owner, kind := kind, pc := c.ent.pc, size := c.size, mask := c.act, writes := ws, marks := marks, bad := [],
      tags := tags, adv := [],
      clear := match c.pfx.guard with | some g => if g.clear then some (g.p, g.neg) else none | none => none
      acquire := none }
  (id, { s with prods := s.prods ++ [pr] })

/-- Mark a destination empty, leave the values with a producer, and retire (R43). -/
def State.produce (s : State) (c : Ctx) (kind : ProdKind) (ws : List RegWrite) : State :=
  (s.newProducer c kind (ws.map (·.reg)) ws []).2.retire c

/-- A source in an immediate position: the immediate when IMM is present (R75). -/
def immOr (p : Pfx) (v : Word) (code : BitVec 7) (trap : Bool) (k : Konst) : Src :=
  match p.imm with
  | some _ => .imm (v.setWidth 64)
  | none => .reg code 1 trap k

end Sys2Proof.Machine
end

