-- ==== Sys2Proof/Machine/Flags.lean ====
section
/-!
DEFINITION. Machine/Flags.lean: the relations that write predicates (R110, R112, R121, R122), saturation (R108), and the
shapes shared by the per-thread instructions: a result per slot written full, a result left to a producer, a predicate.
-/

namespace Sys2Proof.Machine

/-- What a step answers. -/
abbrev Answer := Host.Outcome State Fault Refusal

/-- A word read as signed or unsigned. -/
def asInt (signed : Bool) (x : Word) : Int := if signed then x.toInt else x.toNat

/-- x clamped to lo..hi (R6). -/
def satInt (x lo hi : Int) : Int := if x < lo then lo else if hi < x then hi else x

/-- The signedness of A and B: the mnemonic's own unless SGNEN is set (R91, R108). -/
def signs (p : Pfx) (own : Bool) : Bool × Bool :=
  match p.mod with
  | some m => if m.sgnen then (m.sa, m.sb) else (own, own)
  | none => (own, own)

/-- An integer sum or difference narrowed: wrapped, or clamped under SAT to the signed range or, under .AU.BU, the unsigned
range (R108). -/
def narrow (p : Pfx) (wrapped : Word) (exact : Bool → Int) : Word :=
  match p.mod with
  | some m =>
    if m.sat then
      if m.sgnen && !m.sa then BitVec.ofInt 32 (satInt (exact false) 0 (2 ^ 32 - 1))
      else BitVec.ofInt 32 (satInt (exact true) (-(2 ^ 31)) (2 ^ 31 - 1))
    else wrapped
  | none => wrapped

/-- RND in force. -/
def Ctx.rnd (c : Ctx) : Rnd := match c.pfx.mod with | some m => Rnd.of m.rnd | none => .rn

/-- FTZ in force. -/
def Ctx.ftz (c : Ctx) : Bool := match c.pfx.mod with | some m => m.ftz | none => false

/-- SAT in force. -/
def Ctx.sat (c : Ctx) : Bool := match c.pfx.mod with | some m => m.sat | none => false

/-- An FP32 operand. -/
def Ctx.f32 (c : Ctx) (x : Word) : FVal := Fmt.f32.decode c.ftz x.toNat

/-- An FP32 result, rounded once (R99, R100). -/
def Ctx.round32 (c : Ctx) (v : FVal) : Word := w32 (Fmt.f32.round c.rnd c.ftz c.sat v)

/-- A per-thread instruction that computes one word in each slot and writes it full at once (R107). -/
def State.alu (s : State) (p : Pfx) (size : Nat) (srcs : List Src) (d : BitVec 7) (f : Ctx → Fin 32 → Word) : Answer :=
  .next (s.run p size { srcs := srcs, dsts := [(d, 1)] } fun c s => s.finish c d 1 fun t => [f c t])

/-- As `alu`, for a 64-bit result in a pair. -/
def State.aluPair (s : State) (p : Pfx) (size : Nat) (srcs : List Src) (d : BitVec 7) (f : Ctx → Fin 32 → DWord) : Answer :=
  .next (s.run p size { srcs := srcs, dsts := [(d, 2)] } fun c s =>
    s.finish c d 2 fun t => [loWord (f c t), hiWord (f c t)])

/-- A long-latency instruction: the destination is marked empty and a producer holds the result (R43, R107). -/
def State.long (s : State) (p : Pfx) (size : Nat) (srcs : List Src) (d : BitVec 7) (n : Nat)
    (f : Ctx → Fin 32 → List Word) : Answer :=
  .next (s.run p size { srcs := srcs, dsts := [(d, n)] } fun c s => s.produce c .long (c.writes d n (f c)))

/-- An instruction that writes a predicate in each active slot. -/
def State.setp (s : State) (p : Pfx) (size : Nat) (srcs : List Src) (ps : List (BitVec 3)) (pd : BitVec 3)
    (f : Ctx → Fin 32 → Bool) : Answer :=
  .next (s.run p size { srcs := srcs, preds := pd :: ps } fun c s => (s.setPred c pd c.act (f c)).retire c)

/-- A two-source instruction of layout F3 with an integer B that IMM may replace. -/
def State.int2 (s : State) (p : Pfx) (f : F3) (op : Word → Word → Word) : Answer :=
  let a : Src := .reg f.a 1 f.ta .int
  let b := immOr p p.immS f.b f.tb .int
  s.alu p (groupSize p) [a, b] f.d fun c t => op (c.val a t) (c.val b t)

/-- A one-source integer instruction. -/
def State.int1 (s : State) (p : Pfx) (f : F3A) (op : Word → Word) : Answer :=
  let a : Src := .reg f.a 1 f.ta .int
  s.alu p (groupSize p) [a] f.d fun c t => op (c.val a t)

/-- An integer compare (R110). -/
def State.icmp (s : State) (p : Pfx) (f : FCmp) (rel : Word → Word → Bool) : Answer :=
  let a : Src := .reg f.a 1 f.ta .int
  let b := immOr p p.immS f.b f.tb .int
  s.setp p (groupSize p) [a, b] [] f.p fun c t => rel (c.val a t) (c.val b t)

/-- A two-source FP32 instruction; the operation gives the exact value, rounded once (R99). -/
def State.fp2 (s : State) (p : Pfx) (f : F3) (op : Rnd → FVal → FVal → FVal) : Answer :=
  let a : Src := .reg f.a 1 f.ta .f32
  let b := immOr p p.immF f.b f.tb .f32
  s.alu p (groupSize p) [a, b] f.d fun c t => c.round32 (op c.rnd (c.f32 (c.val a t)) (c.f32 (c.val b t)))

/-- A fused FP32 instruction that also reads its destination (R117). -/
def State.fp3 (s : State) (p : Pfx) (f : F3) (op : Rnd → FVal → FVal → FVal → FVal) : Answer :=
  let a : Src := .reg f.a 1 f.ta .f32
  let b := immOr p p.immF f.b f.tb .f32
  let d : Src := .reg f.d 1 false .f32
  s.alu p (groupSize p) [a, b, d] f.d fun c t =>
    c.round32 (op c.rnd (c.f32 (c.val a t)) (c.f32 (c.val b t)) (c.f32 (c.val d t)))

/-- An FP32 compare (R121): the relation is told the sign of a − b, none when an operand is NaN. -/
def State.fcmp (s : State) (p : Pfx) (f : FCmp) (rel : Option Int → Bool) : Answer :=
  let a : Src := .reg f.a 1 f.ta .f32
  let b := immOr p p.immF f.b f.tb .f32
  s.setp p (groupSize p) [a, b] [] f.p fun c t => rel ((c.f32 (c.val a t)).cmp (c.f32 (c.val b t)))

/-- A special function of major 11 (R123): rounded to nearest even, left to a producer. -/
def State.sfu (s : State) (p : Pfx) (f : F3A) (fn : FVal → FVal) : Answer :=
  let a : Src := .reg f.a 1 f.ta .f32
  s.long p (groupSize p) [a] f.d 1 fun c t => [w32 (Fmt.f32.round .rn c.ftz false (fn (c.f32 (c.val a t))))]

/-- One half of a packed word. -/
def half (w : Word) (h : Nat) : Nat := w.toNat / 2 ^ (16 * h) % 65536

/-- A packed half instruction (R124): the operation gives the bits of half h from the halves of the sources. -/
def State.packed (s : State) (p : Pfx) (f : F3) (k : Konst) (third : Bool) (op : Ctx → Nat → Nat → Nat → Nat) : Answer :=
  let a : Src := .reg f.a 1 f.ta k
  let b := immOr p p.immH f.b f.tb k
  let d : Src := .reg f.d 1 false k
  s.alu p (groupSize p) (if third then [a, b, d] else [a, b]) f.d fun c t =>
    let h (i : Nat) := op c (half (c.val a t) i) (half (c.val b t) i) (if third then half (c.val d t) i else 0)
    w32 (h 0 + 65536 * h 1)

/-- The class word of a value in a format (R122). -/
def fclassBits (f : Fmt) (bits : Nat) : Nat :=
  let neg := bits / f.sign % 2 == 1
  match f.decode false bits with
  | .nan => if f.e4m3 || bits / 2 ^ (f.fbits - 1) % 2 == 1 then 2 ^ 9 else 2 ^ 8
  | .inf n => if n then 1 else 2 ^ 7
  | .fin _ m _ =>
    if m == 0 then (if neg then 2 ^ 3 else 2 ^ 4)
    else if m < 2 ^ f.fbits then (if neg then 2 ^ 2 else 2 ^ 5)
    else if neg then 2 ^ 1 else 2 ^ 6

/-- FMT's floating-point formats (R78): F32 by default. -/
def fmtOf (x : BitVec 4) : Fmt :=
  match x.toNat with
  | 8 => .f16
  | 9 => .bf16
  | 10 => .e4
  | 11 => .e5
  | _ => .f32

/-- FMT's integer formats (R95): bits and signedness, SI32 by default. -/
def ifmtOf (x : BitVec 4) : Nat × Bool :=
  match x.toNat with
  | 2 => (32, false)
  | 3 => (8, true)
  | 4 => (8, false)
  | 5 => (4, true)
  | 6 => (4, false)
  | _ => (32, true)

/-- The low bits of a word in a format. -/
def Fmt.low (f : Fmt) (w : Word) : Nat := w.toNat % (2 * f.sign)

/-- FMT in force. -/
def Ctx.fmt (c : Ctx) : BitVec 4 := match c.pfx.mod with | some m => m.fmt | none => 0

end Sys2Proof.Machine
end

