-- ==== Sys2Proof/Machine/Arith.lean ====
section
/-!
DEFINITION. Machine/Arith.lean: majors 0 to 7 and 16: integers, compares, select, predicates, immediates, packed integers
(R108 to R113, R130).
-/

namespace Sys2Proof.Machine

/-- ADD (R108). -/
def execAdd (p : Pfx) (f : F3) (s : State) : Answer :=
  s.int2 p f fun a b => narrow p (a + b) fun g => asInt g a + asInt g b
/-- SUB (R108). -/
def execSub (p : Pfx) (f : F3) (s : State) : Answer :=
  s.int2 p f fun a b => narrow p (a - b) fun g => asInt g a - asInt g b
/-- MUL (R108). -/
def execMul (p : Pfx) (f : F3) (s : State) : Answer := s.int2 p f fun a b => a * b

/-- The high word of the exact product (R108). -/
def mulHigh (p : Pfx) (own : Bool) (a b : Word) : Word :=
  BitVec.ofInt 32 (asInt (signs p own).1 a * asInt (signs p own).2 b / 2 ^ 32)
/-- MULH (R108). -/
def execMulh (p : Pfx) (f : F3) (s : State) : Answer := s.int2 p f (mulHigh p true)
/-- MULHU (R108). -/
def execMulhu (p : Pfx) (f : F3) (s : State) : Answer := s.int2 p f (mulHigh p false)

/-- The smaller or larger operand, bit for bit, a when equal (R108). -/
def pickInt (p : Pfx) (own max : Bool) (a b : Word) : Word :=
  let x := asInt (signs p own).1 a
  let y := asInt (signs p own).2 b
  if x = y then a else if (x < y) != max then a else b
/-- MIN (R108). -/
def execMin (p : Pfx) (f : F3) (s : State) : Answer := s.int2 p f (pickInt p true false)
/-- MAX (R108). -/
def execMax (p : Pfx) (f : F3) (s : State) : Answer := s.int2 p f (pickInt p true true)
/-- MINU (R108). -/
def execMinu (p : Pfx) (f : F3) (s : State) : Answer := s.int2 p f (pickInt p false false)
/-- MAXU (R108). -/
def execMaxu (p : Pfx) (f : F3) (s : State) : Answer := s.int2 p f (pickInt p false true)

/-- Quotient toward zero and remainder with the sign of A; B = 0 gives all ones and a (R109). -/
def divRem (p : Pfx) (own : Bool) (a b : Word) : Word × Word :=
  let x := asInt (signs p own).1 a
  let y := asInt (signs p own).2 b
  if y = 0 then (0xFFFFFFFF#32, a) else (BitVec.ofInt 32 (x.tdiv y), BitVec.ofInt 32 (x - x.tdiv y * y))

/-- A division instruction: d is marked empty (R107, R109). -/
def State.divide (s : State) (p : Pfx) (f : F3) (op : Word → Word → Word) : Answer :=
  let a : Src := .reg f.a 1 f.ta .int
  let b := immOr p p.immS f.b f.tb .int
  s.long p (groupSize p) [a, b] f.d 1 fun c t => [op (c.val a t) (c.val b t)]
/-- DIV (R109). -/
def execDiv (p : Pfx) (f : F3) (s : State) : Answer := s.divide p f fun a b => (divRem p true a b).1
/-- DIVU (R109). -/
def execDivu (p : Pfx) (f : F3) (s : State) : Answer := s.divide p f fun a b => (divRem p false a b).1
/-- REM (R109). -/
def execRem (p : Pfx) (f : F3) (s : State) : Answer := s.divide p f fun a b => (divRem p true a b).2
/-- REMU (R109). -/
def execRemu (p : Pfx) (f : F3) (s : State) : Answer := s.divide p f fun a b => (divRem p false a b).2

/-- AND (R108). -/
def execAnd (p : Pfx) (f : F3) (s : State) : Answer := s.int2 p f fun a b => a &&& b
/-- OR (R108). -/
def execOr (p : Pfx) (f : F3) (s : State) : Answer := s.int2 p f fun a b => a ||| b
/-- XOR (R108). -/
def execXor (p : Pfx) (f : F3) (s : State) : Answer := s.int2 p f fun a b => a ^^^ b
/-- ANDN (R108). -/
def execAndn (p : Pfx) (f : F3) (s : State) : Answer := s.int2 p f fun a b => a &&& ~~~b
/-- SHL (R108). -/
def execShl (p : Pfx) (f : F3) (s : State) : Answer := s.int2 p f fun a b => a <<< (b.toNat % 32)
/-- SHR (R108). -/
def execShr (p : Pfx) (f : F3) (s : State) : Answer := s.int2 p f fun a b => a >>> (b.toNat % 32)
/-- SRA (R108). -/
def execSra (p : Pfx) (f : F3) (s : State) : Answer := s.int2 p f fun a b => a.sshiftRight (b.toNat % 32)
/-- ROL (R108). -/
def execRol (p : Pfx) (f : F3) (s : State) : Answer := s.int2 p f fun a b => a.rotateLeft (b.toNat % 32)
/-- ROR (R108). -/
def execRor (p : Pfx) (f : F3) (s : State) : Answer := s.int2 p f fun a b => a.rotateRight (b.toNat % 32)

/-- The one bits of a word among its low n (R108). -/
def popBits (a : Word) : Nat → Nat
  | 0 => 0
  | n + 1 => popBits a n + (a.getLsbD n).toNat
/-- Zero bits of a word from bit n − 1 down to its first one bit (R108). -/
def leadZeros (a : Word) : Nat → Nat
  | 0 => 0
  | n + 1 => if a.getLsbD n then 0 else 1 + leadZeros a n
/-- Zero bits of a word from bit 32 − n up to its first one bit (R108). -/
def trailZeros (a : Word) : Nat → Nat
  | 0 => 0
  | n + 1 => if a.getLsbD (31 - n) then 0 else 1 + trailZeros a n
/-- BCNT (R108). -/
def execBcnt (p : Pfx) (f : F3A) (s : State) : Answer := s.int1 p f fun a => w32 (popBits a 32)
/-- CLZ (R108). -/
def execClz (p : Pfx) (f : F3A) (s : State) : Answer := s.int1 p f fun a => w32 (leadZeros a 32)
/-- CTZ (R108). -/
def execCtz (p : Pfx) (f : F3A) (s : State) : Answer := s.int1 p f fun a => w32 (trailZeros a 32)
/-- BITREV (R108). -/
def execBitrev (p : Pfx) (f : F3A) (s : State) : Answer := s.int1 p f fun a => a.reverse

/-- CMPEQ (R110). -/
def execCmpeq (p : Pfx) (f : FCmp) (s : State) : Answer := s.icmp p f fun a b => a == b
/-- CMPNE (R110). -/
def execCmpne (p : Pfx) (f : FCmp) (s : State) : Answer := s.icmp p f fun a b => a != b
/-- a < b under the signedness in force (R110). -/
def lessThan (p : Pfx) (own : Bool) (a b : Word) : Bool := asInt (signs p own).1 a < asInt (signs p own).2 b
/-- a ≤ b under the signedness in force (R110). -/
def lessEq (p : Pfx) (own : Bool) (a b : Word) : Bool := asInt (signs p own).1 a ≤ asInt (signs p own).2 b
/-- CMPLT (R110). -/
def execCmplt (p : Pfx) (f : FCmp) (s : State) : Answer := s.icmp p f (lessThan p true)
/-- CMPLE (R110). -/
def execCmple (p : Pfx) (f : FCmp) (s : State) : Answer := s.icmp p f (lessEq p true)
/-- CMPLTU (R110). -/
def execCmpltu (p : Pfx) (f : FCmp) (s : State) : Answer := s.icmp p f (lessThan p false)
/-- CMPLEU (R110). -/
def execCmpleu (p : Pfx) (f : FCmp) (s : State) : Answer := s.icmp p f (lessEq p false)

/-- SEL (R111). -/
def execSel (p : Pfx) (f : FSel) (s : State) : Answer :=
  let a : Src := .reg f.a 1 f.ta .int
  let b := immOr p p.immS f.b f.tb .int
  .next (s.run p (groupSize p) { srcs := [a, b], dsts := [(f.d, 1)], preds := [f.n] } fun c s =>
    s.finish c f.d 1 fun t => [if c.pred f.n t then c.val a t else c.val b t])

/-- PAND (R112). -/
def execPand (p : Pfx) (f : FPP) (s : State) : Answer :=
  s.setp p (groupSize p) [] [f.pa, f.pb] f.p fun c t => c.pred f.pa t && c.pred f.pb t
/-- POR (R112). -/
def execPor (p : Pfx) (f : FPP) (s : State) : Answer :=
  s.setp p (groupSize p) [] [f.pa, f.pb] f.p fun c t => c.pred f.pa t || c.pred f.pb t
/-- PXOR (R112). -/
def execPxor (p : Pfx) (f : FPP) (s : State) : Answer :=
  s.setp p (groupSize p) [] [f.pa, f.pb] f.p fun c t => c.pred f.pa t != c.pred f.pb t
/-- PNOT (R112). -/
def execPnot (p : Pfx) (f : FPA) (s : State) : Answer :=
  s.setp p (groupSize p) [] [f.pa] f.p fun c t => !c.pred f.pa t
/-- PFROM (R112). -/
def execPfrom (p : Pfx) (f : FPF) (s : State) : Answer :=
  let a : Src := .reg f.a 1 f.ta .int
  s.setp p (groupSize p) [a] [] f.p fun c t => c.val a t != 0
/-- PTO (R112). -/
def execPto (p : Pfx) (f : FDP) (s : State) : Answer :=
  .next (s.run p (groupSize p) { dsts := [(f.d, 1)], preds := [f.pa] } fun c s =>
    s.finish c f.d 1 fun t => [if c.pred f.pa t then 1 else 0])

/-- The immediate of MOVI and ADDI: signed {IMM, imm8} (R105). -/
def immFI (p : Pfx) (imm8 : BitVec 8) : Word :=
  match p.imm with
  | some i => (i ++ imm8 : BitVec (23 + 8)).signExtend 32
  | none => imm8.signExtend 32
/-- The immediate of the logic forms: unsigned {IMM, imm8} (R105). -/
def immFIU (p : Pfx) (imm8 : BitVec 8) : Word :=
  match p.imm with
  | some i => (i ++ imm8 : BitVec (23 + 8)).setWidth 32
  | none => imm8.setWidth 32
/-- An FI instruction (R113). -/
def State.fi (s : State) (p : Pfx) (f : FI) (op : Word → Word) : Answer :=
  let a : Src := .reg f.a 1 f.ta .int
  s.alu p (groupSize p) [a] f.d fun c t => op (c.val a t)
/-- MOVI (R113). -/
def execMovi (p : Pfx) (f : FMovi) (s : State) : Answer := s.alu p (groupSize p) [] f.d fun _ _ => immFI p f.imm
/-- ADDI (R113). -/
def execAddi (p : Pfx) (f : FI) (s : State) : Answer :=
  s.fi p f fun a => narrow p (a + immFI p f.imm) fun _ => a.toInt + (immFI p f.imm).toInt
/-- SHLI (R113). -/
def execShli (p : Pfx) (f : FI) (s : State) : Answer := s.fi p f fun a => a <<< (f.imm.toNat % 32)
/-- SHRI (R113). -/
def execShri (p : Pfx) (f : FI) (s : State) : Answer := s.fi p f fun a => a >>> (f.imm.toNat % 32)
/-- ANDI (R113). -/
def execAndi (p : Pfx) (f : FI) (s : State) : Answer := s.fi p f fun a => a &&& immFIU p f.imm
/-- ORI (R113). -/
def execOri (p : Pfx) (f : FI) (s : State) : Answer := s.fi p f fun a => a ||| immFIU p f.imm
/-- XORI (R113). -/
def execXori (p : Pfx) (f : FI) (s : State) : Answer := s.fi p f fun a => a ^^^ immFIU p f.imm

/-- Element i of a word, n bits wide, read as signed or unsigned (R95). -/
def element (w : Word) (n i : Nat) (signed : Bool) : Int :=
  let x := w.toNat / 2 ^ (n * i) % 2 ^ n
  if signed && x ≥ 2 ^ (n - 1) then (x : Int) - 2 ^ n else x
/-- The exact sum of the products of the first k elements of n bits (R130). -/
def dotSum (p : Pfx) (a b : Word) (n : Nat) : Nat → Int
  | 0 => 0
  | k + 1 => dotSum p a b n k + element a n k (signs p true).1 * element b n k (signs p true).2
/-- IDOT4 and IDOT8: d plus the sum of products, wrapping; d is read too (R130). -/
def State.idot (s : State) (p : Pfx) (f : F3) (n k : Nat) : Answer :=
  let a : Src := .reg f.a 1 f.ta .int
  let b := immOr p p.immS f.b f.tb .int
  let d : Src := .reg f.d 1 false .int
  s.alu p (groupSize p) [a, b, d] f.d fun c t => c.val d t + BitVec.ofInt 32 (dotSum p (c.val a t) (c.val b t) n k)
/-- IDOT4 (R130). -/
def execIdot4 (p : Pfx) (f : F3) (s : State) : Answer := s.idot p f 8 4
/-- IDOT8 (R130). -/
def execIdot8 (p : Pfx) (f : F3) (s : State) : Answer := s.idot p f 4 8
/-- Byte i of BPERM's result (R130). -/
def permByte (a b : Word) (i : Nat) : Nat :=
  let k := b.toNat / 2 ^ (4 * i) % 8
  if k < 4 then a.toNat / 2 ^ (8 * k) % 256 else 0
/-- BPERM (R130). -/
def execBperm (p : Pfx) (f : F3) (s : State) : Answer :=
  s.int2 p f fun a b => w32 (permByte a b 0 + 2 ^ 8 * permByte a b 1 + 2 ^ 16 * permByte a b 2 + 2 ^ 24 * permByte a b 3)
/-- SEXT8 (R130). -/
def execSext8 (p : Pfx) (f : F3A) (s : State) : Answer := s.int1 p f fun a => (a.extractLsb' 0 8).signExtend 32
/-- SEXT16 (R130). -/
def execSext16 (p : Pfx) (f : F3A) (s : State) : Answer := s.int1 p f fun a => (a.extractLsb' 0 16).signExtend 32

/-! Compact forms (R72, R132): the 32-bit effect with no prefix and no trap bit. -/

/-- A compact register form: d := op d b. -/
def State.compact (s : State) (f : CReg) (k : Konst) (op : Ctx → Word → Word → Word) : Answer :=
  let d : Src := .reg (f.d.setWidth 7) 1 false k
  let b : Src := .reg (CReg.code f) 1 false k
  s.alu Pfx.empty 2 [d, b] (f.d.setWidth 7) fun c t => op c (c.val d t) (c.val b t)
/-- A compact immediate form: d := op d. -/
def State.compactImm (s : State) (f : CImm) (op : Word → Word) : Answer :=
  let d : Src := .reg (f.d.setWidth 7) 1 false .int
  s.alu Pfx.empty 2 [d] (f.d.setWidth 7) fun c t => op (c.val d t)
/-- MOV (R132). -/
def execMov (f : CReg) (s : State) : Answer :=
  let b : Src := .reg (CReg.code f) 1 false .int
  s.alu Pfx.empty 2 [b] (f.d.setWidth 7) fun c t => c.val b t
/-- Compact ADD (R72). -/
def execAddC (f : CReg) (s : State) : Answer := s.compact f .int fun _ a b => a + b
/-- Compact SUB (R72). -/
def execSubC (f : CReg) (s : State) : Answer := s.compact f .int fun _ a b => a - b
/-- Compact AND (R72). -/
def execAndC (f : CReg) (s : State) : Answer := s.compact f .int fun _ a b => a &&& b
/-- Compact OR (R72). -/
def execOrC (f : CReg) (s : State) : Answer := s.compact f .int fun _ a b => a ||| b
/-- Compact XOR (R72). -/
def execXorC (f : CReg) (s : State) : Answer := s.compact f .int fun _ a b => a ^^^ b
/-- Compact SHLI (R72). -/
def execShliC (f : CImm) (s : State) : Answer := s.compactImm f fun a => a <<< (f.imm.toNat % 32)
/-- Compact SHRI (R72). -/
def execShriC (f : CImm) (s : State) : Answer := s.compactImm f fun a => a >>> (f.imm.toNat % 32)
/-- Compact ADDI (R72). -/
def execAddiC (f : CImm) (s : State) : Answer := s.compactImm f fun a => a + f.imm.signExtend 32
/-- Compact MOVI (R72). -/
def execMoviC (f : CImm) (s : State) : Answer := s.alu Pfx.empty 2 [] (f.d.setWidth 7) fun _ _ => f.imm.signExtend 32
/-- Compact FADD (R72). -/
def execFaddC (f : CReg) (s : State) : Answer := s.compact f .f32 fun c a b => c.round32 ((c.f32 a).add .rn (c.f32 b))
/-- Compact FSUB (R72). -/
def execFsubC (f : CReg) (s : State) : Answer := s.compact f .f32 fun c a b => c.round32 ((c.f32 a).add .rn (c.f32 b).neg)
/-- Compact FMUL (R72). -/
def execFmulC (f : CReg) (s : State) : Answer := s.compact f .f32 fun c a b => c.round32 ((c.f32 a).mul (c.f32 b))
/-- Compact FMAX (R72). -/
def execFmaxC (f : CReg) (s : State) : Answer :=
  s.compact f .f32 fun _ a b => w32 (Fmt.f32.pick false true a.toNat b.toNat)

end Sys2Proof.Machine
end

