-- ==== Sys2Proof/Machine/Parity.lean ====
section
/-!
DEFINITION. Machine/Parity.lean: parity groups and the write-back of protected sectors (R379 to R381), the acknowledgements
that a release at FAB scope waits for (R241), and the part of a survivable release that a thread waits for (R157, R243).
-/

namespace Sys2Proof.Machine

/-- A parity group record (R379). -/
structure ParityGroup where
  n : Nat
  rank : Nat
  state : Nat
  pbase : Nat
  stripes : Nat
  qbase : Nat
  members : List Nat
  deriving DecidableEq, Repr

/-- The group record of a partition, none when PGROUP is 0 (R379, R386). -/
def State.pgroup? (s : State) (p : Partition) : Option ParityGroup :=
  if p.pgroup == 0 then none
  else
    let at_ (o n : Nat) := leNat (s.mem.readN (p.pgroup + o) n)
    some
      { n := at_ 0 1, rank := at_ 1 1, state := at_ 2 1, pbase := at_ 8 8, stripes := at_ 16 8, qbase := at_ 24 8,
        members := (List.range 16).map fun m => at_ (32 + m) 1 }

/-- The member that holds the parity of a member's stripe (R380). -/
def ParityGroup.holder (g : ParityGroup) (m stripe : Nat) : Nat := (m + 1 + stripe % (g.n - 1)) % g.n

/-- The partition that holds a frame. -/
def State.partOfFrame (s : State) (frame : Nat) : Option Partition :=
  s.pkg.parts.find? fun p => p.hbm.any fun r => r.1 ≤ frame && frame < r.1 + r.2

/-- The XOR of two byte lists. -/
def xorBytes (a b : List Byte) : List Byte := (a.zip b).map fun (x, y) => x ^^^ y

/-- Write back one dirty protected sector: a pinned one reaches its frame (R195), its delta goes to the parity holder, and each of
its writers is owed the acknowledgement (R381). The cause where the sector lies outside the range (0x09), or where there is no
group or no way to the holder (0x16): the holder then still knows the old bytes only. -/
def State.writeBack (s : State) (sec : Nat) (old : List Byte) (ps : List Party) : Except Nat State :=
  match s.partOfFrame (sec / 512) with
  | none => .error 0x16
  | some p =>
    match s.pgroup? p with
    | none => .error 0x16
    | some g =>
      if sec / 512 < g.pbase || g.pbase + g.stripes ≤ sec / 512 then .error 0x09
      else
        let stripe := sec / 512 - g.pbase
        let peer := g.members.getD (g.holder g.rank stripe) 0
        if s.route peer == Route.unreachable then .error 0x16
        else
          let (tag, s) := s.fresh
          let new := s.seen [] (s.physLoc (sec * 128)) 128
          let s : State := { s with mem := s.mem.writeN (sec * 128) new }
          let d : Delta :=
            { part := p.id, src := s.pkg.fabno.toNat, tag := tag, stripe := stripe, off := sec % 512 * 128,
              xor := xorBytes old new }
          let s := s.sendOut peer 2 fun h hop => .delta h hop d
          .ok
            { s with
              hubDirty := s.hubDirty.filter (· != sec / 8)
              fab := { s.fab with
                dirty := s.fab.dirty.filter (·.1 != sec)
                deltas := s.fab.deltas ++ ps.map fun o => (tag, o, p.id, stripe, peer) } }

/-- Write back every dirty protected sector that an owner wrote; the first cause met, if any (R243). -/
def State.writeBackAll (s : State) (mine : List Party → Bool) : Except Nat State :=
  (s.fab.dirty.filter fun x => mine x.2.2).foldlM (fun s x => s.writeBack x.1 x.2.1 x.2.2) s

/-- The context and address by which a frame is reached: its canonical name, else a home-table entry's (R198, R199). -/
def State.nameOf (s : State) (frame : Nat) : Option (Nat × DWord) :=
  match s.remapFilt.find? (·.frame == frame) with
  | some r => some (r.ctx, BitVec.ofNat 64 (r.page * 65536))
  | none =>
    (s.homeTab.find? fun h => h.valid && h.frame ≤ frame && frame < h.frame + h.pages).map fun h =>
      (h.ctx, BitVec.ofNat 64 (h.base + (frame - h.frame) * 65536))

/-- Write back dirty protected sectors when no instruction asks for it: at a quiesce, when a range is unpinned, when a die goes
offline. A sector outside the group's range reaches its frame with cause 0x09 in a record of its context (R379); one whose delta
finds no way to its holder reaches its frame and stays dirty for the parity (R381, log 62). -/
def State.writeBackFor (s : State) (mine : Nat → Bool) : State :=
  (s.fab.dirty.filter fun x => mine x.1).foldl (fun s x =>
    match s.writeBack x.1 x.2.1 x.2.2 with
    | .ok t => t
    | .error code =>
      let s : State := { s with mem := s.mem.writeN (x.1 * 128) (s.seen [] (s.physLoc (x.1 * 128)) 128) }
      if code != 0x09 then s
      else
        let s : State := { s with fab := { s.fab with dirty := s.fab.dirty.filter (·.1 != x.1) } }
        match s.nameOf (x.1 / 512) with
        | some (ctx, va) => s.record ctx { cause := 0x09, addr := va + BitVec.ofNat 64 (x.1 % 512 * 128) }
        | none => s) s

/-- A fabric access changes its location. -/
def ordered : FabOp → Bool
  | .write _ | .atomic .. | .increment => true
  | _ => false

/-- A write at a peer that a release on something by the issuer waits for: it is under way, and it is the issuer's own, or counts as
its own, or the issuer carries it for this release (R231, R239, R241, R392). -/
def State.ackDue (s : State) (c : Ctx) (g : Guard) (f : FabAccess) : Bool :=
  ordered f.op &&
    ((f.owner == c.owner && f.use == FabUse.store) || s.past.any fun e => e.tag == f.tag && e.mine g c.owner c.act)

/-- Wait at FAB scope for the acknowledgements of the covered writes, then go on; after FABTO that raises 0x10 (R241, R378). -/
def State.afterAcks (s : State) (c : Ctx) (once : Bool) (g : Guard) (cover : BitVec 64 → Bool) (k : State → State) : State :=
  match s.fab.flights.find? fun f => s.ackDue c g f && cover f.va with
  | none => k s
  | some f =>
    if c.fabricOver s then
      s.judged c once (c.slots once)
        (fun _ => some { code := 0x10, addr := f.va, d0 := BitVec.ofNat 64 (f.peer * 2 ^ 32) }) fun _ s => s.stall
    else s.pollFabric c

/-- The issuer's partition has a parity group that is not complete (R243, R382). -/
def State.groupBroken (s : State) (c : Ctx) : Bool :=
  match s.part? c.cx.part with
  | some p => (match s.pgroup? p with | some g => g.state != 0 | none => false)
  | none => false

/-- The survivable part of a release in version 0: write back the issuer's dirty protected sectors, and wait until the
parity holders have acknowledged them; cause 0x16 when that cannot be (R157, R243). -/
def State.survive (s : State) (c : Ctx) (k : State → State) : State :=
  if c.ver != 0 then k s
  else if s.groupBroken c then s.raise c { code := 0x16, mask := c.act }
  else match s.writeBackAll fun ps => ps.any fun p => p.meets c.owner (BitVec.allOnes 32) with
    | .error code => s.raise c { code := code, mask := c.act }
    | .ok s =>
      if !(s.fab.deltas.any fun d => d.2.1.meets c.owner (BitVec.allOnes 32)) then k s
      else if c.fabricOver s then s.raise c { code := 0x16, mask := c.act }
      else s.pollFabric c

end Sys2Proof.Machine
end

