-- ==== Sys2Proof/Machine/LoadStore.lean ====
section
/-!
DEFINITION. Machine/LoadStore.lean: majors 18 to 20, the loads, stores and atomics (R191, R201 to R206), with the fabric
accesses that they make (R319, R370, R375) and the compact load and store (R73).
-/

namespace Sys2Proof.Machine

/-- Where a slot's access goes. -/
structure Hit where
  slot : Fin 32
  loc : Loc
  attr : Attr
  va : DWord
  deriving DecidableEq, Repr

/-- The version lines that a context holds, a peer's versions' in it included (R319). -/
def State.linesOf (s : State) (ctx : Nat) : Nat :=
  (s.vlines.filter fun x => match x.key with | .here i _ => i == ctx | .remote i _ => i == ctx).length

/-- The 1 KiB lines of a partition's pinned HOME 10 ranges, which count against its L2 quota (R195). -/
def State.hubPinned (s : State) (part : Nat) : Nat :=
  ((s.homeTab.filter fun (h : HomeEntry) => h.valid && h.home == 2 && (match s.ctx? h.ctx with | some c => c.part == part | none => false)).map
    fun (h : HomeEntry) => h.pages * 64).sum

/-- There is room for n more version lines of a context: what the partition's contexts hold beyond their backing areas fits into its
L2 quota beside what is pinned there (R319, R386, log 21). -/
def State.lineRoom (s : State) (cx : Context) (n : Nat) : Bool :=
  match s.part? cx.part with
  | none => false
  | some p =>
    let excess (c : Context) : Nat := s.linesOf c.id + (if c.id == cx.id then n else 0) - 8192 * c.vback
    ((s.ctxs.filter (·.part == cx.part)).map excess).sum ≤ 8192 * p.l2q - 8 * s.hubPinned p.id

/-- The sectors of which a version of the keys has no line yet, among places that it writes. -/
def State.newLines (s : State) (keys : List VKey) (ls : List (Loc × Attr)) : List Loc :=
  match keys with
  | k :: _ => ((ls.filter fun x => x.2.vers && (s.vline? k x.1.sector).isNone).map fun x => x.1.sector).eraseDups
  | [] => []

/-- The places of a version's write, in the order in which they are written, that find no room for a new line (R319). -/
def State.lineless (s : State) (cx : Context) (keys : List VKey) (ls : List (Loc × Attr)) : List Loc :=
  let fresh := s.newLines keys ls
  if s.lineRoom cx fresh.length then []
  else ((List.range fresh.length).zip fresh).filterMap fun (i, l) => if s.lineRoom cx (i + 1) then none else some l

/-- A write of a version makes a new version line that no room is left for (R319). -/
def State.lineFull (s : State) (cx : Context) (keys : List VKey) (l : Loc) (a : Attr) : Bool :=
  !(s.lineless cx keys [(l, a)]).isEmpty

/-- Cause 0x10 at an address, with its peer (R174). -/
def unreachable (va : DWord) : SlotCause := { code := 0x10, addr := va, d0 := BitVec.ofNat 64 (va.toNat / 2 ^ 52 % 16 * 2 ^ 32) }

/-- A cause at a peer's address (R174). -/
def atPeer (code : Nat) (va : DWord) : SlotCause := if code == 0x10 then unreachable va else { code := code, addr := va }

/-- What an access of n bytes raises in a slot: misalignment, or what the address resolves to; the smaller code (R175, R188 to
R194). -/
def Ctx.accessCause (c : Ctx) (s : State) (acc : Access) (n : Nat) (va : DWord) : Option SlotCause :=
  let odd : Option SlotCause := if va.toNat % n != 0 then some { code := 0x07, addr := va } else none
  match s.resolve c.cx c.ver c.team.id c.tray? acc va with
  | .fault code =>
    SlotCause.min odd
      { code := code, addr := va, d0 := if code == 0x10 then BitVec.ofNat 64 (va.toNat / 2 ^ 52 % 16 * 2 ^ 32) else 0 }
  | .ok _ _ => odd
  | .wait => if c.fabricOver s then SlotCause.min odd (unreachable va) else odd

/-- What an access of n bytes raises in a slot, with a cause of the instruction's own and, for a write, the room for version lines that
the slots before it leave (R175, R319). -/
def Ctx.slotAccess (c : Ctx) (s : State) (once : Bool) (acc : Access) (n : Nat) (va : Fin 32 → DWord)
    (extra : Fin 32 → Option SlotCause) (t : Fin 32) : Option SlotCause :=
  let place (u : Fin 32) : Option (Loc × Attr) :=
    match s.resolve c.cx c.ver c.team.id c.tray? acc (va u) with | .ok l a => some (l, a) | _ => none
  let full : Bool :=
    acc.isWrite && !c.keys.isEmpty &&
      (match place t with
       | some x => x.2.vers && (s.lineless c.cx c.keys ((c.slots once).filterMap place)).contains x.1.sector
       | none => false)
  [extra t, c.accessCause s acc n (va t), if full then some { code := 0x09, addr := va t } else none].foldl
    (fun r x => match x with | some e => SlotCause.min r e | none => r) none

/-- Check the addresses of an access and go on with where each slot's access goes; an address whose route is being
reconfigured makes the instruction wait (R175, R202, R378). `extra` is a cause of the instruction's own. -/
def State.reach (s : State) (c : Ctx) (once : Bool) (acc : Access) (n : Nat) (va : Fin 32 → DWord)
    (extra : Fin 32 → Option SlotCause) (k : Ctx → List Hit → State → State) : State :=
  s.judged c once (c.slots once) (c.slotAccess s once acc n va extra) fun c s =>
      let rs := (c.slots once).map fun t => (t, s.resolve c.cx c.ver c.team.id c.tray? acc (va t))
      if rs.any fun r => r.2 == Resolved.wait then s.pollFabric c
      else
        let hs : List Hit := rs.filterMap fun (t, r) => match r with | .ok l a => some ⟨t, l, a, va t⟩ | _ => none
        k c hs (hs.foldl (fun s h => s.named c.cx.id h.va h.loc h.attr) s)

/-- The location of a fabric address, as the location sequence counts it: its 128-byte sector (R375, log 22). -/
def fabLoc (addr : Nat) : BitVec 64 := BitVec.ofNat 64 (addr / 128 * 128)

/-- The next location sequence number toward a peer (R370, R375). -/
def State.nextLoc (s : State) (peer addr : Nat) : Nat × State :=
  let l := fabLoc addr
  match s.fab.locSent.find? fun x => x.src == peer && x.addr == l with
  | some x =>
    (x.next, { s with fab := { s.fab with
      locSent := s.fab.locSent.map fun y => if y.src == peer && y.addr == l then { y with next := (y.next + 1) % 65536 } else y } })
  | none => (0, { s with fab := { s.fab with locSent := s.fab.locSent ++ [{ src := peer, addr := l, next := 1 }] } })

/-- The writer that a slot of an owner is (R170). -/
def writerOf (o : Owner) (slot : Nat) : Writer :=
  match o with
  | .tray id => .thread id (Fin.ofNat 32 slot)
  | .front t => .strand t

/-- Send a request to a peer with the sender's version (R319, R370); the tag it bears. An atomic, an increment or an engine's write
there takes the other threads' reservations on the granule (R170); a store's slots do so themselves. -/
def State.fabSend (s : State) (cx : Context) (ver : Nat) (owner : Owner) (peer addr : Nat) (va : DWord) (op : FabOp)
    (use : FabUse) : Nat × State :=
  let (tag, s) := s.fresh
  let (seq, s) := if ordered op then s.nextLoc peer addr else (0, s)
  let gid := cx.gid s.devNo ver
  let first := match cx.ver? ver with | some v => !v.told.contains peer | none => false
  let anc := if ver != 0 && first then (((cx.chain ver).drop 1).filter (· != 0)).map (cx.gid s.devNo) else []
  let s := if ver == 0 then s
    else s.modCtx cx.id fun x =>
      { x with versions := x.versions.map fun (v : Version) =>
          if v.loc == ver && !v.told.contains peer then { v with told := v.told ++ [peer] } else v }
  let r : FabReq :=
    { src := s.pkg.fabno.toNat, part := cx.part, tag := tag, op := op, addr := BitVec.ofNat 64 addr, gid := gid,
      ancestors := anc, locseq := seq }
  let s := match use with
    | .load _ slot .. => if ordered op then s.loseResv (Loc.peer peer addr).sector (writerOf owner slot) else s
    | .cmd .. => if ordered op then s.loseResv (Loc.peer peer addr).sector .agent else s
    | _ => s
  let f : FabAccess :=
    { tag := tag, peer := peer, owner := owner, op := op, addr := BitVec.ofNat 64 addr, va := va, gid := gid, locseq := seq,
      use := use, since := s.time }
  let s := s.sendOut peer 0 fun h hop => .request h hop r
  (tag, { s with fab := { s.fab with flights := s.fab.flights ++ [f] } })

/-- The words that a load's bytes become: one, extended to 32 bits, or one for every 4 bytes (R202). -/
def loadWords (signed : Bool) (bs : List Byte) : List Word :=
  let n := bs.length
  if n ≤ 4 then
    let x := leNat bs
    [if signed && n == 1 then (BitVec.ofNat 8 x).signExtend 32 else w32 x]
  else (List.range (n / 4)).map fun i => w32 (leNat ((bs.drop (4 * i)).take 4))

/-- The registers in which a slot's result goes; none for a slot whose value an s destination discards (R29). -/
def Ctx.dstNames (c : Ctx) (code : BitVec 7) (n : Nat) (t : Fin 32) : List RegName :=
  let uniform := c.front || (64 ≤ code.toNat && code.toNat < 96)
  if uniform && t != c.low then []
  else match c.names code n t with
    | .ok rs => rs
    | .error _ => []

/-- A write at a peer's location is unacknowledged that the issuer must see, its own or one that it has acquired: its reads of the
location wait (R204, R230, R241, R255). -/
def State.ownPending (s : State) (c : Ctx) (peer addr : Nat) : Bool :=
  s.fab.flights.any fun f =>
    f.peer == peer && ordered f.op && fabLoc f.addr.toNat == fabLoc addr &&
      (f.owner == c.owner || s.past.any fun e => e.tag == f.tag && e.ctx == c.cx.id && !missedBy e.unseen (.threads c.owner c.act))

/-- The hits at peers, with the peer and the address there. -/
def remoteHits (hs : List Hit) : List (Hit × Nat × Nat) :=
  hs.filterMap fun h => match h.loc with | .peer d a => some (h, d, a) | _ => none

/-- The hits in this device's own storage. -/
def localHits (hs : List Hit) : List Hit := hs.filter fun h => match h.loc with | .peer .. => false | _ => true

/-- The acquire that follows a scoped atomic (R233). -/
def State.scopedAcquire (s : State) (c : Ctx) (scope : Option (BitVec 3)) : State :=
  match scope with
  | none => s
  | some x => s.acquireOn c.cx c.owner c.act .implicit x.toNat

/-- Finish an instruction that produces values for the slots of a mask, with the acquire of a scoped atomic: local ones stand with the
producer, remote ones come with responses, and until those are in the entry waits at the instruction (R43, R47). The cursors of every
active slot advance (R40). -/
def State.gather (s : State) (c : Ctx) (m : BitVec 32) (d : BitVec 7) (nregs : Nat) (hs : List Hit) (acq : Option (BitVec 3))
    (val : Hit → List Word) (req : Nat → Hit → Nat → Nat → State → Nat × State) : State :=
  let cm := { c with act := m }
  let marks := (maskSlots m).flatMap (cm.dstNames d nregs)
  let ws := (cm.writes d nregs fun t => match (localHits hs).find? (·.slot == t) with | some h => val h | none => []).filter
    fun w => (localHits hs).any fun h => (cm.dstNames d nregs h.slot).contains w.reg
  let far := remoteHits hs
  if far.isEmpty then (s.scopedAcquire c acq).produce c .load ws
  else
    let (id, s) := s.newProducer c .load marks ws []
    let (tags, s) := far.foldl (fun (acc : List Nat × State) (h, peer, addr) =>
      let (tag, s) := req id h peer addr acc.2
      (acc.1 ++ [tag], s)) ([], s)
    let s := { s with prods := s.prods.map fun (p : Producer) => if p.id == id then { p with tags := tags, adv := c.adv, acquire := acq } else p }
    s.waitAt c (.reply id s.time)

/-- The bytes that a slot's load returns: in the coherence order when it is coherent, else possibly older ones (R229, R247). -/
def State.loaded (s : State) (c : Ctx) (coherent : Bool) (h : Hit) (n : Nat) : List Byte :=
  if coherent then s.seen c.keys h.loc n
  else s.viewed c.keys (.threads c.owner (1#32 <<< h.slot.val)) h.slot.val h.loc n

/-- A load of n bytes into nregs registers in each slot (R202); `also` is what else it does, and `coherent` says that it reads the
coherence order (R229). -/
def State.load (s : State) (p : Pfx) (size : Nat) (a : Src) (d : BitVec 7) (nregs n : Nat) (signed once coherent : Bool) (e : DWord)
    (also : Ctx → List Hit → State → State) : Answer :=
  let va (c : Ctx) (t : Fin 32) : DWord := c.val64 a t + e * BitVec.ofNat 64 n
  .next (s.run p size
      { srcs := [a], dsts := [(d, nregs)], once := once, own := fun c s => c.slotAccess s once .read n (va c) fun _ => none } fun c s =>
    s.reach c once .read n (va c) (fun _ => none) fun c hs s =>
      let pending := (remoteHits hs).filter fun (_, peer, addr) => s.ownPending c peer addr
      if c.fabricOver s && !pending.isEmpty then
        s.judged c once (c.slots once) (fun t => (pending.find? fun x => x.1.slot == t).map fun x => unreachable x.1.va) fun _ s => s.stall
      else if !pending.isEmpty then s.pollFabric c
      else
        let m := if once then 1#32 <<< c.low.val else c.act
        (also c hs s).gather c m d nregs hs none (fun h => loadWords signed (s.loaded c coherent h n)) fun id h peer addr s =>
          s.fabSend c.cx c.ver c.owner peer addr h.va (.read n)
            (.load id h.slot.val ({ c with act := m }.dstNames d nregs h.slot) n signed))

/-- An instruction has used what its reads at peers brought. -/
def State.unpull (s : State) (c : Ctx) : State :=
  { s with fab := { s.fab with pulled := s.fab.pulled.filter fun x => x.owner != c.owner } }

/-- Ask a peer something that an instruction needs, unless it is asked already. -/
def State.ask (s : State) (c : Ctx) (peer addr : Nat) (va : DWord) (op : FabOp) : State :=
  if s.fab.flights.any fun f => f.owner == c.owner && f.use == FabUse.peek && f.peer == peer && f.addr == BitVec.ofNat 64 addr then s
  else (s.fabSend c.cx c.ver c.owner peer addr va op .peek).2

/-- What a question to a peer brought. -/
def State.broughtFrom (s : State) (c : Ctx) (peer addr : Nat) : Option Pulled :=
  s.fab.pulled.find? fun x => x.owner == c.owner && x.peer == peer && x.addr == addr

/-- A question of a slot to a peer about an address. -/
structure Query where
  slot : Fin 32
  va : DWord
  peer : Nat
  addr : Nat
  op : FabOp
  deriving DecidableEq, Repr

/-- Ask peers, wait until every answer is in, and judge the causes that they bring (R175, R190): what is not known yet is asked for,
and the instruction looks again at its next issue. Its effect forgets what was brought with `unpull`. -/
def State.inquired (s : State) (c : Ctx) (once : Bool) (qs : List Query) (k : Ctx → State → State) : State :=
  let left := qs.filter fun q => (s.broughtFrom c q.peer q.addr).isNone
  if qs.isEmpty then k c s
  else if !left.isEmpty then (left.foldl (fun s q => s.ask c q.peer q.addr q.va q.op) s).pollFabric c
  else
    let bad (t : Fin 32) : Option SlotCause := qs.foldl (fun r q =>
      match (if q.slot == t then (s.broughtFrom c q.peer q.addr).bind (·.cause) else none) with
      | some e => SlotCause.min r (atPeer e q.va)
      | none => r) none
    let s := if (c.slots once).all fun t => (bad t).isSome then s.unpull c else s
    s.judged c once (c.slots once) bad k

/-- Reads at peers for a waiting instruction that failed raise their causes, or are cleared, when it issues again (R77, R175). -/
def State.failedReads (s : State) (c : Ctx) (once : Bool) (hs : List Hit) (k : Ctx → State → State) : State :=
  let bad (t : Fin 32) : Option SlotCause := (remoteHits hs).findSome? fun (h, p, a) =>
    if h.slot == t then ((s.broughtFrom c p a).bind (·.cause)).map fun e => atPeer e h.va else none
  if (c.slots once).all fun t => (bad t).isNone then k c s else (s.unpull c).judged c once (c.slots once) bad k

/-- The places of a store at peers pass the checks of their leaves there before any slot takes effect (R175, R190, R194, log 132). -/
def State.admitted (s : State) (c : Ctx) (once : Bool) (n : Nat) (hs : List Hit) (k : Ctx → List Hit → State → State) : State :=
  s.inquired c once ((remoteHits hs).map fun (h, p, a) => { slot := h.slot, va := h.va, peer := p, addr := a, op := .check n false false })
    fun c s => k c (hs.filter fun h => c.act.getLsbD h.slot.val) (s.unpull c)

/-- A slot's write in this device's storage: remembered for those that may miss it, then made (R202, R229). -/
def State.storeHit (s : State) (c : Ctx) (h : Hit) (bytes : List Byte) : State :=
  (s.willWrite c.cx.id c.launch.id c.keys h.attr c.owner (1#32 <<< h.slot.val) h.va h.loc bytes.length).store c.keys h.attr h.loc bytes
    (c.writer h.slot) (some c.party) true

/-- A slot's write at a peer (R170, R241, R370). -/
def State.sendHit (s : State) (c : Ctx) (h : Hit) (peer addr : Nat) (bytes : List Byte) : State :=
  let (tag, s) := s.fabSend c.cx c.ver c.owner peer addr h.va (.write bytes) .store
  (s.loseResv h.loc.sector (c.writer h.slot)).willSend c.cx.id c.launch.id (some (c.owner, 1#32 <<< h.slot.val)) none h.va h.loc tag

/-- A slot's write wherever it goes. -/
def State.putHit (s : State) (c : Ctx) (h : Hit) (bytes : List Byte) : State :=
  match h.loc with
  | .peer peer addr => s.sendHit c h peer addr bytes
  | _ => s.storeHit c h bytes

/-- A store of the low n bytes of a source in each slot (R202, R204). -/
def State.storeAll (s : State) (p : Pfx) (size : Nat) (a d : Src) (n : Nat) (once : Bool) (e : DWord) : Answer :=
  let va (c : Ctx) (t : Fin 32) : DWord := c.val64 a t + e * BitVec.ofNat 64 n
  .next (s.run p size { srcs := [a, d], once := once, own := fun c s => c.slotAccess s once .write n (va c) fun _ => none } fun c s =>
    s.reach c once .write n (va c) (fun _ => none) fun c hs s =>
      s.admitted c once n hs fun c hs s =>
        (hs.foldl (fun s h => s.putHit c h (((c.words d h.slot).flatMap fun w => leBytes 4 w.toNat).take n)) s).retire c)

/-- The offset E of the FM layout (R201). -/
def memOff (p : Pfx) (off : BitVec 7) : DWord :=
  match p.imm, p.ximm with
  | some i, some x => ((x ++ i ++ off : BitVec (23 + 23 + 7))).signExtend 64
  | some i, none => ((i ++ off : BitVec (23 + 7))).signExtend 64
  | none, _ => off.signExtend 64

/-- A load of the FM layout. -/
def State.loadF (s : State) (p : Pfx) (f : FLd) (nregs n : Nat) (signed once : Bool) : Answer :=
  s.load p (groupSize p) (.reg f.a 2 f.ta .int) f.d nregs n signed once false (memOff p f.off) fun _ _ s => s

/-- A store of the FM layout. -/
def State.storeF (s : State) (p : Pfx) (f : FSt) (nregs n : Nat) (once : Bool) : Answer :=
  s.storeAll p (groupSize p) (.reg f.a 2 f.ta .int) (.reg f.d nregs f.td .int) n once (memOff p f.off)

/-- LD8 (R202). -/
def execLd8 (p : Pfx) (f : FLd) (s : State) : Answer := s.loadF p f 1 1 false false
/-- LD8S (R202). -/
def execLd8s (p : Pfx) (f : FLd) (s : State) : Answer := s.loadF p f 1 1 true false
/-- LD16 (R202). -/
def execLd16 (p : Pfx) (f : FLd) (s : State) : Answer := s.loadF p f 1 2 false false
/-- LD32 (R202). -/
def execLd32 (p : Pfx) (f : FLd) (s : State) : Answer := s.loadF p f 1 4 false false
/-- LD64 (R202). -/
def execLd64 (p : Pfx) (f : FLd) (s : State) : Answer := s.loadF p f 2 8 false false
/-- LD128 (R202). -/
def execLd128 (p : Pfx) (f : FLd) (s : State) : Answer := s.loadF p f 4 16 false false
/-- LDS: once, for the lowest active slot (R203). -/
def execLds (p : Pfx) (f : FLd) (s : State) : Answer := s.loadF p f 1 4 false true

/-- ST8 (R202). -/
def execSt8 (p : Pfx) (f : FSt) (s : State) : Answer := s.storeF p f 1 1 false
/-- ST16 (R202). -/
def execSt16 (p : Pfx) (f : FSt) (s : State) : Answer := s.storeF p f 1 2 false
/-- ST32 (R202). -/
def execSt32 (p : Pfx) (f : FSt) (s : State) : Answer := s.storeF p f 1 4 false
/-- ST64 (R202). -/
def execSt64 (p : Pfx) (f : FSt) (s : State) : Answer := s.storeF p f 2 8 false
/-- ST128 (R202). -/
def execSt128 (p : Pfx) (f : FSt) (s : State) : Answer := s.storeF p f 4 16 false
/-- STS: once, for the lowest active slot (R203). -/
def execSts (p : Pfx) (f : FSt) (s : State) : Answer := s.storeF p f 1 4 true
/-- STNT: as ST32; what it allocates in caches is not visible (R203). -/
def execStnt (p : Pfx) (f : FSt) (s : State) : Answer := s.storeF p f 1 4 false

/-- Compact LD32 (R72, R73). -/
def execLd32C (f : CReg) (s : State) : Answer :=
  s.load Pfx.empty 2 (.reg (CReg.code f) 2 false .int) (f.d.setWidth 7) 1 4 false false false 0 fun _ _ s => s

/-- Compact ST32 (R72, R73). -/
def execSt32C (f : CReg) (s : State) : Answer :=
  s.storeAll Pfx.empty 2 (.reg (CReg.code f) 2 false .int) (.reg (f.d.setWidth 7) 1 false .int) 4 false 0

/-- The new word of an atomic, by its funct (R205). -/
def atomicNew (funct : BitVec 3) (unsigned : Bool) (old b c : Word) : Word :=
  match funct.toNat with
  | 0 => old + b
  | 1 => if asInt (!unsigned) b < asInt (!unsigned) old then b else old
  | 2 => if asInt (!unsigned) old < asInt (!unsigned) b then b else old
  | 3 => old &&& b
  | 4 => b
  | 5 => if old == b then c else old
  | _ => w32 (Fmt.f32.round .rn false false ((Fmt.f32.decode false old.toNat).add .rn (Fmt.f32.decode false b.toNat)))

/-- A byte range cut at 128-byte sectors. -/
def pieces (va : DWord) (n : Nat) : List (DWord × Nat) :=
  let a := va.toNat
  if n == 0 then []
  else (List.range ((a + n - 1) / 128 - a / 128 + 1)).map fun i =>
    let lo := Nat.max a ((a / 128 + i) * 128)
    let hi := Nat.min (a + n) ((a / 128 + i + 1) * 128)
    (BitVec.ofNat 64 lo, hi - lo)

/-- What an instruction sees of a record's piece: its bytes, a cause, a route to wait for, a read to make at a peer. -/
inductive Seen where
  | bytes (bs : List Byte)
  | cause (code : Nat)
  | wait
  | need (peer addr : Nat)
  deriving DecidableEq, Repr

/-- Look at a piece of a record. -/
def State.peek (s : State) (c : Ctx) (va : DWord) (n : Nat) : Seen :=
  match s.resolve c.cx c.ver c.team.id c.tray? .read va with
  | .fault code => .cause code
  | .wait => .wait
  | .ok (.peer p a) _ =>
    (match s.fab.pulled.find? fun x => x.owner == c.owner && x.peer == p && x.addr == a && (x.cause.isSome || n ≤ x.data.length) with
     | some x => (match x.cause with | some e => .cause e | none => .bytes (x.data.take n))
     | none => .need p a)
  | .ok l _ => .bytes (s.seen c.keys l n)

/-- The pieces of several records with what is seen of each. -/
def State.peekAll (s : State) (c : Ctx) (spans : List (DWord × Nat)) : List (DWord × Nat × Seen) :=
  (spans.flatMap fun (va, n) => pieces va n).map fun (va, n) => (va, n, s.peek c va n)

/-- Forget the failed reads at peers of these pieces: their causes are raised now. -/
def State.forget (s : State) (c : Ctx) (xs : List (DWord × Nat × Seen)) : State :=
  let used (x : Pulled) : Bool :=
    x.owner == c.owner && x.cause.isSome &&
      xs.any fun (va, _, _) => (BitVec.ofNat 64 (2 ^ 56 + x.peer * 2 ^ 52 + x.addr)) == va
  { s with fab := { s.fab with pulled := s.fab.pulled.filter fun x => !used x } }

/-- Send the reads that pieces still need. -/
def State.askFor (s : State) (c : Ctx) (xs : List (DWord × Nat × Seen)) : State :=
  xs.foldl (fun s (va, n, x) => match x with
    | .need p a => s.ask c p a va (.read n)
    | _ => s) s

/-- Read records in every slot, or in the lowest active one, and go on with their bytes: their causes and an instruction's own
are judged first; what stands at a peer is asked for, and the instruction looks again at its next issue. Its effect forgets what
was brought with `unpull`. -/
def State.peeks (s : State) (c : Ctx) (once : Bool) (spans : Fin 32 → List (DWord × Nat))
    (extra : Fin 32 → Option SlotCause) (k : Ctx → (Fin 32 → List Byte) → State → State) : State :=
  let seen (t : Fin 32) := s.peekAll c (spans t)
  let all_ := (c.slots once).flatMap seen
  let bad (t : Fin 32) : Option SlotCause := (seen t).foldl (fun r (va, _, x) => match x with
    | .cause code => SlotCause.min r (atPeer code va)
    | .wait => if c.fabricOver s then SlotCause.min r (unreachable va) else r
    | _ => r) (extra t)
  let s := if (c.slots once).all fun t => (bad t).isSome then s.unpull c else s.forget c all_
  s.judged c once (c.slots once) bad fun c s =>
      let xs := (c.slots once).flatMap seen
      if xs.any fun x => (match x.2.2 with | .need .. | .wait => true | _ => false) then (s.askFor c xs).pollFabric c
      else
        k c (fun t => (seen t).flatMap fun x => match x.2.2 with | .bytes bs => bs | _ => []) s

/-- The word at a place as an observer sees it. -/
def State.wordSeen (s : State) (keys : List VKey) (l : Loc) : Word := w32 (leNat (s.seen keys l 4))

/-- An address is outside every bound region (R227). -/
def Context.unbound (cx : Context) (va : BitVec 64) : Bool :=
  !(cx.bindings.any fun b => b.base ≤ va.toNat && va.toNat < b.base + b.len)

/-- The atomics of a group in ascending slot order: the old words and the state after (R206). -/
def State.atomics (s : State) (c : Ctx) (new : Hit → Word → Word) : List Hit → List (Fin 32 × Word) × State
  | [] => ([], s)
  | h :: hs =>
    let old := s.wordSeen c.keys h.loc
    let s := s.storeHit c h (leBytes 4 (new h old).toNat)
    let (xs, s) := s.atomics c new hs
    ((h.slot, old) :: xs, s)

/-- A scoped atomic releases on the implicit object of its scope first, and at FAB waits for the acknowledgements (R233, R241). -/
def State.scopedRelease (s : State) (c : Ctx) (scope : Option (BitVec 3)) (k : State → State) : State :=
  match scope with
  | none => k s
  | some x =>
    if x == 4 then s.afterAcks c false .implicit c.cx.unbound fun s => k (s.releaseOn c.cx c.owner c.act .implicit 4)
    else k (s.releaseOn c.cx c.owner c.act .implicit x.toNat)

/-- An atomic (R205, R206); with a scope it first releases at that scope and then acquires (R233). Every address is checked, at the
peers too, before any slot takes effect. -/
def State.atomic (s : State) (p : Pfx) (f : F3) (funct : BitVec 3) (k : Konst) (imm : Word) : Answer :=
  let a : Src := .reg f.a 2 f.ta .int
  let b : Src := if funct == 5 then .reg f.b 2 f.tb .int else immOr p imm f.b f.tb k
  let unsigned := match p.mod with | some m => m.sgnen && !m.sb | none => false
  let narrow (s : State) (c : Ctx) (t : Fin 32) : Option SlotCause := match p.scope (s.cap 0) with
    | some x => if x.toNat ≤ 1 && (c.val64 a t).getLsbD 56 then some { code := 0x01, addr := c.val64 a t } else none
    | none => none
  .next (s.run p (groupSize p)
      { srcs := [a, b], dsts := [(f.d, 1)], own := fun c s => c.slotAccess s false .write 4 (c.val64 a) (narrow s c) } fun c s =>
    let scope := p.scope (s.cap 0)
    s.reach c false .write 4 (c.val64 a) (narrow s c) fun c hs s =>
      s.admitted c false 4 hs fun c hs s =>
        s.scopedRelease c scope fun s =>
          let new (h : Hit) (old : Word) := atomicNew funct unsigned old (c.val b h.slot) (hiWord (c.val64 b h.slot))
          let (olds, s) := s.atomics c new (localHits hs)
          s.gather c c.act f.d 1 hs scope (fun h => [((olds.find? (·.1 == h.slot)).map (·.2)).getD 0]) fun id h peer addr s =>
            let (tag, s) := s.fabSend c.cx c.ver c.owner peer addr h.va
              (.atomic funct (c.val b h.slot) (hiWord (c.val64 b h.slot)) unsigned) (.load id h.slot.val (c.dstNames f.d 1 h.slot) 4 false)
            (tag, s.willSend c.cx.id c.launch.id (some (c.owner, 1#32 <<< h.slot.val)) none h.va h.loc tag))

/-- ATADD (R205). -/
def execAtadd (p : Pfx) (f : F3) (s : State) : Answer := s.atomic p f 0 .int p.immS
/-- ATMIN (R205). -/
def execAtmin (p : Pfx) (f : F3) (s : State) : Answer := s.atomic p f 1 .int p.immS
/-- ATMAX (R205). -/
def execAtmax (p : Pfx) (f : F3) (s : State) : Answer := s.atomic p f 2 .int p.immS
/-- ATAND (R205). -/
def execAtand (p : Pfx) (f : F3) (s : State) : Answer := s.atomic p f 3 .int p.immS
/-- ATXCHG (R205). -/
def execAtxchg (p : Pfx) (f : F3) (s : State) : Answer := s.atomic p f 4 .int p.immS
/-- ATCAS (R205). -/
def execAtcas (p : Pfx) (f : F3) (s : State) : Answer := s.atomic p f 5 .int 0
/-- ATFADD: its operand is an FP32 value (R98, R205, log 23). -/
def execAtfadd (p : Pfx) (f : F3) (s : State) : Answer := s.atomic p f 6 .f32 p.immF

end Sys2Proof.Machine
end

