-- ==== Sys2Proof/Machine/Engine.lean ====
section
/-!
DEFINITION. Machine/Engine.lean: engine commands and tokens (R257, R258), what engines read and write (R225, R259 to R263),
KV page trailers (R294, R295), engine causes and their delivery (R174, R179, R287), and record reads at peers.
-/

namespace Sys2Proof.Machine

/-- A cause that an engine finds, with the engine fields of DETAIL0 (R174). -/
structure EngCause where
  code : Nat
  addr : DWord := 0
  step : Nat := 0
  weight : Bool := false
  tag : BitVec 2 := 0
  swz : BitVec 2 := 0
  deriving DecidableEq, Repr

/-- DETAIL0 of an engine cause (R174). -/
def EngCause.detail (e : EngCause) : DWord :=
  BitVec.ofNat 64 (e.step % 65536 + e.weight.toNat * 2 ^ 16 + e.tag.toNat * 2 ^ 17 + e.swz.toNat * 2 ^ 19 +
    (if e.code == 0x10 then e.addr.toNat / 2 ^ 52 % 16 * 2 ^ 32 else 0))

/-- A carousel command, whose tokens carry causes above 0x81000000 (R210). -/
def CmdOp.carousel : CmdOp → Bool
  | .board .. | .catchTile .. | .rplc .. | .alight .. => true
  | _ => false

/-- A front strand issued the command. -/
def Cmd.fromFront (k : Cmd) : Bool := match k.owner with | .front _ => true | .tray _ => false

/-- The tray of a command, for address resolution (R189). -/
def Cmd.tray? (k : Cmd) : Option Nat := match k.owner with | .tray t => some t | .front _ => none

/-- The version keys that a command observes (R225). -/
def Cmd.keys (k : Cmd) (cx : Context) : List VKey := cx.keys k.ver

/-- A record as one of a command (R174, R175). -/
def Cmd.recordOf (k : Cmd) (cx : Context) (dev : BitVec 4) (r : Record) : Record :=
  { r with
    front := k.fromFront, engine := true, ver := cx.gid dev k.ver, trayno := 0xFF, pc := k.pc, teamno := k.teamno
    bench := if k.op.array?.isSome then k.bench else 0xFF }

/-- A record of a command (R174, R175). -/
def State.cmdRecord (s : State) (k : Cmd) (r : Record) : State :=
  match s.ctx? k.ctx with
  | none => s
  | some cx => s.record k.ctx (k.recordOf cx s.devNo r)

/-- A command ends: its token takes its value and becomes full (R257); its first read is to come (R225, R392). -/
def State.tokenWrite (s : State) (k : Cmd) (v : Word) : State :=
  let s := ({ s with cmds := s.cmds.filter fun x => x.id != k.id }).cmdOver k.id
  match k.token with
  | .none => s
  | r =>
    { (s.putReg k.owner { reg := r, val := v, hi := 0 }) with
      tokens := (s.tokens.filter fun t => !(t.owner == k.owner && t.reg == r)) ++ [{ owner := k.owner, reg := r, fruit := .cmd k.id }] }

/-- A CPYT copy ends: its tag's counter falls and its epoch keeps what it gave (R267, R268). -/
def State.copyEnded (s : State) (k : Cmd) (tag epoch : Nat) (f : Epoch → Epoch) : State :=
  match k.owner with
  | .front _ => s
  | .tray t =>
    let s := ({ s with cmds := s.cmds.filter fun x => x.id != k.id }).cmdOver k.id
    let s := { s with
      epochs := s.epochs.map fun (e : Epoch) =>
        if e.tray == t && e.tag == tag && e.epoch == epoch then f { e with left := e.left - 1 } else e }
    s.modTray t fun tr =>
      let x := (tr.tags[tag]?).getD { count := 0, epoch := 0 }
      { tr with tags := tr.tags.setIfInBounds tag { x with count := x.count - 1 } }

/-- An epoch with the smallest cause of its abandoned copies. -/
def Epoch.failed (code : Nat) (e : Epoch) : Epoch := { e with cause := if e.cause == 0 then code else Nat.min e.cause code }

/-- A command is abandoned with a cause (R179, R210, R257, R268). -/
def State.abandon (s : State) (k : Cmd) (code : Nat) : State :=
  match k.op with
  | .cpyt _ _ _ _ tag epoch => s.copyEnded k tag epoch (Epoch.failed code)
  | op => s.tokenWrite k (w32 ((if op.carousel then 0x81000000 else 0x80000000) + code))

/-- The tray that takes an engine cause as a trap: the issuer, when it is a tray that lives and its context has a handler. -/
def State.trapTaker (s : State) (k : Cmd) : Option Tray :=
  match k.tray?, s.ctx? k.ctx with
  | some t, some cx =>
    (match s.tray? t with
     | some tr => if s.handler cx k.ver tr.team then some tr else none
     | none => none)
  | _, _ => none

/-- An engine cause: the command is held at its resumption point until its trap's ERET, or abandoned (R179, R287). -/
def State.engineFault (s : State) (k : Cmd) (e : EngCause) : State :=
  match s.trapTaker k with
  | some _ =>
    s.modCmd k.id fun x => { x with state := .held e.code e.addr e.detail false, met := s.time, tags := [], got := [] }
  | none => (s.cmdRecord k { cause := e.code, addr := e.addr, d0 := e.detail }).abandon k e.code

/-- ENGINE_TRAP: the held cause of command `id` is delivered to its tray before the tray's next issue; `n` is the entry whose group
that is, and FPC names it (R177, R179). The record bears the time at which the cause was met, and stands in the chain, like its bit of
STICKY, from the delivery on (R174, log 140). With no handler any more, or its tray ended, so that there is no next issue and no
ERET, the command is abandoned (log 67). -/
def execEngineTrap (s : State) : Answer :=
  match s.cmd? s.input.id with
  | none => .next s
  | some k =>
    match k.state, k.tray? with
    | .held code addr detail told, some t =>
      let r : Record := { cause := code, addr := addr, d0 := detail, raisedAt := some k.met }
      (match s.tray? t with
       | none => .next (if told then s.abandon k code else (s.cmdRecord k r).abandon k code)
       | some tr =>
         if told || tr.trap.isSome then .next s
         else match s.trayCtx t s.input.n Pfx.empty 0 with
           | none => .next s
           | some c =>
             if !s.handler c.cx c.ver c.team.id then .next ((s.cmdRecord k r).abandon k code)
             else
               let s := s.cmdRecord k { r with trap := true }
               let s := s.modCmd k.id fun x => { x with state := .held code addr detail true }
               .next (s.modTray t fun tr =>
                 tr.deliver { c with entry := tr.frontier.length } { code := code, mask := 0, addr := addr, d0 := detail }))
    | _, _ => .next s

/-- A new command of the issuer; an engine command takes its die's next number (R257, R258). What it need not see is settled now
(R225). -/
def State.newCmd (s : State) (c : Ctx) (op : CmdOp) (token : RegName) (numbered : Bool) : State :=
  let (id, s) := s.fresh
  let die := dieOf c.bench
  let seq := (s.dieSeq[die]?).getD 0
  let k : Cmd :=
    { id := id, die := die, bench := c.bench, seq := if numbered then some seq else none
      prevSeq := (c.cx.engLast[die]?).getD 0, ctx := c.cx.id, ver := c.ver, launch := c.launch.id, team := c.team.id, teamno := c.team.teamno,
      owner := c.owner, pc := c.ent.pc, token := token, prio := if c.front then c.team.front.prio else c.tray.prio, op := op,
      state := .queued, steps := 0, data := [], swz := 0, gen := 0, tags := [], got := [], since := s.clk, met := 0, may := none
      chained := op.carousel && s.afterService c.cx.id c.owner c.act }
  let s := ({ s with cmds := s.cmds ++ [k] }).cmdIssued c.cx.id die id
  let s := match token with | .none => s | r => s.markEmpty c.owner [r]
  if numbered then
    { s with dieSeq := s.dieSeq.setIfInBounds die (seq + 1) }.modCtx c.cx.id fun x =>
      { x with engLast := x.engLast.setIfInBounds die seq }
  else s

/-- A command that is complete at its issue: it is numbered, and its token is written at once. -/
def State.newDone (s : State) (c : Ctx) (token : RegName) (v : Word) : State :=
  let die := dieOf c.bench
  let seq := (s.dieSeq[die]?).getD 0
  let s := { s with dieSeq := s.dieSeq.setIfInBounds die (seq + 1) }.modCtx c.cx.id fun x =>
    { x with engLast := x.engLast.setIfInBounds die seq }
  s.putReg c.owner { reg := token, val := v, hi := 0 }

/-- The register that a token field names. -/
def Ctx.tokenReg (c : Ctx) (code : BitVec 7) : RegName :=
  match c.names code 1 c.low with
  | .ok (r :: _) => r
  | _ => .none

/-- The sources that a block of n registers names, each by itself (R30). -/
def blockSrcs (code : BitVec 7) (n : Nat) (trap : Bool) : List Src :=
  (List.range n).map fun i => .reg (code + BitVec.ofNat 7 i) 1 trap .int

/-- A range that a command reads; `weight` tells a matrix command's operand (R174). -/
structure Span where
  va : DWord
  n : Nat
  weight : Bool := false
  deriving DecidableEq, Repr

/-- What a piece of a range gives an engine. -/
inductive Got where
  | bytes (bs : List Byte)
  | cause (e : EngCause)
  | wait
  | need (peer addr n : Nat) (va : DWord) (weight : Bool)
  deriving DecidableEq, Repr

/-- Resolve an address for a command. -/
def State.engResolve (s : State) (cx : Context) (k : Cmd) (acc : Access) (va : DWord) : Resolved :=
  s.resolve cx k.ver k.team k.tray? acc va

/-- Read a piece for a command: a write that it need not see is seen or missed (R225, R259); a KV page is read as it stands with its
CRC (R295). A peer's bytes come by request; a matrix operand there needs REMOTE (R2, R275). -/
def State.pull (s : State) (cx : Context) (k : Cmd) (va : DWord) (n : Nat) (weight : Bool) : Got :=
  match s.engResolve cx k .read va with
  | .fault code => .cause { code := code, addr := va, step := k.steps, weight := weight }
  | .wait => .wait
  | .ok (.peer p a) _ =>
    if k.op.array?.isSome && !s.cap 2 then .cause { code := 0x02, addr := va, step := k.steps, weight := weight }
    else (match k.got.find? fun (g : Nat × Nat × List Byte) => g.1 == p && g.2.1 ≤ a && a + n ≤ g.2.1 + g.2.2.length with
      | some g => .bytes ((g.2.2.drop (a - g.2.1)).take n)
      | none => .need p a n va weight)
  | .ok l a => .bytes (if a.kv then s.seen (k.keys cx) l n else s.viewed (k.keys cx) (.cmd k.id) 32 l n)

/-- Read a range for a command, piece by piece. -/
def State.pullSpan (s : State) (cx : Context) (k : Cmd) (x : Span) : List Got :=
  (pieces x.va x.n).map fun (va, n) => s.pull cx k va n x.weight

/-- The smaller of two engine causes, the first when they are equal (R175). -/
def EngCause.min (a : Option EngCause) (b : EngCause) : Option EngCause :=
  match a with
  | some x => if x.code ≤ b.code then some x else some b
  | none => some b

/-- The smallest cause among pieces. -/
def worstGot (gs : List Got) : Option EngCause :=
  gs.foldl (fun r g => match g with | .cause e => EngCause.min r e | _ => r) none

/-- The cause of writing ranges, and whether a route is being waited for (R194, R319). -/
def State.pushCause (s : State) (cx : Context) (k : Cmd) (dsts : List (DWord × Nat)) : Option EngCause × Bool :=
  let rs := (dsts.flatMap fun (va, n) => pieces va n).map fun (va, _) => (va, s.engResolve cx k .engineWrite va)
  let none_ := s.lineless cx (k.keys cx) (rs.filterMap fun (_, r) => match r with | .ok l a => some (l, a) | _ => none)
  let fresh_ := rs.filter fun (_, r) => match r with | .ok l a => a.vers && none_.contains l.sector | _ => false
  (rs.foldl (fun e (va, r) => match r with
      | .fault code => EngCause.min e { code := code, addr := va, step := k.steps }
      | _ => e) (match fresh_ with | (va, _) :: _ => some { code := 0x09, addr := va, step := k.steps } | [] => none),
    rs.any fun (_, r) => r == Resolved.wait)

/-- Send a command's reads at peers. -/
def State.fetchFar (s : State) (cx : Context) (k : Cmd) (gs : List Got) : State :=
  gs.foldl (fun s g => match g with
    | .need p a n va weight =>
      let (tag, s) := s.fabSend cx k.ver k.owner p a va (.read n) (.cmd k.id weight)
      s.modCmd k.id fun x => { x with tags := x.tags ++ [tag] }
    | _ => s) s

/-- Let an engine work: read the ranges and check what it will write, then go on with the bytes of each range. A cause holds
or abandons the command; what stands at peers is asked for first; a route that is being reconfigured is waited for. -/
def State.engine (s : State) (cx : Context) (k : Cmd) (spans : List Span) (dsts : List (DWord × Nat)) (own : Option EngCause)
    (go : List (List Byte) → State → State) : State :=
  let gs := spans.map (s.pullSpan cx k)
  let (pc, pw) := s.pushCause cx k dsts
  let cause := [own, worstGot gs.flatten, pc].foldl (fun r e => match e with | some x => EngCause.min r x | none => r) none
  match cause with
  | some e => s.engineFault k e
  | none =>
    if pw || gs.flatten.contains .wait then s
    else if gs.flatten.any fun g => (match g with | .need .. => true | _ => false) then
      (if k.tags.isEmpty then s.fetchFar cx k gs.flatten else s)
    else
      let all_ := (spans.map fun x => (x.va, x.n)) ++ dsts
      let s' := (all_.flatMap fun (va, n) => pieces va n).foldl (fun s (va, _) =>
        match s.engResolve cx k .read va with | .ok l a => s.named cx.id va l a | _ => s) s
      go (gs.map fun xs => xs.flatMap fun g => match g with | .bytes bs => bs | _ => []) s'

/-- One bit of a reflected CRC. -/
def crcBit (poly x : Nat) : Nat := if x % 2 == 1 then (x / 2) ^^^ poly else x / 2

/-- One byte of a reflected CRC. -/
def crcByte (poly x : Nat) (b : Byte) : Nat := (List.range 8).foldl (fun y _ => crcBit poly y) (x ^^^ b.toNat)

/-- CRC-64/XZ (R294). -/
def crc64 (bs : List Byte) : Nat := bs.foldl (crcByte 0xC96C5795D7870F42) (2 ^ 64 - 1) ^^^ (2 ^ 64 - 1)

/-- CRC-32C (R207). -/
def crc32c (bs : List Byte) : Nat := bs.foldl (crcByte 0x82F63B78) (2 ^ 32 - 1) ^^^ (2 ^ 32 - 1)

/-- The page of a place. -/
def Loc.page (l : Loc) : Loc := l.at (l.off / 65536 * 65536)

/-- Renew the CRC of a KV page (R294, R295); `whole` also lifts a quarantine. `va` is an address in the page. -/
def State.sealPage (s : State) (k : Cmd) (keys : List VKey) (a : Attr) (va : DWord) (page : Loc) (whole : Bool) : State :=
  let base := va.toNat / 65536 * 65536
  let crc := crc64 (s.seen keys page 65472)
  let s := s.engineStore k keys a (BitVec.ofNat 64 (base + 65472)) (page.add 65472) (leBytes 8 crc) true
  if whole then s.engineStore k keys a (BitVec.ofNat 64 (base + 65480)) (page.add 65480) [0] true else s

/-- Write a piece for a command: in place, or as a request to a peer; bytes that would fall into a KV page's trailer are
discarded (R295). -/
def State.push (s : State) (cx : Context) (k : Cmd) (va : DWord) (bytes : List Byte) : State × List Nat :=
  match s.engResolve cx k .engineWrite va with
  | .ok (.peer p a) _ =>
    let (tag, s) := s.fabSend cx k.ver k.owner p a va (.write bytes) (.cmd k.id false)
    (s.willSend cx.id k.launch none (some k.id) va (.peer p a) tag, [tag])
  | .ok l a =>
    let bytes := if a.kv then bytes.take (65472 - l.off % 65536) else bytes
    (s.engineStore k (k.keys cx) a va l bytes true, [])
  | _ => (s, [])

/-- Cut bytes into the pieces of a range. -/
def cutBytes : List (DWord × Nat) → List Byte → List (DWord × List Byte)
  | [], _ => []
  | (va, n) :: rest, bs => (va, bs.take n) :: cutBytes rest (bs.drop n)

/-- The KV pages that ranges touch, each with an address in it, its attributes and whether the ranges cover its 65,472 bytes (R295). -/
def State.kvPages (s : State) (cx : Context) (k : Cmd) (dsts : List (DWord × Nat)) : List (DWord × Loc × Attr × Bool) :=
  let ps := (dsts.flatMap fun (va, n) => pieces va n).filterMap fun (va, n) =>
    match s.engResolve cx k .engineWrite va with
    | .ok l a => if a.kv then some (va, l, a, n) else none
    | _ => none
  ((ps.map fun x => x.2.1.page).eraseDups).filterMap fun pg =>
    match ps.find? fun x => x.2.1.page == pg with
    | some (va, _, a, _) =>
      let mine := ps.filter fun x => x.2.1.page == pg
      let covers (o : Nat) : Bool := mine.any fun (_, l, _, n) => l.off % 65536 ≤ o && o < l.off % 65536 + n
      some (va, pg, a, (List.range 65472).all covers)
    | none => none

/-- Write ranges for a command in order, and renew the trailers of the KV pages they touch; the tags of the requests sent. -/
def State.pushAll (s : State) (cx : Context) (k : Cmd) (ws : List (DWord × List Byte)) (lifts : Bool) : State × List Nat :=
  let (s, tags) := ws.foldl (fun (acc : State × List Nat) (va, bs) =>
    (cutBytes (pieces va bs.length) bs).foldl (fun (acc : State × List Nat) (va, bs) =>
      let (s, ts) := acc.1.push cx k va bs
      (s, acc.2 ++ ts)) acc) (s, [])
  let s := (s.kvPages cx k (ws.map fun (va, bs) => (va, bs.length))).foldl
    (fun s (va, pg, a, whole) => s.sealPage k (k.keys cx) a va pg (whole && lifts)) s
  (s, tags)

/-- A command's work is done: its token is written, or waits for the acknowledgements of its writes at peers. -/
def State.finishCmd (s : State) (k : Cmd) (tags : List Nat) (v : Word) : State :=
  if tags.isEmpty then
    match k.op with
    | .cpyt _ _ n _ tag epoch => s.copyEnded k tag epoch fun e => { e with bytes := e.bytes + n }
    | _ => s.tokenWrite k v
  else s.modCmd k.id fun x => { x with state := .closing v, tags := tags }

/-- The command that an event names takes its step, when it is of the event's kind and its engine can work. -/
def State.engineStep (s : State) (mine : CmdOp → Bool) (f : Cmd → Context → State) : Answer :=
  match s.cmd? s.input.id with
  | none => .next s
  | some k =>
    match s.ctx? k.ctx with
    | none => .next s
    | some cx =>
      if !mine k.op then .next s
      else match k.state with
        | .queued => .next (f k cx)
        | .closing v => .next (if k.tags.isEmpty then s.finishCmd k [] v else s)
        | _ => .next s

end Sys2Proof.Machine
end

