-- ==== Sys2Proof/Machine/Copy.lean ====
section
/-!
DEFINITION. Machine/Copy.lean: major 22, the copy engine (R264 to R272, R394), and the steps that complete its commands.
-/

namespace Sys2Proof.Machine

/-- A row that a command copies. -/
structure Row where
  dst : DWord
  src : DWord
  n : Nat
  deriving DecidableEq, Repr

/-- Where linear offset o of a line is stored under a tag (R261). -/
def swzOff (tag : BitVec 2) (o : Nat) : Nat :=
  if tag == 1 then o ^^^ (o / 128 % 8 * 16) else if tag == 2 then o ^^^ (o / 64 % 4 * 16) else o

/-- The source byte of a row that lands at byte i of its destination (R265). -/
def rowIndex (swz : BitVec 2) (i : Nat) : Nat :=
  if swz == 1 || swz == 2 then i / 1024 * 1024 + swzOff swz (i % 1024) else i

/-- The source address of the byte that a command leaves at an address: the last row's (R265). -/
def rowsOrigin (rows : List Row) (swz : BitVec 2) (d : DWord) : Option DWord :=
  rows.reverse.findSome? fun r =>
    let i := (d - r.dst).toNat
    if i < r.n then some (r.src + BitVec.ofNat 64 (rowIndex swz i)) else none

/-- Follow an overlapping source byte through what the command itself wrote, at most n times. -/
def chase (rows : List Row) (swz : BitVec 2) : Nat → DWord → DWord
  | 0, a => a
  | n + 1, a => match rowsOrigin rows swz a with | some b => chase rows swz n b | none => a

/-- The bytes that a row leaves at its destination. A source byte that the command also writes gives its value before the
command or one that the command wrote there: a free choice (R265). -/
def State.rowBytes (s : State) (cx : Context) (k : Cmd) (rows : List Row) (swz : BitVec 2) (j : Nat) (r : Row)
    (bs : List Byte) : List Byte :=
  (List.range r.n).map fun i =>
    let o := rowIndex swz i
    let plain := bs.getD o 0
    let a := r.src + BitVec.ofNat 64 o
    match rowsOrigin rows swz a with
    | none => plain
    | some _ =>
      match s.pull cx k (chase rows swz ((Config.freeValue (s.tick * 2 ^ 25 + j * 16384 + i)).toNat % 65536) a) 1 false with
      | .bytes [b] => b
      | _ => plain

/-- The lines that rows touch. -/
def rowLines (rows : List Row) : List DWord :=
  (rows.flatMap fun r => (Loc.hbm r.dst.toNat).lines r.n).eraseDups.map fun l => BitVec.ofNat 64 l.off

/-- The tag of a line that rows write: the command's where all 1,024 bytes are written; its source line's under keep, when all
come from one line at the same offsets; 3 else (R262, R265). -/
def State.rowTag (s : State) (cx : Context) (k : Cmd) (rows : List Row) (swz : BitVec 2) (line : DWord) : BitVec 2 :=
  let from_ (o : Nat) := rowsOrigin rows swz (line + BitVec.ofNat 64 o)
  if !(List.range 1024).all fun o => (from_ o).isSome then 3
  else if swz != 3 then swz
  else match from_ 0 with
    | none => 3
    | some base =>
      if base.toNat % 1024 == 0 && (List.range 1024).all fun o => from_ o == some (base + BitVec.ofNat 64 o) then
        match s.engResolve cx k .read base with
        | .ok (.peer ..) _ => 3
        | .ok l _ => s.tagSeen (k.keys cx) l
        | _ => 3
      else 3

/-- Set a line's tag after a command's write. The last line of a KV page is never written whole (R262, R295). -/
def State.setLineTag (s : State) (cx : Context) (k : Cmd) (line : DWord) (tag : BitVec 2) : State :=
  match s.engResolve cx k .engineWrite line with
  | .ok (.peer ..) _ => s
  | .ok l a => if a.kv && l.off % 65536 == 64512 then s else s.putTag (k.keys cx) a.vers l tag
  | _ => s

/-- Write a piece into a command's shadow (R271): a sector enters it with what the version observes there, and with the stores made
to it since the command issued (R240). -/
def State.shadowPut (s : State) (cx : Context) (k : Cmd) (key va : DWord) (bytes : List Byte) : State :=
  match s.engResolve cx k .engineWrite va with
  | .ok l _ =>
    let sec := l.sector
    let put (old : List Byte) : List Byte :=
      (List.range 128).map fun i =>
        if l.off % 128 ≤ i && i < l.off % 128 + bytes.length then bytes.getD (i - l.off % 128) 0 else old.getD i 0
    let since := ((s.strays.filter (·.cmd == k.id)).flatMap fun x => hitOffsets sec x.loc x.n).eraseDups
    let mine (x : ShadowSector) : Bool := x.ctx == k.ctx && x.ver == k.ver && x.key == key && x.loc == sec
    if s.shadows.any mine then
      { s with shadows := s.shadows.map fun x =>
          if mine x then { x with cmd := k.id, bytes := put x.bytes, written := (x.written ++ since).eraseDups, tag := 3 } else x }
    else
      { s with shadows := s.shadows ++
          [{ ctx := k.ctx, ver := k.ver, key := key, cmd := k.id, va := BitVec.ofNat 64 (va.toNat / 128 * 128), loc := sec,
             bytes := put (s.seen (k.keys cx) sec 128), written := since, tag := 3 }] }
  | _ => s

/-- A destination whose shadow can be written: local virtual addresses outside the team region (R271). -/
def shadowable (dsts : List (DWord × Nat)) : Bool :=
  (dsts.flatMap fun (va, n) => pieces va n).all fun (va, _) => va.toNat / 2 ^ 56 == 0 && va.toNat / 2 ^ 48 != 0xF0

/-- Copy rows in ascending order (R265, R266, R271); `lifts` for CPY, which alone lifts a quarantine (R295). -/
def State.copyRows (s : State) (cx : Context) (k : Cmd) (key : DWord) (rows : List Row) (swz : BitVec 2) (shd lifts : Bool)
    (own : Option EngCause) (count : Nat) : State :=
  let dsts := rows.map fun r => (r.dst, r.n)
  let own := if shd && !shadowable dsts then EngCause.min own { code := 0x08, addr := key } else own
  s.engine cx k (rows.map fun r => { va := r.src, n := r.n }) dsts own fun data s =>
    let ws := ((List.range rows.length).zip (rows.zip data)).map fun (j, r, bs) => (r.dst, s.rowBytes cx k rows swz j r bs)
    let tags := (rowLines rows).map fun line => (line, s.rowTag cx k rows swz line)
    if shd then
      let s := ws.foldl (fun s (va, bs) =>
        (cutBytes (pieces va bs.length) bs).foldl (fun s (va, bs) => s.shadowPut cx k key va bs) s) s
      let s := { s with shadows := s.shadows.map fun (x : ShadowSector) =>
        if x.cmd == k.id then
          match tags.find? fun (t : DWord × BitVec 2) => t.1.toNat == x.va.toNat / 1024 * 1024 with
          | some t => { x with tag := t.2 }
          | none => x
        else x }
      s.finishCmd k [] (w32 count)
    else
      let (s, ts) := s.pushAll cx k ws lifts
      (tags.foldl (fun s (line, tag) => s.setLineTag cx k line tag) s).finishCmd k ts (w32 count)

/-- An operand at a peer when the device has no fabric (R2). -/
def State.noFabric (s : State) (va : DWord) : Option SlotCause :=
  if va.toNat / 2 ^ 56 == 1 && !s.cap 0 then some { code := 0x02, addr := va } else none

/-- The smallest of several causes of one slot (R175). -/
def smallest (xs : List (Option SlotCause)) : Option SlotCause :=
  xs.foldl (fun r x => match x with | some e => SlotCause.min r e | none => r) none

/-- Cause 0x07 at an address unless a condition holds. -/
def alignedOr (ok : Bool) (va : DWord) : Option SlotCause := if ok then none else some { code := 0x07, addr := va }

/-- An engine command that issues once, checked on the operands of the lowest active slot (R89, R257, R394). -/
def State.command (s : State) (p : Pfx) (srcs : List Src) (token : BitVec 7) (check : Ctx → State → Option SlotCause)
    (go : Ctx → State → State) : Answer :=
  .next (s.run p (groupSize p) { srcs := srcs, dsts := [(token, 1)], once := true, own := fun c s _ => check c s } fun c s =>
    s.judged c true [c.low] (fun _ => check c s) fun c s => (go c s).retire c)

/-- CPY (R265, R394). -/
def execCpy (p : Pfx) (f : F3) (s : State) : Answer :=
  let a : Src := .reg f.a 2 f.ta .int
  let b : Src := .reg f.b 2 f.tb .int
  let i := p.immNat
  let x := (p.ximm.getD 0).toNat
  let wide := p.ximm.isSome
  let rows := if wide then i % 1024 + 1 else 1
  let len := if wide then (i / 1024 % 1024 + 1) * 16 else (i % 2 ^ 20 + 1) * 16
  let swz := BitVec.ofNat 2 (i / 2 ^ 20)
  let sstr := if wide then x / 2048 * 64 else 0
  let dstr := if wide then x % 2048 * 64 else 0
  s.command p [a, b] f.d
    (fun c s =>
      let dst := c.val64 a c.low
      let src := c.val64 b c.low
      let lines := swz != 1 && swz != 2 || (dst.toNat % 1024 == 0 && len % 1024 == 0 && dstr % 1024 == 0)
      smallest [s.noFabric dst, s.noFabric src, alignedOr (dst.toNat % 16 == 0 && lines) dst, alignedOr (src.toNat % 16 == 0) src])
    fun c s => s.newCmd c (.cpy (c.val64 a c.low) (c.val64 b c.low) rows len sstr dstr swz (i / 2 ^ 22 == 1)) (c.tokenReg f.d) true

/-- CPY_COMPLETE (R265). -/
def execCpyComplete (s : State) : Answer :=
  s.engineStep (fun op => match op with | .cpy .. => true | _ => false) fun k cx =>
    match k.op with
    | .cpy dst src rows len sstr dstr swz shd =>
      s.copyRows cx k dst ((List.range rows).map fun j =>
        { dst := dst + BitVec.ofNat 64 (j * dstr), src := src + BitVec.ofNat 64 (j * sstr), n := len }) swz shd true none
        (rows * len)
    | _ => s

/-- GATH (R266, R394). -/
def execGath (p : Pfx) (f : F3) (s : State) : Answer :=
  let a : Src := .reg f.a 2 f.ta .int
  let b : Src := .reg f.b 2 f.tb .int
  let i := p.immNat
  let x := (p.ximm.getD 0).toNat
  s.command p [a, b] f.d
    (fun c s =>
      let dst := c.val64 a c.low
      let list := c.val64 b c.low
      smallest [s.noFabric dst, s.noFabric list, alignedOr (dst.toNat % 16 == 0) dst, alignedOr (list.toNat % 8 == 0) list])
    fun c s =>
      s.newCmd c (.gath (c.val64 a c.low) (c.val64 b c.low) ((i % 4096 + 1) * 16) (x % 256 + 1) (x / 256 * 16)
        (BitVec.ofNat 2 (i / 2 ^ 20)) (i / 2 ^ 22 == 1)) (c.tokenReg f.d) true

/-- The rows that a list names (R266). -/
def gathRows (dst : DWord) (row count stride : Nat) (list : List Byte) : List Row :=
  let base := BitVec.ofNat 64 (leNat (list.take 8))
  (List.range count).map fun j =>
    { dst := dst + BitVec.ofNat 64 (j * row)
      src := base + BitVec.ofNat 64 (leNat ((list.drop (8 + 4 * j)).take 4) * stride), n := row }

/-- GATH_COMPLETE: the list, then the rows (R266, R394). -/
def execGathComplete (s : State) : Answer :=
  s.engineStep (fun op => match op with | .gath .. => true | _ => false) fun k cx =>
    match k.op with
    | .gath dst list row count stride swz shd =>
      s.engine cx k [{ va := list, n := 8 + 4 * count }] [] none fun data s =>
        let rows := gathRows dst row count stride (data.headD [])
        let odd : Option EngCause :=
          match rows.find? fun r => r.src.toNat % 16 != 0 with
          | some r => some { code := 0x07, addr := r.src }
          | none =>
            if (swz == 1 || swz == 2) && !(dst.toNat % 1024 == 0 && row % 1024 == 0) then some { code := 0x07, addr := dst }
            else none
        s.copyRows cx k dst rows swz shd false odd (count * row)
    | _ => s

/-- The operands of CPYT in a slot: destination, source, and how many source bytes it copies (R267). -/
structure CpytArgs where
  dst : DWord
  src : DWord
  n : Nat

/-- Issue a CPYT's copies, one for each active slot, under its tag (R267). -/
def State.cpytIssue (s : State) (c : Ctx) (tag : Nat) (arg : Fin 32 → CpytArgs) : State :=
  let ts := (c.tray.tags[tag]?).getD { count := 0, epoch := 0 }
  let m := (maskSlots c.act).length
  let mine (e : Epoch) : Bool := e.tray == c.tray.id && e.tag == tag && e.epoch == ts.epoch
  let s : State := if s.epochs.any mine then s
    else { s with epochs := s.epochs ++
      [{ tray := c.tray.id, tag := tag, epoch := ts.epoch, left := 0, bytes := 0, cause := 0, cancelled := false, copies := [] }] }
  let s := (maskSlots c.act).foldl (fun s t =>
    let id := s.nextId
    let s := s.newCmd c (.cpyt (arg t).dst (arg t).src (arg t).n t tag ts.epoch) .none false
    { s with epochs := s.epochs.map fun (e : Epoch) => if mine e then { e with left := e.left + 1, copies := e.copies ++ [id] } else e }) s
  (s.modTray c.tray.id fun tr =>
    { tr with tags := tr.tags.setIfInBounds tag { ts with count := ts.count + w32 m } }).retire c

/-- CPYT: every slot's destination and source are checked, at peers too, before any copy issues (R267). -/
def execCpyt (p : Pfx) (f : F3) (s : State) : Answer :=
  let n : Src := .reg f.d 1 false .int
  let a : Src := .reg f.a 2 f.ta .int
  let b : Src := .reg f.b 2 f.tb .int
  let arg (c : Ctx) (t : Fin 32) : CpytArgs :=
    { dst := c.val64 a t, src := c.val64 b t, n := Nat.min (c.val n t).toNat 32 }
  let source (c : Ctx) (s : State) (t : Fin 32) : Resolved := s.resolve c.cx c.ver c.team.id c.tray? .read (arg c t).src
  let own (c : Ctx) (s : State) (t : Fin 32) : Option SlotCause :=
    if (arg c t).n == 0 then none else c.accessCause s .read 32 (arg c t).src
  .next (s.run p (groupSize p)
      { srcs := [n, a, b], own := fun c s => c.slotAccess s false .engineWrite 32 (fun t => (arg c t).dst) (own c s) } fun c s =>
    s.reach c false .engineWrite 32 (fun t => (arg c t).dst) (own c s) fun c hs s =>
      let reads := (maskSlots c.act).filter fun t => (arg c t).n != 0
      if reads.any fun t => source c s t == Resolved.wait then s.pollFabric c
      else
        let qs : List Query :=
          ((remoteHits hs).map fun (h, p, a) => { slot := h.slot, va := h.va, peer := p, addr := a, op := .check 32 false true }) ++
            reads.filterMap fun t => match source c s t with
              | .ok (.peer p a) _ => some { slot := t, va := (arg c t).src, peer := p, addr := a, op := .read (arg c t).n }
              | _ => none
        s.inquired c false qs fun c s => (s.unpull c).cpytIssue c p.immNat (arg c))

/-- CPYT_COPY_COMPLETE (R267). -/
def execCpytCopyComplete (s : State) : Answer :=
  s.engineStep (fun op => match op with | .cpyt .. => true | _ => false) fun k cx =>
    match k.op with
    | .cpyt dst src n _ _ _ =>
      s.engine cx k (if n == 0 then [] else [{ va := src, n := n }]) [(dst, 32)] none fun data s =>
        let (s, ts) := s.pushAll cx k [(dst, data.headD [] ++ List.replicate (32 - n) 0)] false
        s.finishCmd k ts 0
    | _ => s

/-- CTAG (R268): an epoch without copies gives its token at once. -/
def execCtag (p : Pfx) (f : FTag) (s : State) : Answer :=
  s.command p [] f.d (fun _ _ => none) fun c s =>
    let tag := f.n.toNat
    let ts := (c.tray.tags[tag]?).getD { count := 0, epoch := 0 }
    let s := s.modTray c.tray.id fun tr => { tr with tags := tr.tags.setIfInBounds tag { ts with epoch := ts.epoch + 1 } }
    if s.epochs.any fun (e : Epoch) => e.tray == c.tray.id && e.tag == tag && e.epoch == ts.epoch then
      s.newCmd c (.ctag tag ts.epoch) (c.tokenReg f.d) true
    else s.newDone c (c.tokenReg f.d) 0

/-- CTAG_TOKEN: every copy of the closed epoch has ended, and the token stands for their writes (R268, R392). -/
def execCtagToken (s : State) : Answer :=
  s.engineStep (fun op => match op with | .ctag .. => true | _ => false) fun k _ =>
    match k.op with
    | .ctag tag epoch =>
      let mine (e : Epoch) : Bool := some e.tray == k.tray? && e.tag == tag && e.epoch == epoch
      match s.epochs.find? mine with
      | some e =>
        if e.left != 0 then s
        else
          (({ s with epochs := s.epochs.filter fun x => !mine x }).cmdFor e.copies k.id).tokenWrite k
            (if e.cancelled then 0xC0000000#32 else if e.cause != 0 then w32 (0x80000000 + e.cause) else w32 e.bytes)
      | none => s.tokenWrite k 0
    | _ => s

/-- Units of a die's tile store, 64 KiB each (R10). -/
def tileUnits : Nat := 2048

/-- The units that pinned ranges of a die take, of one partition's contexts or of all. -/
def State.pinnedUnits (s : State) (die : Nat) (mine : Nat → Bool) : Nat :=
  ((s.homeTab.filter fun h => h.valid && h.home == 3 && h.aff.toNat == die && !h.lost && mine h.ctx).map (·.pages)).sum

/-- A context's partition; 64, which is none, while the context does not exist. -/
def State.partOfCtx (s : State) (ctx : Nat) : Nat := match s.ctx? ctx with | some c => c.part | none => 64

/-- The first unit where n units fit beside a die's allocations; pinned ranges stand above them (log 24). -/
def State.tileSpace (s : State) (die n : Nat) : Option Nat :=
  let used := (s.allocs.filter fun a => a.die == die && !a.lost).map fun a => (a.first, a.units)
  let top := tileUnits - s.pinnedUnits die fun _ => true
  ((0 :: used.map fun u => u.1 + u.2).filter fun o =>
    o + n ≤ top && used.all fun u => o + n ≤ u.1 || u.1 + u.2 ≤ o).min?

/-- Tile-store units of a die that a partition uses. -/
def State.tileUsed (s : State) (part die : Nat) : Nat :=
  ((s.allocs.filter fun a => a.die == die && !a.lost && s.partOfCtx a.ctx == part).map (·.units)).sum +
    s.pinnedUnits die fun ctx => s.partOfCtx ctx == part

/-- A pinned range fits its context's quota, and its tile store when it rests in one (R195, R386). The quota of a context that does not
exist yet is asked when it is created. -/
def State.pinFits (s : State) (h : HomeEntry) : Bool :=
  let space : Bool := h.home != 3 || (s.tileSpace h.aff.toNat h.pages).isSome
  match s.ctx? h.ctx with
  | none => space
  | some c =>
    match s.part? c.part with
    | none => false
    | some p =>
      if h.home == 3 then space && s.tileUsed p.id h.aff.toNat + h.pages ≤ p.tsq.getD h.aff.toNat 0
      else s.hubPinned p.id + h.pages * 64 ≤ p.l2q * 1024

/-- The home-table entries of a context that has been created are tested against its quotas, the lowest first; one that does not fit is
not valid (R386, log 64). -/
def State.admitPins (s : State) (ctx : Nat) : State :=
  (List.range s.homeTab.length).foldl (fun s i =>
    match s.homeTab[i]? with
    | some h =>
      if !h.valid || h.ctx != ctx then s
      else
        let out : State := { s with homeTab := modAt (fun h => { h with valid := false }) s.homeTab i }
        if out.pinFits h then s else out
    | none => s) s

/-- The aperture units where a handle of n units can stand (R269). -/
def State.handlesFor (s : State) (cx : Context) (n : Nat) : List Nat :=
  let used := (s.allocs.filter fun a => a.ctx == cx.id).map fun a => ((a.handle - cx.tsap) / 65536, a.units)
  (List.range (65536 - n + 1)).filter fun o => used.all fun u => o + n ≤ u.1 || u.1 + u.2 ≤ o

/-- Take n units on a die for a version: the handle, 0 when it cannot be (R269). Which of the aperture's free addresses it is
is open, and free. -/
def State.tileTake (s : State) (cx : Context) (ver die n : Nat) : Nat × State :=
  let quota := match s.part? cx.part with | some p => p.tsq.getD die 0 | none => 0
  if n == 0 || 2048 < n || cx.tsap == 0 || quota < s.tileUsed cx.part die + n then (0, s)
  else match s.tileSpace die n with
    | none => (0, s)
    | some first =>
      let hs := s.handlesFor cx n
      match hs[(Config.freeValue s.tick).toNat % hs.length]? with
      | none => (0, s)
      | some u =>
        let (id, s) := s.fresh
        (cx.tsap + u * 65536,
          { s with allocs := s.allocs ++
              [{ id := id, ctx := cx.id, ver := ver, handle := cx.tsap + u * 65536, units := n, die := die, first := first,
                 store := Store.empty, lost := false }] })

/-- TSALLOC (R269): once, for every active slot. -/
def execTsalloc (p : Pfx) (f : F3A) (s : State) : Answer :=
  let a := immOr p p.immU f.a f.ta .int
  .next (s.run p (groupSize p) { srcs := [a], dsts := [(f.d, 2)], once := true } fun c s =>
    if (maskSlots c.act).any (c.slotWaits { dsts := [(f.d, 2)] }) then s.stall
    else
      let (h, s) := s.tileTake c.cx c.ver (dieOf c.bench) (c.val a c.low).toNat
      let v := BitVec.ofNat 64 h
      s.produce c .handle (c.writes f.d 2 fun _ => [loWord v, hiWord v]))

/-- A producer of a kind gives its registers their values (R43). -/
def State.fillProducer (s : State) (id : Nat) (kind : ProdKind) : State :=
  match s.prods.find? fun x => x.id == id with
  | some x =>
    if x.kind == kind then ({ s with prods := s.prods.filter fun y => y.id != id }).putRegs x.owner x.writes else s
  | none => s

/-- TSALLOC_HANDLE_FILL (R43, R269). -/
def execTsallocHandleFill (s : State) : Answer := .next (s.fillProducer s.input.id .handle)

/-- TSFREE (R270). -/
def execTsfree (p : Pfx) (f : FA) (s : State) : Answer :=
  let a : Src := .reg f.a 2 f.ta .int
  .next (s.run p (groupSize p) { srcs := [a], once := true } fun c s =>
    let h := (c.val64 a c.low).toNat
    match s.allocs.find? fun x => x.ctx == c.cx.id && (c.cx.chain c.ver).contains x.ver && x.handle == h with
    | none => s.retire c
    | some x =>
      if x.ver == c.ver then ({ s with allocs := s.allocs.filter fun y => y.id != x.id }).retire c
      else
        (s.modCtx c.cx.id fun cx =>
          { cx with versions := cx.versions.map fun (v : Version) =>
              if v.loc == c.ver && !v.frees.contains x.id then { v with frees := v.frees ++ [x.id] } else v }).retire c)

/-- PUBLISH (R272). -/
def execPublish (p : Pfx) (f : F3A) (s : State) : Answer :=
  let a : Src := .reg f.a 2 f.ta .int
  s.command p [a] f.d (fun _ _ => none) fun c s =>
    let key := c.val64 a c.low
    let waits := (s.cmds.filter fun k => k.owner == c.owner && (match k.op with
      | .cpy dst _ _ _ _ _ _ true | .gath dst _ _ _ _ _ true => dst == key
      | _ => false)).map (·.id)
    s.newCmd c (.publish key waits) (c.tokenReg f.d) true

/-- What a sector of a shadow leaves in memory: the stores made to it since its command issued are all kept or all overwritten, a
free choice for the sector (R240). -/
def State.published (s : State) (cx : Context) (k : Cmd) (j : Nat) (x : ShadowSector) : List Byte :=
  if Config.freeBit (s.tick * 65536 + j) then
    let now := s.seen (k.keys cx) x.loc 128
    (List.range 128).map fun i => if x.written.contains i then now.getD i 0 else x.bytes.getD i 0
  else x.bytes

/-- A sector's published bytes take their place at one instant, and every observer sees them from now on (R240, R272). -/
def State.publishOne (s : State) (cx : Context) (k : Cmd) (va : DWord) (bytes : List Byte) : State :=
  match s.engResolve cx k .engineWrite va with
  | .ok (.peer ..) _ => s
  | .ok l a =>
    let bs := if a.kv then bytes.take (65472 - l.off % 65536) else bytes
    (s.store (k.keys cx) a l bs .agent (some (.cmd k.id)) true).settleRange (if a.vers then (k.keys cx).head? else none) l bs.length
  | _ => s

/-- PUBLISH_INSTANT (R240, R272). -/
def execPublishInstant (s : State) : Answer :=
  s.engineStep (fun op => match op with | .publish .. => true | _ => false) fun k cx =>
    match k.op with
    | .publish key waits =>
      if waits.any fun w => (s.cmd? w).isSome then s
      else
        let mine (x : ShadowSector) : Bool := x.ctx == k.ctx && x.ver == k.ver && x.key == key
        let xs := s.shadows.filter mine
        s.engine cx k [] (xs.map fun x => (x.va, 128)) none fun _ s =>
          let ws := ((List.range xs.length).zip xs).map fun (j, x) => (x.va, s.published cx k j x)
          let s := ws.foldl (fun s (va, bs) => s.publishOne cx k va bs) s
          let s := (s.kvPages cx k (xs.map fun x => (x.va, 128))).foldl
            (fun s (va, pg, a, _) => s.sealPage k (k.keys cx) a va pg false) s
          let lines := (xs.map fun x => x.va.toNat / 1024 * 1024).eraseDups
          let s := lines.foldl (fun s line =>
            match xs.filter fun x => x.va.toNat / 1024 * 1024 == line with
            | [] => s
            | x :: rest =>
              if rest.length == 7 && rest.all fun y => y.tag == x.tag then s.setLineTag cx k (BitVec.ofNat 64 line) x.tag else s) s
          ({ s with shadows := s.shadows.filter fun x => !mine x }).finishCmd k [] (w32 (128 * xs.length))
    | _ => s

end Sys2Proof.Machine
end

