-- ==== Sys2Proof/Machine/Carousel.lean ====
section
/-!
DEFINITION. Machine/Carousel.lean: major 24 (R207 to R222) and the steps of the carousel, which also advance the clock (R4,
R48, R368).
-/

namespace Sys2Proof.Machine

/-- The die that a bypassed ring leaves out (R366, R368). -/
def State.bypassed (s : State) : Option Nat := s.pkg.offline.find? fun d => d < 4

/-- The position of a die's station; a bypass adds its positions behind the die it leaves out (R207, R368). -/
def State.stationPos (s : State) (die : Nat) : Nat :=
  256 * die + (match s.bypassed with | some d => if d < die then s.ring.size - 1024 else 0 | none => 0)

/-- The number of the car that dwells at a die's station. -/
def State.dwelling (s : State) (die : Nat) : Option Nat :=
  let r := s.ring
  let n := (s.stationPos die + r.size - r.turn % r.size) % r.size
  if n < r.count then some n else none

/-- The busy car with a number. -/
def Ring.car? (r : Ring) (n : Nat) : Option Car := r.cars.find? fun c => c.num == n

/-- The name that a carousel command bears, none for other commands. -/
def CmdOp.name? : CmdOp → Option Word
  | .board n _ | .catchTile n _ | .rplc n _ | .alight n => some n
  | _ => none

/-- A command on the car at its station can be served in the present dwell (R211 to R216); one that follows a service of the dwell
in which it was issued waits for the next dwell (R256). -/
def State.servable (s : State) (k : Cmd) : Bool :=
  match k.state, k.op.name?, s.dwelling k.die with
  | .registered _ d, some name, some n =>
    0 < d && d ≤ s.ring.size && !(k.chained && k.since == s.clk) &&
      (match k.op with
       | .board .. => (s.ring.car? n).isNone && !s.ring.freed.contains n
       | _ => (match s.ring.car? n with | some c => c.name == name && c.owner == k.ctx && !c.doomed | none => false))
  | _, _, _ => false

/-- The order of a dwell: RPLCs, CATCHes, BOARDs, ALIGHTs, each in order of registration (R216). -/
def Cmd.rank (k : Cmd) : Nat × Nat :=
  let o := match k.state with | .registered o _ => o | _ => 0
  (match k.op with | .rplc .. => 0 | .catchTile .. => 1 | .board .. => 2 | _ => 3, o)

/-- A command is the next that the present dwell at its station serves. -/
def State.serving (s : State) (k : Cmd) : Bool :=
  s.servable k && !(s.cmds.any fun j => j.die == k.die && s.servable j &&
    (j.rank.1 < k.rank.1 || (j.rank.1 == k.rank.1 && j.rank.2 < k.rank.2)))

/-- A command's dwells are over (R211, R368). -/
def State.overdue (s : State) (k : Cmd) : Bool := match k.state with | .registered _ d => s.ring.size < d | _ => false

/-- An earlier carousel command of the same issuer has not registered yet: they register in order (R211). -/
def State.behind (s : State) (k : Cmd) : Bool :=
  (s.cmds.takeWhile fun j => j.id != k.id).any fun j =>
    j.owner == k.owner && j.op.carousel && j.gen == 0 && (match j.state with | .registered .. => false | _ => true)

/-- The source of a BOARD or RPLC is fit (R212, R214). -/
def boardCheck (c : Ctx) (s : State) (name : Word) (src : DWord) : Option SlotCause :=
  smallest [if c.ver != 0 || name == 0 then some { code := 0x15, addr := src } else none, s.noFabric src,
    alignedOr (src.toNat % 1024 == 0) src]

/-- BOARD (R212). -/
def execBoard (p : Pfx) (f : F3) (s : State) : Answer :=
  let a := immOr p p.immU f.a f.ta .int
  let b : Src := .reg f.b 2 f.tb .int
  s.command p [a, b] f.d (fun c s => boardCheck c s (c.val a c.low) (c.val64 b c.low)) fun c s =>
    s.newCmd c (.board (c.val a c.low) (c.val64 b c.low)) (c.tokenReg f.d) false

/-- RPLC (R214). -/
def execRplc (p : Pfx) (f : F3) (s : State) : Answer :=
  let a := immOr p p.immU f.a f.ta .int
  let b : Src := .reg f.b 2 f.tb .int
  s.command p [a, b] f.d (fun c s => boardCheck c s (c.val a c.low) (c.val64 b c.low)) fun c s =>
    s.newCmd c (.rplc (c.val a c.low) (c.val64 b c.low)) (c.tokenReg f.d) false

/-- A place where a caught tile may go: the team's shared memory, the tray's landing scratch, HOME 11 pages of the issuing die
(R213). -/
def State.catchable (s : State) (c : Ctx) (va : DWord) : Bool :=
  match s.resolve c.cx c.ver c.team.id c.tray? .read va with
  | .ok (.shared ..) _ | .ok (.scratch ..) _ => true
  | .ok (.peer ..) _ => false
  | .ok _ a => a.home == 3 && a.aff.toNat == dieOf c.bench
  | _ => false

/-- The smallest cause of writing a tile (R175, R213). -/
def catchCheck (c : Ctx) (s : State) (dst : DWord) : Option SlotCause :=
  let ps := (pieces dst 16384).map (·.1)
  let acc := ps.foldl (fun r va => match s.resolve c.cx c.ver c.team.id c.tray? .engineWrite va with
    | .fault code => SlotCause.min r { code := code, addr := va }
    | _ => r) none
  smallest [acc, alignedOr (dst.toNat % 1024 == 0) dst, if ps.all (s.catchable c) then none else some { code := 0x15, addr := dst }]

/-- CATCH (R213). -/
def execCatch (p : Pfx) (f : F3) (s : State) : Answer :=
  let a := immOr p p.immU f.a f.ta .int
  let b : Src := .reg f.b 2 f.tb .int
  s.command p [a, b] f.d (fun c s => catchCheck c s (c.val64 b c.low)) fun c s =>
    s.newCmd c (.catchTile (c.val a c.low) (c.val64 b c.low)) (c.tokenReg f.d) false

/-- ALIGHT (R215): it marks nothing empty. -/
def execAlight (p : Pfx) (f : FA) (s : State) : Answer :=
  let a := immOr p p.immU f.a f.ta .int
  .next (s.run p (groupSize p) { srcs := [a], once := true } fun c s =>
    s.judged c true [c.low] (fun _ => if c.ver != 0 then some { code := 0x15 } else none) fun c s =>
      (s.newCmd c (.alight (c.val a c.low)) .none false).retire c)

/-- The swizzle tags of a tile's 16 lines (R207, R212). -/
def State.tileTags (s : State) (cx : Context) (k : Cmd) (src : DWord) : BitVec 32 :=
  (List.range 16).foldl (fun w i =>
    let t : BitVec 2 := match s.engResolve cx k .read (src + BitVec.ofNat 64 (1024 * i)) with
      | .ok (.peer ..) _ => 3
      | .ok l _ => s.tagSeen (k.keys cx) l
      | _ => 3
    w ||| t.setWidth 32 <<< (2 * i)) 0

/-- The partition's car quota is full (R208, R212). -/
def State.carsFull (s : State) (part : Nat) : Bool :=
  (match s.part? part with | some p => p.carq | none => 0) ≤ (s.ring.cars.filter fun c => c.part == part).length

/-- STATION_REGISTER (R211, R212): a tile to be boarded is read first. A dwell in progress counts for CATCH, RPLC and ALIGHT, unless the
command may not be served in it (R256). -/
def execStationRegister (s : State) : Answer :=
  s.engineStep CmdOp.carousel fun k cx =>
    if s.behind k || k.gen != 0 then s
    else
      let register (s : State) (d : Nat) (g : Cmd → Cmd) : State :=
        let (o, s) := s.fresh
        let d := if k.chained && k.since == s.clk then 0 else d
        s.modCmd k.id fun x => { g x with state := .registered o d, tags := [], got := [] }
      match k.op with
      | .board _ src =>
        s.engine cx k [{ va := src, n := 16384 }] [] none fun data s =>
          if s.carsFull cx.part then s.tokenWrite k 0x80000001#32
          else register s 0 fun x => { x with data := data.flatten, swz := s.tileTags cx k src }
      | .rplc _ src =>
        s.engine cx k [{ va := src, n := 16384 }] [] none fun data s =>
          register s 1 fun x => { x with data := data.flatten, swz := s.tileTags cx k src }
      | _ => register s 1 id

/-- A registered command of a kind, in its context, when the present dwell serves it. -/
def State.served? (s : State) (mine : CmdOp → Bool) : Option (Cmd × Context × Nat) :=
  match s.cmd? s.input.id with
  | none => none
  | some k =>
    match s.ctx? k.ctx, s.dwelling k.die with
    | some cx, some n => if mine k.op && s.serving k then some (k, cx, n) else none
    | _, _ => none

/-- BOARD_LOAD (R212): the name check and the loading are one step for the whole ring. -/
def execBoardLoad (s : State) : Answer :=
  match s.served? fun op => match op with | .board .. => true | _ => false with
  | some (k, cx, n) =>
    let name := (k.op.name?).getD 0
    if s.ring.cars.any fun c => c.name == name && c.owner == k.ctx && !c.doomed then
      .next ((s.servedNow k.ctx k.launch k.id).tokenWrite k 0x80000003#32)
    else if s.carsFull cx.part then .next (s.tokenWrite k 0x80000001#32)
    else
      let car : Car :=
        { num := n, name := name, owner := k.ctx, part := cx.part, gen := 1, swz := k.swz, crc := BitVec.ofNat 32 (crc32c k.data),
          data := k.data, boarded := s.clk, doomed := false }
      .next ((({ s with ring := { s.ring with cars := s.ring.cars ++ [car] } }).servedNow k.ctx k.launch k.id).tokenWrite k 1)
  | none => .next s

/-- RPLC_SERVE (R214). -/
def execRplcServe (s : State) : Answer :=
  match s.served? fun op => match op with | .rplc .. => true | _ => false with
  | some (k, _, n) =>
    match s.ring.car? n with
    | some c =>
      let g := if c.gen == 0xFFFF then 1 else c.gen + 1
      let c' := { c with gen := g, swz := k.swz, crc := BitVec.ofNat 32 (crc32c k.data), data := k.data }
      let s := { s with ring := { s.ring with cars := s.ring.cars.map fun (x : Car) => if x.num == n then c' else x } }
      .next ((s.servedNow k.ctx k.launch k.id).tokenWrite k (w32 g))
    | none => .next s
  | none => .next s

/-- Free a car in the present dwell. -/
def Ring.free (r : Ring) (n : Nat) : Ring := { r with cars := r.cars.filter fun c => c.num != n, freed := r.freed ++ [n] }

/-- ALIGHT_SERVE (R215). -/
def execAlightServe (s : State) : Answer :=
  match s.served? fun op => match op with | .alight .. => true | _ => false with
  | some (k, _, n) => .next (({ s with ring := s.ring.free n }).tokenWrite k 0)
  | none => .next s

/-- The sectors of a tile that the station writes as it latches it, or those that it writes with the token: until then a sector of the
destination holds its earlier contents or the caught bytes, and a store to it stays or is overwritten (R223). Which sectors come
first is free (log 10). -/
def Cmd.tileSectors (k : Cmd) (early : Bool) : List Nat :=
  (List.range 128).filter fun i => Config.freeBit (k.id * 65536 + i) == early

/-- Write sectors of a latched tile to their destination, and go on (R213). -/
def State.writeTile (s : State) (cx : Context) (k : Cmd) (dst : DWord) (secs : List Nat) (go : State → State) : State :=
  s.engine cx k [] [(dst, 16384)] none fun _ s =>
    go (s.pushAll cx k (secs.map fun i => (dst + BitVec.ofNat 64 (128 * i), (k.data.drop (128 * i)).take 128)) false).1

/-- The caught tile is whole: its lines take their tags, and the token its generation (R213). -/
def State.tileDone (s : State) (cx : Context) (k : Cmd) (dst : DWord) : State :=
  ((List.range 16).foldl (fun s i =>
    s.setLineTag cx k (dst + BitVec.ofNat 64 (1024 * i)) (k.swz.extractLsb' (2 * i) 2)) s).tokenWrite k (w32 k.gen)

/-- CATCH_LATCH (R180, R213, R223): the dwell that serves a CATCH latches the tile, and its next step, in the same dwell, writes what is
left of it; `flag` says that the car's contents fail their check. A tile whose writing met a cause is written again after its
trap. -/
def execCatchLatch (s : State) : Answer :=
  let mine (op : CmdOp) : Bool := match op with | .catchTile .. => true | _ => false
  match s.served? mine with
  | some (k, cx, n) =>
    (match s.ring.car? n, k.op with
     | some c, .catchTile _ dst =>
       if s.input.flag || c.crc != BitVec.ofNat 32 (crc32c c.data) then
         .next (({ s with ring := s.ring.free n }).stopContext k.ctx 0x13
           { cause := 0x13, front := k.fromFront, engine := true, ver := cx.gid s.devNo k.ver, pc := k.pc, teamno := k.teamno, d0 := 7 })
       else
         let k' := { k with data := c.data, swz := c.swz, gen := c.gen, state := .latched }
         .next (((s.modCmd k.id fun _ => k').servedNow k.ctx k.launch k.id).writeTile cx k' dst (k'.tileSectors true) id)
     | _, _ => .next s)
  | none =>
    match s.cmd? s.input.id with
    | none => .next s
    | some k =>
      match s.ctx? k.ctx, k.op with
      | some cx, .catchTile _ dst =>
        if k.state == .latched then .next (s.writeTile cx k dst (k.tileSectors false) fun s => s.tileDone cx k dst)
        else if k.state == .queued && k.gen != 0 then .next (s.writeTile cx k dst (List.range 128) fun s => s.tileDone cx k dst)
        else .next s
      | _, _ => .next s

/-- CAROUSEL_NOT_SERVED (R210, R211). -/
def execCarouselNotServed (s : State) : Answer :=
  match s.cmd? s.input.id with
  | none => .next s
  | some k =>
    if s.overdue k then
      .next (s.tokenWrite k (match k.op with | .board .. => 0x80000002#32 | _ => 0x80000000#32))
    else .next s

/-- Units of device time in 8 clk at a clock of n × 93.75 MHz (R4, R48). -/
def eightClk (n : Nat) : Nat := 184504320 / n

/-- The tile of a BOARD or RPLC is at hand: no piece of it waits for a peer (log 146). -/
def State.sourceNear (s : State) (k : Cmd) : Bool :=
  match k.op, s.ctx? k.ctx with
  | .board _ src, some cx | .rplc _ src, some cx =>
    (pieces src 16384).all fun (va, _) => match s.engResolve cx k .read va with
      | .ok (.peer ..) _ | .wait => false
      | _ => true
  | _, _ => true

/-- A carousel command must register within 56 clk of its issue (R211). -/
def State.mustRegister (s : State) (k : Cmd) : Bool :=
  k.op.carousel && k.state == .queued && k.gen == 0 && !s.behind k && s.sourceNear k && 48 ≤ s.clk - k.since

/-- Something must happen in the present dwell first: a command is served or overdue, a latched tile is written, a command
registers (R211, R217). -/
def State.dwellBusy (s : State) : Bool :=
  s.cmds.any fun k => s.servable k || s.overdue k || k.state == .latched || s.mustRegister k

/-- The cars of stopped contexts that dwell at a station are freed (R208). -/
def State.freeDoomed (s : State) : State :=
  let at_ := ((List.range 4).filter fun d => !s.pkg.offline.contains d).filterMap s.dwelling
  { s with ring := { s.ring with cars := s.ring.cars.filter fun c => !(c.doomed && at_.contains c.num) } }

/-- The TAIL of an active chain has to be read now, for 50 µs of device time are nearly over (R384). -/
def State.pollDue (s : State) : Bool := s.sched.chains.any fun (ch : Chain) => ch.active && ch.polled + 49000 ≤ s.time

/-- CAR_ADVANCE (R207): every car moves one position in 8 clk. -/
def execCarAdvance (s : State) : Answer :=
  if s.dwellBusy || s.pollDue then .next s
  else
    let s := { s with
      ring := { s.ring with turn := (s.ring.turn + 1) % s.ring.size, freed := [] }
      past := s.past.filter fun e => !e.dwell
      clk := s.clk + 8
      timeU := s.timeU + eightClk s.pkg.clock
      cmds := s.cmds.map fun (k : Cmd) => match k.state with
        | .registered o d => { k with state := .registered o (d + 1) }
        | _ => k }
    .next s.freeDoomed

/-- What HOMEQ says of an address (R219). -/
def State.homeOf (s : State) (c : Ctx) (va : DWord) : Nat :=
  let a := va.toNat
  if a / 2 ^ 56 == 1 then 0x100 + a / 2 ^ 52 % 16
  else if a / 2 ^ 48 == 0xF0 then dieOf c.bench
  else match s.homeFor c.cx.id a with
    | some (_, h) => if h.home == 3 then h.aff.toNat else if h.home == 2 then 4 else 0xFF
    | none => (match s.allocFor c.cx c.ver a with | some x => x.die | none => 0xFF)

/-- HOMEQ (R219). -/
def execHomeq (p : Pfx) (f : F3A) (s : State) : Answer :=
  let a : Src := .reg f.a 2 f.ta .int
  s.alu p (groupSize p) [a] f.d fun c t => w32 (s.homeOf c (c.val64 a t))

/-- MIGRATE (R220): the tray waits to be shipped. -/
def execMigrate (f : FA) (s : State) : Answer :=
  let a : Src := .reg f.a 2 f.ta .int
  .next (s.run Pfx.empty 4 { srcs := [a], once := true } fun c s =>
    let die := s.homeOf c (c.val64 a c.low)
    let home := dieOf c.team.bench
    if 3 < die || (!c.detached && die == home) || (c.detached && die == dieOf c.bench) then s.retire c
    else s.waitAt c (.migrate die))

end Sys2Proof.Machine
end

