-- ==== Sys2Proof/Machine/Cross.lean ====
section
/-!
DEFINITION. Machine/Cross.lean: major 17, the cross-lane instructions (R162), and major 27, the register instructions that
move values (R52 to R55).
-/

namespace Sys2Proof.Machine

/-- Register A of another slot is empty. -/
def Ctx.emptyAt (c : Ctx) (a : BitVec 7) (u : Option (Fin 32)) : Bool :=
  match u with
  | some v => (match c.names a 1 v with | .ok rs => rs.any fun r => !c.isFull r | .error _ => false)
  | none => false

/-- The words that the slots of XPICK take, one slot after the other: a slot finds what an earlier one has written to the register that
it reads (R6, R162). -/
def Ctx.picks (c : Ctx) (d a : BitVec 7) (u : Fin 32 → Option (Fin 32)) : List (Fin 32 × Word) :=
  (maskSlots c.act).foldl (fun done t =>
    let w := match u t with
      | none => 0
      | some v =>
        match done.find? fun x => x.1 == v && (c.names d 1 v).toOption == (c.names a 1 v).toOption with
        | some x => x.2
        | none => (c.words (.at_ a fun _ => v) t).headD 0
    done ++ [(t, w)]) []

/-- XPICK and XPICKX: register A of the slot that `target` names, 0 where it names none (R162). Where that register is empty, a source
that traps raises 0x03, which is weighed against the operands' causes (R175). -/
def State.crossPick (s : State) (p : Pfx) (f : F3) (target : Ctx → Fin 32 → Word → Option (Fin 32)) : Answer :=
  let b := immOr p p.immS f.b f.tb .int
  let bad (c : Ctx) (t : Fin 32) : Option SlotCause :=
    if c.traps (.reg f.a 1 f.ta .int) && c.emptyAt f.a (target c t (c.val b t)) then some { code := 0x03 } else none
  .next (s.run p (groupSize p) { srcs := [b], dsts := [(f.d, 1)], named := [f.a], own := fun c _ t => bad c t } fun c s =>
    s.judged c false (maskSlots c.act) (bad c) fun c s =>
      let u (t : Fin 32) := target c t (c.val b t)
      if (maskSlots c.act).any fun t => c.emptyAt f.a (u t) then s.stall
      else
        let absent := maskOf fun t => c.act.getLsbD t.val && (u t).isNone
        let s := if c.clears then s.clearSlots c absent else s
        let ws := c.picks f.d f.a u
        s.finish c f.d 1 fun t => [((ws.find? fun x => x.1 == t).map (·.2)).getD 0])

/-- XPICK (R162). -/
def execXpick (p : Pfx) (f : F3) (s : State) : Answer :=
  s.crossPick p f fun c _ b => slotList.find? fun u => c.tray.remap[u] == some b.toNat

/-- XPICKX (R162). -/
def execXpickx (p : Pfx) (f : F3) (s : State) : Answer :=
  s.crossPick p f fun c t b =>
    let u : Fin 32 := t ^^^ Fin.ofNat 32 b.toNat
    if c.tray.remap[u].isSome then some u else none

/-- PALL (R162). -/
def execPall (p : Pfx) (f : FPA) (s : State) : Answer :=
  s.setp p (groupSize p) [] [f.pa] f.p fun c _ => (maskSlots c.act).all (c.pred f.pa)

/-- PANY (R162). -/
def execPany (p : Pfx) (f : FPA) (s : State) : Answer :=
  s.setp p (groupSize p) [] [f.pa] f.p fun c _ => (maskSlots c.act).any (c.pred f.pa)

/-- PMASK (R162). -/
def execPmask (p : Pfx) (f : FDP) (s : State) : Answer :=
  .next (s.run p (groupSize p) { dsts := [(f.d, 1)], preds := [f.pa] } fun c s =>
    s.finish c f.d 1 fun _ => [maskOf fun u => c.act.getLsbD u.val && c.pred f.pa u])

/-- The sum of FP32 words in order, rounded after every addition (R131). -/
def Ctx.fsum (c : Ctx) : List Word → Word
  | [] => 0
  | x :: xs => xs.foldl (fun a y => c.round32 ((c.f32 a).add c.rnd (c.f32 y))) (c.round32 (c.f32 x))

/-- Put a slot before those of higher TIDs. -/
def Tray.insertByTid (tr : Tray) (t : Fin 32) : List (Fin 32) → List (Fin 32)
  | [] => [t]
  | u :: us => if (tr.remap[t]).getD 0 ≤ (tr.remap[u]).getD 0 then t :: u :: us else u :: tr.insertByTid t us

/-- Slots in ascending order of their TIDs (R131). -/
def Tray.byTid (tr : Tray) (ts : List (Fin 32)) : List (Fin 32) := ts.foldr tr.insertByTid []

/-- TRAYSUM (R131, R162). -/
def execTraysum (p : Pfx) (f : F3A) (s : State) : Answer :=
  let a : Src := .reg f.a 1 f.ta .f32
  s.alu p (groupSize p) [a] f.d fun c _ => c.fsum ((c.tray.byTid (maskSlots c.act)).map (c.val a))

/-- IXSET's config word is legal for a base: reserved bits 0, and the range lies in one region (R39, R52). -/
def ixsetOk (base : Nat) (w : Word) : Bool :=
  let last := base + w.toNat % 64
  w.toNat / 2048 == 0 && last < 64 && (if base < 32 then last < 32 else if base < 48 then last < 48 else true)

/-- IXSET (R52). -/
def execIxset (p : Pfx) (f : FIxs) (s : State) : Answer :=
  let b : Src := match p.imm with | some _ => .imm ((p.immU).setWidth 64) | none => .reg f.b 1 f.tb .int
  .next (s.run p (groupSize p) { srcs := [b], once := true } fun c s =>
    let w := c.val b c.low
    if ixsetOk f.a.toNat w then
      (s.modTray c.tray.id fun tr =>
        { tr with
          ix := tr.ix.setIfInBounds f.x.toNat
            { base := f.a.setWidth 6, boundM1 := w.setWidth 6, step := w.extractLsb' 6 4, wrap := w.getLsbD 10, set := true }
          cursors := Slots.gen fun t => tr.cursors[t].setIfInBounds f.x.toNat 0 }).retire c
    else
      s.raise c { code := 0x04, mask := 1#32 <<< c.low.val, once := true
                  d0 := f.x.setWidth 64 ||| f.a.setWidth 64 <<< 16 ||| (w.setWidth 6).setWidth 64 <<< 24 })

/-- The descriptor word of IXGET (R53). -/
def IxDesc.word (d : IxDesc) : Word :=
  d.boundM1.setWidth 32 ||| d.step.setWidth 32 <<< 6 ||| (BitVec.ofBool d.wrap).setWidth 32 <<< 10 |||
    d.base.setWidth 32 <<< 16 ||| (BitVec.ofBool d.set).setWidth 32 <<< 31

/-- IXGET (R53). -/
def execIxget (f : FIxg) (s : State) : Answer :=
  s.alu Pfx.empty 4 [] f.d fun c t =>
    if f.sel == 0 then ((c.tray.cursors[t][f.x.toNat]?).getD 0).signExtend 32
    else ((c.tray.ix[f.x.toNat]?).getD IxDesc.unset).word

/-- IXMOV: its write of the cursor replaces an advance of the same index register (R54). -/
def execIxmov (f : FIxm) (s : State) : Answer :=
  let a : Src := .reg f.a 1 f.ta .int
  .next (s.run Pfx.empty 4 { srcs := [a] } fun c s =>
    let s := (s.advance c).modTray c.tray.id fun tr =>
      { tr with
        cursors := Slots.gen fun t =>
          if c.act.getLsbD t.val then tr.cursors[t].setIfInBounds f.x.toNat ((c.val a t).setWidth 8) else tr.cursors[t] }
    s.retire { c with adv := [] })

/-- A thread's linear number in its launch (R20). -/
def Ctx.threadId (c : Ctx) (tid : Nat) : Nat := c.team.teamno * (32 * c.launch.traysPerTeam) + tid

/-- The extent of a level, 1 beyond the levels (R20). -/
def Launch.extent (l : Launch) (k : Nat) : Nat := match l.levels[k]? with | some x => x.extent | none => 1

/-- A level index of a thread (R20). -/
def Ctx.levelIndex (c : Ctx) (k tid : Nat) : Nat :=
  if k < c.launch.levels.length then c.threadId tid / extents (c.launch.levels.take k) % c.launch.extent k else 0

/-- A context's engine commands in progress on a die, those of saved teams among them (R186, R258). -/
def State.numbered (s : State) (ctx die : Nat) : List Cmd :=
  (s.cmds ++ s.sched.saved.flatMap (·.cmds)).filter fun k => k.ctx == ctx && k.die == die && k.seq.isSome

/-- The older of two commands by their distance from the newest number, which wraps (R258). -/
def olderCmd (last : BitVec 32) (r : Option Cmd) (k : Cmd) : Option Cmd :=
  match r with
  | some x => if (last - x.seq.getD 0).toNat < (last - k.seq.getD 0).toNat then some k else some x
  | none => some k

/-- ENGSEQ of a context on a die: the number before its oldest command in progress there, else its newest (R258). -/
def State.engseq (s : State) (cx : Context) (die : Nat) : Word :=
  let last := (cx.engLast[die]?).getD 0
  match (s.numbered cx.id die).foldl (olderCmd last) none with
  | some k => k.prevSeq
  | none => last

/-- LAPCLK: one lap plus 64 clk (R217, R368). -/
def Ring.lapclk (r : Ring) : Nat := 8 * r.size + 64

/-- A special register as a slot reads it (R48). A front strand has no tray, so what is held per tray is a free value there
(log 10). -/
def State.special (s : State) (c : Ctx) (code : Nat) (t : Fin 32) : Word :=
  let tid := (c.tray.remap[t]).getD 0
  let tray (w : Word) : Word := if c.front then loWord (Config.freeValue s.tick) else w
  match code with
  | 0 => w32 tid
  | 1 => w32 t.val
  | 2 => w32 (maskSlots c.act).length
  | 3 => tray (w32 c.tray.trayno)
  | 4 => w32 c.team.teamno
  | 5 => (c.cx.gid s.devNo c.ver).setWidth 32
  | 6 => w32 (c.cx.id % 4096)
  | 7 => s.variant.caps
  | 8 => w32 s.time
  | 9 => if c.front then c.team.front.timehi else c.tray.timehi
  | 10 => w32 s.ring.lapclk
  | 11 => w32 (dieOf c.bench)
  | 12 => w32 c.bench
  | 13 => ((c.cx.streams[if c.front then c.launch.stream % 256 else c.tray.stream.toNat]?).getD 0).setWidth 32
  | 14 => s.engseq c.cx (dieOf c.bench)
  | 15 => c.cx.approx.setWidth 32
  | 16 => c.cx.sticky.setWidth 32
  | 17 => if c.tray.fmask.getLsbD t.val then 1 else 0
  | 18 => tray (loWord c.tray.fpc)
  | 19 => tray (hiWord c.tray.fpc)
  | 20 => tray (c.tray.fcause.setWidth 32)
  | n =>
    if 24 ≤ n ∧ n < 28 then tray ((c.tray.tags[n - 24]?).map (·.count) |>.getD 0)
    else if 32 ≤ n ∧ n < 40 then w32 (c.levelIndex (n - 32) tid)
    else if 40 ≤ n ∧ n < 48 then w32 (c.launch.extent (n - 40))
    else 0

/-- MOVSR: a read of TIME latches TIMEHI (R48, R55). -/
def execMovsr (f : FSr) (s : State) : Answer :=
  .next (s.run Pfx.empty 4 { dsts := [(f.d, 1)] } fun c s =>
    let ws := c.writes f.d 1 fun t => [s.special c f.sr.toNat t]
    let s := if f.sr == 8 then
        let hi := w32 (s.time / 2 ^ 32)
        if c.front then s.modFront c.team.id fun fr => { fr with timehi := hi }
        else s.modTray c.tray.id fun tr => { tr with timehi := hi }
      else s
    (s.putRegs c.owner ws).retire c)

/-- SETPRI (R56). -/
def execSetpri (p : Pfx) (f : FA) (s : State) : Answer :=
  let a := immOr p p.immU f.a f.ta .int
  .next (s.run p (groupSize p) { srcs := [a], once := true } fun c s =>
    let v := BitVec.ofNat 4 (Nat.min (c.val a c.low).toNat 15)
    (if c.front then s.modFront c.team.id fun fr => { fr with prio := v }
     else s.modTray c.tray.id fun tr => { tr with prio := v }).retire c)

end Sys2Proof.Machine
end

