-- ==== Sys2Proof/Machine/Pool.lean ====
section
/-!
DEFINITION. Machine/Pool.lean: the lane pool (R31), the spill engine's choice of frames (R34, R36) and register deadlock
(R38).
-/

namespace Sys2Proof.Machine

/-- Tray-registers that a tray holds beyond its base block: resident frames and the extended block (R31). -/
def Tray.used (tr : Tray) : Nat :=
  ((tr.frames.filter (·.held)).map (·.size)).sum + (if tr.ext.isSome then 16 else 0)

/-- The reserve of a tray (R31). -/
def State.regres (s : State) (tr : Tray) : Nat :=
  match s.team? tr.team with
  | some tm => (match s.launch? tm.launch with | some l => l.regres | none => 0)
  | none => 0

/-- A tray is bound to a lane of a bench (R12). -/
def Tray.onLane (tr : Tray) (bench lane : Nat) : Bool := tr.landed.isNone && tr.bench == bench && tr.lane == lane

/-- The free common pool of a lane: what base blocks, reserves and what is drawn from the common pool leave of 128 (R31). -/
def State.common (s : State) (bench lane : Nat) : Nat :=
  128 - ((s.trays.filter (·.onLane bench lane)).map fun t => 32 + s.regres t + t.drawn).sum

/-- What a tray holds in the common pool once it uses `new` tray-registers instead of `old`: an allocation draws on the unused
reserve first, and a release makes the reserve whole first (R31, log 141). -/
def redraw (regres old new drawn : Nat) : Nat :=
  if old ≤ new then drawn + ((new - old) - (regres - (old - drawn))) else drawn - ((old - new) - (old - drawn))

/-- Change what a tray holds in its pool, with the account of its reserve (R31). -/
def State.modHeld (s : State) (tray : Nat) (f : Tray → Tray) : State :=
  s.modTray tray fun tr => { f tr with drawn := redraw (s.regres tr) tr.used (f tr).used tr.drawn }

/-- What an allocation for a tray can draw on: the unused reserve, then the common pool; a landed tray has its landing slot's
own 128 (R13, R31). -/
def State.poolFree (s : State) (tr : Tray) : Nat :=
  if tr.landed.isSome then 96 - tr.used else (s.regres tr - (tr.used - tr.drawn)) + s.common tr.bench tr.lane

/-- Tray-registers of the frames below a frame on the stack (R36). -/
def belowIn : List Frame → Nat → Nat
  | [], _ => 0
  | f :: fs, uid => if f.uid == uid then (fs.map (·.size)).sum else belowIn fs uid

/-- Byte offset of a frame in its thread's spill region (R36). -/
def Tray.spillOff (tr : Tray) (uid : Nat) : Nat := 4 * belowIn tr.frames uid

/-- Every register of a frame is full in every slot. -/
def Frame.allFull (f : Frame) : Bool := slotList.all fun t => (f.regs[t].toList.take f.size).all (·.full)

/-- How an allocation fares: it fits once these frames are spilled; it waits for a frame's registers; the spill region
overflows after these; it waits for pool space after these (R34, R36). -/
inductive Room where
  | fits (spill : List Nat)
  | busy
  | over (spill : List Nat)
  | wait (spill : List Nat)
  deriving DecidableEq, Repr

/-- Spill frames, oldest first, until n fit into what is free. -/
def roomIn (tr : Tray) (stride n : Nat) : List Frame → Nat → List Nat → Room
  | [], free, us => if n ≤ free then .fits us else .wait us
  | f :: fs, free, us =>
    if n ≤ free then .fits us
    else if !f.allFull then .busy
    else if stride < tr.spillOff f.uid + 4 * f.size then .over us
    else roomIn tr stride n fs (free + f.size) (us ++ [f.uid])

/-- The resident frames that may be spilled, oldest first; the newest `keep` frames stay. -/
def Tray.spillable (tr : Tray) (keep : Nat) : List Frame :=
  ((tr.frames.drop keep).filter fun f => f.held && 0 < f.size).reverse

/-- Room for n tray-registers. A CALL may spill its caller's frame, but only when it then fits. -/
def State.room (s : State) (c : Ctx) (tr : Tray) (n keep : Nat) : Room :=
  match roomIn tr c.launch.spillStride n (tr.spillable keep) (s.poolFree tr) [] with
  | .wait _ => roomIn tr c.launch.spillStride n (tr.spillable 1) (s.poolFree tr) []
  | r => r

/-- The spill engine reads frames out; their memory writes are still to come (R34). -/
def State.spill (s : State) (tray : Nat) (us : List Nat) : State :=
  s.modHeld tray fun tr =>
    { tr with frames := tr.frames.map fun f => if us.contains f.uid then { f with held := false, spill := .pending } else f }

/-- An entry waits for pool space. -/
def Entry.inPool (e : Entry) : Bool := match e.wait with | .pool .. => true | _ => false

/-- The callers of a tray's newest frame that stand in its frontier, a trap's saved one included. -/
def Tray.callersLeft (tr : Tray) (f : Frame) : BitVec 32 :=
  let union (es : List Entry) : BitVec 32 := es.foldl (fun m e => m ||| e.mask) 0
  f.callers &&& (union tr.frontier ||| (match tr.trap with | some ts => union ts.frontier | none => 0))

/-- The slots of a tray's entries that wait at a RET at its stack's depth. -/
def Tray.atRet (tr : Tray) : BitVec 32 :=
  (tr.frontier.filter fun e => e.wait == .ret && e.depth == tr.frames.length).foldl (fun m e => m ||| e.mask) 0

/-- A tray waits for pool space: some entry does, none can issue, and no frame of it is being freed (R38). -/
def Tray.poolStuck (tr : Tray) : Bool :=
  tr.frontier.any Entry.inPool &&
    (tr.frontier.all fun e => e.wait != .none || e.depth != tr.frames.length) &&
    !(match tr.frames.head? with | some f => tr.callersLeft f &&& ~~~tr.atRet == 0 | none => false)

/-- Every tray bound to a lane waits for pool space (R38). -/
def State.laneStuck (s : State) (bench lane : Nat) : Bool :=
  let ts := s.trays.filter (·.onLane bench lane)
  !ts.isEmpty && ts.all Tray.poolStuck

/-- With an entry of this tray waiting too, its lane is in register deadlock (R38). -/
def State.deadlocked (s : State) (tr : Tray) (k : Nat) : Bool :=
  let tr' := { tr with frontier := modAt (fun e => { e with wait := .pool 0 .ext }) tr.frontier k }
  tr.landed.isNone && tr'.poolStuck && s.trays.all fun t => !t.onLane tr.bench tr.lane || t.id == tr.id || t.poolStuck

/-- Allocate n tray-registers and go on, or wait, or raise 0x18 or 0x06 (R33, R34, R36, R38). -/
def State.take (s : State) (c : Ctx) (need : PoolNeed) (n keep : Nat) (k : State → State) : State :=
  match s.room c c.tray n keep with
  | .busy => s.stall
  | .fits us => k (s.spill c.tray.id us)
  | .over us => (s.spill c.tray.id us).raise c { code := 0x18, mask := c.act }
  | .wait us =>
    let s := s.spill c.tray.id us
    if s.deadlocked ((s.tray? c.tray.id).getD c.tray) c.entry then s.raise c { code := 0x06, mask := c.act }
    else
      let (n, s) := s.fresh
      s.waitAt c (.pool n need)

end Sys2Proof.Machine
end

