-- ==== Sys2Proof/Machine/Flow.lean ====
section
/-!
DEFINITION. Machine/Flow.lean: majors 28 and 29: splits and the spawning they cause (R136, R137, R141 to R143), branches and
calls (R147, R148, R163), loops, the decision queue, barriers and ends (R149 to R156, R164 to R168), with XACQ and XREL (R50,
R51).
-/

namespace Sys2Proof.Machine

/-- Bytes of a spawn record with live count l (R142). -/
def spawnSize (l : Nat) : Nat := 32 + 32 * ((l + 7) / 8)

/-- The first place of the spawn area's 8,192 bytes where n bytes fit beside what is used (R141). -/
def spawnFit (used : List (Nat × Nat)) (n : Nat) : Option Nat :=
  let ends := used.map fun u => u.1 + u.2
  ((0 :: ends).filter fun o => o + n ≤ 8192 && used.all fun u => o + n ≤ u.1 || u.1 + u.2 ≤ o).min?

/-- What the spawn area of a team holds. -/
def Team.spawnUsed (tm : Team) : List (Nat × Nat) :=
  (tm.spawns ++ tm.formed.flatMap (·.spawns)).map fun sp => (sp.off, spawnSize sp.live)

/-- The tray can spawn: it is not detached and its team has a spawn area (R137, R141). -/
def State.canSpawn (s : State) (tr : Tray) : Bool :=
  tr.landed.isNone &&
    (match s.team? tr.team with
     | some tm => (match s.launch? tm.launch with | some l => 16384 ≤ l.shmem | none => false)
     | none => false)

/-- Slots leave their tray: remap entries and reservations go (R143, R146, R170). -/
def Tray.leave (tr : Tray) (m : BitVec 32) : Tray :=
  { tr.without m with
    remap := Slots.gen fun t => if m.getLsbD t.val then none else tr.remap[t]
    resv := Slots.gen fun t => if m.getLsbD t.val then none else tr.resv[t] }

/-- Spawn the threads of a mask at a PC and priority; nothing when the spawn area lacks room for all of them (R143). Their earlier
writes are released at TEAM scope (R235). -/
def State.spawnThreads (s : State) (tray : Nat) (pc : DWord) (prio : BitVec 6) (live : Nat) (m : BitVec 32) : Option State :=
  match s.tray? tray with
  | none => none
  | some tr =>
    let add (s : State) (t : Fin 32) : Option State :=
      match s.team? tr.team with
      | none => none
      | some tm =>
        match spawnFit tm.spawnUsed (spawnSize live) with
        | none => none
        | some off =>
          let (id, s) := s.fresh
          let sp : Spawn :=
            { id := id, tid := (tr.remap[t]).getD 0, tray := tray, slot := t, live := live, pc := pc, prio := prio,
              preds := tr.preds[t], curs := tr.cursors[t], off := off, written := false, image := [], since := s.clk }
          some (s.modTeam tr.team fun tm => { tm with spawns := tm.spawns ++ [sp] })
    ((maskSlots m).foldlM add s).map fun s =>
      let s := s.modTray tray fun tr => tr.leave m
      match s.around tr.team with
      | some (_, _, cx) => s.releaseOn cx (.tray tray) m .all 1
      | none => s

/-- Entries that wait to be spawned try again (R163): when records are freed, and when the frontier of a trap that held them is
restored. -/
def State.retrySpawns (s : State) (team : Nat) : State :=
  (s.trays.filter fun t => t.team == team).foldl (fun s t =>
    t.frontier.foldl (fun s e => match e.wait with
      | .spawn live => (match s.spawnThreads t.id e.pc e.prio live e.mask with | some s' => s' | none => s)
      | _ => s) s) s

/-- The lowest TID of a mask in a tray; a formed tray's slots bear their threads' TIDs in any order (R131, R141). -/
def Tray.lowTid (tr : Tray) (m : BitVec 32) : Nat := (((maskSlots m).filterMap fun t => tr.remap[t]).min?).getD 0

/-- The better victim of two: the lower priority, then the higher lowest TID (R137). -/
def betterVictim (tr : Tray) (a b : Entry) : Entry :=
  if b.prio.toNat < a.prio.toNat || (b.prio == a.prio && tr.lowTid a.mask < tr.lowTid b.mask) then b else a

/-- The entry to spawn among a frontier's and a split's: of depth 0 and without loops (R137). -/
def Tray.victim (tr : Tray) (es : List Entry) : Option Entry :=
  match es.filter fun e => e.depth == 0 && e.loops.isEmpty with
  | [] => none
  | e :: rest => some (rest.foldl (betterVictim tr) e)

/-- Take a mask's slots out of entries. -/
def cutMask (es : List Entry) (m : BitVec 32) : List Entry :=
  (es.map fun e => { e with mask := e.mask &&& ~~~m }).filter fun e => e.mask != 0

/-- The slots of entries together. -/
def maskUnion (es : List Entry) : BitVec 32 := es.foldl (fun m e => m ||| e.mask) 0

/-- The issuing entry with the slots that a split cannot move, held at the branch (R137). -/
def heldEntry (e : Entry) (rest : List Entry) : List Entry :=
  if rest.isEmpty then [] else [{ e with mask := maskUnion rest, wait := .held }]

/-- Move groups of slots in ascending order of target while six entries allow it; the rest stays held (R137). -/
def moveSome (e : Entry) (old : List Entry) : List Entry → List Entry → List Entry
  | moved, [] => mergeAll (old ++ moved)
  | moved, p :: ps =>
    if (mergeAll (old ++ moved ++ [p] ++ heldEntry e ps)).length ≤ 6 then moveSome e old (moved ++ [p]) ps
    else mergeAll (old ++ moved ++ heldEntry e (p :: ps))

/-- Insert by ascending PC. -/
def insertPc (p : Entry) : List Entry → List Entry
  | [] => [p]
  | x :: xs => if p.pc.toNat < x.pc.toNat then p :: x :: xs else x :: insertPc p xs

/-- Entries by ascending PC. -/
def sortPc (es : List Entry) : List Entry := es.foldr insertPc []

/-- Where a victim's threads resume: at its instruction, or past one whose effect at a peer is under way (R137, R143). -/
def State.resumePc (s : State) (e : Entry) : DWord :=
  match e.wait with
  | .reply id _ => (match s.prods.find? fun x => x.id == id with | some x => e.pc + BitVec.ofNat 64 x.size | none => e.pc)
  | _ => e.pc

/-- Place a split: six entries are enough, or victims are spawned one by one, or part of the split is held (R136, R137). The
first argument bounds the number of victims. -/
def State.splitTray : Nat → State → Nat → Entry → List Entry → List Entry → State
  | 0, s, tray, e, old, places => s.modTray tray fun tr => { tr with frontier := moveSome e old [] (sortPc places) }
  | n + 1, s, tray, e, old, places =>
    let all_ := mergeAll (old ++ places)
    let partly := s.modTray tray fun tr => { tr with frontier := moveSome e old [] (sortPc places) }
    if all_.length ≤ 6 then s.modTray tray fun tr => { tr with frontier := all_ }
    else match s.tray? tray with
      | none => s
      | some tr =>
        match if s.canSpawn tr then tr.victim all_ else none with
        | none => partly
        | some v =>
          match s.spawnThreads tray (s.resumePc v) v.prio 32 v.mask with
          | none => partly
          | some s => State.splitTray n s tray e (cutMask old v.mask) (cutMask places v.mask)

/-- Place the slots of the issuing entry and count the branch; a front strand goes to its one place. -/
def State.branch (s : State) (c : Ctx) (places : List Entry) : State :=
  let ps := places.filter fun e => e.mask != 0
  if c.front then
    match ps with
    | p :: _ => (s.modEntry c fun _ => p).counted c
    | [] => s.counted c
  else
    ((State.splitTray 38 s c.tray.id c.ent ((c.tray.frontier).eraseIdx c.entry) ps).counted c).checkTray c.tray.id

/-- The issuing entry gone to a branch target with the branch word's priority (R133, R163). -/
def Ctx.goes (c : Ctx) (pc : DWord) (prio : BitVec 6) (m : BitVec 32) : Entry :=
  { c.ent with pc := pc, prio := prio, mask := m, wait := .none, skip := 0 }

/-- The issuing entry gone on to the address after its group (R163). -/
def Ctx.falls (c : Ctx) (m : BitVec 32) : Entry :=
  { c.ent.flowTo (c.ent.pc + BitVec.ofNat 64 c.size) with mask := m, wait := .none }

/-- The target of an FB word: its own address plus twice the offset (R71). -/
def Ctx.target (c : Ctx) (off : BitVec 14) : DWord :=
  c.ent.pc + BitVec.ofNat 64 (c.size - 4) + (off.signExtend 64 <<< 1)

/-- A front strand issues. -/
def State.inFront (s : State) : Bool := match s.cur with | .front _ => true | _ => false

/-- BRA (R163). -/
def execBra (f : FBra) (s : State) : Answer :=
  .next (s.run Pfx.empty 4 {} fun c s => s.branch c [c.goes (c.target f.off) f.pri c.act])

/-- The slots that a conditional branch takes: by the predicate, or in front code by f P being nonzero (R151, R163). -/
def Ctx.taken (c : Ctx) (p : BitVec 3) (want : Bool) : BitVec 32 :=
  if c.front then (if (c.val64 (.reg (64 + p.setWidth 7) 2 false .int) 0 != 0) == want then c.act else 0)
  else maskOf fun t => c.act.getLsbD t.val && (c.pred p t == want)

/-- What a conditional branch reads. -/
def State.branchReq (s : State) (p : BitVec 3) : Req :=
  if s.inFront then { srcs := [.reg (64 + p.setWidth 7) 2 false .int] } else { preds := [p] }

/-- BRP and BRNP (R163). -/
def State.condBranch (s : State) (f : FBrp) (want : Bool) : Answer :=
  .next (s.run Pfx.empty 4 (s.branchReq f.p) fun c s =>
    let m := c.taken f.p want
    s.branch c [c.goes (c.target f.off) f.pri m, c.falls (c.act &&& ~~~m)])

/-- BRP (R163). -/
def execBrp (f : FBrp) (s : State) : Answer := s.condBranch f true

/-- BRNP (R163). -/
def execBrnp (f : FBrp) (s : State) : Answer := s.condBranch f false

/-- BRSP: as BRP; then the smaller side, the taken one when they are equal, is spawned where it can be; where the spawn area
lacks room it waits for it as an entry (R148, R163). -/
def execBrsp (p : Pfx) (f : FBrp) (s : State) : Answer :=
  .next (s.run p (groupSize p) { preds := [f.p] } fun c s =>
    let m := c.taken f.p true
    let n := c.act &&& ~~~m
    let live := match p.imm with | some _ => p.immNat % 64 | none => 32
    let there := c.goes (c.target f.off) f.pri m
    let next := c.falls n
    if m != 0 && n != 0 && c.ent.depth == 0 && s.canSpawn c.tray then
      let (gone, stays) := if (maskSlots m).length ≤ (maskSlots n).length then (there, next) else (next, there)
      match s.spawnThreads c.tray.id gone.pc gone.prio live gone.mask with
      | some s => s.branch c [stays]
      | none => s.branch c [{ gone with wait := .spawn live }, stays]
    else s.branch c [there, next])

/-- A frame at its allocation: every register reads zero and is full (R33). -/
def Frame.new (uid size : Nat) (ret : DWord) (prio : BitVec 6) (callers : BitVec 32) : Frame :=
  { uid := uid, size := size, regs := Vector.replicate 32 (Vector.replicate 16 Reg.zero), held := true, spill := .none,
    retAddr := ret, prio := prio, callers := callers, asked := 0 }

/-- CALL (R33, R34, R147, R151, R163). -/
def execCall (f : FCall) (s : State) : Answer :=
  .next (s.run Pfx.empty 4 {} fun c s =>
    let next := c.ent.pc + BitVec.ofNat 64 c.size
    let there := c.goes (c.target f.off) f.pri c.act
    if c.front then
      if c.team.front.stack.length ≥ 16 then s.raise c { code := 0x18, mask := 0 }
      else (s.modFront c.team.id fun fr => { fr with stack := next :: fr.stack }).branch c [there]
    else if c.tray.frames.length ≥ 64 then s.raise c { code := 0x18, mask := c.act }
    else
      let w := 4 * f.w.toNat
      s.take c (.frame w) w 0 fun s =>
        let (uid, s) := s.fresh
        let s := s.modHeld c.tray.id fun tr => { tr with frames := Frame.new uid w next c.ent.prio c.act :: tr.frames }
        (s.modEntry c fun _ => { there with depth := c.ent.depth + 1 }).counted c)

/-- RET: in tray code the threads wait for the frame's other callers (R148); in front code it pops the return stack, and
ends the strand when the stack is empty (R151). -/
def execRet (s : State) : Answer :=
  .next (s.run Pfx.empty 4 {} fun c s =>
    if c.front then
      match c.team.front.stack with
      | a :: rest =>
        (s.modFront c.team.id fun fr => { fr with stack := rest }).branch c [{ c.ent with pc := a, mask := c.act, wait := .none, skip := 0 }]
      | [] => (s.modFront c.team.id fun fr => { fr with status := .ended }).counted c
    else if c.ent.depth == 0 then s.raise c { code := 0x01, mask := c.act }
    else s.waitAt c .ret)

/-- Park slots: they leave the frontier and keep their place (R158). -/
def Tray.park (tr : Tray) (m : BitVec 32) : Tray :=
  { tr.without m with
    parked := tr.parked ||| m
    resv := Slots.gen fun t => if m.getLsbD t.val then none else tr.resv[t] }

/-- One entry for each distinct address of the slots of a mask, at a priority (R163). -/
def Ctx.jumps (c : Ctx) (g : Fin 32 → DWord) (prio : BitVec 6) : List (Fin 32) → List Entry → List Entry
  | [], es => es
  | t :: ts, es =>
    c.jumps g prio ts
      (if es.any fun e => e.pc == g t then es.map fun e => if e.pc == g t then { e with mask := e.mask ||| 1#32 <<< t.val } else e
       else es ++ [c.goes (g t) prio (1#32 <<< t.val)])

/-- JMPI (R158, R163). In a trap handler a bad landing point kills the tray as any further cause does (R177). -/
def execJmpi (f : FJmp) (s : State) : Answer :=
  let a : Src := .reg f.a 2 f.ta .int
  .next (s.run Pfx.empty 4 { srcs := [a] } fun c s =>
    let bad := maskOf fun t => c.act.getLsbD t.val && !s.landing c.cx c.ver c.team.id (c.val64 a t)
    let good := c.act &&& ~~~bad
    if c.front && bad != 0 then s.raise c { code := 0x0B, mask := 0, addr := c.val64 a 0 }
    else if c.tray.trap.isSome && bad != 0 then s.raise c { code := 0x0B, mask := bad, addr := c.val64 a (lowestSlot bad) }
    else
      let s := if bad == 0 then s
        else
          (s.record c.cx.id (c.recordOf s.devNo { code := 0x0B, mask := bad, addr := c.val64 a (lowestSlot bad) })).modTray
            c.tray.id fun tr => tr.park bad
      let old := (c.tray.frontier).eraseIdx c.entry
      if good == 0 then
        ((s.modTray c.tray.id fun tr => { tr with frontier := old }).counted c).checkTray c.tray.id
      else s.branch c (c.jumps (c.val64 a) f.pri (maskSlots good) []))

/-- The instructions that a loop body may not hold: majors 28, 29 and 30 but for LOOP, NOP and BRK, and MIGRATE (R149). -/
def barredInLoop : Instr → Bool
  | .bra _ | .brp _ | .brnp _ | .brsp _ _ | .call _ | .ret | .jmpi _ | .dqpush _ | .dqpop _ | .meet | .meetl _ | .exit _
  | .land | .trap _ | .eret | .waitt _ _ | .kill | .migrate _ => true
  | _ => false

/-- E of a LOOP: halfwords from its word to the label (R165). -/
def loopSpan (p : Pfx) (f : FLoop) : Nat := match p.imm with | some _ => p.immNat | none => f.e.toNat

/-- Up to n bytes of code from an address, ending before the first that cannot be fetched. -/
def State.codeAt (s : State) (c : Ctx) (va : DWord) (n : Nat) : List Byte :=
  ((List.range n).map fun i => s.fetchByte c.cx c.ver c.team.id (va + BitVec.ofNat 64 i)).takeWhile
    (fun x => match x with | .ok _ => true | .error _ => false) |>.filterMap fun x => match x with | .ok b => some b | _ => none

/-- The length of a group as its words lie, whatever they say: its prefix words' bytes and the whole; none where bytes are missing.
The first argument bounds the prefixes. -/
def rawGroup : Nat → List Byte → Option (Nat × Nat)
  | n + 1, b0 :: b1 :: b2 :: b3 :: rest =>
    if !b0.getLsbD 0 then some (0, 2)
    else if fieldOf (wordOf b0 b1 b2 b3) 0 6 == 0x3F#6 then (rawGroup n rest).map fun x => (x.1 + 4, x.2 + 4)
    else some (0, 4)
  | _, b0 :: _ :: _ => if !b0.getLsbD 0 then some (0, 2) else none
  | _, _ => none

/-- Whether a loop body breaks no restriction (R149): groups from `pos` to `stop`, inside open loops with a counter and an
end each. An illegal group is judged when it issues, but the body may not end in it or on a prefix of it, nor hold a barred
instruction behind its prefixes; bytes that cannot be fetched are judged when they are (log 91). The first argument bounds the
groups. -/
def State.bodyOk : Nat → State → Ctx → List (BitVec 2 × Nat) → Nat → Nat → Bool
  | 0, _, _, _, _, _ => true
  | n + 1, s, c, open_, pos, stop =>
    if pos == stop then true
    else if stop < pos then false
    else
      let open_ := open_.filter fun o => pos < o.2
      let code := s.codeAt c (BitVec.ofNat 64 pos) 16
      match decode (code.take 12) with
      | .error _ =>
        (match rawGroup 3 code with
         | none => code.length == 16 || pos + code.length < stop
         | some (pre, size) =>
           if pre != 0 && stop ≤ pos + pre then false
           else match decode (code.drop pre) with
             | .ok (i, _) => !barredInLoop i && State.bodyOk n s c open_ (pos + size) stop
             | .error _ => State.bodyOk n s c open_ (pos + size) stop)
      | .ok (i, _) =>
        let size := i.size
        if barredInLoop i then false
        else match i with
          | .loop p f =>
            let fin := pos + size - 4 + 2 * loopSpan p f
            if open_.any fun o => o.1 == f.lc || o.2 < fin then false
            else State.bodyOk n s c ((f.lc, fin) :: open_) (pos + size) stop
          | _ => State.bodyOk n s c open_ (pos + size) stop

/-- LOOP: the body is judged before any count is read (R149, R150, R165). -/
def execLoop (p : Pfx) (f : FLoop) (s : State) : Answer :=
  let size := groupSize p
  let a : Src := .reg f.a 1 f.ta .int
  let start (c : Ctx) := c.ent.pc + BitVec.ofNat 64 size
  let stop (c : Ctx) := c.ent.pc + BitVec.ofNat 64 (size - 4 + 2 * loopSpan p f)
  let ok (c : Ctx) : Bool :=
    let outer := c.ent.loops.map fun l => (l.lc, l.stop.toNat)
    !(outer.any fun o => o.1 == f.lc || o.2 < (stop c).toNat) &&
      State.bodyOk (loopSpan p f + 1) s c ((f.lc, (stop c).toNat) :: outer) (start c).toNat (stop c).toNat
  match s.issuer p size with
  | some c =>
    if ok c then
      .next (s.run p size { srcs := [a] } fun c s =>
        let n := c.val a c.low
        ((s.advance c).modEntry c fun e =>
          if n == 0 then { e.flowTo (stop c) with wait := .none }
          else
            { e with
              pc := start c
              loops := { lc := f.lc, count := n, start := start c, stop := stop c } :: e.loops
              wait := .none }).counted c)
    else .next (s.raise c { code := 0x01, mask := c.act })
  | none => .next s.stall

/-- The dispatched trays of a team that still have a frontier (R152). -/
def State.readers (s : State) (team : Nat) : List Tray :=
  s.trays.filter fun t => t.team == team && !t.formed && !t.frontier.isEmpty

/-- Free the decisions that every such tray has read (R152). -/
def State.dqTrim (s : State) (team : Nat) : State :=
  s.modTeam team fun tm =>
    let top := tm.dqBase + tm.dq.length
    let low := (s.readers team).foldl (fun n t => Nat.min n t.dqPos) top
    { tm with dq := tm.dq.drop (low - tm.dqBase), dqBase := Nat.max tm.dqBase low }

/-- DQPUSH (R88, R152, R153, R166), a release of the strand's earlier writes (R255). -/
def execDqpush (f : FA) (s : State) : Answer :=
  let a : Src := .reg f.a 2 f.ta .int
  .next (s.run Pfx.empty 4 (if s.inFront then { srcs := [a] } else { named := [f.a] }) fun c s =>
    if !c.front then s.raise c { code := 0x19, mask := c.act }
    else
      let s' := s.dqTrim c.team.id
      match s'.team? c.team.id with
      | none => s.stall
      | some tm =>
        if (s'.readers tm.id).isEmpty then s'.retire c
        else if tm.dq.length ≥ 64 then s.stall
        else
          ((s'.modTeam tm.id fun tm => { tm with dq := tm.dq ++ [c.val64 a 0] }).releaseOn c.cx c.owner c.act (.queue tm.id) 1).retire c)

/-- DQPOP (R88, R152, R153, R166), the acquire that goes with it (R255). -/
def execDqpop (f : FD) (s : State) : Answer :=
  .next (s.run Pfx.empty 4 (if s.inFront then {} else { dsts := [(f.d, 2)] }) fun c s =>
    if c.front || c.tray.formed || c.detached then s.raise c { code := 0x19, mask := c.act }
    else match (c.team.dq[c.tray.dqPos - c.team.dqBase]?) with
      | some v =>
        let s := s.modTray c.tray.id fun tr => { tr with dqPos := c.tray.dqPos + 1 }
        ((s.dqTrim c.team.id).acquireOn c.cx c.owner c.act (.queue c.team.id) 1).finish c f.d 2 fun _ => [loWord v, hiWord v]
      | none => if c.team.front.status == .running then s.stall else s.raise c { code := 0x19, mask := c.act })

/-- Wait at a barrier of a level; at a level with scope FAB or SURV the release part comes first (R154 to R157). -/
def State.meetAt (s : State) (c : Ctx) (n : Nat) : State :=
  if c.detached then s.retire c
  else
    let scope := match c.launch.levels[n]? with | some l => l.scope.toNat | none => 0
    let arrive (s : State) := s.waitAt c (.meet n)
    if scope == 4 then s.afterAcks c false .all (fun _ => true) arrive
    else if scope == 5 then s.afterAcks c false .all (fun _ => true) fun s => s.survive c arrive
    else arrive s

/-- MEET (R154, R155, R167). -/
def execMeet (s : State) : Answer := .next (s.run Pfx.empty 4 {} fun c s => s.meetAt c c.launch.teamLevel)

/-- MEETL (R154 to R156, R167). -/
def execMeetl (f : FMeet) (s : State) : Answer :=
  .next (s.run Pfx.empty 4 {} fun c s =>
    if f.n.toNat == 0 || c.launch.levels.length ≤ f.n.toNat then s.raise c { code := 0x01, mask := c.act }
    else s.meetAt c f.n.toNat)

/-- EXIT: the active slots end, the others go on (R89, R168). -/
def execExit (p : Pfx) (s : State) : Answer :=
  .next (s.run p (groupSize p) {} fun c s => (s.retire c).endSlots c.tray.id c.act)

/-- LAND (R168). -/
def execLand (s : State) : Answer := .next (s.run Pfx.empty 4 {} fun c s => s.retire c)

/-- XACQ (R50). -/
def execXacq (s : State) : Answer :=
  .next (s.run Pfx.empty 4 {} fun c s =>
    if c.tray.ext.isSome then s.retire c
    else s.take c .ext 16 1 fun s =>
      (s.modHeld c.tray.id fun tr => { tr with ext := some (Vector.replicate 32 (Vector.replicate 16 Reg.zero)) }).retire c)

/-- XREL: waits until no register of the block is empty or pending (R42, R51). -/
def execXrel (s : State) : Answer :=
  .next (s.run Pfx.empty 4 {} fun c s =>
    match c.tray.ext with
    | none => s.retire c
    | some e =>
      if (slotList.all fun t => e[t].toList.all (·.full)) && c.tray.pending.all fun p => p.1 + p.2 ≤ 48 then
        ((s.modHeld c.tray.id fun tr => { tr with ext := none }).retire c).poolFreed c.tray.bench c.tray.lane c.tray.landed.isSome
      else s.stall)

end Sys2Proof.Machine
end

