-- ==== Sys2Proof/Machine/Sync.lean ====
section
/-!
DEFINITION. Machine/Sync.lean: major 21, reservations, sync objects, bindings, fences and WAITNE (R226 to R253), and how a
waiting entry goes on. What a release makes visible and an acquire brings is Machine/Order.lean's; a release also waits for the
fabric and for the parity holders.
-/

namespace Sys2Proof.Machine

/-- An entry goes past its group of a size. -/
def Entry.past (e : Entry) (size : Nat) : Entry := { e.flowTo (e.pc + BitVec.ofNat 64 size) with wait := .none }

/-- The entries of an owner with a given wait go past their group; a saved frontier's too. -/
def State.wake (s : State) (o : Owner) (w : Wait) (size : Nat) : State :=
  let go (e : Entry) : Entry := if e.wait == w then e.past size else e
  match o with
  | .tray id =>
    s.modTray id fun tr =>
      { tr with
        frontier := mergeAll (tr.frontier.map go)
        trap := tr.trap.map fun ts => { ts with frontier := ts.frontier.map go } }
  | .front t =>
    s.modFront t fun fr =>
      if fr.wait == w then
        let (pc, ls) := loopEnd (fr.pc + BitVec.ofNat 64 size) fr.loops
        { fr with pc := pc, loops := ls, wait := .none }
      else fr

/-- What an agent waits for. -/
def State.waitOf (s : State) (ag : Agent) : Wait :=
  match ag with
  | .none => .none
  | .tray id k => (match s.tray? id with | some tr => (match tr.frontier[k]? with | some e => e.wait | none => .none) | none => .none)
  | .front t => (match s.team? t with | some tm => tm.front.wait | none => .none)

/-- What the entries of an owner wait for, a trap's saved ones included. -/
def State.waitsOf (s : State) (o : Owner) : List Wait :=
  match o with
  | .tray id =>
    (match s.tray? id with
     | some tr => ((tr.frontier ++ (match tr.trap with | some ts => ts.frontier | none => [])).map (·.wait)).eraseDups
     | none => [])
  | .front t => (match s.team? t with | some tm => [tm.front.wait] | none => [])

/-- The owner of an agent's registers. -/
def ownerOf : Agent → Option Owner
  | .none => none
  | .tray id _ => some (.tray id)
  | .front t => some (.front t)

/-- Change a wait of an owner's entries into another. -/
def State.rewait (s : State) (o : Owner) (w w' : Wait) : State :=
  let go (e : Entry) : Entry := if e.wait == w then { e with wait := w' } else e
  match o with
  | .tray id =>
    s.modTray id fun tr =>
      { tr with
        frontier := tr.frontier.map go
        trap := tr.trap.map fun ts => { ts with frontier := ts.frontier.map go } }
  | .front t => s.modFront t fun fr => if fr.wait == w then { fr with wait := w' } else fr

/-- The version and context of an owner. -/
def State.ownerCtx (s : State) (o : Owner) : Option (Team × Launch × Context) :=
  match o with
  | .tray id => (match s.tray? id with | some tr => s.around tr.team | none => none)
  | .front t => s.around t

/-- Set or clear the reservation of a slot, or of the front strand (R236). -/
def State.setResv (s : State) (c : Ctx) (t : Fin 32) (r : Option Loc) : State :=
  if c.front then s.modFront c.team.id fun fr => { fr with resv := r }
  else s.modTray c.tray.id fun tr => { tr with resv := tr.resv.set t r }

/-- The reservation that a slot holds now. -/
def State.resvOf (s : State) (c : Ctx) (t : Fin 32) : Option Loc :=
  if c.front then (match s.team? c.team.id with | some tm => tm.front.resv | none => none)
  else (match s.tray? c.tray.id with | some tr => tr.resv[t] | none => none)

/-- LDRES (R236, R247). -/
def execLdres (p : Pfx) (f : F3A) (s : State) : Answer :=
  s.load p (groupSize p) (.reg f.a 2 f.ta .int) f.d 1 4 false false true 0 fun c hs s =>
    hs.foldl (fun s h => s.setResv c h.slot (some h.loc.sector)) s

/-- Whether a slot's STCND stores: its reservation on the granule stands. One on a peer's granule may have been lost to a write there
that this device cannot see, by the machine's choice (R170, R236, log 80). -/
def State.condHolds (s : State) (c : Ctx) (h : Hit) : Bool :=
  s.resvOf c h.slot == some h.loc.sector &&
    (match h.loc with | .peer .. => !Config.freeBit (s.tick * 65536 + h.slot.val) | _ => true)

/-- The stores of STCND in ascending slot order: the slots that stored, and the state after (R247). -/
def State.condStores (s : State) (c : Ctx) (v : Fin 32 → Word) : List Hit → BitVec 32 × State
  | [] => (0, s)
  | h :: hs =>
    let ok := s.condHolds c h
    let s := if ok then s.putHit c h (leBytes 4 (v h.slot).toNat) else s
    let (m, s) := (s.setResv c h.slot none).condStores c v hs
    (if ok then m ||| 1#32 <<< h.slot.val else m, s)

/-- STCND (R236, R247): write permission is checked, at peers too, even in slots that fail. -/
def execStcnd (p : Pfx) (f : FCmp) (s : State) : Answer :=
  let a : Src := .reg f.a 2 f.ta .int
  let b : Src := .reg f.b 1 f.tb .int
  .next (s.run p (groupSize p)
      { srcs := [a, b], preds := [f.p], own := fun c s => c.slotAccess s false .write 4 (c.val64 a) fun _ => none } fun c s =>
    s.reach c false .write 4 (c.val64 a) (fun _ => none) fun c hs s =>
      s.admitted c false 4 hs fun c hs s =>
        let (m, s) := s.condStores c (c.val b) hs
        (s.setPred c f.p c.act fun t => m.getLsbD t.val).retire c)

/-- A sequence m has reached v (R249). -/
def reached (m v : DWord) : Bool := (m - v).toNat < 2 ^ 63

/-- The SCOPE in force: PKG without one (R91). -/
def Ctx.scope (c : Ctx) (s : State) : BitVec 3 := (c.pfx.scope (s.cap 0)).getD 3

/-- ACQ (R249); a peer's sequence is read by request. The sequence is compared as it stands, also one that a program has written
otherwise than by REL, whose outcome R226 leaves unpredictable (log 142). -/
def execAcq (p : Pfx) (f : FAB) (s : State) : Answer :=
  let a : Src := .reg f.a 2 f.ta .int
  let b : Src := match p.imm with | some _ => .imm p.immX | none => .reg f.b 2 f.tb .int
  .next (s.run p (groupSize p)
      { srcs := [a, b], once := true, own := fun c s => c.slotAccess s true .read 64 (c.val64 a) fun _ => none } fun c s =>
    s.reach c true .read 64 (c.val64 a) (fun _ => none) fun c hs s =>
      s.failedReads c true hs fun c s =>
        let v := c.val64 b c.low
        match hs with
        | [] => s.stall
        | h :: _ =>
          match h.loc with
          | .peer peer addr =>
            let (tag, s) := s.fabSend c.cx c.ver c.owner peer addr h.va (.read 8) .probe
            s.waitAt c (.acq h.loc v c.size tag h.va (c.scope s).toNat c.act)
          | l =>
            if reached (BitVec.ofNat 64 (leNat (s.seen c.keys l 8))) v then
              (s.acquireOn c.cx c.owner c.act (.object h.va.toNat) (c.scope s).toNat).retire c
            else s.waitAt c (.acq l v c.size 0 h.va (c.scope s).toNat c.act))

/-- An address lies in a region bound to an object at FAB scope, and the release is at FAB too (R241, R248). -/
def Context.relCover (cx : Context) (obj : DWord) (fab : Bool) (va : BitVec 64) : Bool :=
  fab && cx.bindings.any fun b =>
    b.obj == obj.toNat && 4 ≤ b.scope.toNat && b.base ≤ va.toNat && va.toNat < b.base + b.len

/-- REL (R241, R248); the sequence of a peer's object is incremented by request. -/
def execRel (p : Pfx) (f : FA) (s : State) : Answer :=
  let a : Src := .reg f.a 2 f.ta .int
  .next (s.run p (groupSize p)
      { srcs := [a], once := true, own := fun c s => c.slotAccess s true .write 64 (c.val64 a) fun _ => none } fun c s =>
    s.reach c true .write 64 (c.val64 a) (fun _ => none) fun c hs s =>
      match hs with
      | [] => s.stall
      | h :: _ =>
        let o := Guard.object h.va.toNat
        s.afterAcks c true o (c.cx.relCover h.va (c.scope s == 4)) fun s =>
          let s := s.releaseOn c.cx c.owner c.act o (c.scope s).toNat
          match h.loc with
          | .peer peer addr =>
            let (id, s) := s.newProducer c .load [] [] []
            let (tag, s) := s.fabSend c.cx c.ver c.owner peer addr h.va .increment (.load id c.low.val [] 0 false)
            let s := { s with prods := s.prods.map fun (x : Producer) => if x.id == id then { x with tags := [tag] } else x }
            s.waitAt c (.reply id s.time)
          | l =>
            let m := leNat (s.seen c.keys l 8) + 1
            (s.storeHit c h (leBytes 8 m)).retire c)

/-- FENCE (R233, R243, R250). -/
def execFence (p : Pfx) (s : State) : Answer :=
  .next (s.run p (groupSize p) {} fun c s =>
    let scope := c.scope s
    if scope == 5 && !s.cap 1 then s.raise c { code := 0x02, mask := c.act }
    else
      let done (s : State) : State :=
        ((s.releaseOn c.cx c.owner c.act .implicit scope.toNat).acquireOn c.cx c.owner c.act .implicit scope.toNat).retire c
      if scope == 4 then s.afterAcks c true .implicit c.cx.unbound done
      else if scope == 5 then s.afterAcks c true .implicit c.cx.unbound fun s => s.survive c done
      else done s)

/-- Two ranges overlap. -/
def overlaps (a n b m : Nat) : Bool := a < b + m && b < a + n

/-- A region cannot be bound: it overlaps a region or a sequence, the object's sequence lies in a region, or the table is
full (R227, R251). -/
def Context.bindClash (cx : Context) (obj base len : Nat) : Bool :=
  overlaps base len obj 8 || cx.bindings.length ≥ 4096 ||
    cx.bindings.any fun b => overlaps base len b.base b.len || overlaps base len b.obj 8 || overlaps obj 8 b.base b.len

/-- BIND (R227, R228, R251). -/
def execBind (p : Pfx) (f : F3) (s : State) : Answer :=
  let o : Src := .reg f.d 2 false .int
  let a : Src := .reg f.a 2 f.ta .int
  let b := immOr p p.immU f.b f.tb .int
  .next (s.run p (groupSize p) { srcs := [o, a, b], once := true } fun c s =>
    let t := c.low
    let obj := c.val64 o t
    let base := c.val64 a t
    let len := (c.val b t).toNat
    let scope := c.scope s
    let causes : List (Option SlotCause) :=
      [ c.accessCause s .read 64 obj,
        (if base.getLsbD 56 && (p.scope (s.cap 0)).isSome && scope.toNat ≤ 1 then some { code := 0x01, addr := base } else none),
        (if base.toNat % 128 != 0 || len == 0 || len % 128 != 0 then some { code := 0x07, addr := base } else none),
        (if c.cx.bindClash obj.toNat base.toNat len then some { code := 0x12, addr := base } else none) ]
    let cause := causes.foldl (fun x y => match y with | some e => SlotCause.min x e | none => x) none
    s.judged c true [t] (fun _ => cause) fun c s =>
      (s.modCtx c.cx.id fun x =>
        { x with bindings := x.bindings ++ [{ base := base.toNat, len := len, obj := obj.toNat, scope := scope }] }).retire c)

/-- UNBIND: a release of the issuer's writes to the region at its binding scope first (R228, R252). -/
def execUnbind (p : Pfx) (f : FA) (s : State) : Answer :=
  let a : Src := .reg f.a 2 f.ta .int
  .next (s.run p (groupSize p) { srcs := [a], once := true } fun c s =>
    match c.cx.bindings.find? fun b => b.base == (c.val64 a c.low).toNat with
    | none => s.retire c
    | some b =>
      let region : Context := { c.cx with bindings := [b] }
      s.afterAcks c true (.object b.obj) (fun va => 4 ≤ b.scope.toNat && b.base ≤ va.toNat && va.toNat < b.base + b.len) fun s =>
        ((s.releaseOn region c.owner c.act (.object b.obj) b.scope.toNat).modCtx c.cx.id fun x => { x with bindings := x.bindings.filter fun y => y.base != b.base }).retire c)

/-- The word that a watch sees: in this device's storage now, at a peer what its last read brought. -/
def Watch.word (w : Watch) (s : State) (keys : List VKey) : Option Word :=
  match w.loc with
  | .peer .. => w.got
  | l => some (s.wordSeen keys l)

/-- Send a read for every watch of a peer's word that has none under way. -/
def State.probes (s : State) (cx : Context) (ver : Nat) (o : Owner) : List Watch → List Watch × State
  | [] => ([], s)
  | w :: ws =>
    let (w, s) := match w.loc with
      | .peer peer addr =>
        if w.tag == 0 then
          let (tag, s) := s.fabSend cx ver o peer addr w.va (.read 4) .probe
          ({ w with tag := tag, got := none }, s)
        else (w, s)
      | _ => (w, s)
    let (rest, s) := s.probes cx ver o ws
    (w :: rest, s)

/-- The result of WAITNE: each watched word into its registers, full (R253). -/
def State.watched (s : State) (keys : List VKey) (o : Owner) (ws : List Watch) : State :=
  let vals := ws.map fun w => (w, (w.word s keys).getD 0)
  vals.foldl (fun s (w, v) => s.putRegs o (w.regs.map fun r => { reg := r, val := v, hi := 0 })) s

/-- Every watched word differs from what it is compared with. -/
def State.allDiffer (s : State) (keys : List VKey) (ws : List Watch) : Bool :=
  ws.all fun w => match w.word s keys with | some v => v != w.cmp | none => false

/-- The v registers that an indirect destination may name: its index register's range (R42). -/
def Ctx.ixRange (c : Ctx) (code : BitVec 7) : Option (Nat × Nat) :=
  if 96 ≤ code.toNat && code.toNat < 112 && !c.front then
    let d := (c.tray.ix[code.toNat % 8]?).getD IxDesc.unset
    some (d.base.toNat, d.boundM1.toNat + 1)
  else none

/-- WAITNE (R237, R253). -/
def execWaitne (p : Pfx) (f : F3) (s : State) : Answer :=
  let a : Src := .reg f.a 2 f.ta .int
  let b := immOr p p.immS f.b f.tb .int
  .next (s.run p (groupSize p)
      { srcs := [a, b], dsts := [(f.d, 1)], own := fun c s => c.slotAccess s false .read 4 (c.val64 a) fun _ => none } fun c s =>
    s.reach c false .read 4 (c.val64 a) (fun _ => none) fun c hs s =>
      s.failedReads c false hs fun c s =>
        let ws := (hs.filter fun h => c.act.getLsbD h.slot.val).map fun h =>
          { slot := h.slot.val, loc := h.loc, va := h.va, cmp := c.val b h.slot, regs := c.dstNames f.d 1 h.slot, tag := 0,
            got := none : Watch }
        if s.allDiffer c.keys ws then (s.watched c.keys c.owner ws).retire c
        else
          let (ws, s) := s.probes c.cx c.ver c.owner ws
          s.waitAt c (.waitne s.time c.size ws c.adv (c.ixRange f.d)))

/-- The slots of watches. -/
def watchMask (ws : List Watch) : BitVec 32 := maskOf fun t => ws.any fun w => w.slot == t.val

/-- A WAITNE ends: its results are written, its cursors advance, its entry goes on (R253). -/
def State.endWatch (s : State) (keys : List VKey) (o : Owner) (t0 size : Nat) (ws : List Watch) (adv : List (BitVec 7))
    (range : Option (Nat × Nat)) : State :=
  let s := (s.watched keys o ws).wake o (.waitne t0 size ws adv range) size
  match o with
  | .tray id => s.modTray id fun tr => adv.foldl (fun tr x => tr.advance (watchMask ws) x) tr
  | .front _ => s

/-- WAITNE_WAKE: the waiting agent's words all differ (R253); a peer's words are read again. -/
def execWaitneWake (s : State) : Answer :=
  let ag := s.input.agent
  match s.waitOf ag, ownerOf ag with
  | .waitne t0 size ws adv range, some o =>
    match s.ownerCtx o with
    | some (_, l, cx) =>
      if s.allDiffer (cx.keys l.ver) ws then .next (s.endWatch (cx.keys l.ver) o t0 size ws adv range)
      else
        let (ws', s) := s.probes cx l.ver o ws
        .next (s.rewait o (.waitne t0 size ws adv range) (.waitne t0 size ws' adv range))
    | none => .next s
  | _, _ => .next s

/-- WAITNE_TIMEOUT: 65,536 ns have passed (R253); a peer's word is read once more when none has been brought. -/
def execWaitneTimeout (s : State) : Answer :=
  let ag := s.input.agent
  match s.waitOf ag, ownerOf ag with
  | .waitne t0 size ws adv range, some o =>
    match s.ownerCtx o with
    | some (_, l, cx) =>
      if s.time < t0 + 65536 then .next s
      else if ws.all fun w => (w.word s (cx.keys l.ver)).isSome then .next (s.endWatch (cx.keys l.ver) o t0 size ws adv range)
      else
        let (ws', s) := s.probes cx l.ver o ws
        .next (s.rewait o (.waitne t0 size ws adv range) (.waitne t0 size ws' adv range))
    | none => .next s
  | _, _ => .next s

/-- An ACQ of an owner is satisfied: its slots acquire, and its entry goes past it (R249). -/
def State.acqDone (s : State) (o : Owner) (cx : Context) (w : Wait) : State :=
  match w with
  | .acq _ _ size _ va scope act => (s.acquireOn cx o act (.object va.toNat) scope).wake o w size
  | _ => s

/-- ACQ_WAKE: the sequence has reached the target (R249); a peer's sequence is read again. -/
def execAcqWake (s : State) : Answer :=
  let ag := s.input.agent
  match s.waitOf ag, ownerOf ag with
  | .acq l v size tag va scope act, some o =>
    match s.ownerCtx o with
    | some (_, la, cx) =>
      match l with
      | .peer peer addr =>
        if tag != 0 then .next s
        else
          let (tag', s) := s.fabSend cx la.ver o peer addr (BitVec.ofNat 64 (2 ^ 56 + peer * 2 ^ 52 + addr)) (.read 8) .probe
          .next (s.rewait o (.acq l v size tag va scope act) (.acq l v size tag' va scope act))
      | _ =>
        if reached (BitVec.ofNat 64 (leNat (s.seen (cx.keys la.ver) l 8))) v then
          .next (s.acqDone o cx (.acq l v size tag va scope act))
        else .next s
    | none => .next s
  | _, _ => .next s

/-- WAITT_WAKE: device time has reached the value (R169). -/
def execWaittWake (s : State) : Answer :=
  let ag := s.input.agent
  match s.waitOf ag, ownerOf ag with
  | .waitt v size, some o => .next (if v.toInt ≤ s.time then s.wake o (.waitt v size) size else s)
  | _, _ => .next s

end Sys2Proof.Machine
end

