-- ==== Sys2Proof/Machine/Launch.lean ====
section
/-!
DEFINITION. Machine/Launch.lean: launch records (R15 to R22), their submission and rank (R321, R323, R338), and major 26: the
version tree (R318 to R331, R354).
-/

namespace Sys2Proof.Machine

/-- A launch record as read (R21); `clean` says that its reserved fields are 0. -/
structure LaunchRec where
  trayPc : DWord
  frontPc : DWord
  regres : Nat
  prio : BitVec 4
  restart : Bool
  nlevels : Nat
  shmem : Nat
  spillBase : DWord
  spillStride : Nat
  fairPeriod : Nat
  formerTimeout : Nat
  args : List Word
  levels : List Level
  clean : Bool
  deriving DecidableEq, Repr

/-- A little-endian field of a record. -/
def fieldAt (bs : List Byte) (o n : Nat) : Nat := leNat ((bs.drop o).take n)

/-- The record that 192 bytes hold (R21). -/
def LaunchRec.of (bs : List Byte) : LaunchRec :=
  let ctl := fieldAt bs 0x10 4
  let n := ctl % 16
  let timers := fieldAt bs 0x24 4
  let raw := (List.range n).map fun i => fieldAt bs (0x50 + 8 * i) 8
  { trayPc := BitVec.ofNat 64 (fieldAt bs 0 8), frontPc := BitVec.ofNat 64 (fieldAt bs 8 8), regres := ctl / 256 % 64
    prio := BitVec.ofNat 4 (ctl / 32 % 8), restart := ctl / 16 % 2 == 1, nlevels := n, shmem := fieldAt bs 0x14 4
    spillBase := BitVec.ofNat 64 (fieldAt bs 0x18 8), spillStride := fieldAt bs 0x20 4
    fairPeriod := if timers % 65536 == 0 then 4096 else timers % 65536
    formerTimeout := if timers / 65536 == 0 then 2048 else timers / 65536
    args := (List.range 8).map fun i => w32 (fieldAt bs (0x30 + 4 * i) 4)
    levels := raw.map fun x =>
      { scope := BitVec.ofNat 3 (x / 2 ^ 35), dom := BitVec.ofNat 3 (x / 2 ^ 32), extent := x % 2 ^ 32 : Level }
    clean := ctl / 2 ^ 14 == 0 && (raw.all fun x => x / 2 ^ 38 == 0) && (bs.drop 0x90).all (· == 0) }

/-- A level k ≥ 2 is as R16 allows, above a level of domain `below`. -/
def levelOk (below : BitVec 3) (l : Level) : Bool :=
  1 ≤ l.extent && l.extent ≤ 2 ^ 24 && 2 ≤ l.dom.toNat && l.dom.toNat ≤ 5 && below.toNat ≤ l.dom.toNat &&
    (if l.scope == 5 then 4 ≤ l.dom.toNat else l.dom.toNat - 1 ≤ l.scope.toNat && l.scope.toNat ≤ 4)

/-- The levels obey R16. -/
def levelsOk (ls : List Level) : Bool :=
  match ls with
  | l0 :: l1 :: rest =>
    l0 == { scope := 0, dom := 0, extent := 32 } && l1.dom == 1 && l1.scope == 0 && 1 ≤ l1.extent && l1.extent ≤ 2 ^ 24 &&
      ((l1 :: rest).zip rest).all (fun (a, b) => levelOk a.dom b) && extents ls ≤ 2 ^ 40
  | _ => false

/-- The team level of levels (R17). -/
def teamLevelOf (ls : List Level) : Nat := (ls.findIdx? fun x => x.dom == 2).getD 1

/-- Trays of one lane that a launch may have (R23). -/
def traysPerLane (regres : Nat) : Nat := Nat.min 4 (4096 / (32 * (32 + regres)))

/-- The largest unit of BENCH levels fits an empty bench (R17, R18, R23). -/
def LaunchRec.fits (r : LaunchRec) : Bool :=
  let m := teamLevelOf r.levels
  let trays := extents ((r.levels.take m).drop 1)
  let top := (List.range r.levels.length).foldl (fun n k => if (r.levels.getD k { scope := 0, dom := 0, extent := 1 }).dom == 2 then k else n) m
  let units := extents ((r.levels.take top).drop m)
  trays ≤ 64 && units ≤ 4 && units * trays ≤ 64 * traysPerLane r.regres && units * r.shmem ≤ 524288

/-- An address of code: even and in an executable page (R21). -/
def State.codePage (s : State) (cx : Context) (ver : Nat) (pc : DWord) : Bool :=
  pc.toNat % 2 == 0 && (match s.resolve cx ver 0 none .fetch pc with | .ok .. => true | _ => false)

/-- Why a record is refused: 0x02 for a SURV level on a variant without parity, whatever else stands against the record, else 0x01
(R2, R22). -/
def State.refusal (s : State) (cx : Context) (ver : Nat) (r : LaunchRec) : Option Nat :=
  if !s.cap 1 && r.levels.any (·.scope == 5) then some 0x02
  else if r.clean && 2 ≤ r.nlevels && r.nlevels ≤ 8 && levelsOk r.levels && r.regres ≤ 32 && r.shmem % 1024 == 0 && r.shmem ≤ 524288 &&
      r.spillBase.toNat % 64 == 0 && r.spillStride % 64 == 0 && r.fits && s.codePage cx ver r.trayPc &&
      (r.frontPc == 0 || s.codePage cx ver r.frontPc) then none
  else some 0x01

/-- The firmware's default rank (R338). -/
def rankOf (prio deadline now : Nat) : Nat :=
  let slack := if deadline == 0 then 2 ^ 28 - 1 else (deadline - now) / 1000
  (15 - Nat.min prio 15) * 2 ^ 28 + Nat.min slack (2 ^ 28 - 1)

/-- Entries of the PIFO (R9, R338). -/
def pifoRoom : Nat := 4096

/-- The PIFO is full (R338). -/
def State.pifoFull (s : State) : Bool := pifoRoom ≤ s.sched.pifo.length

/-- The rank that the program in the active complex's slot computes; the firmware's default is known (R338, log 150). -/
def State.rank (s : State) (prio deadline : Nat) : Nat :=
  match s.sched.rankProg with
  | none => rankOf prio deadline s.time
  | some _ => (Config.freeValue (s.tick * 65536 + prio)).toNat % 2 ^ 32

/-- Put work into the PIFO, or behind it while it is full (R338, log 149). -/
def State.enqueue (s : State) (w : Work) (prio deadline est : Nat) : State :=
  let e : PifoEntry :=
    { rank := s.rank prio deadline, arrival := s.sched.arrivals, work := w, prio := prio, deadline := deadline, est := est }
  { s with sched := { s.sched with pifo := s.sched.pifo ++ [e], arrivals := s.sched.arrivals + 1 } }

/-- A new launch of a record (R21). -/
def State.newLaunch (s : State) (cx : Context) (ver : Nat) (addr : DWord) (r : LaunchRec) (args : List Word) (dest : Dest)
    (prio deadline est stream role : Nat) (seq : BitVec 32) (fn : Nat) : Nat × State :=
  let (id, s) := s.fresh
  let l : Launch :=
    { id := id, ctx := cx.id, ver := ver, recAddr := addr, trayPc := r.trayPc, frontPc := r.frontPc, regres := r.regres
      prio := r.prio, restart := r.restart, shmem := r.shmem, spillBase := r.spillBase, spillStride := r.spillStride
      fairPeriod := r.fairPeriod, formerTimeout := r.formerTimeout, args := (Vector.range 8).map fun i => args.getD i 0
      levels := r.levels, nextTeam := 0, endedTeams := 0, value := 0, cause := none, dest := dest, itemPrio := prio
      deadline := deadline, est := est, stream := stream, role := role, seq := seq, fn := fn, dies := [] }
  (id, { s with launches := s.launches ++ [l] })

/-- Submit a record from an instruction, with a release to the launch's threads (R235), or refuse it: the refusal's record names the
submitting group (R22). -/
def State.submit (s : State) (c : Ctx) (ver : Nat) (addr : DWord) (bs : List Byte) (dest : Dest) : State × Bool :=
  let r := LaunchRec.of bs
  match s.ctx? c.cx.id with
  | none => (s, false)
  | some cx =>
    match s.refusal cx ver r with
    | some code =>
      let mask : BitVec 32 := if c.front then 0 else 1#32 <<< c.low.val
      (s.record cx.id (c.recordOf s.devNo { code := code, mask := mask, addr := addr }), false)
    | none =>
      let (id, s) := s.newLaunch cx ver addr r r.args dest c.launch.itemPrio c.launch.deadline 0 0 0 c.launch.seq c.launch.fn
      ((s.releaseOn cx c.owner c.act (.launch id) 3).enqueue (.launch id) c.launch.itemPrio c.launch.deadline 0, true)

/-- The cause with which a submission ends when it is refused, for the result word. -/
def State.refusedWith (s : State) (cx : Context) (ver : Nat) (bs : List Byte) : Nat :=
  (s.refusal cx ver (LaunchRec.of bs)).getD 0x01

/-- The registers of a code in the lowest active slot. -/
def Ctx.lowNames (c : Ctx) (code : BitVec 7) (n : Nat) : List RegName :=
  match c.names code n c.low with | .ok rs => rs | .error _ => []

/-- A result pair as a destination: two s registers, or one f register (R323). -/
def Ctx.resultDest (c : Ctx) (code : BitVec 7) : Dest :=
  match c.lowNames code 2 with
  | [r] => .regs c.owner r .none
  | lo :: hi :: _ => .regs c.owner lo hi
  | [] => .none

/-- LAUNCH (R322, R323): it waits while the PIFO is full. -/
def execLaunch (p : Pfx) (f : F3A) (s : State) : Answer :=
  let a : Src := .reg f.a 2 f.ta .int
  .next (s.run p (groupSize p) { srcs := [a], dsts := [(f.d, 2)], once := true, own := fun c s t => c.accessCause s .read 64 (c.val64 a t) } fun c s =>
    let addr := c.val64 a c.low
    s.peeks c true (fun _ => [(addr, 192)])
      (fun _ => if addr.toNat % 64 != 0 then some { code := 0x07, addr := addr } else none) fun c bytes s =>
        if s.pifoFull then s.stall
        else
          let bs := bytes c.low
          let dest := c.resultDest f.d
          let s := (s.unpull c).markEmpty c.owner (c.lowNames f.d 2)
          match s.submit c c.ver addr bs dest with
          | (t, true) => t.retire c
          | (t, false) => (t.deliver dest (resultWord 4 (s.refusedWith c.cx c.ver bs)) 0).retire c)

/-- The lowest local id that no live version of a context has (R318). -/
def Context.freeVer (cx : Context) : Option Nat :=
  ((List.range 63).map (· + 1)).find? fun v => match cx.ver? v with | some r => r.state != .live | none => true

/-- A new version, child of another (R318). -/
def Context.addVer (cx : Context) (v parent : Nat) : Context :=
  let inc := match cx.ver? v with | some r => if r.inc == 63 then 1 else r.inc + 1 | none => 1
  { cx with
    versions := (cx.versions.filter fun r => r.loc != v) ++
      [{ loc := v, inc := inc, state := .live, parent := parent, frees := [], told := [], ended := [] }] }

/-- What a LAUNCHS asks of its record's page: it may be written, and is versioned; with a version free, there must be room for its line
(R319, R324). -/
def Ctx.launchsCause (c : Ctx) (s : State) (addr : DWord) : Option SlotCause :=
  let odd : Option SlotCause := if addr.toNat % 64 != 0 then some { code := 0x07, addr := addr } else none
  match s.resolve c.cx c.ver c.team.id c.tray? .read addr with
  | .ok l a =>
    if !a.w || a.kv || !a.vers || (c.cx.freeVer.isSome && s.lineFull c.cx [VKey.here c.cx.id 64] l a) then SlotCause.min odd { code := 0x09, addr := addr }
    else odd
  | _ => odd

/-- A record at a peer, whose leaf is asked there before any effect whether the prediction may be written in a version (R324, log
132). -/
def State.predictQueries (s : State) (c : Ctx) (addr : DWord) : List Query :=
  match s.resolve c.cx c.ver c.team.id c.tray? .read (addr + 0x28) with
  | .ok (.peer p a) _ => [{ slot := c.low, va := addr, peer := p, addr := a, op := .check 8 true false }]
  | _ => []

/-- The prediction is written into a record in a new version (R324). -/
def State.predict (s : State) (c : Ctx) (v : Nat) (addr : DWord) (x : DWord) : State :=
  match s.ctx? c.cx.id with
  | none => s
  | some cx =>
    let va := addr + 0x28
    match s.resolve cx v c.team.id c.tray? .write va with
    | .ok (.peer p a) _ =>
      let (tag, s) := s.fabSend cx v c.owner p a va (.write (leBytes 8 x.toNat)) .store
      (s.loseResv (Loc.peer p a).sector (c.writer c.low)).willSend cx.id c.launch.id (some (c.owner, 1#32 <<< c.low.val)) none va
        (.peer p a) tag
    | .ok l a => s.store (cx.keys v) a l (leBytes 8 x.toNat) (c.writer c.low) (some c.party) true
    | _ => s

/-- LAUNCHS with its record read: a new version with the prediction, and the launch in it (R324). -/
def State.launchs (s : State) (c : Ctx) (addr pred : DWord) (bs : List Byte) (regs : List RegName) (idReg dest : Dest) : State :=
  let s := (s.unpull c).markEmpty c.owner regs
  match c.cx.freeVer with
  | none => ((s.deliver idReg 0 0).deliver dest (resultWord 4 0) 0).retire c
  | some v =>
    let s := (s.modCtx c.cx.id fun x => x.addVer v c.ver).predict c v addr pred
    let gid := match s.ctx? c.cx.id with | some x => x.gid s.devNo v | none => 0
    let s := s.deliver idReg (gid.setWidth 64) 0
    match s.submit c v addr bs dest with
    | (t, true) => t.retire c
    | (t, false) => ((t.squashSet c.cx.id [v] none).deliver dest (resultWord 4 (s.refusedWith c.cx v bs)) 0).retire c

/-- LAUNCHS (R322, R324): it waits while the PIFO is full. -/
def execLaunchs (p : Pfx) (f : F3) (s : State) : Answer :=
  let a : Src := .reg f.a 2 f.ta .int
  let b : Src := .reg f.b 2 f.tb .int
  let dsts := if s.inFront then [(f.d, 2), (f.d + 1, 2)] else [(f.d, 4)]
  .next (s.run p (groupSize p)
      { srcs := [a, b], dsts := dsts, once := true, own := fun c s t => c.accessCause s .read 64 (c.val64 a t) } fun c s =>
    let addr := c.val64 a c.low
    s.peeks c true (fun _ => [(addr, 192)]) (fun _ => c.launchsCause s addr) fun c bytes s =>
      s.inquired c true (s.predictQueries c addr) fun c s =>
        if s.pifoFull then s.stall
        else
          s.launchs c addr (c.val64 b c.low) (bytes c.low) (dsts.flatMap fun (x : BitVec 7 × Nat) => c.lowNames x.1 x.2)
            (c.resultDest f.d) (c.resultDest (if c.front then f.d + 1 else f.d + 2)))

/-- The live version of a context with a global id, other than version 0. -/
def Context.liveVer (cx : Context) (dev : BitVec 4) (gid : BitVec 16) : Option Version :=
  cx.versions.find? fun r => r.state == .live && cx.gid dev r.loc == gid

/-- An owner's entry or strand that stands in a wait, as an issuing context with the wait taken from it. -/
def State.waiting (s : State) (o : Owner) (isWait : Wait → Bool) (size : Nat) : Option (Ctx × State) :=
  match o with
  | .front t =>
    (match s.frontCtx t Pfx.empty size with
     | some c =>
       if isWait c.ent.wait then some ({ c with act := 1 }, s.modFront t fun fr => { fr with wait := .none }) else none
     | none => none)
  | .tray id =>
    (match s.tray? id with
     | none => none
     | some tr =>
       match tr.frontier.findIdx? fun e => isWait e.wait with
       | none => none
       | some k =>
         let s := s.modTray id fun tr => { tr with frontier := modAt (fun e => { e with wait := .none }) tr.frontier k }
         (s.trayCtx id k Pfx.empty size).map fun c => (c, s))

/-- The wait of a producer's instruction. -/
def replyOf (pid : Nat) (w : Wait) : Bool := match w with | .reply q _ => q == pid | _ => false

/-- A tray is in a trap, so that its other entries wait for the ERET. -/
def State.inTrap (s : State) (o : Owner) : Bool :=
  match o with
  | .tray id => (match s.tray? id with | some tr => tr.trap.isSome | none => false)
  | .front _ => false

/-- A waiting instruction fails: it raises its cause, or its guard clears the slots that do and it retires (R77, R175). -/
def State.failWait (s : State) (c : Ctx) (x : Producer) (f : Cause) : State :=
  match x.clear with
  | some (p, v) => if clearable f.code then (s.setPred c p f.mask fun _ => v).retire c else s.raise c f
  | none => s.raise c f

/-- The notices for which a RESOLVE or SQUASH waits are all complete: it goes on, or raises 0x10 when a peer was left out
(R326, R328). The producer that stands for the wait goes. Nothing happens while the waiting entry's tray is in a trap. -/
def State.noticesDone (s : State) (pid : Nat) : State :=
  let mine (n : NoticeOut) : Bool := n.waiter == some pid
  match s.prods.find? fun x => x.id == pid with
  | none => s
  | some x =>
    if (s.fab.notices.any fun n => mine n && !n.waits.isEmpty) || s.inTrap x.owner then s
    else
      let left := s.fab.notices.any fun n => mine n && !n.owed.isEmpty
      let s := { s with
        prods := s.prods.filter fun y => y.id != pid
        fab := { s.fab with
          notices := s.fab.notices.filterMap fun n =>
            if mine n then (if n.owed.isEmpty || !n.squash then none else some { n with waiter := none }) else some n } }
      match s.waiting x.owner (replyOf pid) x.size with
      | none => s
      | some (c, s) => if left then s.failWait c x { code := 0x10, mask := 1#32 <<< c.low.val, once := true } else s.retire c

/-- Go on after a tree operation: at once, or when the notices are acknowledged. -/
def State.afterNotices (s : State) (c : Ctx) (pid : Nat) : State :=
  if s.fab.notices.any fun n => n.waiter == some pid then (s.advance c).waitAt c (.reply pid s.time)
  else ({ s with prods := s.prods.filter fun x => x.id != pid }).retire c

/-- The unpublished shadows of a committed version pass to its parent under their keys: a sector takes the place of the parent's of the
same key and place (R272). -/
def passShadows (ctx w p : Nat) (xs : List ShadowSector) : List ShadowSector :=
  let mine := xs.filter fun x => x.ctx == ctx && x.ver == w
  (xs.filter fun x =>
    !(x.ctx == ctx && x.ver == w) && !(x.ctx == ctx && x.ver == p && mine.any fun y => y.key == x.key && y.loc == x.loc)) ++
    mine.map fun x => { x with ver := p }

/-- The version records of a context once a version is committed: its children are its parent's, which has its recorded TSFREEs but
those that took effect, and whose lines stand at every peer that holds the version's (R239, R326). -/
def Context.committed (cx : Context) (w : Version) (into : BitVec 16) (done : List Nat) : Context :=
  { cx with versions := cx.versions.map fun (r : Version) =>
      if r.loc == w.loc then { r with state := .committed into, frees := [], ended := [] }
      else if r.state == .live && r.parent == w.loc then { r with parent := w.parent }
      else if r.loc == w.parent then
        { r with
          frees := r.frees ++ w.frees.filter fun i => !done.contains i && !r.frees.contains i
          told := r.told ++ w.told.filter fun p => !r.told.contains p }
      else r }

/-- Commit a version into its parent (R326, R320). -/
def State.commitVer (s : State) (c : Ctx) (w : Version) (pid : Nat) : State :=
  let ctx := c.cx.id
  let p := w.parent
  let key : VKey := .here ctx w.loc
  let into : Option VKey := if p == 0 then none else some (.here ctx p)
  let siblings := (c.cx.versions.filter fun r => r.state == .live && r.parent == p && r.loc != w.loc).map (·.loc)
  let dead := siblings.flatMap c.cx.descend
  let s := (s.willMerge c.cx key into (c.cx.keys p) c.owner c.act).merge key into (some c.party)
  let mv (v : Nat) : Nat := if v == w.loc then p else v
  let s := { s with
    launches := s.launches.map fun (l : Launch) => if l.ctx == ctx then { l with ver := mv l.ver } else l
    cmds := s.cmds.map fun (k : Cmd) => if k.ctx == ctx then { k with ver := mv k.ver } else k
    allocs := s.allocs.map fun (a : Alloc) => if a.ctx == ctx then { a with ver := mv a.ver } else a
    shadows := passShadows ctx w.loc p s.shadows
    promoted := (s.promoted.map fun (x : Nat × VKey) => if x.2 == key then (x.1, VKey.here ctx p) else x).eraseDups
    sched := { s.sched with
      slots := s.sched.slots.map fun (b : BindRec) => if b.ctx == ctx then { b with ver := mv b.ver } else b
      saved := s.sched.saved.map fun (x : Saved) =>
        { x with cmds := x.cmds.map fun (k : Cmd) => if k.ctx == ctx then { k with ver := mv k.ver } else k } } }
  -- recorded TSFREEs: those of the parent's own allocations take effect
  let own := w.frees.filter fun i => s.allocs.any fun a => a.id == i && a.ver == p
  let s := { s with allocs := s.allocs.filter fun a => !own.contains a.id }
  let pg := c.cx.gid s.devNo p
  let s := (s.modCtx ctx fun x => x.committed w pg own).squashSet ctx dead (some pid)
  if w.told.isEmpty then s else s.notify false (c.cx.gid s.devNo w.loc) pg w.told (some pid)

/-- The version that an operand names (R322). -/
def verSrc (p : Pfx) (f : FA) : Src := immOr p p.immU f.a f.ta .int

/-- RESOLVE (R326, R330). -/
def execResolve (p : Pfx) (f : FA) (s : State) : Answer :=
  let a := verSrc p f
  .next (s.run p (groupSize p) { srcs := [a], once := true } fun c s =>
    let w := (c.cx.liveVer s.devNo ((c.val a c.low).setWidth 16)).filter fun w => w.parent == c.ver
    s.judged c true [c.low] (fun _ => if w.isNone then some { code := 0x11 } else none) fun c s =>
      match w with
      | some w =>
        let (pid, s) := s.newProducer c .load [] [] []
        (s.commitVer c w pid).afterNotices c pid
      | none => s.stall)

/-- SQUASH (R327, R328). -/
def execSquash (p : Pfx) (f : FA) (s : State) : Answer :=
  let a := verSrc p f
  .next (s.run p (groupSize p) { srcs := [a], once := true } fun c s =>
    let w := (c.cx.liveVer s.devNo ((c.val a c.low).setWidth 16)).filter fun w =>
      w.loc != c.ver && (c.cx.chain w.loc).contains c.ver
    s.judged c true [c.low] (fun _ => if w.isNone then some { code := 0x11 } else none) fun c s =>
      match w with
      | some w =>
        let (pid, s) := s.newProducer c .load [] [] []
        (s.squashSet c.cx.id (c.cx.descend w.loc) (some pid)).afterNotices c pid
      | none => s.stall)

/-- The state word of a version (R331). -/
def Context.verWord (cx : Context) (dev : BitVec 4) (gid : BitVec 16) : Word :=
  let loc := gid.toNat / 64 % 64
  if gid.extractLsb' 12 4 != dev then 0
  else if loc == 0 then (if gid.toNat % 64 == 0 then 0x20000000#32 else 0)
  else match cx.ver? loc with
    | none => 0
    | some r =>
      if r.inc != gid.toNat % 64 then 0
      else match r.state with
        | .live => 0x10000000#32 ||| (cx.gid dev r.parent).setWidth 32
        | .committed g => 0x20000000#32 ||| g.setWidth 32
        | .squashed => 0x30000000#32

/-- VERQ (R331). -/
def execVerq (p : Pfx) (f : F3A) (s : State) : Answer :=
  let a := immOr p p.immU f.a f.ta .int
  s.alu p (groupSize p) [a] f.d fun c t => c.cx.verWord s.devNo ((c.val a t).setWidth 16)

/-- POSTRES (R325). -/
def execPostres (p : Pfx) (f : FA) (s : State) : Answer :=
  let a : Src := .reg f.a 2 f.ta .int
  .next (s.run p (groupSize p) { srcs := [a], once := true } fun c s =>
    (s.modLaunch c.launch.id fun l => { l with value := (c.val64 a c.low).setWidth 56 }).retire c)

end Sys2Proof.Machine
end

