-- ==== Sys2Proof/Machine/Events.lean ====
section
/-!
DEFINITION. Machine/Events.lean: what befalls trays without an instruction: returns of loads and long operations (R43, R107,
R180 to R185), spills and fills (R34 to R36, R57, R58), fairness (R138), spawned and formed threads (R141 to R146), frames
(R148), barriers (R154, R155) and migration (R220 to R222).
-/

namespace Sys2Proof.Machine

/-- Functions are fenced: their chains give no further item (R185, log 108). -/
def State.fenceFns (s : State) (fns : List Nat) : State :=
  { s with pkg := { s.pkg with fencedFns := s.pkg.fencedFns ++ fns.filter fun n => !s.pkg.fencedFns.contains n } }

/-- The functions whose chains brought a context's launches (R383). -/
def State.fnsOf (s : State) (ctx : Nat) : List Nat := ((s.launches.filter (·.ctx == ctx)).map (·.fn)).eraseDups

/-- Raise the count of a bench's failures; the second removes it from dispatch, and the failing functions are fenced (R185). -/
def State.benchFailed (s : State) (bench : Nat) (fns : List Nat) : State :=
  let n := Sparse.get 0 s.pkg.benchFail bench + 1
  let s : State := { s with pkg := { s.pkg with
      benchFail := Sparse.put 0 s.pkg.benchFail bench n
      removed := if 2 ≤ n && !s.pkg.removed.contains bench then s.pkg.removed ++ [bench] else s.pkg.removed } }
  if 2 ≤ n then s.fenceFns fns else s

/-- A context is stopped for an uncorrectable error in a memory class at a line (R180, R183). -/
def State.memoryStop (s : State) (ctx cls line : Nat) (r : Record) : State :=
  s.stopContext ctx 0x13 { r with cause := 0x13, d0 := BitVec.ofNat 64 cls, d1 := BitVec.ofNat 64 line }

/-- The context and address under which a place is reached. -/
def State.vaOf (s : State) (l : Loc) : Option (Nat × DWord) :=
  match l with
  | .hbm pa => (s.nameOf (pa / 65536)).map fun x => (x.1, x.2 + BitVec.ofNat 64 (pa % 65536))
  | .pin e o => (s.homeTab[e]?).map fun h => (h.ctx, BitVec.ofNat 64 (h.base + o))
  | .tile al o => (s.alloc? al).map fun a => (a.ctx, BitVec.ofNat 64 (a.handle + o))
  | _ => none

/-- A context has a line homed on a hub slice: a pinned one, a version line, or one that the hub L2 may hold (R195, R319, R360). -/
def State.homedOn (s : State) (c : Context) (slice : Nat) : Bool :=
  let here (va : DWord) : Bool := s.slice c.id va == slice
  (s.homeTab.any fun h =>
      h.valid && h.ctx == c.id && h.home == 2 && (List.range (h.pages * 64)).any fun i => here (BitVec.ofNat 64 (h.base + 1024 * i))) ||
    (s.copies.any fun x =>
      x.ctx == c.id && here (BitVec.ofNat 64 (1024 * x.line)) &&
        (x.attr.home == 2 || (x.attr.home == 0 && Config.hits s.tick x.line))) ||
    s.vlines.any fun x =>
      (match x.key with | .here i _ => i == c.id | .remote i _ => i == c.id) && ((s.vaOf x.loc).any fun y => here y.2)

/-- A hub slice is fenced: every context with a line homed there is stopped (R185). -/
def State.fenceSlice (s : State) (slice line : Nat) : State :=
  let s := { s with pkg := { s.pkg with
    fenced := if s.pkg.fenced.contains slice then s.pkg.fenced else s.pkg.fenced ++ [slice] } }
  (s.ctxs.filter fun c => s.homedOn c slice).foldl (fun s c => s.memoryStop c.id 3 line { cause := 0x13 }) s

/-- An uncorrectable error of a class is met: the consumer's context is stopped; a hub slice is fenced, a failing bench is counted,
and the failing functions are fenced with them (R180 to R185). -/
def State.memoryFailed (s : State) (ctx cls unit line : Nat) (slice : Bool) (r : Record) : State :=
  let fns := s.fnsOf ctx
  let s := s.memoryStop ctx cls line r
  if cls == 3 && slice then (s.fenceSlice (unit % 96) line).fenceFns fns
  else if cls == 1 || cls == 2 then s.benchFailed unit fns
  else s

/-- An entry of an owner, a trap's saved ones included, still waits with a producer for responses. -/
def State.awaits (s : State) (o : Owner) (pid : Nat) : Bool :=
  match o with
  | .tray id =>
    (match s.tray? id with
     | some tr =>
       tr.frontier.any (fun e => replyOf pid e.wait) ||
         (match tr.trap with | some ts => ts.frontier.any fun e => replyOf pid e.wait | none => false)
     | none => false)
  | .front t => (match s.team? t with | some tm => replyOf pid tm.front.wait | none => false)

/-- LONG_LATENCY_RESULT (R43, R107). -/
def execLongLatencyResult (s : State) : Answer := .next (s.fillProducer s.input.id .long)

/-- The spill region of a slot's thread (R36). -/
def spillBaseOf (tm : Team) (l : Launch) (tid : Nat) : Nat :=
  l.spillBase.toNat + (tm.teamno * (32 * l.traysPerTeam) + tid) * l.spillStride

/-- SPILL_WRITE: frame `n` of tray `id` reaches the spill area in the tray's version (R34, R36). -/
def execSpillWrite (s : State) : Answer :=
  match s.tray? s.input.id with
  | none => .next s
  | some tr =>
    match tr.frames.find? (fun f => f.uid == s.input.n && f.spill == .pending), s.around tr.team with
    | some f, some (tm, l, cx) =>
      let s := slotList.foldl (fun s t => match tr.remap[t] with
        | some tid =>
          s.ctxWrite cx l.ver (spillBaseOf tm l tid + tr.spillOff f.uid) ((f.regs[t].toList.take f.size).flatMap fun r => leBytes 4 r.val.toNat)
        | none => s) s
      .next (s.modTray tr.id fun tr =>
        { tr with frames := tr.frames.map fun (x : Frame) => if x.uid == f.uid then { x with spill := .written } else x })
    | _, _ => .next s

/-- FILL_RESTORE: frame `n` of tray `id`, allocated and spilled, is read back (R35, R57). A byte that cannot be read is a free
value. -/
def execFillRestore (s : State) : Answer :=
  match s.tray? s.input.id with
  | none => .next s
  | some tr =>
    match tr.frames.find? (fun f => f.uid == s.input.n && f.held && f.spill == .written), s.around tr.team with
    | some f, some (tm, l, cx) =>
      let word (t : Fin 32) (tid i : Nat) : Word :=
        match s.ctxRead cx l.ver (spillBaseOf tm l tid + tr.spillOff f.uid + 4 * i) 4 with
        | some bs => w32 (leNat bs)
        | none => loWord (Config.freeValue (s.tick * 65536 + t.val * 16 + i))
      let regs : Slots (Vector Reg 16) := Slots.gen fun t => match tr.remap[t] with
        | some tid => Vector.ofFn fun i => { val := word t tid i.val, full := true : Reg }
        | none => Vector.replicate 16 Reg.zero
      .next (s.modTray tr.id fun tr =>
        { tr with frames := tr.frames.map fun (x : Frame) => if x.uid == f.uid then { x with regs := regs, spill := .none } else x })
    | _, _ => .next s

/-- A frame's registers are empty until its fill has restored them (R35). -/
def Frame.emptied (f : Frame) : Frame := { f with regs := f.regs.map fun v => v.map fun r => { r with full := false } }

/-- The current frame of a tray needs its registers back. -/
def Tray.needsFill (tr : Tray) : Bool := match tr.frames.head? with | some f => !f.held && 0 < f.size | none => false

/-- An entry of a tray that waits for pool space: its position, its order, what it needs. A CALL or XACQ that waits in a trap's
saved frontier is served after its ERET only, since the handler finds the frames and the block as they stood (R176); a fill is
served for it too. -/
def Tray.poolWaits (tr : Tray) : List (Nat × Nat × PoolNeed) :=
  let saved : List (Nat × Nat × PoolNeed) := match tr.trap with
    | some ts => ts.frontier.filterMap fun e => match e.wait with | .pool o (.fill u) => some (0, o, .fill u) | _ => none
    | none => []
  (((List.range tr.frontier.length).zip tr.frontier).filterMap fun (k, e) => match e.wait with
    | .pool o need => some (k, o, need)
    | _ => none) ++ saved

/-- The waits for pool space on a lane of a bench, oldest first: order, tray, entry, need. -/
def State.lanePool (s : State) (bench lane : Nat) (landed : Bool) : List (Nat × Nat × Nat × PoolNeed) :=
  let ts := s.trays.filter fun t => t.bench == bench && t.lane == lane && t.landed.isSome == landed
  let ws := ts.flatMap fun t =>
    (t.poolWaits.map fun (k, o, need) => (o, t.id, k, need)) ++
      (match t.frames.head? with
       | some f => if t.needsFill && !(t.poolWaits.any fun x => x.2.2 == .fill f.uid) then [(f.asked, t.id, 0, PoolNeed.fill f.uid)] else []
       | none => [])
  ws.foldr (fun w acc => (acc.takeWhile fun x => x.1 < w.1) ++ w :: (acc.dropWhile fun x => x.1 < w.1)) []

/-- The frames that a waiting need would spill if it fits now. -/
def State.fitsNow (s : State) (id k : Nat) (need : PoolNeed) : Option (List Nat) :=
  match s.tray? id, s.trayCtx id k Pfx.empty 4 with
  | some tr, some c =>
    let (n, keep) := match need with
      | .ext => (16, 1)
      | .frame w => (w, 0)
      | .fill u => (match tr.frames.find? (·.uid == u) with | some f => (f.size, 1) | none => (0, 1))
    (match s.room c tr n keep with | .fits us => some us | _ => none)
  | _, _ => none

/-- A frame's registers are allocated for its fill, and the entries that waited for them go on (R35). -/
def State.fillTake (s : State) (id uid : Nat) (us : List Nat) : State :=
  let go (e : Entry) : Entry := match e.wait with
    | .pool _ (.fill u) => if u == uid then { e with wait := .none } else e
    | _ => e
  (s.spill id us).modHeld id fun tr =>
    { tr with
      frames := tr.frames.map fun (f : Frame) => if f.uid == uid then { f with held := true, asked := 0 } else f
      frontier := mergeAll (tr.frontier.map go)
      trap := tr.trap.map fun ts => { ts with frontier := ts.frontier.map go } }

/-- The newest wait for pool space of a stuck lane raises 0x06 at its instruction (R38); after its ERET it waits again. -/
def State.deadlockAt (s : State) (ws : List (Nat × Nat × Nat × PoolNeed)) : State :=
  match (ws.filter fun w => match s.trayCtx w.2.1 w.2.2.1 Pfx.empty 4 with | some c => c.ent.inPool | none => false).getLast? with
  | some w =>
    (match s.trayCtx w.2.1 w.2.2.1 Pfx.empty 4 with
     | some c => s.raise c { code := 0x06, mask := c.ent.mask }
     | none => s)
  | none => s

/-- POOL_WAIT_SERVE on lane `n` of bench `id`, of its landed tray under `flag`: the oldest wait that fits now is served, and then
the others are looked at (R58). A waiting CALL or XACQ issues again at once. A lane whose every tray is stuck is in register
deadlock (R38). -/
def execPoolWaitServe (s : State) : Answer :=
  let ws := s.lanePool s.input.id s.input.n s.input.flag
  match ws.findSome? fun w => (s.fitsNow w.2.1 w.2.2.1 w.2.2.2).map fun us => (w, us) with
  | none => .next (if !s.input.flag && s.laneStuck s.input.id s.input.n then s.deadlockAt ws else s)
  | some ((_, id, k, need), us) =>
    let again : Move := .event .poolWaitServe s.input
    match need with
    | .fill uid => let s := s.fillTake id uid us; .next { s with agenda := again :: s.agenda }
    | _ =>
      let s := s.modTray id fun tr => { tr with frontier := modAt (fun e => { e with wait := .none }) tr.frontier k }
      .next { s with agenda := .issue (.tray id k) :: again :: s.agenda }

/-- FAIRNESS_LAPSE of tray `id` (R138). -/
def execFairnessLapse (s : State) : Answer :=
  match s.tray? s.input.id with
  | none => .next s
  | some tr =>
    match s.around tr.team with
    | some (_, l, _) =>
      if !tr.lapsed && tr.fairClk + l.fairPeriod ≤ s.clk then .next (s.modTray tr.id fun tr => { tr with lapsed := true }) else .next s
    | none => .next s

/-- The bytes of a spawn record (R142). -/
def Spawn.bytes (sp : Spawn) (tr : Tray) : List Byte :=
  leBytes 8 (sp.pc.toNat + 1) ++ leBytes 1 sp.prio.toNat ++ leBytes 1 (sp.preds.toNat / 2 * 2) ++ leBytes 1 sp.live ++ [0] ++
    leBytes 2 sp.tid ++ [0, 0] ++ sp.curs.toList ++ List.replicate 8 0 ++
    (((tr.base[sp.slot]).toList.take sp.live).flatMap fun r => leBytes 4 r.val.toNat) ++
    List.replicate (spawnSize sp.live - 32 - 4 * sp.live) 0

/-- The offset of a team's spawn area in its shared memory (R141). -/
def Launch.spawnArea (l : Launch) : Nat := l.shmem - 8192

/-- SPAWN_RECORD_WRITE of spawned thread `id`: once v0 to v(L − 1) are full (R143). -/
def execSpawnRecordWrite (s : State) : Answer :=
  match s.teams.findSome? fun tm => (tm.spawns.find? fun sp => sp.id == s.input.id && !sp.written).map fun sp => (tm, sp) with
  | none => .next s
  | some (tm, sp) =>
    match s.tray? sp.tray, s.launch? tm.launch with
    | some tr, some l =>
      if ((tr.base[sp.slot]).toList.take sp.live).all (·.full) then
        let bs := sp.bytes tr
        let s := s.store [] Attr.team (.shared tm.id (l.spawnArea + sp.off)) bs .agent none true
        let s := s.modTeam tm.id fun tm =>
          { tm with spawns := tm.spawns.map fun (x : Spawn) =>
              if x.id == sp.id then { x with written := true, image := bs, since := s.clk } else x }
        .next (s.checkTray tr.id)
      else .next s
    | _, _ => .next s

/-- The live records of a former's group (R144). -/
def Team.group (tm : Team) (g : GroupKey) : List Spawn :=
  tm.spawns.filter fun sp => sp.written && sp.pc == g.pc && sp.prio.toNat == g.prio

/-- Insert a record by TID. -/
def insertTid (x : Spawn) : List Spawn → List Spawn
  | [] => [x]
  | y :: ys => if x.tid < y.tid then x :: y :: ys else y :: insertTid x ys

/-- A tray is formed of up to 32 records of a group, lowest TID first (R144). -/
def State.form (s : State) (tm : Team) (g : GroupKey) : State :=
  let take := ((tm.group g).foldr insertTid []).take 32
  let (id, s) := s.fresh
  s.modTeam tm.id fun tm =>
    { tm with
      spawns := tm.spawns.filter fun x => !(take.any fun y => y.id == x.id)
      formed := tm.formed ++ [{ id := id, spawns := take }] }

/-- FORMER_TIMEOUT of a group (R144). -/
def execFormerTimeout (s : State) : Answer :=
  let g := s.input.group
  match s.team? g.team with
  | none => .next s
  | some tm =>
    match s.launch? tm.launch with
    | some l => if (tm.group g).any fun sp => sp.since + l.formerTimeout ≤ s.clk then .next (s.form tm g) else .next s
    | none => .next s

/-- Every thread of the team outside the former has ended, is parked or detached, or waits at a barrier (R144). -/
def State.othersWait (s : State) (tm : Team) : Bool :=
  tm.spawns.all (·.written) && s.trays.all fun tr =>
    tr.team != tm.id || tr.landed.isSome ||
      (tr.trap.isNone && tr.frontier.all fun e => match e.wait with | .meet _ => true | _ => false)

/-- FORMER_LAUNCH of a group: it is full, or the rest of the team waits or has ended (R144). -/
def execFormerLaunch (s : State) : Answer :=
  let g := s.input.group
  match s.team? g.team with
  | none => .next s
  | some tm =>
    let n := (tm.group g).length
    if 32 ≤ n || (0 < n && s.othersWait tm) then .next (s.form tm g) else .next s

/-- The launch of a tray. -/
def State.launchOf (s : State) (tr : Tray) : Option Nat := (s.team? tr.team).map (·.launch)

/-- A lane can take a further tray of a launch with so many registers in use (R23). -/
def State.laneTakes (s : State) (l : Launch) (bench lane used : Nat) : Bool :=
  let here := s.trays.filter (·.onLane bench lane)
  here.length < 4 &&
    (here.filter fun t => match s.team? t.team with | some tm => tm.launch == l.id | none => false).length < traysPerLane l.regres &&
    32 + l.regres + (used - l.regres) ≤ s.common bench lane

/-- The lowest lane that can take a tray (R343). -/
def State.laneFor (s : State) (l : Launch) (bench used : Nat) : Option Nat := (List.range 64).find? fun lane => s.laneTakes l bench lane used

/-- The lowest free tray position of a lane. -/
def State.freePos (s : State) (bench lane : Nat) : Nat :=
  ((List.range 4).find? fun p => !(s.trays.any fun t => t.onLane bench lane && t.pos == p)).getD 0

/-- The s registers at bind: ARGS in s0 to s7 (R24). -/
def Launch.sregs (l : Launch) : Vector Reg 32 := (Vector.range 32).map fun i => { val := l.args.toList.getD i 0, full := true : Reg }

/-- What a formed tray's thread starts with: its TID, PC, predicates, cursors and registers. A record that was overwritten
gives free values (R141, R145). -/
structure Resumed where
  tid : Nat
  pc : DWord
  preds : BitVec 8
  curs : Vector (BitVec 8) 8
  regs : Vector Reg 32
  deriving DecidableEq, Repr

/-- Resume a thread from its record at a place in shared memory. -/
def State.resumed (s : State) (team off : Nat) (sp : Spawn) (slot : Nat) : Resumed :=
  let bs := s.seen [] (.shared team off) (spawnSize sp.live)
  if bs == sp.image then
    { tid := sp.tid, pc := sp.pc, preds := sp.preds ||| 1, curs := sp.curs
      regs := (Vector.range 32).map fun i =>
        { val := if i < sp.live then w32 (leNat ((bs.drop (32 + 4 * i)).take 4)) else 0, full := true : Reg } }
  else
    let free (i : Nat) : BitVec 64 := Config.freeValue (s.tick * 65536 + slot * 64 + i)
    { tid := (free 40).toNat % 65536, pc := free 41, preds := (free 42).setWidth 8 ||| 1
      curs := (Vector.range 8).map fun i => (free (43 + i)).setWidth 8
      regs := (Vector.range 32).map fun i => { val := if i < sp.live then (free i).setWidth 32 else 0, full := true : Reg } }

/-- The entries of a formed tray: one at the group's PC, or one for each PC that an overwritten record brought, six at most (R134):
a thread beyond resumes, at a PC that is unpredictable as well, with the entry before it (R141). -/
def formedEntries (prio : BitVec 6) (rs : List (Fin 32 × Resumed)) : List Entry :=
  rs.foldl (fun es (t, r) =>
    let e : Entry := { pc := r.pc, prio := prio, mask := 1#32 <<< t.val, depth := 0, loops := [], wait := .none, skip := 0 }
    let es' := mergeInto es e
    if es'.length ≤ 6 then es' else modAt (fun x => x.union { e with pc := x.pc }) es 5) []

/-- FORMED_TRAY_BIND of formed tray `n` of team `id` (R23, R144, R145). -/
def execFormedTrayBind (s : State) : Answer :=
  match s.around s.input.id with
  | none => .next s
  | some (tm, l, cx) =>
    match tm.formed.find? (·.id == s.input.n), s.laneFor l tm.bench 0 with
    | some f, some lane =>
      let rs : List (Fin 32 × Resumed) :=
        (slotList.zip f.spawns).map fun (t, sp) => (t, s.resumed tm.id (l.spawnArea + sp.off) sp t.val)
      let at_ (t : Fin 32) : Option Resumed := (rs.find? fun x => x.1 == t).map (·.2)
      let prio : BitVec 6 := match f.spawns.head? with | some sp => sp.prio | none => 0
      let (id, s) := s.fresh
      let tr : Tray :=
        { Tray.fresh with
          id := id, team := tm.id, trayno := (match rs.head? with | some r => r.2.tid / 32 | none => 0), formed := true
          bench := tm.bench, lane := lane, pos := s.freePos tm.bench lane
          base := Slots.gen fun t => match at_ t with | some r => r.regs | none => Vector.replicate 32 Reg.zero
          sregs := l.sregs
          preds := Slots.gen fun t => match at_ t with | some r => r.preds | none => 1
          cursors := Slots.gen fun t => match at_ t with | some r => r.curs | none => Vector.replicate 8 0
          remap := Slots.gen fun t => (at_ t).map (·.tid)
          frontier := formedEntries prio rs
          prio := l.prio, fairClk := s.clk }
      let s := s.modTeam tm.id fun tm => { tm with formed := tm.formed.filter fun x => x.id != f.id }
      let s : State := { s with trays := s.trays ++ [tr] }
      -- the threads go on here with what they may miss and what is their own, and acquire at TEAM scope (R235)
      let s := (slotList.zip f.spawns).foldl (fun s (t, sp) => s.threadMoves sp.tray sp.slot id t) s
      let s := s.acquireOn cx (.tray id) (maskOf fun t => (at_ t).isSome) .all 1
      .next (s.retrySpawns tm.id)
    | _, _ => .next s

/-- The newest frame goes, and its callers continue (R148). -/
def Tray.popFrame (tr : Tray) (f : Frame) (w : Wait) : Tray :=
  { tr with
    frames := tr.frames.drop 1
    frontier := mergeAll (tr.frontier.map fun e =>
      if e.wait == .ret && e.depth == tr.frames.length then
        { e with pc := f.retAddr, prio := f.prio, depth := e.depth - 1, wait := w }
      else e) }

/-- The current frame's registers read empty until its fill, which begins to wait with this order (R35, R58). -/
def Tray.emptyHead (tr : Tray) (order : Nat) : Tray :=
  match tr.frames with
  | f :: fs => if !f.held && 0 < f.size then { tr with frames := { f.emptied with asked := order } :: fs } else tr
  | [] => tr

/-- FRAME_FREE of tray `id`: every caller of its newest frame that is left waits at a RET there (R35, R38, R148). -/
def execFrameFree (s : State) : Answer :=
  match s.tray? s.input.id with
  | none => .next s
  | some tr =>
    match tr.frames with
    | [] => .next s
    | f :: rest =>
      let left := tr.callersLeft f
      if left &&& ~~~tr.atRet != 0 then .next s
      else
        let pop (s : State) (w : Wait) (n : Nat) : State :=
          (s.modHeld tr.id fun tr => (tr.popFrame f w).emptyHead n).poolFreed tr.bench tr.lane tr.landed.isSome
        match rest.head? with
        | none => .next (pop s .none 0)
        | some g =>
          if g.held || g.size == 0 then .next (pop s .none 0)
          else
            let (n, s) := s.fresh
            let s' := pop s (.pool n (.fill g.uid)) n
            match s'.tray? tr.id, s.trayCtx tr.id ((tr.frontier.findIdx? fun e => e.wait == .ret).getD 0) Pfx.empty 4 with
            | some tr', some c =>
              (match s'.room c tr' g.size 1 with
               | .fits us => .next (s'.fillTake tr.id g.uid us)
               | _ =>
                 if left != 0 && s'.laneStuck tr'.bench tr'.lane && tr'.landed.isNone then
                   match s.waiting (.tray tr.id) (· == .ret) 4 with
                   | some (c, s) => .next (s.raise c { code := 0x06, mask := c.ent.mask })
                   | none => .next s'
                 else .next s')
            | _, _ => .next s'

/-- The linear number of a thread (R20). -/
def threadNo (tm : Team) (l : Launch) (tid : Nat) : Nat := tm.teamno * (32 * l.traysPerTeam) + tid

/-- Slots of a tray whose threads belong to a unit of a level (R154). -/
def Tray.members (tr : Tray) (tm : Team) (l : Launch) (level unit : Nat) : BitVec 32 :=
  maskOf fun t => match tr.remap[t] with
    | some tid => threadNo tm l tid / extents (l.levels.take level) == unit
    | none => false

/-- Every member of a unit that stands in a team has arrived at the barrier of a level; a tray that was attached again during the
episode is no member of it (R154, R222). -/
def State.teamArrived (s : State) (tm : Team) (l : Launch) (level unit : Nat) : Bool :=
  let own (tid : Nat) : Bool := threadNo tm l tid / extents (l.levels.take level) == unit
  (tm.spawns ++ tm.formed.flatMap (·.spawns)).all (fun sp => !own sp.tid) &&
    s.trays.all fun tr =>
      tr.team != tm.id || tr.landed.isSome || tr.excused.contains (level, unit) ||
        (let m := tr.members tm l level unit
         tr.frontier.all (fun e => e.mask &&& m == 0 || (e.wait == .meet level && tr.trap.isNone)) &&
           (match tr.trap with | some ts => ts.frontier.all fun e => e.mask &&& m == 0 | none => true))

/-- The numbers of the first and last team of a unit of a level. -/
def Launch.unitTeams (l : Launch) (level unit : Nat) : Nat × Nat :=
  let size := extents (l.levels.take level)
  let per := 32 * l.traysPerTeam
  (unit * size / per, ((unit + 1) * size - 1) / per)

/-- Every member of a unit has arrived, has ended, is parked or detached: no team of it is still to come (R154). -/
def State.arrived (s : State) (l : Launch) (level unit : Nat) : Bool :=
  let (lo, hi) := l.unitTeams level unit
  let within (n : Nat) : Bool := lo ≤ n && n ≤ hi
  hi < l.nextTeam &&
    (s.sched.slots.all fun b => b.launch != l.id || !within b.teamno) &&
    (s.sched.saved.all fun x => x.team.launch != l.id || !within x.team.teamno) &&
    s.teams.all fun tm => tm.launch != l.id || !within tm.teamno || s.teamArrived tm l level unit

/-- The trays of a launch whose threads of a unit wait at the barrier of a level, with those threads' slots (R154, R222). -/
def State.barrierMembers (s : State) (l : Launch) (level unit : Nat) : List (Nat × BitVec 32) :=
  s.trays.filterMap fun tr =>
    match s.team? tr.team with
    | some tm =>
      if tm.launch == l.id && tr.landed.isNone && !tr.excused.contains (level, unit) then
        let m := maskUnion (tr.frontier.filter fun e => e.wait == .meet level) &&& tr.members tm l level unit
        if m == 0 then none else some (tr.id, m)
      else none
    | none => none

/-- A tray's frontier once slots that waited at a barrier go on: an entry that others share with them is split (R155). -/
def Tray.passed (tr : Tray) (level : Nat) (m : BitVec 32) : List Entry :=
  mergeAll (tr.frontier.flatMap fun e =>
    if e.wait == .meet level && e.mask &&& m != 0 then
      (if e.mask &&& ~~~m == 0 then [] else [{ e with mask := e.mask &&& ~~~m }]) ++ [{ e.past 4 with mask := e.mask &&& m }]
    else [e])

/-- Slots of a tray go on from a barrier. A split that needs a seventh entry spawns victims; while none can be spawned the barrier
does not complete (R137, log 151). The first argument bounds the victims. -/
def State.passTray : Nat → State → Nat → Nat → BitVec 32 → Option State
  | 0, _, _, _, _ => none
  | n + 1, s, id, level, m =>
    match s.tray? id with
    | none => some s
    | some tr =>
      let es := tr.passed level m
      if es.length ≤ 6 then some (s.modTray id fun tr => { tr with frontier := es })
      else match if s.canSpawn tr then tr.victim es else none with
        | none => none
        | some v =>
          match s.spawnThreads id (s.resumePc v) v.prio 32 v.mask with
          | none => none
          | some s => State.passTray n s id level m

/-- The scope of a launch's level (R21). -/
def Launch.scopeOf (l : Launch) (level : Nat) : Nat := match l.levels[level]? with | some x => x.scope.toNat | none => 0

/-- A barrier completes: what its members wrote reaches the others, they go on, and trays that were attached again during the episode
are members from the next one on (R155, R222). -/
def State.release (s : State) (l : Launch) (level unit : Nat) : State :=
  let ms := s.barrierMembers l level unit
  let s' := s.syncAll l.ctx (l.scopeOf level) (ms.map fun x => (.tray x.1, x.2))
  match ms.foldlM (fun s x => s.passTray 38 x.1 level x.2) s' with
  | none => s
  | some s =>
    { s with
      trays := s.trays.map fun tr =>
        if s.launchOf tr == some l.id then { tr with excused := tr.excused.filter (· != (level, unit)) } else tr }

/-- BARRIER_COMPLETE (R154, R155, R157). -/
def execBarrierComplete (s : State) : Answer :=
  let b := s.input.barrier
  match s.launch? b.launch with
  | none => .next s
  | some l => .next (if s.arrived l b.level b.unit then s.release l b.level b.unit else s)

/-- The die that is going offline now (R365, R366). -/
def State.goingOff (s : State) : Option Nat :=
  if s.pkg.diectl.extractLsb' 28 3 == 1 && s.pkg.diectl.getLsbD 31 then some (s.pkg.diectl.toNat % 16) else none

/-- Landing slots of a die that are free: bench and slot (R13). -/
def State.landingSlots (s : State) (die : Nat) : List (Nat × Nat) :=
  if s.pkg.offline.contains die || s.goingOff == some die then []
  else (List.range s.variant.benchesPerDie).flatMap fun n =>
    let b := 48 * die + n
    if s.pkg.removed.contains b then []
    else (([0, 1] : List Nat).filter fun k => !(s.trays.any fun t => t.bench == b && t.landed == some k)).map fun k => (b, k)

/-- A producer of a tray is outstanding, an engine's command included (R220, R260); ACCCLR and ALIGHT produce nothing. -/
def State.trayBusy (s : State) (id : Nat) : Bool :=
  (s.prods.any fun x => x.owner == Owner.tray id) ||
    s.cmds.any fun k => k.owner == Owner.tray id && (match k.op with | .accclr .. | .alight _ => false | _ => true)

/-- The barrier episodes of a launch that have begun: some thread of a tray that is not detached waits there (R154, R222). -/
def State.episodes (s : State) (l : Launch) : List (Nat × Nat) :=
  let trays := (s.trays.filterMap fun tr => (s.team? tr.team).map fun tm => (tm, tr)) ++
    s.sched.saved.flatMap fun x => x.trays.map fun tr => (x.team, tr)
  (trays.flatMap fun (tm, tr) =>
    if tm.launch == l.id && tr.landed.isNone then
      tr.frontier.flatMap fun e => match e.wait with
        | .meet level => (maskSlots e.mask).filterMap fun t =>
            (tr.remap[t]).map fun tid => (level, threadNo tm l tid / extents (l.levels.take level))
        | _ => []
    else []).eraseDups

/-- A tray is at its new place: the entry that migrated goes on, and where it is detached MEET and MEETL complete at once (R220 to
R222). -/
def Tray.shipped (tr : Tray) (bench lane pos : Nat) (landed : Option Nat) : Tray :=
  { tr with
    bench := bench, lane := lane, pos := pos, landed := landed, scratch := Store.empty, resv := Vector.replicate 32 none
    frontier := mergeAll (tr.frontier.map fun e => match e.wait with
      | .migrate _ => e.past 4
      | .meet _ => if landed.isSome then e.past 4 else e
      | _ => e) }

/-- MIGRATE_SHIP of tray `id` (R13, R220 to R222), a release and an acquire of its threads at PKG scope (R235). A tray never uses more
than the 128 tray-registers of a landing slot, since a lane has no more (R31). Which of the free landing slots it takes is free. -/
def execMigrateShip (s : State) : Answer :=
  match s.tray? s.input.id with
  | none => .next s
  | some tr =>
    match tr.frontier.findSome? (fun e => match e.wait with | .migrate d => some d | _ => none), s.around tr.team with
    | some die, some (tm, l, cx) =>
      let leaves (s : State) : State :=
        (s.syncAll cx.id 3 [(.tray tr.id, BitVec.allOnes 32)]).poolFreed tr.bench tr.lane tr.landed.isSome
      if s.trayBusy tr.id then .next s
      else if die == dieOf tm.bench then
        match s.laneFor l tm.bench tr.used with
        | some lane =>
          .next (leaves (s.modTray tr.id fun t =>
            { t.shipped tm.bench lane (s.freePos tm.bench lane) none with drawn := t.used - l.regres, excused := s.episodes l }))
        | none => .next s
      else
        let slots := s.landingSlots die
        match slots[(Config.freeValue s.tick).toNat % slots.length]? with
        | some (b, k) => .next (leaves (s.modTray tr.id fun t => { t.shipped b (62 + k) 0 (some k) with drawn := 0, excused := [] }))
        | none => .next s
    | _, _ => .next s

end Sys2Proof.Machine
end

