-- ==== Sys2Proof/Machine/Sched.lean ====
section
/-!
DEFINITION. Machine/Sched.lean: the command complex: chains and work items (R332 to R337), the PIFO and deadlines (R338, R339),
work graphs and task graphs (R340 to R342, R352), and the binding of teams (R17, R18, R23, R24, R343, R344).
-/

namespace Sys2Proof.Machine

/-- The context that an item names (R333). -/
def itemCtx (it : Item) : Nat := it.ctxid.toNat % 4096

/-- PRIO of an item: larger values read as 15 (R333). -/
def itemPrio (it : Item) : Nat := Nat.min it.prio.toNat 15

/-- ROLE of an item (R333). -/
def itemRole (it : Item) : Nat := it.flags.toNat / 4 % 4

/-- STREAM of an item (R333). -/
def itemStream (it : Item) : Nat := it.flags.toNat / 16 % 256

/-- A chain's number: its function's four slots (R384). -/
def Chain.num (ch : Chain) : Nat := ch.fn * 4 + ch.slot

/-- The address of a chain's record (R384). -/
def Chain.recAddr (ch : Chain) : Nat := ch.reg.toNat / 64 * 64

/-- The chain with a number. -/
def State.chain? (s : State) (n : Nat) : Option Chain := s.sched.chains.find? fun ch => ch.num == n

/-- Change a chain. -/
def State.modChain (s : State) (n : Nat) (f : Chain → Chain) : State :=
  { s with sched := { s.sched with chains := s.sched.chains.map fun ch => if ch.num == n then f ch else ch } }

/-- Write bytes at a physical address for the device or the host: a store of version 0 at PKG. -/
def State.physWrite (s : State) (pa : Nat) (bytes : List Byte) : State :=
  s.store [] Attr.team (s.physLoc pa) bytes .agent none true

/-- The newest version 0 bytes of physical addresses. -/
def State.physRead (s : State) (pa n : Nat) : List Byte := s.seen [] (s.physLoc pa) n

/-- The work item that 64 bytes hold (R333). -/
def itemOf (ch : Chain) (num : Nat) (bs : List Byte) : Item :=
  { chain := ch.num, part := ch.part, num := num, kind := BitVec.ofNat 8 (fieldAt bs 0x08 1)
    prio := BitVec.ofNat 8 (fieldAt bs 0x09 1), flags := BitVec.ofNat 16 (fieldAt bs 0x0A 2)
    ctxid := BitVec.ofNat 32 (fieldAt bs 0x0C 4), deadline := BitVec.ofNat 64 (fieldAt bs 0x10 8)
    result := BitVec.ofNat 64 (fieldAt bs 0x18 8), seq := ch.nextSeq, est := BitVec.ofNat 32 (fieldAt bs 0x24 4)
    arg0 := BitVec.ofNat 64 (fieldAt bs 0x28 8), arg1 := BitVec.ofNat 64 (fieldAt bs 0x30 8)
    arg2 := BitVec.ofNat 64 (fieldAt bs 0x38 8) }

/-- Late at an instant (R339). -/
def lateAt (now deadline est : Nat) : Bool := deadline != 0 && (deadline < now || deadline < now + est)

/-- An item is late now. -/
def State.itemLate (s : State) (it : Item) : Bool := lateAt s.time it.deadline.toNat it.est.toNat

/-- An item ends with 04 and a cause. -/
def State.failItem (s : State) (it : Item) (cause : Nat) : State := s.endItem it (resultWord 4 cause)

/-- Why an item does not enter the PIFO: reserved bits, a reserved KIND or ROLE, a context outside its chain's partition (R333,
R334); or the cause that stopped its context (R183). -/
def State.itemRefusal (s : State) (it : Item) : Option Nat :=
  let kind := it.kind.toNat
  if it.flags.toNat / 4096 != 0 || itemRole it == 3 || 8 < kind || it.ctxid.toNat / 4096 != 0 || (kind == 7 && it.arg0 != 0) then
    some 0x01
  else match s.ctx? (itemCtx it) with
    | none => if kind == 4 then none else some 0x01
    | some c =>
      if c.part != it.part then some 0x01
      else if c.stopped && kind != 4 then some c.stopCause.toNat
      else none

/-- The complex may take an item: it works, the chain's function is not fenced, no doorbell waits for a TAIL to be read, and the PIFO has
room (R185, R332, R338, R384). -/
def State.canTake (s : State) (ch : Chain) : Bool :=
  !s.pkg.dead && !s.pkg.fencedFns.contains ch.fn && ch.active && ch.reg.getLsbD 0 && ch.taken != ch.tail && !s.pifoFull && s.sched.chains.all fun x => !x.rung

/-- A frame range of a partition holds n bytes from an address. -/
def State.visible (s : State) (part addr n : Nat) : Bool :=
  s.frameIn part (addr / 65536) && s.frameIn part ((addr + n - 1) / 65536)

/-- ITEM_TAKE from chain `id` (R332, R333, R335). A NEXT outside the partition's ranges is not followed. -/
def execItemTake (s : State) : Answer :=
  match s.chain? s.input.id with
  | none => .next s
  | some ch =>
    let next := leNat (s.physRead ch.taken 8)
    if !s.canTake ch || next == 0 || next % 64 != 0 || !s.visible ch.part next 64 then .next s
    else
      let (num, s) := s.fresh
      let it := itemOf ch num (s.physRead next 64)
      let s := s.physWrite (next + 0x20) (leBytes 4 ch.nextSeq.toNat)
      let s := s.physWrite (ch.recAddr + 0x08) (leBytes 8 next ++ leBytes 4 (ch.nextSeq + 1).toNat)
      let s := s.modChain ch.num fun x => { x with taken := next, nextSeq := x.nextSeq + 1, open_ := x.open_ ++ [num] }
      match s.itemRefusal it with
      | some cause => .next (s.failItem it cause)
      | none => .next (s.enqueue (.item it) (itemPrio it) it.deadline.toNat it.est.toNat)

/-- Submit a record for a work item, a group or a graph's node (R22, R323): refused, with a record that names no submitter, or
launched; `queued` launches wait in the PIFO. `args` replaces ARGS. A context that has stopped runs nothing more (R183). -/
def State.startRecord (s : State) (ctx : Nat) (addr : DWord) (dest : Dest) (it : Item) (prio deadline est : Nat)
    (args : List Word) (queued : Bool) : State :=
  match s.ctx? ctx with
  | none => s.deliver dest (resultWord 4 0x01) 0
  | some c =>
    if c.stopped then s.deliver dest (resultWord 4 c.stopCause.toNat) 0
    else
    let bs := if addr.toNat % 64 == 0 then s.ctxRead c 0 addr.toNat 192 else none
    let no (code : Nat) : State :=
      (s.record ctx { cause := code, ver := c.gid s.devNo 0, addr := addr }).deliver dest (resultWord 4 code) 0
    match bs with
    | none => no 0x01
    | some bs =>
      let r := LaunchRec.of bs
      match s.refusal c 0 r with
      | some code => no code
      | none =>
        let (id, s) := s.newLaunch c 0 addr r (args ++ r.args.drop args.length) dest prio deadline est (itemStream it) (itemRole it) it.seq
          (chainFn it.chain)
        if queued then s.enqueue (.launch id) prio deadline est else s

/-- ITEM_NOP (R334). -/
def execItemNop (s : State) : Answer := .next (s.endItem s.input.item (resultWord 1 0))

/-- ITEM_LAUNCH (R334): a launch in version 0. -/
def execItemLaunch (s : State) : Answer :=
  let it := s.input.item
  .next (s.startRecord (itemCtx it) it.arg0 (.item it) it (itemPrio it) it.deadline.toNat it.est.toNat [] false)

/-- A node descriptor of a work graph (R340). -/
structure GraphNode where
  lrec : DWord
  list : Nat
  g : Nat
  timer : Nat
  groups : Nat
  deriving DecidableEq, Repr

/-- The usable descriptor at an address (R340, R341). -/
def State.graphNode? (s : State) (c : Context) (addr : DWord) : Option GraphNode :=
  if addr.toNat % 64 != 0 then none
  else match s.ctxRead c 0 addr.toNat 64 with
    | none => none
    | some bs =>
      let g := fieldAt bs 0x10 2
      if fieldAt bs 0x12 2 == 1 && 1 ≤ g && g ≤ 256 && (bs.drop 0x20).all (· == 0) then
        some { lrec := BitVec.ofNat 64 (fieldAt bs 0 8), list := fieldAt bs 8 8, g := g, timer := fieldAt bs 0x14 4,
               groups := fieldAt bs 0x1C 4 }
      else none

/-- The record of a late item (R339, R352). -/
def lateRecord (it : Item) : Record := { cause := 0x17, info := true, d0 := it.seq.setWidth 64, d1 := it.deadline }

/-- Add 1 to a 4-byte counter of a context's memory. -/
def State.bump (s : State) (c : Context) (va : Nat) : State := s.ctxWrite c 0 va (leBytes 4 (s.ctxNat c va 4 + 1))

/-- A record of a node is discarded late (R341, R352). -/
def State.discardRec (s : State) (ctx node : Nat) (it : Item) : State :=
  let s := match s.ctx? ctx with | some c => s.bump c (node + 0x18) | none => s
  (s.record ctx (lateRecord it)).endItem it (resultWord 2 0x17)

/-- A late item or a late launch's record in its context. -/
def State.lateItem (s : State) (it : Item) : State :=
  (s.record (itemCtx it) (lateRecord it)).endItem it (resultWord 2 0x17)

/-- Change a group. -/
def State.modGroup (s : State) (g : Nat) (f : Group → Group) : State :=
  { s with sched := { s.sched with groups := s.sched.groups.map fun (x : Group) => if x.id == g then f x else x } }

/-- The earliest deadline of records, 0 for none. -/
def earliest (recs : List Item) : Nat :=
  ((recs.filter fun (it : Item) => it.deadline != 0).map fun (it : Item) => it.deadline.toNat).min?.getD 0

/-- Launch a closed group whose list is free: the list is written, GROUPS rises, and the group enters the PIFO (R341). -/
def State.groupGo (s : State) (g : Nat) : State :=
  match s.sched.groups.find? fun (x : Group) => x.id == g with
  | none => s
  | some x =>
    match s.ctx? x.ctx with
    | none => s
    | some c =>
      match s.graphNode? c (BitVec.ofNat 64 x.node) with
      | none => s.deliver (.group g) (resultWord 4 0x01) 0
      | some nd =>
        let turn := nd.groups % 2
        let busy := s.sched.groups.any fun (y : Group) => y.ctx == x.ctx && y.node == x.node && y.launched && y.lists == turn
        let before := (s.sched.groups.takeWhile fun (y : Group) => y.id != g).any fun (y : Group) =>
          y.ctx == x.ctx && y.node == x.node && y.closed && !y.launched
        if !x.closed || x.launched || busy || before then s
        else
          let base := nd.list + turn * (8 * (nd.g + 1))
          let s := s.ctxWrite c 0 base (leBytes 8 x.recs.length ++ x.recs.flatMap fun (it : Item) => leBytes 8 it.arg1.toNat)
          let s := (s.bump c (x.node + 0x1C)).modGroup g fun y => { y with launched := true, lists := turn }
          s.enqueue (.group g) ((x.recs.map itemPrio).foldl Nat.max 0) (earliest x.recs)
            ((x.recs.map fun (it : Item) => it.est.toNat).foldl Nat.max 0)

/-- Close a group: its late records are discarded; if any remain it launches when its list is free (R341). -/
def State.groupClose (s : State) (x : Group) : State :=
  let late := x.recs.filter s.itemLate
  let keep := x.recs.filter fun it => !s.itemLate it
  let s := late.foldl (fun s it => s.discardRec x.ctx x.node it) s
  if keep.isEmpty then { s with sched := { s.sched with groups := s.sched.groups.filter fun (y : Group) => y.id != x.id } }
  else (s.modGroup x.id fun y => { y with recs := keep, closed := true, timer := none }).groupGo x.id

/-- ITEM_RECORD (R183, R341, R352). -/
def execItemRecord (s : State) : Answer :=
  let it := s.input.item
  match s.ctx? (itemCtx it) with
  | none => .next (s.failItem it 0x01)
  | some c =>
    if c.stopped then .next (s.failItem it c.stopCause.toNat)
    else match s.graphNode? c it.arg0 with
    | none => .next ((s.record c.id { cause := 0x01, ver := c.gid s.devNo 0, addr := it.arg0 }).failItem it 0x01)
    | some nd =>
      if s.itemLate it then .next (s.discardRec c.id it.arg0.toNat it)
      else
        match s.sched.groups.find? fun (x : Group) => x.ctx == c.id && x.node == it.arg0.toNat && !x.closed with
        | some x =>
          let x := { x with recs := x.recs ++ [it] }
          let s := s.modGroup x.id fun _ => x
          .next (if nd.g ≤ x.recs.length then s.groupClose x else s)
        | none =>
          let (id, s) := s.fresh
          let x : Group :=
            { id := id, ctx := c.id, node := it.arg0.toNat, recs := [it]
              timer := if nd.timer == 0 then none else some (s.time + nd.timer), closed := false, launched := false, lists := 0 }
          let s := { s with sched := { s.sched with groups := s.sched.groups ++ [x] } }
          .next (if nd.g ≤ 1 then s.groupClose x else s)

/-- GROUP_TIMER_LAPSE of group `id`; a closed group that waits for a list looks for it (R341). -/
def execGroupTimerLapse (s : State) : Answer :=
  match s.sched.groups.find? fun (x : Group) => x.id == s.input.id with
  | none => .next s
  | some x =>
    if x.closed then .next (s.groupGo x.id)
    else match x.timer with
      | some t => .next (if t ≤ s.time then s.groupClose x else s)
      | none => .next s

/-- ITEM_GRAPH: node ARG1 is launched; under `flag` it is a later node, which enters the PIFO (R342). In a context that has stopped no
further node runs (R183). -/
def execItemGraph (s : State) : Answer :=
  let it := s.input.item
  match s.ctx? (itemCtx it) with
  | none => .next (s.failItem it 0x01)
  | some c =>
    if c.stopped then .next (s.failItem it c.stopCause.toNat)
    else
    let at_ := it.arg0.toNat + 32 * it.arg1.toNat
    match s.ctxRead c 0 at_ 32 with
    | none => .next ((s.record c.id { cause := 0x01, ver := c.gid s.devNo 0, addr := BitVec.ofNat 64 at_ }).failItem it 0x01)
    | some bs =>
      let (id, s) := s.fresh
      let g : Graph := { id := id, item := it, node := it.arg1.toNat }
      let s := { s with sched := { s.sched with graphs := s.sched.graphs ++ [g] } }
      .next (s.startRecord c.id (BitVec.ofNat 64 (fieldAt bs 0 8)) (.graph id) it (itemPrio it) it.deadline.toNat
        (if s.input.flag then 0 else it.est.toNat) [] s.input.flag)

/-- TRAPPC, FCBASE and FCCAP are read from a context's CCB (R171). -/
def State.readCcb (s : State) (ctx : Nat) : State :=
  match s.ctx? ctx with
  | none => s
  | some c =>
    let rd (o n : Nat) : Nat := s.ctxNat c (c.ccb.toNat + o) n
    s.modCtx ctx fun x => { x with trapPc := BitVec.ofNat 64 (rd 0 8), fcBase := BitVec.ofNat 64 (rd 8 8), fcCap := rd 16 4 }

/-- A field that means its default when it is 0. -/
def orDefault (x d : Nat) : Nat := if x == 0 then d else x

/-- A new context from its record (R336, R312, R318). -/
def newContext (id part addr : Nat) (bs : List Byte) (debugger : Bool) : Context :=
  { id := id, part := part, recAddr := BitVec.ofNat 64 addr, ccb := BitVec.ofNat 64 (fieldAt bs 0x00 8), root := fieldAt bs 0x08 8
    tsap := fieldAt bs 0x10 8, save := BitVec.ofNat 64 (fieldAt bs 0x18 8), slice := fieldAt bs 0x20 4, grace := fieldAt bs 0x24 4
    sqdrop := 0, estStep := orDefault (fieldAt bs 0x30 4) 64, estCopy := orDefault (fieldAt bs 0x34 4) 128
    estBase := orDefault (fieldAt bs 0x38 4) 1000, vback := fieldAt bs 0x3C 4, trapPc := 0, fcBase := 0, fcCap := 0, stopped := false
    stopCause := 0, fcHead := 0, fcLost := 0, lostPend := false, sticky := 0, approx := 0, streams := Vector.replicate 256 0x8000
    versions := [], bindings := [], debugger := debugger, sliceStart := 0, engLast := Vector.replicate 4 0 }

/-- What a context has besides its cars goes with its id. -/
def State.dropContext (s : State) (ctx : Nat) : State :=
  { s with
    ctxs := s.ctxs.filter fun (c : Context) => c.id != ctx
    allocs := s.allocs.filter fun (a : Alloc) => a.ctx != ctx
    shadows := s.shadows.filter fun (x : ShadowSector) => x.ctx != ctx
    past := s.past.filter fun (e : Past) => e.ctx != ctx
    copies := s.copies.filter fun (x : LineCopy) => x.ctx != ctx
    vlines := s.vlines.filter fun (x : VLine) => match x.key with | .here c _ => c != ctx | .remote .. => true
    vtags := s.vtags.filter fun (x : VTag) => match x.key with | .here c _ => c != ctx | .remote .. => true
    promoted := s.promoted.filter fun (x : Nat × VKey) => match x.2 with | .here c _ => c != ctx | .remote .. => true }

/-- Contexts that can exist at once (R4). -/
def ctxRoom : Nat := 1024

/-- ITEM_CTXCREATE: the context record stands at a physical address of the partition, for the context has no addresses yet
(R336). With 1,024 contexts there is no room for one more (R4, log 154). -/
def execItemCtxcreate (s : State) : Answer :=
  let it := s.input.item
  let ctx := itemCtx it
  let addr := it.arg0.toNat
  let bs := s.physRead addr 64
  let tsap := fieldAt bs 0x10 8
  let live := match s.ctx? ctx with | some c => !c.stopped | none => false
  let others := (s.ctxs.filter fun (c : Context) => c.id != ctx).length
  if live || ctxRoom ≤ others || tsap % 2 ^ 32 != 0 || !s.visible it.part addr 64 then .next (s.failItem it 0x01)
  else
    let s := s.dropContext ctx
    let s := { s with ctxs := s.ctxs ++ [newContext ctx it.part addr bs (Config.freeBit s.tick)] }
    .next ((((s.admitPins ctx).readCcb ctx).writeCcb ctx).endItem it (resultWord 1 0))

/-- ITEM_CTXCTL: the masks clear STICKY and APPROX bits; destroy stops the context and frees it (R171, R172, R303, R337). -/
def execItemCtxctl (s : State) : Answer :=
  let it := s.input.item
  let ctx := itemCtx it
  let s := s.modCtx ctx fun c =>
    { c with sticky := c.sticky &&& ~~~(it.arg0.setWidth 26), approx := c.approx &&& ~~~(it.arg0.extractLsb' 32 4) }
  let s := (s.readCcb ctx).writeCcb ctx
  if it.arg1.getLsbD 0 then .next (((s.stopContext ctx 0 { cause := 0 }).endItem it (resultWord 1 0)).dropContext ctx)
  else .next (s.endItem it (resultWord 1 0))

/-- A remap entry's canonical leaf still stands (R198). -/
def State.leafStands (s : State) (r : Remap) : Bool :=
  match s.ctx? r.ctx with
  | some c => (match s.walk c.root (BitVec.ofNat 64 (r.page * 65536)) with | some (pa, _) => pa / 65536 == r.frame | none => false)
  | none => false

/-- Pages of a context are invalidated: no on-chip copy of a line of them keeps its translation, and the remap entries whose canonical
leaves are gone are free for pages that were served as HOME 01 (R196 to R198). -/
def State.invalidate (s : State) (ctx first last : Nat) : State :=
  let freed (r : Remap) : Bool := r.ctx == ctx && first ≤ r.page && r.page ≤ last && !s.leafStands r
  let dies := ((s.remapFilt.filter freed).map fun (r : Remap) => frameDie r.frame).eraseDups
  { s with
    copies := s.copies.filter fun (x : LineCopy) => !(x.ctx == ctx && first ≤ x.line / 64 && x.line / 64 ≤ last)
    remapFilt := s.remapFilt.filter fun (r : Remap) => !freed r
    uncached := s.uncached.filter fun n => !dies.contains (frameDie n) }

/-- ITEM_INVAL (R197, R334). -/
def execItemInval (s : State) : Answer :=
  let it := s.input.item
  let first := it.arg0.toNat / 65536
  let last := (it.arg0.toNat + it.arg1.toNat - 1) / 65536
  .next ((if it.arg1 == 0 then s else s.invalidate (itemCtx it) first last).endItem it (resultWord 1 0))

/-- ACCEPT of a stream (R312). -/
def State.accept (s : State) (ctx stream : Nat) : Nat :=
  match s.ctx? ctx with | some c => ((c.streams[stream]?).getD 0).toNat | none => 0

/-- A stream of a context has its number of draft launches in flight (R344). -/
def State.draftsFull (s : State) (ctx stream : Nat) : Bool :=
  1 + s.accept ctx stream / 8192 ≤
    (s.launches.filter fun (l : Launch) => l.role == 1 && l.ctx == ctx && l.stream == stream).length

/-- A draft item that would launch waits while its stream has its number of draft launches in flight (R344). -/
def State.draftWaits (s : State) (it : Item) : Bool :=
  itemRole it == 1 && (it.kind == 1 || it.kind == 3) && s.draftsFull (itemCtx it) (itemStream it)

/-- A group of draft RECORD items waits so, by its first record (R341, R344). -/
def State.draftGroupWaits (s : State) (g : Nat) : Bool :=
  match (s.sched.groups.find? fun (x : Group) => x.id == g).bind fun x => x.recs.head? with
  | some it => itemRole it == 1 && s.draftsFull (itemCtx it) (itemStream it)
  | none => false

/-- An item that has to wait for every earlier one of its chain (R335). -/
def State.orderWaits (s : State) (it : Item) : Bool :=
  it.flags.getLsbD 0 && (match s.chain? it.chain with
    | some ch => (match ch.open_ with | n :: _ => n != it.num | [] => false)
    | none => false)

/-- The benches of a partition that dispatch uses (R185, R366, R386). -/
def State.benchesOf (s : State) (part : Nat) : List Nat :=
  match s.part? part with
  | some p =>
    p.benches.filter fun b =>
      !s.pkg.removed.contains b && !s.pkg.offline.contains (dieOf b) && s.goingOff != some (dieOf b) && b % 48 < s.variant.benchesPerDie
  | none => []

/-- A quiesce is under way: nothing is bound (R362). -/
def State.quiescing (s : State) : Bool := s.pkg.quiesce.getLsbD 0

/-- A bench has a team place and shared memory for one more team of a launch (R23). -/
def State.placeFor (s : State) (l : Launch) (bench : Nat) : Bool :=
  let here := s.teams.filter fun (t : Team) => t.bench == bench
  here.length < 4 &&
    (here.map fun (t : Team) => match s.launch? t.launch with | some x => x.shmem | none => 0).sum + l.shmem ≤ 524288

/-- Teams of one unit of the outermost level with a domain, 1 when there is none (R18). -/
def Launch.unitTeamsOf (l : Launch) (dom : BitVec 3) : Nat :=
  let m := l.teamLevel
  let top := (List.range l.levels.length).foldl (fun n k => match l.levels[k]? with
    | some x => if x.dom == dom && m ≤ k then k else n
    | none => n) m
  extents ((l.levels.take top).drop m)

/-- Teams that stand on one bench together (R18). -/
def Launch.gang (l : Launch) : Nat := l.unitTeamsOf 2

/-- The benches for a team: those of the die of its DIE unit, where the launch has such a level (R18); the die of a unit is a free
choice, which stands as long as the die does. -/
def State.benchesFor (s : State) (l : Launch) (part teamno : Nat) : List Nat :=
  let bs := s.benchesOf part
  if l.levels.any fun (x : Level) => x.dom == 3 then
    let unit := teamno / l.unitTeamsOf 3
    let dies := match l.dies.find? fun x => x.1 == unit && bs.any fun b => dieOf b == x.2 with
      | some x => [x.2]
      | none => ([0, 1, 2, 3] : List Nat).filter fun d => bs.any fun b => dieOf b == d
    match dies[(Config.freeValue (l.id * 2 ^ 41 + unit)).toNat % dies.length]? with
    | some d => bs.filter fun b => dieOf b == d
    | none => []
  else bs

/-- A team of a launch is to run on a bench: the die of its DIE unit is chosen (R18). -/
def State.onUnitDie (s : State) (launch teamno bench : Nat) : State :=
  s.modLaunch launch fun l =>
    let unit := teamno / l.unitTeamsOf 3
    { l with dies := (l.dies.filter fun x => x.1 != unit) ++ [(unit, dieOf bench)] }

/-- A launch waits in the PIFO, by itself. -/
def State.inPifo (s : State) (launch : Nat) : Bool := s.sched.pifo.any fun (e : PifoEntry) => e.work == Work.launch launch

/-- The initial issue priority of a launch's trays (R24, R344). -/
def State.bindPrio (s : State) (l : Launch) : BitVec 4 :=
  let q := s.accept l.ctx l.stream / 16384
  if l.role == 1 then BitVec.ofNat 4 (Nat.min (l.prio.toNat + q) 15)
  else if l.role == 2 then BitVec.ofNat 4 (Nat.min (l.prio.toNat + 3 - q) 15)
  else l.prio

/-- Write the bind records of the next teams of a launch, those of one bench together, in ascending order (R160, R343). Which
of the benches it is, is free. -/
def State.writeBind (s : State) (l : Launch) : State :=
  match s.ctx? l.ctx with
  | none => s
  | some c =>
    let bs := s.benchesFor l c.part l.nextTeam
    match bs[(Config.freeValue s.tick).toNat % bs.length]? with
    | none => s
    | some b =>
      let n := Nat.min l.gang (l.teams - l.nextTeam)
      let s := (List.range n).foldl (fun s i =>
        let (id, s) := s.fresh
        { s with sched := { s.sched with slots := s.sched.slots ++
            [{ id := id, ctx := l.ctx, launch := l.id, teamno := l.nextTeam + i, bench := b, ver := l.ver, prio := s.bindPrio l }] } }) s
      (s.onUnitDie l.id l.nextTeam b).modLaunch l.id fun l => { l with nextTeam := l.nextTeam + n }

/-- Bind trays 0 to n − 1 of a team on the lowest lanes with room (R23, R24, R343). -/
def State.bindTrays (s : State) (l : Launch) (team bench n : Nat) (prio : BitVec 4) : Option State :=
  (List.range n).foldlM (fun s i =>
    (s.laneFor l bench 0).map fun lane =>
      let (id, s) := s.fresh
      let tr : Tray :=
        { Tray.fresh with
          id := id, team := team, trayno := i, bench := bench, lane := lane, pos := s.freePos bench lane, sregs := l.sregs
          remap := Slots.gen fun t => some (32 * i + t.val)
          frontier := [{ pc := l.trayPc, prio := 0, mask := BitVec.allOnes 32, depth := 0, loops := [], wait := .none, skip := 0 }]
          prio := prio, fairClk := s.clk }
      { s with trays := s.trays ++ [tr] }) s

/-- The front strand of a new team (R24, R151). -/
def Launch.front (l : Launch) (prio : BitVec 4) : Front :=
  { status := if l.frontPc == 0 then .idle else .running, fregs := Vector.replicate 32 FReg.zero, preds := 1, pc := l.frontPc
    loops := [], stack := [], prio := prio, wait := .none, resv := none, timehi := 0, stopped := false }

/-- A context with no resident team is bound: its CCB is read and its slice begins (R171, R345). -/
def State.boundCtx (s : State) (ctx : Nat) : State :=
  if s.teams.any fun (t : Team) => (match s.launch? t.launch with | some l => l.ctx == ctx | none => false) then s
  else (s.modCtx ctx fun c => { c with sliceStart := s.time }).readCcb ctx

/-- Place a team with an issue priority on a bench, if the bench can supply all it needs at once; its threads start having acquired
what the launch's submission released (R23, R24, R235). -/
def State.bindTeam (s : State) (l : Launch) (teamno bench : Nat) (prio : BitVec 4) : Option State :=
  if !s.placeFor l bench then none
  else
    let (id, s) := s.fresh
    (s.bindTrays l id bench l.traysPerTeam prio).map fun s =>
      let tm : Team :=
        { id := id, launch := l.id, teamno := teamno, bench := bench, shared := Store.empty, front := l.front prio, dq := [], dqBase := 0,
          spawns := [], formed := [], retired := 0, fate := .run }
      let s := s.boundCtx l.ctx
      let s : State := { s with teams := s.teams ++ [tm] }
      (s.ownersOf id).foldl (fun s o => s.joins l.ctx l.id o (match o with | .front _ => 1 | .tray _ => BitVec.allOnes 32)) s

/-- A bind record is the next of its bench and of its launch (R160, R343). -/
def State.firstBind (s : State) (b : BindRec) : Bool :=
  !((s.sched.slots.takeWhile fun (x : BindRec) => x.id != b.id).any fun (x : BindRec) => x.bench == b.bench) &&
    (s.sched.slots.all fun (x : BindRec) => x.launch != b.launch || b.teamno ≤ x.teamno) &&
    s.sched.saved.all fun (x : Saved) => x.team.launch != b.launch || b.teamno ≤ x.team.teamno

/-- The bind records that are to be placed with one: those of its gang. -/
def State.gangOf (s : State) (b : BindRec) (l : Launch) : List BindRec :=
  s.sched.slots.filter fun (x : BindRec) => x.launch == b.launch && x.teamno / l.gang == b.teamno / l.gang

/-- BIND_RECORD_PLACE: the complex writes bind records for launch `id`; under `flag`, dispatch places bind record `id` and the
others of its unit (R14, R17, R18, R23, R24, R343). -/
def execBindRecordPlace (s : State) : Answer :=
  if s.quiescing then .next s
  else if !s.input.flag then
    match s.launch? s.input.id with
    | none => .next s
    | some l => .next (if s.inPifo l.id || l.teams ≤ l.nextTeam then s else s.writeBind l)
  else
    match s.sched.slots.find? fun (x : BindRec) => x.id == s.input.id with
    | none => .next s
    | some b =>
      match s.launch? b.launch with
      | none => .next s
      | some l =>
        if !s.firstBind b || !(s.benchesOf (s.partOfCtx b.ctx)).contains b.bench then .next s
        else
          let gang := s.gangOf b l
          match gang.foldlM (fun s (x : BindRec) => s.bindTeam l x.teamno x.bench x.prio) s with
          | none => .next s
          | some s =>
            let ids := gang.map fun (x : BindRec) => x.id
            .next { s with sched := { s.sched with slots := s.sched.slots.filter fun (x : BindRec) => !ids.contains x.id } }

/-- What a released item does next. -/
def itemEvent (kind : Nat) : Instr :=
  match kind with
  | 0 => .itemNop
  | 1 => .itemLaunch
  | 2 => .itemRecord
  | 3 => .itemGraph
  | 4 => .itemCtxcreate
  | 5 => .itemCtxctl
  | 6 => .itemInval
  | 7 => .itemPreempt
  | _ => .itemUpdate

/-- A released launch that is late does not start (R339). -/
def State.releaseLaunch (s : State) (id : Nat) : State :=
  match s.launch? id with
  | none => s
  | some l =>
    if lateAt s.time l.deadline l.est then
      (s.record l.ctx { cause := 0x17, info := true, d0 := l.seq.setWidth 64, d1 := BitVec.ofNat 64 l.deadline }).endLaunch id
        (resultWord 2 0x17)
    else s

/-- A released group launches its node, or each of its records is discarded (R339, R341). -/
def State.releaseGroup (s : State) (e : PifoEntry) (g : Nat) : State :=
  match s.sched.groups.find? fun (x : Group) => x.id == g with
  | none => s
  | some x =>
    if lateAt s.time e.deadline e.est then
      (x.recs.foldl (fun s it => s.record x.ctx (lateRecord it)) s).deliver (.group g) (resultWord 2 0x17) 0
    else match s.ctx? x.ctx with
      | none => s.deliver (.group g) (resultWord 4 0x01) 0
      | some c =>
        match s.graphNode? c (BitVec.ofNat 64 x.node), x.recs with
        | some nd, it :: _ =>
          let base := BitVec.ofNat 64 (nd.list + x.lists * (8 * (nd.g + 1)))
          s.startRecord c.id nd.lrec (.group g) it e.prio e.deadline e.est [loWord base, hiWord base, w32 x.recs.length] false
        | _, _ => s.deliver (.group g) (resultWord 4 0x01) 0

end Sys2Proof.Machine
end

