-- ==== Sys2Proof/Machine/Fabric.lean ====
section
/-!
DEFINITION. Machine/Fabric.lean: what peers and links bring: requests and responses (R190, R319, R329, R370, R375), notices of
versions (R326 to R329, R377), FABTO and reconfiguration (R376, R378), parity (R379 to R382), the crossbar (R373, R374), links
and ports (R358, R371).
-/

namespace Sys2Proof.Machine

/-- The fields of a global version id (R317). -/
def gidDev (g : BitVec 16) : Nat := g.toNat / 4096
def gidLoc (g : BitVec 16) : Nat := g.toNat / 64 % 64
def gidInc (g : BitVec 16) : Nat := g.toNat % 64

/-- Incarnation i is newer than j (R329). -/
def newerInc (i j : Nat) : Bool := let d := (i + 63 - j % 63) % 63; 1 ≤ d && d ≤ 31

/-- What is known of the peer's local id that a global id names. -/
def State.peerVer? (s : State) (g : BitVec 16) : Option PeerVer :=
  s.fab.peerVers.find? fun (v : PeerVer) => v.dev == gidDev g && v.loc == gidLoc g

/-- Record what is known of a peer's local id. -/
def State.putPeerVer (s : State) (v : PeerVer) : State :=
  { s with fab := { s.fab with
      peerVers := (s.fab.peerVers.filter fun (x : PeerVer) => !(x.dev == v.dev && x.loc == v.loc)) ++ [v] } }

/-- The fate of a store that carries a global id (R329): dropped, or applied in a version's lines with the ones it observes
below them; version 0 has no lines. -/
inductive Fate329 where
  | dropped
  | keys (ids : List (BitVec 16))
  deriving DecidableEq, Repr

/-- The ids that a version of a peer observes, itself first; a committed one acts as the version it was committed into. -/
def State.remoteChain : Nat → State → BitVec 16 → Fate329
  | 0, _, _ => .dropped
  | n + 1, s, g =>
    if gidLoc g == 0 then .keys []
    else match s.peerVer? g with
      | none => .keys [g]
      | some v =>
        if v.inc == gidInc g then
          (match v.committed with
           | some p => State.remoteChain n s p
           | none => if v.squashed then .dropped else .keys (g :: v.ancestors))
        else if newerInc (gidInc g) v.inc then .keys [g]
        else .dropped

/-- A request of a version is heard of: a newer incarnation, and the ancestors that its first request carries (R319, R329). -/
def State.hear (s : State) (r : FabReq) : State :=
  if gidLoc r.gid == 0 then s
  else
    let new : PeerVer :=
      { dev := gidDev r.gid, loc := gidLoc r.gid, inc := gidInc r.gid, squashed := false, committed := none, ancestors := r.ancestors }
    match s.peerVer? r.gid with
    | none => s.putPeerVer new
    | some v =>
      if v.inc == gidInc r.gid then
        (if r.ancestors.isEmpty then s else s.putPeerVer { v with ancestors := r.ancestors })
      else if newerInc (gidInc r.gid) v.inc then s.putPeerVer new
      else s

/-- An answer to a request. -/
def State.answer (s : State) (r : FabReq) (data : List Byte) : State :=
  s.sendOut r.src 1 fun h hop => .response h hop { tag := r.tag, ok := true, data := data }

/-- A refusal of a request with the cause of the check that failed, 0 for an error (R190, R194, R370). -/
def State.refuse (s : State) (r : FabReq) (cause : Nat) : State :=
  s.sendOut r.src 1 fun h hop => .response h hop { tag := r.tag, ok := false, data := [], cause := cause }

/-- A late store is dropped: SQDROP of the receiving context rises, and the store is acknowledged (R329, R336). -/
def State.dropStore (s : State) (cx : Context) (r : FabReq) : State :=
  let s := s.modCtx cx.id fun c => { c with sqdrop := c.sqdrop + 1 }
  (s.physWrite (cx.recAddr.toNat + 0x28) (leBytes 8 (cx.sqdrop + 1).toNat)).answer r []

/-- The place that a request names in the context of the partition's fabric share; the cause of the leaf's check, or 0 where the
request cannot be served (R190, R194, R319, R370). A write request to a KV page is served or not, for it does not say whether an
engine makes it (R295): a free choice. -/
def State.inbound (s : State) (cx : Context) (r : FabReq) (acc : Access) (n : Nat) (keys : List VKey) : Except Nat (Loc × Attr) :=
  if r.addr.toNat % 65536 + n > 65536 || 2 ^ 52 ≤ r.addr.toNat || n < 1 || 128 < n then .error 0
  else match s.resolveLocal cx (if keys.isEmpty then 0 else 64) acc r.addr with
    | .ok l a => if acc.isWrite && s.lineFull cx keys l a then .error 0x09 else .ok (l, a)
    | .fault e => .error e
    | .wait => .error 0

/-- Serve a request at the place it names, or refuse it. -/
def State.servedAt (s : State) (cx : Context) (r : FabReq) (acc : Access) (n : Nat) (keys : List VKey)
    (go : Loc → Attr → State → State) : State :=
  match s.inbound cx r acc n keys with
  | .ok (l, a) => go l a (s.named cx.id r.addr l a)
  | .error e => s.refuse r e

/-- Apply a request that is next at its location, and answer it (R205, R319, R329, R370). A write of a thread was checked before it
was sent; one of an engine was not. -/
def State.serve (s : State) (r : FabReq) : State :=
  match (s.part? r.part).bind fun p => s.ctx? p.fabctx with
  | none => s.refuse r 0
  | some cx =>
    let s := s.hear r
    match State.remoteChain 65 s r.gid, r.op with
    | .dropped, .read n => s.servedAt cx r .read n [] fun l _ s => s.answer r (s.seen [] l n)
    | .dropped, .check .. => s.answer r []
    | .dropped, .other => s.refuse r 0
    | .dropped, _ => s.dropStore cx r
    | .keys ids, op =>
      let keys := ids.map (VKey.remote cx.id)
      match op with
      | .read n => s.servedAt cx r .read n keys fun l _ s => s.answer r (s.seen keys l n)
      | .write bs =>
        s.servedAt cx r .engineWrite bs.length keys fun l a s =>
          if a.kv && Config.freeBit s.tick then s.refuse r 0x09 else (s.store keys a l bs .agent none true).answer r []
      | .atomic funct b c unsigned =>
        s.servedAt cx r .write 4 keys fun l a s =>
          if l.off % 4 != 0 then s.refuse r 0
          else
            let old := s.wordSeen keys l
            (s.store keys a l (leBytes 4 (atomicNew funct unsigned old b c).toNat) .agent none true).answer r (leBytes 4 old.toNat)
      | .increment =>
        s.servedAt cx r .write 8 keys fun l a s =>
          (s.store keys a l (leBytes 8 (leNat (s.seen keys l 8) + 1)) .agent none true).answer r []
      | .check n vers eng =>
        s.servedAt cx r (if eng then .engineWrite else .write) n keys fun _ a s =>
          if vers && !a.vers then s.refuse r 0x09 else s.answer r []
      | .other => s.refuse r 0

/-- The sequence number that a location of a source expects next (R375). -/
def State.expects (s : State) (src : Nat) (addr : BitVec 64) : Nat :=
  match s.fab.locNext.find? fun (x : LocWait) => x.src == src && x.addr == fabLoc addr.toNat with
  | some x => x.next
  | none => 0

/-- A location's write is applied: the next number is expected. -/
def State.passed (s : State) (src : Nat) (addr : BitVec 64) : State :=
  let n := (s.expects src addr + 1) % 65536
  { s with fab := { s.fab with
      locNext := (s.fab.locNext.filter fun (x : LocWait) => !(x.src == src && x.addr == fabLoc addr.toNat)) ++
        [{ src := src, addr := fabLoc addr.toNat, next := n }] } }

/-- A held request whose turn has come. -/
def State.dueReq (s : State) : Option FabReq :=
  s.fab.heldReqs.find? fun (r : FabReq) => r.locseq == s.expects r.src r.addr

/-- Apply held requests whose turn has come, at most n. -/
def State.drainHeld : Nat → State → State
  | 0, s => s
  | n + 1, s =>
    match s.dueReq with
    | none => s
    | some r =>
      let s : State := { s with fab := { s.fab with heldReqs := s.fab.heldReqs.filter fun (x : FabReq) => x != r } }
      State.drainHeld n ((s.passed r.src r.addr).serve r)

/-- FABRIC_REQUEST (R375): writes and atomics of one source to one location are applied in their sequence. -/
def execFabricRequest (s : State) : Answer :=
  let r := s.input.req
  if !s.cap 0 then .next s
  else if !ordered r.op then .next (s.serve r)
  else if r.locseq == s.expects r.src r.addr then
    let s := (s.passed r.src r.addr).serve r
    .next (State.drainHeld s.fab.heldReqs.length s)
  else .next { s with fab := { s.fab with heldReqs := s.fab.heldReqs ++ [r] } }

/-- The values of a response's bytes for the registers of a slot (R30, R202). -/
def respWrites (regs : List RegName) (signed : Bool) (bs : List Byte) : List RegWrite :=
  let ws := loadWords signed bs
  match regs, ws with
  | [r], [lo, hi] => [{ reg := r, val := lo, hi := hi }]
  | _, _ => (regs.zip ws).map fun (r, w) => { reg := r, val := w, hi := 0 }

/-- Change a producer. -/
def State.modProd (s : State) (id : Nat) (f : Producer → Producer) : State :=
  { s with prods := s.prods.map fun (x : Producer) => if x.id == id then f x else x }

/-- The entries that wait with a producer go past their group, and its cursors advance (R40, R43). -/
def State.wakeReply (s : State) (x : Producer) (act : BitVec 32) : State :=
  let go (e : Entry) : Entry := if replyOf x.id e.wait then e.past x.size else e
  match x.owner with
  | .tray id =>
    s.modTray id fun tr =>
      x.adv.foldl (fun tr code => tr.advance act code)
        { tr with
          frontier := mergeAll (tr.frontier.map go)
          trap := tr.trap.map fun (ts : TrapState) => { ts with frontier := ts.frontier.map go } }
  | .front t =>
    s.modFront t fun fr =>
      if replyOf x.id fr.wait then
        let (pc, ls) := loopEnd (fr.pc + BitVec.ofNat 64 x.size) fr.loops
        { fr with pc := pc, loops := ls, wait := .none }
      else fr

/-- The mask of failed slots with a code. -/
def badMask (bad : List (Nat × DWord × Nat)) (code : Nat) : BitVec 32 :=
  maskOf fun t => bad.any fun (b : Nat × DWord × Nat) => b.1 == t.val && b.2.2 == code

/-- A guard's predicate takes its disabling value in the slots of an owner whose accesses at peers failed (R77). -/
def State.clearGuard (s : State) (o : Owner) (p : BitVec 3) (v : Bool) (m : BitVec 32) : State :=
  if p == 0 then s
  else match o with
    | .tray id =>
      s.modTray id fun tr => { tr with preds := Slots.gen fun t => if m.getLsbD t.val then setPredBit tr.preds[t] p v else tr.preds[t] }
    | .front t => if m == 0 then s else s.modFront t fun fr => { fr with preds := setPredBit fr.preds p v }

/-- The responses that an instruction waited for are in: a scoped atomic acquires, and the instruction goes on in the slots of a mask
(R43, R233). -/
def State.replied (s : State) (x : Producer) (act : BitVec 32) : State :=
  let s := match x.acquire, s.ownerCtx x.owner with
    | some scope, some (_, _, cx) => s.acquireOn cx x.owner act .implicit scope.toNat
    | _, _ => s
  s.wakeReply x act

/-- Responses of a waiting instruction are in: it goes on, or it raises the smallest cause, its producer undone, or its guard
clears the slots that failed with a clearable cause (R43, R47, R77, R175). In a trap it waits for the ERET. A thread that was spawned
meanwhile has nobody to raise its cause (log 151). -/
def State.settleReply (s : State) (pid : Nat) : State :=
  match s.prods.find? fun (x : Producer) => x.id == pid with
  | none => s
  | some x =>
    if !x.tags.isEmpty || s.fab.notices.any (fun (n : NoticeOut) => n.waiter == some pid) then s
    else match x.bad with
      | [] => s.replied x x.mask
      | _ =>
        let hard := match x.clear with
          | some _ => x.bad.filter fun (y : Nat × DWord × Nat) => !clearable y.2.2
          | none => x.bad
        match hard, x.clear with
        | [], some (p, v) =>
          let m := maskOf fun t => x.bad.any fun (y : Nat × DWord × Nat) => y.1 == t.val
          let s := s.clearGuard x.owner p v m
          let kept := x.writes.map fun (w : RegWrite) => w.reg
          let s := (x.marks.filter fun r => !kept.contains r).foldl (fun s r => s.setFull x.owner r true) s
          (s.modProd pid fun y => { y with marks := kept, bad := [] }).replied x (x.mask &&& ~~~m)
        | _, _ =>
          if s.inTrap x.owner then s
          else
            let code := hard.foldl (fun n (y : Nat × DWord × Nat) => Nat.min n y.2.2) 0xFF
            let va := match hard.filter fun (y : Nat × DWord × Nat) => y.2.2 == code with
              | y :: ys => (ys.foldl (fun (u w : Nat × DWord × Nat) => if w.1 < u.1 then w else u) y).2.1
              | [] => 0
            let undone (s : State) : State :=
              let s : State := { s with prods := s.prods.filter fun (y : Producer) => y.id != pid }
              x.marks.foldl (fun s r => s.setFull x.owner r true) s
            match s.waiting x.owner (replyOf pid) x.size with
            | none => undone s
            | some (c, s) => (undone s).raise c { code := code, mask := badMask hard code, addr := va, d0 := (atPeer code va).d0 }

/-- A corrected error is counted for its die (R180). -/
def State.countCorrected (s : State) (die : Nat) : State :=
  { s with pkg := { s.pkg with corrected := Sparse.put 0 s.pkg.corrected die (Sparse.get 0 s.pkg.corrected die + 1) } }

/-- An error that could not be corrected meets its first consumer (R182): a producer's load, under `k` 1 an engine command, under 2
an agent's fetch or record read; `n` is the hub slice or the bench that failed, `flag` that it is a hub slice. -/
def State.consumerFailed (s : State) (cls : Nat) : State :=
  let x := s.input
  let fails (ctx : Nat) (r : Record) : State := s.memoryFailed ctx cls x.n x.val.toNat x.flag { r with cause := 0x13 }
  match x.k with
  | 1 =>
    (match s.cmd? x.id with
     | some k => (match s.ctx? k.ctx with | some cx => fails k.ctx (k.recordOf cx s.devNo { cause := 0x13 }) | none => s)
     | none => s)
  | 2 =>
    (match (match x.agent with | .tray id e => s.trayCtx id e Pfx.empty 4 | .front t => s.frontCtx t Pfx.empty 4 | .none => none) with
     | some c => fails c.cx.id (c.recordOf s.devNo { code := 0x13, mask := c.ent.mask })
     | none => s)
  | _ =>
    match s.prods.find? fun p => p.id == x.id with
    | none => s
    | some p =>
      match s.ownerCtx p.owner with
      | none => s
      | some (tm, l, cx) =>
        let tray := match p.owner with | .tray id => s.tray? id | .front _ => none
        let front := match p.owner with | .front _ => true | .tray _ => false
        fails cx.id
          { cause := 0x13, front := front, ver := cx.gid s.devNo l.ver, pc := p.pc, teamno := tm.teamno
            bench := match tray with | some tr => tr.bench | none => tm.bench
            trayno := match tray with | some tr => tr.trayno | none => 0xFF
            fmask := if front then 0 else p.mask }

/-- LOAD_RETURN: the values of producer `id` reach their registers (R43); under `flag` an error was corrected on the way, on die `n`
(R180); with a memory class in `err` the data could not be corrected (R180 to R185). An entry that still waits for its responses,
for a trap stood before it, is looked at again. -/
def execLoadReturn (s : State) : Answer :=
  match s.input.err with
  | some cls =>
    .next (match s.input.k, s.prods.find? fun x => x.id == s.input.id with
      | 0, some x => if s.awaits x.owner x.id || x.kind != .load || !x.tags.isEmpty then s else s.consumerFailed cls
      | 0, none => s
      | _, _ => s.consumerFailed cls)
  | none =>
    match s.prods.find? fun x => x.id == s.input.id with
    | none => .next s
    | some x =>
      if s.awaits x.owner x.id then .next (s.settleReply x.id)
      else if x.kind != .load || !x.tags.isEmpty then .next s
      else .next ((if s.input.flag then s.countCorrected s.input.n else s).fillProducer x.id .load)

/-- A flight is over: a write of it is acknowledged (R241). -/
def State.landed (s : State) (tag : Nat) : State :=
  ({ s with fab := { s.fab with flights := s.fab.flights.filter fun (f : FabAccess) => f.tag != tag } } : State).pastLanded tag

/-- What a read at a peer brought stands for the instruction that asks. -/
def State.pulledIn (s : State) (p : Pulled) : State :=
  { s with fab := { s.fab with
      pulled := (s.fab.pulled.filter fun (x : Pulled) => !(x.owner == p.owner && x.peer == p.peer && x.addr == p.addr)) ++ [p] } }

/-- A wait looks for the response with a tag. -/
def Wait.asks (tag : Nat) : Wait → Bool
  | .acq _ _ _ t .. => t == tag
  | .waitne _ _ ws .. => ws.any fun (x : Watch) => x.tag == tag
  | _ => false

/-- A read for a waiting ACQ or WAITNE failed: the instruction issues again, and raises its cause or clears the slot (R77, R175). -/
def State.probeFailed (s : State) (f : FabAccess) (code : Nat) : State :=
  let s := ((s.waitsOf f.owner).filter fun w => w.asks f.tag).foldl (fun s w => s.rewait f.owner w .none) s
  s.pulledIn { owner := f.owner, peer := f.peer, addr := f.addr.toNat, data := [], cause := some code }

/-- A read for a waiting ACQ or WAITNE brought its bytes (R249, R253). -/
def State.probed (s : State) (f : FabAccess) (bs : List Byte) : State :=
  ((s.waitsOf f.owner).filter fun w => w.asks f.tag).foldl (fun s w =>
    match w, s.ownerCtx f.owner with
    | .acq l v n _ va scope act, some (_, _, cx) =>
      if reached (BitVec.ofNat 64 (leNat bs)) v then s.acqDone f.owner cx w
      else s.rewait f.owner w (.acq l v n 0 va scope act)
    | .waitne t0 n ws adv range, _ =>
      s.rewait f.owner w (.waitne t0 n (ws.map fun (x : Watch) =>
        if x.tag == f.tag then { x with tag := 0, got := some (w32 (leNat bs)) } else x) adv range)
    | _, _ => s) s

/-- An access fails with a cause, or brings its bytes. -/
def State.respond (s : State) (f : FabAccess) (res : Except Nat (List Byte)) : State :=
  match f.use with
  | .load pid slot regs n signed =>
    let s := s.landed f.tag
    let s := s.modProd pid fun x => match res with
      | .ok bs => { x with tags := x.tags.erase f.tag, writes := x.writes ++ respWrites regs signed (bs.take n) }
      | .error code => { x with tags := x.tags.erase f.tag, bad := x.bad ++ [(slot, f.va, code)] }
    s.settleReply pid
  -- a store that its peer refused is never acknowledged: a release that covers it waits FABTO (R241)
  | .store => match res with | .ok _ => s.landed f.tag | .error _ => s
  | .probe => match res with
    | .ok bs => (s.landed f.tag).probed f bs
    | .error code => (s.landed f.tag).probeFailed f code
  | .peek =>
    (s.landed f.tag).pulledIn
      (match res with
       | .ok bs => { owner := f.owner, peer := f.peer, addr := f.addr.toNat, data := bs, cause := none }
       | .error code => { owner := f.owner, peer := f.peer, addr := f.addr.toNat, data := [], cause := some code })
  | .cmd id weight =>
    let s := s.landed f.tag
    match s.cmd? id with
    | none => s
    | some k =>
      if !k.tags.contains f.tag then s
      else match res with
        | .ok bs =>
          s.modCmd id fun x =>
            { x with
              tags := x.tags.erase f.tag
              got := match f.op with | .read _ => x.got ++ [(f.peer, f.addr.toNat, bs)] | _ => x.got }
        | .error code => s.engineFault k { code := code, addr := f.va, step := k.steps, weight := weight }
  | .desc id =>
    let s := s.landed f.tag
    match s.cmd? id, res with
    | none, _ => s
    | some k, .error code =>
      if !k.tags.contains f.tag then s
      else if code == 0x09 then s.modCmd id fun x => { x with tags := x.tags.erase f.tag, may := some false }
      else s.engineFault k { code := code, addr := f.va, step := k.steps }
    | some _, .ok _ => s.modCmd id fun x => { x with tags := x.tags.erase f.tag, may := some true }

/-- What a failed access raises: 0x11 for a squashed version's, the cause of the peer's own check, or 0x10 for an error (R175,
R190, R287, R370). -/
def failCode (squashed : Bool) (cause : Nat) : Nat :=
  if squashed then 0x11 else if [0x08, 0x09, 0x14].contains cause then cause else 0x10

/-- FABRIC_RESPONSE (R190, R241, R370): under `flag` the access is a squashed version's (R175). A parity holder's acknowledgement bears its
delta's tag (R381). -/
def execFabricResponse (s : State) : Answer :=
  let r := s.input.resp
  match s.fab.flights.find? fun (f : FabAccess) => f.tag == r.tag with
  | some f => .next (s.respond f (if r.ok then .ok r.data else .error (failCode s.input.flag r.cause)))
  | none =>
    .next { s with fab := { s.fab with deltas := s.fab.deltas.filter fun (d : Nat × Party × Nat × Nat × Nat) => d.1 != r.tag } }

/-- Change a notice. -/
def State.modNotice (s : State) (id : Nat) (f : NoticeOut → NoticeOut) : State :=
  { s with fab := { s.fab with notices := s.fab.notices.map fun (n : NoticeOut) => if n.id == id then f n else n } }

/-- A RESOLVE or SQUASH for which a notice was sent looks whether it is complete. -/
def State.noticeMoved (s : State) (n : NoticeOut) : State :=
  match n.waiter with | some pid => s.noticesDone pid | none => s

/-- A peer is left out of a notice (R326, R328): a squash notice is owed to it; in place of a commit notice it is owed the squash
of the lines it holds. -/
def State.leaveOut (s : State) (n : NoticeOut) (peer : Nat) : State :=
  let s := s.modNotice n.id fun x => { x with waits := x.waits.erase peer, owed := x.owed ++ [peer] }
  if n.squash then s
  else
    let (id, s) := s.fresh
    { s with fab := { s.fab with notices := s.fab.notices ++
        [{ id := id, squash := true, gid := n.gid, parent := 0, waits := [], owed := [peer], since := s.time, sent := [], waiter := none }] } }

/-- A commit notice may leave to a peer: the siblings' squash notices are complete and its stores of the winner there are acknowledged
(R326). -/
def State.commitMay (s : State) (x : NoticeOut) (p : Nat) : Bool :=
  x.waits.contains p && !x.sent.contains p &&
    !(s.fab.notices.any fun (y : NoticeOut) => y.squash && y.waiter.isSome && y.waiter == x.waiter && !y.waits.isEmpty) &&
    !(s.fab.flights.any fun (f : FabAccess) => f.gid == x.gid && f.peer == p && ordered f.op)

/-- COMMIT_NOTICE_SEND of notice `id` to peer `n`; the first time as a multicast to the other peers to which it may leave as well. A peer
that cannot be reached is left out (R326, R377). -/
def execCommitNoticeSend (s : State) : Answer :=
  match s.fab.notices.find? fun (x : NoticeOut) => x.id == s.input.id with
  | none => .next s
  | some x =>
    let p := s.input.n
    if x.squash || !s.commitMay x p then .next s
    else match s.route p with
      | .unreachable => .next ((s.leaveOut x p).noticeMoved x)
      | .waits => .next s
      | _ =>
        let n : Notice := { src := s.pkg.fabno.toNat, gid := x.gid, parent := x.parent }
        let also := if x.sent.isEmpty then
            x.waits.filter fun q => q != p && s.commitMay x q && (s.route q).open_ && Config.freeBit (s.tick * 256 + q)
          else []
        let s := s.modNotice x.id fun y => { y with sent := y.sent ++ p :: also }
        .next (s.sendNotice false n (p :: also))

/-- SQUASH_NOTICE_ACK: peer `n` acknowledges a notice of a version, a commit notice's included (R326, R328, R377). -/
def execSquashNoticeAck (s : State) : Answer :=
  let p := s.input.n
  match s.fab.notices.find? fun (x : NoticeOut) => x.gid == s.input.notice.gid && (x.waits.contains p || x.owed.contains p) && x.sent.contains p with
  | none => .next s
  | some x =>
    let s := s.modNotice x.id fun y => { y with waits := y.waits.erase p, owed := y.owed.erase p }
    let s : State := { s with fab := { s.fab with
      notices := s.fab.notices.filter fun (y : NoticeOut) => !(y.id == x.id && y.waiter.isNone && y.waits.isEmpty && y.owed.isEmpty) } }
    .next (s.noticeMoved x)

/-- Send the squash notices that are owed, or have not left, to the peers that can be reached now (R328). -/
def State.sendOwed (s : State) : State :=
  let due (n : NoticeOut) : List Nat :=
    if n.squash then (n.owed ++ n.waits.filter fun p => !n.sent.contains p).filter fun p => (s.route p).open_ else []
  let s := s.fab.notices.foldl (fun s n => s.sendNotice true { src := s.pkg.fabno.toNat, gid := n.gid, parent := 0 } (due n)) s
  { s with
    fab := { s.fab with
      notices := s.fab.notices.map fun (n : NoticeOut) =>
        { n with sent := n.sent ++ (due n).filter fun p => !n.sent.contains p } } }

/-- Acknowledge a notice: its version's id serves as the tag. -/
def State.ackNotice (s : State) (n : Notice) : State := s.sendOut n.src 1 fun h hop => .ack h hop n.gid.toNat

/-- The lines and tags of a version of a peer go. -/
def State.dropRemote (s : State) (g : BitVec 16) : State :=
  let mine (k : VKey) : Bool := match k with | .remote _ g' => g' == g | .here .. => false
  { s with
    vlines := s.vlines.filter fun (x : VLine) => !mine x.key
    vtags := s.vtags.filter fun (x : VTag) => !mine x.key }

/-- PEER_SQUASH_NOTICE (R328, R329): the incarnation is recorded as squashed, and its lines go. -/
def execPeerSquashNotice (s : State) : Answer :=
  let n := s.input.notice
  let v : PeerVer :=
    { dev := gidDev n.gid, loc := gidLoc n.gid, inc := gidInc n.gid, squashed := true, committed := none, ancestors := [] }
  let s := match s.peerVer? n.gid with
    | none => s.putPeerVer v
    | some x => if x.inc == v.inc || newerInc v.inc x.inc then s.putPeerVer v else s
  .next ((s.dropRemote n.gid).ackNotice n)

/-- The contexts in which a peer's version has lines. -/
def State.remoteCtxs (s : State) (g : BitVec 16) : List Nat :=
  ((s.vlines.map fun (x : VLine) => x.key) ++ s.vtags.map fun (x : VTag) => x.key).filterMap
    (fun (k : VKey) => match k with | .remote c g' => if g' == g then some c else none | .here .. => none) |>.eraseDups

/-- An ancestor chain after a commit of one version into another. -/
def commitIn (g p : BitVec 16) (ids : List (BitVec 16)) : List (BitVec 16) :=
  if !ids.contains g then ids
  else if gidLoc p == 0 || ids.contains p then ids.filter fun x => x != g
  else ids.map fun x => if x == g then p else x

/-- PEER_COMMIT_NOTICE (R326): the version's lines merge into its parent's, or into the committed state; a parent that is squashed here
takes them with it (R329). -/
def execPeerCommitNotice (s : State) : Answer :=
  let n := s.input.notice
  let s := match State.remoteChain 65 s n.parent with
    | .dropped => s.dropRemote n.gid
    | .keys ids => (s.remoteCtxs n.gid).foldl (fun s c => s.merge (.remote c n.gid) (ids.head?.map (VKey.remote c)) none) s
  let v : PeerVer :=
    { dev := gidDev n.gid, loc := gidLoc n.gid, inc := gidInc n.gid, squashed := false, committed := some n.parent, ancestors := [] }
  let s := match s.peerVer? n.gid with
    | none => s.putPeerVer v
    | some x => if x.inc == v.inc || newerInc v.inc x.inc then s.putPeerVer v else s
  .next ({ s with fab := { s.fab with
      peerVers := s.fab.peerVers.map fun (x : PeerVer) => { x with ancestors := commitIn n.gid n.parent x.ancestors } } }.ackNotice n)

/-- FABTO_EXPIRY: `k` = 0: the access with tag `id`; 1: the waiting agent, whose instruction raises its cause at the issue that
follows at once; else the notice with number `id`, which leaves out the peers that have not acknowledged (R328, R378). -/
def execFabtoExpiry (s : State) : Answer :=
  match s.input.k with
  | 0 =>
    (match s.fab.flights.find? fun (f : FabAccess) => f.tag == s.input.id with
     | some f => .next (if f.since + s.fabtoNs ≤ s.time && f.use != FabUse.store then s.respond f (.error 0x10) else s)
     | none => .next s)
  | 1 =>
    (match s.waitOf s.input.agent with
     | .fabric t0 => .next (if t0 + s.fabtoNs ≤ s.time then { s with agenda := .issue s.input.agent :: s.agenda } else s)
     | _ => .next s)
  | _ =>
    (match s.fab.notices.find? fun (n : NoticeOut) => n.id == s.input.id with
     | some n => .next (if n.since + s.fabtoNs ≤ s.time then (n.waits.foldl (fun s p => s.leaveOut n p) s).noticeMoved n else s)
     | none => .next s)

/-- XOR a delta into a parity block and acknowledge it (R381). -/
def State.applyDelta (s : State) (g : ParityGroup) (d : Delta) : State :=
  let pa := (g.qbase + d.stripe) * 65536 + d.off
  (s.physWrite pa (xorBytes (s.physRead pa d.xor.length) d.xor)).sendOut d.src 1 fun h hop => .ack h hop d.tag

/-- A delta lies in its parity block. -/
def deltaFits (g : ParityGroup) (d : Delta) : Bool := d.stripe < g.stripes && d.off + d.xor.length ≤ 65536

/-- PARITY_DELTA (R381, R382): while its stripe is rebuilding it is queued. -/
def execParityDelta (s : State) : Answer :=
  let d := s.input.delta
  match (s.part? d.part).bind s.pgroup? with
  | none => .next s
  | some g =>
    if !deltaFits g d then .next s
    else if s.fab.rebuilds.contains (d.part, d.stripe) then .next { s with fab := { s.fab with queued := s.fab.queued ++ [d] } }
    else .next (s.applyDelta g d)

/-- Write STATE of a partition's group record (R379). -/
def State.groupState (s : State) (p : Partition) (x : Nat) : State :=
  if p.pgroup == 0 then s else s.physWrite (p.pgroup + 2) (leBytes 1 x)

/-- MEMBER_LOST of partition `id`'s group (R382). -/
def execMemberLost (s : State) : Answer :=
  match s.part? s.input.id with
  | some p => .next (s.groupState p 1)
  | none => .next s

/-- The members whose stripe a holder's parity block holds, but one (R380, R382). -/
def ParityGroup.covered (g : ParityGroup) (stripe lost : Nat) : List Nat :=
  (List.range g.n).filter fun m => m != lost && m != g.rank && g.holder m stripe == g.rank

/-- REBUILD_REQUEST (R382): the stripe begins to rebuild; under `flag` the stripes of the other members whose holder is this device are
in, the rebuilt stripe is written to its frame, and the deltas that waited are applied. -/
def execRebuildRequest (s : State) : Answer :=
  let r := s.input.rebuild
  match s.part? r.part with
  | none => .next s
  | some p =>
    match s.pgroup? p with
    | none => .next s
    | some g =>
      if g.holder r.member r.stripe != g.rank || g.stripes ≤ r.stripe || r.member == g.rank then .next s
      else if !s.input.flag then
        .next ({ s with fab := { s.fab with
          rebuilds := if s.fab.rebuilds.contains (r.part, r.stripe) then s.fab.rebuilds else s.fab.rebuilds ++ [(r.part, r.stripe)] } }.groupState p 2)
      else if !s.fab.rebuilds.contains (r.part, r.stripe) ||
          (g.covered r.stripe r.member).any (fun m => r.peers.all fun x => x.1 != m) then .next s
      else
        let others := r.peers.filter fun x => (g.covered r.stripe r.member).contains x.1
        let cell (m : List (Nat × Byte)) (i : Nat) : Byte := match m.find? fun (c : Nat × Byte) => c.1 == i with | some c => c.2 | none => 0
        let parity := s.physRead ((g.qbase + r.stripe) * 65536) 65536
        let bytes := ((List.range 65536).zip parity).map fun (i, b) => others.foldl (fun x m => x ^^^ cell m.2 i) b
        let s := s.physWrite (r.frame * 65536) bytes
        let s : State := { s with fab := { s.fab with rebuilds := s.fab.rebuilds.filter fun x => x != (r.part, r.stripe) } }
        let mine (d : Delta) : Bool := d.part == r.part && d.stripe == r.stripe
        let due := s.fab.queued.filter mine
        let s : State := { s with fab := { s.fab with queued := s.fab.queued.filter fun (d : Delta) => !mine d } }
        .next (due.foldl (fun s d => s.applyDelta g d) s)

/-- A byte of a member's protected range: `cells` names it by its offset there, plus 2^48 for each member before it. -/
def memberByte (cells : List (Nat × Byte)) (m o : Nat) : Byte :=
  match cells.find? fun c => c.1 == m * 2 ^ 48 + o with | some c => c.2 | none => 0

/-- REPLACEMENT_JOIN of partition `id`'s group: when this device is the replacement, which `flag` says, each parity block that it holds is
computed from the stripes of the members that it covers, which `cells` bring, and the group is complete again (R380, R382). -/
def execReplacementJoin (s : State) : Answer :=
  match s.part? s.input.id with
  | none => .next s
  | some p =>
    match s.pgroup? p with
    | none => .next s
    | some g =>
      let parity (stripe : Nat) : List Byte := (List.range 65536).map fun i =>
        (g.covered stripe g.rank).foldl (fun x m => x ^^^ memberByte s.input.cells m (stripe * 65536 + i)) 0
      let s := if s.input.flag then
          (List.range g.stripes).foldl (fun s k => s.physWrite ((g.qbase + k) * 65536) (parity k)) s
        else s
      .next (s.groupState p 0)

/-- A port is set (R371). -/
def State.setPort (s : State) (port : Nat) (v : Word) : State :=
  { s with pkg := { s.pkg with portstat := s.pkg.portstat.setIfInBounds port v } }

/-- PORTSTAT of a trained port, or of one that is down (R371). -/
def portWord (up : Bool) (peer waves : Nat) : Word := BitVec.ofNat 32 (up.toNat * 2 ^ 31 + peer % 16 * 2 ^ 16 + waves % 512)

/-- The optical die of a port (R371). -/
def portDie (port : Nat) : Nat := if port < 8 then 7 else 8

/-- Packets have been received at the far end: their replay buffers let them go (R373). -/
def State.received (s : State) (gone : Nat × Nat × Packet → Bool) : State :=
  { s with fab := { s.fab with replay := s.fab.replay.filter fun r => !gone r } }

/-- PORT_TRAIN: port `id` trains toward peer `n` with `k` working wavelengths, in multiples of 32 from 128 to 256; with fewer it is
down (R371). Owed notices go to peers that a route leads to again (R328). -/
def execPortTrain (s : State) : Answer :=
  let port := s.input.id
  let w := Nat.min (s.input.k / 32 * 32) 256
  if !s.cap 0 || 16 ≤ port then .next s
  else
    let up := 128 ≤ w && !s.pkg.offline.contains (portDie port)
    .next ((s.setPort port (portWord up s.input.n w)).received fun r => r.1 == port).sendOwed

/-- FAB_RECONFIG: `pairs` gives the ports that change with their new peers; a drain marker goes out on every virtual channel of
each (R373, R378). -/
def execFabReconfig (s : State) : Answer :=
  if !s.cap 0 || s.fab.reconfig.isSome then .next s
  else
    let ports := s.input.pairs.filter fun (x : Nat × Nat) => x.1 < 16 && x.2 < 16
    let markers := ports.flatMap fun (x : Nat × Nat) => (List.range 4).map fun vc => (x.1, vc)
    if ports.isEmpty then .next { s with pkg := { s.pkg with fabcfgGo := false } }
    else
      .next { s with
        outbox := s.outbox ++ markers.map fun (x : Nat × Nat) => Out.marker x.1 x.2
        fab := { s.fab with reconfig := some { ports := ports, markers := markers } }
        pkg := { s.pkg with fabcfgGo := true } }

/-- DRAIN_MARKER_ACK of port `id`'s channel `n`: with its last marker the port retrains to its new peer; with the last port the
allowances are released (R378). -/
def execDrainMarkerAck (s : State) : Answer :=
  match s.fab.reconfig with
  | none => .next s
  | some r =>
    let port := s.input.id
    if !r.markers.contains (port, s.input.n) then .next s
    else
      let left := r.markers.filter fun x => x != (port, s.input.n)
      let waves := (s.pkg.portstat.toList.getD port 0).toNat % 512
      let s := s.received fun x => x.1 == port && x.2.1 == s.input.n
      let s := if left.any fun x => x.1 == port then s
        else match r.ports.find? fun x => x.1 == port with
          | some x => s.setPort port (portWord (!s.pkg.offline.contains (portDie port) && 128 ≤ waves) x.2 waves)
          | none => s
      if left.isEmpty then
        .next ({ s with fab := { s.fab with reconfig := none }, pkg := { s.pkg with fabcfgGo := false } } : State).sendOwed
      else .next { s with fab := { s.fab with reconfig := some { r with markers := left } } }

/-- A packet ranks higher: by age, then the lower source, then the lower injection number, compared in a window of 2^31 (R374). -/
def outranks (a b : Packet) : Bool :=
  if a.age != b.age then b.age < a.age
  else if a.src != b.src then a.src < b.src
  else a.inj != b.inj && (b.inj - a.inj).toNat < 2 ^ 31

/-- The highest-ranked of packets. -/
def topPacket (ps : List Packet) : Option Packet :=
  ps.foldl (fun r p => match r with | some x => if outranks p x then some p else some x | none => some p) none

/-- The output ports of an optical die (R371). -/
def portsOf (die : Nat) : List Nat := (List.range 8).map fun i => i + (if die == 8 then 8 else 0)

/-- A port lies on a shortest route of a packet: it leads to the destination; where no port of the die does, that is a matter of
the topology, which the device does not see: a free choice. -/
def State.onRoute (s : State) (die port : Nat) (p : Packet) : Bool :=
  let leads (q : Nat) : Bool := let w := s.pkg.portstat.toList.getD q 0; w.getLsbD 31 && (w.toNat / 2 ^ 16) % 16 == p.dst
  if (portsOf die).any leads then leads port else Config.freeBit (s.tick * 4096 + port * 16 + p.dst % 16)

/-- The destinations of a packet: those of its multicast mask, else the one it names (R373, R377). -/
def destsOf (p : Packet) : List Nat := if p.mask == 0 then [p.dst] else (List.range 16).filter fun d => p.mask.testBit d

/-- A packet's destinations to which a port lies on a shortest route. -/
def State.destsBy (s : State) (die port : Nat) (p : Packet) : List Nat := (destsOf p).filter fun d => s.onRoute die port { p with dst := d }

/-- A packet wants a port. -/
def State.wants (s : State) (die port : Nat) (p : Packet) : Bool := !(s.destsBy die port p).isEmpty

/-- Grant the free ports to the highest-ranked arriving packets, in port order: what is sent, and what is left over (R374). -/
def State.grants (s : State) (die : Nat) : List Nat → List Packet → List (Nat × Packet) × List Packet
  | [], ps => ([], ps)
  | port :: rest, ps =>
    match topPacket (ps.filter (s.wants die port)) with
    | some p => let (gs, left) := s.grants die rest (ps.erase p); ((port, p) :: gs, left)
    | none => s.grants die rest ps

/-- The further branches of a multicast packet that have a free port now: the copies, the ports left, the destinations left (R377). -/
def State.legs (s : State) (die : Nat) (p : Packet) : List Nat → List Nat → List (Nat × Packet) × List Nat × List Nat
  | [], ds => ([], [], ds)
  | q :: qs, ds =>
    let mine := ds.filter fun d => s.onRoute die q { p with dst := d }
    if mine.isEmpty then let (out, free, left) := s.legs die p qs ds; (out, q :: free, left)
    else
      let (out, free, left) := s.legs die p qs (ds.filter fun d => !mine.contains d)
      ((q, { p with mask := peerMask mine }) :: out, free, left)

/-- Granted packets with the branches of the multicast ones; the destinations that a multicast does not reach get unicast copies later
(R377). -/
def State.branches (s : State) (die : Nat) : List (Nat × Packet) → List Nat → List (Nat × Packet) × List Packet
  | [], _ => ([], [])
  | (q, p) :: xs, free =>
    if p.mask == 0 then let (out, later) := s.branches die xs free; ((q, p) :: out, later)
    else
      let mine := s.destsBy die q p
      let (more, free, left) := s.legs die p free ((destsOf p).filter fun d => !mine.contains d)
      let (out, later) := s.branches die xs free
      ((q, { p with mask := peerMask mine }) :: more ++ out, (left.map fun d => { p with dst := d, mask := 0 }) ++ later)

/-- Insert a packet by rank. -/
def insertRank (p : Packet) : List Packet → List Packet
  | [] => [p]
  | q :: qs => if outranks p q then p :: q :: qs else q :: insertRank p qs

/-- Place the losers: at age 255 the lowest-numbered free hold register of a shortest-route port; else any free port, which ages a
packet below 255 (R374). -/
def State.losers (s : State) (die : Nat) : List Packet → List Nat → List (Nat × Packet) → List (Nat × Packet) × List (Nat × Packet)
  | [], _, holds => ([], holds)
  | p :: ps, free, holds =>
    let hold := if p.age == 255 then (portsOf die).find? fun q => s.wants die q p && !holds.any fun h => h.1 == q else none
    match hold, free with
    | some q, _ => s.losers die ps free (holds ++ [(q, p)])
    | none, q :: rest =>
      let (out, holds) := s.losers die ps rest holds
      ((q, { p with age := Nat.min (p.age + 1) 255 }) :: out, holds)
    | none, [] => s.losers die ps [] holds

/-- Packets leave through ports and stand in the replay buffers of their channels there, with those before them that the far end has not
acknowledged yet: a free choice (R373, log 152). -/
def State.leaves (s : State) (die : Nat) (xs : List (Nat × Packet)) : State :=
  xs.foldl (fun s x =>
    let kept (r : Nat × Nat × Packet) : Bool := r.1 != x.1 || r.2.1 != x.2.vc || Config.freeBit (s.tick * 65536 + r.2.2.inj.toNat)
    { s with
      outbox := s.outbox ++ [Out.packet die x.1 x.2]
      fab := { s.fab with replay := s.fab.replay.filter kept ++ [(x.1, x.2.vc, x.2)] } }) s

/-- CROSSBAR_GRANT of optical die `id` with the packets that arrive from its links in a cycle; this device's own that want a port of the
die arrive with them. A packet for this device leaves the crossbar into it (R373, R374, R377). -/
def execCrossbarGrant (s : State) : Answer :=
  let die := s.input.id
  if !s.cap 0 || (die != 7 && die != 8) then .next s
  else
    let held := (s.fab.holds.filter fun (h : Nat × Nat × Packet) => h.1 == die).map fun (h : Nat × Nat × Packet) => (h.2.1, h.2.2)
    let open_ := (portsOf die).filter fun q => !held.any fun h => h.1 == q
    let through (p : Packet) : Bool := p.mask != 0 || p.dst != s.pkg.fabno.toNat
    let own := s.fab.queue.filter fun p => through p && (portsOf die).any fun q => s.wants die q p
    let taken := (s.input.packets.filter through ++ own).take open_.length
    let (won, left) := s.grants die open_ (taken.foldr insertRank [])
    let free := open_.filter fun q => !won.any fun g => g.1 == q
    let (sent, holds) := s.losers die left free []
    let (out, later) := s.branches die won (free.filter fun q => !sent.any fun g => g.1 == q)
    let s : State := { s with fab := { s.fab with
        queue := (s.fab.queue.filter fun p => !taken.contains p) ++ later
        holds := (s.fab.holds.filter fun (h : Nat × Nat × Packet) => h.1 != die) ++ holds.map fun (x : Nat × Packet) => (die, x.1, x.2) } }
    .next (s.leaves die (held ++ out ++ sent))

/-- The number of a die's link, for the count of its failed replays (R358). -/
def linkKey (die link : Nat) : Nat := die * 16 + link % 16

/-- LINK_CRC_FAIL of link `n` of die `id`: the flit is replayed, and `flag` says that the replay succeeded (R358). -/
def execLinkCrcFail (s : State) : Answer :=
  let key := linkKey s.input.id s.input.n
  let n := Sparse.get 0 s.pkg.replays key
  .next { s with pkg := { s.pkg with replays := Sparse.put 0 s.pkg.replays key (if s.input.flag then 0 else n + 1) } }

/-- LINK_FAILED of link `n` of die `id`, after 16 consecutive failed replays: a compute or optical die goes offline with FORCE; with
any other every context stops with cause 0x13, and the device takes no work until the host resets it (R180, R358). -/
def execLinkFailed (s : State) : Answer :=
  let die := s.input.id
  if Sparse.get 0 s.pkg.replays (linkKey die s.input.n) < 16 || s.pkg.offline.contains die || s.pkg.dead then .next s
  else if die < 4 || die == 7 || die == 8 then
    if s.goingOff.isSome then .next s
    else .next { s with agenda := .event .dieOffline { Input.blank with id := die, flag := true, k := 1 } :: s.agenda }
  else
    let s := s.ctxs.foldl (fun s c => s.stopContext c.id 0x13 { cause := 0x13, d0 := 5 }) s
    .next { s with pkg := { s.pkg with dead := true } }

end Sys2Proof.Machine
end

