-- ==== Sys2Proof/Machine/Fp.lean ====
section
/-!
DEFINITION. Machine/Fp.lean: majors 8 to 15: FP32, compares and classes, special functions, packed halves, FP64,
conversions, narrow formats with scales (R114 to R129).
-/

namespace Sys2Proof.Machine

/-- FADD (R114). -/
def execFadd (p : Pfx) (f : F3) (s : State) : Answer := s.fp2 p f fun rm a b => a.add rm b

/-- FSUB (R114). -/
def execFsub (p : Pfx) (f : F3) (s : State) : Answer := s.fp2 p f fun rm a b => a.add rm b.neg

/-- FMUL (R114). -/
def execFmul (p : Pfx) (f : F3) (s : State) : Answer := s.fp2 p f fun _ a b => a.mul b

/-- FDIV (R114): marks d empty. -/
def execFdiv (p : Pfx) (f : F3) (s : State) : Answer :=
  let a : Src := .reg f.a 1 f.ta .f32
  let b := immOr p p.immF f.b f.tb .f32
  s.long p (groupSize p) [a, b] f.d 1 fun c t => [c.round32 ((c.f32 (c.val a t)).div 24 (c.f32 (c.val b t)))]

/-- FMIN and FMAX (R115). -/
def State.fpick (s : State) (p : Pfx) (f : F3) (max : Bool) : Answer :=
  let a : Src := .reg f.a 1 f.ta .f32
  let b := immOr p p.immF f.b f.tb .f32
  s.alu p (groupSize p) [a, b] f.d fun c t => w32 (Fmt.f32.pick c.ftz max (c.val a t).toNat (c.val b t).toNat)

/-- FMIN (R115). -/
def execFmin (p : Pfx) (f : F3) (s : State) : Answer := s.fpick p f false

/-- FMAX (R115). -/
def execFmax (p : Pfx) (f : F3) (s : State) : Answer := s.fpick p f true

/-- FSCALE (R116): b is a signed integer, also as an immediate. -/
def execFscale (p : Pfx) (f : F3) (s : State) : Answer :=
  let a : Src := .reg f.a 1 f.ta .f32
  let b := immOr p p.immS f.b f.tb .int
  s.alu p (groupSize p) [a, b] f.d fun c t => c.round32 ((c.f32 (c.val a t)).scale (c.val b t).toInt)

/-- FMA (R117). -/
def execFma (p : Pfx) (f : F3) (s : State) : Answer := s.fp3 p f fun rm a b d => (a.mul b).add rm d

/-- FMS (R117). -/
def execFms (p : Pfx) (f : F3) (s : State) : Answer := s.fp3 p f fun rm a b d => (a.mul b).add rm d.neg

/-- FNMA (R117). -/
def execFnma (p : Pfx) (f : F3) (s : State) : Answer := s.fp3 p f fun rm a b d => (a.mul b).neg.add rm d

/-- FSQRT (R118): marks d empty. -/
def execFsqrt (p : Pfx) (f : F3A) (s : State) : Answer :=
  let a : Src := .reg f.a 1 f.ta .f32
  s.long p (groupSize p) [a] f.d 1 fun c t => [c.round32 ((c.f32 (c.val a t)).sqrt 24)]

/-- ⌊n / d⌋ or the next integer, to nearest even (R119). -/
def nearest (n d : Nat) : Nat :=
  n / d + (if 2 * (n % d) > d || (2 * (n % d) == d && n / d % 2 == 1) then 1 else 0)

/-- The approximation of 1/a (R119). -/
def rcpApprox (x : FVal) : FVal :=
  match x with
  | .nan => .nan
  | .inf n => .fin n 0 0
  | .fin n m e =>
    if m == 0 then .inf n
    else
      let l := bitLen m - 1
      let i := m * 128 / 2 ^ l - 128
      -- 512 / (1 + (i + 0.5) / 128) = 131072 / (2i + 257)
      .fin n (nearest 131072 (2 * i + 257)) (-9 - (e + l))

/-- FRCPA (R119). -/
def execFrcpa (p : Pfx) (f : F3A) (s : State) : Answer :=
  let a : Src := .reg f.a 1 f.ta .f32
  s.alu p (groupSize p) [a] f.d fun c t =>
    let v := rcpApprox (c.f32 (c.val a t))
    let z := Fmt.f32.round .rz c.ftz false v
    -- a magnitude above the largest finite value gives infinity (R119)
    let big := match v with | .fin _ m e => m != 0 && e + bitLen m > 128 | _ => false
    w32 (if big then Fmt.f32.round .rz false false (match v with | .fin n _ _ => .inf n | x => x) else z)

/-- The approximation of 1/√a (R120). -/
def rsqApprox (x : FVal) : FVal :=
  match x with
  | .nan => .nan
  | .inf n => if n then .nan else .fin false 0 0
  | .fin n m e =>
    if m == 0 then .inf n
    else if n then .nan
    else
      let l := bitLen m - 1
      let top := e + l
      let k := top / 2
      -- y = m × 2^(e − 2k), from 1 to below 4
      let y32 := if top % 2 == 0 then m * 32 / 2 ^ l else m * 64 / 2 ^ l
      let i := y32 - 32
      -- c = (i + 32.5) / 32 = (2i + 65) / 64
      .fin false (rsqHalf (2 * i + 65)) (-9 - k)
where
  /-- RoundRN(512 / √(h / 64)) = RoundRN(√(2^24 / h)). -/
  rsqHalf (h : Nat) : Nat := (isqrt (4 * 2 ^ 24 / h) + 1) / 2

/-- FRSQA (R120). -/
def execFrsqa (p : Pfx) (f : F3A) (s : State) : Answer :=
  let a : Src := .reg f.a 1 f.ta .f32
  s.alu p (groupSize p) [a] f.d fun c t => w32 (Fmt.f32.round .rn c.ftz false (rsqApprox (c.f32 (c.val a t))))

/-- FCMPEQ (R121). -/
def execFcmpeq (p : Pfx) (f : FCmp) (s : State) : Answer := s.fcmp p f fun c => c == some 0

/-- FCMPNE (R121). -/
def execFcmpne (p : Pfx) (f : FCmp) (s : State) : Answer := s.fcmp p f fun c => c != some 0

/-- FCMPLT (R121). -/
def execFcmplt (p : Pfx) (f : FCmp) (s : State) : Answer := s.fcmp p f fun c => match c with | some d => d < 0 | none => false

/-- FCMPLE (R121). -/
def execFcmple (p : Pfx) (f : FCmp) (s : State) : Answer := s.fcmp p f fun c => match c with | some d => d ≤ 0 | none => false

/-- FCMPUN (R121). -/
def execFcmpun (p : Pfx) (f : FCmp) (s : State) : Answer := s.fcmp p f fun c => c.isNone

/-- FCLASS (R122). A constant code is the FP32 constant, of which a narrower format reads the low bits (log 147). -/
def execFclass (p : Pfx) (f : F3A) (s : State) : Answer :=
  let a : Src := .reg f.a 1 f.ta .f32
  s.alu p (groupSize p) [a] f.d fun c t => w32 (fclassBits (fmtOf c.fmt) ((fmtOf c.fmt).low (c.val a t)))

/-- FTSTNF (R121). A constant code is read as FCLASS reads it (log 147). -/
def execFtstnf (p : Pfx) (f : FPF) (s : State) : Answer :=
  let a : Src := .reg f.a 1 f.ta .f32
  s.setp p (groupSize p) [a] [] f.p fun c t =>
    ((fmtOf c.fmt).decode false ((fmtOf c.fmt).low (c.val a t))).special

/-- FEXP2 (R123). -/
def execFexp2 (p : Pfx) (f : F3A) (s : State) : Answer := s.sfu p f FVal.exp2

/-- FLOG2 (R123). -/
def execFlog2 (p : Pfx) (f : F3A) (s : State) : Answer := s.sfu p f FVal.log2

/-- FSIN (R123). -/
def execFsin (p : Pfx) (f : F3A) (s : State) : Answer := s.sfu p f FVal.sin

/-- FCOS (R123). -/
def execFcos (p : Pfx) (f : F3A) (s : State) : Answer := s.sfu p f FVal.cos

/-- FTANH (R123). -/
def execFtanh (p : Pfx) (f : F3A) (s : State) : Answer := s.sfu p f FVal.tanh

/-- FSIGM (R123). -/
def execFsigm (p : Pfx) (f : F3A) (s : State) : Answer := s.sfu p f FVal.sigm

/-- A half result in a format: decode, operate, round once (R124). -/
def halfOp (fm : Fmt) (op : Rnd → FVal → FVal → FVal → FVal) (c : Ctx) (a b d : Nat) : Nat :=
  fm.round c.rnd c.ftz false (op c.rnd (fm.decode c.ftz a) (fm.decode c.ftz b) (fm.decode c.ftz d))

/-- PHADD (R124). -/
def execPhadd (p : Pfx) (f : F3) (s : State) : Answer := s.packed p f .f16 false (halfOp .f16 fun rm a b _ => a.add rm b)

/-- PHMUL (R124). -/
def execPhmul (p : Pfx) (f : F3) (s : State) : Answer := s.packed p f .f16 false (halfOp .f16 fun _ a b _ => a.mul b)

/-- PHFMA (R124). -/
def execPhfma (p : Pfx) (f : F3) (s : State) : Answer :=
  s.packed p f .f16 true (halfOp .f16 fun rm a b d => (a.mul b).add rm d)

/-- PHMAX (R124). -/
def execPhmax (p : Pfx) (f : F3) (s : State) : Answer := s.packed p f .f16 false fun c a b _ => Fmt.f16.pick c.ftz true a b

/-- PBADD (R124). -/
def execPbadd (p : Pfx) (f : F3) (s : State) : Answer := s.packed p f .bf16 false (halfOp .bf16 fun rm a b _ => a.add rm b)

/-- PBFMA (R124). -/
def execPbfma (p : Pfx) (f : F3) (s : State) : Answer :=
  s.packed p f .bf16 true (halfOp .bf16 fun rm a b d => (a.mul b).add rm d)

/-- Without the FP64 path every active slot raises unit-absent, or the smaller cause of its operands, before any operand is waited for
(R2, R33, R175). -/
def State.needsF64 (s : State) (p : Pfx) (r : Req) (k : Ctx → State → State) : Answer :=
  if s.cap 3 then .next (s.run p (groupSize p) r k)
  else .next (s.run p (groupSize p) {} fun c s =>
    s.judged c false (maskSlots c.act) (fun t => SlotCause.min (c.slotCause r t) { code := 0x02 }) fun _ s => s.stall)

/-- An FP64 operand. -/
def Ctx.f64 (c : Ctx) (x : DWord) : FVal := Fmt.f64.decode c.ftz x.toNat

/-- The words of an FP64 result. -/
def Ctx.round64 (c : Ctx) (v : FVal) : List Word :=
  let x : DWord := BitVec.ofNat 64 (Fmt.f64.round c.rnd c.ftz false v)
  [loWord x, hiWord x]

/-- An FP64 instruction (R125). -/
def State.fp64 (s : State) (p : Pfx) (f : F3) (third : Bool) (op : Rnd → FVal → FVal → FVal → FVal) : Answer :=
  let a : Src := .reg f.a 2 f.ta .int
  let b : Src := .reg f.b 2 f.tb .int
  let d : Src := .reg f.d 2 false .int
  s.needsF64 p { srcs := if third then [a, b, d] else [a, b], dsts := [(f.d, 2)] } fun c s =>
    s.finish c f.d 2 fun t =>
      c.round64 (op c.rnd (c.f64 (c.val64 a t)) (c.f64 (c.val64 b t)) (if third then c.f64 (c.val64 d t) else .nan))

/-- F64ADD (R125). -/
def execF64add (p : Pfx) (f : F3) (s : State) : Answer := s.fp64 p f false fun rm a b _ => a.add rm b

/-- F64SUB (R125). -/
def execF64sub (p : Pfx) (f : F3) (s : State) : Answer := s.fp64 p f false fun rm a b _ => a.add rm b.neg

/-- F64MUL (R125). -/
def execF64mul (p : Pfx) (f : F3) (s : State) : Answer := s.fp64 p f false fun _ a b _ => a.mul b

/-- F64FMA (R125). -/
def execF64fma (p : Pfx) (f : F3) (s : State) : Answer := s.fp64 p f true fun rm a b d => (a.mul b).add rm d

/-- F64DIV (R125): marks both registers empty. -/
def execF64div (p : Pfx) (f : F3) (s : State) : Answer :=
  let a : Src := .reg f.a 2 f.ta .int
  let b : Src := .reg f.b 2 f.tb .int
  s.needsF64 p { srcs := [a, b], dsts := [(f.d, 2)] } fun c s =>
    s.produce c .long (c.writes f.d 2 fun t => c.round64 ((c.f64 (c.val64 a t)).div 53 (c.f64 (c.val64 b t))))

/-- An n-bit number read as signed or unsigned. -/
def signedOf (x n : Nat) (signed : Bool) : Int := if signed && x ≥ 2 ^ (n - 1) then (x : Int) - 2 ^ n else x

/-- FP32 to an integer format (R126). -/
def cvtToInt (c : Ctx) (x : Word) : Word :=
  let (n, sg) := ifmtOf c.fmt
  let lo : Int := if sg then -(2 ^ (n - 1)) else 0
  let hi : Int := if sg then 2 ^ (n - 1) - 1 else 2 ^ n - 1
  match c.f32 x with
  | .nan => 0
  | .inf neg => BitVec.ofInt 32 (if neg then lo else hi)
  | v => BitVec.ofInt 32 (satInt (v.toInt c.rnd) lo hi)

/-- CVTFI (R126). -/
def execCvtfi (p : Pfx) (f : F3A) (s : State) : Answer :=
  let a : Src := .reg f.a 1 f.ta .f32
  s.alu p (groupSize p) [a] f.d fun c t => cvtToInt c (c.val a t)

/-- CVTIF (R126). -/
def execCvtif (p : Pfx) (f : F3A) (s : State) : Answer :=
  let a := immOr p p.immS f.a f.ta .int
  s.alu p (groupSize p) [a] f.d fun c t =>
    let (n, sg) := ifmtOf c.fmt
    c.round32 (FVal.ofInt (signedOf ((c.val a t).toNat % 2 ^ n) n sg))

/-- FP32 to a half format in bits 15:0 (R126). -/
def State.cvtHalf (s : State) (p : Pfx) (f : F3A) (fm : Fmt) : Answer :=
  let a : Src := .reg f.a 1 f.ta .f32
  s.alu p (groupSize p) [a] f.d fun c t => w32 (fm.round c.rnd c.ftz c.sat (c.f32 (c.val a t)))

/-- CVTFH (R126). -/
def execCvtfh (p : Pfx) (f : F3A) (s : State) : Answer := s.cvtHalf p f .f16

/-- CVTFB (R126). -/
def execCvtfb (p : Pfx) (f : F3A) (s : State) : Answer := s.cvtHalf p f .bf16

/-- CVTHF (R126): a constant code is the FP16 constant (log 15). -/
def execCvthf (p : Pfx) (f : F3A) (s : State) : Answer :=
  let a : Src := .reg f.a 1 f.ta .f16
  s.alu p (groupSize p) [a] f.d fun c t =>
    w32 (Fmt.f32.round .rn c.ftz false (Fmt.f16.decode c.ftz ((c.val a t).toNat % 65536)))

/-- CVTFD (R126): needs the FP64 path. -/
def execCvtfd (p : Pfx) (f : F3A) (s : State) : Answer :=
  let a : Src := .reg f.a 1 f.ta .f32
  s.needsF64 p { srcs := [a], dsts := [(f.d, 2)] } fun c s => s.finish c f.d 2 fun t => c.round64 (c.f32 (c.val a t))

/-- CVTDF (R126): needs the FP64 path. -/
def execCvtdf (p : Pfx) (f : F3A) (s : State) : Answer :=
  let a : Src := .reg f.a 2 f.ta .int
  s.needsF64 p { srcs := [a], dsts := [(f.d, 1)] } fun c s =>
    s.finish c f.d 1 fun t => [c.round32 (c.f64 (c.val64 a t))]

/-- SA in force: unsigned without SGNEN (R91, R127). -/
def Ctx.elemSigned (c : Ctx) : Bool := match c.pfx.mod with | some m => m.sgnen && m.sa | none => false

/-- GRP of a prefix as a group size. -/
def groupOf (p : Pfx) : Nat := match p.mod with | some m => if m.grp == 2 then 64 else if m.grp == 3 then 128 else 32 | none => 32

/-- The slot whose S operand holds the scale of a slot's element (R103); `nib` for 4-bit elements. -/
def scaleSlot (nib : Bool) (g : Nat) (bsel : BitVec 2) (t : Fin 32) : Fin 32 :=
  Fin.ofNat 32 ((if nib then 8 * t.val + 2 * bsel.toNat else 4 * t.val + bsel.toNat) / g)

/-- ZP of a scale word (R102). -/
def zeroPoint (w : Word) (signed : Bool) : Int :=
  let z := w.toNat / 65536 % 256
  if signed && z ≥ 128 then (z : Int) - 256 else z

/-- SCALE of a scale word (R102). -/
def scaleVal (w : Word) : FVal := Fmt.f16.decode false (w.toNat % 65536)

/-- E8M0 of a scale word. -/
def e8m0 (w : Word) : Nat := w.toNat % 256

/-- Byte b of a word. -/
def byteOf (w : Word) (b : BitVec 2) : Nat := w.toNat / 2 ^ (8 * b.toNat) % 256

/-- A word with byte b replaced. -/
def putByte (w : Word) (b : BitVec 2) (x : Nat) : Word :=
  w32 (w.toNat - byteOf w b * 2 ^ (8 * b.toNat) + x % 256 * 2 ^ (8 * b.toNat))

/-- (q − z) × s exactly (R128); a product of zero has the sign of the scale (log 148). -/
def unpackInt (q z : Int) (w : Word) : FVal := (FVal.ofInt (q - z)).mul (scaleVal w)

/-- x × 2^(k − 127), NaN for k = 0xFF (R128). -/
def unpackF8 (fm : Fmt) (x k : Nat) : FVal := if k == 0xFF then .nan else (fm.decode false x).scale ((k : Int) - 127)

/-- UNPE4 and UNPE5 (R128). -/
def State.unpe (s : State) (p : Pfx) (f : FQ) (fm : Fmt) : Answer :=
  let a : Src := .reg f.a 1 false .int
  let sc : Src := .at_ f.s (scaleSlot false 32 f.bsel)
  s.alu p (groupSize p) [a, sc] f.d fun c t =>
    w32 (Fmt.f32.round .rn false false (unpackF8 fm (byteOf (c.val a t) f.bsel) (e8m0 (c.val sc t))))

/-- UNPE4 (R128). -/
def execUnpe4 (p : Pfx) (f : FQ) (s : State) : Answer := s.unpe p f .e4

/-- UNPE5 (R128). -/
def execUnpe5 (p : Pfx) (f : FQ) (s : State) : Answer := s.unpe p f .e5

/-- UNPI8 (R128). -/
def execUnpi8 (p : Pfx) (f : FQ) (s : State) : Answer :=
  let a : Src := .reg f.a 1 false .int
  let sc : Src := .at_ f.s (scaleSlot false (groupOf p) f.bsel)
  s.alu p (groupSize p) [a, sc] f.d fun c t =>
    c.round32 (unpackInt (signedOf (byteOf (c.val a t) f.bsel) 8 c.elemSigned) (zeroPoint (c.val sc t) c.elemSigned) (c.val sc t))

/-- UNPI4 (R128): the two nibbles of a byte lie in one group. -/
def execUnpi4 (p : Pfx) (f : FQ) (s : State) : Answer :=
  let a : Src := .reg f.a 1 false .int
  let sc : Src := .at_ f.s (scaleSlot true (groupOf p) f.bsel)
  .next (s.run p (groupSize p) { srcs := [a, sc], dsts := [(f.d, 2)] } fun c s =>
    s.finish c f.d 2 fun t =>
      let nib (n : Nat) : Word :=
        c.round32 (unpackInt (signedOf (byteOf (c.val a t) f.bsel / 16 ^ n % 16) 4 c.elemSigned)
          (zeroPoint (c.val sc t) c.elemSigned) (c.val sc t))
      [nib 0, nib 1])

/-- PKE4 and PKE5 (R129). -/
def State.pke (s : State) (p : Pfx) (f : FQ) (fm : Fmt) : Answer :=
  let a : Src := .reg f.a 1 false .f32
  let sc : Src := .at_ f.s (scaleSlot false 32 f.bsel)
  let d : Src := .reg f.d 1 false .int
  s.alu p (groupSize p) [a, sc, d] f.d fun c t =>
    let k := e8m0 (c.val sc t)
    let y := if k == 0xFF then FVal.nan else (Fmt.f32.decode false (c.val a t).toNat).scale (127 - (k : Int))
    putByte (c.val d t) f.bsel (fm.round c.rnd false c.sat y)

/-- PKE4 (R129). -/
def execPke4 (p : Pfx) (f : FQ) (s : State) : Answer := s.pke p f .e4

/-- PKE5 (R129). -/
def execPke5 (p : Pfx) (f : FQ) (s : State) : Answer := s.pke p f .e5

/-- A quantised element (R129). -/
def packInt (rm : Rnd) (x : FVal) (w : Word) (z lo hi : Int) : Int :=
  match x.div 64 (scaleVal w) with
  | .nan => z
  | .inf n => if n then lo else hi
  | v => satInt (v.toInt rm + z) lo hi

/-- PKI8 (R129). -/
def execPki8 (p : Pfx) (f : FQ) (s : State) : Answer :=
  let a : Src := .reg f.a 1 false .f32
  let sc : Src := .at_ f.s (scaleSlot false (groupOf p) f.bsel)
  let d : Src := .reg f.d 1 false .int
  s.alu p (groupSize p) [a, sc, d] f.d fun c t =>
    let (lo, hi) : Int × Int := if c.elemSigned then (-128, 127) else (0, 255)
    let v := packInt c.rnd (Fmt.f32.decode false (c.val a t).toNat) (c.val sc t) (zeroPoint (c.val sc t) c.elemSigned) lo hi
    putByte (c.val d t) f.bsel (v % 256).toNat

/-- PKI4 (R129). -/
def execPki4 (p : Pfx) (f : FQ) (s : State) : Answer :=
  let a : Src := .reg f.a 2 false .f32
  let sc : Src := .at_ f.s (scaleSlot true (groupOf p) f.bsel)
  let d : Src := .reg f.d 1 false .int
  s.alu p (groupSize p) [a, sc, d] f.d fun c t =>
    let (lo, hi) : Int × Int := if c.elemSigned then (-8, 7) else (0, 15)
    let v (n : Nat) : Nat :=
      (packInt c.rnd (Fmt.f32.decode false ((c.words a t).getD n 0).toNat) (c.val sc t)
        (zeroPoint (c.val sc t) c.elemSigned) lo hi % 16).toNat
    putByte (c.val d t) f.bsel (v 1 * 16 + v 0)

end Sys2Proof.Machine
end

