-- ==== Sys2Proof/Machine/Kv.lean ====
section
/-!
DEFINITION. Machine/Kv.lean: major 25: KV descriptors, pages, loading and appending (R290 to R305), online softmax (R306,
R307), constraint tables, VERIFY and SAMPLE (R308 to R315).
-/

namespace Sys2Proof.Machine

/-- A little-endian number of n bytes at an offset. -/
def numAt (bs : List Byte) (o n : Nat) : Nat := leNat ((bs.drop o).take n)

/-- A KV descriptor (R290). -/
structure KvDesc where
  seqid : Nat
  flags : Nat
  hdim : Nat
  sink : Nat
  window : Nat
  sinkBase : Nat
  winBase : Nat
  lstride : Nat
  hstride : Nat
  voff : Nat
  layers : Nat
  heads : Nat
  len : Nat
  ver : Nat
  approxCnt : Nat
  /-- the reserved fields are 0 -/
  clean : Bool
  deriving DecidableEq, Repr

/-- The descriptor that 128 bytes hold (R290). -/
def KvDesc.of (bs : List Byte) : KvDesc :=
  { seqid := numAt bs 0 4, flags := numAt bs 4 2, hdim := numAt bs 6 2, sink := numAt bs 8 4, window := numAt bs 0xC 4,
    sinkBase := numAt bs 0x10 8, winBase := numAt bs 0x18 8, lstride := numAt bs 0x20 8, hstride := numAt bs 0x28 8,
    voff := numAt bs 0x30 8, layers := numAt bs 0x38 2, heads := numAt bs 0x3A 2, len := numAt bs 0x3C 4,
    ver := numAt bs 0x40 2, approxCnt := numAt bs 0x44 4
    clean := numAt bs 0x42 2 == 0 && (bs.drop 0x48).all (· == 0) }

/-- FMT (R290). -/
def KvDesc.fmt (d : KvDesc) : Nat := d.flags % 4

/-- A descriptor is valid (R291). -/
def KvDesc.valid (d : KvDesc) : Bool :=
  d.fmt != 3 && d.flags < 8 && d.hdim % 32 == 0 && 32 ≤ d.hdim && d.hdim ≤ 256 && d.sink ≤ 4096 && d.window % 16 == 0 &&
    16 ≤ d.window && d.window ≤ 1048576 && d.sinkBase % 65536 == 0 && d.winBase % 65536 == 0 && d.lstride % 65536 == 0 &&
    d.hstride % 65536 == 0 && d.voff % 65536 == 0 && 1 ≤ d.layers && 1 ≤ d.heads && d.heads ≤ 16383 && d.clean

/-- The slot and expected generation of a position (R292). -/
def KvDesc.place (d : KvDesc) (p : Nat) : Nat × Nat :=
  if p < d.sink then (p, 0) else (d.sink + (p - d.sink) % d.window, (p - d.sink) / d.window)

/-- Bytes of a row's payload (R293). -/
def KvDesc.payload (d : KvDesc) : Nat :=
  match d.fmt with
  | 0 => 2 * d.hdim
  | 1 => d.hdim
  | _ => d.hdim / 2 + d.hdim / 32 * 4

/-- ROWB (R293). -/
def KvDesc.rowb (d : KvDesc) : Nat := (16 + d.payload + 15) / 16 * 16

/-- LAYER, HEAD and V of a selector word (R299). -/
def selLayer (w : Word) : Nat := w.toNat % 65536
def selHead (w : Word) : Nat := w.toNat / 65536 % 16384
def selV (w : Word) : Nat := w.toNat / 2 ^ 30 % 2

/-- The selector fits the descriptor (R300, R304). -/
def KvDesc.selects (d : KvDesc) (w : Word) : Bool :=
  w.toNat < 2 ^ 31 && selLayer w < d.layers && selHead w < d.heads

/-- The address of a position's row (R293). -/
def KvDesc.row (d : KvDesc) (sel : Word) (p : Nat) : DWord :=
  let slot := (d.place p).1
  let r := if p < d.sink then slot else slot - d.sink
  let base := if p < d.sink then d.sinkBase else d.winBase
  let rpp := 65472 / d.rowb
  BitVec.ofNat 64
    (base + selLayer sel * d.lstride + selHead sel * d.hstride + selV sel * d.voff + r / rpp * 65536 + r % rpp * d.rowb)

/-- The tag word of a live row of a generation (R293). -/
def rowTagWord (g : Nat) : Nat := 0x80000000 + g

/-- Element k of a row's payload as the BF16 bits of the tile (R293, R300). -/
def KvDesc.element (d : KvDesc) (pay : List Byte) (k : Nat) : Nat :=
  match d.fmt with
  | 0 => numAt pay (2 * k) 2
  | 1 => Fmt.bf16.round .rn false false (Fmt.e4.decode false (numAt pay k 1))
  | _ =>
    let signed := d.flags / 4 % 2 == 1
    let nib := numAt pay (k / 2) 1 / 16 ^ (k % 2) % 16
    let w := w32 (numAt pay (d.hdim / 2 + k / 32 * 4) 4)
    let q : Int := if signed && nib ≥ 8 then (nib : Int) - 16 else nib
    Fmt.bf16.round .rn false false (unpackInt q (zeroPoint w signed) w)

/-- The elements of a row. -/
def KvDesc.decodeRow (d : KvDesc) (pay : List Byte) : List Nat := (List.range d.hdim).map (d.element pay)

/-- BF16 bits that are NaN or ±∞. -/
def nonFinite (x : Nat) : Bool := x / 128 % 256 == 255

/-- The leaf that an address would use is absent: its tables are there and its own entry has V = 0 (R301). -/
def State.leafAbsent (s : State) (cx : Context) (ver : Nat) (va : DWord) : Bool :=
  let a0 := va.toNat
  let a := if a0 / 2 ^ 56 == 1 && s.cap 0 && a0 / 2 ^ 52 % 16 == s.pkg.fabno.toNat then a0 % 2 ^ 52 else a0
  a / 2 ^ 56 == 0 && a / 2 ^ 48 != 0xF0 && (s.homeFor cx.id a).isNone && (s.allocFor cx ver a).isNone &&
    (let e2 := s.tableWord (cx.root + a / 2 ^ 38 % 2 ^ 18 * 8)
     pointerOk e2 &&
       (let e1 := s.tableWord (frameOf e2 * 65536 + a / 2 ^ 25 % 2 ^ 13 * 8)
        if e1.getLsbD 52 then !e1.getLsbD 0
        else pointerOk e1 && !(s.tableWord (frameOf e1 * 65536 + a / 2 ^ 16 % 2 ^ 9 * 8)).getLsbD 0))

/-- What KVLD finds of a page (R301). -/
inductive PageState where
  | absent
  | cause (e : EngCause)
  | quarantined
  /-- to be quarantined now, with its reason -/
  | spoiled (reason : Nat)
  | good
  deriving DecidableEq, Repr

/-- The row at an address as a command sees it, when it can be read. -/
def State.rowSeen (s : State) (cx : Context) (k : Cmd) (va : DWord) (n : Nat) : List Byte :=
  match s.engResolve cx k .read va with
  | .ok (.peer ..) _ => []
  | .ok l _ => s.seen (k.keys cx) l n
  | _ => []

/-- A wanted position of a KVLD: its place in the tile, the position, its row's address. -/
structure Want where
  i : Nat
  p : Nat
  row : DWord
  deriving DecidableEq, Repr

/-- The payload of a position that is live (R292), none when the row's tag is another's. -/
def State.livePayload (s : State) (cx : Context) (k : Cmd) (d : KvDesc) (w : Want) : Option (List Byte) :=
  let bs := s.rowSeen cx k w.row d.rowb
  if !bs.isEmpty && numAt bs 0 4 == rowTagWord (d.place w.p).2 then some ((bs.drop 16).take d.payload) else none

/-- The page of an address. -/
def pageOf (va : DWord) : Nat := va.toNat / 65536

/-- The place and attributes of a KV page of a command, or what stands against it (R301); `j` numbers the page among the
free choices of whether the hub L2 holds it still (R296). -/
def State.pageState (s : State) (cx : Context) (k : Cmd) (d : KvDesc) (ws : List Want) (j pg : Nat) : PageState :=
  let va := BitVec.ofNat 64 (pg * 65536)
  if s.leafAbsent cx k.ver va then .absent
  else match s.engResolve cx k .read va with
    | .fault code => .cause { code := code, addr := va }
    | .wait => .cause { code := 0x08, addr := va }
    | .ok l a =>
      if !a.kv then .cause { code := 0x08, addr := va }
      else
        let keys := k.keys cx
        let l := l.page
        if (s.byteSeen keys (l.add 65480)).getLsbD 0 then .quarantined
        else if !(s.promoted.contains (l.off / 65536, VKey.here k.ctx k.ver) && Config.freeBit (s.tick * 65536 + j)) &&
            crc64 (s.seen keys l 65472) != leNat (s.seen keys (l.add 65472) 8) then .spoiled 2
        else if ws.any fun w => pageOf w.row == pg && (match s.livePayload cx k d w with
            | some pay => (d.decodeRow pay).any nonFinite
            | none => false) then .spoiled 1
        else .good

/-- Whether the device may update a descriptor word in the command's version; none while a peer that holds it has not answered
(R291). -/
def State.descMay (s : State) (cx : Context) (k : Cmd) (va : DWord) : Option Bool :=
  match s.engResolve cx k .engineWrite va with
  | .ok (.peer ..) _ => k.may
  | .ok l a => some (!s.lineFull cx (k.keys cx) l a)
  | .wait => none
  | .fault _ => some false

/-- Go on once it is known whether a descriptor word may be updated: a peer that holds it is asked (R291). -/
def State.withDesc (s : State) (cx : Context) (k : Cmd) (va : DWord) (go : Bool → State → State) : State :=
  match s.descMay cx k va with
  | some b => go b s
  | none =>
    match s.engResolve cx k .engineWrite va with
    | .ok (.peer p a) _ =>
      if !k.tags.isEmpty then s
      else
        let (tag, s) := s.fabSend cx k.ver k.owner p a va (.check 4 false true) (.desc k.id)
        s.modCmd k.id fun x => { x with tags := x.tags ++ [tag] }
    | _ => s

/-- Update a descriptor word in one indivisible step (R291, R305): in place by a function of what it holds, at a peer by an
atomic. -/
def State.descUpdate (s : State) (cx : Context) (k : Cmd) (va : DWord) (f : Nat → Nat) (far : FabOp) : State × List Nat :=
  match s.engResolve cx k .engineWrite va with
  | .ok (.peer p a) _ =>
    let (tag, s) := s.fabSend cx k.ver k.owner p a va far (.cmd k.id false)
    (s.willSend cx.id k.launch none (some k.id) va (.peer p a) tag, [tag])
  | .ok l a => (s.engineUpdate k (k.keys cx) a va l (leBytes 4 (f (leNat (s.seen (k.keys cx) l 4)))) true, [])
  | _ => (s, [])

/-- Set a bit of a context's APPROX (R303). -/
def State.setApprox (s : State) (ctx : Nat) (bits : BitVec 4) : State :=
  if bits == 0 then s else s.modCtx ctx fun c => { c with approx := c.approx ||| bits }

/-- The record of a page (R301). -/
def pageRecord (d : KvDesc) (sel : Word) (cause pg : Nat) (info : Bool) (ps : List Nat) : Record :=
  let lo := ps.foldl Nat.min (ps.headD 0)
  let hi := ps.foldl Nat.max 0
  { cause := cause, info := info, addr := BitVec.ofNat 64 (pg * 65536)
    d0 := BitVec.ofNat 64 (d.seqid + selLayer sel * 2 ^ 32 + selHead sel * 2 ^ 48)
    d1 := BitVec.ofNat 64 (pg % 2 ^ 32 + lo % 65536 * 2 ^ 32 + hi % 65536 * 2 ^ 48) }

/-- What KVLD does about a page: its record, APPROX, APPROXCNT and the quarantine (R301, R302). The second part of the answer
counts absent pages. -/
def State.pageEffect (s : State) (cx : Context) (k : Cmd) (d : KvDesc) (sel : Word) (ws : List Want) (x : Nat × PageState) :
    State :=
  let ps := (ws.filter fun w => pageOf w.row == x.1).map (·.p)
  match x.2 with
  | .absent => (s.cmdRecord k (pageRecord d sel 0x0F x.1 true ps)).setApprox k.ctx 4
  | .quarantined => s.setApprox k.ctx 8
  | .spoiled reason =>
    let s := match s.engResolve cx k .read (BitVec.ofNat 64 (x.1 * 65536)) with
      | .ok l a =>
        s.engineUpdate k (k.keys cx) a (BitVec.ofNat 64 (x.1 * 65536 + 65480)) (l.page.add 65480) [BitVec.ofNat 8 (1 + 2 * reason)] false
      | _ => s
    (s.cmdRecord k (pageRecord d sel (if reason == 1 then 0x0D else 0x0E) x.1 false ps)).setApprox k.ctx 8
  | .good =>
    (match s.engResolve cx k .read (BitVec.ofNat 64 (x.1 * 65536)) with
     | .ok l _ =>
       let e := (l.off / 65536, VKey.here k.ctx k.ver)
       if s.promoted.contains e then s else { s with promoted := s.promoted ++ [e] }
     | _ => s)
  | .cause _ => s

/-- KVMAP (R298). -/
def execKvmap (p : Pfx) (f : F3) (s : State) : Answer :=
  let a : Src := .reg f.a 2 f.ta .int
  let b := immOr p p.immU f.b f.tb .int
  .next (s.run p (groupSize p) { srcs := [a, b], dsts := [(f.d, 1)], own := fun c s t => s.noFabric (c.val64 a t) } fun c s =>
    s.peeks c false (fun t => [(c.val64 a t, 128)]) (fun t => alignedOr ((c.val64 a t).toNat % 128 == 0) (c.val64 a t))
      fun c bytes s =>
        (s.unpull c).finish c f.d 1 fun t =>
          let d := KvDesc.of (bytes t)
          let pos := (c.val b t).toNat
          [if !d.valid then 0xFFFFFFFE#32 else if d.len ≤ pos then 0xFFFFFFFF#32 else w32 (d.place pos).1])

/-- FMT as a descriptor's FLAGS show it at issue, where it can be seen. -/
def State.fmtSeen (s : State) (c : Ctx) (desc : DWord) : Nat :=
  match s.peek c (desc + 4) 2 with
  | .bytes bs => leNat bs % 4
  | _ => 0

/-- Issue a KVLD or KVST: the block, the descriptor and the position are captured (R299). -/
def State.kvCommand (s : State) (p : Pfx) (f : F3) (align : Nat) (flags : Bool) (op : DWord → DWord → Word → Word → CmdOp) :
    Answer :=
  let a : Src := .reg f.a 2 f.ta .int
  let b := immOr p p.immU f.b f.tb .int
  let blk := blockSrcs (f.d + 1) 3 false
  let word (c : Ctx) (i : Nat) : Word := (blk[i]?.map fun x => c.val x c.low).getD 0
  let look (s : State) : Bool := flags && !s.cap 4
  let check (c : Ctx) (s : State) : Option SlotCause :=
    let desc := c.val64 a c.low
    let tile := dword (word c 0) (word c 1)
    smallest
      [s.noFabric desc, s.noFabric tile, alignedOr (desc.toNat % 128 == 0) desc, alignedOr (tile.toNat % align == 0) tile,
        if look s && (s.fmtSeen c desc == 1 || s.fmtSeen c desc == 2) then some { code := 0x02, addr := desc } else none]
  .next (s.run p (groupSize p) { srcs := a :: b :: blk, dsts := [(f.d, 1)], once := true, own := fun c s _ => check c s } fun c s =>
    let desc := c.val64 a c.low
    let tile := dword (word c 0) (word c 1)
    s.peeks c true (fun _ => if look s then [(desc + 4, 2)] else []) (fun _ => check c s)
      fun c _ s => ((s.unpull c).newCmd c (op desc tile (c.val b c.low) (word c 2)) (c.tokenReg f.d) true).retire c)

/-- KVLD (R299, R300). -/
def execKvld (p : Pfx) (f : F3) (s : State) : Answer := s.kvCommand p f 64 true .kvld

/-- KVST (R299, R304). -/
def execKvst (p : Pfx) (f : F3) (s : State) : Answer := s.kvCommand p f 16 false .kvst

/-- The wanted positions of a KVLD (R300). -/
def KvDesc.wanted (d : KvDesc) (sel pos : Word) : List Want :=
  ((List.range 16).map fun i =>
    let p := (pos.toNat + i) % 2 ^ 32
    { i := i, p := p, row := d.row sel p : Want }).filter fun w => w.p < d.len

/-- Insert a number into a rising list, once. -/
def insertNat (n : Nat) : List Nat → List Nat
  | [] => [n]
  | x :: xs => if n < x then n :: x :: xs else if n == x then x :: xs else x :: insertNat n xs

/-- The pages of wanted positions, ascending. -/
def wantedPages (ws : List Want) : List Nat := ws.foldr (fun w ps => insertNat (pageOf w.row) ps) []

/-- The smallest cause among pages. -/
def pagesCause (ps : List (Nat × PageState)) : Option EngCause :=
  ps.foldl (fun r x => match x.2 with | .cause e => EngCause.min r e | _ => r) none

/-- What a KVLD that may go on leaves: the pages' effects, APPROXCNT under `counts`, the tile and its tags, the mask (R300, R301). -/
def State.kvldTile (s : State) (cx : Context) (k : Cmd) (d : KvDesc) (desc tile : DWord) (sel : Word) (ws : List Want)
    (found : List (Nat × PageState)) (counts : Bool) : State :=
  let size := 2 * d.hdim
  let rows : List (Option (List Nat)) := (List.range 16).map fun i =>
    match ws.find? fun w => w.i == i && found.contains (pageOf w.row, .good) with
    | some w => (s.livePayload cx k d w).map d.decodeRow
    | none => none
  let bytes := rows.flatMap fun r => match r with
    | some es => es.flatMap (leBytes 2)
    | none => List.replicate size 0
  let mask := (List.range 16).foldl (fun m i => if (rows.getD i none).isSome then m + 2 ^ i else m) 0
  let s := found.foldl (fun s x => s.pageEffect cx k d sel ws x) s
  let gone := (found.filter fun x => x.2 == .absent).length
  let (s, ts) :=
    if counts then
      s.descUpdate cx k (desc + 0x44) (fun n => Nat.min (n + gone) 0xFFFFFFFF)
        (if d.approxCnt + gone < 2 ^ 32 then .atomic 0 (w32 gone) 0 true else .atomic 2 0xFFFFFFFF#32 0 true)
    else (s, [])
  let (s, us) := s.pushAll cx k [(tile, bytes)] false
  let whole := (List.range (16 * size / 1024 + 1)).map fun i => BitVec.ofNat 64 ((tile.toNat / 1024 + i) * 1024)
  let whole := whole.filter fun ln => tile.toNat ≤ ln.toNat && ln.toNat + 1024 ≤ tile.toNat + 16 * size
  (whole.foldl (fun s ln => s.setLineTag cx k ln 0) s).finishCmd k (ts ++ us) (w32 mask)

/-- What a valid KVLD does once its descriptor is read (R300, R301); an APPROXCNT update that it may not make is skipped (R291). -/
def State.kvldRun (s : State) (cx : Context) (k : Cmd) (d : KvDesc) (desc tile : DWord) (pos sel : Word) : State :=
  let ws := d.wanted sel pos
  let pages := wantedPages ws
  let found := ((List.range pages.length).zip pages).map fun (j, pg) => (pg, s.pageState cx k d ws j pg)
  s.engine cx k [] [(tile, 32 * d.hdim)] (pagesCause found) fun _ s =>
    if found.any fun x => x.2 == .absent then
      s.withDesc cx k (desc + 0x44) fun may s => s.kvldTile cx k d desc tile sel ws found may
    else s.kvldTile cx k d desc tile sel ws found false

/-- KVLD_COMPLETE (R300 to R302). -/
def execKvldComplete (s : State) : Answer :=
  s.engineStep (fun op => match op with | .kvld .. => true | _ => false) fun k cx =>
    match k.op with
    | .kvld desc tile pos sel =>
      s.engine cx k [{ va := desc, n := 128 }] [] none fun data s =>
        let d := KvDesc.of (data.headD [])
        if !d.valid || !d.selects sel then s.finishCmd k [] 0x80000400#32
        else s.kvldRun cx k d desc tile pos sel
    | _ => s

/-- What a valid KVST that may go on does to its row's page, whose cause is none (R304). -/
def State.kvstRun (s : State) (cx : Context) (k : Cmd) (d : KvDesc) (desc src : DWord) (p : Nat) (row : DWord) (l : Loc)
    (a : Attr) : State :=
  let keys := k.keys cx
  let g := (d.place p).2
  let tag := leNat (s.seen keys l 4)
  if (s.byteSeen keys (l.page.add 65480)).getLsbD 0 then s.finishCmd k [] 0x80000500#32
  else if 0x80000000 ≤ tag && g < tag - 0x80000000 then s.finishCmd k [] 0x80000200#32
  else
    s.engine cx k [{ va := src, n := d.rowb - 16 }] [(row, d.rowb)] none fun data s =>
      let pay := ((data.headD []).take d.payload) ++ List.replicate (d.rowb - 16 - d.payload) 0
      let s := s.engineUpdate k keys a row l (leBytes 4 (rowTagWord g) ++ List.replicate 12 0 ++ pay) true
      let s := s.sealPage k keys a row l.page false
      let len := Nat.min (p + 1) 0xFFFFFFFF
      let (s, ts) := s.descUpdate cx k (desc + 0x3C) (fun n => Nat.max n len) (.atomic 2 (w32 len) 0 true)
      s.finishCmd k ts (w32 d.rowb)

/-- KVST_COMPLETE (R304, R305). -/
def execKvstComplete (s : State) : Answer :=
  s.engineStep (fun op => match op with | .kvst .. => true | _ => false) fun k cx =>
    match k.op with
    | .kvst desc src pos sel =>
      s.engine cx k [{ va := desc, n := 128 }] [] none fun data s =>
        let d := KvDesc.of (data.headD [])
        let p := pos.toNat
        if !d.valid || !d.selects sel then s.finishCmd k [] 0x80000400#32
        else if d.ver != 0 && BitVec.ofNat 16 d.ver != cx.gid s.devNo k.ver then s.finishCmd k [] 0x80000300#32
        else if d.len < p then s.finishCmd k [] 0x80000200#32
        else
          let row := d.row sel p
          match s.engResolve cx k .read row with
          | .fault code => s.engineFault k { code := code, addr := row }
          | .wait => s
          | .ok l a =>
            if !a.kv then s.engineFault k { code := 0x08, addr := row }
            else if (a.check .engineWrite k.ver).isSome then s.engineFault k { code := 0x09, addr := row }
            else s.withDesc cx k (desc + 0x3C) fun may s =>
              if may then s.kvstRun cx k d desc src p row l a else s.engineFault k { code := 0x09, addr := desc }
    | _ => s

/-- An FP32 value. -/
def f32Of (w : Word) : FVal := Fmt.f32.decode false w.toNat

/-- Rounded to the nearest FP32 value, ties to even. -/
def f32Rn (v : FVal) : Word := w32 (Fmt.f32.round .rn false false v)

/-- −∞. -/
def negInf : Word := 0xFF800000#32

/-- One step of the online softmax: the new state m', l', α, w and the APPROX bits (R306). Which zero is kept of two of
unlike sign is open, and free. -/
def softmaxStep (pick : Bool) (a m l : Word) : List Word × BitVec 4 :=
  let nanS := f32Of a == .nan
  let infS := f32Of a == .inf false
  let nanM := f32Of m == .nan
  let s := if nanS then negInf else if infS then 0x7F7FFFFF#32 else a
  let m := if nanM then negInf else m
  let m' := match (f32Of m).cmp (f32Of s) with
    | some d => if d < 0 then s else if d == 0 && pick then s else m
    | none => m
  let same := (f32Of m).cmp (f32Of m') == some 0
  let al := if same then 0x3F800000#32 else if m == negInf then 0#32 else f32Rn (((f32Of m).add .rn (f32Of m').neg).exp2)
  let w := if s == negInf then 0#32 else f32Rn (((f32Of s).add .rn (f32Of m').neg).exp2)
  let l' := f32Rn (((f32Of l).mul (f32Of al)).add .rn (f32Of w))
  ([m', l', al, w], (if nanS || nanM then 1 else 0) ||| (if infS then 2 else 0))

/-- OSMX (R306). -/
def execOsmx (p : Pfx) (f : F3A) (s : State) : Answer :=
  let a : Src := .reg f.a 1 f.ta .f32
  let m : Src := .reg f.d 1 false .f32
  let l : Src := .reg (f.d + 1) 1 false .f32
  .next (s.run p (groupSize p) { srcs := [a, m, l], dsts := [(f.d, 4)] } fun c s =>
    let r (t : Fin 32) := softmaxStep (Config.freeBit (s.tick * 65536 + t.val)) (c.val a t) (c.val m t) (c.val l t)
    (s.setApprox c.cx.id ((maskSlots c.act).foldl (fun b t => b ||| (r t).2) 0)).finish c f.d 4 fun t => (r t).1)

/-- OSMXF (R307). -/
def execOsmxf (p : Pfx) (f : F3) (s : State) : Answer :=
  let a : Src := .reg f.a 1 f.ta .f32
  let b : Src := .reg f.b 1 f.tb .f32
  .next (s.run p (groupSize p) { srcs := [a, b], dsts := [(f.d, 1)], preds := [7] } fun c s =>
    let zero (t : Fin 32) : Bool := (c.val b t).toNat % 2 ^ 31 == 0
    (s.setPred c 7 c.act zero).finish c f.d 1 fun t =>
      [if zero t then 0 else f32Rn ((f32Of (c.val a t)).div 24 (f32Of (c.val b t)))])

/-- Token t of a table region of words. -/
def tokenAt (bs : List Byte) (o : Nat) : Nat := numAt bs o 4 % 2 ^ 24

/-- FLEN, FPOS and HLEN of a constraint table (R308). -/
def tabFlen (tab : List Byte) : Nat := Nat.min (numAt tab 4 2) 64
def tabFpos (tab : List Byte) : Nat := numAt tab 6 2
def tabHlen (tab : List Byte) : Nat := Nat.min (numAt tab 8 4) 3

/-- The history of a table, oldest first (R309). -/
def tabHist (tab : List Byte) : List Nat := (List.range (tabHlen tab)).reverse.map fun i => tokenAt tab (12 + 4 * i)

/-- Token x is banned after a history (R309). -/
def banned (tab : List Byte) (h : List Nat) (x : Nat) : Bool :=
  (List.range (Nat.min (numAt tab 0 4) 256)).any fun e =>
    let w (i : Nat) := tokenAt tab (0x120 + 16 * e + 4 * i)
    let n := numAt tab (0x120 + 16 * e + 3) 1
    1 ≤ n && n ≤ 4 && w (n - 1) == x % 2 ^ 24 && n - 1 ≤ h.length && h.drop (h.length - (n - 1)) == (List.range (n - 1)).map w

/-- The table's bytes 6 to 23 after token x is committed (R309). -/
def commitToken (tab : List Byte) (x : Nat) : List Byte :=
  let fpos := if tabFpos tab < tabFlen tab then tabFpos tab + 1 else tabFpos tab
  tab.take 6 ++ leBytes 2 fpos ++ leBytes 4 (Nat.min (tabHlen tab + 1) 3) ++ leBytes 4 (x % 2 ^ 24) ++
    (tab.drop 12).take 8 ++ tab.drop 24

/-- A record of the issuer as it is now, when every piece of it is at hand. -/
def State.recordAt (s : State) (c : Ctx) (va : DWord) (n : Nat) : Option (List Byte) :=
  ((pieces va n).mapM fun (x : DWord × Nat) => match s.peek c x.1 x.2 with | .bytes bs => some bs | _ => none).map List.flatten

/-- What reads at a peer brought, with bytes written there since. -/
def State.patchPulled (s : State) (o : Owner) (peer addr : Nat) (bs : List Byte) : State :=
  { s with fab := { s.fab with
      pulled := s.fab.pulled.map fun (x : Pulled) =>
        if x.owner == o && x.peer == peer && x.addr ≤ addr && addr + bs.length ≤ x.addr + x.data.length then
          { x with data := x.data.take (addr - x.addr) ++ bs ++ x.data.drop (addr - x.addr + bs.length) }
        else x } }

/-- A slot writes bytes of a record: in place, or by a request to a peer. -/
def State.recordPut (s : State) (c : Ctx) (t : Fin 32) (va : DWord) (bs : List Byte) : State :=
  match s.resolve c.cx c.ver c.team.id c.tray? .write va with
  | .ok l a =>
    let s := s.putHit c { slot := t, loc := l, attr := a, va := va } bs
    (match l with | .peer p x => s.patchPulled c.owner p x bs | _ => s)
  | _ => s

/-- The cause of writing a table's head (R309, R311). -/
def Ctx.tableCause (c : Ctx) (s : State) (va : DWord) : Option SlotCause :=
  smallest [alignedOr (va.toNat % 64 == 0) va, match c.accessCause s .write 1 va with | some e => some { e with addr := va } | none => none]

/-- A table at a peer, whose leaf is asked there before any effect whether bytes 6 to 23 may be written (R311, log 132). -/
def State.tableQueries (s : State) (c : Ctx) (t : Fin 32) (ctab : DWord) : List Query :=
  if ctab == 0 then []
  else match s.resolve c.cx c.ver c.team.id c.tray? .write (ctab + 6) with
    | .ok (.peer p a) _ => [{ slot := t, va := ctab, peer := p, addr := a, op := .check 18 false false }]
    | _ => []

/-- VERIFY in one slot: the accepted count, the correction token, and the table after the commits (R311). -/
def verifyOne (r : List Byte) (tab : Option (List Byte)) : Nat × Nat × Option (List Byte) :=
  let n := Nat.min (numAt r 0 4 % 32) 16
  let draft (j : Nat) := tokenAt r (0x10 + 4 * j)
  let want (j : Nat) : Nat := match tab with
    | some x => if tabFpos x + j < tabFlen x then tokenAt x (0x20 + 4 * (tabFpos x + j)) else tokenAt r (0x50 + 4 * j)
    | none => tokenAt r (0x50 + 4 * j)
  let ok (k : Nat) : Bool :=
    draft k == want k && (match tab with | some x => !banned x (tabHist x ++ (List.range k).map draft) (draft k) | none => true)
  let k := ((List.range n).takeWhile ok).length
  (k, want k, tab.map fun x => commitToken ((List.range k).foldl (fun y j => commitToken y (draft j)) x) (want k))

/-- A stream's EWMA after k of n drafts were accepted (R312). -/
def ewma (a : BitVec 16) (k n : Nat) : BitVec 16 := a - (a >>> 3) + BitVec.ofNat 16 (k * 65535 / n / 8)

/-- VERIFY in the slots of a list: the results, and the state after (R311). -/
def State.verifyAll (s : State) (c : Ctx) (a b : Src) : List (Fin 32) → List (Fin 32 × Word) × State
  | [] => ([], s)
  | t :: ts =>
    let r := (s.recordAt c (c.val64 a t) 160).getD []
    let ctab := BitVec.ofNat 64 (numAt r 8 8)
    let tab := if ctab == 0 then none else s.recordAt c ctab 4384
    let (k, x, tab') := verifyOne r tab
    let s := match tab' with | some y => s.recordPut c t (ctab + 6) ((y.drop 6).take 18) | none => s
    let n := Nat.min (numAt r 0 4 % 32) 16
    let i := (c.val b t).toNat % 256
    let s := if n == 0 then s
      else s.modCtx c.cx.id fun cx => { cx with streams := cx.streams.setIfInBounds i (ewma ((cx.streams[i]?).getD 0) k n) }
    let (xs, s) := s.verifyAll c a b ts
    ((t, w32 (k * 2 ^ 24 + x)) :: xs, s)

/-- A slot's result among several. -/
def resultOf (xs : List (Fin 32 × Word)) (t : Fin 32) : List Word := [((xs.find? (·.1 == t)).map (·.2)).getD 0]

/-- VERIFY (R310 to R312): its effects are made at issue, its result stands with a producer. -/
def execVerify (p : Pfx) (f : F3) (s : State) : Answer :=
  let a : Src := .reg f.a 2 f.ta .int
  let b : Src := .reg f.b 1 f.tb .int
  let ctab (c : Ctx) (s : State) (t : Fin 32) : DWord :=
    match s.recordAt c (c.val64 a t) 160 with | some r => BitVec.ofNat 64 (numAt r 8 8) | none => 0
  let check (c : Ctx) (s : State) (t : Fin 32) : Option SlotCause :=
    smallest [s.noFabric (c.val64 a t), alignedOr ((c.val64 a t).toNat % 16 == 0) (c.val64 a t),
      if ctab c s t == 0 then none else c.tableCause s (ctab c s t)]
  .next (s.run p (groupSize p) { srcs := [a, b], dsts := [(f.d, 1)], own := check } fun c s =>
    s.peeks c false (fun t => (c.val64 a t, 160) :: if ctab c s t == 0 then [] else [(ctab c s t, 4384)]) (check c s)
      fun c _ s =>
        s.inquired c false ((maskSlots c.act).flatMap fun t => s.tableQueries c t (ctab c s t)) fun c s =>
          let (xs, s) := s.verifyAll c a b (maskSlots c.act)
          let s := (s.unpull c).modTray c.tray.id fun tr => { tr with stream := (c.val b c.low).setWidth 8 }
          s.produce c .verify (c.writes f.d 1 (resultOf xs)))

/-- VERIFY_RESULT (R43, R311). -/
def execVerifyResult (s : State) : Answer := .next (s.fillProducer s.input.id .verify)

/-- The counter-based generator (R315). -/
def gen64 (seed : DWord) (seq pos : Nat) : Nat :=
  let z := seed + 0x9E3779B97F4A7C15#64 * BitVec.ofNat 64 (seq * 2 ^ 32 + pos + 1)
  let z := (z ^^^ (z >>> 30)) * 0xBF58476D1CE4E5B9#64
  let z := (z ^^^ (z >>> 27)) * 0x94D049BB133111EB#64
  (hiWord (z ^^^ (z >>> 31))).toNat

/-- The largest usable value's lowest index (R314). -/
def argmaxFrom (use : Nat → Bool) (val : Nat → FVal) (n : Nat) : Option Nat :=
  (List.range n).foldl (fun best i =>
    if !use i || val i == .nan then best
    else match best with
      | some j => (match (val j).cmp (val i) with | some d => if d < 0 then some i else best | none => best)
      | none => some i) none

/-- The running sums of weights, each addition rounded (R314). -/
def runningSums (wt : Nat → FVal) : Nat → Nat → Word → List Word
  | 0, _, _ => []
  | n + 1, i, acc =>
    let c := f32Rn ((f32Of acc).add .rn (wt i))
    c :: runningSums wt n (i + 1) c

/-- The token that a threshold finds (R314). -/
def thresholdPick (use : Nat → Bool) (val : Nat → FVal) (n g : Nat) : Option Nat :=
  let wt (i : Nat) : FVal := match val i with
    | .fin false m e => if m != 0 && use i then .fin false m e else .fin false 0 0
    | _ => .fin false 0 0
  let cs := runningSums wt n 0 0
  let total := f32Of (cs.getLastD 0)
  let pos (i : Nat) : Bool := wt i != .fin false 0 0
  if total.cmp (.fin false 0 0) == some 0 then none
  else
    let t0 := match total with
      | .inf _ => FVal.inf false
      | v => f32Of (f32Rn (v.mul (.fin false g (-32))))
    let above (i : Nat) : Bool := match (f32Of (cs.getD i 0)).cmp t0 with | some d => 0 < d | none => false
    match (List.range n).find? fun i => pos i && above i with
    | some i => some i
    | none => (List.range n).reverse.find? pos

/-- SAMPLE in one slot: its result word and the token to commit (R314). -/
def sampleOne (r : List Byte) (tab : Option (List Byte)) (logits : List Byte) (pos : Nat) : Word × Option Nat :=
  match tab.bind fun x => if tabFpos x < tabFlen x then some (tokenAt x (0x20 + 4 * tabFpos x)) else none with
  | some x => (w32 (2 ^ 30 + x), some x)
  | none =>
    let n := numAt r 8 4
    let mode := numAt r 0xC 4
    if n == 0 || 2 ^ 24 < n || 2 ≤ mode then (0x80000000#32, none)
    else
      let use (i : Nat) : Bool := match tab with | some x => !banned x (tabHist x) i | none => true
      let val (i : Nat) : FVal := f32Of (w32 (numAt logits (4 * i) 4))
      match if mode == 0 then argmaxFrom use val n
            else thresholdPick use val n (gen64 (BitVec.ofNat 64 (numAt r 0x10 8)) (numAt r 0x18 4) pos) with
      | some x => (w32 x, some x)
      | none => (0x80000000#32, none)

/-- What a sample record says of memory it will use: its table's address, 0 for none, and the logits' range. -/
def sampleRanges (r : List Byte) : DWord × DWord × Nat :=
  let n := numAt r 8 4
  (BitVec.ofNat 64 (numAt r 0x20 8), BitVec.ofNat 64 (numAt r 0 8),
    if n == 0 || 2 ^ 24 < n || 2 ≤ numAt r 0xC 4 then 0 else 4 * n)

/-- SAMPLE in the slots of a list (R314). -/
def State.sampleAll (s : State) (c : Ctx) (a b : Src) : List (Fin 32) → List (Fin 32 × Word) × State
  | [] => ([], s)
  | t :: ts =>
    let r := (s.recordAt c (c.val64 a t) 64).getD []
    let (ctab, lg, n) := sampleRanges r
    let tab := if ctab == 0 then none else s.recordAt c ctab 4384
    let (w, x) := sampleOne r tab ((s.recordAt c lg n).getD []) (c.val b t).toNat
    let s := match tab, x with
      | some y, some x => s.recordPut c t (ctab + 6) (((commitToken y x).drop 6).take 18)
      | _, _ => s
    let (xs, s) := s.sampleAll c a b ts
    ((t, w) :: xs, s)

/-- A slot's token will be a forced one: as many forced tokens are left as slots before it use the same table (R314). -/
def forcedAt (slots : List (Fin 32)) (ctab : Fin 32 → DWord) (tab : List Byte) (t : Fin 32) : Bool :=
  tabFpos tab + (slots.filter fun u => u < t && ctab u == ctab t).length < tabFlen tab

/-- What a slot's SAMPLE will use: its table's address, 0 for none, and the logits' range, empty when it does not read them (R314). -/
def State.sampleUse (s : State) (c : Ctx) (a : Src) (t : Fin 32) : DWord × DWord × Nat :=
  let of_ (u : Fin 32) : DWord × DWord × Nat :=
    match s.recordAt c (c.val64 a u) 64 with | some r => sampleRanges r | none => (0, 0, 0)
  let (ctab, lg, n) := of_ t
  let forced : Bool := ctab != 0 && (match s.recordAt c ctab 4384 with
    | some tab => forcedAt (maskSlots c.act) (fun u => (of_ u).1) tab t
    | none => true)
  (ctab, lg, if forced then 0 else n)

/-- SAMPLE (R313 to R315): its effects are made at issue, its result stands with a producer. -/
def execSample (p : Pfx) (f : F3) (s : State) : Answer :=
  let a : Src := .reg f.a 2 f.ta .int
  let b : Src := .reg f.b 1 f.tb .int
  let check (c : Ctx) (s : State) (t : Fin 32) : Option SlotCause :=
    let (ctab, lg, n) := s.sampleUse c a t
    smallest
      [s.noFabric (c.val64 a t), alignedOr ((c.val64 a t).toNat % 16 == 0) (c.val64 a t),
        if ctab == 0 then none else c.tableCause s ctab, if n != 0 then alignedOr (lg.toNat % 4 == 0) lg else none]
  .next (s.run p (groupSize p) { srcs := [a, b], dsts := [(f.d, 1)], own := check } fun c s =>
    s.peeks c false
      (fun t =>
        let (ctab, lg, n) := s.sampleUse c a t
        (c.val64 a t, 64) :: (if ctab == 0 then [] else [(ctab, 4384)]) ++ (if n != 0 then [(lg, n)] else []))
      (check c s)
      fun c _ s =>
        s.inquired c false ((maskSlots c.act).flatMap fun t => s.tableQueries c t (s.sampleUse c a t).1) fun c s =>
          let (xs, s) := s.sampleAll c a b (maskSlots c.act)
          (s.unpull c).produce c .sample (c.writes f.d 1 (resultOf xs)))

/-- SAMPLE_RESULT (R43, R314). -/
def execSampleResult (s : State) : Answer := .next (s.fillProducer s.input.id .sample)

end Sys2Proof.Machine
end

