-- ==== Sys2Proof/Machine/Matrix.lean ====
section
/-!
DEFINITION. Machine/Matrix.lean: major 23, the matrix arrays (R273 to R287), and the steps of their commands.
-/

namespace Sys2Proof.Machine

/-- Bits of an element of a format code (R274). -/
def fmtBits (code : Nat) : Nat := if code < 2 then 16 else if code == 5 then 4 else 8

/-- A format code is a floating format. -/
def fmtFloat (code : Nat) : Bool := code < 4

/-- The K depth of a legal pairing of formats (R274). -/
def pairingK (a w : Nat) : Option Nat :=
  if (a == 0 && w == 0) || (a == 1 && w == 1) then some 64
  else if (a == 2 || a == 3) && (w == 2 || w == 3) then some 128
  else if a == 5 && w == 5 then some 256
  else if (a == 4 || a == 5) && (w == 4 || w == 5) then some 128
  else none

/-- The group fields that a pairing allows (R274). -/
def groupAllowed (a grp : Nat) : Bool := if a < 2 then grp == 0 else if a < 4 then grp ≤ 1 else true

/-- The size of a group, K for GRP 0 (R276, R279). -/
def groupLen (grp k : Nat) : Nat := if grp == 1 then 32 else if grp == 2 then 64 else if grp == 3 then 128 else k

/-- The control word s+7 (R276). -/
structure Ctl where
  array : Nat
  diag : Bool
  fin_ : Bool
  acc : Bool
  scb : Nat
  rowbase : Nat
  grp : Nat
  wsgn : Bool
  asgn : Bool
  wfmt : Nat
  afmt : Nat
  zero : Bool
  deriving DecidableEq, Repr

/-- Read a control word. -/
def ctlOf (w : Word) : Ctl :=
  { array := (w.extractLsb' 30 1).toNat, diag := w.getLsbD 29, fin_ := w.getLsbD 28, acc := w.getLsbD 27,
    scb := (w.extractLsb' 20 7).toNat, rowbase := (w.extractLsb' 12 8).toNat, grp := (w.extractLsb' 10 2).toNat,
    wsgn := w.getLsbD 9, asgn := w.getLsbD 8, wfmt := (w.extractLsb' 4 4).toNat, afmt := (w.extractLsb' 0 4).toNat,
    zero := !w.getLsbD 31 }

/-- The word s+4 (R276). -/
structure Shape4 where
  n : Nat
  m : Nat
  aswz : BitVec 2
  wswz : BitVec 2
  zero : Bool
  deriving DecidableEq, Repr

/-- Read the word s+4. -/
def shape4Of (w : Word) : Shape4 :=
  { n := (w.extractLsb' 0 16).toNat, m := (w.extractLsb' 16 9).toNat, aswz := w.extractLsb' 25 2, wswz := w.extractLsb' 27 2,
    zero := w.extractLsb' 29 3 == 0 }

/-- K of a control word, 0 for an illegal pairing. -/
def Ctl.k (x : Ctl) : Nat := (pairingK x.afmt x.wfmt).getD 0

/-- The format fields are legal (R274, R277). -/
def Ctl.formats (x : Ctl) : Bool :=
  x.zero && (pairingK x.afmt x.wfmt).isSome && groupAllowed x.afmt x.grp &&
    !(fmtFloat x.afmt && (x.asgn || x.wsgn))

/-- The swizzle fields are legal (R262, R277). -/
def Shape4.swizzles (y : Shape4) : Bool := y.zero && y.aswz != 3 && y.wswz != 3

/-- The fields of a streaming command are legal under the bound shape record (R277). -/
def streamOk (x : Ctl) (y : Shape4) (shape : Option (List (Nat × Nat))) : Bool :=
  let total := shape.map fun r => (r.map (·.2)).sum
  x.formats && y.swizzles && x.rowbase + y.m ≤ 256 && y.m != 0 &&
    (match total with | some t => y.m == t | none => true) &&
    (!x.diag || (match total with | some t => t ≤ 128 | none => false)) &&
    (x.grp == 0 || y.n * x.k / groupLen x.grp x.k ≤ 8)

/-- An array that no team has claimed. -/
def ArrayState.blank (bench num : Nat) : ArrayState :=
  { bench := bench, num := num, holder := none, acc := [], scale := [], queue := [], shape := none, active := none, shadow := none }

/-- An array of a bench. -/
def State.array (s : State) (bench num : Nat) : ArrayState :=
  (s.arrays.find? fun a => a.bench == bench && a.num == num).getD (ArrayState.blank bench num)

/-- Change an array. -/
def State.putArray (s : State) (a : ArrayState) : State :=
  if s.arrays.any fun x => x.bench == a.bench && x.num == a.num then
    { s with arrays := s.arrays.map fun x => if x.bench == a.bench && x.num == a.num then a else x }
  else { s with arrays := s.arrays ++ [a] }

/-- Commands and pops that name an array, oldest first. -/
def State.onArray (s : State) (bench num : Nat) : List Cmd := s.cmds.filter fun k => k.bench == bench && k.op.array? == some num

/-- A team claims a free array unless a command of another team waits for it (R273). -/
def State.claim (s : State) (bench num team : Nat) : State :=
  let a := s.array bench num
  if a.holder.isSome then s
  else match s.onArray bench num with
    | k :: _ => if k.team == team then s.putArray { a with holder := some team } else s
    | [] => s.putArray { a with holder := some team }

/-- A pop waits beside the commands of its array, not among them. -/
def CmdOp.isPop : CmdOp → Bool
  | .accpop .. => true
  | _ => false

/-- The oldest command of an array's holder. -/
def State.firstOn (s : State) (bench num : Nat) : Option Cmd :=
  (s.onArray bench num).find? fun k => !k.op.isPop && some k.team == (s.array bench num).holder

/-- Clear accumulator rows and take them out of the queue (R285). -/
def ArrayState.clear (a : ArrayState) (first count : Nat) : ArrayState :=
  let gone (r : Nat) : Bool := first ≤ r && r < Nat.min (first + count) 256
  { a with acc := a.acc.filter fun x => !gone (x.1 / 4), queue := a.queue.filter fun r => !gone r }

/-- ACCCLRs whose turn has come take effect (R273, R285). -/
def State.settle : Nat → State → Nat → Nat → State
  | 0, s, _, _ => s
  | n + 1, s, bench, num =>
    match s.firstOn bench num with
    | none => s
    | some k =>
      match k.op with
      | .accclr _ first count =>
        State.settle n ((s.dropCmds fun x => x.id == k.id).putArray
          ((s.array bench num).clear first count)) bench num
      | _ => s

/-- A matrix command of the device's takes its step when it is its array's turn (R273). -/
def State.matrixStep (s : State) (mine : CmdOp → Bool) (f : Cmd → Context → ArrayState → State → State) : Answer :=
  s.engineStep mine fun k cx =>
    match k.op.array? with
    | none => s
    | some num =>
      let s1 := State.settle s.cmds.length (s.claim k.bench num k.team) k.bench num
      if (s1.firstOn k.bench num).map (·.id) == some k.id then
        let s2 := f k cx (s1.array k.bench num) s1
        State.settle s2.cmds.length s2 k.bench num
      else s1

/-- A detached tray has no arrays (R260). -/
def Ctx.noArrays (c : Ctx) : Option SlotCause := if c.detached then some { code := 0x08 } else none

/-- A matrix operand at a peer on a device that cannot fetch it (R2). -/
def State.noRemote (s : State) (va : DWord) : Option SlotCause :=
  if va.toNat / 2 ^ 56 == 1 && !(s.cap 0 && s.cap 2) then some { code := 0x02, addr := va } else none

/-- Cause 0x01 unless a condition holds. -/
def legalOr (ok : Bool) : Option SlotCause := if ok then none else some { code := 0x01 }

/-- A bound shape record as the issuer's team sees it. -/
def State.shapeFor (s : State) (c : Ctx) (num : Nat) : Option (List (Nat × Nat)) :=
  let a := s.array c.bench num
  if a.holder == some c.team.id then a.shape else none

/-- Issue a command on an array. -/
def State.issueOn (s : State) (c : Ctx) (num : Nat) (op : CmdOp) (token : BitVec 7) : State :=
  (s.claim c.bench num c.team.id).newCmd c op (c.tokenReg token) true

/-- MWLD (R277, R283, R394). -/
def execMwld (p : Pfx) (f : F3) (s : State) : Answer :=
  let a : Src := .reg f.a 2 f.ta .int
  let b := blockSrcs f.b 2 f.tb
  let word (c : Ctx) (i : Nat) : Word := (b[i]?.map fun x => c.val x c.low).getD 0
  s.command p (a :: b) f.d
    (fun c s =>
      let x := ctlOf (word c 0)
      let y := shape4Of (word c 1)
      let w := c.val64 a c.low
      smallest [c.noArrays, s.noRemote w, alignedOr (w.toNat % 64 == 0) w,
        legalOr (x.formats && y.swizzles && y.n == 0 && y.m == 0)])
    fun c s =>
      let num := (ctlOf (word c 0)).array
      s.issueOn c num (.mwld num (c.val64 a c.low) (word c 0) (word c 1)) f.d

/-- MSTR (R277, R283, R394). -/
def execMstr (p : Pfx) (f : F3) (s : State) : Answer :=
  let a : Src := .reg f.a 2 f.ta .int
  let b := blockSrcs f.b 2 f.tb
  let word (c : Ctx) (i : Nat) : Word := (b[i]?.map fun x => c.val x c.low).getD 0
  s.command p (a :: b) f.d
    (fun c s =>
      let x := ctlOf (word c 0)
      let y := shape4Of (word c 1)
      let w := c.val64 a c.low
      smallest [c.noArrays, s.noRemote w, alignedOr (w.toNat % 64 == 0) w,
        legalOr (streamOk x y (s.shapeFor c x.array) && y.n == 0)])
    fun c s =>
      let num := (ctlOf (word c 0)).array
      s.issueOn c num (.mstr num (c.val64 a c.low) (word c 0) (word c 1) (s.shapeFor c num)) f.d

/-- MLOOP (R277, R283, R394): with no steps its token is written at once. -/
def execMloop (p : Pfx) (f : FDB) (s : State) : Answer :=
  let b := blockSrcs f.b 8 f.tb
  let word (c : Ctx) (i : Nat) : Word := (b[i]?.map fun x => c.val x c.low).getD 0
  s.command p b f.d
    (fun c s =>
      let x := ctlOf (word c 7)
      let y := shape4Of (word c 4)
      let act := dword (word c 0) (word c 1)
      let w := dword (word c 2) (word c 3)
      let incs := y.n ≤ 1 || ((word c 5).toNat % 64 == 0 && (word c 6).toNat % 64 == 0)
      smallest [c.noArrays, s.noRemote act, s.noRemote w, alignedOr (act.toNat % 64 == 0 && incs) act,
        alignedOr (w.toNat % 64 == 0) w, legalOr (streamOk x y (s.shapeFor c x.array))])
    fun c s =>
      let num := (ctlOf (word c 7)).array
      if (shape4Of (word c 4)).n == 0 then (s.claim c.bench num c.team.id).newDone c (c.tokenReg f.d) 0
      else s.issueOn c num (.mloop num ((List.range 8).map (word c)) (s.shapeFor c num)) f.d

/-- SCPY (R286, R394). -/
def execScpy (p : Pfx) (f : F3) (s : State) : Answer :=
  let a : Src := .reg f.a 2 f.ta .int
  let b : Src := .reg f.b 1 f.tb .int
  s.command p [a, b] f.d
    (fun c s =>
      let w := (c.val b c.low).toNat
      let va := c.val64 a c.low
      smallest [c.noArrays, s.noRemote va, alignedOr (va.toNat % 4 == 0) va,
        legalOr (w / 2 ^ 26 == 0 && w / 4096 % 8192 != 0 && w / 4096 % 8192 ≤ 4096 && w % 4096 + w / 4096 % 8192 ≤ 4096)])
    fun c s =>
      let w := (c.val b c.low).toNat
      let num := w / 2 ^ 25 % 2
      s.issueOn c num (.scpy num (c.val64 a c.low) (w % 4096) (w / 4096 % 8192)) f.d

/-- ACCPOP (R284): vd to vd+3 are marked empty and take the next queue position of the array. -/
def execAccpop (p : Pfx) (f : FPop) (s : State) : Answer :=
  .next (s.run p (groupSize p) { dsts := [(f.d, 4)] } fun c s =>
    s.judged c false (maskSlots c.act) (fun _ => c.noArrays) fun c s =>
      let num := f.n.toNat
      let regs : Slots (List RegName) := Slots.gen fun t => if c.act.getLsbD t.val then c.dstNames f.d 4 t else []
      let s := (s.claim c.bench num c.team.id).newCmd c (.accpop num c.act regs) .none false
      (s.markEmpty c.owner ((maskSlots c.act).flatMap fun t => regs[t])).retire c)

/-- The range of ACCCLR is fit; a count of 257 to 511 is not (log 143). -/
def clearCheck (c : Ctx) (w : Nat) : Option SlotCause := smallest [c.noArrays, legalOr (w / 2 ^ 17 == 0 && w / 256 ≤ 256)]

/-- ACCCLR (R285). -/
def execAccclr (p : Pfx) (f : FNA) (s : State) : Answer :=
  let a := immOr p p.immU f.a f.ta .int
  .next (s.run p (groupSize p) { srcs := [a], once := true, own := fun c _ t => clearCheck c (c.val a t).toNat } fun c s =>
    let w := (c.val a c.low).toNat
    s.judged c true [c.low] (fun _ => clearCheck c w) fun c s =>
      let num := f.n.toNat
      let s := (s.claim c.bench num c.team.id).newCmd c (.accclr num (w % 256) (w / 256 % 512)) .none false
      (State.settle s.cmds.length s c.bench num).retire c)

/-- A shape record's sequences, when it is legal (R280, R281). -/
def shapeRecord (bs : List Byte) : Option (List (Nat × Nat)) :=
  let count := leNat (bs.take 2)
  let seqs := (List.range count).map fun j => (leNat ((bs.drop (8 + 4 * j)).take 2), leNat ((bs.drop (10 + 4 * j)).take 2))
  if count == 0 || 256 < count || 1 < (bs.getD 2 0).toNat || ((bs.drop 3).take 5).any (· != 0) || seqs.any (fun x => x.2 == 0) ||
      256 < (seqs.map (·.2)).sum then none
  else some seqs

/-- MSHAPE (R281): waits for an array that another team holds, and for its record. -/
def execMshape (p : Pfx) (f : FNA) (s : State) : Answer :=
  let a : Src := .reg f.a 2 f.ta .int
  let check (c : Ctx) (s : State) (va : DWord) := smallest [c.noArrays, s.noRemote va, alignedOr (va.toNat % 8 == 0) va]
  .next (s.run p (groupSize p) { srcs := [a], once := true, own := fun c s t => check c s (c.val64 a t) } fun c s =>
    let va := c.val64 a c.low
    let num := f.n.toNat
    let own := check c s va
    let bind (shape : Option (List (Nat × Nat))) (s : State) : State :=
      let s := s.claim c.bench num c.team.id
      let x := s.array c.bench num
      if x.holder == some c.team.id then ((s.unpull c).putArray { x with shape := shape }).retire c else s.stall
    if va == 0 && own.isNone then bind none s
    else
      s.peeks c true (fun _ => if own.isSome then [] else [(va, 8)]) (fun _ => own) fun c head s =>
        let n := leNat ((head c.low).take 2)
        if n == 0 || 256 < n then s.raise c { code := 0x01, mask := 1#32 <<< c.low.val, once := true }
        else s.peeks c true (fun _ => [(va, 8 + 4 * n)]) (fun _ => none) fun c rec_ s =>
          match shapeRecord (rec_ c.low) with
          | some seqs => bind (some seqs) s
          | none => (s.unpull c).raise c { code := 0x01, mask := 1#32 <<< c.low.val, once := true })

/-- Where a linear range of an operand is stored under its swizzle: 16-byte chunks (R261, R263). -/
def linSpans (swz : BitVec 2) (weight : Bool) (va : DWord) (n : Nat) : List Span :=
  if swz == 0 then [{ va := va, n := n, weight := weight }]
  else (List.range (n / 16)).map fun i =>
    let a := (va + BitVec.ofNat 64 (16 * i)).toNat
    { va := BitVec.ofNat 64 (a / 1024 * 1024 + swzOff swz (a % 1024)), n := 16, weight := weight }

/-- The first line of a linear range whose tag differs from the operand's swizzle (R263). -/
def State.badTag (s : State) (cx : Context) (k : Cmd) (swz : BitVec 2) (weight : Bool) (va : DWord) (n : Nat) :
    Option EngCause :=
  ((Loc.hbm va.toNat).lines n).findSome? fun line =>
    match s.engResolve cx k .read (BitVec.ofNat 64 line.off) with
    | .ok (.peer ..) _ => none
    | .ok l _ =>
      let t := s.tagSeen (k.keys cx) l
      if t != 3 && t != swz then
        some { code := 0x0C, addr := BitVec.ofNat 64 (Nat.max line.off va.toNat), step := k.steps, weight := weight, tag := t, swz := swz }
      else none
    | _ => none

/-- Element i of a format's bytes (R275). -/
def elemAt (bits : Nat) (bs : Array Byte) (i : Nat) : Nat :=
  if bits == 16 then (bs.getD (2 * i) 0).toNat + 256 * (bs.getD (2 * i + 1) 0).toNat
  else if bits == 8 then (bs.getD i 0).toNat
  else (bs.getD (i / 2) 0).toNat / 16 ^ (i % 2) % 16

/-- The floating format with a code (R274). -/
def matFmt (code : Nat) : Fmt := if code == 0 then .bf16 else if code == 1 then .f16 else if code == 2 then .e4 else .e5

/-- An accumulator element; an invalid sector reads +0 (R279). -/
def ArrayState.elem (a : ArrayState) (ar c : Nat) : Word := (Sparse.get [] a.acc (4 * ar + c / 32)).getD (c % 32) 0

/-- An element after a step's contribution (R278, R279). -/
def accStep (x : Ctl) (i : Nat) (scale : Sparse Word) (act plane : Array Byte) (ar c : Nat) (acc0 : Word) : Word :=
  let k := x.k
  let g := if fmtFloat x.afmt then 32 else groupLen x.grp k
  let aw (h : Nat) : Word := Sparse.get 0 scale (2048 + 8 * ar + (i * (k / g) + h))
  let ww (h : Nat) : Word := Sparse.get 0 scale (x.scb + c + 128 * (i * (k / g) + h))
  let r32 (v : FVal) : FVal := Fmt.f32.decode false (Fmt.f32.round .rn false false v)
  let intSum (h : Nat) : FVal :=
    let za := if x.grp == 0 then 0 else zeroPoint (aw h) x.asgn
    let zw := if x.grp == 0 then 0 else zeroPoint (ww h) x.wsgn
    let sum : Int := (List.range g).foldl (fun t j =>
      t + (signedOf (elemAt (fmtBits x.afmt) act (h * g + j)) (fmtBits x.afmt) x.asgn - za) *
        (signedOf (elemAt (fmtBits x.wfmt) plane ((h * g + j) * 128 + c)) (fmtBits x.wfmt) x.wsgn - zw)) 0
    if x.grp == 0 then FVal.ofInt sum else ((FVal.ofInt sum).mul (scaleVal (aw h))).mul (scaleVal (ww h))
  let floatSum (h : Nat) : FVal :=
    let prod (j : Nat) : FVal :=
      ((matFmt x.afmt).decode false (elemAt (fmtBits x.afmt) act (h * 32 + j))).mul
        ((matFmt x.wfmt).decode false (elemAt (fmtBits x.wfmt) plane ((h * 32 + j) * 128 + c)))
    let sum := (List.range 31).foldl (fun t j => t.add .rn (prod (j + 1))) (prod 0)
    if x.grp == 0 then sum
    else if e8m0 (aw h) == 0xFF || e8m0 (ww h) == 0xFF then .nan
    else (sum.scale ((e8m0 (aw h) : Int) - 127)).scale ((e8m0 (ww h) : Int) - 127)
  (List.range (k / g)).foldl (fun acc h =>
    w32 (Fmt.f32.round .rn false false ((Fmt.f32.decode false acc.toNat).add .rn
      (r32 (if fmtFloat x.afmt then floatSum h else intSum h))))) acc0

/-- A row that a command streams: activation row, accumulator row, first and last column + 1 under DIAG (R280). -/
structure Stream where
  act : Nat
  ar : Nat
  lo : Nat
  hi : Nat
  deriving DecidableEq, Repr

/-- Rows of the sequences after p rows (R280). -/
def shapeRows (rowbase : Nat) : Nat → List (Nat × Nat) → List Stream
  | _, [] => []
  | p, (off, len) :: rest =>
    ((List.range len).map fun i => { act := off + i, ar := rowbase + p + i, lo := p, hi := p + len }) ++ shapeRows rowbase (p + len) rest

/-- The rows that a command streams (R280). -/
def streamRows (x : Ctl) (m : Nat) (shape : Option (List (Nat × Nat))) : List Stream :=
  match shape with
  | some seqs => shapeRows x.rowbase 0 seqs
  | none => (List.range m).map fun r => { act := r, ar := x.rowbase + r, lo := 0, hi := 128 }

/-- A row of the accumulators after a step (R279, R280): sectors that take no contribution and start no row stay. -/
def ArrayState.stepRow (a : ArrayState) (x : Ctl) (i : Nat) (start : Bool) (plane : Array Byte) (r : Stream) (act : Array Byte) :
    ArrayState :=
  let inside (c : Nat) : Bool := !x.diag || (r.lo ≤ c && c < r.hi)
  (List.range 4).foldl (fun b sec =>
    let cols := (List.range 32).map fun j => 32 * sec + j
    if !start && !cols.any inside then b
    else { b with acc := Sparse.put [] b.acc (4 * r.ar + sec) (cols.map fun c =>
      let acc0 : Word := if start then 0 else a.elem r.ar c
      if inside c then accStep x i a.scale act plane r.ar c acc0 else acc0) }) a

/-- Cut bytes into rows of n. -/
def chunked : Nat → Nat → List Byte → List (List Byte)
  | 0, _, _ => []
  | m + 1, n, bs => bs.take n :: chunked m n (bs.drop n)

/-- A step: every streamed row through a plane (R279). -/
def ArrayState.step (a : ArrayState) (x : Ctl) (i : Nat) (start : Bool) (plane : List Byte) (rows : List Stream)
    (acts : List Byte) : ArrayState :=
  let p := plane.toArray
  (rows.zip (chunked rows.length (x.k * fmtBits x.afmt / 8) acts)).foldl (fun b (r, bs) => b.stepRow x i start p r bs.toArray) a

/-- The activation reads of a step. -/
def actSpans (x : Ctl) (y : Shape4) (va : DWord) (rows : List Stream) : List Span :=
  let n := x.k * fmtBits x.afmt / 8
  rows.flatMap fun r => linSpans y.aswz false (va + BitVec.ofNat 64 (r.act * n)) n

/-- The first activation line with a wrong tag. -/
def State.badActs (s : State) (cx : Context) (k : Cmd) (x : Ctl) (y : Shape4) (va : DWord) (rows : List Stream) : Option EngCause :=
  let n := x.k * fmtBits x.afmt / 8
  rows.findSome? fun r => s.badTag cx k y.aswz false (va + BitVec.ofNat 64 (r.act * n)) n

/-- Bytes of a weight plane (R275). -/
def Ctl.planeBytes (x : Ctl) : Nat := x.k * 128 * fmtBits x.wfmt / 8

/-- A plane with the fields that its command records (R283). -/
def Ctl.plane (x : Ctl) (y : Shape4) (data : List Byte) : Plane :=
  { wfmt := BitVec.ofNat 4 x.wfmt, wsgn := x.wsgn, grp := BitVec.ofNat 2 x.grp, scb := BitVec.ofNat 7 x.scb, wswz := y.wswz, k := x.k,
    data := data }

/-- A row that a command writes stands in the output queue (R283). -/
def ArrayState.blocked (a : ArrayState) (rows : List Stream) : Bool := rows.any fun r => a.queue.contains r.ar

/-- The rows of a final step enter the queue in ascending order (R284). -/
def ArrayState.enqueue (a : ArrayState) (rows : List Stream) : ArrayState := { a with queue := a.queue ++ rows.map (·.ar) }

/-- MWLD_COMPLETE (R283). -/
def execMwldComplete (s : State) : Answer :=
  s.matrixStep (fun op => match op with | .mwld .. => true | _ => false) fun k cx a s =>
    match k.op with
    | .mwld _ va ctl s4 =>
      let x := ctlOf ctl
      let y := shape4Of s4
      s.engine cx k (linSpans y.wswz true va x.planeBytes) [] (s.badTag cx k y.wswz true va x.planeBytes) fun data s =>
        (s.putArray { a with shadow := some (x.plane y data.flatten) }).finishCmd k [] (w32 x.planeBytes)
    | _ => s

/-- MSTR_STEP (R283): the planes are swapped when the shadow plane was loaded since the last swap. -/
def execMstrStep (s : State) : Answer :=
  s.matrixStep (fun op => match op with | .mstr .. => true | _ => false) fun k cx a s =>
    match k.op with
    | .mstr _ va ctl s4 shape =>
      let x := ctlOf ctl
      let y := shape4Of s4
      let swapped := match a.shadow with | some pl => { a with active := some pl, shadow := none } | none => a
      let rows := streamRows x y.m shape
      match swapped.active with
      | some pl =>
        if pl != x.plane y pl.data then (s.putArray swapped).finishCmd k [] 0x80000100#32
        else if a.blocked rows then s
        else s.engine cx k (actSpans x y va rows) [] (s.badActs cx k x y va rows) fun data s =>
          let b := swapped.step x 0 (!x.acc) pl.data rows data.flatten
          (s.putArray (if x.fin_ then b.enqueue rows else b)).finishCmd k [] (w32 y.m)
      | none => (s.putArray swapped).finishCmd k [] 0x80000100#32
    | _ => s

/-- MLOOP_STEP: one step of the sequencer (R283). Where lines of both operands bear wrong tags, the record names the activation's
(log 145). -/
def execMloopStep (s : State) : Answer :=
  s.matrixStep (fun op => match op with | .mloop .. => true | _ => false) fun k cx a s =>
    match k.op with
    | .mloop _ blk shape =>
      let word (i : Nat) : Word := blk.getD i 0
      let x := ctlOf (word 7)
      let y := shape4Of (word 4)
      let i := k.steps
      let at_ (lo inc : Nat) : DWord := dword (word lo) (word (lo + 1)) + BitVec.ofNat 64 i * (word inc).signExtend 64
      let act := at_ 0 5
      let w := at_ 2 6
      let rows := streamRows x y.m shape
      if a.blocked rows then s
      else
        let ws := linSpans y.wswz true w x.planeBytes
        let own := match s.badTag cx k y.wswz true w x.planeBytes with
          | some e => EngCause.min (s.badActs cx k x y act rows) e
          | none => s.badActs cx k x y act rows
        s.engine cx k (ws ++ actSpans x y act rows) [] own fun data s =>
          let plane := (data.take ws.length).flatten
          let last := i + 1 == y.n
          let b := { a with active := some (x.plane y plane), shadow := none }.step x i (i == 0 && !x.acc) plane rows
            (data.drop ws.length).flatten
          let s := s.putArray (if last && x.fin_ then b.enqueue rows else b)
          if last then s.finishCmd k [] (w32 y.n) else s.modCmd k.id fun z => { z with steps := i + 1, got := [] }
    | _ => s

/-- Write words into the scale memory (R286). -/
def putScale (m : Sparse Word) (at_ : Nat) : List Word → Sparse Word
  | [] => m
  | w :: ws => putScale (Sparse.put 0 m at_ w) (at_ + 1) ws

/-- SCPY_COMPLETE (R286): the count is in bytes (R282). SCPY has no swizzle field: its source is read as it is stored, whatever its
lines' tags (log 144). -/
def execScpyComplete (s : State) : Answer :=
  s.matrixStep (fun op => match op with | .scpy .. => true | _ => false) fun k cx a s =>
    match k.op with
    | .scpy _ va first count =>
      s.engine cx k [{ va := va, n := 4 * count }] [] none fun data s =>
        let bs := data.flatten
        let ws := (List.range count).map fun i => w32 (leNat ((bs.drop (4 * i)).take 4))
        (s.putArray { a with scale := putScale a.scale first ws }).finishCmd k [] (w32 (4 * count))
    | _ => s

/-- ACCPOP_FILL: the team's oldest pop of the array takes the row at the head of the queue (R284). -/
def execAccpopFill (s : State) : Answer :=
  s.engineStep CmdOp.isPop fun k _ =>
    match k.op with
    | .accpop num mask regs =>
      let s := State.settle s.cmds.length (s.claim k.bench num k.team) k.bench num
      let a := s.array k.bench num
      let first := (s.onArray k.bench num).find? fun x => x.op.isPop && some x.team == a.holder
      match a.queue with
      | [] => s
      | ar :: rest =>
        if first.map (·.id) != some k.id then s
        else
          let ws := (maskSlots mask).flatMap fun t =>
            ((List.range 4).zip regs[t]).map fun (i, r) => ({ reg := r, val := a.elem ar (4 * t.val + i), hi := 0 } : RegWrite)
          ((s.dropCmds fun x => x.id == k.id).putArray { a with queue := rest }).putRegs k.owner ws
    | _ => s

end Sys2Proof.Machine
end

