-- ==== Sys2Proof/Machine/Preempt.lean ====
section
/-!
DEFINITION. Machine/Preempt.lean: pre-emption (R345 to R350), save images and restore (R186, R187, R218, R244, R346), the release
of the PIFO (R338) and the update of the complexes (R351).
-/

namespace Sys2Proof.Machine

/-- MLOOP steps that a team's held and queued MLOOPs have left (R347). -/
def State.stepsLeft (s : State) (team : Nat) : Nat :=
  (s.cmds.map fun (k : Cmd) => match k.op with
    | .mloop _ blk _ => if k.team == team then (shape4Of (blk.getD 4 0)).n - k.steps else 0
    | _ => 0).sum

/-- A copy of the copy engine. -/
def CmdOp.isCopy : CmdOp → Bool
  | .cpy .. | .gath .. | .cpyt .. => true
  | _ => false

/-- The estimate E of a team in ns (R347). -/
def State.estimate (s : State) (c : Context) (team : Nat) : Nat :=
  c.estStep * s.stepsLeft team + c.estCopy * (s.cmds.filter fun (k : Cmd) => k.team == team && k.op.isCopy).length + c.estBase

/-- Outcomes of the estimator for a team that has not ended (R347). -/
inductive Outcome where
  | drain
  | discard
  | save
  deriving DecidableEq, Repr

/-- The outcome at an instant (R347). -/
def outcomeAt (now e deadline : Nat) (restart : Bool) : Outcome :=
  if deadline != 0 && now + e ≤ deadline then .drain else if restart then .discard else .save

/-- A launch is discarded: its teams are unbound without a save and it is submitted again from the start, or ends with 02 when
its deadline has passed (R348). -/
def State.discardLaunch (s : State) (launch : Nat) : State :=
  match s.launch? launch with
  | none => s
  | some l =>
    let mine := s.teams.filter fun (t : Team) => t.launch == launch
    let s := mine.foldl (fun s t => (s.dropTeam t.id).reported t.id t.teamno 2 0) s
    let s := s.forgetSaved fun x => x.team.launch == launch
    let s : State := { s with sched := { s.sched with slots := s.sched.slots.filter fun (b : BindRec) => b.launch != launch } }
    if l.deadline != 0 && l.deadline < s.time then s.endLaunch launch (resultWord 2 0x17)
    else if s.inPifo launch then s
    else
      (s.modLaunch launch fun l => { l with nextTeam := 0, endedTeams := 0, value := 0, cause := none }).enqueue (.launch launch)
        l.itemPrio l.deadline l.est

/-- Set a team's fate. -/
def State.setFate (s : State) (team : Nat) (f : Fate) : State := s.modTeam team fun t => { t with fate := f }

/-- Take the outcome of a team of a request. -/
def State.decide (s : State) (team area req deadline : Nat) (o : Outcome) : State :=
  match s.team? team, o with
  | none, _ => s
  | some _, .drain => s.setFate team (.drain deadline area req)
  | some _, .save => s.setFate team (.save area req)
  | some t, .discard => s.discardLaunch t.launch

/-- The resident teams of a context. -/
def State.teamsOf (s : State) (ctx : Nat) : List Team :=
  s.teams.filter fun (t : Team) => match s.launch? t.launch with | some l => l.ctx == ctx | none => false

/-- Begin a request for teams of a context; each gets the outcome that `choose` gives it. A team that an earlier request is
about to save stays in that. -/
def State.startPreempt (s : State) (kind : PreemptKind) (ctx area deadline : Nat) (teams : List Team) (choose : Team → Outcome) : State :=
  let (id, s) := s.fresh
  let p : Preempt :=
    { id := id, kind := kind, ctx := ctx, area := area, used := 0, done := [], left := teams.map fun (t : Team) => t.id }
  let s : State := { s with sched := { s.sched with preempts := s.sched.preempts ++ [p] } }
  let s := teams.foldl (fun s t => match t.fate with
    | .save .. => s
    | _ => s.decide t.id area id deadline (choose t)) s
  match s.sched.preempts.find? fun (q : Preempt) => q.id == id with
  | some q => s.preemptOver q
  | none => s

/-- A launch's RESTART, of a team. -/
def State.restartable (s : State) (t : Team) : Bool := match s.launch? t.launch with | some l => l.restart | none => false

/-- The estimator's outcome for a team. -/
def State.estimated (s : State) (c : Context) (deadline : Nat) (t : Team) : Outcome :=
  outcomeAt s.time (s.estimate c t.id) deadline (s.restartable t)

/-- ITEM_PREEMPT (R345, R347, R350). -/
def execItemPreempt (s : State) : Answer :=
  let it := s.input.item
  match s.ctx? (itemCtx it) with
  | none => .next (s.failItem it 0x01)
  | some c =>
    let area := if it.arg1 == 0 then c.save.toNat else it.arg1.toNat
    .next (s.startPreempt (.item it) c.id area it.deadline.toNat (s.teamsOf c.id) (s.estimated c it.deadline.toNat))

/-- Work of another context waits for a bench of a context: a bind record there, or a saved team that the PIFO holds and that could be
restored there (R345). -/
def State.contended (s : State) (ctx : Nat) : Bool :=
  let benches := (s.teamsOf ctx).map fun (t : Team) => t.bench
  (s.sched.slots.any fun (b : BindRec) => b.ctx != ctx && benches.contains b.bench) ||
    s.sched.saved.any fun (x : Saved) =>
      x.ctx != ctx && (s.sched.pifo.any fun (e : PifoEntry) => e.work == .saved x.id) &&
        match s.launch? x.team.launch with
        | some l => (s.benchesFor l (s.partOfCtx x.ctx) x.team.teamno).any benches.contains
        | none => false

/-- SLICE_LAPSE of context `id` (R345, R349). The newest lapse is what counts; a slice that lapses while nothing waits begins again
(log 153). -/
def execSliceLapse (s : State) : Answer :=
  match s.ctx? s.input.id with
  | none => .next s
  | some c =>
    if c.slice == 0 || s.time < c.sliceStart + c.slice then .next s
    else
      let lapse := s.time - (s.time - c.sliceStart) % c.slice
      let teams := (s.teamsOf c.id).filter fun (t : Team) => t.fate == .run
      let busy := !teams.isEmpty && s.contended c.id
      let s := s.modCtx c.id fun x => { x with sliceStart := lapse }
      .next (if busy then s.startPreempt .slice c.id c.save.toNat (lapse + c.grace) teams (s.estimated c (lapse + c.grace)) else s)

/-- DRAIN_DEADLINE of team `id` (R348). -/
def execDrainDeadline (s : State) : Answer :=
  match s.team? s.input.id with
  | none => .next s
  | some t =>
    match t.fate with
    | .drain d area req =>
      if d == 0 || s.time < d then .next s
      else if s.restartable t then .next (s.discardLaunch t.launch)
      else .next (s.setFate t.id (.save area req))
    | _ => .next s

/-- An owner belongs to a team. -/
def State.ownedBy (s : State) (team : Nat) (o : Owner) : Bool :=
  match o with
  | .front t => t == team
  | .tray id => (match s.tray? id with | some tr => tr.team == team | none => false)

/-- A command rests in its team's image: a matrix command, which stops at a step boundary, unless its writes are under way; every
copy and carousel command ends before (R186, R218). -/
def Cmd.rests (k : Cmd) : Bool := k.op.array?.isSome && (match k.state with | .closing _ => false | _ => true)

/-- A wait that a save waits for: what is under way at the fabric (R186, R244). -/
def unsettled (w : Wait) : Bool := match w with | .fabric _ | .reply .. => true | _ => false

/-- A team can be saved: its producers, copies and carousel commands have ended, its frames and spawn records stand in memory,
every REL, FENCE, BIND and UNBIND has completed, and no engine trap is due (R186, R187, R218, R244). -/
def State.canSave (s : State) (tm : Team) : Bool :=
  let trays := s.trays.filter fun (t : Tray) => t.team == tm.id
  (s.prods.all fun (x : Producer) => !s.ownedBy tm.id x.owner) &&
    (s.cmds.all fun (k : Cmd) => k.team != tm.id || k.rests) &&
    (tm.spawns.all fun (x : Spawn) => x.written) && !unsettled tm.front.wait &&
    trays.all fun (t : Tray) =>
      (t.frames.all fun (f : Frame) => f.spill != .pending && !(f.held && f.spill == .written)) &&
        (t.frontier.all fun (e : Entry) => !unsettled e.wait) && (!s.engineTrapDue t.id || t.trap.isSome)

/-- An ACQ or WAITNE that waits is abandoned: it issues again (R244). -/
def abandonWait (w : Wait) : Wait := match w with | .acq .. | .waitne .. => .none | w => w

/-- A tray as its image holds it: no reservation, no waiting ACQ or WAITNE (R186, R244). -/
def Tray.saved (tr : Tray) : Tray :=
  let settle (es : List Entry) : List Entry := es.map fun (e : Entry) => { e with wait := abandonWait e.wait }
  { tr with
    frontier := settle tr.frontier, trap := tr.trap.map fun (ts : TrapState) => { ts with frontier := settle ts.frontier }
    resv := Vector.replicate 32 none }

/-- A team as its image holds it. -/
def Team.saved (tm : Team) : Team :=
  { tm with fate := .run, front := { tm.front with wait := abandonWait tm.front.wait, resv := none } }

/-- The next multiple of 64 KiB. -/
def roundUp64k (a : Nat) : Nat := (a + 65535) / 65536 * 65536

/-- Where a request's next image begins in its area: after its own images and those that still await restore (R346). -/
def State.imageOffset (s : State) (ctx area used : Nat) : Nat :=
  let ends := (s.sched.saved.filter fun (x : Saved) => x.ctx == ctx && x.area == area).map fun (x : Saved) => x.off + x.len
  roundUp64k (area + ends.foldl Nat.max used) - area

/-- Every saved team that waits for no PIFO entry is released into the PIFO (R348, R362, R366). -/
def State.releaseSaved (s : State) : State :=
  let back := s.sched.saved.filter fun (x : Saved) => s.sched.pifo.all fun (e : PifoEntry) => e.work != .saved x.id
  back.foldl (fun s x => match s.launch? x.team.launch with
    | some l => s.enqueue (.saved x.id) l.itemPrio l.deadline l.est
    | none => s) s

/-- The save requests of a die that goes offline are over. -/
def State.endDieSaves (s : State) : State :=
  { s with sched := { s.sched with preempts := s.sched.preempts.filter fun (p : Preempt) => match p.kind with | .die _ => false | _ => true } }

/-- A die's offline request ends with a status (R365). -/
def State.dieStatus (s : State) (status : Nat) : State :=
  { s with pkg := { s.pkg with diectl := (s.pkg.diectl &&& 0x0FFFFFFF#32) ||| BitVec.ofNat 32 (status * 2 ^ 28) } }

/-- The save requests of a die that goes offline are given up: what is saved is released, and the other teams run on (R346,
R367). -/
def State.refuseDie (s : State) (status : Nat) : State :=
  let ps := s.sched.preempts.filter fun (p : Preempt) => match p.kind with | .die _ => true | _ => false
  let ids := ps.map fun (p : Preempt) => p.id
  let s : State := { s with
    teams := s.teams.map fun (t : Team) => match t.fate with
      | .save _ r | .drain _ _ r => if ids.contains r then { t with fate := .run } else t
      | .run => t }
  (s.endDieSaves.dieStatus status).releaseSaved

/-- A team whose image has no room (R346). -/
def State.noImageRoom (s : State) (tm : Team) (p : Preempt) : State :=
  match p.kind with
  | .die false => s.refuseDie 3
  | .die true =>
    s.stopContext p.ctx 0x14 { cause := 0x14, bench := tm.bench, teamno := tm.teamno }
  | _ =>
    if s.restartable tm then s.discardLaunch tm.launch else s.setFate tm.id (.drain 0 p.area p.id)

/-- A section of an image begins 64-byte aligned: where it ends, what follows is free (R186, log 11). -/
def align64 (a : Nat) : Nat := (a + 63) / 64 * 64

/-- The sections of an image with their offsets, from an offset on, and where they end (R186). -/
def layOut (off : Nat) : List (List Byte) → List (Nat × List Byte) × Nat
  | [] => ([], off)
  | x :: xs => ((off, x) :: (layOut (align64 (off + x.length)) xs).1, (layOut (align64 (off + x.length)) xs).2)

/-- Bytes of the image whose form the manual does not give: part k (R186, log 11). -/
def State.formless (s : State) (k : Nat) : List Byte := Config.saveImageBytes (s.tick * 65536 + k)

/-- The header of an image: 256 bytes, in a form that is not given (R186). -/
def State.imageHeader (s : State) : List Byte := (List.range 256).map fun i => (Config.freeValue (s.tick * 65536 + i)).setWidth 8

/-- Registers as an image holds them, and their full bits (R186, log 11). -/
def regBytes (rs : List Reg) : List Byte := (rs.flatMap fun r => leBytes 4 r.val.toNat) ++ rs.map fun r => BitVec.ofNat 8 r.full.toNat

/-- The v regions of a tray that are in use: the base block, the frames that are not spilled, the extended block (R186). -/
def Tray.regions (tr : Tray) : List Byte :=
  let regs (n : Nat) (vs : Slots (Vector Reg n)) : List Byte := regBytes (vs.toList.flatMap fun v => v.toList)
  regs 32 tr.base ++ ((tr.frames.filter (·.held)).flatMap fun f => regs 16 f.regs) ++
    (match tr.ext with | some e => regs 16 e | none => [])

/-- The section of a tray (R186). -/
def State.traySection (s : State) (k : Nat) (tr : Tray) : List Byte :=
  s.formless (2 * k + 1) ++ regBytes tr.sregs.toList ++ s.formless (2 * k + 2) ++ tr.regions

/-- The decision queue: 64 entries and the push position; places that hold no decision are free (R152, R186). -/
def State.queueSection (s : State) (tm : Team) : List Byte :=
  (List.range 64).flatMap (fun j =>
    leBytes 8 (match tm.dq[(j + 64 - tm.dqBase % 64) % 64]? with
      | some d => d.toNat
      | none => (Config.freeValue (s.tick * 65536 + 256 + j)).toNat)) ++ leBytes 8 (tm.dqBase + tm.dq.length)

/-- The front strand (R186). -/
def State.frontSection (s : State) (tm : Team) : List Byte :=
  (tm.front.fregs.toList.flatMap fun r => leBytes 8 r.val.toNat) ++ (tm.front.fregs.toList.map fun r => BitVec.ofNat 8 r.full.toNat) ++
    [tm.front.preds] ++ leBytes 8 tm.front.pc.toNat ++ s.formless 0 ++ tm.front.stack.flatMap fun a => leBytes 8 a.toNat

/-- Storage of n bytes: the bitmap of its valid sectors, then each valid sector (R186). -/
def Store.section (st : Store) (n : Nat) : List Byte :=
  let bit (i : Nat) : Nat := (st.valid.contains i).toNat
  ((List.range ((n / 128 + 7) / 8)).map fun i => BitVec.ofNat 8 ((List.range 8).map fun b => bit (8 * i + b) * 2 ^ b).sum) ++
    ((List.range (n / 128)).filter st.valid.contains).flatMap fun i => (List.range 128).map fun b => st.read (128 * i + b)

/-- The sections of a team's image, in the manual's order: the matrix section holds each array's accumulator rows and scale memory, and the
sequencer blocks and step indexes of its MLOOPs (R186). -/
def State.imageSections (s : State) (tm : Team) (l : Launch) : List (List Byte) :=
  let trays := s.trays.filter fun (t : Tray) => t.team == tm.id
  let used := s.arrays.filter fun (a : ArrayState) => a.holder == some tm.id
  [s.imageHeader] ++ ((List.range trays.length).zip trays).map (fun (k, t) => s.traySection k t) ++
    [s.queueSection tm, s.frontSection tm, tm.shared.section l.shmem] ++
    (trays.filter (·.landed.isSome)).map (fun t => t.scratch.section 16384) ++
    used.map (fun a => (a.acc.flatMap fun x => x.2.flatMap fun w => leBytes 4 w.toNat) ++
      (a.scale.flatMap fun x => leBytes 4 x.2.toNat) ++
      ((s.onArray a.bench a.num).flatMap fun k => match k.op with
        | .mloop _ blk _ => if k.team == tm.id then blk.flatMap (fun w => leBytes 4 w.toNat) ++ leBytes 2 k.steps else []
        | _ => []) ++ s.formless (1024 + a.num)) ++
    [(tm.spawns ++ tm.formed.flatMap (·.spawns)).flatMap fun x => x.image]

/-- What a saved team leaves: itself, its trays and arrays, its resting commands, whose steps begin again. -/
def State.takeOut (s : State) (tm : Team) (ctx area off len : Nat) : Nat × State :=
  let (id, s) := s.fresh
  let cmds := (s.cmds.filter fun (k : Cmd) => k.team == tm.id && k.rests).map fun k => { k with tags := [], got := [] }
  let x : Saved :=
    { id := id, ctx := ctx, area := area, off := off, len := len, team := tm.saved
      trays := (s.trays.filter fun (t : Tray) => t.team == tm.id).map Tray.saved
      arrays := s.arrays.filter fun (a : ArrayState) => a.holder == some tm.id, cmds := cmds }
  let s : State := { s with
    cmds := s.cmds.filter fun (k : Cmd) => !(cmds.any fun (c : Cmd) => c.id == k.id)
    sched := { s.sched with saved := s.sched.saved ++ [x] } }
  (id, s.dropTeam tm.id)

/-- TEAM_SAVE of team `id`: its image is written in its version, once what it began has ended and the lower TEAMNOs of its
request are saved; an uncorrectable error of class `err` in unit `n` (a hub slice under `flag`) met meanwhile stops the context (R185 to
R187, R346). -/
def execTeamSave (s : State) : Answer :=
  match s.around s.input.id with
  | none => .next s
  | some (tm, l, c) =>
    match tm.fate with
    | .save area req =>
      (match s.sched.preempts.find? fun (p : Preempt) => p.id == req with
       | none => .next s
       | some p =>
         let first := (s.teamsOf c.id).all fun (t : Team) => match t.fate with
           | .save _ r => r != req || tm.teamno ≤ t.teamno
           | _ => true
         if !s.canSave tm || !first then .next s
         else match s.input.err with
           | some cls =>
             .next (s.memoryFailed c.id cls s.input.n s.input.val.toNat s.input.flag
               { cause := 0x13, ver := c.gid s.devNo l.ver, bench := tm.bench, teamno := tm.teamno })
           | none =>
             let (parts, len) := layOut 0 (s.imageSections tm l)
             let off := s.imageOffset c.id area p.used
             if 2 ^ 26 < off + len then .next (s.noImageRoom tm p)
             else
               let s := parts.foldl (fun s x => s.ctxWrite c l.ver (area + off + x.1) x.2) s
               let (id, s) := s.takeOut tm c.id area off len
               let s : State := { s with sched := { s.sched with
                 preempts := s.sched.preempts.map fun (q : Preempt) => if q.id == req then { q with used := off + len } else q } }
               let s := s.reported tm.id tm.teamno 3 off
               .next (match p.kind with
                 | .item _ | .slice => s.enqueue (.saved id) l.itemPrio l.deadline l.est
                 | _ => s))
    | _ => .next s

/-- The place of a saved tray on a bench: a landed tray goes to a landing slot of its die, every other to a lane (R13, R187). -/
def State.placeSaved (s : State) (l : Launch) (bench : Nat) (tr : Tray) : Option State :=
  let at_ : Option (Nat × Nat × Nat) := match tr.landed with
    | some _ => ((s.landingSlots (dieOf tr.bench)).head?).map fun (b, k) => (b, 62 + k, 0)
    | none => (s.laneFor l bench tr.used).map fun lane => (bench, lane, s.freePos bench lane)
  at_.map fun (b, lane, pos) =>
    { s with trays := s.trays ++ [{ tr with bench := b, lane := lane, pos := pos, fairClk := s.clk
                                            landed := if tr.landed.isSome then some (lane - 62) else none }] }

/-- A bench has the arrays that an image needs free. -/
def State.arraysFree (s : State) (x : Saved) (bench : Nat) : Bool :=
  x.arrays.all fun (a : ArrayState) => s.arrays.all fun (b : ArrayState) => !(b.bench == bench && b.num == a.num && b.holder.isSome)

/-- A team of the same bench unit stands on another bench (R18). -/
def State.gangElsewhere (s : State) (l : Launch) (x : Saved) (bench : Nat) : Bool :=
  s.teams.any fun (t : Team) => t.launch == l.id && t.teamno / l.gang == x.team.teamno / l.gang && t.bench != bench

/-- Restore a saved team on a bench, if the bench can supply all it needs at once (R23, R187). -/
def State.restoreOn (s : State) (x : Saved) (bench : Nat) : Option State :=
  match s.launch? x.team.launch with
  | none => none
  | some l =>
    if !s.placeFor l bench || !s.arraysFree x bench || s.gangElsewhere l x bench then none
    else
      (x.trays.foldlM (fun (s : State) tr => s.placeSaved l bench tr) s).map fun s =>
        let s := (s.boundCtx x.ctx).onUnitDie l.id x.team.teamno bench
        let arrays := x.arrays.map fun (a : ArrayState) => { a with bench := bench }
        { s with
          teams := s.teams ++ [{ x.team with bench := bench }]
          arrays := (s.arrays.filter fun (b : ArrayState) => !(arrays.any fun (a : ArrayState) => a.bench == b.bench && a.num == b.num)) ++
            arrays
          cmds := s.cmds ++ x.cmds.map fun (k : Cmd) => if k.op.array?.isSome then { k with bench := bench } else k
          sched := { s.sched with saved := s.sched.saved.filter fun (y : Saved) => y.id != x.id } }

/-- The saved teams of a team's bench unit, which are restored together (R18). -/
def State.savedGang (s : State) (l : Launch) (x : Saved) : List Saved :=
  s.sched.saved.filter fun (y : Saved) => y.team.launch == l.id && y.team.teamno / l.gang == x.team.teamno / l.gang

/-- Restore a saved team where it can be, with the others of its bench unit: in ascending TEAMNO of its launch (R160), on one of the
benches that can hold them, which is a free choice. -/
def State.restore? (s : State) (x : Saved) : Option State :=
  match s.launch? x.team.launch with
  | none => none
  | some l =>
    let unit := x.team.teamno / l.gang
    let first := (s.sched.saved.all fun (y : Saved) => y.team.launch != l.id || unit ≤ y.team.teamno / l.gang) &&
      s.sched.slots.all fun (b : BindRec) => b.launch != l.id || unit ≤ b.teamno / l.gang
    if s.quiescing || !first then none
    else
      let gang := s.savedGang l x
      let ok := (s.benchesFor l (s.partOfCtx x.ctx) x.team.teamno).filterMap fun b =>
        gang.foldlM (fun (s : State) y => s.restoreOn y b) s
      (ok[(Config.freeValue s.tick).toNat % ok.length]?).map fun t =>
        { t with sched := { t.sched with
            pifo := t.sched.pifo.filter fun (e : PifoEntry) => !(gang.any fun (y : Saved) => e.work == .saved y.id) } }

/-- A PIFO entry can be released now: its item need not wait, its saved team has a place (R18, R187, R335, R344, R351). -/
def State.eligible (s : State) (e : PifoEntry) : Bool :=
  match e.work with
  | .item it => !s.orderWaits it && !s.draftWaits it && !(it.kind == 8 && s.sched.update.isSome)
  | .saved id => (match s.sched.saved.find? fun (x : Saved) => x.id == id with | some x => (s.restore? x).isSome | none => true)
  | .group g => !s.draftGroupWaits g
  | .launch _ => true

/-- The entry of smallest rank, the oldest of equal ones (R338). -/
def smallestRank (r : Option PifoEntry) (e : PifoEntry) : Option PifoEntry :=
  match r with
  | some x => if e.rank < x.rank || (e.rank == x.rank && e.arrival < x.arrival) then some e else some x
  | none => some e

/-- PIFO_RELEASE from the PIFO's 4,096 entries (R187, R338, R339, R341). A RECORD item is tested where it arrives (R341). -/
def execPifoRelease (s : State) : Answer :=
  if s.pkg.dead then .next s
  else match ((s.sched.pifo.take pifoRoom).filter s.eligible).foldl smallestRank none with
  | none => .next s
  | some e =>
    let s : State := { s with sched := { s.sched with pifo := s.sched.pifo.filter fun (x : PifoEntry) => x.arrival != e.arrival } }
    match e.work with
    | .item it =>
      if it.kind != 2 && s.itemLate it then .next (s.lateItem it)
      else .next { s with agenda := .event (itemEvent it.kind.toNat) { Input.blank with item := it } :: s.agenda }
    | .launch id => .next (s.releaseLaunch id)
    | .group g => .next (s.releaseGroup e g)
    | .saved id =>
      (match s.sched.saved.find? fun (x : Saved) => x.id == id with
       | some x => .next ((s.restore? x).getD s)
       | none => .next s)

/-- An image is accepted: both signatures verify, and its version is not below the fused minimum (R388). -/
def imageOk (bs : List Byte) : Bool := Config.imageVerifies bs && Config.minimumVersion.toNat ≤ (Config.securityVersion bs).toNat

/-- ITEM_UPDATE: the standby boots and verifies the image, and imports the state table when it can (R351, R388). The image's
length stands in its header, whose layout the manual does not give. -/
def execItemUpdate (s : State) : Answer :=
  let it := s.input.item
  match s.ctx? (itemCtx it) with
  | none => .next (s.failItem it 0x01)
  | some c =>
    match s.ctxRead c 0 it.arg0.toNat (Config.freeValue s.tick).toNat with
    | some bs =>
      if imageOk bs && Config.freeBit s.tick then
        .next { s with sched := { s.sched with update := some it, updImage := bs } }
      else .next (s.failItem it 0x01)
    | none => .next (s.failItem it 0x01)

/-- TAKEOVER: between two steps no item is partly taken; the tables carry over. The image may fill the rank-program slot, with what it
holds (R338, R351, log 150). -/
def execTakeover (s : State) : Answer :=
  match s.sched.update with
  | none => .next s
  | some it =>
    let s : State := { s with
      sched := { s.sched with
        update := none, updImage := [], activeB := !s.sched.activeB
        rankProg := if Config.freeBit s.tick then some s.sched.updImage else s.sched.rankProg }
      pkg := { s.pkg with images := s.pkg.images ++ [s.sched.updImage] } }
    .next (s.endItem it (resultWord 1 0))

end Sys2Proof.Machine
end

