-- ==== Sys2Proof/Machine/Package.lean ====
section
/-!
DEFINITION. Machine/Package.lean: what the host does to the package: chains (R384), its memory (R385), the package registers
(R359, R361, R365, R372, R391), quiesce (R362, R387), dies off line (R364 to R369), the home table (R199), boot, attestation,
power and reset (R358, R388 to R391).
-/

namespace Sys2Proof.Machine

/-- TAIL_POLL of chain `id` (R384). -/
def execTailPoll (s : State) : Answer :=
  match s.chain? s.input.id with
  | none => .next s
  | some ch =>
    if !ch.active then .next s
    else .next (s.modChain ch.num fun x => { x with tail := leNat (s.physRead ch.recAddr 8), polled := s.time, rung := false })

/-- The partition of a function: physical function 0, numbered 384 here, has chains of its own; which partition is its is
not given (log 60). -/
def partOfFn (fn : Nat) : Nat := if fn == 384 then 0 else fn / 6

/-- A function is enabled in its partition (R383, R386). -/
def State.fnEnabled (s : State) (fn : Nat) : Bool :=
  match s.part? (partOfFn fn) with
  | some p => fn == 384 || (fn < 384 && fn % 6 < p.vfs)
  | none => false

/-- A function's slot as it was, or one that no write has reached. -/
def State.slotOf (s : State) (fn n : Nat) : Chain :=
  (s.chain? (fn * 4 + n)).getD
    { fn := fn, slot := n, part := partOfFn fn, reg := 0, active := false, refused := false, tail := 0, taken := 0, nextSeq := 0,
      rung := false, polled := 0, open_ := [] }

/-- Put a chain into its slot. -/
def State.putChain (s : State) (ch : Chain) : State :=
  { s with sched := { s.sched with chains := (s.sched.chains.filter fun (x : Chain) => x.num != ch.num) ++ [ch] } }

/-- CHAIN_REGISTER: CHAIN`n` of function `id` is written with EN = 1 (R384). -/
def execChainRegister (s : State) : Answer :=
  let ch := s.slotOf s.input.id s.input.n
  let v := s.input.val
  if !s.fnEnabled s.input.id || 4 ≤ s.input.n || !v.getLsbD 0 || ch.active then .next s
  else
    let addr := v.toNat / 64 * 64
    let twice := s.sched.chains.any fun (x : Chain) => x.active && x.recAddr == addr
    if v.extractLsb' 1 5 != 0 || !s.visible ch.part addr 64 || twice then
      .next (s.putChain { ch with reg := v, refused := true })
    else
      let tail := s.physRead addr 8
      let s := s.physWrite (addr + 8) (tail ++ leBytes 4 1)
      .next (s.putChain
        { ch with reg := v, active := true, refused := false, tail := leNat tail, taken := leNat tail, nextSeq := 1, rung := false,
                  polled := s.time, open_ := [] })

/-- CHAIN_RETIRE: CHAIN`n` of function `id` is written with EN = 0 (R384). Items are taken in one step, so that none is partly
taken. -/
def execChainRetire (s : State) : Answer :=
  if !s.fnEnabled s.input.id || 4 ≤ s.input.n || s.input.val.getLsbD 0 then .next s
  else .next (s.putChain { s.slotOf s.input.id s.input.n with reg := s.input.val, active := false, rung := false })

/-- DOORBELL of function `id` (R384). -/
def execDoorbell (s : State) : Answer :=
  .next { s with sched := { s.sched with
    chains := s.sched.chains.map fun (ch : Chain) =>
      if ch.fn == s.input.id && ch.active && ch.slot < 4 && s.input.val.getLsbD ch.slot then { ch with rung := true } else ch } }

/-- Where a wait looks follows its place. -/
def Wait.moved (f : Loc → Loc) : Wait → Wait
  | .acq obj v n t va scope act => .acq (f obj) v n t va scope act
  | .waitne t0 n ws adv range => .waitne t0 n (ws.map fun (w : Watch) => { w with loc := f w.loc }) adv range
  | w => w

/-- The first of a key's lines at each place: a place that moved may meet another name of its own page (R198), and the older
line stands, as it is seen. -/
def firstLines : List VLine → List VLine
  | [] => []
  | x :: xs => x :: (firstLines xs).filter fun y => !(y.key == x.key && y.loc == x.loc)

/-- The first of a key's tags at each line. -/
def firstTags : List VTag → List VTag
  | [] => []
  | x :: xs => x :: (firstTags xs).filter fun y => !(y.key == x.key && y.loc == x.loc)

/-- Storage moves: what names a place follows it. -/
def State.reloc (s : State) (f : Loc → Loc) : State :=
  let entries (es : List Entry) : List Entry := es.map fun (e : Entry) => { e with wait := e.wait.moved f }
  { s with
    vlines := firstLines (s.vlines.map fun (x : VLine) => { x with loc := f x.loc })
    vtags := firstTags (s.vtags.map fun (x : VTag) => { x with loc := f x.loc })
    shadows := s.shadows.map fun (x : ShadowSector) => { x with loc := f x.loc }
    strays := s.strays.map fun (x : Stray) => { x with loc := f x.loc }
    past := s.past.map fun (e : Past) => { e with loc := f e.loc }
    trays := s.trays.map fun (tr : Tray) =>
      { tr with
        frontier := entries tr.frontier, trap := tr.trap.map fun (ts : TrapState) => { ts with frontier := entries ts.frontier }
        resv := Slots.gen fun t => tr.resv[t].map f }
    teams := s.teams.map fun (tm : Team) =>
      { tm with front := { tm.front with wait := tm.front.wait.moved f, resv := tm.front.resv.map f } } }

/-- Write a range's frames back: protected sectors with their deltas (R379, R381), and nothing of it is dirty in a hub slice. -/
def State.cleanRange (s : State) (h : HomeEntry) : State :=
  let mine (sec : Nat) : Bool := h.frame ≤ sec / 512 && sec / 512 < h.frame + h.pages
  let s := s.writeBackFor mine
  { s with hubDirty := s.hubDirty.filter fun x => !mine (8 * x) }

/-- Write a range pinned in a tile store back to its frames: its valid sectors with their lines' tags, protected ones with their deltas
(R195, R261, R381). -/
def State.flushPin (s : State) (i : Nat) : State :=
  match s.homeTab[i]? with
  | none => s
  | some h =>
    let s := h.store.valid.foldl (fun (s : State) k =>
      { s with mem := s.mem.writeN (h.frame * 65536 + 128 * k) (h.store.bytes.readN (128 * k) 128) }) s
    let s := ((h.store.valid.map fun k => k / 8).eraseDups).foldl (fun (s : State) x =>
      { s with tags := Sparse.put 0 s.tags (h.frame * 64 + x) (Sparse.get 0 h.store.tags x) }) s
    s.cleanRange h

/-- A pinned range rests in HBM from now on: its contents are written back and its places follow (R195). -/
def State.unpin (s : State) (i : Nat) : State :=
  match s.homeTab[i]? with
  | none => s
  | some h =>
    if !h.valid then s
    else if h.home == 3 then
      let s := (s.flushPin i).reloc fun l => match l with | .pin e o => if e == i then .hbm (h.frame * 65536 + o) else l | _ => l
      { s with homeTab := modAt (fun (h : HomeEntry) => { h with home := 0, store := Store.empty }) s.homeTab i }
    else if h.home == 2 then s.cleanRange h
    else s

/-- Every dirty line of the hub L2 is written back, protected sectors with their deltas, and every line that is not pinned is invalidated
(R362). -/
def State.flushHub (s : State) : State :=
  let hub (sec : Nat) : Bool := match s.physLoc (sec * 128) with | .hbm _ => true | _ => false
  let s := s.writeBackFor hub
  { s with hubDirty := [], copies := s.copies.filter fun x => x.attr.home == 2 }

/-- The pending variant is fit (R361). -/
def State.variantOk (s : State) : Bool :=
  let n := s.pkg.nliveNew.toNat
  88 ≤ n && n ≤ 96 && ((List.range 96).filter fun i => s.pkg.liveNew.getLsbD i).length == n &&
    s.pkg.fenced.all fun i => !s.pkg.liveNew.getLsbD i

/-- Lines of a pinned range on each hub slice (R360). -/
def State.pinLines (s : State) (h : HomeEntry) : List Nat :=
  let at_ := (List.range (h.pages * 64)).map fun i => s.slice h.ctx (BitVec.ofNat 64 (h.base + 1024 * i))
  (List.range 96).map fun i => (at_.filter (· == i)).length

/-- Pinned ranges whose lines no longer fit within 75 % of a slice, 6,144 lines, are demoted, in table order (R362). -/
def State.demote (s : State) : State :=
  let go (acc : List Nat × List HomeEntry × Bool) (h : HomeEntry) : List Nat × List HomeEntry × Bool :=
    if h.valid && h.home == 2 && !h.lost then
      let sum := (acc.1.zip (s.pinLines h)).map fun (a, b) => a + b
      if sum.all fun n => n ≤ 6144 then (sum, acc.2.1 ++ [h], acc.2.2)
      else (acc.1, acc.2.1 ++ [{ h with home := 0 }], true)
    else (acc.1, acc.2.1 ++ [h], acc.2.2)
  let (_, tab, any) := s.homeTab.foldl go (List.replicate 96 0, [], false)
  { s with homeTab := tab, pkg := { s.pkg with quiesce := s.pkg.quiesce ||| (if any then 2 else 0) } }

/-- A pending variant is installed, or rejected (R361, R362). -/
def State.installVariant (s : State) : State :=
  if !s.pkg.pend then s
  else if !s.variantOk then { s with pkg := { s.pkg with pend := false, nliveNew := s.pkg.nlive, liveNew := s.pkg.live } }
  else ({ s with pkg := { s.pkg with pend := false, nlive := s.pkg.nliveNew, live := s.pkg.liveNew } } : State).demote

/-- The partition that a record of 128 bytes describes, with its reserved fields 0 or not; none when it is not valid (R386). -/
def partRecord (id : Nat) (bs : List Byte) : Option (Partition × Bool) :=
  let bench := fieldAt bs 0 24
  let flags := fieldAt bs 0x33 1
  if flags % 2 == 0 then none
  else
    some
      ({ id := id, benches := (List.range 192).filter fun b => bench.testBit b, l2q := fieldAt bs 0x18 4, carq := fieldAt bs 0x1C 2
         fabsh := fieldAt bs 0x1E 2, tsq := (List.range 4).map fun k => fieldAt bs (0x20 + 4 * k) 4, fabctx := fieldAt bs 0x30 2
         vfs := fieldAt bs 0x32 1, pgroup := fieldAt bs 0x38 8
         hbm := (List.range 4).map fun k => (fieldAt bs (0x40 + 16 * k) 8, fieldAt bs (0x48 + 16 * k) 8) },
        flags / 2 == 0 && fieldAt bs 0x34 4 == 0)

/-- Sets of numbers that share none. -/
def disjoint : List (List Nat) → Bool
  | [] => true
  | x :: xs => (xs.all fun y => x.all fun n => !y.contains n) && disjoint xs

/-- Ranges that share no frame; an empty range shares none. -/
def apart : List (Nat × Nat) → Bool
  | [] => true
  | r :: rs => (rs.all fun q => r.2 == 0 || q.2 == 0 || r.1 + r.2 ≤ q.1 || q.1 + q.2 ≤ r.1) && apart rs

/-- The conditions on a partition table (R387). -/
def tableOk (nlive : Nat) (ps : List (Partition × Bool)) : Bool :=
  let parts := ps.map fun (x : Partition × Bool) => x.1
  let sum (f : Partition → Nat) : Nat := (parts.map f).sum
  (ps.all fun (x : Partition × Bool) => x.2 && 3 ≤ x.1.benches.length) && disjoint (parts.map fun (p : Partition) => p.benches) &&
    apart (parts.flatMap fun (p : Partition) => p.hbm) && sum (fun p => p.l2q) ≤ nlive * 8 && sum (fun p => p.carq) ≤ 1024 &&
    sum (fun p => p.fabsh) ≤ 1024

/-- The bytes of the partition table at PARTTAB (R386). -/
def State.tableBytes (s : State) : List Byte := (List.range 64).flatMap fun i => s.physRead (s.pkg.parttab.toNat + 128 * i) 128

/-- The partition table takes effect, or is refused whole (R387); one that is not aligned is refused too. -/
def State.installTable (s : State) : State :=
  let ps := (List.range 64).filterMap fun i => partRecord i (s.physRead (s.pkg.parttab.toNat + 128 * i) 128)
  if s.pkg.parttab.toNat % 64 == 0 && tableOk s.pkg.nlive.toNat ps then
    { s with pkg := { s.pkg with parts := ps.map fun (x : Partition × Bool) => x.1 } }
  else { s with pkg := { s.pkg with quiesce := s.pkg.quiesce ||| 4 } }

/-- Bind records whose bench left dispatch or its partition are written for another one; those of one gang stay together
(R18, R343, R366). -/
def State.retarget (s : State) : State :=
  let bad := s.sched.slots.filter fun (b : BindRec) => !(s.benchesOf (s.partOfCtx b.ctx)).contains b.bench
  bad.foldl (fun (s : State) b =>
    match s.launch? b.launch with
    | none => s
    | some l =>
      let unit := b.teamno / l.gang
      let bs := s.benchesFor l (s.partOfCtx b.ctx) b.teamno
      match bs[(Config.freeValue (s.tick + unit)).toNat % bs.length]? with
      | some n => ({ s with sched := { s.sched with
          slots := s.sched.slots.map fun (x : BindRec) => if x.id == b.id then { x with bench := n } else x } } : State).onUnitDie
            l.id b.teamno n
      | none => s) s

/-- The save requests of a kind have nothing left to save. -/
def State.savesOver (s : State) (mine : PreemptKind → Bool) : Bool :=
  s.sched.preempts.all fun (p : Preempt) => !mine p.kind || p.left.isEmpty

/-- Begin to save teams of every context into its own area (R336, R362, R366). -/
def State.saveTeams (s : State) (kind : PreemptKind) (mine : Team → Bool) : State :=
  s.ctxs.foldl (fun (s : State) c =>
    match (s.teamsOf c.id).filter mine with
    | [] => s
    | ts => s.startPreempt kind c.id c.save.toNat 0 ts fun _ => .save) s

/-- QUIESCE: a write of 1 begins it; the same step, once every team is saved, does the rest (R361, R362, R387). -/
def execQuiesce (s : State) : Answer :=
  if !s.quiescing then
    let s : State := { s with pkg := { s.pkg with quiesce := 1 } }
    .next (s.saveTeams .quiesce fun _ => true)
  else if !s.savesOver (· == .quiesce) || !s.teams.isEmpty then .next s
  else
    let s := s.flushHub
    let s := ({ s with promoted := [] } : State).installVariant.installTable
    let s : State := { s with
      pkg := { s.pkg with quiesce := s.pkg.quiesce &&& 6 }
      sched := { s.sched with preempts := s.sched.preempts.filter fun (p : Preempt) => p.kind != .quiesce } }
    .next s.retarget.releaseSaved

/-- L2HSEL_WRITE: L2HSEL under `id` 0, L2LIVE0 to L2LIVE2 under 1 to 3 (R361). -/
def execL2hselWrite (s : State) : Answer :=
  let v := s.input.val
  let put (k : Nat) : State :=
    let keep := s.pkg.liveNew &&& ~~~((BitVec.allOnes 32).setWidth 96 <<< (32 * k))
    { s with pkg := { s.pkg with liveNew := keep ||| ((v.setWidth 32).setWidth 96 <<< (32 * k)), pend := true } }
  match s.input.id with
  | 0 => .next { s with pkg := { s.pkg with nliveNew := v.setWidth 7, pend := true } }
  | 1 => .next (put 0)
  | 2 => .next (put 1)
  | 3 => .next (put 2)
  | _ => .next s

/-- The ranges that CXL.mem maps: which of them system software marks as host-visible is not given, and the model takes the
1 TiB of HBM (R4, R385, log 66). -/
def hostSees (addr : Nat) : Bool := addr < 2 ^ 40

/-- DIECTL as written, with its status (R365). -/
def dieCtl (v : BitVec 64) (go : Bool) (status : Nat) : Word :=
  (v.setWidth 32 &&& 0x000001FF#32) ||| BitVec.ofNat 32 (status * 2 ^ 28 + go.toNat * 2 ^ 31)

/-- A die that can be taken off line and stands in the package (R365, R7). -/
def State.dieNamed (s : State) (v : BitVec 64) : Bool :=
  let die := v.toNat % 16
  (die < 4 || (s.cap 0 && (die == 7 || die == 8))) && v.extractLsb' 4 3 == 0

/-- The request record at DIEREQ is fit (R365). -/
def State.dieRecordOk (s : State) : Bool :=
  let a := s.pkg.diereq.toNat
  a % 64 == 0 && hostSees a && (s.physRead (a + 40) 24).all (· == 0)

/-- An optical die's ports go down (R366). -/
def State.portsDown (s : State) (die : Nat) : State :=
  (List.range 16).foldl (fun (s : State) p => if portDie p == die then s.setPort p (portWord false 0 0) else s) s

/-- A team is bound to a die, or a tray of it has landed there (R366). -/
def State.onDie (s : State) (die : Nat) (tm : Team) : Bool :=
  dieOf tm.bench == die || s.trays.any fun (t : Tray) => t.team == tm.id && dieOf t.bench == die

/-- Start to take a die off line (R366). -/
def State.startOffline (s : State) (v : BitVec 64) : State :=
  let die := v.toNat % 16
  if die < 4 then
    let s : State := { s with pkg := { s.pkg with diectl := dieCtl v true 1 } }
    s.saveTeams (.die (v.getLsbD 7)) (s.onDie die)
  else
    let s : State := { s with pkg := { s.pkg with diectl := dieCtl v false 2, offline := s.pkg.offline ++ [die] } }
    s.portsDown die

/-- The die for n units of a partition that leave a die: the first of the next three with room and quota (R367, R386). -/
def State.evacTo (s : State) (die part n : Nat) : Option (Nat × Nat) :=
  (([1, 2, 3] : List Nat).map fun i => (die + i) % 4).findSome? fun d =>
    let quota := match s.part? part with | some p => p.tsq.getD d 0 | none => if part < 64 then 0 else tileUnits
    if s.pkg.offline.contains d || quota < s.tileUsed part d + n then none
    else (s.tileSpace d n).map fun first => (d, first)

/-- Evacuate one pinned range (R367); none when the request is refused. -/
def State.evacPin (s : State) (die i : Nat) : Option State :=
  match s.homeTab[i]? with
  | none => some s
  | some h =>
    if !h.valid || h.home != 3 || h.aff.toNat != die || h.lost then some s
    else
      let s := s.flushPin i
      let set (f : HomeEntry → HomeEntry) : State := { s with homeTab := modAt f s.homeTab i }
      match s.evacTo die (s.partOfCtx h.ctx) h.pages with
      | some (d, _) => some (set fun (x : HomeEntry) => { x with aff := BitVec.ofNat 2 d })
      | none =>
        if !s.pkg.nodemote.getLsbD i then some (s.unpin i)
        else if s.pkg.diectl.getLsbD 7 then some (set fun (x : HomeEntry) => { x with lost := true })
        else none

/-- Evacuate one allocation (R367). -/
def State.evacAlloc (s : State) (die id : Nat) : Option State :=
  match s.alloc? id with
  | none => some s
  | some a =>
    if a.die != die || a.lost then some s
    else match s.evacTo die (s.partOfCtx a.ctx) a.units with
      | some (d, first) => some (s.modAlloc id fun (x : Alloc) => { x with die := d, first := first })
      | none => if s.pkg.diectl.getLsbD 7 then some (s.modAlloc id fun (x : Alloc) => { x with lost := true }) else none

/-- Evacuate a die: pinned ranges in table order, then allocations (R367). -/
def State.evacuate (s : State) (die : Nat) : Option State :=
  ((List.range s.homeTab.length).foldlM (fun (s : State) i => s.evacPin die i) s).bind fun s =>
    (s.allocs.map fun (a : Alloc) => a.id).foldlM (fun (s : State) id => s.evacAlloc die id) s

/-- Renumber cars from the place behind the ring's last one to free numbers, the lowest first (log 61). -/
def renumber (count : Nat) (cars : List Car) : List Car :=
  cars.foldl (fun (cs : List Car) c =>
    if c.num < count then cs
    else match (List.range count).find? fun n => cs.all fun (x : Car) => x.num != n with
      | some n => cs.map fun (x : Car) => if x.num == c.num then { x with num := n } else x
      | none => cs) cars

/-- The carousel shrinks: cars beyond the first 896 by BOARD time are freed with their records (R368). Cars stand in the order
in which they were boarded. -/
def State.shrinkRing (s : State) : State :=
  let gone := s.ring.cars.drop 896
  let s : State := { s with ring :=
    { cars := renumber 896 (s.ring.cars.take 896), turn := s.ring.turn % 1152, size := 1152, count := 896, freed := [] } }
  gone.foldl (fun (s : State) c => s.record c.owner { cause := 0x14, info := true, d0 := c.name.setWidth 64 }) s

/-- What the report of a die's evacuation lists: ranges demoted to HOME 00, ranges and allocations lost, tiles evicted (R367). -/
def dieReport (die : Nat) (before after : State) : List (Nat × Nat) :=
  let pins := (List.range before.homeTab.length).zip (before.homeTab.zip after.homeTab)
  (pins.filterMap fun (i, h, h') =>
      if h.valid && h.home == 3 && h.aff.toNat == die && !h.lost then
        (if h'.lost then some (1, i) else if h'.home == 0 then some (0, i) else none)
      else none) ++
    ((before.allocs.zip after.allocs).filterMap fun (a, a') => if a.die == die && !a.lost && a'.lost then some (1, a.handle) else none) ++
    (before.ring.cars.drop 896).map fun c => (2, c.name.toNat)

/-- A compute die leaves (R366 to R368). -/
def State.finishOffline (s : State) (die : Nat) : State :=
  match s.evacuate die with
  | none => s.refuseDie 3
  | some s' =>
    let report := dieReport die s s'
    let s := s'
    let lost := (s.homeTab.any fun (h : HomeEntry) => h.lost && h.valid && h.aff.toNat == die) ||
      s.allocs.any fun (a : Alloc) => a.lost && a.die == die
    let s := if s.pkg.report == 0 then s else s.physWrite s.pkg.report.toNat (Config.dieReportBytes report)
    let s := s.shrinkRing
    let s : State := { s with
      arrays := s.arrays.filter fun (a : ArrayState) => dieOf a.bench != die
      pkg := { s.pkg with offline := s.pkg.offline ++ [die] } }
    (s.retarget.endDieSaves.dieStatus (if lost then 4 else 2)).releaseSaved

/-- DIE_OFFLINE: under `k` 0 the host writes DIECTL with GO; under 1 die `id` goes with FORCE for a failed link (R358); under 2
its teams are saved and the rest follows (R364 to R368). A second compute die is a bad request of the host's, as is a die that is off line
already (log 63). -/
def execDieOffline (s : State) : Answer :=
  let v := s.input.val
  match s.input.k with
  | 0 =>
    if s.goingOff.isSome || !v.getLsbD 31 || v.getLsbD 8 then .next s
    else if !s.dieNamed v || !s.dieRecordOk || s.pkg.offline.contains (v.toNat % 16) || (v.toNat % 16 < 4 && s.bypassed.isSome) then
      .next { s with pkg := { s.pkg with diectl := dieCtl v false 5 } }
    else
      let a := s.pkg.diereq.toNat
      let s : State := { s with pkg := { s.pkg with
        nodemote := BitVec.ofNat 256 (leNat (s.physRead a 32)), report := BitVec.ofNat 64 (leNat (s.physRead (a + 32) 8)) } }
      .next (s.startOffline v)
  | 1 =>
    let v := BitVec.ofNat 64 (s.input.id + 128)
    if s.goingOff.isSome || !s.dieNamed v || s.pkg.offline.contains s.input.id then .next s
    else .next (({ s with pkg := { s.pkg with nodemote := 0, report := 0 } } : State).startOffline v)
  | _ =>
    match s.goingOff with
    | none => .next s
    | some die =>
      if s.savesOver (fun k => match k with | .die _ => true | _ => false) && !(s.teams.any (s.onDie die)) then
        .next (s.finishOffline die)
      else .next s

/-- DIE_READMIT (R364, R365, R369). The die's tile store holds nothing; its links' replays begin anew. -/
def execDieReadmit (s : State) : Answer :=
  let v := s.input.val
  let die := v.toNat % 16
  if s.goingOff.isSome || !v.getLsbD 31 || !v.getLsbD 8 then .next s
  else if !s.dieNamed v || !s.pkg.offline.contains die then .next { s with pkg := { s.pkg with diectl := dieCtl v false 5 } }
  else
    let s : State := { s with pkg := { s.pkg with
      diectl := dieCtl v false 2, offline := s.pkg.offline.filter (· != die)
      replays := s.pkg.replays.filter fun x => x.1 / 16 != die } }
    .next (if die < 4 && s.bypassed.isNone then { s with ring := { s.ring with turn := s.ring.turn % 1024, size := 1024, count := 1024 } } else s)

/-- FABNO_WRITE: a write while a port is up is ignored (R372). -/
def execFabnoWrite (s : State) : Answer :=
  if s.pkg.portstat.toList.any fun p => p.getLsbD 31 then .next s
  else .next { s with pkg := { s.pkg with fabno := s.input.val.setWidth 4 } }

/-- PWRCAP_WRITE (R391). Whether a value outside 1,000 to 3,500 is kept is not said: a free choice. -/
def execPwrcapWrite (s : State) : Answer :=
  let v := s.input.val.toNat % 4096
  if (1000 ≤ v && v ≤ 3500) || Config.freeBit s.tick then .next { s with pkg := { s.pkg with pwrcap := BitVec.ofNat 12 v } }
  else .next s

/-- A home-table entry of 32 bytes, with its reserved fields as they have to be (R199). -/
def homeEntryOf (bs : List Byte) : HomeEntry × Bool :=
  let flags := fieldAt bs 0x0E 1
  let ctx := fieldAt bs 0x0C 2
  let home := BitVec.ofNat 2 flags
  ({ base := fieldAt bs 0 8, pages := fieldAt bs 8 4, ctx := ctx, home := home, aff := BitVec.ofNat 2 (flags / 4)
     w := flags.testBit 4, vers := flags.testBit 5, prot := flags.testBit 6, valid := flags.testBit 7
     frame := fieldAt bs 0x10 8 % 2 ^ 36, store := Store.empty, lost := false },
   fieldAt bs 0 8 % 65536 == 0 && 1 ≤ fieldAt bs 8 4 && fieldAt bs 8 4 ≤ 2 ^ 24 && ctx < 4096 && home.getLsbD 1 &&
     fieldAt bs 0x0F 1 == 0 && fieldAt bs 0x10 8 < 2 ^ 36 && fieldAt bs 0x18 8 == 0)

/-- Write home-table entry i on all four dies: the old range is unpinned first. An entry that is not fit, or that has no room, is
not valid (log 64). -/
def State.writeHome (s : State) (i : Nat) (bs : List Byte) : State :=
  let s := s.unpin i
  let tab := s.homeTab ++ List.replicate (i + 1 - s.homeTab.length) (homeEntryOf []).1
  let s : State := { s with homeTab := modAt (fun (h : HomeEntry) => { h with valid := false }) tab i }
  let (h, ok) := homeEntryOf bs
  { s with homeTab := modAt (fun _ => { h with valid := h.valid && ok && s.pinFits h }) s.homeTab i }

/-- REGISTER_WRITE of the register at offset `id`: DIECTL without GO, DIEREQ, FABTO, PARTTAB (R359, R365), or entry
(`id` − 0x10000)/32 of the home table, whose 32 bytes are `bytes` (R199; its place is the model's, log 64). -/
def execRegisterWrite (s : State) : Answer :=
  let v := s.input.val
  let o := s.input.id
  if o == 0x20 then
    if s.goingOff.isSome || v.getLsbD 31 then .next s
    else .next { s with pkg := { s.pkg with diectl := dieCtl v false (s.pkg.diectl.extractLsb' 28 3).toNat } }
  else if o == 0x28 then .next { s with pkg := { s.pkg with diereq := v } }
  else if o == 0x44 then .next { s with pkg := { s.pkg with fabto := v.setWidth 32 } }
  else if o == 0x48 then .next { s with pkg := { s.pkg with parttab := v } }
  else if 0x10000 ≤ o && o < 0x12000 && o % 32 == 0 && s.input.bytes.length == 32 then
    .next (s.writeHome ((o - 0x10000) / 32) s.input.bytes)
  else .next s

/-- CXL_MEM_WRITE: the host writes bytes of frames (R385). -/
def execCxlMemWrite (s : State) : Answer :=
  .next (s.input.cells.foldl (fun (s : State) x =>
    if hostSees x.1 then s.physWrite x.1 [x.2] else s) s)

/-- CXL_MEM_READ: the host reads `n` bytes from address `id` (R385). -/
def execCxlMemRead (s : State) : Answer :=
  if !hostSees (s.input.id + s.input.n - 1) then .next s
  else .next { s with outbox := s.outbox ++
    [.cxlData ((List.range s.input.n).map fun i => s.byteSeen [] (s.physLoc (s.input.id + i)))] }

/-- CLOCK_STEP: one step of 93.75 MHz, up under `flag`, from 750 MHz to 1.5 GHz (R391). -/
def execClockStep (s : State) : Answer :=
  .next { s with pkg := { s.pkg with
    clock := if s.input.flag then Nat.min (s.pkg.clock + 1) 16 else Nat.max (s.pkg.clock - 1) 8 } }

/-- THERMAL_TRIP: no context state survives (R391). -/
def execThermalTrip (s : State) : Answer :=
  .next { State.reset with
    variant := s.variant, pkg := { Pkg.reset with power := .tripped }, outbox := s.outbox ++ [.trip], tick := s.tick
    nextId := s.nextId }

/-- POWER_ON_BOOT with the firmware images that F's boot ROM finds (R388). -/
def execPowerOnBoot (s : State) : Answer :=
  let ok := !s.input.images.isEmpty && s.input.images.all imageOk
  .next { State.reset with
    variant := s.variant, outbox := s.outbox, tick := s.tick, nextId := s.nextId
    pkg := { Pkg.reset with power := if ok then .running else .inReset, images := if ok then s.input.images else [] } }

/-- HOST_RESET: the device accepts work again and removed benches return (R185, R358). What else a host reset leaves is not
given: the model keeps HBM and the images (log 65). -/
def execHostReset (s : State) : Answer :=
  .next { State.reset with
    variant := s.variant, mem := s.mem, tags := s.tags, outbox := s.outbox, tick := s.tick, nextId := s.nextId
    pkg := { Pkg.reset with power := s.pkg.power, images := s.pkg.images } }

/-- DEBUGGER_RESUME: the tray or strand that BRK stopped goes on (R169). -/
def execDebuggerResume (s : State) : Answer :=
  match s.input.agent with
  | .tray id _ => .next (s.modTray id fun tr => { tr with stopped := false })
  | .front t => .next (s.modFront t fun f => { f with stopped := false })
  | .none => .next s

/-- What an attestation report says (R389); the order of its parts is the model's (log 12). -/
def State.reportBody (s : State) (nonce : List Byte) : List Byte :=
  s.pkg.images.flatMap Config.sha384 ++ s.pkg.images.flatMap (fun (x : List Byte) => leBytes 4 (Config.securityVersion x).toNat) ++
    Config.tableHash s.tableBytes ++ nonce

/-- ATTESTATION_REQUEST with a nonce of 32 bytes (R389). -/
def execAttestationRequest (s : State) : Answer :=
  let nonce := s.input.bytes
  if nonce.length != 32 then .next s
  else
    let body := s.reportBody nonce
    .next { s with outbox := s.outbox ++ [.report (body ++ Config.signEd25519 body ++ Config.signMlDsa65 body)] }

end Sys2Proof.Machine
end

