-- ==== Sys2Proof/Machine/Sys.lean ====
section
/-!
DEFINITION. Machine/Sys.lean: major 30, the system instructions (R169, R178).
-/

namespace Sys2Proof.Machine

/-- TRAP (R169). -/
def execTrap (p : Pfx) (s : State) : Answer :=
  .next (s.run p (groupSize p) {} fun c s =>
    s.raise c { code := 0x1A, mask := if c.front then 0 else c.act, d0 := p.immU.setWidth 64 })

/-- ERET: illegal with no trap in progress, and so in front code (R151, R169, R178). -/
def execEret (s : State) : Answer :=
  .next (s.run Pfx.empty 4 {} fun c s =>
    match c.tray.trap with
    | some ts => (s.eret c ts).retrySpawns c.team.id
    | none => s.raise c { code := 0x01, mask := c.act })

/-- BRK: an attached debugger is told and the issuer stops; else nothing happens (R169). -/
def execBrk (p : Pfx) (s : State) : Answer :=
  .next (s.run p (groupSize p) {} fun c s =>
    let s := s.retire c
    if !c.cx.debugger then s
    else
      let s := { s with outbox := s.outbox ++ [Out.brk (if c.front then c.team.id else c.tray.id)] }
      if c.front then s.modFront c.team.id fun fr => { fr with stopped := true }
      else s.modTray c.tray.id fun tr => { tr with stopped := true })

/-- NOP (R169). -/
def execNop (s : State) : Answer := .next (s.run Pfx.empty 4 {} fun c s => s.retire c)

/-- WAITT (R169): the value is compared as a signed number. -/
def execWaitt (p : Pfx) (f : FA) (s : State) : Answer :=
  let a : Src := match p.imm with | some _ => .imm p.immX | none => .reg f.a 2 f.ta .int
  .next (s.run p (groupSize p) { srcs := [a], once := true } fun c s =>
    let v := c.val64 a c.low
    if v.toInt ≤ s.time then s.retire c else s.waitAt c (.waitt v c.size))

/-- KILL: every thread of the tray ends (R169). -/
def execKill (s : State) : Answer :=
  .next (s.run Pfx.empty 4 {} fun c s => (s.counted c).endSlots c.tray.id (BitVec.allOnes 32))

end Sys2Proof.Machine
end

