-- ==== Sys2Proof/Machine/Dispatch.lean ====
section
/-!
DEFINITION. Machine/Dispatch.lean: one arm for each operation, each a call of its meaning.
-/

namespace Sys2Proof.Machine

/-- The meaning of an operation in a state. -/
def exec (i : Instr) (s : State) : Host.Outcome State Fault Refusal :=
  match i with
  | .add p f => Sys2Proof.Machine.execAdd p f s
  | .sub p f => Sys2Proof.Machine.execSub p f s
  | .mul p f => Sys2Proof.Machine.execMul p f s
  | .mulh p f => Sys2Proof.Machine.execMulh p f s
  | .mulhu p f => Sys2Proof.Machine.execMulhu p f s
  | .min p f => Sys2Proof.Machine.execMin p f s
  | .max p f => Sys2Proof.Machine.execMax p f s
  | .minu p f => Sys2Proof.Machine.execMinu p f s
  | .maxu p f => Sys2Proof.Machine.execMaxu p f s
  | .div p f => Sys2Proof.Machine.execDiv p f s
  | .divu p f => Sys2Proof.Machine.execDivu p f s
  | .rem p f => Sys2Proof.Machine.execRem p f s
  | .remu p f => Sys2Proof.Machine.execRemu p f s
  | .and p f => Sys2Proof.Machine.execAnd p f s
  | .or p f => Sys2Proof.Machine.execOr p f s
  | .xor p f => Sys2Proof.Machine.execXor p f s
  | .andn p f => Sys2Proof.Machine.execAndn p f s
  | .shl p f => Sys2Proof.Machine.execShl p f s
  | .shr p f => Sys2Proof.Machine.execShr p f s
  | .sra p f => Sys2Proof.Machine.execSra p f s
  | .rol p f => Sys2Proof.Machine.execRol p f s
  | .ror p f => Sys2Proof.Machine.execRor p f s
  | .bcnt p f => Sys2Proof.Machine.execBcnt p f s
  | .clz p f => Sys2Proof.Machine.execClz p f s
  | .ctz p f => Sys2Proof.Machine.execCtz p f s
  | .bitrev p f => Sys2Proof.Machine.execBitrev p f s
  | .cmpeq p f => Sys2Proof.Machine.execCmpeq p f s
  | .cmpne p f => Sys2Proof.Machine.execCmpne p f s
  | .cmplt p f => Sys2Proof.Machine.execCmplt p f s
  | .cmple p f => Sys2Proof.Machine.execCmple p f s
  | .cmpltu p f => Sys2Proof.Machine.execCmpltu p f s
  | .cmpleu p f => Sys2Proof.Machine.execCmpleu p f s
  | .sel p f => Sys2Proof.Machine.execSel p f s
  | .pand p f => Sys2Proof.Machine.execPand p f s
  | .por p f => Sys2Proof.Machine.execPor p f s
  | .pxor p f => Sys2Proof.Machine.execPxor p f s
  | .pnot p f => Sys2Proof.Machine.execPnot p f s
  | .pfrom p f => Sys2Proof.Machine.execPfrom p f s
  | .pto p f => Sys2Proof.Machine.execPto p f s
  | .movi p f => Sys2Proof.Machine.execMovi p f s
  | .addi p f => Sys2Proof.Machine.execAddi p f s
  | .shli p f => Sys2Proof.Machine.execShli p f s
  | .shri p f => Sys2Proof.Machine.execShri p f s
  | .andi p f => Sys2Proof.Machine.execAndi p f s
  | .ori p f => Sys2Proof.Machine.execOri p f s
  | .xori p f => Sys2Proof.Machine.execXori p f s
  | .fadd p f => Sys2Proof.Machine.execFadd p f s
  | .fsub p f => Sys2Proof.Machine.execFsub p f s
  | .fmul p f => Sys2Proof.Machine.execFmul p f s
  | .fdiv p f => Sys2Proof.Machine.execFdiv p f s
  | .fmin p f => Sys2Proof.Machine.execFmin p f s
  | .fmax p f => Sys2Proof.Machine.execFmax p f s
  | .fscale p f => Sys2Proof.Machine.execFscale p f s
  | .fma p f => Sys2Proof.Machine.execFma p f s
  | .fms p f => Sys2Proof.Machine.execFms p f s
  | .fnma p f => Sys2Proof.Machine.execFnma p f s
  | .fsqrt p f => Sys2Proof.Machine.execFsqrt p f s
  | .frcpa p f => Sys2Proof.Machine.execFrcpa p f s
  | .frsqa p f => Sys2Proof.Machine.execFrsqa p f s
  | .fcmpeq p f => Sys2Proof.Machine.execFcmpeq p f s
  | .fcmpne p f => Sys2Proof.Machine.execFcmpne p f s
  | .fcmplt p f => Sys2Proof.Machine.execFcmplt p f s
  | .fcmple p f => Sys2Proof.Machine.execFcmple p f s
  | .fcmpun p f => Sys2Proof.Machine.execFcmpun p f s
  | .fclass p f => Sys2Proof.Machine.execFclass p f s
  | .ftstnf p f => Sys2Proof.Machine.execFtstnf p f s
  | .fexp2 p f => Sys2Proof.Machine.execFexp2 p f s
  | .flog2 p f => Sys2Proof.Machine.execFlog2 p f s
  | .fsin p f => Sys2Proof.Machine.execFsin p f s
  | .fcos p f => Sys2Proof.Machine.execFcos p f s
  | .ftanh p f => Sys2Proof.Machine.execFtanh p f s
  | .fsigm p f => Sys2Proof.Machine.execFsigm p f s
  | .phadd p f => Sys2Proof.Machine.execPhadd p f s
  | .phmul p f => Sys2Proof.Machine.execPhmul p f s
  | .phfma p f => Sys2Proof.Machine.execPhfma p f s
  | .phmax p f => Sys2Proof.Machine.execPhmax p f s
  | .pbadd p f => Sys2Proof.Machine.execPbadd p f s
  | .pbfma p f => Sys2Proof.Machine.execPbfma p f s
  | .f64add p f => Sys2Proof.Machine.execF64add p f s
  | .f64sub p f => Sys2Proof.Machine.execF64sub p f s
  | .f64mul p f => Sys2Proof.Machine.execF64mul p f s
  | .f64fma p f => Sys2Proof.Machine.execF64fma p f s
  | .f64div p f => Sys2Proof.Machine.execF64div p f s
  | .cvtfi p f => Sys2Proof.Machine.execCvtfi p f s
  | .cvtif p f => Sys2Proof.Machine.execCvtif p f s
  | .cvtfh p f => Sys2Proof.Machine.execCvtfh p f s
  | .cvthf p f => Sys2Proof.Machine.execCvthf p f s
  | .cvtfb p f => Sys2Proof.Machine.execCvtfb p f s
  | .cvtfd p f => Sys2Proof.Machine.execCvtfd p f s
  | .cvtdf p f => Sys2Proof.Machine.execCvtdf p f s
  | .pke4 p f => Sys2Proof.Machine.execPke4 p f s
  | .pke5 p f => Sys2Proof.Machine.execPke5 p f s
  | .unpe4 p f => Sys2Proof.Machine.execUnpe4 p f s
  | .unpe5 p f => Sys2Proof.Machine.execUnpe5 p f s
  | .unpi8 p f => Sys2Proof.Machine.execUnpi8 p f s
  | .unpi4 p f => Sys2Proof.Machine.execUnpi4 p f s
  | .pki8 p f => Sys2Proof.Machine.execPki8 p f s
  | .pki4 p f => Sys2Proof.Machine.execPki4 p f s
  | .idot4 p f => Sys2Proof.Machine.execIdot4 p f s
  | .idot8 p f => Sys2Proof.Machine.execIdot8 p f s
  | .bperm p f => Sys2Proof.Machine.execBperm p f s
  | .sext8 p f => Sys2Proof.Machine.execSext8 p f s
  | .sext16 p f => Sys2Proof.Machine.execSext16 p f s
  | .xpick p f => Sys2Proof.Machine.execXpick p f s
  | .xpickx p f => Sys2Proof.Machine.execXpickx p f s
  | .pall p f => Sys2Proof.Machine.execPall p f s
  | .pany p f => Sys2Proof.Machine.execPany p f s
  | .pmask p f => Sys2Proof.Machine.execPmask p f s
  | .traysum p f => Sys2Proof.Machine.execTraysum p f s
  | .ld8 p f => Sys2Proof.Machine.execLd8 p f s
  | .ld8s p f => Sys2Proof.Machine.execLd8s p f s
  | .ld16 p f => Sys2Proof.Machine.execLd16 p f s
  | .ld32 p f => Sys2Proof.Machine.execLd32 p f s
  | .ld64 p f => Sys2Proof.Machine.execLd64 p f s
  | .ld128 p f => Sys2Proof.Machine.execLd128 p f s
  | .lds p f => Sys2Proof.Machine.execLds p f s
  | .st8 p f => Sys2Proof.Machine.execSt8 p f s
  | .st16 p f => Sys2Proof.Machine.execSt16 p f s
  | .st32 p f => Sys2Proof.Machine.execSt32 p f s
  | .st64 p f => Sys2Proof.Machine.execSt64 p f s
  | .st128 p f => Sys2Proof.Machine.execSt128 p f s
  | .sts p f => Sys2Proof.Machine.execSts p f s
  | .stnt p f => Sys2Proof.Machine.execStnt p f s
  | .atadd p f => Sys2Proof.Machine.execAtadd p f s
  | .atmin p f => Sys2Proof.Machine.execAtmin p f s
  | .atmax p f => Sys2Proof.Machine.execAtmax p f s
  | .atand p f => Sys2Proof.Machine.execAtand p f s
  | .atxchg p f => Sys2Proof.Machine.execAtxchg p f s
  | .atcas p f => Sys2Proof.Machine.execAtcas p f s
  | .atfadd p f => Sys2Proof.Machine.execAtfadd p f s
  | .ldres p f => Sys2Proof.Machine.execLdres p f s
  | .stcnd p f => Sys2Proof.Machine.execStcnd p f s
  | .acq p f => Sys2Proof.Machine.execAcq p f s
  | .rel p f => Sys2Proof.Machine.execRel p f s
  | .fence p => Sys2Proof.Machine.execFence p s
  | .bind p f => Sys2Proof.Machine.execBind p f s
  | .unbind p f => Sys2Proof.Machine.execUnbind p f s
  | .waitne p f => Sys2Proof.Machine.execWaitne p f s
  | .cpy p f => Sys2Proof.Machine.execCpy p f s
  | .cpyt p f => Sys2Proof.Machine.execCpyt p f s
  | .ctag p f => Sys2Proof.Machine.execCtag p f s
  | .gath p f => Sys2Proof.Machine.execGath p f s
  | .tsalloc p f => Sys2Proof.Machine.execTsalloc p f s
  | .tsfree p f => Sys2Proof.Machine.execTsfree p f s
  | .publish p f => Sys2Proof.Machine.execPublish p f s
  | .mwld p f => Sys2Proof.Machine.execMwld p f s
  | .mstr p f => Sys2Proof.Machine.execMstr p f s
  | .mloop p f => Sys2Proof.Machine.execMloop p f s
  | .accpop p f => Sys2Proof.Machine.execAccpop p f s
  | .accclr p f => Sys2Proof.Machine.execAccclr p f s
  | .scpy p f => Sys2Proof.Machine.execScpy p f s
  | .mshape p f => Sys2Proof.Machine.execMshape p f s
  | .board p f => Sys2Proof.Machine.execBoard p f s
  | .catch_ p f => Sys2Proof.Machine.execCatch p f s
  | .alight p f => Sys2Proof.Machine.execAlight p f s
  | .rplc p f => Sys2Proof.Machine.execRplc p f s
  | .migrate f => Sys2Proof.Machine.execMigrate f s
  | .homeq p f => Sys2Proof.Machine.execHomeq p f s
  | .kvmap p f => Sys2Proof.Machine.execKvmap p f s
  | .kvld p f => Sys2Proof.Machine.execKvld p f s
  | .kvst p f => Sys2Proof.Machine.execKvst p f s
  | .osmx p f => Sys2Proof.Machine.execOsmx p f s
  | .osmxf p f => Sys2Proof.Machine.execOsmxf p f s
  | .verify p f => Sys2Proof.Machine.execVerify p f s
  | .sample p f => Sys2Proof.Machine.execSample p f s
  | .launch p f => Sys2Proof.Machine.execLaunch p f s
  | .launchs p f => Sys2Proof.Machine.execLaunchs p f s
  | .resolve p f => Sys2Proof.Machine.execResolve p f s
  | .squash p f => Sys2Proof.Machine.execSquash p f s
  | .verq p f => Sys2Proof.Machine.execVerq p f s
  | .postres p f => Sys2Proof.Machine.execPostres p f s
  | .xacq => Sys2Proof.Machine.execXacq s
  | .xrel => Sys2Proof.Machine.execXrel s
  | .ixset p f => Sys2Proof.Machine.execIxset p f s
  | .ixget f => Sys2Proof.Machine.execIxget f s
  | .ixmov f => Sys2Proof.Machine.execIxmov f s
  | .movsr f => Sys2Proof.Machine.execMovsr f s
  | .setpri p f => Sys2Proof.Machine.execSetpri p f s
  | .bra f => Sys2Proof.Machine.execBra f s
  | .brp f => Sys2Proof.Machine.execBrp f s
  | .brnp f => Sys2Proof.Machine.execBrnp f s
  | .brsp p f => Sys2Proof.Machine.execBrsp p f s
  | .call f => Sys2Proof.Machine.execCall f s
  | .ret => Sys2Proof.Machine.execRet s
  | .jmpi f => Sys2Proof.Machine.execJmpi f s
  | .loop p f => Sys2Proof.Machine.execLoop p f s
  | .dqpush f => Sys2Proof.Machine.execDqpush f s
  | .dqpop f => Sys2Proof.Machine.execDqpop f s
  | .meet => Sys2Proof.Machine.execMeet s
  | .meetl f => Sys2Proof.Machine.execMeetl f s
  | .exit p => Sys2Proof.Machine.execExit p s
  | .land => Sys2Proof.Machine.execLand s
  | .trap p => Sys2Proof.Machine.execTrap p s
  | .eret => Sys2Proof.Machine.execEret s
  | .brk p => Sys2Proof.Machine.execBrk p s
  | .nop => Sys2Proof.Machine.execNop s
  | .waitt p f => Sys2Proof.Machine.execWaitt p f s
  | .kill => Sys2Proof.Machine.execKill s
  | .mov f => Sys2Proof.Machine.execMov f s
  | .addC f => Sys2Proof.Machine.execAddC f s
  | .subC f => Sys2Proof.Machine.execSubC f s
  | .andC f => Sys2Proof.Machine.execAndC f s
  | .orC f => Sys2Proof.Machine.execOrC f s
  | .xorC f => Sys2Proof.Machine.execXorC f s
  | .shliC f => Sys2Proof.Machine.execShliC f s
  | .shriC f => Sys2Proof.Machine.execShriC f s
  | .addiC f => Sys2Proof.Machine.execAddiC f s
  | .moviC f => Sys2Proof.Machine.execMoviC f s
  | .faddC f => Sys2Proof.Machine.execFaddC f s
  | .fsubC f => Sys2Proof.Machine.execFsubC f s
  | .fmulC f => Sys2Proof.Machine.execFmulC f s
  | .fmaxC f => Sys2Proof.Machine.execFmaxC f s
  | .ld32C f => Sys2Proof.Machine.execLd32C f s
  | .st32C f => Sys2Proof.Machine.execSt32C f s
  | .loadReturn => Sys2Proof.Machine.execLoadReturn s
  | .longLatencyResult => Sys2Proof.Machine.execLongLatencyResult s
  | .spillWrite => Sys2Proof.Machine.execSpillWrite s
  | .fillRestore => Sys2Proof.Machine.execFillRestore s
  | .poolWaitServe => Sys2Proof.Machine.execPoolWaitServe s
  | .fairnessLapse => Sys2Proof.Machine.execFairnessLapse s
  | .spawnRecordWrite => Sys2Proof.Machine.execSpawnRecordWrite s
  | .formerTimeout => Sys2Proof.Machine.execFormerTimeout s
  | .formerLaunch => Sys2Proof.Machine.execFormerLaunch s
  | .formedTrayBind => Sys2Proof.Machine.execFormedTrayBind s
  | .frameFree => Sys2Proof.Machine.execFrameFree s
  | .barrierComplete => Sys2Proof.Machine.execBarrierComplete s
  | .acqWake => Sys2Proof.Machine.execAcqWake s
  | .waitneWake => Sys2Proof.Machine.execWaitneWake s
  | .waitneTimeout => Sys2Proof.Machine.execWaitneTimeout s
  | .waittWake => Sys2Proof.Machine.execWaittWake s
  | .engineTrap => Sys2Proof.Machine.execEngineTrap s
  | .cpyComplete => Sys2Proof.Machine.execCpyComplete s
  | .cpytCopyComplete => Sys2Proof.Machine.execCpytCopyComplete s
  | .ctagToken => Sys2Proof.Machine.execCtagToken s
  | .gathComplete => Sys2Proof.Machine.execGathComplete s
  | .publishInstant => Sys2Proof.Machine.execPublishInstant s
  | .mwldComplete => Sys2Proof.Machine.execMwldComplete s
  | .mstrStep => Sys2Proof.Machine.execMstrStep s
  | .mloopStep => Sys2Proof.Machine.execMloopStep s
  | .scpyComplete => Sys2Proof.Machine.execScpyComplete s
  | .accpopFill => Sys2Proof.Machine.execAccpopFill s
  | .kvldComplete => Sys2Proof.Machine.execKvldComplete s
  | .kvstComplete => Sys2Proof.Machine.execKvstComplete s
  | .carAdvance => Sys2Proof.Machine.execCarAdvance s
  | .stationRegister => Sys2Proof.Machine.execStationRegister s
  | .boardLoad => Sys2Proof.Machine.execBoardLoad s
  | .catchLatch => Sys2Proof.Machine.execCatchLatch s
  | .rplcServe => Sys2Proof.Machine.execRplcServe s
  | .alightServe => Sys2Proof.Machine.execAlightServe s
  | .carouselNotServed => Sys2Proof.Machine.execCarouselNotServed s
  | .migrateShip => Sys2Proof.Machine.execMigrateShip s
  | .bindRecordPlace => Sys2Proof.Machine.execBindRecordPlace s
  | .teamSave => Sys2Proof.Machine.execTeamSave s
  | .commitNoticeSend => Sys2Proof.Machine.execCommitNoticeSend s
  | .squashNoticeAck => Sys2Proof.Machine.execSquashNoticeAck s
  | .peerSquashNotice => Sys2Proof.Machine.execPeerSquashNotice s
  | .peerCommitNotice => Sys2Proof.Machine.execPeerCommitNotice s
  | .fabricRequest => Sys2Proof.Machine.execFabricRequest s
  | .fabricResponse => Sys2Proof.Machine.execFabricResponse s
  | .parityDelta => Sys2Proof.Machine.execParityDelta s
  | .drainMarkerAck => Sys2Proof.Machine.execDrainMarkerAck s
  | .crossbarGrant => Sys2Proof.Machine.execCrossbarGrant s
  | .linkCrcFail => Sys2Proof.Machine.execLinkCrcFail s
  | .linkFailed => Sys2Proof.Machine.execLinkFailed s
  | .portTrain => Sys2Proof.Machine.execPortTrain s
  | .fabtoExpiry => Sys2Proof.Machine.execFabtoExpiry s
  | .memberLost => Sys2Proof.Machine.execMemberLost s
  | .rebuildRequest => Sys2Proof.Machine.execRebuildRequest s
  | .replacementJoin => Sys2Proof.Machine.execReplacementJoin s
  | .itemTake => Sys2Proof.Machine.execItemTake s
  | .pifoRelease => Sys2Proof.Machine.execPifoRelease s
  | .itemNop => Sys2Proof.Machine.execItemNop s
  | .itemLaunch => Sys2Proof.Machine.execItemLaunch s
  | .itemRecord => Sys2Proof.Machine.execItemRecord s
  | .groupTimerLapse => Sys2Proof.Machine.execGroupTimerLapse s
  | .itemGraph => Sys2Proof.Machine.execItemGraph s
  | .itemCtxcreate => Sys2Proof.Machine.execItemCtxcreate s
  | .itemCtxctl => Sys2Proof.Machine.execItemCtxctl s
  | .itemInval => Sys2Proof.Machine.execItemInval s
  | .itemPreempt => Sys2Proof.Machine.execItemPreempt s
  | .itemUpdate => Sys2Proof.Machine.execItemUpdate s
  | .takeover => Sys2Proof.Machine.execTakeover s
  | .sliceLapse => Sys2Proof.Machine.execSliceLapse s
  | .drainDeadline => Sys2Proof.Machine.execDrainDeadline s
  | .tailPoll => Sys2Proof.Machine.execTailPoll s
  | .chainRegister => Sys2Proof.Machine.execChainRegister s
  | .chainRetire => Sys2Proof.Machine.execChainRetire s
  | .doorbell => Sys2Proof.Machine.execDoorbell s
  | .quiesce => Sys2Proof.Machine.execQuiesce s
  | .l2hselWrite => Sys2Proof.Machine.execL2hselWrite s
  | .dieOffline => Sys2Proof.Machine.execDieOffline s
  | .dieReadmit => Sys2Proof.Machine.execDieReadmit s
  | .fabnoWrite => Sys2Proof.Machine.execFabnoWrite s
  | .fabReconfig => Sys2Proof.Machine.execFabReconfig s
  | .pwrcapWrite => Sys2Proof.Machine.execPwrcapWrite s
  | .registerWrite => Sys2Proof.Machine.execRegisterWrite s
  | .cxlMemWrite => Sys2Proof.Machine.execCxlMemWrite s
  | .cxlMemRead => Sys2Proof.Machine.execCxlMemRead s
  | .clockStep => Sys2Proof.Machine.execClockStep s
  | .thermalTrip => Sys2Proof.Machine.execThermalTrip s
  | .powerOnBoot => Sys2Proof.Machine.execPowerOnBoot s
  | .tsallocHandleFill => Sys2Proof.Machine.execTsallocHandleFill s
  | .verifyResult => Sys2Proof.Machine.execVerifyResult s
  | .sampleResult => Sys2Proof.Machine.execSampleResult s
  | .hostReset => Sys2Proof.Machine.execHostReset s
  | .debuggerResume => Sys2Proof.Machine.execDebuggerResume s
  | .attestationRequest => Sys2Proof.Machine.execAttestationRequest s

end Sys2Proof.Machine
end

