-- ==== Sys2Proof/Machine/Arbiter.lean ====
section
/-!
DEFINITION. Machine/Arbiter.lean: fetching (R68, R82), which entry, tray and lane issues (R138 to R140, R160), and what else
may happen next. Where the manual orders two moves they are ordered here; where it does not, a free value picks (log 2).
-/

namespace Sys2Proof.Machine

/-- What stands at a PC: an instruction, or a cause at an address. -/
inductive Fetched where
  | op (i : Instr)
  | cause (code : Nat) (addr : DWord)
  deriving DecidableEq, Repr

/-- Bytes fetched, and the cause that ended the fetch with its offset (R68, R194). -/
def State.fetchFrom (s : State) (c : Ctx) : Nat → Nat → List Byte × Option (Nat × Nat)
  | 0, _ => ([], none)
  | n + 1, off =>
    match s.fetchByte c.cx c.ver c.team.id (c.ent.pc + BitVec.ofNat 64 off) with
    | .error e => ([], some (e, off))
    | .ok b => let (bs, r) := s.fetchFrom c n (off + 1); (b :: bs, r)

/-- Fetch the group at the PC of an entry: at most 12 bytes. What is illegal in the code's section is so before any guard, at no
address (log 131); a word that cannot be fetched whole raises its cause, 0x0A at the instruction's address (R68, R79, R82). -/
def State.fetchGroup (s : State) (c : Ctx) : Fetched :=
  let (bs, stop) := s.fetchFrom c 12 0
  match decode bs with
  | .ok (i, _) => if i.legal c.front then .op i else .cause 0x01 0
  | .error .short =>
    (match stop with
     | some (e, off) => .cause e (if e == 0x0A then c.ent.pc else c.ent.pc + BitVec.ofNat 64 off)
     | none => .cause 0x01 0)
  | .error _ => .cause 0x01 0

/-- The entry or strand that an agent names, with no prefixes. -/
def State.agentCtx (s : State) (a : Agent) : Option Ctx :=
  match a with
  | .none => none
  | .tray id k => s.trayCtx id k Pfx.empty 4
  | .front t => s.frontCtx t Pfx.empty 4

/-- The agent could issue if its instruction can: it runs and waits for nothing. -/
def State.canTry (s : State) (a : Agent) : Bool := ({ s with cur := a }.issuer Pfx.empty 4).isSome

/-- The state in which an agent's instruction takes effect: the agent issues, and its lane has taken its tray. -/
def State.begin (s : State) (a : Agent) : State :=
  match a with
  | .tray id _ => { s with cur := a, stalled := false }.modTray id fun tr => { tr with turn := s.tick }
  | _ => { s with cur := a, stalled := false }

/-- The page of a group is reached under the name of its address (R198). -/
def State.fetched (s : State) (c : Ctx) : State :=
  match s.resolve c.cx c.ver c.team.id none .fetch c.ent.pc with
  | .ok l a => s.named c.cx.id c.ent.pc l a
  | _ => s

/-- An agent issues: what it fetches raises its cause or takes its effect. -/
def State.issue (s : State) (a : Agent) : Answer :=
  match s.agentCtx a with
  | none => .next { s with cur := a, stalled := true }
  | some c =>
    if !s.canTry a then .next { s with cur := a, stalled := true }
    else match s.fetchGroup c with
      | .cause code addr => .next ((s.begin a).raise c { code := code, mask := c.ent.mask, addr := addr })
      | .op i => exec i ((s.begin a).fetched c)

/-- An agent is ready: its next instruction can issue (R139). -/
def State.ready (s : State) (a : Agent) : Bool :=
  s.canTry a && match s.issue a with
    | .next s' => !s'.stalled
    | _ => true

/-- The ready entries of a tray. -/
def State.readyEntries (s : State) (tr : Tray) : List (Nat × Entry) :=
  ((List.range tr.frontier.length).zip tr.frontier).filter fun (k, _) => s.ready (.tray tr.id k)

/-- The better of two entries: the higher block priority, then the lower lowest TID (R139); only the TID under a lapse of the
fairness counter (R138). -/
def betterEntry (tr : Tray) (a b : Nat × Entry) : Nat × Entry :=
  if !tr.lapsed && a.2.prio != b.2.prio then (if a.2.prio.toNat < b.2.prio.toNat then b else a)
  else if tr.lowTid b.2.mask < tr.lowTid a.2.mask then b else a

/-- The entry from which a tray issues (R138, R139). -/
def State.trayChoice (s : State) (tr : Tray) : Option Nat :=
  match s.readyEntries tr with
  | [] => none
  | e :: es => some (es.foldl (betterEntry tr) e).1

/-- The lane on which a tray competes: a landed tray's is named by its landing slot (R13). -/
def Tray.laneOf (tr : Tray) : Nat × Nat := (tr.bench, tr.lane)

/-- The thread of two with the lower identifier, each with its tray. -/
def lowerThread (a : Option (Nat × Nat)) (b : Nat × Nat) : Option (Nat × Nat) :=
  match a with
  | some x => if b.1 < x.1 then some b else some x
  | none => some b

/-- An entry's threads are blocked: it waits, or its call depth keeps it from issuing, or its instruction waits for registers or in a
decision-queue operation (R147, R159). What waits for a fabric route is not. -/
def State.blocked (s : State) (tr : Tray) (k : Nat) (e : Entry) : Bool :=
  match e.wait with
  | .none => e.depth != tr.frames.length || (s.canTry (.tray tr.id k) && !s.ready (.tray tr.id k))
  | .fabric _ => e.depth != tr.frames.length
  | _ => true

/-- The runnable threads of a tray, by identifier; those of a trap's saved frontier go on after it (R159, R176). -/
def State.runnableOf (s : State) (tm : Team) (tr : Tray) : List Nat :=
  let ids (e : Entry) : List Nat := (maskSlots e.mask).map fun t => tm.teamno * 1048576 + (tr.remap[t]).getD 0
  (((List.range tr.frontier.length).zip tr.frontier).flatMap fun (k, e) => if s.blocked tr k e then [] else ids e) ++
    (match tr.trap with | some ts => (ts.frontier.filter fun e => e.wait == .none).flatMap ids | none => [])

/-- The launch's runnable thread with the lowest identifier and its tray, 0 for a spawned one, which is runnable as well (R20, R143,
R159, R160). -/
def State.lowestRunnable (s : State) (launch : Nat) : Option (Nat × Nat) :=
  let teams := s.teams.filter fun tm => tm.launch == launch
  (teams.flatMap fun tm =>
    ((tm.spawns ++ tm.formed.flatMap (·.spawns)).map fun sp => (tm.teamno * 1048576 + sp.tid, 0)) ++
      (s.trays.filter (·.team == tm.id)).flatMap fun tr => (s.runnableOf tm tr).map fun i => (i, tr.id)).foldl lowerThread none

/-- A tray with a pending lapse that holds its launch's lowest runnable thread issues first (R160). -/
def State.promised (s : State) (tr : Tray) : Bool :=
  tr.lapsed && match s.team? tr.team with
    | some tm => (match s.lowestRunnable tm.launch with | some (_, id) => id == tr.id | none => false)
    | none => false

/-- The better of two ready trays of a lane: a promised one, then the higher issue priority, then the one taken longest ago
(R140, R160). -/
def State.betterTray (s : State) (a b : Tray × Nat) : Tray × Nat :=
  if s.promised a.1 != s.promised b.1 then (if s.promised b.1 then b else a)
  else if a.1.prio != b.1.prio then (if a.1.prio.toNat < b.1.prio.toNat then b else a)
  else if b.1.turn < a.1.turn then b else a

/-- For each lane with a ready tray, the entry that it issues (R140). -/
def State.laneMoves (s : State) : List Agent :=
  let rs := s.trays.filterMap fun tr => (s.trayChoice tr).map fun k => (tr, k)
  (rs.map fun (x : Tray × Nat) => x.1.laneOf).eraseDups.filterMap fun lane =>
    match rs.filter fun (x : Tray × Nat) => x.1.laneOf == lane with
    | [] => none
    | r :: rest =>
      let best := rest.foldl s.betterTray r
      some (.tray best.1.id best.2)

/-- The front strands that can issue (R140). -/
def State.frontMoves (s : State) : List Agent :=
  (s.teams.filter fun tm => s.ready (.front tm.id)).map fun tm => .front tm.id

/-- An event for the object with a number. -/
def eventAt (i : Instr) (id : Nat) (n : Nat := 0) (flag : Bool := false) : Move :=
  .event i { Input.blank with id := id, n := n, flag := flag }

/-- An event for an agent. -/
def agentEvent (i : Instr) (a : Agent) : Move := .event i { Input.blank with agent := a }

/-- What fills a kind of producer. -/
def fillEvent (k : ProdKind) : Instr :=
  match k with
  | .load => .loadReturn
  | .long => .longLatencyResult
  | .handle => .tsallocHandleFill
  | .verify => .verifyResult
  | .sample => .sampleResult

/-- Steps of a command of its kind. -/
def opEvents (op : CmdOp) : List Instr :=
  match op with
  | .cpy .. => [.cpyComplete]
  | .gath .. => [.gathComplete]
  | .cpyt .. => [.cpytCopyComplete]
  | .ctag .. => [.ctagToken]
  | .publish .. => [.publishInstant]
  | .mwld .. => [.mwldComplete]
  | .mstr .. => [.mstrStep]
  | .mloop .. => [.mloopStep]
  | .scpy .. => [.scpyComplete]
  | .accclr .. => []
  | .accpop .. => [.accpopFill]
  | .kvld .. => [.kvldComplete]
  | .kvst .. => [.kvstComplete]
  | .board .. => [.stationRegister, .boardLoad, .carouselNotServed]
  | .catchTile .. => [.stationRegister, .catchLatch, .carouselNotServed]
  | .rplc .. => [.stationRegister, .rplcServe, .carouselNotServed]
  | .alight _ => [.stationRegister, .alightServe, .carouselNotServed]

/-- The entries that may be a tray's next to issue when no engine trap stood before it: the one that it would issue from now, or any
while none is ready (R179). -/
def State.nextEntries (s : State) (tr : Tray) : List Nat :=
  let told (k : Cmd) : Cmd := match k.state with
    | .held c a d false => if k.owner == Owner.tray tr.id then { k with state := .held c a d true } else k
    | _ => k
  match ({ s with cmds := s.cmds.map told } : State).trayChoice tr with
  | some k => [k]
  | none => List.range tr.frontier.length

/-- Events of producers and commands. -/
def State.unitEvents (s : State) : List Move :=
  (s.prods.flatMap fun (x : Producer) => [eventAt (fillEvent x.kind) x.id, eventAt .loadReturn x.id]) ++
    s.cmds.flatMap fun (k : Cmd) =>
      (opEvents k.op).map (fun i => eventAt i k.id) ++
        match k.state, k.tray?.bind s.tray? with
        | .held .., none => [eventAt .engineTrap k.id]
        | .held _ _ _ false, some tr => (s.nextEntries tr).map fun n => eventAt .engineTrap k.id n
        | _, _ => []

/-- Events of an agent that waits. -/
def waitEvents (a : Agent) (w : Wait) : List Move :=
  match w with
  | .acq .. => [agentEvent .acqWake a]
  | .waitne .. => [agentEvent .waitneWake a, agentEvent .waitneTimeout a]
  | .waitt .. => [agentEvent .waittWake a]
  | .fabric _ => [.event .fabtoExpiry { Input.blank with k := 1, agent := a }]
  | _ => []

/-- The barrier episodes in which an entry's slots wait (R154). -/
def State.barriersOf (s : State) (tr : Tray) (e : Entry) : List Move :=
  match e.wait, s.around tr.team with
  | .meet level, some (tm, l, _) =>
    ((maskSlots e.mask).map fun t => threadNo tm l ((tr.remap[t]).getD 0) / extents (l.levels.take level)).eraseDups.map fun u =>
      .event .barrierComplete { Input.blank with barrier := { launch := l.id, level := level, unit := u } }
  | _, _ => []

/-- Events of a tray. -/
def State.trayEvents (s : State) (tr : Tray) : List Move :=
  (tr.frames.flatMap fun (f : Frame) => [eventAt .spillWrite tr.id f.uid, eventAt .fillRestore tr.id f.uid]) ++
    [eventAt .poolWaitServe tr.bench tr.lane tr.landed.isSome, eventAt .fairnessLapse tr.id, eventAt .frameFree tr.id,
     eventAt .migrateShip tr.id] ++
    ((List.range tr.frontier.length).zip tr.frontier).flatMap fun (k, e) =>
      waitEvents (.tray tr.id k) e.wait ++ s.barriersOf tr e

/-- Events of a team. -/
def teamEvents (tm : Team) : List Move :=
  (tm.spawns.flatMap fun (x : Spawn) =>
    let g : GroupKey := { team := tm.id, pc := x.pc, prio := x.prio.toNat }
    [eventAt .spawnRecordWrite x.id, .event .formerTimeout { Input.blank with group := g },
     .event .formerLaunch { Input.blank with group := g }]) ++
    (tm.formed.map fun (x : Formed) => eventAt .formedTrayBind tm.id x.id) ++
    [eventAt .teamSave tm.id, eventAt .drainDeadline tm.id] ++ waitEvents (.front tm.id) tm.front.wait

/-- Events of the command complex. -/
def State.schedEvents (s : State) : List Move :=
  (s.sched.chains.flatMap fun (ch : Chain) => [eventAt .itemTake ch.num, eventAt .tailPoll ch.num]) ++
    [.event .pifoRelease Input.blank, .event .takeover Input.blank] ++
    (s.sched.groups.map fun (x : Group) => eventAt .groupTimerLapse x.id) ++
    (s.launches.map fun (l : Launch) => eventAt .bindRecordPlace l.id) ++
    (s.sched.slots.map fun (x : BindRec) => eventAt .bindRecordPlace x.id 0 true) ++
    s.ctxs.map fun (c : Context) => eventAt .sliceLapse c.id

/-- Events of the fabric and the package. -/
def State.pkgEvents (s : State) : List Move :=
  (s.fab.flights.map fun (f : FabAccess) => eventAt .fabtoExpiry f.tag) ++
    (s.fab.notices.flatMap fun (n : NoticeOut) =>
      .event .fabtoExpiry { Input.blank with id := n.id, k := 2 } :: n.waits.map fun p => eventAt .commitNoticeSend n.id p) ++
    (s.pkg.replays.map fun (x : Nat × Nat) => eventAt .linkFailed (x.1 / 16) (x.1 % 16)) ++
    (if s.quiescing then [.event .quiesce Input.blank] else []) ++
    (if s.goingOff.isSome then [.event .dieOffline { Input.blank with k := 2 }] else [])

/-- Events that the device's own state may enable. -/
def State.ownEvents (s : State) : List Move :=
  .event .carAdvance Input.blank :: s.unitEvents ++ s.trays.flatMap s.trayEvents ++ s.teams.flatMap teamEvents ++ s.schedEvents ++
    s.pkgEvents

/-- An event happens. -/
def State.happen (s : State) (i : Instr) (x : Input) : Answer := exec i { s with cur := .none, input := x }

/-- A move would change the state: an event that is not enabled changes nothing. -/
def State.changes (s : State) (m : Move) : Bool :=
  match m with
  | .issue _ => true
  | .event i x => match s.happen i x with
    | .next t => t != { s with cur := .none, input := x }
    | _ => true

/-- Events that the host, a peer, a link or a failing part brings. -/
def fromOutside (i : Instr) : Bool :=
  match i with
  | .loadReturn | .catchLatch | .teamSave | .chainRegister | .chainRetire | .doorbell | .quiesce | .l2hselWrite | .dieOffline
  | .dieReadmit | .fabnoWrite | .fabReconfig | .pwrcapWrite | .registerWrite | .cxlMemWrite | .cxlMemRead | .clockStep
  | .thermalTrip | .powerOnBoot | .hostReset | .debuggerResume | .attestationRequest | .fabricRequest | .fabricResponse
  | .parityDelta | .drainMarkerAck | .crossbarGrant | .linkCrcFail | .portTrain | .memberLost | .rebuildRequest
  | .replacementJoin | .peerSquashNotice | .peerCommitNotice | .squashNoticeAck => true
  | _ => false

/-- What the world outside brings at a count of the model's steps: nothing is known of it (log 2). -/
opaque outside : Nat → Option (Instr × Input)

/-- What the world outside brings now; to a device whose dies do not run, only power or a boot (R388, R391). -/
def State.brought (s : State) : List Move :=
  match outside s.tick with
  | some (i, x) => if fromOutside i && (s.pkg.power == .running || i == .powerOnBoot) then [.event i x] else []
  | none => []

/-- The moves from which the next one is picked. -/
def State.moves (s : State) : List Move :=
  if s.pkg.power == .running then
    (s.laneMoves ++ s.frontMoves).map Move.issue ++ s.ownEvents.filter s.changes ++ s.brought
  else s.brought

/-- The next move, and the state without it: what is decided already comes first. -/
def State.nextMove (s : State) : Option (Move × State) :=
  match s.agenda with
  | m :: rest => some (m, { s with agenda := rest })
  | [] => (s.moves[Config.pick s.tick % s.moves.length]?).map fun m => (m, s)

/-- A move happens. -/
def State.perform (s : State) : Move → Answer
  | .issue a => s.issue a
  | .event i x => s.happen i x

/-- The device can do something: its dies run, or power comes back (R388, R391). -/
def State.alive (s : State) : Bool :=
  s.pkg.power == .running || !s.brought.isEmpty || (match s.agenda with | .event .powerOnBoot _ :: _ => true | _ => false)

end Sys2Proof.Machine
end

