-- ==== Sys2Proof/Machine/Step.lean ====
section
/-!
DEFINITION. Machine/Step.lean: one step of the device, and placing an instruction where the next step fetches it.
-/

namespace Sys2Proof.Machine

/-- One step: the next move happens. -/
def step (s : State) : Host.Outcome State Fault Refusal :=
  if !s.alive then .fault .unpowered
  else match s.nextMove with
    | some (m, s') => ({ s' with tick := s'.tick + 1 } : State).perform m
    | none => .next { s with tick := s.tick + 1 }

/-- The state with an instruction placed where the next step fetches it (log 8): a partition with four frames, a context whose
tables map one executable page, a launch of one team with one tray of one thread, and the code. What only front code may
hold is issued by the front strand. -/
def State.withFetchWord (s : State) (nbits w : Nat) : State :=
  let front := match decodeTableWord nbits w with | some i => !i.legal false && i.legal true | none => false
  let code := (List.range 12).map fun k => if 8 * k < nbits then BitVec.ofNat 8 (w / 2 ^ (8 * k)) else 0#8
  let part : Partition :=
    { id := 1, benches := [0], l2q := 0, carq := 0, fabsh := 0, tsq := [0, 0, 0, 0], fabctx := 1, vfs := 0, pgroup := 0,
      hbm := [(0x100, 4)] }
  let cx : Context :=
    { id := 1, part := 1, recAddr := 0, ccb := 0, root := 0x1000000, tsap := 0, save := 0, slice := 0, grace := 0, sqdrop := 0,
      estStep := 0, estCopy := 0, estBase := 0, vback := 0, trapPc := 0, fcBase := 0, fcCap := 0, stopped := false,
      stopCause := 0, fcHead := 0, fcLost := 0, lostPend := false, sticky := 0, approx := 0,
      streams := Vector.replicate 256 0x8000, versions := [], bindings := [], debugger := false, sliceStart := 0,
      engLast := Vector.replicate 4 0 }
  let la : Launch :=
    { id := 1, ctx := 1, ver := 0, recAddr := 0, trayPc := 0x10000, frontPc := 0x10000, regres := 0, prio := 0, restart := false,
      shmem := 0, spillBase := 0, spillStride := 0, fairPeriod := 4096, formerTimeout := 2048, args := Vector.replicate 8 0,
      levels := [{ scope := 0, dom := 0, extent := 32 }, { scope := 0, dom := 1, extent := 1 }], nextTeam := 1, endedTeams := 0,
      value := 0, cause := none, dest := .none, itemPrio := 0, deadline := 0, est := 0, stream := 0, role := 0, seq := 0, fn := 0, dies := [] }
  let fr : Front :=
    { status := if front then .running else .idle, fregs := Vector.replicate 32 FReg.zero, preds := 1, pc := 0x10000, loops := [],
      stack := [], prio := 0, wait := .none, resv := none, timehi := 0, stopped := false }
  let tm : Team :=
    { id := 1, launch := 1, teamno := 0, bench := 0, shared := Store.empty, front := fr, dq := [], dqBase := 0, spawns := [],
      formed := [], retired := 0, fate := .run }
  let tr : Tray :=
    { Tray.fresh with
      id := 1, team := 1, remap := (Vector.replicate 32 none).set 0 (some 0)
      frontier := [{ pc := 0x10000, prio := 0, mask := 1, depth := 0, loops := [], wait := .none, skip := 0 }] }
  let mem := s.mem.writeN 0x1000000 (leBytes 8 (0x101 * 65536 + 1))
  let mem := mem.writeN 0x1010000 (leBytes 8 (0x102 * 65536 + 1))
  let mem := mem.writeN 0x1020008 (leBytes 8 (0x103 * 65536 + 5))
  { s with
    pkg := { s.pkg with parts := [part] }, ctxs := [cx], launches := [la], teams := [tm], trays := [tr]
    mem := mem.writeN 0x1030000 code
    agenda := [.issue (if front then .front 1 else .tray 1 0)]
    copies := []
    nextId := s.nextId + 1 }

end Sys2Proof.Machine
end

