-- ==== Sys2Proof/Safety.lean ====
section
/-!
DEFINITION. Safety.lean: what claims say of states, issues and runs: which registers exist and what they hold, when a group
issues with its own effect, and the whole of the state that a group which only computes leaves as it was.
-/

namespace Sys2Proof.Machine

/-- Some step leads from one state to another. -/
def Steps (s t : State) : Prop := step s = .next t

/-- States reached from a state by steps. -/
inductive Reaches (s : State) : State → Prop where
  | refl : Reaches s s
  | tail {t u : State} : Reaches s t → Steps t u → Reaches s u

/-- A register that a tray has (R26, R33, R37). -/
def Tray.has (tr : Tray) : RegName → Bool
  | .base _ n => n < 32
  | .win u _ n => n < 16 && tr.frames.any fun f => f.uid == u
  | .ext _ n => n < 16 && tr.ext.isSome
  | .s n => n < 32
  | _ => false

/-- A register that a front strand has (R26, R151). -/
def Front.has (_ : Front) : RegName → Bool
  | .f n => n < 32
  | _ => false

/-- A register that exists. -/
def State.has (s : State) (o : Owner) (r : RegName) : Bool :=
  match o with
  | .tray id => (match s.tray? id with | some tr => tr.has r | none => false)
  | .front t => (match s.team? t with | some tm => tm.front.has r | none => false)

/-- What a register holds, and whether it is full (R26, R43). -/
def State.held (s : State) (o : Owner) (r : RegName) : DWord × Bool :=
  match o with
  | .tray id =>
    (match s.tray? id with
     | some tr => ((tr.reg r).val.setWidth 64, (tr.reg r).full)
     | none => (0, true))
  | .front t =>
    (match s.team? t with
     | some tm => ((tm.front.reg r).val, (tm.front.reg r).full)
     | none => (0, true))

/-- The value that a register takes from a write: only an f register has an upper half (R30). -/
def RegWrite.value (w : RegWrite) : Owner → DWord
  | .tray _ => w.val.setWidth 64
  | .front _ => dword w.val w.hi

/-- The last value that a list of writes gives a register. -/
def lastWrite (ws : List RegWrite) (r : RegName) : Option RegWrite := ws.reverse.find? fun w => w.reg == r

/-- A group issues with its own effect in a context: its agent can issue (R134, R137, R139, R151), a slot is active, no
predicate that it names waits for a clearing producer (R77), and in every active slot its operands raise nothing (R33, R37,
R40, R45), are full and not pending (R42, R44, R46), and name registers that exist. `u` is the state once the tokens and result
words among its sources are read (R225, R355, R392). -/
structure Issues (s : State) (p : Pfx) (size : Nat) (r : Req) (c : Ctx) (u : State) : Prop where
  agent : s.issuer p size = some { c with adv := [] }
  adv : c.adv = r.adv
  active : (c.act == 0) = false
  free : s.predsBusy c (p.guards ++ r.preds) = false
  sound : ∀ t ∈ maskSlots c.act, c.slotCause r t = none
  full : c.opsWait r = false
  there : ∀ d ∈ r.dsts, ∀ t : Fin 32, ∀ rs, c.names d.1 d.2 t = .ok rs → ∀ x ∈ rs, s.has c.owner x = true
  read : u = s.readTokens c r

/-- Two lists stand in a relation element by element. -/
def Paired {α β : Type} (R : α → β → Prop) : List α → List β → Prop
  | [], [] => True
  | x :: xs, y :: ys => R x y ∧ Paired R xs ys
  | _, _ => False

/-- Every register of a tray blank. -/
def blankRegs (n : Nat) : Slots (Vector Reg n) := Vector.replicate 32 (Vector.replicate n Reg.zero)

/-- A tray without its registers' contents, frontier, cursors and fairness counter: what a group that only computes leaves. -/
def Tray.still (tr : Tray) : Tray :=
  { tr with
    base := blankRegs 32
    frames := tr.frames.map fun f => { f with regs := blankRegs 16 }
    ext := tr.ext.map fun _ => blankRegs 16
    sregs := Vector.replicate 32 Reg.zero
    cursors := Vector.replicate 32 (Vector.replicate 8 0)
    frontier := [], lapsed := false, fairClk := 0 }

/-- A team without its front strand's registers, PC, loops and wait, and its count of retired groups. -/
def Team.still (tm : Team) : Team :=
  { tm with
    retired := 0
    front := { tm.front with fregs := Vector.replicate 32 FReg.zero, pc := 0, loops := [], wait := .none } }

/-- The whole state but for what the registers hold, where its agents stand, index cursors, fairness counters and counts of
retired groups: memory and every other store, predicates, every special register, producers, commands, the scheduler, the
fabric and the package are all in it. -/
def State.still (s : State) : State :=
  { s with trays := s.trays.map Tray.still, teams := s.teams.map Team.still, stalled := false }

/-- Every byte of every store reads the same to every observer. -/
def SameBytes (s t : State) : Prop := ∀ (ks : List VKey) (l : Loc), t.byteSeen ks l = s.byteSeen ks l

/-- Every predicate of every tray and strand reads the same. -/
def SamePreds (s t : State) : Prop :=
  (∀ id, (t.tray? id).map (·.preds) = (s.tray? id).map (·.preds)) ∧
  ∀ id, (t.team? id).map (·.front.preds) = (s.team? id).map (·.front.preds)

/-- Registers after some writes: those written hold the new values and are full, every other register of every tray and
strand is as before. -/
def RegsAfter (s t : State) (o : Owner) (ws : List RegWrite) : Prop :=
  ∀ (o' : Owner) (r : RegName),
    t.held o' r =
      if o' = o then
        match lastWrite ws r with
        | some w => (w.value o, true)
        | none => s.held o' r
      else s.held o' r

/-- Registers after some were marked empty: they keep their values (R47), every other register is as before. -/
def RegsMarked (s t : State) (o : Owner) (rs : List RegName) : Prop :=
  ∀ (o' : Owner) (r : RegName),
    t.held o' r = if o' = o ∧ r ∈ rs then ((s.held o' r).1, false) else s.held o' r

/-- The issuing entry after sequential flow past its group (R135, R150). -/
def Ctx.past (c : Ctx) : Entry := { c.ent.flowTo (c.ent.pc + BitVec.ofNat 64 c.size) with wait := .none }

/-- The issuing entry becomes another, merged with an equal one; every other entry and strand stands where it stood. -/
structure Moved (s t : State) (c : Ctx) (e : Entry) : Prop where
  trays : ∀ id, (t.tray? id).map (·.frontier) = (s.tray? id).map fun tr =>
    if c.front = false ∧ id = c.tray.id then mergeAll (modAt (fun _ => e) tr.frontier c.entry) else tr.frontier
  fronts : ∀ id, (t.team? id).map (fun tm => (tm.front.pc, tm.front.loops, tm.front.wait)) = (s.team? id).map fun tm =>
    if c.front = true ∧ id = c.team.id then (e.pc, e.loops, e.wait) else (tm.front.pc, tm.front.loops, tm.front.wait)

/-- A cursor after v[x+] (R40): modulo the bound in wrap mode, an 8-bit signed number else. -/
def IxDesc.next (d : IxDesc) (cur : BitVec 8) : BitVec 8 :=
  let bound : Int := d.boundM1.toNat + 1
  if d.wrap then BitVec.ofInt 8 ((cur.toInt % bound + d.step.toInt) % bound) else BitVec.ofInt 8 (cur.toInt + d.step.toInt)

/-- A tray's cursors when a group of a context retires (R40): those of its v[x+] operands advance in its active slots, and no other. -/
def Ctx.cursorAfter (c : Ctx) (tr : Tray) (u : Fin 32) (x : Nat) : BitVec 8 :=
  let cur := (tr.cursors[u][x]?).getD 0
  if c.front = false ∧ tr.id = c.tray.id ∧ c.act.getLsbD u.val = true ∧ BitVec.ofNat 7 (104 + x) ∈ c.adv then
    ((tr.ix[x]?).getD IxDesc.unset).next cur
  else cur

/-- The cursors of every tray after a group of a context retires (R40). -/
def Cursors (s t : State) (c : Ctx) : Prop :=
  ∀ id tr, s.tray? id = some tr → ∃ tr', t.tray? id = some tr' ∧
    ∀ (u : Fin 32) (x : Nat), x < 8 → tr'.cursors[u][x]? = some (c.cursorAfter tr u x)

/-- A group gives registers values, its entry becomes e, and everything else is as in u. -/
structure Acts (s t u : State) (c : Ctx) (ws : List RegWrite) (e : Entry) : Prop where
  regs : RegsAfter s t c.owner ws
  rest : t.still = u.still
  flow : Moved s t c e

/-- A group gives registers values, retires, and changes nothing else. -/
structure Computes (s t : State) (c : Ctx) (ws : List RegWrite) : Prop where
  regs : RegsAfter s t c.owner ws
  rest : t.still = s.still
  flow : Moved s t c c.past
  bytes : SameBytes s t
  cursors : Cursors s t c

/-- A group leaves values to a new producer of a kind, marks their registers empty, retires, and changes nothing else
(R43). -/
structure Defers (s t : State) (c : Ctx) (kind : ProdKind) (ws : List RegWrite) : Prop where
  regs : RegsMarked s t c.owner (ws.map (·.reg))
  prod : ∃ pr : Producer, t.prods = s.prods ++ [pr] ∧ pr.id = s.nextId ∧ pr.owner = c.owner ∧ pr.kind = kind ∧ pr.writes = ws ∧
    pr.marks = ws.map (·.reg) ∧ pr.tags = [] ∧ pr.acquire = none
  rest : { t.still with prods := s.prods, nextId := s.nextId } = s.still
  flow : Moved s t c c.past
  bytes : SameBytes s t
  cursors : Cursors s t c

/-- A group sets a predicate in its active slots, retires, and changes nothing else; p0 keeps reading as true (R26). -/
structure SetsPred (s t : State) (c : Ctx) (p : BitVec 3) (v : Fin 32 → Bool) : Prop where
  pred : c.front = false → ∃ tr', t.tray? c.tray.id = some tr' ∧ ∀ (q : BitVec 3) (x : Fin 32), q ≠ 0 →
    tr'.preds[x].getLsbD q.toNat =
      if q = p ∧ c.act.getLsbD x.val then v x else c.tray.preds[x].getLsbD q.toNat
  others : ∀ id, (c.front = true ∨ id ≠ c.tray.id) → (t.tray? id).map (·.preds) = (s.tray? id).map (·.preds)
  regs : ∀ o r, t.held o r = s.held o r
  flow : Moved s t c c.past
  bytes : SameBytes s t
  cursors : Cursors s t c
  cmds : t.cmds = s.cmds ∧ t.prods = s.prods ∧ t.ctxs = s.ctxs ∧ t.mem = s.mem

/-- Storage in canonical form: bytes and tags. -/
def Store.whole (st : Store) : Prop := Memory.wf st.bytes = true ∧ Sparse.wf 0 st.tags = true

/-- A matrix array's accumulators and scale memory in canonical form. -/
def ArrayState.whole (a : ArrayState) : Prop := Sparse.wf [] a.acc = true ∧ Sparse.wf 0 a.scale = true

/-- Every store is in canonical form, of the teams that run and of those that are saved. -/
def State.storesWhole (s : State) : Prop :=
  Memory.wf s.mem = true ∧ Sparse.wf 0 s.tags = true ∧ (∀ x ∈ s.teams, x.shared.whole) ∧ (∀ x ∈ s.trays, x.scratch.whole) ∧
    (∀ x ∈ s.allocs, x.store.whole) ∧ (∀ x ∈ s.homeTab, x.store.whole) ∧ (∀ x ∈ s.arrays, x.whole) ∧
    ∀ v ∈ s.sched.saved, v.team.shared.whole ∧ (∀ x ∈ v.trays, x.scratch.whole) ∧ ∀ x ∈ v.arrays, x.whole

/-- The version lines hold whole sectors, each once for a version, and none of the team region (R190, R319). -/
def State.linesWhole (s : State) : Prop :=
  (∀ x ∈ s.vlines, x.bytes.length = 128 ∧ x.loc.sector = x.loc ∧ match x.loc with | .shared .. | .scratch .. => False | _ => True) ∧
    s.vlines.Pairwise fun x y => ¬(x.key = y.key ∧ x.loc = y.loc)

/-- The invariant of the model's memory: its lists are canonical, so that equal contents are equal data. -/
structure State.Whole (s : State) : Prop where
  stores : s.storesWhole
  lines : s.linesWhole

end Sys2Proof.Machine
end

