-- ==== Sys2Proof/Certificates/Slice0/Obligations.lean ====
section
/-!
DEFINITION. Certificates/Slice0/Obligations.lean: the statements for the provers, from the manual's numbered rules. The
definitions before a statement say a rule's arithmetic once, in the rule's own terms; Safety.lean has what it means that a
group issues with its own effect (`Issues`) and what such a group leaves (`Computes`, `Defers`, `SetsPred`).
-/

namespace Sys2Proof.Machine

/-- The signedness of A: the mnemonic's own unless SGNEN is set (R91, R108). -/
def signedA (p : Pfx) (own : Bool) : Bool := match p.mod with | some m => if m.sgnen then m.sa else own | none => own

/-- The signedness of B. -/
def signedB (p : Pfx) (own : Bool) : Bool := match p.mod with | some m => if m.sgnen then m.sb else own | none => own

/-- A word as a number. -/
def num (signed : Bool) (x : Word) : Int := if signed then x.toInt else x.toNat

/-- SAT of a prefix. -/
def satOf (p : Pfx) : Bool := match p.mod with | some m => m.sat | none => false

/-- An exact sum or difference as ADD and SUB write it: modulo 2^32, or under SAT clamped to the signed range or, under
`.AU.BU`, the unsigned one (R108). -/
def sumResult (p : Pfx) (exact : Bool → Int) : Word :=
  if satOf p then
    if signedA p true then BitVec.ofInt 32 (max (-(2 ^ 31)) (min (exact true) (2 ^ 31 - 1)))
    else BitVec.ofInt 32 (max 0 (min (exact false) (2 ^ 32 - 1)))
  else BitVec.ofInt 32 (exact true)

/-- The operand with the smaller or larger value, a when the values are equal (R108). -/
def extreme (p : Pfx) (own larger : Bool) (a b : Word) : Word :=
  let x := num (signedA p own) a
  let y := num (signedB p own) b
  if larger then (if x < y then b else a) else (if y < x then b else a)

/-- Byte i of BPERM's result (R130). -/
def permuted (a b : Word) (i : Nat) : Nat :=
  let k := (b.toNat >>> (4 * i)) % 8
  if k ≤ 3 then (a.toNat >>> (8 * k)) % 256 else 0

/-- The two-source integer instructions with what each writes into d (R108, R130). -/
def intTwo : List ((Pfx → F3 → Instr) × (Pfx → Word → Word → Word)) :=
  [(.add, fun p a b => sumResult p fun g => num g a + num g b),
   (.sub, fun p a b => sumResult p fun g => num g a - num g b),
   (.mul, fun _ a b => BitVec.ofNat 32 (a.toNat * b.toNat)),
   (.mulh, fun p a b => BitVec.ofInt 32 (num (signedA p true) a * num (signedB p true) b / 2 ^ 32)),
   (.mulhu, fun p a b => BitVec.ofInt 32 (num (signedA p false) a * num (signedB p false) b / 2 ^ 32)),
   (.min, fun p => extreme p true false), (.max, fun p => extreme p true true),
   (.minu, fun p => extreme p false false), (.maxu, fun p => extreme p false true),
   (.and, fun _ a b => a &&& b), (.or, fun _ a b => a ||| b), (.xor, fun _ a b => a ^^^ b), (.andn, fun _ a b => a &&& ~~~b),
   (.shl, fun _ a b => BitVec.ofNat 32 (a.toNat * 2 ^ (b.toNat % 32))), (.shr, fun _ a b => BitVec.ofNat 32 (a.toNat / 2 ^ (b.toNat % 32))),
   (.sra, fun _ a b => BitVec.ofInt 32 (a.toInt / 2 ^ (b.toNat % 32))),
   (.rol, fun _ a b => (a <<< (b.toNat % 32)) ||| (a >>> (32 - b.toNat % 32))),
   (.ror, fun _ a b => (a >>> (b.toNat % 32)) ||| (a <<< (32 - b.toNat % 32))),
   (.bperm, fun _ a b => BitVec.ofNat 32 (permuted a b 0 + 2 ^ 8 * permuted a b 1 + 2 ^ 16 * permuted a b 2 + 2 ^ 24 * permuted a b 3))]

/-- The one bits of a word. -/
def ones (a : Word) : Nat := ((List.range 32).filter fun i => a.getLsbD i).length

/-- The one-source integer instructions with what each writes into d (R108, R130). -/
def intOne : List ((Pfx → F3A → Instr) × (Word → Word)) :=
  [(.bcnt, fun a => BitVec.ofNat 32 (ones a)),
   (.clz, fun a => BitVec.ofNat 32 (match (List.range 32).find? fun i => a.getLsbD (31 - i) with | some i => i | none => 32)),
   (.ctz, fun a => BitVec.ofNat 32 (match (List.range 32).find? fun i => a.getLsbD i with | some i => i | none => 32)),
   (.bitrev, fun a => a.reverse),
   (.sext8, fun a => BitVec.signExtend 32 (BitVec.setWidth 8 a)), (.sext16, fun a => BitVec.signExtend 32 (BitVec.setWidth 16 a))]

/-- An instruction that, whenever it issues with these operands, writes one word in each active slot, full at once, and leaves
every other register, every predicate, every special register and every byte of memory (R107). -/
def Gives (i : Instr) (p : Pfx) (size : Nat) (r : Req) (d : BitVec 7) (v : Ctx → Fin 32 → Word) : Prop :=
  (d, 1) ∈ r.dsts ∧
    ∀ (s s' : State) (c : Ctx), Issues s p size r c s' → ∃ t, exec i s = .next t ∧ Computes s' t c (c.writes d 1 fun x => [v c x])

/-- What a two-source F3 instruction asks of its operands. -/
def askTwo (p : Pfx) (f : F3) (k : Konst) (imm : Word) : Req :=
  { srcs := [.reg f.a 1 f.ta k, immOr p imm f.b f.tb k], dsts := [(f.d, 1)] }

/-- What a one-source F3 instruction asks of its operands. -/
def askOne (f : F3A) (k : Konst) : Req := { srcs := [.reg f.a 1 f.ta k], dsts := [(f.d, 1)] }

end Sys2Proof.Machine

open Sys2Proof Sys2Proof.Machine

namespace Sys2Proof.Machine

/-- An instruction that, whenever it issues with these operands, marks its destination empty and leaves the result with a
producer that nothing else has (R43, R107). -/
def Leaves (i : Instr) (p : Pfx) (size : Nat) (r : Req) (d : BitVec 7) (n : Nat) (kind : ProdKind)
    (v : Ctx → Fin 32 → List Word) : Prop :=
  (d, n) ∈ r.dsts ∧
    ∀ (s s' : State) (c : Ctx), Issues s p size r c s' → ∃ t, exec i s = .next t ∧ Defers s' t c kind (c.writes d n (v c))

/-- An instruction that, whenever it issues with these operands, sets a predicate in each active slot and changes nothing
else. -/
def Tests (i : Instr) (p : Pfx) (size : Nat) (r : Req) (pd : BitVec 3) (v : Ctx → Fin 32 → Bool) : Prop :=
  ∀ (s s' : State) (c : Ctx), Issues s p size r c s' → ∃ t, exec i s = .next t ∧ SetsPred s' t c pd (v c)

/-- Quotient and remainder of R109. -/
def divided (p : Pfx) (own : Bool) (a b : Word) : Word × Word :=
  let x := num (signedA p own) a
  let y := num (signedB p own) b
  if y = 0 then (BitVec.allOnes 32, a) else (BitVec.ofInt 32 (x.tdiv y), BitVec.ofInt 32 (x - x.tdiv y * y))

/-- The divisions with what each leaves for d. -/
def divisions : List ((Pfx → F3 → Instr) × (Pfx → Word → Word → Word)) :=
  [(.div, fun p a b => (divided p true a b).1), (.divu, fun p a b => (divided p false a b).1),
   (.rem, fun p a b => (divided p true a b).2), (.remu, fun p a b => (divided p false a b).2)]

/-- The integer compares with their relations (R110). -/
def relations : List ((Pfx → FCmp → Instr) × (Pfx → Word → Word → Bool)) :=
  [(.cmpeq, fun _ a b => a == b), (.cmpne, fun _ a b => !(a == b)),
   (.cmplt, fun p a b => num (signedA p true) a < num (signedB p true) b),
   (.cmple, fun p a b => num (signedA p true) a ≤ num (signedB p true) b),
   (.cmpltu, fun p a b => num (signedA p false) a < num (signedB p false) b),
   (.cmpleu, fun p a b => num (signedA p false) a ≤ num (signedB p false) b)]

/-- The immediate of an FI form: {IMM, imm8}, extended (R105). -/
def fiImm (p : Pfx) (imm8 : BitVec 8) (signed : Bool) : Word :=
  match p.imm with
  | some i => BitVec.ofInt 32 (num31 signed (i ++ imm8))
  | none => if signed then BitVec.signExtend 32 imm8 else BitVec.setWidth 32 imm8
where
  /-- A 31-bit number, signed or unsigned. -/
  num31 (signed : Bool) (x : BitVec 31) : Int := if signed then x.toInt else x.toNat

/-- The FI instructions with a source, and what each writes into d (R113). -/
def immediates : List ((Pfx → FI → Instr) × (Pfx → BitVec 8 → Word → Word)) :=
  [(.addi, fun p n a =>
      if satOf p then BitVec.ofInt 32 (max (-(2 ^ 31)) (min (a.toInt + (fiImm p n true).toInt) (2 ^ 31 - 1))) else a + fiImm p n true),
   (.shli, fun _ n a => BitVec.ofNat 32 (a.toNat * 2 ^ (n.toNat % 32))), (.shri, fun _ n a => BitVec.ofNat 32 (a.toNat / 2 ^ (n.toNat % 32))),
   (.andi, fun p n a => a &&& fiImm p n false), (.ori, fun p n a => a ||| fiImm p n false), (.xori, fun p n a => a ^^^ fiImm p n false)]

/-- Element i of a word, w bits wide (R95). -/
def elementOf (a : Word) (w i : Nat) (signed : Bool) : Int :=
  let x := (a.toNat >>> (w * i)) % 2 ^ w
  if signed && 2 ^ (w - 1) ≤ x then (x : Int) - 2 ^ w else x

/-- d plus the sum of the products of n elements of w bits, modulo 2^32 (R130). -/
def dotted (p : Pfx) (w n : Nat) (d a b : Word) : Word :=
  BitVec.ofInt 32 (d.toInt + ((List.range n).map fun i =>
    elementOf a w i (signedA p true) * elementOf b w i (signedB p true)).sum)

/-- The compact register forms of integers with what each writes into d (R72, R132). -/
def compactTwo : List ((CReg → Instr) × (Word → Word → Word)) :=
  [(.addC, (· + ·)), (.subC, (· - ·)), (.andC, (· &&& ·)), (.orC, (· ||| ·)), (.xorC, (· ^^^ ·))]

/-- The compact immediate forms that read d. -/
def compactOne : List ((CImm → Instr) × (BitVec 6 → Word → Word)) :=
  [(.addiC, fun n a => a + BitVec.signExtend 32 n), (.shliC, fun n a => BitVec.ofNat 32 (a.toNat * 2 ^ (n.toNat % 32))),
   (.shriC, fun n a => BitVec.ofNat 32 (a.toNat / 2 ^ (n.toNat % 32)))]

/-- The operand code of a compact form's b field: v b, or s b under its flag (R72). -/
def compactB (f : CReg) : BitVec 7 := BitVec.ofNat 7 (f.b.toNat + if f.s then 64 else 0)

/-- d of a compact form as an operand code. -/
def compactD (d : BitVec 5) : BitVec 7 := BitVec.setWidth 7 d

end Sys2Proof.Machine

/-- The integer instructions but for the divisions: those of majors 0 to 3 and 16 give what R108 and R130 say, IDOT4 and IDOT8
add the exact sum of their element products to d, modulo 2^32 (R130), and the immediate forms give what R113's table says;
each completes with its frame (`Computes`). -/
def Obligations.IntegerResults : Prop :=
  ((∀ x ∈ intTwo, ∀ (p : Pfx) (f : F3), Gives (x.1 p f) p (groupSize p) (askTwo p f .int p.immS) f.d fun c t =>
    x.2 p (c.val (.reg f.a 1 f.ta .int) t) (c.val (immOr p p.immS f.b f.tb .int) t)) ∧
  ∀ x ∈ intOne, ∀ (p : Pfx) (f : F3A), Gives (x.1 p f) p (groupSize p) (askOne f .int) f.d fun c t =>
    x.2 (c.val (.reg f.a 1 f.ta .int) t)) ∧
  ((∀ (p : Pfx) (f : FMovi), Gives (.movi p f) p (groupSize p) { dsts := [(f.d, 1)] } f.d fun _ _ => fiImm p f.imm true) ∧
  ∀ x ∈ immediates, ∀ (p : Pfx) (f : FI), Gives (x.1 p f) p (groupSize p) { srcs := [.reg f.a 1 f.ta .int], dsts := [(f.d, 1)] } f.d
    fun c t => x.2 p f.imm (c.val (.reg f.a 1 f.ta .int) t)) ∧
  ∀ x ∈ [((Instr.idot4 : Pfx → F3 → Instr), 8, 4), (.idot8, 4, 8)], ∀ (p : Pfx) (f : F3),
    Gives (x.1 p f) p (groupSize p)
      { srcs := [.reg f.a 1 f.ta .int, immOr p p.immS f.b f.tb .int, .reg f.d 1 false .int], dsts := [(f.d, 1)] } f.d fun c t =>
      dotted p x.2.1 x.2.2 (c.val (.reg f.d 1 false .int) t) (c.val (.reg f.a 1 f.ta .int) t) (c.val (immOr p p.immS f.b f.tb .int) t)

/-- DIV, DIVU, REM and REMU mark d empty and leave the quotient or remainder of R109 with a producer. -/
def Obligations.DivisionsDeferTheirResult : Prop :=
  ∀ x ∈ divisions, ∀ (p : Pfx) (f : F3),
    Leaves (x.1 p f) p (groupSize p) (askTwo p f .int p.immS) f.d 1 .long fun c t =>
      [x.2 p (c.val (.reg f.a 1 f.ta .int) t) (c.val (immOr p p.immS f.b f.tb .int) t)]

/-- The integer compares write their relation into p in each active slot (R110); SEL copies a where its predicate is true and b
otherwise (R111); PAND, POR, PXOR, PNOT, PFROM and PTO act as R112's table says. -/
def Obligations.ComparesSelectsAndPredicateLogic : Prop :=
  (∀ x ∈ relations, ∀ (p : Pfx) (f : FCmp),
    Tests (x.1 p f) p (groupSize p) { srcs := [.reg f.a 1 f.ta .int, immOr p p.immS f.b f.tb .int], preds := [f.p] } f.p fun c t =>
      x.2 p (c.val (.reg f.a 1 f.ta .int) t) (c.val (immOr p p.immS f.b f.tb .int) t)) ∧
  (∀ (p : Pfx) (f : FSel), Gives (.sel p f) p (groupSize p)
    { srcs := [.reg f.a 1 f.ta .int, immOr p p.immS f.b f.tb .int], dsts := [(f.d, 1)], preds := [f.n] } f.d fun c t =>
      if c.pred f.n t then c.val (.reg f.a 1 f.ta .int) t else c.val (immOr p p.immS f.b f.tb .int) t) ∧
  (∀ x ∈ [((Instr.pand : Pfx → FPP → Instr), and), (.por, or), (.pxor, xor)], ∀ (p : Pfx) (f : FPP),
    Tests (x.1 p f) p (groupSize p) { preds := [f.p, f.pa, f.pb] } f.p fun c t => x.2 (c.pred f.pa t) (c.pred f.pb t)) ∧
  (∀ (p : Pfx) (f : FPA), Tests (.pnot p f) p (groupSize p) { preds := [f.p, f.pa] } f.p fun c t => !c.pred f.pa t) ∧
  (∀ (p : Pfx) (f : FPF), Tests (.pfrom p f) p (groupSize p) { srcs := [.reg f.a 1 f.ta .int], preds := [f.p] } f.p fun c t =>
    decide (c.val (.reg f.a 1 f.ta .int) t ≠ 0)) ∧
  ∀ (p : Pfx) (f : FDP), Gives (.pto p f) p (groupSize p) { dsts := [(f.d, 1)], preds := [f.pa] } f.d fun c t =>
    if c.pred f.pa t then 1 else 0

namespace Sys2Proof.Machine

/-- A word as an FP32 number, subnormals read as zero under FTZ (R96, R100). -/
def fp32 (c : Ctx) (x : Word) : FVal := Fmt.f32.decode c.ftz x.toNat

/-- An exact value rounded once into FP32 under RND, FTZ and SAT (R99, R100). -/
def toFp32 (c : Ctx) (v : FVal) : Word := BitVec.ofNat 32 (Fmt.f32.round c.rnd c.ftz c.sat v)

/-- The exact sum, difference and product (R114). -/
def fpTwo : List ((Pfx → F3 → Instr) × (Rnd → FVal → FVal → FVal)) :=
  [(.fadd, fun rm a b => a.add rm b), (.fsub, fun rm a b => a.add rm b.neg), (.fmul, fun _ a b => a.mul b)]

/-- The exact fused results, with d as the third source (R117). -/
def fpThree : List ((Pfx → F3 → Instr) × (Rnd → FVal → FVal → FVal → FVal)) :=
  [(.fma, fun rm a b d => (a.mul b).add rm d), (.fms, fun rm a b d => (a.mul b).add rm d.neg),
   (.fnma, fun rm a b d => (a.mul b).neg.add rm d)]

/-- FMIN and FMAX (R115): NaN loses to a number, two NaNs give the canonical one, −0 is below +0, a wins when they are equal;
the operand is returned bit for bit, after FTZ. -/
def fpExtreme (c : Ctx) (larger : Bool) (a b : Word) : Word :=
  let flushed (x : Word) : Word := match fp32 c x with | .fin n 0 _ => if n then 0x80000000 else 0 | _ => x
  match fp32 c a, fp32 c b with
  | .nan, .nan => 0x7FC00000
  | .nan, _ => flushed b
  | _, .nan => flushed a
  | x, y =>
    let below (x y : FVal) (x' y' : Word) : Bool := match x.cmp y with
      | some d => d < 0 || (d == 0 && flushed x' == 0x80000000 && flushed y' == 0)
      | none => false
    if larger then (if below x y a b then flushed b else flushed a) else if below y x b a then flushed b else flushed a

/-- The FP32 relations on the sign of a − b, none when an operand is NaN (R121). -/
def fpRelations : List ((Pfx → FCmp → Instr) × (Option Int → Bool)) :=
  [(.fcmpeq, fun d => d == some 0), (.fcmpne, fun d => d != some 0), (.fcmplt, fun d => d.any (· < 0)),
   (.fcmple, fun d => d.any (· ≤ 0)), (.fcmpun, fun d => d.isNone)]

/-- The special functions (R123). -/
def fpSpecial : List ((Pfx → F3A → Instr) × (FVal → FVal)) :=
  [(.fexp2, FVal.exp2), (.flog2, FVal.log2), (.fsin, FVal.sin), (.fcos, FVal.cos), (.ftanh, FVal.tanh), (.fsigm, FVal.sigm)]

/-- FCLASS's word (R122): the format's exponent and fraction widths by FMT (R78), the class of its low bits by sign, exponent and
fraction. -/
def classWord (fmt : BitVec 4) (w : Word) : Nat :=
  let (eb, fb) := match fmt.toNat with | 8 => (5, 10) | 9 => (8, 7) | 10 => (4, 3) | 11 => (5, 2) | _ => (8, 23)
  let neg : Bool := w.toNat / 2 ^ (eb + fb) % 2 = 1
  let ex := w.toNat / 2 ^ fb % 2 ^ eb
  let fr := w.toNat % 2 ^ fb
  if fmt.toNat = 10 ∧ ex = 15 then (if fr = 7 then 2 ^ 9 else if neg then 2 ^ 1 else 2 ^ 6)
  else if ex = 2 ^ eb - 1 then (if fr = 0 then (if neg then 2 ^ 0 else 2 ^ 7) else if fr / 2 ^ (fb - 1) = 0 then 2 ^ 8 else 2 ^ 9)
  else if ex = 0 then (if fr = 0 then (if neg then 2 ^ 3 else 2 ^ 4) else if neg then 2 ^ 2 else 2 ^ 5)
  else if neg then 2 ^ 1 else 2 ^ 6

/-- FRCPA's result (R119): |a| = m × 2^e = 2^(e+l) × (1 + f), i = floor(f × 128), c = 1 + (i + 0.5) / 128 = (2i + 257) / 256, and
512 / c = 131072 / (2i + 257), rounded to the nearest integer, which is never a tie; the approximation, rounded toward zero, is an
infinity when it is above the largest finite value. -/
def reciprocal (c : Ctx) : FVal → Word
  | .nan => 0x7FC00000
  | .inf n => if n then 0x80000000 else 0
  | .fin n 0 _ => if n then 0xFF800000 else 0x7F800000
  | .fin n m e =>
    let l := Nat.log2 m
    let i := m * 128 / 2 ^ l - 128
    let q := (2 * 131072 + (2 * i + 257)) / (2 * (2 * i + 257))
    let k : Int := -9 - (e + l)
    if 0 ≤ k ∧ (2 ^ 24 - 1) * 2 ^ 104 < q * 2 ^ k.toNat then (if n then 0xFF800000 else 0x7F800000)
    else BitVec.ofNat 32 (Fmt.f32.round .rz c.ftz false (.fin n q k))

/-- FRSQA's result (R120): a = m × 2^e = 4^k × y with 1 <= y < 4, i = floor(y × 32) − 32, c = (i + 32.5) / 32 = (2i + 65) / 64, and
512 / √c = √(2^24 / (2i + 65)), rounded to the nearest integer: the least q with √c × (q + 0.5) above 512, which is never a tie. -/
def reciprocalRoot (c : Ctx) : FVal → Word
  | .nan => 0x7FC00000
  | .inf n => if n then 0x7FC00000 else 0
  | .fin n 0 _ => if n then 0xFF800000 else 0x7F800000
  | .fin true _ _ => 0x7FC00000
  | .fin false m e =>
    let l := Nat.log2 m
    let k := (e + l) / 2
    let y32 := m * 2 ^ ((e + l) % 2).toNat * 32 / 2 ^ l
    let q := ((List.range 512).find? fun q => 4 * 2 ^ 24 < (2 * q + 1) ^ 2 * (2 * (y32 - 32) + 65)).getD 0
    BitVec.ofNat 32 (Fmt.f32.round .rn c.ftz false (.fin false q (-9 - k)))

/-- A packed half instruction: its format, whether d is a third source, and half h of its result (R124). -/
structure PackedRow where
  op : Pfx → F3 → Instr
  fmt : Fmt
  konst : Konst
  third : Bool
  half : Ctx → Nat → Nat → Nat → Nat

/-- An exact half result rounded once in its format. -/
def halfRound (f : Fmt) (op : Rnd → FVal → FVal → FVal → FVal) (c : Ctx) (a b d : Nat) : Nat :=
  f.round c.rnd c.ftz false (op c.rnd (f.decode c.ftz a) (f.decode c.ftz b) (f.decode c.ftz d))

/-- The packed half instructions (R124). -/
def packedRows : List PackedRow :=
  [⟨.phadd, .f16, .f16, false, halfRound .f16 fun rm a b _ => a.add rm b⟩,
   ⟨.phmul, .f16, .f16, false, halfRound .f16 fun _ a b _ => a.mul b⟩,
   ⟨.phfma, .f16, .f16, true, halfRound .f16 fun rm a b d => (a.mul b).add rm d⟩,
   ⟨.phmax, .f16, .f16, false, fun c a b _ => Fmt.f16.pick c.ftz true a b⟩,
   ⟨.pbadd, .bf16, .bf16, false, halfRound .bf16 fun rm a b _ => a.add rm b⟩,
   ⟨.pbfma, .bf16, .bf16, true, halfRound .bf16 fun rm a b d => (a.mul b).add rm d⟩]

/-- Half h of a word (R95). -/
def halfAt (w : Word) (h : Nat) : Nat := (w.toNat >>> (16 * h)) % 65536

/-- A number of 64 bits as two words. -/
def wordsOf (x : Nat) : List Word := [loWord (BitVec.ofNat 64 x), hiWord (BitVec.ofNat 64 x)]

/-- A 64-bit operand as an FP64 number. -/
def fp64 (c : Ctx) (x : DWord) : FVal := Fmt.f64.decode c.ftz x.toNat

/-- The FP64 instructions that write full, whether dp is a third source, and their exact results (R125). -/
def fp64Rows : List ((Pfx → F3 → Instr) × Bool × (Rnd → FVal → FVal → FVal → FVal)) :=
  [(.f64add, false, fun rm a b _ => a.add rm b), (.f64sub, false, fun rm a b _ => a.add rm b.neg),
   (.f64mul, false, fun _ a b _ => a.mul b), (.f64fma, true, fun rm a b d => (a.mul b).add rm d)]

/-- As `Gives`, for an instruction that needs the FP64 path and writes n registers. -/
def GivesFp64 (i : Instr) (p : Pfx) (r : Req) (d : BitVec 7) (n : Nat) (v : Ctx → Fin 32 → List Word) : Prop :=
  ∀ (s s' : State) (c : Ctx), s.cap 3 = true → Issues s p (groupSize p) r c s' →
    ∃ t, exec i s = .next t ∧ Computes s' t c (c.writes d n (v c))

end Sys2Proof.Machine

/-- FADD, FSUB and FMUL round the exact result once, and FDIV the exact quotient, which it leaves with a producer, its register
empty (R114); FMA, FMS and FNMA round the fused one (R117), FMIN and FMAX pick (R115), and FSCALE rounds a × 2^b (R116). -/
def Obligations.FpArithmeticRoundsOnce : Prop :=
  (∀ x ∈ fpTwo, ∀ (p : Pfx) (f : F3), Gives (x.1 p f) p (groupSize p) (askTwo p f .f32 p.immF) f.d fun c t =>
    toFp32 c (x.2 c.rnd (fp32 c (c.val (.reg f.a 1 f.ta .f32) t)) (fp32 c (c.val (immOr p p.immF f.b f.tb .f32) t)))) ∧
  (∀ x ∈ fpThree, ∀ (p : Pfx) (f : F3), Gives (x.1 p f) p (groupSize p)
    { srcs := [.reg f.a 1 f.ta .f32, immOr p p.immF f.b f.tb .f32, .reg f.d 1 false .f32], dsts := [(f.d, 1)] } f.d fun c t =>
    toFp32 c (x.2 c.rnd (fp32 c (c.val (.reg f.a 1 f.ta .f32) t)) (fp32 c (c.val (immOr p p.immF f.b f.tb .f32) t))
      (fp32 c (c.val (.reg f.d 1 false .f32) t)))) ∧
  (∀ x ∈ [((Instr.fmin : Pfx → F3 → Instr), false), (.fmax, true)], ∀ (p : Pfx) (f : F3),
    Gives (x.1 p f) p (groupSize p) (askTwo p f .f32 p.immF) f.d fun c t =>
      fpExtreme c x.2 (c.val (.reg f.a 1 f.ta .f32) t) (c.val (immOr p p.immF f.b f.tb .f32) t)) ∧
  (∀ (p : Pfx) (f : F3), Gives (.fscale p f) p (groupSize p)
    { srcs := [.reg f.a 1 f.ta .f32, immOr p p.immS f.b f.tb .int], dsts := [(f.d, 1)] } f.d fun c t =>
      toFp32 c ((fp32 c (c.val (.reg f.a 1 f.ta .f32) t)).scale (c.val (immOr p p.immS f.b f.tb .int) t).toInt)) ∧
  ∀ (p : Pfx) (f : F3), Leaves (.fdiv p f) p (groupSize p) (askTwo p f .f32 p.immF) f.d 1 .long fun c t =>
    [toFp32 c ((fp32 c (c.val (.reg f.a 1 f.ta .f32) t)).div 24 (fp32 c (c.val (immOr p p.immF f.b f.tb .f32) t)))]

/-- FDIV, FSQRT and the special functions mark d empty and leave the rounded value with a producer; the special functions round
to nearest even (R114, R118, R123). -/
def Obligations.FpLongLatencyDefersItsResult : Prop :=
  (∀ (p : Pfx) (f : F3), Leaves (.fdiv p f) p (groupSize p) (askTwo p f .f32 p.immF) f.d 1 .long fun c t =>
    [toFp32 c ((fp32 c (c.val (.reg f.a 1 f.ta .f32) t)).div 24 (fp32 c (c.val (immOr p p.immF f.b f.tb .f32) t)))]) ∧
  (∀ (p : Pfx) (f : F3A), Leaves (.fsqrt p f) p (groupSize p) (askOne f .f32) f.d 1 .long fun c t =>
    [toFp32 c ((fp32 c (c.val (.reg f.a 1 f.ta .f32) t)).sqrt 24)]) ∧
  ∀ x ∈ fpSpecial, ∀ (p : Pfx) (f : F3A), Leaves (x.1 p f) p (groupSize p) (askOne f .f32) f.d 1 .long fun c t =>
    [BitVec.ofNat 32 (Fmt.f32.round .rn c.ftz false (x.2 (fp32 c (c.val (.reg f.a 1 f.ta .f32) t))))]

/-- The FP32 compares and FTSTNF set their predicate (R121); FCLASS writes the class word (R122); FRCPA and FRSQA write the
approximations that R119 and R120 define for every input. -/
def Obligations.FpComparesClassesAndApproximations : Prop :=
  (∀ x ∈ fpRelations, ∀ (p : Pfx) (f : FCmp), Tests (x.1 p f) p (groupSize p)
    { srcs := [.reg f.a 1 f.ta .f32, immOr p p.immF f.b f.tb .f32], preds := [f.p] } f.p fun c t =>
      x.2 ((fp32 c (c.val (.reg f.a 1 f.ta .f32) t)).cmp (fp32 c (c.val (immOr p p.immF f.b f.tb .f32) t)))) ∧
  (∀ (p : Pfx) (f : FPF), Tests (.ftstnf p f) p (groupSize p) { srcs := [.reg f.a 1 f.ta .f32], preds := [f.p] } f.p fun c t =>
    [0, 7, 8, 9].any fun i => classWord c.fmt (c.val (.reg f.a 1 f.ta .f32) t) == 2 ^ i) ∧
  (∀ (p : Pfx) (f : F3A), Gives (.fclass p f) p (groupSize p) (askOne f .f32) f.d fun c t =>
    BitVec.ofNat 32 (classWord c.fmt (c.val (.reg f.a 1 f.ta .f32) t))) ∧
  (∀ (p : Pfx) (f : F3A), Gives (.frcpa p f) p (groupSize p) (askOne f .f32) f.d fun c t =>
    reciprocal c (fp32 c (c.val (.reg f.a 1 f.ta .f32) t))) ∧
  ∀ (p : Pfx) (f : F3A), Gives (.frsqa p f) p (groupSize p) (askOne f .f32) f.d fun c t =>
    reciprocalRoot c (fp32 c (c.val (.reg f.a 1 f.ta .f32) t))

/-- The packed half instructions compute each half of d from the same half of each source (R124). -/
def Obligations.PackedHalvesAreComputedApart : Prop :=
  ∀ x ∈ packedRows, ∀ (p : Pfx) (f : F3), Gives (x.op p f) p (groupSize p)
    { srcs := [.reg f.a 1 f.ta x.konst, immOr p p.immH f.b f.tb x.konst] ++ if x.third then [.reg f.d 1 false x.konst] else [],
      dsts := [(f.d, 1)] } f.d fun c t =>
    let h (i : Nat) := x.half c (halfAt (c.val (.reg f.a 1 f.ta x.konst) t) i) (halfAt (c.val (immOr p p.immH f.b f.tb x.konst) t) i)
      (if x.third then halfAt (c.val (.reg f.d 1 false x.konst) t) i else 0)
    BitVec.ofNat 32 (h 0 + 65536 * h 1)

/-- With the FP64 path, F64ADD, F64SUB, F64MUL and F64FMA write the result rounded once, and F64DIV marks both registers of dp
empty and leaves it with a producer (R125); CVTFD and CVTDF convert (R126). Without it, each raises unit-absent in every active
slot, whatever its operands hold (R2), but for an operand that names a register of no window, whose smaller cause is raised (R33,
R175). -/
def Obligations.Fp64RoundsOnceOrIsAbsent : Prop :=
  ((∀ x ∈ fp64Rows, ∀ (p : Pfx) (f : F3), GivesFp64 (x.1 p f) p
    { srcs := [.reg f.a 2 f.ta .int, .reg f.b 2 f.tb .int] ++ if x.2.1 then [.reg f.d 2 false .int] else [], dsts := [(f.d, 2)] } f.d 2
    fun c t => wordsOf (Fmt.f64.round c.rnd c.ftz false (x.2.2 c.rnd (fp64 c (c.val64 (.reg f.a 2 f.ta .int) t))
      (fp64 c (c.val64 (.reg f.b 2 f.tb .int) t)) (if x.2.1 then fp64 c (c.val64 (.reg f.d 2 false .int) t) else .nan)))) ∧
  (∀ (p : Pfx) (f : F3) (s s' : State) (c : Ctx), s.cap 3 = true →
    Issues s p (groupSize p) { srcs := [.reg f.a 2 f.ta .int, .reg f.b 2 f.tb .int], dsts := [(f.d, 2)] } c s' →
      ∃ t, exec (.f64div p f) s = .next t ∧ Defers s' t c .long (c.writes f.d 2 fun x =>
        wordsOf (Fmt.f64.round c.rnd c.ftz false
          ((fp64 c (c.val64 (.reg f.a 2 f.ta .int) x)).div 53 (fp64 c (c.val64 (.reg f.b 2 f.tb .int) x)))))) ∧
  (∀ (p : Pfx) (f : F3A), GivesFp64 (.cvtfd p f) p { srcs := [.reg f.a 1 f.ta .f32], dsts := [(f.d, 2)] } f.d 2 fun c t =>
    wordsOf (Fmt.f64.round c.rnd c.ftz false (fp32 c (c.val (.reg f.a 1 f.ta .f32) t)))) ∧
  ∀ (p : Pfx) (f : F3A), GivesFp64 (.cvtdf p f) p { srcs := [.reg f.a 2 f.ta .int], dsts := [(f.d, 1)] } f.d 1 fun c t =>
    [toFp32 c (fp64 c (c.val64 (.reg f.a 2 f.ta .int) t))]) ∧
  ∀ (p : Pfx) (f : F3) (g : F3A) (s s' : State) (c : Ctx), s.cap 3 = false → Issues s p (groupSize p) {} c s' →
    let two : Req := { srcs := [.reg f.a 2 f.ta .int, .reg f.b 2 f.tb .int], dsts := [(f.d, 2)] }
    ∀ x ∈ [(Instr.f64add p f, two), (.f64sub p f, two), (.f64mul p f, two), (.f64div p f, two),
        (.f64fma p f, { two with srcs := two.srcs ++ [.reg f.d 2 false .int] }),
        (.cvtfd p g, { srcs := [.reg g.a 1 g.ta .f32], dsts := [(g.d, 2)] }),
        (.cvtdf p g, { srcs := [.reg g.a 2 g.ta .int], dsts := [(g.d, 1)] })],
      ((∀ t ∈ maskSlots c.act, ∀ e, c.slotCause x.2 t = some e → e.code ≠ 0x01) →
        exec x.1 s = .next (s'.raise c { code := 0x02, mask := c.act })) ∧
      ((∃ t ∈ maskSlots c.act, ∃ e, c.slotCause x.2 t = some e ∧ e.code = 0x01) →
        ∃ k : Cause, k.code = 0x01 ∧ exec x.1 s = .next (s'.raise c k))

namespace Sys2Proof.Machine

/-- The compact FP32 forms round to nearest even, without FTZ or SAT (R132). -/
def compactFp : List ((CReg → Instr) × (FVal → FVal → FVal)) :=
  [(.faddC, fun a b => a.add .rn b), (.fsubC, fun a b => a.add .rn b.neg), (.fmulC, FVal.mul)]

/-- The range of an FMT integer format, SI32 by default (R95). -/
def intRange (fmt : BitVec 4) : Int × Int :=
  match fmt.toNat with
  | 2 => (0, 2 ^ 32 - 1) | 3 => (-128, 127) | 4 => (0, 255) | 5 => (-8, 7) | 6 => (0, 15) | _ => (-(2 ^ 31), 2 ^ 31 - 1)

/-- An integer of an FMT format in the low bits of a word. -/
def intOf (fmt : BitVec 4) (a : Word) : Int :=
  match fmt.toNat with
  | 2 => a.toNat | 3 => elementOf a 8 0 true | 4 => elementOf a 8 0 false | 5 => elementOf a 4 0 true | 6 => elementOf a 4 0 false
  | _ => a.toInt

/-- CVTFI's result (R126): NaN gives 0, what lies outside the range its end. -/
def toIntFormat (c : Ctx) (v : FVal) : Word :=
  let r := intRange c.fmt
  match v with
  | .nan => 0
  | .inf n => BitVec.ofInt 32 (if n then r.1 else r.2)
  | v => BitVec.ofInt 32 (max r.1 (min (v.toInt c.rnd) r.2))

/-- The slot that holds the scale word of an element (R103). -/
def groupSlot (g element : Nat) : Fin 32 := Fin.ofNat 32 (element / g)

/-- The element of an 8-bit byte select, and the first of a 4-bit one (R103). -/
def byteElement (f : FQ) (t : Fin 32) : Nat := 4 * t.val + f.bsel.toNat
def nibbleElement (f : FQ) (t : Fin 32) : Nat := 8 * t.val + 2 * f.bsel.toNat

/-- The group size that GRP gives (R103). -/
def groupElements (p : Pfx) : Nat := match p.mod with | some m => (match m.grp.toNat with | 2 => 64 | 3 => 128 | _ => 32) | none => 32

/-- What a quantised value q stands for under a scale word (R102, R128). -/
def scaled (q : Int) (w : Word) (signed : Bool) : FVal :=
  (FVal.ofInt (q - elementOf w 8 2 signed)).mul (Fmt.f16.decode false (w.toNat % 65536))

/-- The quantised integer of a under a scale word (R129). -/
def quantised (rm : Rnd) (a w : Word) (signed : Bool) (lo hi : Int) : Int :=
  let z := elementOf w 8 2 signed
  match (Fmt.f32.decode false a.toNat).div 64 (Fmt.f16.decode false (w.toNat % 65536)) with
  | .nan => z
  | .inf n => if n then lo else hi
  | v => max lo (min (v.toInt rm + z) hi)

/-- Byte i of a word replaced (R129). -/
def withByte (w : Word) (i x : Nat) : Word :=
  (w &&& ~~~(0xFF#32 <<< (8 * i))) ||| (BitVec.ofNat 32 (x % 256) <<< (8 * i))

/-- The value of an FP8 byte under a block scale (R128). -/
def unscaled8 (f : Fmt) (x : Nat) (w : Word) : FVal :=
  if w.toNat % 256 = 255 then .nan else (f.decode false x).scale (w.toNat % 256 - 127)

/-- The FP8 byte of a under a block scale (R129). -/
def pack8 (c : Ctx) (f : Fmt) (a w : Word) : Nat :=
  f.round c.rnd false c.sat (if w.toNat % 256 = 255 then .nan else (Fmt.f32.decode false a.toNat).scale (127 - w.toNat % 256))

/-- SA of a prefix, for the integer elements of major 15 (R127). -/
def elementSign (c : Ctx) : Bool := signedA c.pfx false

/-- A source of major 15. -/
def plain (code : BitVec 7) (n : Nat) (k : Konst) : Src := .reg code n false k

end Sys2Proof.Machine

/-- The compact forms have the effect of their 32-bit instructions on two bytes of code; compact MOV copies b; FADD, FSUB, FMUL and
FMAX have RND = RN, no FTZ and no SAT (R72, R132). -/
def Obligations.CompactForms : Prop :=
  ((∀ f : CReg, Gives (.mov f) Pfx.empty 2 { srcs := [.reg (compactB f) 1 false .int], dsts := [(compactD f.d, 1)] } (compactD f.d)
    fun c t => c.val (.reg (compactB f) 1 false .int) t) ∧
  (∀ x ∈ compactTwo, ∀ f : CReg, Gives (x.1 f) Pfx.empty 2
    { srcs := [.reg (compactD f.d) 1 false .int, .reg (compactB f) 1 false .int], dsts := [(compactD f.d, 1)] } (compactD f.d)
    fun c t => x.2 (c.val (.reg (compactD f.d) 1 false .int) t) (c.val (.reg (compactB f) 1 false .int) t)) ∧
  (∀ x ∈ compactOne, ∀ f : CImm, Gives (x.1 f) Pfx.empty 2
    { srcs := [.reg (compactD f.d) 1 false .int], dsts := [(compactD f.d, 1)] } (compactD f.d)
    fun c t => x.2 f.imm (c.val (.reg (compactD f.d) 1 false .int) t)) ∧
  ∀ f : CImm, Gives (.moviC f) Pfx.empty 2 { dsts := [(compactD f.d, 1)] } (compactD f.d) fun _ _ => BitVec.signExtend 32 f.imm) ∧
  (∀ x ∈ compactFp, ∀ f : CReg, Gives (x.1 f) Pfx.empty 2
    { srcs := [.reg (compactD f.d) 1 false .f32, .reg (compactB f) 1 false .f32], dsts := [(compactD f.d, 1)] } (compactD f.d)
    fun c t => BitVec.ofNat 32 (Fmt.f32.round .rn false false
      (x.2 (Fmt.f32.decode false (c.val (.reg (compactD f.d) 1 false .f32) t).toNat)
        (Fmt.f32.decode false (c.val (.reg (compactB f) 1 false .f32) t).toNat)))) ∧
  ∀ f : CReg, Gives (.fmaxC f) Pfx.empty 2
    { srcs := [.reg (compactD f.d) 1 false .f32, .reg (compactB f) 1 false .f32], dsts := [(compactD f.d, 1)] } (compactD f.d)
    fun c t => fpExtreme { c with pfx := Pfx.empty } true (c.val (.reg (compactD f.d) 1 false .f32) t)
      (c.val (.reg (compactB f) 1 false .f32) t)

/-- CVTFI, CVTIF, CVTFH, CVTFB and CVTHF convert as R126's table says. -/
def Obligations.ConversionsRoundOnce : Prop :=
  (∀ (p : Pfx) (f : F3A), Gives (.cvtfi p f) p (groupSize p) (askOne f .f32) f.d fun c t =>
    toIntFormat c (fp32 c (c.val (.reg f.a 1 f.ta .f32) t))) ∧
  (∀ (p : Pfx) (f : F3A), Gives (.cvtif p f) p (groupSize p) { srcs := [immOr p p.immS f.a f.ta .int], dsts := [(f.d, 1)] } f.d
    fun c t => toFp32 c (FVal.ofInt (intOf c.fmt (c.val (immOr p p.immS f.a f.ta .int) t)))) ∧
  (∀ x ∈ [((Instr.cvtfh : Pfx → F3A → Instr), Fmt.f16), (.cvtfb, .bf16)], ∀ (p : Pfx) (f : F3A),
    Gives (x.1 p f) p (groupSize p) (askOne f .f32) f.d fun c t =>
      BitVec.ofNat 32 (x.2.round c.rnd c.ftz c.sat (fp32 c (c.val (.reg f.a 1 f.ta .f32) t)))) ∧
  ∀ (p : Pfx) (f : F3A), Gives (.cvthf p f) p (groupSize p) (askOne f .f16) f.d fun c t =>
    BitVec.ofNat 32 (Fmt.f32.round .rn c.ftz false (Fmt.f16.decode c.ftz ((c.val (.reg f.a 1 f.ta .f16) t).toNat % 65536)))

/-- The unpack forms of major 15 scale each element with the scale word of its group (R103, R128); the pack forms replace byte BSEL of
d and keep its other bytes (R103, R129). -/
def Obligations.ScaledPackAndUnpackForms : Prop :=
  ((∀ x ∈ [((Instr.unpe4 : Pfx → FQ → Instr), Fmt.e4), (.unpe5, .e5)], ∀ (p : Pfx) (f : FQ),
    Gives (x.1 p f) p (groupSize p)
      { srcs := [plain f.a 1 .int, .at_ f.s fun t => groupSlot 32 (byteElement f t)], dsts := [(f.d, 1)] } f.d fun c t =>
      BitVec.ofNat 32 (Fmt.f32.round .rn false false (unscaled8 x.2 ((c.val (plain f.a 1 .int) t).toNat >>> (8 * f.bsel.toNat) % 256)
        (c.val (.at_ f.s fun t => groupSlot 32 (byteElement f t)) t)))) ∧
  (∀ (p : Pfx) (f : FQ), Gives (.unpi8 p f) p (groupSize p)
    { srcs := [plain f.a 1 .int, .at_ f.s fun t => groupSlot (groupElements p) (byteElement f t)], dsts := [(f.d, 1)] } f.d fun c t =>
      toFp32 c (scaled (elementOf (c.val (plain f.a 1 .int) t) 8 f.bsel.toNat (elementSign c))
        (c.val (.at_ f.s fun t => groupSlot (groupElements p) (byteElement f t)) t) (elementSign c))) ∧
  ∀ (p : Pfx) (f : FQ) (s s' : State) (c : Ctx), Issues s p (groupSize p)
    { srcs := [plain f.a 1 .int, .at_ f.s fun t => groupSlot (groupElements p) (nibbleElement f t)], dsts := [(f.d, 2)] } c s' →
    ∃ t, exec (.unpi4 p f) s = .next t ∧ Computes s' t c (c.writes f.d 2 fun x =>
      let w := c.val (.at_ f.s fun t => groupSlot (groupElements p) (nibbleElement f t)) x
      let q (n : Nat) := elementOf (c.val (plain f.a 1 .int) x) 4 (2 * f.bsel.toNat + n) (elementSign c)
      [toFp32 c (scaled (q 0) w (elementSign c)), toFp32 c (scaled (q 1) w (elementSign c))])) ∧
  (∀ x ∈ [((Instr.pke4 : Pfx → FQ → Instr), Fmt.e4), (.pke5, .e5)], ∀ (p : Pfx) (f : FQ),
    Gives (x.1 p f) p (groupSize p)
      { srcs := [plain f.a 1 .f32, .at_ f.s fun t => groupSlot 32 (byteElement f t), plain f.d 1 .int], dsts := [(f.d, 1)] } f.d
      fun c t => withByte (c.val (plain f.d 1 .int) t) f.bsel.toNat
        (pack8 c x.2 (c.val (plain f.a 1 .f32) t) (c.val (.at_ f.s fun t => groupSlot 32 (byteElement f t)) t))) ∧
  (∀ (p : Pfx) (f : FQ), Gives (.pki8 p f) p (groupSize p)
    { srcs := [plain f.a 1 .f32, .at_ f.s fun t => groupSlot (groupElements p) (byteElement f t), plain f.d 1 .int],
      dsts := [(f.d, 1)] } f.d fun c t =>
      withByte (c.val (plain f.d 1 .int) t) f.bsel.toNat (quantised c.rnd (c.val (plain f.a 1 .f32) t)
        (c.val (.at_ f.s fun t => groupSlot (groupElements p) (byteElement f t)) t) (elementSign c)
        (if elementSign c then -128 else 0) (if elementSign c then 127 else 255) % 256).toNat) ∧
  ∀ (p : Pfx) (f : FQ), Gives (.pki4 p f) p (groupSize p)
    { srcs := [plain f.a 2 .f32, .at_ f.s fun t => groupSlot (groupElements p) (nibbleElement f t), plain f.d 1 .int],
      dsts := [(f.d, 1)] } f.d fun c t =>
      let w := c.val (.at_ f.s fun t => groupSlot (groupElements p) (nibbleElement f t)) t
      let v (n : Nat) := quantised c.rnd ((c.words (plain f.a 2 .f32) t).getD n 0) w (elementSign c)
        (if elementSign c then -8 else 0) (if elementSign c then 7 else 15) % 16
      withByte (c.val (plain f.d 1 .int) t) f.bsel.toNat ((v 1).toNat * 16 + (v 0).toNat)

namespace Sys2Proof.Machine

/-- The slot whose register an XPICK reads: the one whose thread has TID b (R162). -/
def slotOfTid (c : Ctx) (b : Word) : Option (Fin 32) := slotList.find? fun u => c.tray.remap[u] == some b.toNat

/-- The slot whose register an XPICKX reads: t XOR b, when it holds a thread (R162). -/
def slotAcross (c : Ctx) (t : Fin 32) (b : Word) : Option (Fin 32) :=
  let u := Fin.ofNat 32 (t.val ^^^ (b.toNat % 32))
  if c.tray.remap[u].isSome then some u else none

/-- XPICK or XPICKX: each active slot takes register a of its target slot, active or not, or 0; a slot finds what an earlier slot has
written there (R6); under a clearing guard a slot without a target also has the guard register disabled (R77, R162). -/
def Picks (i : Instr) (p : Pfx) (f : F3) (target : Ctx → Fin 32 → Word → Option (Fin 32)) : Prop :=
  ∀ (s s' : State) (c : Ctx),
    Issues s p (groupSize p) { srcs := [immOr p p.immS f.b f.tb .int], dsts := [(f.d, 1)], named := [f.a] } c s' → c.front = false →
    (∀ t ∈ maskSlots c.act, ∀ u, target c t (c.val (immOr p p.immS f.b f.tb .int) t) = some u → ∀ rs, c.names f.a 1 u = .ok rs →
      ∀ r ∈ rs, (s'.held c.owner r).2 = true) →
    let absent := maskOf fun t => c.act.getLsbD t.val && (target c t (c.val (immOr p p.immS f.b f.tb .int) t)).isNone
    ∃ (t : State) (w : Fin 32 → Word), exec i s = .next t ∧
      Computes (if c.clears then s'.clearSlots c absent else s') t c (c.writes f.d 1 fun x => [w x]) ∧
      ∀ x ∈ maskSlots c.act, w x =
        match target c x (c.val (immOr p p.immS f.b f.tb .int) x) with
        | some u =>
          if u < x ∧ c.act.getLsbD u.val = true ∧ (c.names f.d 1 u).toOption = (c.names f.a 1 u).toOption then w u
          else (c.words (.at_ f.a fun _ => u) x).headD 0
        | none => 0

/-- The FP32 sum in the order given, rounded after every addition (R131). -/
def summed (c : Ctx) : List Word → Word
  | [] => 0
  | x :: xs => xs.foldl (fun a y => toFp32 c ((fp32 c a).add c.rnd (fp32 c y))) (toFp32 c (fp32 c x))

end Sys2Proof.Machine

/-- XPICK and XPICKX read another slot's register, PALL and PANY fold a predicate over the active slots, PMASK writes it as a
mask, and TRAYSUM sums the active slots' values in ascending order of TID (R131, R162). -/
def Obligations.CrossLaneInstructions : Prop :=
  (∀ (p : Pfx) (f : F3), Picks (.xpick p f) p f fun c _ b => slotOfTid c b) ∧
  (∀ (p : Pfx) (f : F3), Picks (.xpickx p f) p f slotAcross) ∧
  (∀ (p : Pfx) (f : FPA), Tests (.pall p f) p (groupSize p) { preds := [f.p, f.pa] } f.p fun c _ =>
    (maskSlots c.act).all (c.pred f.pa)) ∧
  (∀ (p : Pfx) (f : FPA), Tests (.pany p f) p (groupSize p) { preds := [f.p, f.pa] } f.p fun c _ =>
    (maskSlots c.act).any (c.pred f.pa)) ∧
  (∀ (p : Pfx) (f : FDP), Gives (.pmask p f) p (groupSize p) { dsts := [(f.d, 1)], preds := [f.pa] } f.d fun c _ =>
    BitVec.ofNat 32 (((maskSlots c.act).filter (c.pred f.pa)).map fun u => 2 ^ u.val).sum) ∧
  ∀ (p : Pfx) (f : F3A), ∃ v, Gives (.traysum p f) p (groupSize p) (askOne f .f32) f.d v ∧ ∀ c t, ∃ order : List (Fin 32),
    order.Perm (maskSlots c.act) ∧ order.Pairwise (fun x y => (c.tray.remap[x]).getD 0 ≤ (c.tray.remap[y]).getD 0) ∧
      v c t = summed c (order.map (c.val (.reg f.a 1 f.ta .f32)))

namespace Sys2Proof.Machine

/-- IXGET's descriptor word (R53). -/
def descWord (d : IxDesc) : Word :=
  BitVec.ofNat 32 (d.boundM1.toNat + 2 ^ 6 * d.step.toNat + 2 ^ 10 * d.wrap.toNat + 2 ^ 16 * d.base.toNat + 2 ^ 31 * d.set.toNat)

/-- A configuration word that IXSET takes for a base: its reserved bits are 0 and the range lies in one region (R39, R52). -/
def ixFits (base : Nat) (w : Word) : Prop :=
  w.toNat < 2 ^ 11 ∧ (base + w.toNat % 64 < 32 ∨ 32 ≤ base ∧ base + w.toNat % 64 < 48 ∨ 48 ≤ base ∧ base + w.toNat % 64 < 64)

/-- The descriptor that IXSET writes (R52). -/
def ixDescOf (base : BitVec 7) (w : Word) : IxDesc :=
  { base := base.setWidth 6, boundM1 := BitVec.ofNat 6 (w.toNat % 64), step := BitVec.ofNat 4 (w.toNat / 64 % 16),
    wrap := w.toNat / 1024 % 2 == 1, set := true }

/-- IXSET's configuration source: the IMM payload, or B (R52). -/
def ixConfig (p : Pfx) (f : FIxs) : Src := match p.imm with | some i => .imm (i.setWidth 64) | none => .reg f.b 1 f.tb .int

/-- A thread's linear number in its launch (R20). -/
def linear (c : Ctx) (t : Fin 32) : Nat := c.team.teamno * (32 * c.launch.traysPerTeam) + (c.tray.remap[t]).getD 0

/-- What MOVSR reads in a slot of a tray, by code (R48). -/
def specials : List (Nat × (State → Ctx → Fin 32 → Nat)) :=
  [(0, fun _ c t => (c.tray.remap[t]).getD 0), (1, fun _ _ t => t.val), (2, fun _ c _ => (maskSlots c.act).length),
   (3, fun _ c _ => c.tray.trayno), (4, fun _ c _ => c.team.teamno),
   (5, fun s c _ => (c.cx.gid s.devNo c.launch.ver).toNat), (6, fun _ c _ => c.cx.id % 4096), (7, fun s _ _ => s.variant.caps.toNat),
   (8, fun s _ _ => s.time % 2 ^ 32), (9, fun _ c _ => c.tray.timehi.toNat), (10, fun s _ _ => 8 * s.ring.size + 64),
   (11, fun _ c _ => c.tray.bench / 48), (12, fun _ c _ => c.tray.bench),
   (13, fun _ c _ => ((c.cx.streams[c.tray.stream.toNat]?).getD 0).toNat),
   (14, fun s c _ => (s.engseq c.cx (c.tray.bench / 48)).toNat), (15, fun _ c _ => c.cx.approx.toNat),
   (16, fun _ c _ => c.cx.sticky.toNat), (17, fun _ c t => (c.tray.fmask.getLsbD t.val).toNat),
   (18, fun _ c _ => c.tray.fpc.toNat % 2 ^ 32), (19, fun _ c _ => c.tray.fpc.toNat / 2 ^ 32), (20, fun _ c _ => c.tray.fcause.toNat)] ++
  (List.range 4).map (fun n => (24 + n, fun _ c _ => ((c.tray.tags[n]?).map (·.count.toNat)).getD 0)) ++
  (List.range 8).map (fun k => (32 + k, fun _ c t =>
    if k < c.launch.levels.length then linear c t / extents (c.launch.levels.take k) % ((c.launch.levels[k]?).map (·.extent)).getD 1 else 0)) ++
  (List.range 8).map fun k => (40 + k, fun _ c _ => ((c.launch.levels[k]?).map (·.extent)).getD 1)

/-- What a read of TIME latches for its reader (R48, R55). -/
def latched (s : State) (c : Ctx) : State :=
  let hi := BitVec.ofNat 32 (s.time / 2 ^ 32)
  if c.front then s.modFront c.team.id fun fr => { fr with timehi := hi } else s.modTray c.tray.id fun tr => { tr with timehi := hi }

end Sys2Proof.Machine

/-- IXSET writes its descriptor and clears the cursors, or raises 0x04 and changes nothing; IXGET reads a cursor or the
descriptor; IXMOV sets the cursor in the active slots (R39, R52 to R54); when a group retires, a cursor that it names as v[x+] advances
in the active slots, modulo the bound in wrap mode and as an 8-bit signed number else (R40), as every statement's `Cursors` has it. -/
def Obligations.IndexRegisterInstructions : Prop :=
  (∀ (p : Pfx) (f : FIxs) (s s' : State) (c : Ctx), Issues s p (groupSize p) { srcs := [ixConfig p f], once := true } c s' → c.front = false →
    (ixFits f.a.toNat (c.val (ixConfig p f) c.low) → ∃ t, exec (.ixset p f) s = .next t ∧
      Acts s' t (s'.modTray c.tray.id fun tr =>
        { tr with ix := tr.ix.setIfInBounds f.x.toNat (ixDescOf f.a (c.val (ixConfig p f) c.low)) }) c [] c.past ∧
      ∃ tr, t.tray? c.tray.id = some tr ∧
        ∀ u : Fin 32, tr.cursors[u] = (c.tray.cursors[u]).setIfInBounds f.x.toNat 0) ∧
    (¬ixFits f.a.toNat (c.val (ixConfig p f) c.low) → ∃ k : Cause, k.code = 0x04 ∧ exec (.ixset p f) s = .next (s'.raise c k))) ∧
  (∀ f : FIxg, Gives (.ixget f) Pfx.empty 4 { dsts := [(f.d, 1)] } f.d fun c t =>
    if f.sel = 0 then BitVec.ofInt 32 ((c.tray.cursors[t][f.x.toNat]?).getD 0).toInt
    else descWord ((c.tray.ix[f.x.toNat]?).getD IxDesc.unset)) ∧
  (∀ (f : FIxm) (s s' : State) (c : Ctx), Issues s Pfx.empty 4 { srcs := [.reg f.a 1 f.ta .int] } c s' → c.front = false →
    ∃ t, exec (.ixmov f) s = .next t ∧ Acts s' t s' c [] c.past ∧ ∃ tr, t.tray? c.tray.id = some tr ∧
      ∀ u : Fin 32,
        (c.act.getLsbD u.val = true → tr.cursors[u][f.x.toNat]? = some (BitVec.ofNat 8 (c.val (.reg f.a 1 f.ta .int) u).toNat)) ∧
        (c.act.getLsbD u.val = false → tr.cursors[u] = c.tray.cursors[u]) ∧
        (c.adv = [] → ∀ y, y ≠ f.x.toNat → tr.cursors[u][y]? = c.tray.cursors[u][y]?)) ∧
  ∀ x ∈ intTwo, ∀ (p : Pfx) (f : F3) (s s' : State) (c : Ctx), Issues s p (groupSize p) (askTwo p f .int p.immS) c s' →
    c.front = false → ∃ t tr, exec (x.1 p f) s = .next t ∧ t.tray? c.tray.id = some tr ∧
      ∀ (u : Fin 32) (y : Nat), y < 8 →
        let d := (c.tray.ix[y]?).getD IxDesc.unset
        let cur := (c.tray.cursors[u][y]?).getD 0
        let bound : Int := d.boundM1.toNat + 1
        tr.cursors[u][y]? = some
          (if c.act.getLsbD u.val = true ∧ (f.d.toNat = 104 + y ∨ f.a.toNat = 104 + y ∨ p.imm = none ∧ f.b.toNat = 104 + y) then
            (if d.wrap then BitVec.ofInt 8 ((cur.toInt % bound + d.step.toInt) % bound) else BitVec.ofInt 8 (cur.toInt + d.step.toInt))
          else cur)

/-- MOVSR writes the special register as its slot reads it, and a read of TIME also latches TIMEHI; in every code it completes
(R48, R55). -/
def Obligations.MovsrReadsSpecialRegisters : Prop :=
  ∀ (f : FSr) (s s' : State) (c : Ctx), Issues s Pfx.empty 4 { dsts := [(f.d, 1)] } c s' →
    ∃ (t : State) (v : Fin 32 → Word), exec (.movsr f) s = .next t ∧
      Acts s' t (if f.sr.toNat = 8 then latched s' c else s') c (c.writes f.d 1 fun x => [v x]) c.past ∧
      (c.front = false → ∀ x ∈ specials, f.sr.toNat = x.1 → ∀ u, v u = BitVec.ofNat 32 (x.2 s' c u)) ∧
      (c.front = true → f.sr.toNat = 9 → ∀ u, v u = c.team.front.timehi)

/-- XACQ gives a tray without an extended block one that holds zeros, spilling frames as room asks; XREL takes the block away
once no register of it is empty or pending, and waits for the lane's pool are looked at next (R58); each does nothing where there
is nothing to do (R50, R51). -/
def Obligations.ExtendedBlockComesAndGoes : Prop :=
  ∀ (s s' : State) (c : Ctx), Issues s Pfx.empty 4 {} c s' → c.front = false →
    (c.tray.ext.isSome = true → ∃ t, exec .xacq s = .next t ∧ Acts s' t s' c [] c.past) ∧
    (∀ us, c.tray.ext = none → s'.room c c.tray 16 1 = .fits us → ∃ t, exec .xacq s = .next t ∧
      Acts s' t ((s'.spill c.tray.id us).modHeld c.tray.id fun tr => { tr with ext := some (blankRegs 16) }) c [] c.past ∧
      ∃ tr, t.tray? c.tray.id = some tr ∧ tr.ext = some (blankRegs 16)) ∧
    (c.tray.ext = none → ∃ t, exec .xrel s = .next t ∧ Acts s' t s' c [] c.past) ∧
    ∀ e, c.tray.ext = some e → (∀ (u : Fin 32) (n : Nat) (h : n < 16), (e[u][n]'h).full = true) →
      (∀ q ∈ c.tray.pending, q.1 + q.2 ≤ 48) → ∃ t, exec .xrel s = .next t ∧
      { t.still with agenda := s'.agenda } = (s'.modHeld c.tray.id fun tr => { tr with ext := none }).still ∧ Moved s' t c c.past ∧
      (∀ o r, (∀ u n, ¬(o = .tray c.tray.id ∧ r = .ext u n)) → t.held o r = s'.held o r) ∧
      ((∃ tr ∈ t.trays, tr.bench = c.tray.bench ∧ tr.lane = c.tray.lane ∧ tr.landed.isSome = c.tray.landed.isSome ∧
          ∃ e ∈ tr.frontier, ∃ n need, e.wait = .pool n need) →
        ∃ x, t.agenda = .event .poolWaitServe x :: s'.agenda)

namespace Sys2Proof.Machine

/-- The issuing entry's slots go to places: every other entry of its tray stays, and equal entries merge (R135, R136). A front
strand goes to its one place. Everything else is as in s. -/
structure Branches (s t : State) (c : Ctx) (places : List Entry) : Prop where
  regs : ∀ o r, t.held o r = s.held o r
  rest : t.still = s.still
  trays : ∀ id, (t.tray? id).map (·.frontier) = (s.tray? id).map fun tr =>
    if c.front = false ∧ id = c.tray.id then mergeAll (tr.frontier.eraseIdx c.entry ++ places.filter fun e => e.mask != 0) else tr.frontier
  fronts : ∀ id, (t.team? id).map (fun tm => (tm.front.pc, tm.front.loops)) = (s.team? id).map fun tm =>
    if c.front = true ∧ id = c.team.id then
      match places.filter fun e => e.mask != 0 with
      | e :: _ => (e.pc, e.loops)
      | [] => (tm.front.pc, tm.front.loops)
    else (tm.front.pc, tm.front.loops)

/-- Entries fit into a frontier with those that the issuing entry leaves in it (R134, R137). -/
def Ctx.fit (c : Ctx) (places : List Entry) : Prop :=
  (mergeAll (c.tray.frontier.eraseIdx c.entry ++ places.filter fun e => e.mask != 0)).length ≤ 6

/-- The lowest TID among an entry's slots (R137). -/
def lowestTid (tr : Tray) (m : BitVec 32) : Nat := (((maskSlots m).filterMap fun t => tr.remap[t]).min?).getD 0

/-- The one victim of a split (R137): at call depth 0 and without loops, of the lowest priority, and then the one whose lowest-TID
thread has the highest TID. -/
def IsVictim (tr : Tray) (es : List Entry) (v : Entry) : Prop :=
  v ∈ es ∧ v.depth = 0 ∧ v.loops = [] ∧ ∀ e ∈ es, e ≠ v → e.depth = 0 → e.loops = [] →
    v.prio.toNat < e.prio.toNat ∨ v.prio = e.prio ∧ lowestTid tr e.mask < lowestTid tr v.mask

/-- Entries without some slots. -/
def without (m : BitVec 32) (es : List Entry) : List Entry :=
  (es.map fun e => { e with mask := e.mask &&& ~~~m }).filter fun e => e.mask != 0

/-- A split of tray code that needs more than six entries (R137). With an eligible victim and room to spawn it, its threads are
spawned at its PC and priority and the rest is placed, when that fits. Where no entry is eligible or the tray cannot spawn, groups are
moved in ascending order of address as far as six entries allow, and the others' slots stay at the branch, held. -/
def SplitsPastSix (i : Instr) (s s' : State) (c : Ctx) (places : List Entry) : Prop :=
  let old := c.tray.frontier.eraseIdx c.entry
  let new := places.filter fun e => e.mask != 0
  let all_ := mergeAll (old ++ new)
  c.front = false → c.tray.frontier.length ≤ 6 → ¬c.fit places →
    ((s'.canSpawn c.tray = false ∨ ∀ e ∈ all_, e.depth ≠ 0 ∨ e.loops ≠ []) →
      ∃ t tr moved left, exec i s = .next t ∧ t.tray? c.tray.id = some tr ∧ (moved ++ left).Perm new ∧
        (moved ++ left).Pairwise (fun x y => x.pc.toNat ≤ y.pc.toNat) ∧ tr.frontier.length ≤ 6 ∧
        (let held (xs : List Entry) : List Entry :=
          if xs.isEmpty then [] else [{ c.ent with mask := xs.foldl (fun m e => m ||| e.mask) 0, wait := .held }]
         tr.frontier = mergeAll (old ++ moved ++ held left) ∧
           ∀ x xs, left = x :: xs → 6 < (mergeAll (old ++ moved ++ [x] ++ held xs)).length)) ∧
    ∀ v u, s'.canSpawn c.tray = true → IsVictim c.tray all_ v → (∀ id t0, v.wait ≠ .reply id t0) →
      s'.spawnThreads c.tray.id v.pc v.prio 32 v.mask = some u →
      (mergeAll (without v.mask old ++ without v.mask new)).length ≤ 6 → without v.mask old ++ without v.mask new ≠ [] →
        ∃ t, exec i s = .next t ∧ t.still = u.still ∧ ∃ tr, t.tray? c.tray.id = some tr ∧
          tr.frontier = mergeAll (without v.mask old ++ without v.mask new)

/-- The target of an FB word (R71). -/
def targetOf (c : Ctx) (off : BitVec 14) : DWord :=
  c.ent.pc + BitVec.ofNat 64 (c.size - 4) + BitVec.ofInt 64 (2 * off.toInt)

/-- The issuing entry with some of its slots at a place and a priority (R133, R163). -/
def Ctx.to (c : Ctx) (pc : DWord) (prio : BitVec 6) (m : BitVec 32) : Entry :=
  { c.ent with pc := pc, prio := prio, mask := m, wait := .none, skip := 0 }

/-- The issuing entry with some of its slots past its group. -/
def Ctx.onward (c : Ctx) (m : BitVec 32) : Entry := { c.past with mask := m }

/-- The slots that a conditional branch takes: where p has a value, or all of a strand where f p is nonzero or not
(R151, R163). -/
def takenBy (c : Ctx) (p : BitVec 3) (want : Bool) : BitVec 32 :=
  if c.front then (if (c.val64 (.reg (BitVec.ofNat 7 (64 + p.toNat)) 2 false .int) 0 != 0) == want then c.act else 0)
  else maskOf fun t => c.act.getLsbD t.val && (c.pred p t == want)

/-- What a conditional branch asks of its operands. -/
def asksPred (s : State) (p : BitVec 3) : Req :=
  match s.cur with | .front _ => { srcs := [.reg (64 + p.setWidth 7) 2 false .int] } | _ => { preds := [p] }

end Sys2Proof.Machine

/-- BRA takes every active slot to its target; BRP and BRNP take the slots whose predicate is true or false there and leave the
others past the group; BRSP does so too where it cannot spawn (R133, R163). A split of BRP, BRNP or such a BRSP that needs a seventh entry spawns its victim, or
moves its slots as far as six entries allow and holds the rest at the branch (R137). Frontiers merge as R135 says, where entries that
wait differently stay as log 13 has them. -/
def Obligations.BranchesWithinSixEntries : Prop :=
  (∀ (f : FBra) (s s' : State) (c : Ctx), Issues s Pfx.empty 4 {} c s' →
    let there := c.to (targetOf c f.off) f.pri c.act
    c.fit [there] → ∃ t, exec (.bra f) s = .next t ∧ Branches s' t c [there]) ∧
  (∀ x ∈ [((Instr.brp : FBrp → Instr), true), (.brnp, false)], ∀ (f : FBrp) (s s' : State) (c : Ctx),
    Issues s Pfx.empty 4 (asksPred s f.p) c s' →
    let m := takenBy c f.p x.2
    let places := [c.to (targetOf c f.off) f.pri m, c.onward (c.act &&& ~~~m)]
    c.fit places → ∃ t, exec (x.1 f) s = .next t ∧ Branches s' t c places) ∧
  (∀ (p : Pfx) (f : FBrp) (s s' : State) (c : Ctx), Issues s p (groupSize p) { preds := [f.p] } c s' →
    let m := takenBy c f.p true
    let places := [c.to (targetOf c f.off) f.pri m, c.onward (c.act &&& ~~~m)]
    (m = 0 ∨ c.act &&& ~~~m = 0 ∨ c.ent.depth ≠ 0 ∨ s'.canSpawn c.tray = false) → c.fit places →
      ∃ t, exec (.brsp p f) s = .next t ∧ Branches s' t c places) ∧
  (∀ (p : Pfx) (f : FBrp) (s s' : State) (c : Ctx), Issues s p (groupSize p) { preds := [f.p] } c s' → s'.canSpawn c.tray = false →
    SplitsPastSix (.brsp p f) s s' c [c.to (targetOf c f.off) f.pri (takenBy c f.p true), c.onward (c.act &&& ~~~takenBy c f.p true)]) ∧
  ∀ x ∈ [((Instr.brp : FBrp → Instr), true), (.brnp, false)], ∀ (f : FBrp) (s s' : State) (c : Ctx),
    Issues s Pfx.empty 4 (asksPred s f.p) c s' → SplitsPastSix (x.1 f) s s' c
      [c.to (targetOf c f.off) f.pri (takenBy c f.p x.2), c.onward (c.act &&& ~~~takenBy c f.p x.2)]

/-- BRSP spawns the smaller side, the taken one when they are equal, with its side's PC and priority and the live count of IMM
or 32; the other side continues; a spawn that lacks room waits with its threads blocked (R143, R163). What waits merges as log 13
says. -/
def Obligations.BrspSpawnsTheSmallerSide : Prop :=
  ∀ (p : Pfx) (f : FBrp) (s s' : State) (c : Ctx), Issues s p (groupSize p) { preds := [f.p] } c s' → c.front = false →
    let m := takenBy c f.p true
    let n := c.act &&& ~~~m
    let there := c.to (targetOf c f.off) f.pri m
    let next := c.onward n
    let gone := if (maskSlots m).length ≤ (maskSlots n).length then there else next
    let stays := if (maskSlots m).length ≤ (maskSlots n).length then next else there
    let live := match p.imm with | some i => i.toNat % 64 | none => 32
    m ≠ 0 → n ≠ 0 → c.ent.depth = 0 → s'.canSpawn c.tray = true → c.fit [stays] →
    (∀ u, s'.spawnThreads c.tray.id gone.pc gone.prio live gone.mask = some u →
      ∃ t, exec (.brsp p f) s = .next t ∧ t.still = u.still ∧ (∀ o r, t.held o r = s'.held o r) ∧
        (∃ tr, t.tray? c.tray.id = some tr ∧ tr.frontier = mergeAll (c.tray.frontier.eraseIdx c.entry ++ [stays])) ∧
        ∀ x ∈ maskSlots gone.mask, ∃ tm ∈ t.teams, tm.id = c.team.id ∧ ∃ sp ∈ tm.spawns,
          sp.tray = c.tray.id ∧ sp.slot = x ∧ sp.pc = gone.pc ∧ sp.prio = gone.prio ∧ sp.preds = c.tray.preds[x] ∧
          sp.curs = c.tray.cursors[x] ∧ sp.tid = (c.tray.remap[x]).getD 0) ∧
    (s'.spawnThreads c.tray.id gone.pc gone.prio live gone.mask = none → c.fit [{ gone with wait := .spawn live }, stays] →
      ∃ t, exec (.brsp p f) s = .next t ∧ Branches s' t c [{ gone with wait := .spawn live }, stays])

/-- A branch leaves at most six entries in every frontier that had at most six (R134, R137). -/
def Obligations.BranchesKeepSixEntries : Prop :=
  ∀ (s t : State) (p : Pfx) (b : FBra) (f : FBrp) (j : FJmp),
    (∀ tr ∈ s.trays, tr.frontier.length ≤ 6 ∧ ∀ ts, tr.trap = some ts → ts.frontier.length ≤ 6) →
    ∀ i ∈ [Instr.bra b, .brp f, .brnp f, .brsp p f, .jmpi j], exec i s = .next t → ∀ tr ∈ t.trays, tr.frontier.length ≤ 6

namespace Sys2Proof.Machine

/-- Whether an address is a landing point: it is even and holds the LAND word (R158). -/
def landsAt (s : State) (c : Ctx) (va : DWord) : Prop :=
  va.toNat % 2 = 0 ∧ ∀ i : Fin 4, s.fetchByte c.cx c.launch.ver c.team.id (va + BitVec.ofNat 64 i.val) =
    .ok (BitVec.ofNat 8 (0x000001BB / 2 ^ (8 * i.val)))

end Sys2Proof.Machine

/-- CALL pushes a frame of zeros with its return address, the entry's priority and its callers, and goes on at the target one call
deeper; a strand pushes the return address (R33, R147, R151, R163). RET: a thread waits at it for the frame's other callers, and at
depth 0 it is illegal; a strand goes back to the newest return address, and ends when it has none (R148).
JMPI: when every active slot's address is a landing point, its slots go there with the word's priority, one entry for each
address, and a split past six entries as R137 has it; slots whose address is none are parked, with one record of cause 0x0B, in a handler the tray is killed instead (R177), and a
tray left with no thread ends; a strand whose address is none ends with cause 0x0B (R158, R163). Frontiers merge as log 13 says. -/
def Obligations.CallRetAndJmpi : Prop :=
  ((∀ (f : FCall) (s s' : State) (c : Ctx), Issues s Pfx.empty 4 {} c s' →
    let there := c.to (targetOf c f.off) f.pri c.act
    let next := c.ent.pc + 4
    (c.front = true → c.team.front.stack.length < 16 → ∃ t, exec (.call f) s = .next t ∧
      Branches (s'.modFront c.team.id fun fr => { fr with stack := next :: fr.stack }) t c [there]) ∧
    (c.front = true → 16 ≤ c.team.front.stack.length → exec (.call f) s = .next (s'.raise c { code := 0x18, mask := 0 })) ∧
    (c.front = false → 64 ≤ c.tray.frames.length → exec (.call f) s = .next (s'.raise c { code := 0x18, mask := c.act })) ∧
    ∀ us, c.front = false → c.tray.frames.length < 64 → s'.room c c.tray (4 * f.w.toNat) 0 = .fits us →
      ∃ t tr fr rest, exec (.call f) s = .next t ∧ t.tray? c.tray.id = some tr ∧ tr.frames = fr :: rest ∧
        fr.size = 4 * f.w.toNat ∧ fr.retAddr = next ∧ fr.prio = c.ent.prio ∧ fr.callers = c.act ∧
        (∀ (u : Fin 32) (n : Nat) (h : n < 16), fr.regs[u][n]'h = Reg.zero) ∧
        rest.map (·.uid) = c.tray.frames.map (·.uid) ∧
        tr.frontier = mergeAll (modAt (fun _ => { there with depth := c.ent.depth + 1 }) c.tray.frontier c.entry) ∧
        (∀ o r, (∀ u n, r ≠ .win fr.uid u n) → t.held o r = s'.held o r) ∧ SameBytes s' t ∧ SamePreds s' t) ∧
  ∀ (s s' : State) (c : Ctx), Issues s Pfx.empty 4 {} c s' →
    (c.front = false → c.ent.depth ≠ 0 → ∃ t, exec .ret s = .next t ∧ Acts s' t s' c [] { c.ent with wait := .ret }) ∧
    (c.front = false → c.ent.depth = 0 → exec .ret s = .next (s'.raise c { code := 0x01, mask := c.act })) ∧
    (∀ a rest, c.front = true → c.team.front.stack = a :: rest → ∃ t, exec .ret s = .next t ∧
      Branches (s'.modFront c.team.id fun fr => { fr with stack := rest }) t c [c.to a 0 c.act]) ∧
    (c.front = true → c.team.front.stack = [] → ∃ t, exec .ret s = .next t ∧
      t.still = (s'.modFront c.team.id fun fr => { fr with status := .ended }).still ∧ ∀ o r, t.held o r = s'.held o r)) ∧
  ∀ (f : FJmp) (s s' : State) (c : Ctx), Issues s Pfx.empty 4 { srcs := [.reg f.a 2 f.ta .int] } c s' →
    let g (u : Fin 32) := c.val64 (.reg f.a 2 f.ta .int) u
    (∀ places, (∀ u ∈ maskSlots c.act, landsAt s' c (g u)) →
      places = c.jumps g f.pri (maskSlots c.act) [] → c.fit places →
      (∃ t, exec (.jmpi f) s = .next t ∧ Branches s' t c places) ∧
        ∀ u ∈ maskSlots c.act, ∃ e ∈ places, e.pc = g u ∧ e.prio = f.pri ∧ e.mask.getLsbD u.val = true) ∧
    ((∀ u ∈ maskSlots c.act, landsAt s' c (g u)) → SplitsPastSix (.jmpi f) s s' c (c.jumps g f.pri (maskSlots c.act) [])) ∧
    (∀ bad : BitVec 32, c.front = false → (∀ u : Fin 32, bad.getLsbD u.val = true ↔ u ∈ maskSlots c.act ∧ ¬landsAt s' c (g u)) → bad ≠ 0 →
      let va := g (lowestSlot bad)
      (c.tray.trap.isSome = true → exec (.jmpi f) s = .next (s'.raise c { code := 0x0B, mask := bad, addr := va })) ∧
      (c.tray.trap = none → (∃ u ∈ maskSlots c.act, landsAt s' c (g u)) →
        ∃ t tr, exec (.jmpi f) s = .next t ∧ t.tray? c.tray.id = some tr ∧ tr.parked = c.tray.parked ||| bad ∧
          ∃ cx, t.ctx? c.cx.id = some cx ∧ cx.sticky = c.cx.sticky ||| 1#26 <<< 10) ∧
      (c.tray.trap = none → (∀ u ∈ maskSlots c.act, ¬landsAt s' c (g u)) → 1 < c.tray.frontier.length →
        ∃ t tr, exec (.jmpi f) s = .next t ∧ t.tray? c.tray.id = some tr ∧ tr.parked = c.tray.parked ||| bad ∧
          tr.frontier = c.tray.frontier.eraseIdx c.entry ∧
          ∃ cx, t.ctx? c.cx.id = some cx ∧ cx.sticky = c.cx.sticky ||| 1#26 <<< 10) ∧
      (c.tray.trap = none → (∀ u ∈ maskSlots c.act, ¬landsAt s' c (g u)) → c.tray.frontier.length ≤ 1 →
        (∃ sp ∈ c.team.spawns, sp.tray = c.tray.id ∧ sp.written = false) →
        ∃ t tr, exec (.jmpi f) s = .next t ∧ t.tray? c.tray.id = some tr ∧ tr.parked = c.tray.parked ||| bad ∧ tr.frontier = []) ∧
      (c.tray.trap = none → (∀ u ∈ maskSlots c.act, ¬landsAt s' c (g u)) → c.tray.frontier.length ≤ 1 →
        (∀ sp ∈ c.team.spawns, sp.tray = c.tray.id → sp.written = true) →
        ∃ t, exec (.jmpi f) s = .next t ∧ t.tray? c.tray.id = none)) ∧
    (c.front = true → ¬landsAt s' c (g 0) →
      exec (.jmpi f) s = .next (s'.raise c { code := 0x0B, mask := 0, addr := g 0 }))

/-- LOOP with a legal body: a count of 0 flows on from the end, any other opens the loop and goes on at its start
(R149, R150, R165). One whose counter or end does not fit the open loops, or whose body breaks a restriction, is illegal, cause 0x01,
before any count is read: so is one whose first body instruction is barred or passes the end. -/
def Obligations.LoopOpensOrSkipsItsBody : Prop :=
  (∀ (p : Pfx) (f : FLoop) (s s' : State) (c : Ctx), Issues s p (groupSize p) { srcs := [.reg f.a 1 f.ta .int] } c s' →
    let e := match p.imm with | some i => i.toNat | none => f.e.toNat
    let start := c.ent.pc + BitVec.ofNat 64 (groupSize p)
    let stop := c.ent.pc + BitVec.ofNat 64 (groupSize p - 4 + 2 * e)
    let outer := c.ent.loops.map fun l => (l.lc, l.stop.toNat)
    let n := c.val (.reg f.a 1 f.ta .int) c.low
    (∀ l ∈ c.ent.loops, l.lc ≠ f.lc ∧ stop.toNat ≤ l.stop.toNat) →
    State.bodyOk (e + 1) s c ((f.lc, stop.toNat) :: outer) start.toNat stop.toNat = true →
      ∃ t, exec (.loop p f) s = .next t ∧ Acts s' t s' c []
        (if n = 0 then { c.ent.flowTo stop with wait := .none }
         else { c.ent with pc := start, wait := .none, loops := { lc := f.lc, count := n, start := start, stop := stop } :: c.ent.loops })) ∧
  ∀ (p : Pfx) (f : FLoop) (s : State) (c : Ctx), s.issuer p (groupSize p) = some c →
    let e := match p.imm with | some i => i.toNat | none => f.e.toNat
    let start := c.ent.pc + BitVec.ofNat 64 (groupSize p)
    let stop := c.ent.pc + BitVec.ofNat 64 (groupSize p - 4 + 2 * e)
    let outer := c.ent.loops.map fun l => (l.lc, l.stop.toNat)
    let illegal := exec (.loop p f) s = .next (s.raise c { code := 0x01, mask := c.act })
    ((∃ l ∈ c.ent.loops, l.lc = f.lc ∨ l.stop.toNat < stop.toNat) → illegal) ∧
    (State.bodyOk (e + 1) s c ((f.lc, stop.toNat) :: outer) start.toNat stop.toNat = false → illegal) ∧
    ∀ i rest, start.toNat < stop.toNat → decode ((s.codeAt c start 16).take 12) = .ok (i, rest) →
      (start.toNat + i.size > stop.toNat ∨ i ∈ [.ret, .meet, .land, .eret, .kill] ∨ (∃ b, i = .bra b) ∨ (∃ b, i = .brp b) ∨
        (∃ b, i = .brnp b) ∨ (∃ q b, i = .brsp q b) ∨ (∃ b, i = .call b) ∨ (∃ b, i = .jmpi b) ∨ (∃ b, i = .dqpush b) ∨
        (∃ b, i = .dqpop b) ∨ (∃ b, i = .meetl b) ∨ (∃ q, i = .exit q) ∨ (∃ q, i = .trap q) ∨ (∃ q b, i = .waitt q b) ∨
        (∃ b, i = .migrate b)) → illegal

/-- DQPUSH appends its strand's value to the decision queue and releases at TEAM scope on it, and DQPOP takes a dispatched tray's next
decision into its pair and acquires from it (R255); each raises 0x19 where it may not stand (R88, R152, R153, R166). -/
def Obligations.DecisionQueueIsFirstInFirstOut : Prop :=
  (∀ (f : FA) (s s' : State) (c : Ctx) (tm : Team), Issues s Pfx.empty 4 { srcs := [.reg f.a 2 f.ta .int] } c s' → c.front = true →
    (s'.dqTrim c.team.id).team? c.team.id = some tm → ((s'.dqTrim c.team.id).readers c.team.id).isEmpty = false → tm.dq.length < 64 →
    ∃ t tm', exec (.dqpush f) s = .next t ∧ t.team? c.team.id = some tm' ∧
      tm'.dq = tm.dq ++ [c.val64 (.reg f.a 2 f.ta .int) 0] ∧ tm'.dqBase = tm.dqBase ∧
      Acts s' t (((s'.dqTrim c.team.id).modTeam c.team.id fun tm => { tm with dq := tm.dq ++ [c.val64 (.reg f.a 2 f.ta .int) 0] }).releaseOn
        c.cx c.owner c.act (.queue c.team.id) 1) c [] c.past) ∧
  (∀ (f : FD) (s s' : State) (c : Ctx) (v : DWord), Issues s Pfx.empty 4 { dsts := [(f.d, 2)] } c s' → c.front = false →
    c.tray.formed = false → c.tray.landed = none → c.team.dq[c.tray.dqPos - c.team.dqBase]? = some v →
    ∃ t, exec (.dqpop f) s = .next t ∧
      Acts s' t (((s'.modTray c.tray.id fun tr => { tr with dqPos := c.tray.dqPos + 1 }).dqTrim c.team.id).acquireOn
        c.cx c.owner c.act (.queue c.team.id) 1) c
        (c.writes f.d 2 fun _ => [BitVec.ofNat 32 v.toNat, BitVec.ofNat 32 (v.toNat / 2 ^ 32)]) c.past) ∧
  (∀ (f : FA) (s s' : State) (c : Ctx), Issues s Pfx.empty 4 { named := [f.a] } c s' → c.front = false →
    exec (.dqpush f) s = .next (s'.raise c { code := 0x19, mask := c.act })) ∧
  ∀ (f : FD) (s s' : State) (c : Ctx), Issues s Pfx.empty 4 (match s.cur with | .front _ => {} | _ => { dsts := [(f.d, 2)] }) c s' →
    (c.front = true ∨ c.tray.formed = true ∨ c.tray.landed.isSome = true) →
    exec (.dqpop f) s = .next (s'.raise c { code := 0x19, mask := c.act })

namespace Sys2Proof.Machine

/-- The scope of a launch's level, 0 beyond its levels (R21). -/
def scopeOf (l : Launch) (n : Nat) : Nat := ((l.levels[n]?).map (·.scope.toNat)).getD 0

/-- No write at a peer that a release of the issuer covers, its own or one that it carries, is unacknowledged (R231, R241). -/
def NoneUnacked (s : State) (c : Ctx) : Prop := ∀ x ∈ s.fab.flights, s.ackDue c .all x = false

/-- A barrier at a level can be met at once: below FAB always, at FAB without unacknowledged writes, at SURV also only outside
version 0, where there is nothing to make survivable (R157, R243). -/
def MeetsAtOnce (s : State) (c : Ctx) (n : Nat) : Prop :=
  scopeOf c.launch n < 4 ∨
    (scopeOf c.launch n = 4 ∨ scopeOf c.launch n = 5 ∧ c.launch.ver ≠ 0) ∧ NoneUnacked s c

end Sys2Proof.Machine

/-- MEET and MEETL make their entry wait at its barrier, at a level of scope FAB once no write of the issuer is unacknowledged;
a detached tray passes; a level that the launch does not have is illegal (R154 to R156, R167). -/
def Obligations.BarriersHoldTheirEntry : Prop :=
  (∀ (s s' : State) (c : Ctx), Issues s Pfx.empty 4 {} c s' →
    (c.front = true ∨ c.tray.landed = none) → MeetsAtOnce s' c c.launch.teamLevel →
      ∃ t, exec .meet s = .next t ∧ Acts s' t s' c [] { c.ent with wait := .meet c.launch.teamLevel }) ∧
  (∀ (f : FMeet) (s s' : State) (c : Ctx), Issues s Pfx.empty 4 {} c s' → (c.front = true ∨ c.tray.landed = none) → f.n ≠ 0 →
    f.n.toNat < c.launch.levels.length →
    MeetsAtOnce s' c f.n.toNat →
      ∃ t, exec (.meetl f) s = .next t ∧ Acts s' t s' c [] { c.ent with wait := .meet f.n.toNat }) ∧
  (∀ (f : FMeet) (s s' : State) (c : Ctx), Issues s Pfx.empty 4 {} c s' → c.front = false → c.tray.landed.isSome = true →
    (∃ t, exec .meet s = .next t ∧ Acts s' t s' c [] c.past) ∧
    (f.n ≠ 0 → f.n.toNat < c.launch.levels.length → ∃ t, exec (.meetl f) s = .next t ∧ Acts s' t s' c [] c.past)) ∧
  ∀ (f : FMeet) (s s' : State) (c : Ctx), Issues s Pfx.empty 4 {} c s' → (f.n = 0 ∨ c.launch.levels.length ≤ f.n.toNat) →
    exec (.meetl f) s = .next (s'.raise c { code := 0x01, mask := c.act })

/-- SETPRI sets the issue priority to min(a, 15) (R56); NOP and LAND only retire (R168, R169); BRK has no effect without a debugger,
and with one the debugger is told and the issuer stops (R169); WAITT passes when device time has reached its value, compared as
a signed number (the model's choice, log 68), and waits for it else (R169). -/
def Obligations.SimpleSystemInstructions : Prop :=
  (∀ (p : Pfx) (f : FA) (s s' : State) (c : Ctx), Issues s p (groupSize p) { srcs := [immOr p p.immU f.a f.ta .int], once := true } c s' →
    let v := BitVec.ofNat 4 (min (c.val (immOr p p.immU f.a f.ta .int) c.low).toNat 15)
    ∃ t, exec (.setpri p f) s = .next t ∧ Acts s' t
      (if c.front then s'.modFront c.team.id fun fr => { fr with prio := v } else s'.modTray c.tray.id fun tr => { tr with prio := v })
      c [] c.past) ∧
  (∀ (s s' : State) (c : Ctx), Issues s Pfx.empty 4 {} c s' → ∀ i ∈ [Instr.nop, .land],
    ∃ t, exec i s = .next t ∧ Computes s' t c []) ∧
  (∀ (p : Pfx) (s s' : State) (c : Ctx), Issues s p (groupSize p) {} c s' →
    ∃ t, exec (.brk p) s = .next t ∧ Acts s' t
      (if c.cx.debugger then
        let u : State := { s' with outbox := s'.outbox ++ [Out.brk (if c.front then c.team.id else c.tray.id)] }
        if c.front then u.modFront c.team.id fun fr => { fr with stopped := true }
        else u.modTray c.tray.id fun tr => { tr with stopped := true }
       else s') c [] c.past) ∧
  ∀ (p : Pfx) (f : FA) (s s' : State) (c : Ctx),
    let a : Src := match p.imm with | some _ => .imm p.immX | none => .reg f.a 2 f.ta .int
    Issues s p (groupSize p) { srcs := [a], once := true } c s' →
    ((c.val64 a c.low).toInt ≤ s'.time → ∃ t, exec (.waitt p f) s = .next t ∧ Acts s' t s' c [] c.past) ∧
    (s'.time < (c.val64 a c.low).toInt → ∃ t, exec (.waitt p f) s = .next t ∧
      Acts s' t s' c [] { c.ent with wait := .waitt (c.val64 a c.low) c.size })

/-- EXIT ends the threads of its active slots: they leave the frontier and their TIDs name no slot, and the tray's other threads
go on; KILL ends every thread of its tray (R168, R169). -/
def Obligations.ExitAndKillEndThreads : Prop :=
  (∀ (p : Pfx) (s s' : State) (c : Ctx), Issues s p (groupSize p) {} c s' → c.front = false →
    ∃ t, exec (.exit p) s = .next t ∧
      (cutMask (mergeAll (modAt (fun _ => c.past) c.tray.frontier c.entry)) c.act ≠ [] → ∃ tr, t.tray? c.tray.id = some tr ∧
        tr.frontier = cutMask (mergeAll (modAt (fun _ => c.past) c.tray.frontier c.entry)) c.act ∧
        (∀ u : Fin 32, tr.remap[u] = if c.act.getLsbD u.val then none else c.tray.remap[u]) ∧
        (∀ o r, t.held o r = s'.held o r) ∧ SameBytes s' t) ∧
      (cutMask (mergeAll (modAt (fun _ => c.past) c.tray.frontier c.entry)) c.act = [] → c.tray.trap = none →
        t.tray? c.tray.id = none ∨ ∃ tr, t.tray? c.tray.id = some tr ∧ tr.frontier = [])) ∧
  ∀ (s s' : State) (c : Ctx), Issues s Pfx.empty 4 {} c s' → c.front = false →
    ∃ t, exec .kill s = .next t ∧ (t.tray? c.tray.id = none ∨ ∃ tr, t.tray? c.tray.id = some tr ∧ tr.frontier = [])

namespace Sys2Proof.Machine

/-- The causes with the fate Trap in tray code (R175); 0x01 kills, and 0x0B, 0x0D to 0x0F, 0x13 and 0x17 have fates of their own. -/
def trapCauses : List Nat :=
  [0x02, 0x03, 0x04, 0x05, 0x06, 0x07, 0x08, 0x09, 0x0A, 0x0C, 0x10, 0x11, 0x12, 0x14, 0x15, 0x16, 0x18, 0x19, 0x1A]

/-- The tray's handler entry: the whole slot mask of the entry that trapped, at TRAPPC with priority 63 and its call depth,
without loops (R176). -/
def inHandler (c : Ctx) : Entry :=
  { pc := c.cx.trapPc, prio := 63, mask := c.ent.mask, depth := c.ent.depth, loops := [], wait := .none, skip := 0 }

/-- A fault record was appended for a cause, or counted lost when the ring is full; STICKY has the cause's bit (R172, R173). -/
def Recorded (s t : State) (ctx code : Nat) : Prop :=
  ∀ cx, s.ctx? ctx = some cx → ∃ cx', t.ctx? ctx = some cx' ∧
    cx'.sticky = cx.sticky ||| (if code = 0x0F ∨ code = 0x17 then 0 else 1#26 <<< (code - 1)) ∧
    if (cx.fcHead + 1 - BitVec.ofNat 64 (s.ctxNat cx (cx.ccb.toNat + 0x20) 8)).toNat ≤ cx.fcCap then
      cx'.fcHead = cx.fcHead + 1 ∧ cx'.fcLost = cx.fcLost ∧ cx'.lostPend = false
    else cx'.fcHead = cx.fcHead ∧ cx'.fcLost = cx.fcLost + 1 ∧ cx'.lostPend = true

end Sys2Proof.Machine

/-- Taking an exception in tray code with a handler: FPC, FCAUSE and FMASK are saved, the frontier is kept, one handler entry
stands at TRAPPC, the tray's reservations are lost, the record is appended, and no register or predicate changes (R175,
R176). -/
def Obligations.TrapEntersTheHandler : Prop :=
  ∀ (s : State) (c : Ctx) (f : Cause), c.front = false → s.tray? c.tray.id = some c.tray → s.ctx? c.cx.id = some c.cx →
    f.code ∈ trapCauses → c.tray.trap = none → c.cx.trapPc ≠ 0 → landsAt s c c.cx.trapPc →
    ∃ tr, (s.raise c f).tray? c.tray.id = some tr ∧ tr.fpc = c.ent.pc ∧ tr.fcause.toNat = f.code ∧ tr.fmask = f.mask ∧
      tr.frontier = [inHandler c] ∧
      tr.trap = some { frontier := c.tray.frontier, issuer := c.entry, size := c.size, once := f.once } ∧
      (∀ u : Fin 32, tr.resv[u] = none) ∧ Recorded s (s.raise c f) c.cx.id f.code ∧
      (∀ o r, (s.raise c f).held o r = s.held o r) ∧ SamePreds s (s.raise c f)

/-- An illegal instruction, a cause raised in a handler, or a cause without a handler kills the tray: its threads end, and its
launch keeps the first cause (R82, R175, R177); in front code every cause ends the strand and no handler runs (R151, R175); TRAP
raises cause 0x1A with its code in the record, for its active slots (R169). -/
def Obligations.CausesWithoutAHandler : Prop :=
  (∀ (s : State) (c : Ctx) (f : Cause), c.front = false → s.tray? c.tray.id = some c.tray → s.ctx? c.cx.id = some c.cx →
    s.team? c.tray.team = some c.team → s.launch? c.team.launch = some c.launch → f.code ∈ 0x01 :: 0x0B :: trapCauses →
    (f.code = 0x01 ∨ c.tray.trap.isSome = true ∨ f.code ≠ 0x0B ∧ (c.cx.trapPc = 0 ∨ ¬landsAt s c c.cx.trapPc)) →
      ((s.raise c f).tray? c.tray.id = none ∨ ∃ tr, (s.raise c f).tray? c.tray.id = some tr ∧ tr.frontier = []) ∧
      ∀ l, (s.raise c f).launch? c.team.launch = some l → l.cause = some (c.launch.cause.getD f.code)) ∧
  (∀ (s : State) (c : Ctx) (f : Cause), c.front = true → s.team? c.team.id = some c.team → s.ctx? c.cx.id = some c.cx →
    f.code ∈ 0x01 :: 0x0B :: trapCauses →
      (∃ tm, (s.raise c f).team? c.team.id = some tm ∧ tm.front.status = .ended) ∧ Recorded s (s.raise c f) c.cx.id f.code ∧
      ∀ id, ((s.raise c f).tray? id).map (·.frontier) = (s.tray? id).map (·.frontier)) ∧
  ∀ (p : Pfx) (s s' : State) (c : Ctx), Issues s p (groupSize p) {} c s' →
    exec (.trap p) s = .next (s'.raise c
      { code := 0x1A, mask := if c.front then 0 else c.act, d0 := match p.imm with | some i => i.setWidth 64 | none => 0 })

/-- ERET discards the handler's entries and restores the saved frontier: past the TRAP group after cause 0x1A, with the group
skipped in the slots of FMASK after 0x02, at the group else; registers keep what the handler wrote; the tray's held commands
restart. Without a trap in progress it is illegal (R169, R178, R179). No entry of the team waits for room to spawn, which would be looked
for next. Frontiers merge as log 13 says. -/
def Obligations.EretReturnsFromATrap : Prop :=
  ∀ (s s' : State) (c : Ctx), Issues s Pfx.empty 4 {} c s' → c.front = false →
    (∀ ts e, c.tray.trap = some ts → ts.frontier[ts.issuer]? = some e → (∀ x ∈ ts.frontier, ∀ n, x.wait ≠ .spawn n) →
      (∀ tr ∈ s'.trays, tr.team = c.team.id → ∀ x ∈ tr.frontier, ∀ n, x.wait ≠ .spawn n) → ∃ t tr, exec .eret s = .next t ∧
      t.tray? c.tray.id = some tr ∧ tr.trap = none ∧ tr.fpc = c.tray.fpc ∧ tr.fcause = c.tray.fcause ∧ tr.fmask = c.tray.fmask ∧
      (c.tray.fcause = 0x1A → tr.frontier =
        mergeAll (modAt (fun _ => e.flowTo (e.pc + BitVec.ofNat 64 ts.size)) ts.frontier ts.issuer)) ∧
      (c.tray.fcause = 0x02 → tr.frontier = mergeAll (modAt (fun _ =>
        { e with skip := e.skip ||| (if ts.once then e.mask else c.tray.fmask) }) ts.frontier ts.issuer)) ∧
      (c.tray.fcause ≠ 0x1A → c.tray.fcause ≠ 0x02 → tr.frontier = mergeAll ts.frontier) ∧
      (∀ o r, t.held o r = s'.held o r) ∧ SamePreds s' t ∧ SameBytes s' t ∧ t.ctxs = s'.ctxs ∧
      ∀ k ∈ t.cmds, k.owner = .tray c.tray.id → ∀ a b d, k.state ≠ .held a b d true) ∧
    (c.tray.trap = none → exec .eret s = .next (s'.raise c { code := 0x01, mask := c.act }))

namespace Sys2Proof.Machine

/-- Where the accesses of a group go: each slot's address is aligned, resolves to a place, and a write finds room for all the version
lines that it makes (R188 to R194, R202, R319). -/
def Lands (s : State) (c : Ctx) (once : Bool) (acc : Access) (n : Nat) (va : Fin 32 → DWord) (hs : List Hit) : Prop :=
  Paired (fun t h => h.slot = t ∧ h.va = va t ∧ (va t).toNat % n = 0 ∧
    s.resolve c.cx c.launch.ver c.team.id c.tray? acc (va t) = .ok h.loc h.attr) (c.slots once) hs ∧
  (acc.isWrite = true → s.lineless c.cx c.keys (hs.map fun h => (h.loc, h.attr)) = [])

/-- The places lie in this device. -/
def Local (hs : List Hit) : Prop := ∀ h ∈ hs, ∀ d a, h.loc ≠ .peer d a

/-- The checks of a store's places at peers were answered, with no cause (R190, R194; the model's choice, log 132). -/
def Admitted (s : State) (c : Ctx) (hs : List Hit) : Prop :=
  ∀ h ∈ hs, ∀ d a, h.loc = .peer d a →
    ∃ x, s.fab.pulled.find? (fun x => x.owner == c.owner && x.peer == d && x.addr == a) = some x ∧ x.cause = none

/-- The state after the pages of some places were reached under their names (R198). -/
def reachedBy (s : State) (c : Ctx) (hs : List Hit) : State := hs.foldl (fun s h => s.named c.cx.id h.va h.loc h.attr) s

/-- The offset E of the FM layout in elements (R201). -/
def elements (p : Pfx) (off : BitVec 7) : Int :=
  match p.imm, p.ximm with
  | some i, some x => (x ++ i ++ off : BitVec (23 + 23 + 7)).toInt
  | some i, none => (i ++ off : BitVec (23 + 7)).toInt
  | none, _ => off.toInt

/-- The address of an FM form in a slot (R202). -/
def address (c : Ctx) (p : Pfx) (a : BitVec 7) (ta : Bool) (off : BitVec 7) (n : Nat) (t : Fin 32) : DWord :=
  c.val64 (.reg a 2 ta .int) t + BitVec.ofInt 64 (n * elements p off)

/-- Words from bytes, little-endian, four bytes each. -/
def wordsFrom (bs : List Byte) : List Word := (List.range ((bs.length + 3) / 4)).map fun i => BitVec.ofNat 32 (leNat ((bs.drop (4 * i)).take 4))

/-- The loads with the registers they write, their access size, and the words that their bytes become (R202). -/
def loads : List ((Pfx → FLd → Instr) × Nat × Nat × (List Byte → List Word)) :=
  [(.ld8, 1, 1, wordsFrom), (.ld8s, 1, 1, fun bs => [BitVec.signExtend 32 (bs.getD 0 0)]), (.ld16, 1, 2, wordsFrom),
   (.ld32, 1, 4, wordsFrom), (.ld64, 2, 8, wordsFrom), (.ld128, 4, 16, wordsFrom)]

/-- What a load leaves for its destination: in each slot the words of the bytes that its version sees at its place. -/
def loadedWrites (s : State) (c : Ctx) (d : BitVec 7) (n size : Nat) (w : List Byte → List Word) (hs : List Hit) : List RegWrite :=
  c.writes d n fun x => match hs.find? fun h => h.slot == x with | some h => w (s.seen c.keys h.loc size) | none => []

/-- The bytes that an observer may return at a place (R225, R229): each is the newest that its version sees, or what stood before a
listed write that it need not see yet, no later write of that byte being one that it must see. -/
def Returned (s : State) (keys : List VKey) (who : Party) (l : Loc) (n : Nat) (bs : List Byte) : Prop :=
  bs.length = n ∧ ∀ i < n, bs[i]? = some (s.byteSeen keys (l.add i)) ∨
    ∃ (j : Nat) (e : Past), s.past[j]? = some e ∧ e.key = s.copyKey keys l ∧ (e.at? (l.add i)).isSome = true ∧ e.at? (l.add i) = bs[i]? ∧
      ∀ (j' : Nat) (e' : Past), j ≤ j' → s.past[j']? = some e' → e'.key = s.copyKey keys l → (e'.at? (l.add i)).isSome = true →
        missedBy e'.unseen who = true

/-- The bytes that an ordinary load of a slot may return at its place (R229). -/
def Returns (s : State) (c : Ctx) (h : Hit) (n : Nat) (bs : List Byte) : Prop :=
  Returned s c.keys (.threads c.owner (1#32 <<< h.slot.val)) h.loc n bs

/-- What a load leaves for its destination: in each slot the words of the bytes that it returns there. -/
def returnedWrites (c : Ctx) (d : BitVec 7) (n : Nat) (w : List Byte → List Word) (hs : List Hit) (bs : Fin 32 → List Byte) :
    List RegWrite :=
  c.writes d n fun x => match hs.find? fun h => h.slot == x with | some _ => w (bs x) | none => []

/-- The context as its lowest active slot alone (R89). -/
def Ctx.alone (c : Ctx) : Ctx := { c with act := 1#32 <<< c.low.val }

end Sys2Proof.Machine

/-- LD8 to LD128 and compact LD32 mark their destination empty in every slot and leave with a producer what their version may see at
the slot's address, which is the newest bytes or older ones that R229 lets an ordinary load return; LDS does so once, for the lowest
active slot (R43, R201 to R203). A load with places at peers sends one
read for each of them, in slot order and in its version (R370), and waits at the instruction for the responses (the model's
choice, log 69). -/
def Obligations.LoadsReadTheirVersion : Prop :=
  ((∀ x ∈ loads, ∀ (p : Pfx) (f : FLd) (s s' : State) (c : Ctx) (hs : List Hit),
    Issues s p (groupSize p) { srcs := [.reg f.a 2 f.ta .int], dsts := [(f.d, x.2.1)] } c s' →
    Lands s' c false .read x.2.2.1 (address c p f.a f.ta f.off x.2.2.1) hs → Local hs →
      ∃ t bs, exec (x.1 p f) s = .next t ∧ (∀ h ∈ hs, Returns s' c h x.2.2.1 (bs h.slot)) ∧
        Defers (reachedBy s' c hs) t c .load (returnedWrites c f.d x.2.1 x.2.2.2 hs bs)) ∧
  (∀ (f : CReg) (s s' : State) (c : Ctx) (hs : List Hit),
    Issues s Pfx.empty 2 { srcs := [.reg (compactB f) 2 false .int], dsts := [(compactD f.d, 1)] } c s' →
    Lands s' c false .read 4 (c.val64 (.reg (compactB f) 2 false .int)) hs → Local hs →
      ∃ t bs, exec (.ld32C f) s = .next t ∧ (∀ h ∈ hs, Returns s' c h 4 (bs h.slot)) ∧
        Defers (reachedBy s' c hs) t c .load (returnedWrites c (compactD f.d) 1 wordsFrom hs bs)) ∧
  ∀ (p : Pfx) (f : FLd) (s s' : State) (c : Ctx) (hs : List Hit),
    Issues s p (groupSize p) { srcs := [.reg f.a 2 f.ta .int], dsts := [(f.d, 1)], once := true } c s' →
    Lands s' c true .read 4 (address c p f.a f.ta f.off 4) hs → Local hs →
      ∃ t bs, exec (.lds p f) s = .next t ∧ (∀ h ∈ hs, Returns s' c h 4 (bs h.slot)) ∧
        Defers (reachedBy s' c hs) t c .load (returnedWrites c.alone f.d 1 wordsFrom hs bs)) ∧
  ∀ x ∈ loads, ∀ (p : Pfx) (f : FLd) (s s' : State) (c : Ctx) (hs : List Hit),
    Issues s p (groupSize p) { srcs := [.reg f.a 2 f.ta .int], dsts := [(f.d, x.2.1)] } c s' →
    Lands s' c false .read x.2.2.1 (address c p f.a f.ta f.off x.2.2.1) hs → ¬Local hs →
    (∀ h ∈ hs, ∀ d a, h.loc = .peer d a → s'.ownPending c d a = false) → (∀ q ∈ s'.prods, q.id ≠ s'.nextId) →
      ∃ t pr rs, exec (x.1 p f) s = .next t ∧ t.prods = s'.prods ++ [pr] ∧ pr.owner = c.owner ∧ pr.kind = .load ∧
        pr.marks = (maskSlots c.act).flatMap (c.dstNames f.d x.2.1) ∧ pr.tags.length = rs.length ∧ t.outbox = s'.outbox ++ rs ∧
        Paired (fun h o => ∃ d a hd hop r, h.loc = .peer d a ∧ o = Out.request hd hop r ∧ hd.dst = d ∧ hd.vc = 0 ∧ r.op = .read x.2.2.1 ∧
          r.addr = BitVec.ofNat 64 a ∧ r.gid = c.cx.gid s'.devNo c.launch.ver)
          (hs.filter fun h => match h.loc with | .peer .. => true | _ => false) rs ∧
        RegsMarked s' t c.owner pr.marks ∧ Moved s' t c { c.ent with wait := .reply pr.id s'.time } ∧ SameBytes s' t

namespace Sys2Proof.Machine

/-- A view of memory with bytes laid over it from a place upward. -/
def overlay (m : Loc → Byte) (at_ : Loc) (bs : List Byte) (l : Loc) : Byte :=
  match (List.range bs.length).find? fun i => at_.add i == l with
  | some i => bs.getD i 0
  | none => m l

/-- The low n bytes of a source in a slot, lowest first (R202). -/
def storedBytes (c : Ctx) (d : Src) (n : Nat) (u : Fin 32) : List Byte := ((c.words d u).flatMap fun w => leBytes 4 w.toNat).take n

/-- A group stores bytes at its places in slot order: what its version sees, what other observers see, what is sent to peers,
and that no register, predicate, producer or command changes (R202, R204, R238). -/
structure Stored (s t : State) (c : Ctx) (hs : List Hit) (bs : Fin 32 → List Byte) : Prop where
  own : ∀ l, t.byteSeen c.keys l = (localHits hs).foldl (fun m h => overlay m h.loc (bs h.slot)) (s.byteSeen c.keys) l
  others : ∀ ks l, (∀ k, c.keys.head? = some k → k ∉ ks) →
    (∀ h ∈ localHits hs, (c.keys = [] ∨ h.attr.vers = false) → ∀ i < (bs h.slot).length, h.loc.add i ≠ l) →
      t.byteSeen ks l = s.byteSeen ks l
  sent : ∃ rs, t.outbox = s.outbox ++ rs ∧
    Paired (fun h o => ∃ d a hd hop r, h.loc = .peer d a ∧ o = Out.request hd hop r ∧ hd.dst = d ∧ hd.vc = 0 ∧
      r.op = .write (bs h.slot) ∧ r.addr = BitVec.ofNat 64 a ∧ r.gid = c.cx.gid s.devNo c.launch.ver) (hs.filter fun h => match h.loc with | .peer .. => true | _ => false) rs
  regs : ∀ o r, t.held o r = s.held o r
  preds : SamePreds s t
  flow : Moved s t c c.past
  cursors : Cursors s t c
  rest : t.prods = s.prods ∧ t.cmds = s.cmds ∧ t.launches = s.launches ∧ t.arrays = s.arrays ∧ (Local hs → t.ctxs = s.ctxs)

/-- The stores of all active slots with the registers of D and the access size (R201). -/
def stores : List ((Pfx → FSt → Instr) × Nat × Nat) :=
  [(.st8, 1, 1), (.st16, 1, 2), (.st32, 1, 4), (.st64, 2, 8), (.st128, 4, 16), (.stnt, 1, 4)]

end Sys2Proof.Machine

/-- ST8 to ST128, STNT and compact ST32 write the low n bytes of d at each slot's address in ascending slot order, in the
writer's version; STS does so once, for the lowest active slot; every other byte reads as before. A place at a peer is written once
its check there is answered without a cause (R190, R194, R202 to R204; that the check is asked for first is the model's choice,
log 132). -/
def Obligations.StoresWriteTheirBytes : Prop :=
  (∀ x ∈ stores, ∀ (p : Pfx) (f : FSt) (s s' : State) (c : Ctx) (hs : List Hit), s.Whole →
    Issues s p (groupSize p) { srcs := [.reg f.a 2 f.ta .int, .reg f.d x.2.1 f.td .int] } c s' →
    Lands s' c false .write x.2.2 (address c p f.a f.ta f.off x.2.2) hs → Admitted s' c hs →
      ∃ t, exec (x.1 p f) s = .next t ∧ Stored s' t c hs (storedBytes c (.reg f.d x.2.1 f.td .int) x.2.2)) ∧
  (∀ (f : CReg) (s s' : State) (c : Ctx) (hs : List Hit), s.Whole →
    Issues s Pfx.empty 2 { srcs := [.reg (compactB f) 2 false .int, .reg (compactD f.d) 1 false .int] } c s' →
    Lands s' c false .write 4 (c.val64 (.reg (compactB f) 2 false .int)) hs → Admitted s' c hs →
      ∃ t, exec (.st32C f) s = .next t ∧ Stored s' t c hs (storedBytes c (.reg (compactD f.d) 1 false .int) 4)) ∧
  ∀ (p : Pfx) (f : FSt) (s s' : State) (c : Ctx) (hs : List Hit), s.Whole →
    Issues s p (groupSize p) { srcs := [.reg f.a 2 f.ta .int, .reg f.d 1 f.td .int], once := true } c s' →
    Lands s' c true .write 4 (address c p f.a f.ta f.off 4) hs → Admitted s' c hs →
      ∃ t, exec (.sts p f) s = .next t ∧ Stored s' t c hs (storedBytes c (.reg f.d 1 f.td .int) 4)

namespace Sys2Proof.Machine

/-- The atomics with the new word that each writes, from the unsigned flag, the old word and the operands (R205). -/
def atomicRows : List ((Pfx → F3 → Instr) × (Pfx → F3 → Src) × (Bool → Word → Word → Word → Word)) :=
  [(.atadd, fun p f => immOr p p.immS f.b f.tb .int, fun _ old b _ => old + b),
   (.atmin, fun p f => immOr p p.immS f.b f.tb .int, fun g old b _ => if num (!g) b < num (!g) old then b else old),
   (.atmax, fun p f => immOr p p.immS f.b f.tb .int, fun g old b _ => if num (!g) old < num (!g) b then b else old),
   (.atand, fun p f => immOr p p.immS f.b f.tb .int, fun _ old b _ => old &&& b),
   (.atxchg, fun p f => immOr p p.immS f.b f.tb .int, fun _ _ b _ => b),
   (.atcas, fun _ f => .reg f.b 2 f.tb .int, fun _ old b c => if old = b then c else old),
   (.atfadd, fun p f => immOr p p.immF f.b f.tb .f32, fun _ old b _ =>
     BitVec.ofNat 32 (Fmt.f32.round .rn false false ((Fmt.f32.decode false old.toNat).add .rn (Fmt.f32.decode false b.toNat))))]

/-- The word at a place of a view of memory. -/
def wordAt (m : Loc → Byte) (l : Loc) : Word := BitVec.ofNat 32 (leNat ((List.range 4).map fun i => m (l.add i)))

/-- The slots of an atomic served one after another: the old words, and the view after (R206). -/
def servedInOrder (new : Fin 32 → Word → Word) : List Hit → (Loc → Byte) → List (Fin 32 × Word) × (Loc → Byte)
  | [], m => ([], m)
  | h :: hs, m =>
    let old := wordAt m h.loc
    let r := servedInOrder new hs (overlay m h.loc (leBytes 4 (new h.slot old).toNat))
    ((h.slot, old) :: r.1, r.2)

end Sys2Proof.Machine

/-- The atomics serve their slots in ascending order, each seeing the one before; memory takes the new words, and the old ones
are left for d with a producer; one at scope FAB does so once no write at a peer that its release covers is unacknowledged (R205, R206,
R233, R241). -/
def Obligations.AtomicsServeTheirSlotsInOrder : Prop :=
  ∀ x ∈ atomicRows, ∀ (p : Pfx) (f : F3) (s s' : State) (c : Ctx) (hs : List Hit), s.Whole →
    Issues s p (groupSize p) { srcs := [.reg f.a 2 f.ta .int, x.2.1 p f], dsts := [(f.d, 1)] } c s' →
    Lands s' c false .write 4 (c.val64 (.reg f.a 2 f.ta .int)) hs → Local hs →
    (p.scope (s'.cap 0) = some 4 → ∀ y ∈ s'.fab.flights, s'.ackDue c .implicit y = true → c.cx.unbound y.va = false) →
    (∀ g, p.scope (s'.cap 0) = some g → g.toNat ≤ 1 → ∀ u ∈ maskSlots c.act, (c.val64 (.reg f.a 2 f.ta .int) u).getLsbD 56 = false) →
      let unsigned := match p.mod with | some m => m.sgnen && !m.sb | none => false
      let run := servedInOrder (fun u old => x.2.2 unsigned old (BitVec.ofNat 32 (c.val64 (x.2.1 p f) u).toNat)
        (BitVec.ofNat 32 ((c.val64 (x.2.1 p f) u).toNat / 2 ^ 32))) hs (s'.byteSeen c.keys)
      let ws := c.writes f.d 1 fun u => match run.1.find? fun y => y.1 == u with | some y => [y.2] | none => []
      ∃ t pr, exec (x.1 p f) s = .next t ∧ (∀ l, t.byteSeen c.keys l = run.2 l) ∧ t.prods = s'.prods ++ [pr] ∧ pr.kind = .load ∧
        pr.owner = c.owner ∧ pr.writes = ws ∧ pr.tags = [] ∧ RegsMarked s' t c.owner (ws.map (·.reg)) ∧ SamePreds s' t ∧
        Moved s' t c c.past ∧ t.cmds = s'.cmds ∧ t.ctxs = s'.ctxs

namespace Sys2Proof.Machine

/-- The reservation of a slot, or of the front strand (R236). -/
def reservation (s : State) (c : Ctx) (u : Fin 32) : Option Loc :=
  if c.front then ((s.team? c.team.id).map (·.front.resv)).getD none else ((s.tray? c.tray.id).map fun tr => tr.resv[u]).getD none

/-- The slots of an STCND served one after another (R236, R247): a slot stores when it holds the sector's reservation, which it
loses either way; a store takes every other slot's reservation of the sector. The slots that stored, memory, and the
reservations. -/
def storedIfReserved (b : Fin 32 → Word) : List Hit → (Loc → Byte) → (Fin 32 → Option Loc) → List (Fin 32) × (Loc → Byte) × (Fin 32 → Option Loc)
  | [], m, r => ([], m, r)
  | h :: hs, m, r =>
    if r h.slot = some h.loc.sector then
      let x := storedIfReserved b hs (overlay m h.loc (leBytes 4 (b h.slot).toNat)) fun u => if r u = some h.loc.sector then none else r u
      (h.slot :: x.1, x.2)
    else storedIfReserved b hs m fun u => if u = h.slot then none else r u

end Sys2Proof.Machine

/-- LDRES loads as LD32 does and gives each slot the reservation of its sector; STCND stores in the slots that hold it and
writes into p which did (R236, R247). -/
def Obligations.ReservationsGuardConditionalStores : Prop :=
  (∀ (p : Pfx) (f : F3A) (s s' : State) (c : Ctx) (hs : List Hit),
    Issues s p (groupSize p) { srcs := [.reg f.a 2 f.ta .int], dsts := [(f.d, 1)] } c s' →
    Lands s' c false .read 4 (c.val64 (.reg f.a 2 f.ta .int)) hs → Local hs →
      ∃ t, exec (.ldres p f) s = .next t ∧
        Defers (hs.foldl (fun s' h => s'.setResv c h.slot (some h.loc.sector)) (reachedBy s' c hs)) t c .load
          (loadedWrites s' c f.d 1 4 wordsFrom hs) ∧
        ∀ h ∈ hs, c.front = false → reservation t c h.slot = some h.loc.sector) ∧
  ∀ (p : Pfx) (f : FCmp) (s s' : State) (c : Ctx) (hs : List Hit), s.Whole → c.front = false →
    Issues s p (groupSize p) { srcs := [.reg f.a 2 f.ta .int, .reg f.b 1 f.tb .int], preds := [f.p] } c s' →
    Lands s' c false .write 4 (c.val64 (.reg f.a 2 f.ta .int)) hs → Local hs →
      let r := storedIfReserved (c.val (.reg f.b 1 f.tb .int)) hs (s'.byteSeen c.keys) (reservation s' c)
      ∃ t tr, exec (.stcnd p f) s = .next t ∧ (∀ l, t.byteSeen c.keys l = r.2.1 l) ∧ (∀ u, reservation t c u = r.2.2 u) ∧
        t.tray? c.tray.id = some tr ∧ (∀ (q : BitVec 3) (u : Fin 32), q ≠ 0 → tr.preds[u].getLsbD q.toNat =
          if q = f.p ∧ c.act.getLsbD u.val then r.1.contains u else c.tray.preds[u].getLsbD q.toNat) ∧
        (∀ o x, t.held o x = s'.held o x) ∧ Moved s' t c c.past ∧ t.prods = s'.prods ∧ t.cmds = s'.cmds ∧ t.ctxs = s'.ctxs

namespace Sys2Proof.Machine

/-- ACQ's target: the immediate or the B pair (R249). -/
def acqTarget (p : Pfx) (f : FAB) : Src := match p.imm with | some _ => .imm p.immX | none => .reg f.b 2 f.tb .int

/-- A scope in force: SCOPE of the prefix, FAB acting as PKG without a fabric, PKG without one (R3, R91). -/
def scopeInForce (s : State) (p : Pfx) : BitVec 3 := (p.scope (s.cap 0)).getD 3

end Sys2Proof.Machine

namespace Sys2Proof.Machine

/-- Two ranges of bytes have one in common. -/
def meetRanges (a n b m : Nat) : Prop := ∃ x, a ≤ x ∧ x < a + n ∧ b ≤ x ∧ x < b + m

/-- A region and its object can be bound (R227, R251). -/
def bindable (cx : Context) (obj base len : Nat) : Prop :=
  ¬meetRanges base len obj 8 ∧ cx.bindings.length < 4096 ∧
    ∀ b ∈ cx.bindings, ¬meetRanges base len b.base b.len ∧ ¬meetRanges base len b.obj 8 ∧ ¬meetRanges obj 8 b.base b.len

end Sys2Proof.Machine

/-- FENCE releases and acquires on the implicit object and changes nothing else: below FAB at once, at FAB once the covered writes to
unbound addresses are acknowledged, at SURV also, outside version 0; SURV without a parity unit raises unit-absent. BIND adds a region
of whole 128-byte sectors that overlaps nothing, with its object and scope, and raises 0x12 for one that does; UNBIND releases the
writes to the region at its base and removes it, at scope FAB once they are acknowledged, and does nothing where there is none (R2, R227, R228, R233, R243, R250-R252). -/
def Obligations.FencesAndBindings : Prop :=
  (∀ (p : Pfx) (s s' : State) (c : Ctx), Issues s p (groupSize p) {} c s' →
    let acked := ∀ x ∈ s'.fab.flights, s'.ackDue c .implicit x = true → c.cx.unbound x.va = false
    let n := (scopeInForce s' p).toNat
    ((scopeInForce s' p ≠ 4 ∧ scopeInForce s' p ≠ 5 ∨ scopeInForce s' p = 4 ∧ acked ∨
        scopeInForce s' p = 5 ∧ s'.cap 1 = true ∧ acked ∧ c.launch.ver ≠ 0) →
      ∃ t, exec (.fence p) s = .next t ∧
        Computes ((s'.releaseOn c.cx c.owner c.act .implicit n).acquireOn c.cx c.owner c.act .implicit n) t c []) ∧
    (scopeInForce s' p = 5 → s'.cap 1 = false → exec (.fence p) s = .next (s'.raise c { code := 0x02, mask := c.act }))) ∧
  (∀ (p : Pfx) (f : F3) (s s' : State) (c : Ctx) (l : Loc) (a : Attr),
    let o : Src := .reg f.d 2 false .int
    let b : Src := .reg f.a 2 f.ta .int
    let n := immOr p p.immU f.b f.tb .int
    Issues s p (groupSize p) { srcs := [o, b, n], once := true } c s' →
    s'.resolve c.cx c.launch.ver c.team.id c.tray? .read (c.val64 o c.low) = .ok l a → (c.val64 o c.low).toNat % 64 = 0 →
    (c.val64 b c.low).toNat % 128 = 0 → (c.val n c.low).toNat ≠ 0 → (c.val n c.low).toNat % 128 = 0 →
    ((c.val64 b c.low).getLsbD 56 = true → 1 < (scopeInForce s' p).toNat) → (∀ x ∈ c.cx.bindings, 0 < x.len) →
      (bindable c.cx (c.val64 o c.low).toNat (c.val64 b c.low).toNat (c.val n c.low).toNat → ∃ t, exec (.bind p f) s = .next t ∧
        Acts s' t (s'.modCtx c.cx.id fun x => { x with bindings := x.bindings ++
          [{ base := (c.val64 b c.low).toNat, len := (c.val n c.low).toNat, obj := (c.val64 o c.low).toNat,
             scope := scopeInForce s' p }] }) c [] c.past) ∧
      (¬bindable c.cx (c.val64 o c.low).toNat (c.val64 b c.low).toNat (c.val n c.low).toNat →
        ∃ k : Cause, k.code = 0x12 ∧ exec (.bind p f) s = .next (s'.raise c k))) ∧
  ∀ (p : Pfx) (f : FA) (s s' : State) (c : Ctx), Issues s p (groupSize p) { srcs := [.reg f.a 2 f.ta .int], once := true } c s' →
    let at_ := (c.val64 (.reg f.a 2 f.ta .int) c.low).toNat
    ((∀ b ∈ c.cx.bindings, b.base ≠ at_) → ∃ t, exec (.unbind p f) s = .next t ∧ Computes s' t c []) ∧
    (∀ b, c.cx.bindings.find? (fun y => y.base == at_) = some b →
      (4 ≤ b.scope.toNat → ∀ x ∈ s'.fab.flights, s'.ackDue c (.object b.obj) x = true → x.va.toNat < b.base ∨ b.base + b.len ≤ x.va.toNat) →
      ∃ t, exec (.unbind p f) s = .next t ∧
        Acts s' t ((s'.releaseOn { c.cx with bindings := [b] } c.owner c.act (.object b.obj) b.scope.toNat).modCtx c.cx.id fun x => { x with bindings := x.bindings.filter fun y => y.base != at_ }) c [] c.past)

namespace Sys2Proof.Machine

/-- What WAITNE watches in its slots (R253). -/
def watchesOf (c : Ctx) (d : BitVec 7) (b : Src) (hs : List Hit) : List Watch :=
  hs.map fun h => { slot := h.slot.val, loc := h.loc, va := h.va, cmp := c.val b h.slot, regs := c.dstNames d 1 h.slot, tag := 0, got := none }

end Sys2Proof.Machine

/-- ACQ passes when the object's sequence has reached its target, that is when their difference is below 2^63, and acquires from the
object at the scope in force, and waits for it else; REL releases on the object and adds one to the sequence, once no covered write is
unacknowledged (R241, R248, R249).
WAITNE writes the watched words, full, when each differs from its slot's comparison value, and waits with all of them else
(R253). -/
def Obligations.AcquireReleaseAndWaitne : Prop :=
  ((∀ (p : Pfx) (f : FAB) (s s' : State) (c : Ctx) (h : Hit),
    Issues s p (groupSize p) { srcs := [.reg f.a 2 f.ta .int, acqTarget p f], once := true } c s' →
    Lands s' c true .read 64 (c.val64 (.reg f.a 2 f.ta .int)) [h] → Local [h] →
      let m := BitVec.ofNat 64 (leNat (s'.seen c.keys h.loc 8))
      let v := c.val64 (acqTarget p f) c.low
      let n := (scopeInForce s' c.pfx).toNat
      ((m - v).toNat < 2 ^ 63 → ∃ t, exec (.acq p f) s = .next t ∧
        Acts s' t ((reachedBy s' c [h]).acquireOn c.cx c.owner c.act (.object h.va.toNat) n) c [] c.past) ∧
      (2 ^ 63 ≤ (m - v).toNat → ∃ t, exec (.acq p f) s = .next t ∧
        Acts s' t (reachedBy s' c [h]) c [] { c.ent with wait := .acq h.loc v c.size 0 h.va n c.act })) ∧
  ∀ (p : Pfx) (f : FA) (s s' : State) (c : Ctx) (h : Hit), s.Whole →
    Issues s p (groupSize p) { srcs := [.reg f.a 2 f.ta .int], once := true } c s' →
    Lands s' c true .write 64 (c.val64 (.reg f.a 2 f.ta .int)) [h] → Local [h] →
    (∀ x ∈ s'.fab.flights, s'.ackDue c (.object h.va.toNat) x = true →
      c.cx.relCover h.va (scopeInForce s' c.pfx == 4) x.va = false) →
      ∃ t, exec (.rel p f) s = .next t ∧
        Stored s' t c [h] fun _ => leBytes 8 (leNat (s'.seen c.keys h.loc 8) + 1)) ∧
  ∀ (p : Pfx) (f : F3) (s s' : State) (c : Ctx) (hs : List Hit),
    let b := immOr p p.immS f.b f.tb .int
    Issues s p (groupSize p) { srcs := [.reg f.a 2 f.ta .int, b], dsts := [(f.d, 1)] } c s' →
    Lands s' c false .read 4 (c.val64 (.reg f.a 2 f.ta .int)) hs → Local hs →
      let word (h : Hit) := BitVec.ofNat 32 (leNat (s'.seen c.keys h.loc 4))
      ((∀ h ∈ hs, word h ≠ c.val b h.slot) → ∃ t, exec (.waitne p f) s = .next t ∧
        Acts s' t (reachedBy s' c hs) c (hs.flatMap fun h => (c.dstNames f.d 1 h.slot).map fun r => { reg := r, val := word h, hi := 0 })
          c.past) ∧
      ((∃ h ∈ hs, word h = c.val b h.slot) → ∃ t, exec (.waitne p f) s = .next t ∧
        Acts s' t (reachedBy s' c hs) c [] { c.ent with wait := .waitne s'.time c.size (watchesOf c f.d b hs) c.adv (c.ixRange f.d) })

namespace Sys2Proof.Machine

/-- The payload of a prefix as a number, 0 without it. -/
def payload (x : Option (BitVec 23)) : Nat := (x.map (·.toNat)).getD 0

/-- An address that the device has a path to: a peer's needs a fabric (R2). -/
def HasPath (s : State) (va : DWord) : Prop := va.toNat / 2 ^ 56 = 1 → s.cap 0 = true

/-- As `HasPath` for an operand of a matrix command, which needs the remote path too (R2, R275). -/
def HasMatrixPath (s : State) (va : DWord) : Prop := va.toNat / 2 ^ 56 = 1 → s.cap 0 = true ∧ s.cap 2 = true

/-- The number that the issuer's die gives its next engine command (R258). -/
def nextSeqOf (s : State) (c : Ctx) : BitVec 32 := (s.dieSeq[dieOf c.bench]?).getD 0

/-- The state after an engine command took its die's next number (R258). -/
def numberedBy (s : State) (c : Ctx) : State :=
  { s with dieSeq := s.dieSeq.setIfInBounds (dieOf c.bench) (nextSeqOf s c + 1) }.modCtx c.cx.id fun x =>
    { x with engLast := x.engLast.setIfInBounds (dieOf c.bench) (nextSeqOf s c) }

/-- A group issues a command: it stands behind the others with its captured operands and its issuer, registers are marked empty
for it, an engine command takes its die's next number, what it need not see is settled (R225, R259), the group retires, and everything
else is as in u (R43, R257, R258). -/
structure Commanded (s t u : State) (c : Ctx) (op : CmdOp) (token : RegName) (marks : List RegName) (numbered : Bool) : Prop where
  cmd : ∃ k, t.cmds = s.cmds ++ [k] ∧ k.id = s.nextId ∧ k.op = op ∧ k.state = .queued ∧ k.token = token ∧ k.owner = c.owner ∧
    k.ctx = c.cx.id ∧ k.ver = c.launch.ver ∧ k.launch = c.launch.id ∧ k.team = c.team.id ∧ k.bench = c.bench ∧ k.die = dieOf c.bench ∧
    k.pc = c.ent.pc ∧ k.steps = 0 ∧ k.tags = [] ∧ k.got = [] ∧ k.data = [] ∧ k.seq = if numbered then some (nextSeqOf s c) else none
  regs : RegsMarked s t c.owner marks
  seqs : t.dieSeq = (if numbered then numberedBy u c else u).dieSeq ∧ t.ctxs = (if numbered then numberedBy u c else u).ctxs
  rest : { t.still with cmds := u.cmds, nextId := u.nextId, dieSeq := u.dieSeq, ctxs := u.ctxs } =
    (u.cmdIssued c.cx.id (dieOf c.bench) s.nextId).still
  flow : Moved s t c c.past
  bytes : SameBytes s t
  cursors : Cursors s t c

/-- As `Commanded`, for a command with a token. -/
def Tokened (s t u : State) (c : Ctx) (op : CmdOp) (code : BitVec 7) (numbered : Bool) : Prop :=
  Commanded s t u c op (c.tokenReg code) (c.dstNames code 1 c.low) numbered

/-- What an instruction asks that issues a command with a token from the operands of its lowest active slot. -/
def askToken (srcs : List Src) (code : BitVec 7) : Req := { srcs := srcs, dsts := [(code, 1)], once := true }

/-- A 64-bit operand in the lowest active slot. -/
def Ctx.pair (c : Ctx) (code : BitVec 7) (ta : Bool) : DWord := c.val64 (.reg code 2 ta .int) c.low

/-- Word i of a register block in the lowest active slot. -/
def Ctx.blockWord (c : Ctx) (code : BitVec 7) (n : Nat) (tb : Bool) (i : Nat) : Word :=
  (((blockSrcs code n tb)[i]?).map fun x => c.val x c.low).getD 0

end Sys2Proof.Machine

/-- CPY, GATH, PUBLISH and CTAG pass their checks at issue and put a numbered command with their captured operands behind the
others, its token empty; CTAG closes its tag's epoch, and without copies in it writes the token 0 at once; CPYT issues one copy
for each active slot and counts them under its tag (R257, R258, R265 to R268, R272, R394). -/
def Obligations.CopyEngineCommandsAreQueued : Prop :=
  (∀ (p : Pfx) (f : F3) (s s' : State) (c : Ctx), Issues s p (groupSize p) (askToken [.reg f.a 2 f.ta .int, .reg f.b 2 f.tb .int] f.d) c s' →
    let dst := c.pair f.a f.ta
    let src := c.pair f.b f.tb
    let i := payload p.imm
    let x := payload p.ximm
    let wide := p.ximm.isSome
    let len := if wide then (i / 2 ^ 10 % 2 ^ 10 + 1) * 16 else (i % 2 ^ 20 + 1) * 16
    let dstr := if wide then x % 2 ^ 11 * 64 else 0
    HasPath s' dst → HasPath s' src → dst.toNat % 16 = 0 → src.toNat % 16 = 0 →
    (i / 2 ^ 20 % 4 = 1 ∨ i / 2 ^ 20 % 4 = 2 → dst.toNat % 1024 = 0 ∧ len % 1024 = 0 ∧ dstr % 1024 = 0) →
      ∃ t, exec (.cpy p f) s = .next t ∧ Tokened s' t s' c
        (.cpy dst src (if wide then i % 2 ^ 10 + 1 else 1) len (if wide then x / 2 ^ 11 * 64 else 0) dstr (BitVec.ofNat 2 (i / 2 ^ 20))
          (i / 2 ^ 22 == 1)) f.d true) ∧
  (∀ (p : Pfx) (f : F3) (s s' : State) (c : Ctx), Issues s p (groupSize p) (askToken [.reg f.a 2 f.ta .int, .reg f.b 2 f.tb .int] f.d) c s' →
    let dst := c.pair f.a f.ta
    let list := c.pair f.b f.tb
    let i := payload p.imm
    let x := payload p.ximm
    HasPath s' dst → HasPath s' list → dst.toNat % 16 = 0 → list.toNat % 8 = 0 →
      ∃ t, exec (.gath p f) s = .next t ∧ Tokened s' t s' c
        (.gath dst list ((i % 2 ^ 12 + 1) * 16) (x % 2 ^ 8 + 1) (x / 2 ^ 8 * 16) (BitVec.ofNat 2 (i / 2 ^ 20)) (i / 2 ^ 22 == 1))
        f.d true) ∧
  (∀ (p : Pfx) (f : F3A) (s s' : State) (c : Ctx), Issues s p (groupSize p) (askToken [.reg f.a 2 f.ta .int] f.d) c s' →
    ∃ t waits, exec (.publish p f) s = .next t ∧ Tokened s' t s' c (.publish (c.pair f.a f.ta) waits) f.d true ∧
      ∀ k ∈ s'.cmds, k.owner = c.owner → (∃ src r l ss ds w, k.op = .cpy (c.pair f.a f.ta) src r l ss ds w true) → k.id ∈ waits) ∧
  (∀ (p : Pfx) (f : FTag) (s s' : State) (c : Ctx), Issues s p (groupSize p) (askToken [] f.d) c s' → c.front = false →
    let ts := (c.tray.tags[f.n.toNat]?).getD { count := 0, epoch := 0 }
    let u := s'.modTray c.tray.id fun tr => { tr with tags := tr.tags.setIfInBounds f.n.toNat { ts with epoch := ts.epoch + 1 } }
    let mine (e : Epoch) : Prop := e.tray = c.tray.id ∧ e.tag = f.n.toNat ∧ e.epoch = ts.epoch
    ((∃ e ∈ s'.epochs, mine e) → ∃ t, exec (.ctag p f) s = .next t ∧ Tokened s' t u c (.ctag f.n.toNat ts.epoch) f.d true) ∧
    ((∀ e ∈ s'.epochs, ¬mine e) → ∃ t, exec (.ctag p f) s = .next t ∧
      Acts s' t (numberedBy u c) c [{ reg := c.tokenReg f.d, val := 0, hi := 0 }] c.past)) ∧
  ∀ (p : Pfx) (f : F3) (s s' : State) (c : Ctx) (hs : List Hit),
    Issues s p (groupSize p) { srcs := [.reg f.d 1 false .int, .reg f.a 2 f.ta .int, .reg f.b 2 f.tb .int] } c s' → c.front = false →
    let n (x : Fin 32) := min (c.val (.reg f.d 1 false .int) x).toNat 32
    let dst (x : Fin 32) := c.val64 (.reg f.a 2 f.ta .int) x
    let src (x : Fin 32) := c.val64 (.reg f.b 2 f.tb .int) x
    let tag := payload p.imm
    let ts := (c.tray.tags[tag]?).getD { count := 0, epoch := 0 }
    let u := ((reachedBy s' c hs).unpull c).modTray c.tray.id fun tr =>
      { tr with tags := tr.tags.setIfInBounds tag { ts with count := ts.count + BitVec.ofNat 32 (maskSlots c.act).length } }
    let left (s' : State) := (s'.epochs.find? fun e => e.tray == c.tray.id && e.tag == tag && e.epoch == ts.epoch).map (·.left)
    Lands s' c false .engineWrite 32 dst hs → Local hs →
    (∀ x ∈ maskSlots c.act, n x ≠ 0 → (src x).toNat % 32 = 0 ∧
      ∃ l a, s'.resolve c.cx c.launch.ver c.team.id c.tray? .read (src x) = .ok l a ∧ ∀ d o, l ≠ .peer d o) →
      ∃ t ks, exec (.cpyt p f) s = .next t ∧ t.cmds = s'.cmds ++ ks ∧
        Paired (fun x k => k.op = .cpyt (dst x) (src x) (n x) x tag ts.epoch ∧ k.state = .queued ∧ k.owner = c.owner ∧
          k.ctx = c.cx.id ∧ k.ver = c.launch.ver ∧ k.launch = c.launch.id ∧ k.die = dieOf c.bench ∧ k.seq = none ∧ k.token = .none)
          (maskSlots c.act) ks ∧
        left t = some ((left s').getD 0 + (maskSlots c.act).length) ∧
        { t.still with cmds := s'.cmds, nextId := s'.nextId, epochs := s'.epochs, past := s'.past } = u.still ∧
        (∀ o r, t.held o r = s'.held o r) ∧ Moved s' t c c.past ∧ SameBytes s' t

/-- MWLD, MSTR, MLOOP and SCPY pass their checks at issue, claim a free array, and put a numbered command with their captured
block behind the others; MLOOP with no steps writes its token 0 at once. ACCPOP marks its four registers empty in every active
slot; ACCCLR takes effect at once where nothing stands before it on its team's array; ACCPOP raises 0x08 in a detached tray (R257,
R260, R273, R276, R277, R283 to R286, R394). -/
def Obligations.MatrixCommandsAreQueued : Prop :=
  (∀ (p : Pfx) (f : F3) (s s' : State) (c : Ctx),
    Issues s p (groupSize p) (askToken (.reg f.a 2 f.ta .int :: blockSrcs f.b 2 f.tb) f.d) c s' → c.detached = false →
    let w := c.pair f.a f.ta
    let ctl := c.blockWord f.b 2 f.tb 0
    let s4 := c.blockWord f.b 2 f.tb 1
    let x := ctlOf ctl
    let y := shape4Of s4
    HasMatrixPath s' w → w.toNat % 64 = 0 →
      (x.formats = true → y.swizzles = true → y.n = 0 → y.m = 0 → ∃ t, exec (.mwld p f) s = .next t ∧
        Tokened s' t (s'.claim c.bench x.array c.team.id) c (.mwld x.array w ctl s4) f.d true) ∧
      (streamOk x y (s'.shapeFor c x.array) = true → y.n = 0 → ∃ t, exec (.mstr p f) s = .next t ∧
        Tokened s' t (s'.claim c.bench x.array c.team.id) c (.mstr x.array w ctl s4 (s'.shapeFor c x.array)) f.d true)) ∧
  (∀ (p : Pfx) (f : FDB) (s s' : State) (c : Ctx), Issues s p (groupSize p) (askToken (blockSrcs f.b 8 f.tb) f.d) c s' → c.detached = false →
    let w (i : Nat) := c.blockWord f.b 8 f.tb i
    let x := ctlOf (w 7)
    let y := shape4Of (w 4)
    HasMatrixPath s' (dword (w 0) (w 1)) → HasMatrixPath s' (dword (w 2) (w 3)) → (w 0).toNat % 64 = 0 → (w 2).toNat % 64 = 0 →
    (1 < y.n → (w 5).toNat % 64 = 0 ∧ (w 6).toNat % 64 = 0) → streamOk x y (s'.shapeFor c x.array) = true →
      (y.n = 0 → ∃ t, exec (.mloop p f) s = .next t ∧
        Acts s' t (numberedBy (s'.claim c.bench x.array c.team.id) c) c [{ reg := c.tokenReg f.d, val := 0, hi := 0 }] c.past) ∧
      (y.n ≠ 0 → ∃ t, exec (.mloop p f) s = .next t ∧ Tokened s' t (s'.claim c.bench x.array c.team.id) c
        (.mloop x.array ((List.range 8).map w) (s'.shapeFor c x.array)) f.d true)) ∧
  (∀ (p : Pfx) (f : F3) (s s' : State) (c : Ctx),
    Issues s p (groupSize p) (askToken [.reg f.a 2 f.ta .int, .reg f.b 1 f.tb .int] f.d) c s' → c.detached = false →
    let va := c.pair f.a f.ta
    let w := (c.val (.reg f.b 1 f.tb .int) c.low).toNat
    let first := w % 2 ^ 12
    let count := w / 2 ^ 12 % 2 ^ 13
    HasMatrixPath s' va → va.toNat % 4 = 0 → w < 2 ^ 26 → 1 ≤ count → count ≤ 4096 → first + count ≤ 4096 →
      ∃ t, exec (.scpy p f) s = .next t ∧
        Tokened s' t (s'.claim c.bench (w / 2 ^ 25) c.team.id) c (.scpy (w / 2 ^ 25) va first count) f.d true) ∧
  (∀ (p : Pfx) (f : FPop) (s s' : State) (c : Ctx), Issues s p (groupSize p) { dsts := [(f.d, 4)] } c s' → c.detached = false →
    let regs : Slots (List RegName) := Slots.gen fun t => if c.act.getLsbD t.val then c.dstNames f.d 4 t else []
    ∃ t, exec (.accpop p f) s = .next t ∧ Commanded s' t (s'.claim c.bench f.n.toNat c.team.id) c (.accpop f.n.toNat c.act regs) .none
      ((maskSlots c.act).flatMap (c.dstNames f.d 4)) false) ∧
  (∀ (p : Pfx) (f : FNA) (s s' : State) (c : Ctx), Issues s p (groupSize p) { srcs := [immOr p p.immU f.a f.ta .int], once := true } c s' →
    c.detached = false →
    let w := (c.val (immOr p p.immU f.a f.ta .int) c.low).toNat
    let a := s'.array c.bench f.n.toNat
    w < 2 ^ 17 → w / 2 ^ 8 ≤ 256 → (∀ k ∈ s'.cmds, k.id ≠ s'.nextId) →
      ((a.holder = none ∨ a.holder = some c.team.id) → s'.onArray c.bench f.n.toNat = [] → ∃ t, exec (.accclr p f) s = .next t ∧
        Acts s' t { ((s'.cmdIssued c.cx.id (dieOf c.bench) s'.nextId).cmdOver s'.nextId).putArray
            ({ a with holder := some c.team.id }.clear (w % 2 ^ 8) (w / 2 ^ 8)) with nextId := s'.nextId + 1 } c [] c.past) ∧
      ((∃ k, s'.firstOn c.bench f.n.toNat = some k ∧ (∀ n x y, k.op ≠ .accclr n x y)) → ∃ t, exec (.accclr p f) s = .next t ∧
        Commanded s' t s' c (.accclr f.n.toNat (w % 2 ^ 8) (w / 2 ^ 8)) .none [] false)) ∧
  ∀ (p : Pfx) (f : FPop) (s s' : State) (c : Ctx), Issues s p (groupSize p) { dsts := [(f.d, 4)] } c s' → c.detached = true → c.clears = false →
    exec (.accpop p f) s = .next (s'.raise c { code := 0x08, mask := c.act })

namespace Sys2Proof.Machine

/-- Every piece of some ranges can be read now from this device. -/
def AtHand (s : State) (c : Ctx) (spans : List (DWord × Nat)) : Prop :=
  ∀ x ∈ spans, ∀ y ∈ pieces x.1 x.2, ∃ l a, s.resolve c.cx c.launch.ver c.team.id c.tray? .read y.1 = .ok l a ∧
    ∀ d o, l ≠ .peer d o

/-- The bytes of a range as the issuer's version sees them. -/
def bytesAt (s : State) (c : Ctx) (va : DWord) (n : Nat) : List Byte :=
  (pieces va n).flatMap fun y => match s.resolve c.cx c.launch.ver c.team.id c.tray? .read y.1 with
    | .ok l _ => s.seen c.keys l y.2
    | _ => []

/-- The issuer has no read of a record at a peer under way. -/
def NothingPulled (s : State) (c : Ctx) : Prop := ∀ x ∈ s.fab.pulled, x.owner ≠ c.owner

/-- The sequences of a shape record: at offset 8, four bytes each, offset and length (R280). -/
def shapeSeqs (bs : List Byte) : List (Nat × Nat) :=
  (List.range (fieldAt bs 0 2)).map fun j => (fieldAt bs (8 + 4 * j) 2, fieldAt bs (10 + 4 * j) 2)

/-- A shape record is legal (R280, R281). -/
def shapeLegal (bs : List Byte) : Prop :=
  1 ≤ fieldAt bs 0 2 ∧ fieldAt bs 0 2 ≤ 256 ∧ fieldAt bs 2 1 ≤ 1 ∧ fieldAt bs 3 5 = 0 ∧ (∀ x ∈ shapeSeqs bs, 1 ≤ x.2) ∧
    ((shapeSeqs bs).map (·.2)).sum ≤ 256

/-- A tile-store allocation of the issuing version at unit u of the aperture (R269). -/
def newAlloc (s : State) (c : Ctx) (u n first : Nat) : Alloc :=
  { id := s.nextId, ctx := c.cx.id, ver := c.launch.ver, handle := c.cx.tsap + u * 65536, units := n, die := dieOf c.bench
    first := first, store := Store.empty, lost := false }

/-- HOMEQ's value, from the home table and the address alone (R219). -/
def homeValue (s : State) (c : Ctx) (va : DWord) : Nat :=
  let a := va.toNat
  if a / 2 ^ 56 = 1 then 0x100 + a / 2 ^ 52 % 16
  else if a / 2 ^ 48 = 0xF0 then c.bench / 48
  else match s.homeFor c.cx.id a, s.allocFor c.cx c.launch.ver a with
    | some x, _ => if x.2.home = 3 then x.2.aff.toNat else if x.2.home = 2 then 4 else 0xFF
    | none, some x => x.die
    | none, none => 0xFF

end Sys2Proof.Machine

/-- MSHAPE binds a legal record to an array that its team holds or claims, for later commands, and the address 0 unbinds (R280,
R281). TSALLOC leaves for its pair 0, or the handle of a new allocation of its version; TSFREE frees an allocation of its own
version at once and records one of an ancestor's; HOMEQ reads the home table; MIGRATE to another die than the tray's makes the
tray wait to be shipped, and passes else (R219, R220, R269, R270). -/
def Obligations.TilesHomesAndShapes : Prop :=
  (∀ (p : Pfx) (f : FNA) (s s' : State) (c : Ctx), Issues s p (groupSize p) { srcs := [.reg f.a 2 f.ta .int], once := true } c s' →
    c.detached = false → NothingPulled s' c →
    let va := c.pair f.a f.ta
    let a := s'.array c.bench f.n.toNat
    let rec_ := bytesAt s' c va (8 + 4 * fieldAt (bytesAt s' c va 8) 0 2)
    let bound (x : Option (List (Nat × Nat))) := s'.putArray { a with holder := some c.team.id, shape := x }
    HasMatrixPath s' va → (a.holder = none ∧ s'.onArray c.bench f.n.toNat = [] ∨ a.holder = some c.team.id) →
      (va = 0 → ∃ t, exec (.mshape p f) s = .next t ∧ Acts s' t (bound none) c [] c.past) ∧
      (va ≠ 0 → va.toNat % 8 = 0 → AtHand s' c [(va, 8), (va, 8 + 4 * fieldAt (bytesAt s' c va 8) 0 2)] → shapeLegal rec_ →
        ∃ t, exec (.mshape p f) s = .next t ∧ Acts s' t (bound (some (shapeSeqs rec_))) c [] c.past)) ∧
  (∀ (p : Pfx) (f : F3A) (s s' : State) (c : Ctx),
    Issues s p (groupSize p) { srcs := [immOr p p.immU f.a f.ta .int], dsts := [(f.d, 2)], once := true } c s' →
    (∀ x ∈ maskSlots c.act, c.slotWaits { dsts := [(f.d, 2)] } x = false) →
    let n := (c.val (immOr p p.immU f.a f.ta .int) c.low).toNat
    let die := dieOf c.bench
    let quota := match s'.part? c.cx.part with | some q => q.tsq.getD die 0 | none => 0
    ((n = 0 ∨ 2048 < n ∨ c.cx.tsap = 0 ∨ quota < s'.tileUsed c.cx.part die + n ∨ s'.tileSpace die n = none) →
      ∃ t, exec (.tsalloc p f) s = .next t ∧ Defers s' t c .handle (c.writes f.d 2 fun _ => [0, 0])) ∧
    (∀ first, 1 ≤ n → n ≤ 2048 → c.cx.tsap ≠ 0 → s'.tileUsed c.cx.part die + n ≤ quota → s'.tileSpace die n = some first →
      s'.handlesFor c.cx n ≠ [] → ∃ t u, exec (.tsalloc p f) s = .next t ∧ u ∈ s'.handlesFor c.cx n ∧
        Defers { s' with nextId := s'.nextId + 1, allocs := s'.allocs ++ [newAlloc s' c u n first] } t c .handle
          (c.writes f.d 2 fun _ => wordsOf (c.cx.tsap + u * 65536)))) ∧
  (∀ (p : Pfx) (f : FA) (s s' : State) (c : Ctx), Issues s p (groupSize p) { srcs := [.reg f.a 2 f.ta .int], once := true } c s' →
    let live (x : Alloc) : Prop :=
      x.ctx = c.cx.id ∧ x.ver ∈ c.cx.chain c.launch.ver ∧ x.handle = (c.pair f.a f.ta).toNat
    ((∀ x ∈ s'.allocs, ¬live x) → ∃ t, exec (.tsfree p f) s = .next t ∧ Computes s' t c []) ∧
    (∀ x ∈ s'.allocs, live x → (∀ y ∈ s'.allocs, live y → y = x) →
      (x.ver = c.launch.ver → ∃ t, exec (.tsfree p f) s = .next t ∧
        Acts s' t { s' with allocs := s'.allocs.filter fun y => y.id != x.id } c [] c.past) ∧
      (x.ver ≠ c.launch.ver → ∃ t, exec (.tsfree p f) s = .next t ∧
        Acts s' t (s'.modCtx c.cx.id fun cx => { cx with versions := cx.versions.map fun v =>
          if v.loc = c.launch.ver ∧ x.id ∉ v.frees then { v with frees := v.frees ++ [x.id] } else v }) c [] c.past))) ∧
  (∀ (p : Pfx) (f : F3A) (s s' : State) (c : Ctx),
    Issues s p (groupSize p) { srcs := [.reg f.a 2 f.ta .int], dsts := [(f.d, 1)] } c s' →
    ∃ t, exec (.homeq p f) s = .next t ∧ Computes s' t c (c.writes f.d 1 fun x =>
      [BitVec.ofNat 32 (homeValue s' c (c.val64 (.reg f.a 2 f.ta .int) x))])) ∧
  ∀ (f : FA) (s s' : State) (c : Ctx), Issues s Pfx.empty 4 { srcs := [.reg f.a 2 f.ta .int], once := true } c s' → c.front = false →
    let die := homeValue s' c (c.pair f.a f.ta)
    let stays := 3 < die ∨ c.tray.landed = none ∧ die = c.team.bench / 48 ∨ c.tray.landed.isSome = true ∧ die = c.tray.bench / 48
    (stays → ∃ t, exec (.migrate f) s = .next t ∧ Computes s' t c []) ∧
    (¬stays → ∃ t, exec (.migrate f) s = .next t ∧ Acts s' t s' c [] { c.ent with wait := .migrate die })

/-- BOARD and RPLC in version 0 with a name and an aligned source, CATCH with an aligned destination in a permitted place, and
ALIGHT in version 0 put a command that is not numbered behind the others, the token of the first three empty (R210, R212 to
R215); KVLD and KVST with aligned operands put a numbered one with their captured block (R257, R299); KVLD of a descriptor whose FMT is
1 or 2 raises 0x02 on a device without KVDEC (R2, R300). -/
def Obligations.TileAndKvCommandsAreQueued : Prop :=
  (∀ (p : Pfx) (f : F3) (s s' : State) (c : Ctx),
    Issues s p (groupSize p) (askToken [immOr p p.immU f.a f.ta .int, .reg f.b 2 f.tb .int] f.d) c s' →
    let name := c.val (immOr p p.immU f.a f.ta .int) c.low
    let va := c.pair f.b f.tb
    (c.launch.ver = 0 → name ≠ 0 → HasPath s' va → va.toNat % 1024 = 0 →
      (∃ t, exec (.board p f) s = .next t ∧ Tokened s' t s' c (.board name va) f.d false) ∧
      ∃ t, exec (.rplc p f) s = .next t ∧ Tokened s' t s' c (.rplc name va) f.d false) ∧
    (va.toNat % 1024 = 0 → (∀ y ∈ pieces va 16384, s'.catchable c y.1 = true ∧
        ∀ code, s'.resolve c.cx c.launch.ver c.team.id c.tray? .engineWrite y.1 ≠ .fault code) →
      ∃ t, exec (.catch_ p f) s = .next t ∧ Tokened s' t s' c (.catchTile name va) f.d false)) ∧
  (∀ (p : Pfx) (f : FA) (s s' : State) (c : Ctx), Issues s p (groupSize p) { srcs := [immOr p p.immU f.a f.ta .int], once := true } c s' →
    c.launch.ver = 0 → ∃ t, exec (.alight p f) s = .next t ∧
      Commanded s' t s' c (.alight (c.val (immOr p p.immU f.a f.ta .int) c.low)) .none [] false) ∧
  ∀ x ∈ [((Instr.kvld : Pfx → F3 → Instr), 64, CmdOp.kvld, true), (.kvst, 16, .kvst, false)], ∀ (p : Pfx) (f : F3) (s s' : State) (c : Ctx),
    Issues s p (groupSize p)
      (askToken (.reg f.a 2 f.ta .int :: immOr p p.immU f.b f.tb .int :: blockSrcs (f.d + 1) 3 false) f.d) c s' →
    NothingPulled s' c →
    let desc := c.pair f.a f.ta
    let w (i : Nat) := c.blockWord (f.d + 1) 3 false i
    let tile := dword (w 0) (w 1)
    HasPath s' desc → HasPath s' tile → desc.toNat % 128 = 0 → tile.toNat % x.2.1 = 0 →
    let fmt := fieldAt (bytesAt s' c (desc + 4) 2) 0 2 % 4
    ((x.2.2.2 = false ∨ s'.cap 4 = true ∨ AtHand s' c [(desc + 4, 2)] ∧ fmt ≠ 1 ∧ fmt ≠ 2) →
      ∃ t, exec (x.1 p f) s = .next t ∧
        Tokened s' t s' c (x.2.2.1 desc tile (c.val (immOr p p.immU f.b f.tb .int) c.low) (w 2)) f.d true) ∧
    (x.2.2.2 = true → s'.cap 4 = false → AtHand s' c [(desc + 4, 2)] → fmt = 1 ∨ fmt = 2 →
      ∃ k : Cause, k.code = 0x02 ∧ exec (x.1 p f) s = .next (s'.raise c k))

namespace Sys2Proof.Machine

/-- m', l', α and w of an online softmax step, with the APPROX bits that it sets (R306). `pick` says which of two equal values
is kept as the larger; of two zeros of unlike sign that is open. -/
def softmax (pick : Bool) (a m l : Word) : List Word × BitVec 4 :=
  let val (x : Word) : FVal := Fmt.f32.decode false x.toNat
  let rn (x : FVal) : Word := BitVec.ofNat 32 (Fmt.f32.round .rn false false x)
  let s := if val a = .nan then 0xFF800000 else if val a = .inf false then 0x7F7FFFFF else a
  let m0 := if val m = .nan then 0xFF800000 else m
  let m' := match (val m0).cmp (val s) with | some d => if d < 0 ∨ d = 0 ∧ pick = true then s else m0 | none => m0
  let al := if (val m0).cmp (val m') = some 0 then 0x3F800000 else if m0 = 0xFF800000 then 0 else rn (((val m0).add .rn (val m').neg).exp2)
  let w := if s = 0xFF800000 then 0 else rn (((val s).add .rn (val m').neg).exp2)
  ([m', rn (((val l).mul (val al)).add .rn (val w)), al, w],
    (if val a = .nan ∨ val m = .nan then 1 else 0) ||| (if val a = .inf false then 2 else 0))

/-- The token in the word at an offset: its low 24 bits (R308). -/
def token (bs : List Byte) (o : Nat) : Nat := fieldAt bs o 4 % 2 ^ 24

/-- FLEN, FPOS and the history of a constraint table, oldest token first (R308, R309). -/
def forcedLen (t : List Byte) : Nat := min (fieldAt t 4 2) 64
def forcedPos (t : List Byte) : Nat := fieldAt t 6 2
def history (t : List Byte) : List Nat := ((List.range (min (fieldAt t 8 4) 3)).map fun i => token t (0xC + 4 * i)).reverse

/-- Token x is banned after a history: some entry below NBAN of 1 to 4 words has it last and the history's end before it (R309). -/
def bannedAfter (t : List Byte) (h : List Nat) (x : Nat) : Bool :=
  (List.range (min (fieldAt t 0 4) 256)).any fun e =>
    let n := fieldAt t (0x120 + 16 * e + 3) 1
    let w (i : Nat) := token t (0x120 + 16 * e + 4 * i)
    decide (1 ≤ n ∧ n ≤ 4 ∧ w (n - 1) = x ∧ n - 1 ≤ h.length ∧ h.drop (h.length - (n - 1)) = (List.range (n - 1)).map w)

/-- A table after token x is committed: FPOS, HLEN and the history move on (R309). -/
def committed (t : List Byte) (x : Nat) : List Byte :=
  t.take 6 ++ leBytes 2 (if forcedPos t < forcedLen t then forcedPos t + 1 else forcedPos t) ++ leBytes 4 (min (fieldAt t 8 4 + 1) 3) ++
    leBytes 4 x ++ ((t.drop 0xC).take 8) ++ t.drop 0x18

/-- VERIFY in a slot (R311): it accepts the longest run of k drafts, each the token that is wanted there and none banned, and x is the
token wanted after them. -/
def VerifiesTo (r : List Byte) (tab : Option (List Byte)) (k x : Nat) : Prop :=
  let draft (j : Nat) := token r (0x10 + 4 * j)
  let want (j : Nat) : Nat := match tab with
    | some t => if forcedPos t + j < forcedLen t then token t (0x20 + 4 * (forcedPos t + j)) else token r (0x50 + 4 * j)
    | none => token r (0x50 + 4 * j)
  let ok (j : Nat) : Prop := draft j = want j ∧ ∀ t, tab = some t → bannedAfter t (history t ++ (List.range j).map draft) (draft j) = false
  k ≤ min (fieldAt r 0 4 % 32) 16 ∧ (∀ j < k, ok j) ∧ (k < min (fieldAt r 0 4 % 32) 16 → ¬ok k) ∧ x = want k

/-- A slot commits tokens: bytes 6 to 23 of its table are written (R309). -/
def commit (s : State) (c : Ctx) (u : Fin 32) (ctab : Nat) (tab : Option (List Byte)) (xs : List Nat) : State :=
  match tab with
  | some t => s.recordPut c u (BitVec.ofNat 64 ctab + 6) (((xs.foldl committed t).drop 6).take 18)
  | none => s

/-- The constraint table at an address, none for 0. -/
def tableAt (s : State) (c : Ctx) (ctab : Nat) : Option (List Byte) :=
  if ctab = 0 then none else s.recordAt c (BitVec.ofNat 64 ctab) 4384

/-- VERIFY's slots served one after another (R311): each reads its record and its table as they are then, its result is k × 2^24 + x,
its drafts and x are committed, and with drafts its stream takes k of N (R312). -/
def Verified (c : Ctx) (va : Fin 32 → DWord) (b : Fin 32 → Word) (d : Fin 32 → Word) : List (Fin 32) → State → State → Prop
  | [], s, u => u = s
  | y :: ys, s, u =>
    let r := (s.recordAt c (va y) 160).getD []
    let tab := tableAt s c (fieldAt r 8 8)
    let n := min (fieldAt r 0 4 % 32) 16
    let i := (b y).toNat % 256
    ∃ k x, VerifiesTo r tab k x ∧ d y = BitVec.ofNat 32 (k * 2 ^ 24 + x) ∧
      let v := commit s c y (fieldAt r 8 8) tab (((List.range k).map fun j => token r (0x10 + 4 * j)) ++ [x])
      Verified c va b d ys (if n = 0 then v else v.modCtx c.cx.id fun cx =>
        let w := (cx.streams[i]?).getD 0
        { cx with streams := cx.streams.setIfInBounds i (w - (w >>> 3) + BitVec.ofNat 16 (k * 65535 / n / 8)) }) u

/-- The counter-based generator (R315). -/
def generated (seed seq pos : Nat) : Nat :=
  let m := 2 ^ 64
  let z := (seed + 0x9E3779B97F4A7C15 * (seq * 2 ^ 32 + pos + 1)) % m
  let z := ((z ^^^ (z / 2 ^ 30)) * 0xBF58476D1CE4E5B9) % m
  let z := ((z ^^^ (z / 2 ^ 27)) * 0x94D049BB133111EB) % m
  (z ^^^ (z / 2 ^ 31)) / 2 ^ 32

/-- Token x is the lowest usable one below n whose value is not NaN and is the largest such; none when no value is usable (R314). -/
def IsTop (usable : Nat → Bool) (val : Nat → FVal) (n : Nat) (x : Option Nat) : Prop :=
  match x with
  | some i => i < n ∧ usable i = true ∧ val i ≠ .nan ∧
      ∀ j < n, usable j = true → val j ≠ .nan → ∃ e, (val j).cmp (val i) = some e ∧ (e < 0 ∨ e = 0 ∧ i ≤ j)
  | none => ∀ j < n, usable j = true → val j = .nan

/-- The running sum C_i of weights, rounded after each addition (R314). -/
def runningSum (wt : Nat → FVal) : Nat → FVal
  | 0 => Fmt.f32.decode false (Fmt.f32.round .rn false false ((Fmt.f32.decode false 0).add .rn (wt 0)))
  | i + 1 => Fmt.f32.decode false (Fmt.f32.round .rn false false ((runningSum wt i).add .rn (wt (i + 1))))

/-- Token x is the one that the threshold finds: the lowest of positive weight whose running sum exceeds Σ × Gen × 2^−32, else the
highest of positive weight; none when Σ is 0 (R314). -/
def AtThreshold (usable : Nat → Bool) (val : Nat → FVal) (n gen : Nat) (x : Option Nat) : Prop :=
  let zero : FVal := .fin false 0 0
  let wt (i : Nat) : FVal := match val i with
    | .fin false m e => if m ≠ 0 ∧ usable i = true then .fin false m e else zero
    | _ => zero
  let total := runningSum wt (n - 1)
  let t0 := if total = .inf false then total
    else Fmt.f32.decode false (Fmt.f32.round .rn false false (total.mul (.fin false gen (-32))))
  let above (i : Nat) : Bool := wt i != zero && (match (runningSum wt i).cmp t0 with | some e => decide (0 < e) | none => false)
  if total.cmp zero = some 0 then x = none
  else x = match (List.range n).find? above with
    | some i => some i
    | none => (List.range n).reverse.find? fun i => wt i != zero

/-- SAMPLE in a slot (R314): the result word and the token to commit, from the record, the table, the logits and the position. -/
def SamplesTo (r : List Byte) (tab : Option (List Byte)) (logits : List Byte) (pos : Nat) (d : Word) (x : Option Nat) : Prop :=
  let n := fieldAt r 8 4
  let mode := fieldAt r 0xC 4
  let usable (i : Nat) : Bool := match tab with | some t => !bannedAfter t (history t) i | none => true
  let val (i : Nat) : FVal := Fmt.f32.decode false (fieldAt logits (4 * i) 4)
  (∀ t, tab = some t → forcedPos t < forcedLen t →
    x = some (token t (0x20 + 4 * forcedPos t)) ∧ d = BitVec.ofNat 32 (2 ^ 30 + token t (0x20 + 4 * forcedPos t))) ∧
  ((∀ t, tab = some t → forcedLen t ≤ forcedPos t) →
    ((n = 0 ∨ 2 ^ 24 < n ∨ 2 ≤ mode) → x = none) ∧
    (1 ≤ n → n ≤ 2 ^ 24 → mode = 0 → IsTop usable val n x) ∧
    (1 ≤ n → n ≤ 2 ^ 24 → mode = 1 → AtThreshold usable val n (generated (fieldAt r 0x10 8) (fieldAt r 0x18 4) pos) x) ∧
    d = match x with | some i => BitVec.ofNat 32 i | none => 0x80000000)

/-- The bytes of logits that a sample record makes SAMPLE read (R313, R314). -/
def logitBytes (r : List Byte) : Nat :=
  if fieldAt r 8 4 = 0 ∨ 2 ^ 24 < fieldAt r 8 4 ∨ 2 ≤ fieldAt r 0xC 4 then 0 else 4 * fieldAt r 8 4

/-- SAMPLE's slots served one after another (R314): each reads its record, table and logits as they are then, and a token found is
committed to its table. -/
def Sampled (c : Ctx) (va : Fin 32 → DWord) (b : Fin 32 → Word) (d : Fin 32 → Word) : List (Fin 32) → State → State → Prop
  | [], s, u => u = s
  | y :: ys, s, u =>
    let r := (s.recordAt c (va y) 64).getD []
    let tab := tableAt s c (fieldAt r 0x20 8)
    ∃ x, SamplesTo r tab ((s.recordAt c (BitVec.ofNat 64 (fieldAt r 0 8)) (logitBytes r)).getD []) (b y).toNat (d y) x ∧
      Sampled c va b d ys (match x with | some i => commit s c y (fieldAt r 0x20 8) tab [i] | none => s) u

/-- The constraint table that a record names, as its ranges: the table and nothing for address 0. -/
def tableRange (ctab : DWord) : List (DWord × Nat) := if ctab = 0 then [] else [(ctab, 4384)]

end Sys2Proof.Machine

/-- KVMAP gives the slot of a position, or says that the descriptor is not valid or the position beyond its length; OSMX makes
its online softmax step and sets APPROX; OSMXF divides, and gives 0 and sets p7 for an empty row; VERIFY and SAMPLE, with their
records at hand, serve their slots in ascending order, each seeing what those before it committed, and leave the results with a
producer (R298, R303, R306, R307, R309, R311, R312, R314, R315). Last, what a record at hand reads as, and that a commit in this
device's storage writes its 18 bytes and nothing else that the version sees. -/
def Obligations.KvAndDecodingInstructions : Prop :=
  (∀ (p : Pfx) (f : F3) (s s' : State) (c : Ctx),
    let a : Src := .reg f.a 2 f.ta .int
    let b := immOr p p.immU f.b f.tb .int
    Issues s p (groupSize p) { srcs := [a, b], dsts := [(f.d, 1)] } c s' → NothingPulled s' c →
    (∀ x ∈ maskSlots c.act, HasPath s' (c.val64 a x) ∧ (c.val64 a x).toNat % 128 = 0 ∧ AtHand s' c [(c.val64 a x, 128)]) →
      ∃ t, exec (.kvmap p f) s = .next t ∧ Computes s' t c (c.writes f.d 1 fun x =>
        let d := KvDesc.of (bytesAt s' c (c.val64 a x) 128)
        let pos := (c.val b x).toNat
        [if d.valid = false then 0xFFFFFFFE else if d.len ≤ pos then 0xFFFFFFFF
         else BitVec.ofNat 32 (if pos < d.sink then pos else d.sink + (pos - d.sink) % d.window)])) ∧
  (∀ (p : Pfx) (f : F3A) (s s' : State) (c : Ctx),
    Issues s p (groupSize p)
      { srcs := [.reg f.a 1 f.ta .f32, .reg f.d 1 false .f32, .reg (f.d + 1) 1 false .f32], dsts := [(f.d, 4)] } c s' →
    ∃ (t : State) (pick : Fin 32 → Bool), exec (.osmx p f) s = .next t ∧
      let r (x : Fin 32) := softmax (pick x) (c.val (.reg f.a 1 f.ta .f32) x) (c.val (.reg f.d 1 false .f32) x)
        (c.val (.reg (f.d + 1) 1 false .f32) x)
      Acts s' t (s'.modCtx c.cx.id fun cx =>
          { cx with approx := cx.approx ||| (maskSlots c.act).foldl (fun b x => b ||| (r x).2) 0 }) c
        (c.writes f.d 4 fun x => (r x).1) c.past) ∧
  (∀ (p : Pfx) (f : F3) (s s' : State) (c : Ctx),
    Issues s p (groupSize p) { srcs := [.reg f.a 1 f.ta .f32, .reg f.b 1 f.tb .f32], dsts := [(f.d, 1)], preds := [7] } c s' →
    let zero (x : Fin 32) : Bool := (c.val (.reg f.b 1 f.tb .f32) x).toNat % 2 ^ 31 == 0
    let val (y : Word) : FVal := Fmt.f32.decode false y.toNat
    ∃ t, exec (.osmxf p f) s = .next t ∧ Acts s' t (s'.setPred c 7 c.act zero) c (c.writes f.d 1 fun x =>
      [if zero x = true then 0 else BitVec.ofNat 32 (Fmt.f32.round .rn false false
        ((val (c.val (.reg f.a 1 f.ta .f32) x)).div 24 (val (c.val (.reg f.b 1 f.tb .f32) x))))]) c.past) ∧
  (∀ (p : Pfx) (f : F3) (s s' : State) (c : Ctx),
    let a : Src := .reg f.a 2 f.ta .int
    let b : Src := .reg f.b 1 f.tb .int
    let ctab (x : Fin 32) := BitVec.ofNat 64 (fieldAt (bytesAt s' c (c.val64 a x) 160) 8 8)
    Issues s p (groupSize p) { srcs := [a, b], dsts := [(f.d, 1)] } c s' → NothingPulled s' c →
    (∀ x ∈ maskSlots c.act, HasPath s' (c.val64 a x) ∧ (c.val64 a x).toNat % 16 = 0 ∧
      AtHand s' c ((c.val64 a x, 160) :: tableRange (ctab x)) ∧
      (ctab x ≠ 0 → (ctab x).toNat % 64 = 0 ∧ c.accessCause s' .write 1 (ctab x) = none)) →
      ∃ t d u, exec (.verify p f) s = .next t ∧ Verified c (c.val64 a) (c.val b) d (maskSlots c.act) s' u ∧
        Defers ((u.unpull c).modTray c.tray.id fun tr => { tr with stream := (c.val b c.low).setWidth 8 }) t c .verify
          (c.writes f.d 1 fun x => [d x])) ∧
  (∀ (p : Pfx) (f : F3) (s s' : State) (c : Ctx),
    let a : Src := .reg f.a 2 f.ta .int
    let b : Src := .reg f.b 1 f.tb .int
    let rec_ (x : Fin 32) := bytesAt s' c (c.val64 a x) 64
    let ctab (x : Fin 32) := BitVec.ofNat 64 (fieldAt (rec_ x) 0x20 8)
    let logits (x : Fin 32) := BitVec.ofNat 64 (fieldAt (rec_ x) 0 8)
    Issues s p (groupSize p) { srcs := [a, b], dsts := [(f.d, 1)] } c s' → NothingPulled s' c →
    (∀ x ∈ maskSlots c.act, HasPath s' (c.val64 a x) ∧ (c.val64 a x).toNat % 16 = 0 ∧
      AtHand s' c ((c.val64 a x, 64) :: tableRange (ctab x)) ∧
      (ctab x ≠ 0 → (ctab x).toNat % 64 = 0 ∧ c.accessCause s' .write 1 (ctab x) = none) ∧
      (logitBytes (rec_ x) ≠ 0 → ctab x = 0 ∨ forcedAt (maskSlots c.act) ctab (bytesAt s' c (ctab x) 4384) x = false →
        (logits x).toNat % 4 = 0 ∧ AtHand s' c [(logits x, logitBytes (rec_ x))])) →
      ∃ t d u, exec (.sample p f) s = .next t ∧ Sampled c (c.val64 a) (c.val b) d (maskSlots c.act) s' u ∧
        Defers (u.unpull c) t c .sample (c.writes f.d 1 fun x => [d x])) ∧
  (∀ (s : State) (c : Ctx) (va : DWord) (n : Nat), AtHand s c [(va, n)] → s.recordAt c va n = some (bytesAt s c va n)) ∧
  ∀ (s : State) (c : Ctx) (u : Fin 32) (va : DWord) (bs : List Byte) (l : Loc) (a : Attr), s.Whole → va.toNat % 64 = 6 → bs.length = 18 →
    s.resolve c.cx c.launch.ver c.team.id c.tray? .write va = .ok l a → (∀ d o, l ≠ .peer d o) →
      (∀ x, (s.recordPut c u va bs).byteSeen c.keys x = overlay (s.byteSeen c.keys) l bs x) ∧
      ∀ o r, (s.recordPut c u va bs).held o r = s.held o r

namespace Sys2Proof.Machine

/-- A launch record that can be submitted: it is at hand, aligned, and nothing stands against it (R16, R17, R21, R22). -/
def Submittable (s : State) (c : Ctx) (cx : Context) (ver : Nat) (addr : DWord) : Prop :=
  addr.toNat % 64 = 0 ∧ AtHand s c [(addr, 192)] ∧ s.refusal cx ver (LaunchRec.of (bytesAt s c addr 192)) = none ∧
    s.sched.pifo.length < 4096

/-- A launch of a record stands behind the others and in the PIFO, with the priority and deadline of the issuer's work item (R21,
R323). -/
structure Submitted (s t : State) (c : Ctx) (ver : Nat) (addr : DWord) (dest : Dest) : Prop where
  launch : ∃ l e, t.launches = s.launches ++ [l] ∧ t.sched.pifo = s.sched.pifo ++ [e] ∧ e.work = .launch l.id ∧
    e.prio = c.launch.itemPrio ∧ e.deadline = c.launch.deadline ∧ e.arrival = s.sched.arrivals ∧ l.ctx = c.cx.id ∧ l.ver = ver ∧
    l.recAddr = addr ∧ l.dest = dest ∧ l.nextTeam = 0 ∧ l.endedTeams = 0 ∧ l.cause = none ∧ l.value = 0 ∧
    l.trayPc = BitVec.ofNat 64 (fieldAt (bytesAt s c addr 192) 0 8) ∧ l.frontPc = BitVec.ofNat 64 (fieldAt (bytesAt s c addr 192) 8 8) ∧
    l.levels = (LaunchRec.of (bytesAt s c addr 192)).levels
  flow : Moved s t c c.past
  preds : SamePreds s t
  rest : t.prods = s.prods ∧ t.cmds = s.cmds ∧ t.arrays = s.arrays

/-- The versions of a context that a squash of one takes: those that live and descend from it, itself included (R328). -/
def squashedWith (cx : Context) (v : Nat) (r : Version) : Prop := r.state = .live ∧ v ∈ cx.chain r.loc

/-- VERQ's state word (R331). -/
def stateWord (cx : Context) (dev : BitVec 4) (gid : Nat) : Word :=
  if gid / 4096 % 16 ≠ dev.toNat then 0
  else if gid / 64 % 64 = 0 then (if gid % 64 = 0 then 0x20000000 else 0)
  else match cx.ver? (gid / 64 % 64) with
    | none => 0
    | some r =>
      if r.inc ≠ gid % 64 then 0
      else match r.state with
        | .live => BitVec.ofNat 32 (2 ^ 28 + (cx.gid dev r.parent).toNat)
        | .committed g => BitVec.ofNat 32 (2 * 2 ^ 28 + g.toNat)
        | .squashed => BitVec.ofNat 32 (3 * 2 ^ 28)

end Sys2Proof.Machine

/-- LAUNCH submits a record in the issuing version and marks its result pair empty; LAUNCHS makes the lowest free version a
child of the issuing one, writes the prediction in it, gives its global id, and submits the record in it; VERQ reads a version's
state; POSTRES sets the value that its launch reports (R318, R323 to R325, R331). -/
def Obligations.LaunchesAndVersions : Prop :=
  (∀ (p : Pfx) (f : F3A) (s s' : State) (c : Ctx),
    Issues s p (groupSize p) { srcs := [.reg f.a 2 f.ta .int], dsts := [(f.d, 2)], once := true } c s' → NothingPulled s' c →
    Submittable s' c c.cx c.launch.ver (c.pair f.a f.ta) →
      ∃ t, exec (.launch p f) s = .next t ∧ Submitted s' t c c.launch.ver (c.pair f.a f.ta) (c.resultDest f.d) ∧
        RegsMarked s' t c.owner (c.lowNames f.d 2) ∧ SameBytes s' t) ∧
  (∀ (p : Pfx) (f : F3) (s s' : State) (c : Ctx) (v : Nat) (l : Loc) (a : Attr),
    let dsts := if c.front then [(f.d, 2), (f.d + 1, 2)] else [(f.d, 4)]
    let addr := c.pair f.a f.ta
    let cx := c.cx.addVer v c.launch.ver
    Issues s p (groupSize p) { srcs := [.reg f.a 2 f.ta .int, .reg f.b 2 f.tb .int], dsts := dsts, once := true } c s' →
    NothingPulled s' c → s'.Whole → c.cx.freeVer = some v → c.launchsCause s' addr = none → f.d.toNat < 96 →
    Submittable s' c cx v addr → s'.resolve cx v c.team.id c.tray? .write (addr + 0x28) = .ok l a → a.vers = true → (∀ d o, l ≠ .peer d o) →
      ∃ t, exec (.launchs p f) s = .next t ∧
        Submitted s' t c v addr (c.resultDest (if c.front then f.d + 1 else f.d + 2)) ∧
        (∃ cx' r, t.ctx? c.cx.id = some cx' ∧ cx'.ver? v = some r ∧ r.state = .live ∧ r.parent = c.launch.ver) ∧
        (∀ i < 8, t.byteSeen (cx.keys v) (l.add i) = BitVec.ofNat 8 ((c.pair f.b f.tb).toNat / 2 ^ (8 * i))) ∧
        (c.front = false → ∀ lo hi, c.lowNames f.d 2 = [lo, hi] → (c.lowNames f.d 4).Nodup →
          t.held c.owner lo = ((cx.gid s'.devNo v).setWidth 64, true) ∧ t.held c.owner hi = (0, true)) ∧
        (∀ x ∈ c.lowNames (if c.front then f.d + 1 else f.d + 2) 2, (c.lowNames f.d 2).all (· != x) = true →
          (t.held c.owner x).2 = false) ∧
        ∀ o x, ¬(o = c.owner ∧ x ∈ dsts.flatMap fun y => c.lowNames y.1 y.2) → t.held o x = s'.held o x) ∧
  (∀ (p : Pfx) (f : F3A) (s s' : State) (c : Ctx),
    Issues s p (groupSize p) { srcs := [immOr p p.immU f.a f.ta .int], dsts := [(f.d, 1)] } c s' →
    ∃ t, exec (.verq p f) s = .next t ∧ Computes s' t c (c.writes f.d 1 fun x =>
      [stateWord c.cx s'.devNo ((c.val (immOr p p.immU f.a f.ta .int) x).toNat % 2 ^ 16)])) ∧
  ∀ (p : Pfx) (f : FA) (s s' : State) (c : Ctx), Issues s p (groupSize p) { srcs := [.reg f.a 2 f.ta .int], once := true } c s' →
    ∃ t, exec (.postres p f) s = .next t ∧ Acts s' t
      (s'.modLaunch c.launch.id fun l => { l with value := BitVec.ofNat 56 (c.pair f.a f.ta).toNat }) c [] c.past

/-- RESOLVE commits a live child of the issuing version: its launches and commands continue in the parent, its children become
the parent's, which also takes over the peers that hold its lines (R239), the parent sees what it saw, and its siblings are squashed with
their descendants. SQUASH squashes a live
descendant with its own descendants: their launches and commands end. A version that is none raises 0x11 (R320, R326 to
R328). -/
def Obligations.VersionsCommitAndSquash : Prop :=
  (∀ (p : Pfx) (f : FA) (s s' : State) (c : Ctx) (w : Version),
    Issues s p (groupSize p) { srcs := [immOr p p.immU f.a f.ta .int], once := true } c s' →
    c.cx.liveVer s'.devNo (BitVec.ofNat 16 (c.val (immOr p p.immU f.a f.ta .int) c.low).toNat) = some w → w.parent = c.launch.ver →
    let siblings := c.cx.versions.filter fun r => r.state == .live && r.parent == w.parent && r.loc != w.loc
    let gone (n : Nat) : Prop := ∃ v ∈ siblings, ∃ r ∈ c.cx.versions, squashedWith c.cx v.loc r ∧ r.loc = n
    (∃ t cx', exec (.resolve p f) s = .next t ∧ t.ctx? c.cx.id = some cx' ∧ ∀ r ∈ c.cx.versions, ∃ r' ∈ cx'.versions, r'.loc = r.loc ∧
      r'.inc = r.inc ∧ (gone r.loc → r'.state = .squashed) ∧
      (¬gone r.loc → r.loc = w.parent → r.loc ≠ w.loc → ¬(r.state = .live ∧ r.parent = w.loc) → ∀ d ∈ w.told, d ∈ r'.told) ∧
      (¬gone r.loc →
        r'.state = (if r.loc = w.loc then .committed (c.cx.gid s'.devNo w.parent) else r.state) ∧
        r'.parent = if r.state = .live ∧ r.loc ≠ w.loc ∧ r.parent = w.loc then w.parent else r.parent)) ∧
    (siblings = [] → w.told = [] → s'.Whole → (∀ q ∈ s'.prods, q.id ≠ s'.nextId) → (∀ n ∈ s'.fab.notices, n.waiter ≠ some s'.nextId) →
      ∃ t, exec (.resolve p f) s = .next t ∧ Moved s' t c c.past ∧ (∀ o x, t.held o x = s'.held o x) ∧ SamePreds s' t ∧
        (∀ a, t.byteSeen (c.cx.keys w.parent) (.hbm a) = s'.byteSeen (.here c.cx.id w.loc :: c.cx.keys w.parent) (.hbm a)) ∧
        t.launches = s'.launches.map (fun l => if l.ctx = c.cx.id ∧ l.ver = w.loc then { l with ver := w.parent } else l) ∧
        t.cmds = s'.cmds.map (fun k => if k.ctx = c.cx.id ∧ k.ver = w.loc then { k with ver := w.parent } else k) ∧
        t.prods = s'.prods)) ∧
  (∀ (p : Pfx) (f : FA) (s s' : State) (c : Ctx) (w : Version),
    Issues s p (groupSize p) { srcs := [immOr p p.immU f.a f.ta .int], once := true } c s' →
    c.cx.liveVer s'.devNo (BitVec.ofNat 16 (c.val (immOr p p.immU f.a f.ta .int) c.low).toNat) = some w → w.loc ≠ c.launch.ver →
    c.launch.ver ∈ c.cx.chain w.loc →
    let gone (v : Nat) : Prop := ∃ r ∈ c.cx.versions, squashedWith c.cx w.loc r ∧ r.loc = v
    (∃ t cx', exec (.squash p f) s = .next t ∧ t.ctx? c.cx.id = some cx' ∧
      (∀ r ∈ c.cx.versions, ∃ r' ∈ cx'.versions, r'.loc = r.loc ∧ r'.inc = r.inc ∧ (gone r.loc → r'.state = .squashed) ∧
        (¬gone r.loc → r'.state = r.state)) ∧
      (∀ l ∈ t.launches, ¬(l.ctx = c.cx.id ∧ gone l.ver)) ∧ (∀ k ∈ t.cmds, ¬(k.ctx = c.cx.id ∧ gone k.ver)) ∧
      (∀ x ∈ t.vlines, ∀ v, x.key = .here c.cx.id v → ¬gone v) ∧ (∀ a ∈ t.allocs, ¬(a.ctx = c.cx.id ∧ gone a.ver))) ∧
    ((∀ l ∈ s'.launches, ¬(l.ctx = c.cx.id ∧ gone l.ver)) → (∀ k ∈ s'.cmds, ¬(k.ctx = c.cx.id ∧ gone k.ver)) →
      (∀ r ∈ c.cx.versions, gone r.loc → r.ended = [] ∧ r.told = []) → s'.peers = [] → (∀ n ∈ s'.fab.notices, n.waiter ≠ some s'.nextId) →
      ∃ t, exec (.squash p f) s = .next t ∧ Moved s' t c c.past ∧ (∀ o x, t.held o x = s'.held o x) ∧ SamePreds s' t ∧
        t.launches = s'.launches ∧ t.cmds = s'.cmds)) ∧
  ∀ (p : Pfx) (f : FA) (s s' : State) (c : Ctx),
    Issues s p (groupSize p) { srcs := [immOr p p.immU f.a f.ta .int], once := true } c s' → c.clears = false →
    c.cx.liveVer s'.devNo (BitVec.ofNat 16 (c.val (immOr p p.immU f.a f.ta .int) c.low).toNat) = none →
      ∀ i ∈ [Instr.resolve p f, .squash p f], exec i s = .next (s'.raise c { code := 0x11, mask := 1#32 <<< c.low.val, once := true })

namespace Sys2Proof.Machine

/-- Everything but what registers hold is as in u; those of an owner hold what was written. -/
structure Fills (s t u : State) (o : Owner) (ws : List RegWrite) : Prop where
  regs : RegsAfter s t o ws
  rest : t.still = u.still
  trays : ∀ id, (t.tray? id).map (fun tr => (tr.frontier, tr.cursors)) = (u.tray? id).map fun tr => (tr.frontier, tr.cursors)
  fronts : ∀ id, (t.team? id).map (fun tm => (tm.front.pc, tm.front.loops, tm.front.wait)) =
    (u.team? id).map fun tm => (tm.front.pc, tm.front.loops, tm.front.wait)

/-- An entry past its group of a size, in sequential flow (R135, R150). -/
def goneOn (e : Entry) (size : Nat) : Entry := { e.flowTo (e.pc + BitVec.ofNat 64 size) with wait := .none }

/-- The entries of an owner that stand in a wait go past their group, and registers take values; every other entry stands, and
no memory, predicate, command, producer, context or launch changes (R159). -/
structure Woken (s t : State) (o : Owner) (w : Wait) (size : Nat) (ws : List RegWrite) : Prop where
  regs : RegsAfter s t o ws
  trays : ∀ id, (t.tray? id).map (·.frontier) = (s.tray? id).map fun tr =>
    if o = .tray id then mergeAll (tr.frontier.map fun e => if e.wait = w then goneOn e size else e) else tr.frontier
  fronts : ∀ id, (t.team? id).map (fun tm => (tm.front.pc, tm.front.loops, tm.front.wait)) = (s.team? id).map fun tm =>
    if o = .front id ∧ tm.front.wait = w then
      ((loopEnd (tm.front.pc + BitVec.ofNat 64 size) tm.front.loops).1, (loopEnd (tm.front.pc + BitVec.ofNat 64 size) tm.front.loops).2,
        Wait.none)
    else (tm.front.pc, tm.front.loops, tm.front.wait)
  bytes : SameBytes s t
  preds : SamePreds s t
  rest : t.cmds = s.cmds ∧ t.prods = s.prods ∧ t.ctxs = s.ctxs ∧ t.launches = s.launches ∧ t.outbox = s.outbox ∧ t.fab = s.fab

/-- The registers of a watched slot with a word. -/
def watchWrites (ws : List Watch) (v : Watch → Word) : List RegWrite :=
  ws.flatMap fun w => w.regs.map fun r => { reg := r, val := v w, hi := 0 }

/-- A word of this device that a watch sees. -/
def wordOf (s : State) (cx : Context) (ver : Nat) (w : Watch) : Word := BitVec.ofNat 32 (leNat (s.seen (cx.keys ver) w.loc 4))

/-- The events that bring a kind of producer its end. -/
def fillers : List (Instr × ProdKind) :=
  [(.loadReturn, .load), (.longLatencyResult, .long), (.tsallocHandleFill, .handle), (.verifyResult, .verify), (.sampleResult, .sample)]

end Sys2Proof.Machine

/-- The end of a load or a long operation gives its registers their values, full, and the producer goes; an error that was corrected on
the way is counted for its die (R180); a load with responses still to come waits, and one whose data could not be corrected stops its context with cause 0x13 (R43, R107, R180, R183). -/
def Obligations.ProducersFillTheirRegisters : Prop :=
  (∀ x ∈ fillers, ∀ (s : State) (pr : Producer), s.prods.find? (fun y => y.id == s.input.id) = some pr → pr.kind = x.2 →
    (pr.kind = .load → pr.tags = [] ∧ s.input.err = none ∧ s.awaits pr.owner pr.id = false) →
    (∀ w ∈ pr.writes, s.has pr.owner w.reg = true) →
      ∃ t, exec x.1 s = .next t ∧ Fills s t
        { (if x.2 = .load ∧ s.input.flag = true then s.countCorrected s.input.n else s) with
          prods := s.prods.filter fun y => y.id != pr.id } pr.owner pr.writes) ∧
  (∀ (s : State) (d : Nat), d < 16 → ∀ e < 16, Sparse.wf 0 s.pkg.corrected = true → Sparse.get 0 (s.countCorrected d).pkg.corrected e =
    Sparse.get 0 s.pkg.corrected e + if e = d then 1 else 0) ∧
  ∀ (s : State) (pr : Producer) (cls : Nat) (tm : Team) (l : Launch) (cx : Context),
    s.prods.find? (fun y => y.id == s.input.id) = some pr → pr.kind = .load → pr.tags = [] → s.awaits pr.owner pr.id = false →
    s.input.err = some cls → s.input.k = 0 → s.ownerCtx pr.owner = some (tm, l, cx) → s.ctx? cx.id = some cx → s.input.flag = false →
      ∃ t cx', exec .loadReturn s = .next t ∧ t.ctx? cx.id = some cx' ∧ cx'.stopped = true ∧
        (cx.stopped = false → cx'.stopCause = 0x13)

/-- A waiting ACQ, WAITT or WAITNE goes on when what it waits for has come, WAITNE with its words, and WAITNE also once 65,536 ns
have passed; an ACQ acquires from its object then (R159, R169, R230, R249, R253). The entry that goes on merges as log 13 says. -/
def Obligations.WaitsEnd : Prop :=
  (∀ (s : State) (o : Owner) (v : DWord) (size : Nat), ownerOf s.input.agent = some o → s.waitOf s.input.agent = .waitt v size →
    v.toInt ≤ s.time → ∃ t, exec .waittWake s = .next t ∧ Woken s t o (.waitt v size) size []) ∧
  (∀ (s : State) (o : Owner) (l : Loc) (v va : DWord) (size tag n : Nat) (m : BitVec 32) (tm : Team) (la : Launch) (cx : Context),
    ownerOf s.input.agent = some o → s.waitOf s.input.agent = .acq l v size tag va n m → s.ownerCtx o = some (tm, la, cx) →
    (∀ d a, l ≠ .peer d a) → (BitVec.ofNat 64 (leNat (s.seen (cx.keys la.ver) l 8)) - v).toNat < 2 ^ 63 →
      ∃ t, exec .acqWake s = .next t ∧ Woken s t o (.acq l v size tag va n m) size [] ∧ t.past = (s.acquireOn cx o m (.object va.toNat) n).past) ∧
  ∀ x ∈ [(Instr.waitneWake, false), (.waitneTimeout, true)],
    ∀ (s : State) (o : Owner) (t0 size : Nat) (ws : List Watch) (adv : List (BitVec 7)) (rg : Option (Nat × Nat)) (tm : Team) (la : Launch)
      (cx : Context),
    ownerOf s.input.agent = some o → s.waitOf s.input.agent = .waitne t0 size ws adv rg → s.ownerCtx o = some (tm, la, cx) →
    (∀ w ∈ ws, ∀ d a, w.loc ≠ .peer d a) → (∀ w ∈ ws, ∀ r ∈ w.regs, s.has o r = true) →
    (if x.2 = true then t0 + 65536 ≤ s.time else ∀ w ∈ ws, wordOf s cx la.ver w ≠ w.cmp) →
      ∃ t, exec x.1 s = .next t ∧ Woken s t o (.waitne t0 size ws adv rg) size (watchWrites ws (wordOf s cx la.ver))

namespace Sys2Proof.Machine

/-- The spill region of a thread's frame in its version's memory: SPILLBASE + linear number × STRIDE + what lies below the frame
(R20, R36). -/
def spillAt (tm : Team) (l : Launch) (tr : Tray) (f : Frame) (tid : Nat) : Nat :=
  l.spillBase.toNat + (tm.teamno * (32 * l.traysPerTeam) + tid) * l.spillStride + 4 * belowIn tr.frames f.uid

/-- Memory after a frame's registers were written to the spill area, slot by slot (R34, R36). -/
def spilled (s : State) (cx : Context) (tm : Team) (l : Launch) (tr : Tray) (f : Frame) : State :=
  slotList.foldl (fun s u => match tr.remap[u] with
    | some tid => s.ctxWrite cx l.ver (spillAt tm l tr f tid) ((f.regs[u].toList.take f.size).flatMap fun r => leBytes 4 r.val.toNat)
    | none => s) s

/-- The entries of a tray that wait for the registers of a frame go on (R35). -/
def fedEntries (es : List Entry) (uid : Nat) : List Entry :=
  mergeAll (es.map fun e => match e.wait with
    | .pool _ (.fill u) => if u = uid then { e with wait := .none } else e
    | _ => e)

/-- The oldest wait for pool space of the lane that an event names which fits now (R58): its tray, entry and need, and the frames that
are spilled for it. -/
def servedFirst (s : State) : Option (Nat × Nat × PoolNeed × List Nat) :=
  (s.lanePool s.input.id s.input.n s.input.flag).findSome? fun w =>
    (s.fitsNow w.2.1 w.2.2.1 w.2.2.2).map fun us => (w.2.1, w.2.2.1, w.2.2.2, us)

/-- The callers of a tray's newest frame that stand in its frontier or in a saved one, and those that wait at a RET (R148). -/
def stillCalled (tr : Tray) (f : Frame) : BitVec 32 :=
  f.callers &&& (maskUnion tr.frontier ||| (match tr.trap with | some ts => maskUnion ts.frontier | none => 0))

/-- The slots that wait at a RET at the depth of their tray's stack. -/
def returned (tr : Tray) : BitVec 32 :=
  maskUnion (tr.frontier.filter fun e => e.wait == .ret && e.depth == tr.frames.length)

/-- The entries after a return: those that waited go on at the return address with the caller's priority, one call less deep. -/
def backEntries (tr : Tray) (f : Frame) : List Entry :=
  mergeAll (tr.frontier.map fun e =>
    if e.wait == .ret && e.depth == tr.frames.length then { e with pc := f.retAddr, prio := f.prio, depth := e.depth - 1, wait := .none }
    else e)

end Sys2Proof.Machine

/-- A spilled frame is written to the spill area in its tray's version; a fill reads it back, full; of the waits for a lane's pool the
oldest that fits is served, and then the others are looked at; a frame whose callers have all returned goes, and they continue at its return address; a lapse of the
fairness counter is noted (R34 to R36, R58, R138, R148). -/
def Obligations.FramesSpillFillAndReturn : Prop :=
  (∀ (s : State) (tr : Tray) (f : Frame) (tm : Team) (l : Launch) (cx : Context), s.tray? s.input.id = some tr →
    tr.frames.find? (fun g => g.uid == s.input.n && g.spill == .pending) = some f → s.around tr.team = some (tm, l, cx) →
      exec .spillWrite s = .next ((spilled s cx tm l tr f).modTray tr.id fun tr =>
        { tr with frames := tr.frames.map fun g => if g.uid = f.uid then { g with spill := .written } else g })) ∧
  (∀ (s : State) (tr : Tray) (f : Frame) (tm : Team) (l : Launch) (cx : Context), s.tray? s.input.id = some tr →
    tr.frames.find? (fun g => g.uid == s.input.n && g.held && g.spill == .written) = some f → s.around tr.team = some (tm, l, cx) →
      ∃ t, exec .fillRestore s = .next t ∧
        (∀ (u : Fin 32) (i : Fin 16) tid bs, tr.remap[u] = some tid →
          s.ctxRead cx l.ver (spillAt tm l tr f tid + 4 * i.val) 4 = some bs →
            t.held (.tray tr.id) (.win f.uid u i.val) = ((BitVec.ofNat 32 (leNat bs)).setWidth 64, true)) ∧
        (∀ o r, (∀ u n, ¬(o = .tray tr.id ∧ r = .win f.uid u n)) → t.held o r = s.held o r) ∧
        (∀ id, (t.tray? id).map (·.frontier) = (s.tray? id).map (·.frontier)) ∧ SameBytes s t ∧ SamePreds s t) ∧
  (∀ (s : State) (id k uid : Nat) (us : List Nat) (tr : Tray), servedFirst s = some (id, k, .fill uid, us) → s.tray? id = some tr →
      ∃ t tr', exec .poolWaitServe s = .next t ∧ t.tray? id = some tr' ∧ tr'.frontier = fedEntries tr.frontier uid ∧
        tr'.frames = tr.frames.map (fun f =>
          let g := if us.contains f.uid then { f with held := false, spill := .pending } else f
          if g.uid = uid then { g with held := true, asked := 0 } else g) ∧ t.agenda = .event .poolWaitServe s.input :: s.agenda ∧
        (∀ o r, t.held o r = s.held o r) ∧ SameBytes s t ∧ SamePreds s t) ∧
  (∀ (s : State) (id k : Nat) (need : PoolNeed) (us : List Nat), servedFirst s = some (id, k, need, us) → (∀ u, need ≠ .fill u) →
      exec .poolWaitServe s = .next { s.modTray id fun tr =>
          { tr with frontier := modAt (fun e => { e with wait := .none }) tr.frontier k } with
        agenda := .issue (.tray id k) :: .event .poolWaitServe s.input :: s.agenda }) ∧
  (∀ (s : State) (tr : Tray) (tm : Team) (l : Launch) (cx : Context), s.tray? s.input.id = some tr →
    s.around tr.team = some (tm, l, cx) → tr.lapsed = false → tr.fairClk + l.fairPeriod ≤ s.clk →
      exec .fairnessLapse s = .next (s.modTray tr.id fun tr => { tr with lapsed := true })) ∧
  ∀ (s : State) (tr : Tray) (f : Frame) (rest : List Frame), s.tray? s.input.id = some tr → tr.frames = f :: rest →
    stillCalled tr f &&& ~~~returned tr = 0 → (∀ g, rest.head? = some g → g.held = true ∨ g.size = 0) →
      ∃ t tr', exec .frameFree s = .next t ∧ t.tray? tr.id = some tr' ∧ tr'.frames = rest ∧ tr'.frontier = backEntries tr f ∧
        (∀ o r, (∀ u n, ¬(o = .tray tr.id ∧ r = .win f.uid u n)) → t.held o r = s.held o r) ∧ SameBytes s t ∧ SamePreds s t

namespace Sys2Proof.Machine

/-- A spawn record's first 32 bytes: PC + 1, priority, predicates, live count, TID and cursors (R142). -/
def recordHead (sp : Spawn) : List Byte :=
  leBytes 8 (sp.pc.toNat + 1) ++ leBytes 1 sp.prio.toNat ++ leBytes 1 (sp.preds.toNat / 2 * 2) ++ leBytes 1 sp.live ++ [0] ++
    leBytes 2 sp.tid ++ [0, 0] ++ sp.curs.toList ++ List.replicate 8 0

/-- The threads of a former's group that have their record written (R144). -/
def waitingIn (tm : Team) (g : GroupKey) : List Spawn := tm.spawns.filter fun sp => sp.written && sp.pc == g.pc && sp.prio.toNat == g.prio

/-- A tray is formed of a group: up to 32 of its threads with the lowest TIDs leave the former in ascending order (R144). -/
def Forms (s t : State) (tm : Team) (g : GroupKey) : Prop :=
  ∃ (tm' : Team) (x : Formed), t.team? tm.id = some tm' ∧ tm'.formed = tm.formed ++ [x] ∧ x.spawns.length = min 32 (waitingIn tm g).length ∧
    (∀ y ∈ x.spawns, y ∈ waitingIn tm g) ∧ x.spawns.Pairwise (fun a b => a.tid ≤ b.tid) ∧
    (∀ y ∈ waitingIn tm g, y ∉ x.spawns → ∀ z ∈ x.spawns, z.tid ≤ y.tid) ∧ (∀ y ∈ tm'.spawns, y ∈ tm.spawns) ∧
    t.trays = s.trays ∧ t.cmds = s.cmds ∧ t.prods = s.prods

/-- Slots of a tray whose threads belong to a unit of a level (R20, R154). -/
def membersOf (tr : Tray) (tm : Team) (l : Launch) (level unit : Nat) : BitVec 32 :=
  maskOf fun u => match tr.remap[u] with
    | some tid => (tm.teamno * (32 * l.traysPerTeam) + tid) / extents (l.levels.take level) == unit
    | none => false

end Sys2Proof.Machine

/-- A spawned thread's record is written once its live registers are full; its group's tray is formed at the timeout or when
the group is full; a formed tray is bound to a lane with its threads' records; a barrier completes when every member has
arrived, and its members go on, where no frontier needs a seventh entry; a tray in MIGRATE is shipped once no producer of it is
outstanding, its threads that wait at barriers pass when it is detached, and back home it is no member of the episodes that are under way;
a held engine cause is delivered as a trap, where the context has a handler (R141 to R145, R154, R155, R179, R220 to R222). Frontiers
merge as log 13 says. -/
def Obligations.ThreadsAreFormedMetAndShipped : Prop :=
  (∀ (s : State) (tm : Team) (sp : Spawn) (tr : Tray) (l : Launch), tm ∈ s.teams → sp ∈ tm.spawns → sp.id = s.input.id →
    sp.written = false → (∀ tm' ∈ s.teams, ∀ x ∈ tm'.spawns, x.id = sp.id → tm' = tm ∧ x = sp) → s.team? tm.id = some tm →
    s.tray? sp.tray = some tr → s.launch? tm.launch = some l → tr.frontier ≠ [] →
    (∀ n : Fin 32, n.val < sp.live → (tr.base[sp.slot][n]).full = true) → s.Whole →
      ∃ t tm' sp', exec .spawnRecordWrite s = .next t ∧ t.team? tm.id = some tm' ∧ sp' ∈ tm'.spawns ∧ sp'.id = sp.id ∧
        sp'.written = true ∧ sp'.image.take 32 = recordHead sp ∧ sp'.since = s.clk ∧
        ∀ i < 32, t.byteSeen [] (.shared tm.id (l.shmem - 8192 + sp.off + i)) = (recordHead sp).getD i 0) ∧
  (∀ (s : State) (tm : Team) (l : Launch), s.team? s.input.group.team = some tm → s.launch? tm.launch = some l →
    (∃ sp ∈ waitingIn tm s.input.group, sp.since + l.formerTimeout ≤ s.clk) →
      ∃ t, exec .formerTimeout s = .next t ∧ Forms s t tm s.input.group) ∧
  (∀ (s : State) (tm : Team), s.team? s.input.group.team = some tm → 32 ≤ (waitingIn tm s.input.group).length →
      ∃ t, exec .formerLaunch s = .next t ∧ Forms s t tm s.input.group) ∧
  (∀ (s : State) (tm : Team) (l : Launch) (cx : Context) (f : Formed) (lane : Nat), s.around s.input.id = some (tm, l, cx) →
    tm.formed.find? (fun x => x.id == s.input.n) = some f → s.laneFor l tm.bench 0 = some lane →
    (∀ tr ∈ s.trays, ∀ e ∈ tr.frontier, ∀ n, e.wait ≠ .spawn n) →
      ∃ t tr, exec .formedTrayBind s = .next t ∧ t.trays = s.trays ++ [tr] ∧ tr.id = s.nextId ∧ tr.team = tm.id ∧ tr.formed = true ∧
        tr.bench = tm.bench ∧ tr.lane = lane ∧ tr.frames = [] ∧ tr.ext = none ∧ (∀ n : Fin 4, tr.tags[n] = { count := 0, epoch := 0 }) ∧
        ∀ (u : Fin 32) (sp : Spawn), f.spawns[u.val]? = some sp →
          s.seen [] (.shared tm.id (l.shmem - 8192 + sp.off)) (spawnSize sp.live) = sp.image →
          tr.remap[u] = some sp.tid ∧ tr.preds[u] = sp.preds ||| 1 ∧ tr.cursors[u] = sp.curs ∧
            ((∀ y ∈ f.spawns, y.pc = sp.pc ∧ s.seen [] (.shared tm.id (l.shmem - 8192 + y.off)) (spawnSize y.live) = y.image) →
              ∃ e ∈ tr.frontier, e.pc = sp.pc ∧ e.mask.getLsbD u.val = true) ∧
            ∀ n : Fin 32, (tr.base[u][n]).full = true ∧ (tr.base[u][n]).val =
              if n.val < sp.live then BitVec.ofNat 32 (leNat ((sp.image.drop (32 + 4 * n.val)).take 4)) else 0) ∧
  (∀ (s : State) (l : Launch), s.launch? s.input.barrier.launch = some l →
    s.arrived l s.input.barrier.level s.input.barrier.unit = true →
    (∀ x ∈ s.barrierMembers l s.input.barrier.level s.input.barrier.unit, ∀ tr, s.tray? x.1 = some tr →
      (tr.passed s.input.barrier.level x.2).length ≤ 6) →
      ∃ t, exec .barrierComplete s = .next t ∧ (∀ o r, t.held o r = s.held o r) ∧ SameBytes s t ∧ SamePreds s t ∧
        ∀ id tr tm, s.tray? id = some tr → s.team? tr.team = some tm → tm.launch = l.id → tr.landed = none →
          (s.input.barrier.level, s.input.barrier.unit) ∉ tr.excused → ∃ tr', t.tray? id = some tr' ∧ ∀ u : Fin 32, (membersOf tr tm l s.input.barrier.level s.input.barrier.unit).getLsbD u.val = true →
            ∀ e ∈ tr.frontier, e.wait = .meet s.input.barrier.level → e.mask.getLsbD u.val = true →
              ∃ e' ∈ tr'.frontier, e'.mask.getLsbD u.val = true ∧ e'.pc = (goneOn e 4).pc ∧ e'.wait = .none ∧ e'.prio = e.prio) ∧
  (∀ (s : State) (tr : Tray) (die : Nat) (tm : Team) (l : Launch) (cx : Context), s.tray? s.input.id = some tr →
    tr.frontier.findSome? (fun e => match e.wait with | .migrate d => some d | _ => none) = some die →
    s.around tr.team = some (tm, l, cx) → s.trayBusy tr.id = false →
      (∀ lane, die = tm.bench / 48 → s.laneFor l tm.bench tr.used = some lane → ∃ t tr', exec .migrateShip s = .next t ∧
        t.tray? tr.id = some tr' ∧ tr'.bench = tm.bench ∧ tr'.lane = lane ∧ tr'.landed = none ∧ tr'.scratch = Store.empty ∧
        (∀ u : Fin 32, tr'.resv[u] = none) ∧ (∀ o r, t.held o r = s.held o r) ∧ SamePreds s t ∧ tr'.excused = s.episodes l ∧
        tr'.frontier = mergeAll (tr.frontier.map fun e => match e.wait with | .migrate _ => goneOn e 4 | _ => e)) ∧
      (die ≠ tm.bench / 48 → s.landingSlots die ≠ [] → ∃ t tr' x, exec .migrateShip s = .next t ∧ x ∈ s.landingSlots die ∧
        t.tray? tr.id = some tr' ∧ tr'.bench = x.1 ∧ tr'.landed = some x.2 ∧ tr'.scratch = Store.empty ∧
        (∀ u : Fin 32, tr'.resv[u] = none) ∧ (∀ o r, t.held o r = s.held o r) ∧ SamePreds s t ∧
        tr'.frontier = mergeAll (tr.frontier.map fun e => match e.wait with | .migrate _ | .meet _ => goneOn e 4 | _ => e))) ∧
  ∀ (s : State) (k : Cmd) (code : Nat) (addr detail : DWord) (id : Nat) (tr : Tray) (c : Ctx), s.cmd? s.input.id = some k →
    k.state = .held code addr detail false → k.owner = .tray id → s.tray? id = some tr → tr.trap = none →
    s.trayCtx id s.input.n Pfx.empty 0 = some c → (s.ctx? k.ctx).isSome = true → code ∈ trapCauses →
    c.cx.trapPc ≠ 0 → landsAt s c c.cx.trapPc →
      ∃ t tr', exec .engineTrap s = .next t ∧ t.tray? id = some tr' ∧ tr'.fpc = c.ent.pc ∧ tr'.fcause = BitVec.ofNat 8 code ∧
        tr'.fmask = 0 ∧ tr'.frontier = [inHandler c] ∧ (∃ ts, tr'.trap = some ts ∧ ts.frontier = tr.frontier) ∧
        (∀ u : Fin 32, tr'.resv[u] = none) ∧ Recorded s t k.ctx code ∧ ∀ o r, t.held o r = s.held o r

namespace Sys2Proof.Machine

/-- The bytes of a range as a command's version sees them. -/
def engBytes (s : State) (cx : Context) (k : Cmd) (va : DWord) (n : Nat) : List Byte :=
  (pieces va n).flatMap fun y => match s.engResolve cx k .read y.1 with | .ok l _ => s.seen (k.keys cx) l y.2 | _ => []

/-- A command can read a range now, from this device. -/
def EngReads (s : State) (cx : Context) (k : Cmd) (va : DWord) (n : Nat) : Prop :=
  ∀ y ∈ pieces va n, ∃ l a, s.engResolve cx k .read y.1 = .ok l a ∧ ∀ d o, l ≠ .peer d o

/-- Where a command's writes go, in order. -/
def placed (s : State) (cx : Context) (k : Cmd) (ws : List (DWord × List Byte)) : List (Loc × List Byte) :=
  ws.flatMap fun w => (cutBytes (pieces w.1 w.2.length) w.2).filterMap fun y =>
    match s.engResolve cx k .engineWrite y.1 with | .ok l _ => some (l, y.2) | _ => none

/-- The places of ranges that a command writes, with their attributes. -/
def engPlaces (s : State) (cx : Context) (k : Cmd) (ws : List (DWord × List Byte)) : List (Loc × Attr) :=
  ws.flatMap fun w => (pieces w.1 w.2.length).filterMap fun y =>
    match s.engResolve cx k .engineWrite y.1 with | .ok l a => some (l, a) | _ => none

/-- Addresses of a command go where they did while memory changes at some places only: the copied translations that are hit agree with
the tables, and no table that they use stands there. -/
def Steady (s : State) (cx : Context) (k : Cmd) (vas : List DWord) (ps : List (Loc × List Byte)) : Prop :=
  ∀ m : Memory, (∀ x, m.read x ≠ s.mem.read x → ∃ p ∈ ps, ∃ i < p.2.length, p.1.add i = .hbm x) →
    ∀ acc, ∀ va ∈ vas, ({ s with mem := m, copies := [] } : State).engResolve cx k acc va = s.engResolve cx k acc va

/-- The addresses at which a command writes ranges, one for each piece. -/
def writeVas (ws : List (DWord × List Byte)) : List DWord := ws.flatMap fun w => (pieces w.1 w.2.length).map (·.1)

/-- A command can write ranges now, in this device and outside KV pages, with room for all the version lines that it makes, and
writing them moves none of their addresses (R194, R319). -/
def EngWrites (s : State) (cx : Context) (k : Cmd) (ws : List (DWord × List Byte)) : Prop :=
  (∀ w ∈ ws, ∀ y ∈ pieces w.1 w.2.length, ∃ l a, s.engResolve cx k .engineWrite y.1 = .ok l a ∧ (∀ d o, l ≠ .peer d o) ∧
    a.kv = false) ∧
  s.lineless cx (k.keys cx) (engPlaces s cx k ws) = [] ∧ Steady s cx k (writeVas ws) (placed s cx k ws)

/-- Memory as some observer sees it after writes at places, in order. -/
def Written (s t : State) (keys : List VKey) (ps : List (Loc × List Byte)) : Prop :=
  ∀ l, t.byteSeen keys l = ps.foldl (fun m p => overlay m p.1 p.2) (s.byteSeen keys) l

/-- What a command's token takes. -/
def tokenWrites (k : Cmd) (v : Word) : List RegWrite := match k.token with | .none => [] | r => [{ reg := r, val := v, hi := 0 }]

/-- The event names this command, which has begun to work, in its context, and it is to see every write there is (R225). -/
structure Working (s : State) (k : Cmd) (cx : Context) : Prop where
  cmd : s.cmd? s.input.id = some k
  ctx : s.ctx? k.ctx = some cx
  state : k.state = .queued
  token : k.token ≠ .none → s.has k.owner k.token = true
  sees : ∀ e ∈ s.past, missedBy e.unseen (.cmd k.id) = false

/-- The command is done: it goes, its token takes a value and is full, to be read, and no other register, predicate or agent changes
(R225, R257). -/
structure CmdDone (s t : State) (k : Cmd) (v : Word) : Prop where
  cmds : t.cmds = s.cmds.filter fun x => x.id != k.id
  regs : RegsAfter s t k.owner (tokenWrites k v)
  fruit : k.token ≠ .none → { owner := k.owner, reg := k.token, fruit := .cmd k.id } ∈ t.tokens
  preds : SamePreds s t
  trays : ∀ id, (t.tray? id).map (·.frontier) = (s.tray? id).map (·.frontier)
  fronts : ∀ id, (t.team? id).map (fun tm => (tm.front.pc, tm.front.wait)) = (s.team? id).map fun tm => (tm.front.pc, tm.front.wait)
  rest : t.prods = s.prods ∧ t.launches = s.launches ∧ t.ctxs = s.ctxs

/-- Where linear offset o of a line is stored (R261). -/
def storedAt (tag : BitVec 2) (o : Nat) : Nat :=
  if tag = 1 then o ^^^ (((o >>> 7) &&& 7) <<< 4) else if tag = 2 then o ^^^ (((o >>> 6) &&& 3) <<< 4) else o

/-- A row as a command with a swizzle lays it at its destination, which is its own inverse within a line (R265). -/
def laid (swz : BitVec 2) (bs : List Byte) : List Byte :=
  (List.range bs.length).map fun i =>
    bs.getD (if swz = 1 ∨ swz = 2 then i / 1024 * 1024 + storedAt swz (i % 1024) else i) 0

/-- No byte that rows read is one that they write. -/
def Apart (rows : List Row) : Prop := ∀ r ∈ rows, ∀ q ∈ rows, ∀ i < r.n, q.n ≤ ((r.src + BitVec.ofNat 64 i) - q.dst).toNat

/-- The writes of rows. -/
def rowWrites (s : State) (cx : Context) (k : Cmd) (swz : BitVec 2) (rows : List Row) : List (DWord × List Byte) :=
  rows.map fun r => (r.dst, laid swz (engBytes s cx k r.src r.n))

/-- Rows of CPY (R265). -/
def cpyRows (dst src : DWord) (rows len sstr dstr : Nat) : List Row :=
  (List.range rows).map fun j => { dst := dst + BitVec.ofNat 64 (j * dstr), src := src + BitVec.ofNat 64 (j * sstr), n := len }

/-- Rows of GATH, from its list (R266). -/
def listRows (dst : DWord) (row count stride : Nat) (list : List Byte) : List Row :=
  (List.range count).map fun j =>
    { dst := dst + BitVec.ofNat 64 (j * row)
      src := BitVec.ofNat 64 (fieldAt list 0 8) + BitVec.ofNat 64 (fieldAt list (8 + 4 * j) 4 * stride), n := row }

/-- The sectors of a shadow that a PUBLISH publishes (R271, R272). -/
def shadowOf (s : State) (k : Cmd) (key : DWord) : List ShadowSector :=
  s.shadows.filter fun x => x.ctx == k.ctx && x.ver == k.ver && x.key == key

/-- What a PUBLISH writes, when it keeps in the sectors that `keep` chooses the stores made since its copy issued (R240). -/
def pubWrites (s : State) (cx : Context) (k : Cmd) (key : DWord) (keep : Nat → Bool) : List (DWord × List Byte) :=
  ((List.range (shadowOf s k key).length).zip (shadowOf s k key)).map fun (j, x) =>
    (x.va, (List.range 128).map fun i =>
      if keep j && x.written.contains i then (s.seen (k.keys cx) x.loc 128).getD i 0 else x.bytes.getD i 0)

end Sys2Proof.Machine

/-- The copy engine's commands, without shadow and with their ranges in this device: CPY and GATH leave their rows, laid out as
their swizzle says, and the number of bytes in the token; a CPYT copy leaves its bytes and zeros and counts down its tag; CTAG's
token takes the bytes of its epoch once every copy of it has ended; PUBLISH makes its shadow's sectors visible, each with all the
stores made since its copy issued or with none (R261, R265 to R268, R240, R272). Where a command need not see a write it returns, byte
by byte, what it would see with or without it, and what it writes there may stand under that write (R225, R288). -/
def Obligations.CopyEngineCompletes : Prop :=
  (∀ (s : State) (k : Cmd) (cx : Context) (dst src : DWord) (rows len sstr dstr : Nat) (swz : BitVec 2), Working s k cx → s.Whole →
    k.op = .cpy dst src rows len sstr dstr swz false →
    let rs := cpyRows dst src rows len sstr dstr
    (∀ r ∈ rs, EngReads s cx k r.src r.n) → EngWrites s cx k (rowWrites s cx k swz rs) → Apart rs →
    (swz = 1 ∨ swz = 2 → len % 1024 = 0) →
      ∃ t, exec .cpyComplete s = .next t ∧ CmdDone s t k (BitVec.ofNat 32 (rows * len)) ∧
        Written s t (k.keys cx) (placed s cx k (rowWrites s cx k swz rs))) ∧
  (∀ (s : State) (k : Cmd) (cx : Context) (dst list : DWord) (row count stride : Nat) (swz : BitVec 2), Working s k cx → s.Whole →
    k.op = .gath dst list row count stride swz false → EngReads s cx k list (8 + 4 * count) →
    let rs := listRows dst row count stride (engBytes s cx k list (8 + 4 * count))
    (∀ r ∈ rs, EngReads s cx k r.src r.n ∧ r.src.toNat % 16 = 0) → EngWrites s cx k (rowWrites s cx k swz rs) → Apart rs →
    (swz = 1 ∨ swz = 2 → dst.toNat % 1024 = 0 ∧ row % 1024 = 0) →
      ∃ t, exec .gathComplete s = .next t ∧ CmdDone s t k (BitVec.ofNat 32 (count * row)) ∧
        Written s t (k.keys cx) (placed s cx k (rowWrites s cx k swz rs))) ∧
  (∀ (s : State) (k : Cmd) (cx : Context) (dst src : DWord) (n tag epoch id : Nat) (slot : Fin 32) (tr : Tray) (e : Epoch),
    Working s k cx → s.Whole → k.op = .cpyt dst src n slot tag epoch → k.owner = .tray id → s.tray? id = some tr → tag < 4 →
    s.epochs.find? (fun x => x.tray == id && x.tag == tag && x.epoch == epoch) = some e →
    let ws := [(dst, engBytes s cx k src n ++ List.replicate (32 - n) 0)]
    n ≤ 32 → EngReads s cx k src n → EngWrites s cx k ws →
      ∃ t tr', exec .cpytCopyComplete s = .next t ∧ t.cmds = s.cmds.filter (fun x => x.id != k.id) ∧
        Written s t (k.keys cx) (placed s cx k ws) ∧ t.tray? id = some tr' ∧
        (∀ x, tr.tags[tag]? = some x → tr'.tags[tag]? = some { x with count := x.count - 1 }) ∧
        t.epochs.find? (fun x => x.tray == id && x.tag == tag && x.epoch == epoch) =
          some { e with left := e.left - 1, bytes := e.bytes + n } ∧ ∀ o r, t.held o r = s.held o r) ∧
  (∀ (s : State) (k : Cmd) (cx : Context) (id tag epoch : Nat) (e : Epoch), Working s k cx → k.op = .ctag tag epoch →
    k.owner = .tray id → s.epochs.find? (fun x => x.tray == id && x.tag == tag && x.epoch == epoch) = some e → e.left = 0 →
      ∃ t, exec .ctagToken s = .next t ∧ CmdDone s t k
        (if e.cancelled = true then 0xC0000000 else if e.cause ≠ 0 then BitVec.ofNat 32 (0x80000000 + e.cause) else BitVec.ofNat 32 e.bytes) ∧
        SameBytes s t) ∧
  (∀ (s : State) (k : Cmd) (cx : Context) (key : DWord) (waits : List Nat), Working s k cx → s.Whole → k.op = .publish key waits →
    (∀ w ∈ waits, ∀ j ∈ s.cmds, j.id ≠ w) →
    (∀ x ∈ shadowOf s k key, x.bytes.length = 128 ∧ x.va.toNat % 128 = 0) → EngWrites s cx k (pubWrites s cx k key fun _ => false) →
      ∃ t keep, exec .publishInstant s = .next t ∧ CmdDone s t k (BitVec.ofNat 32 (128 * (shadowOf s k key).length)) ∧
        Written s t (k.keys cx) (placed s cx k (pubWrites s cx k key keep)) ∧
        t.shadows = s.shadows.filter fun x => !(x.ctx == k.ctx && x.ver == k.ver && x.key == key)) ∧
  (∀ (s : State) (cx : Context) (k : Cmd) (va : DWord) (n : Nat) (weight : Bool) (l : Loc) (a : Attr),
    s.engResolve cx k .read va = .ok l a → (∀ d o, l ≠ .peer d o) → a.kv = false →
      ∃ bs, s.pull cx k va n weight = .bytes bs ∧ Returned s (k.keys cx) (.cmd k.id) l n bs) ∧
  ∀ (s : State) (cx : Context) (k : Cmd) (va : DWord) (l : Loc) (a : Attr) (bytes : List Byte), s.Whole →
    s.engResolve cx k .engineWrite va = .ok l a → (∀ d o, l ≠ .peer d o) → a.kv = false →
    (a.vers = true ∨ ∀ q ∈ k.keys cx, ∀ g ∈ l.sectors bytes.length, s.vline? q g = none) →
      ∀ i < bytes.length,
        ((s.push cx k va bytes).1.byteSeen (k.keys cx) (l.add i) = bytes.getD i 0) ∨
        ((s.push cx k va bytes).1.byteSeen (k.keys cx) (l.add i) = s.byteSeen (k.keys cx) (l.add i) ∧
          ∃ e ∈ s.past, e.key = (if a.vers = true then (k.keys cx).head? else none) ∧ (e.at? (l.add i)).isSome = true ∧
            missedBy e.unseen (.cmd k.id) = true)

namespace Sys2Proof.Machine

/-- The bytes of a matrix operand, read in linear order under its swizzle (R263). -/
def linBytes (s : State) (cx : Context) (k : Cmd) (swz : BitVec 2) (va : DWord) (n : Nat) : List Byte :=
  (linSpans swz true va n).flatMap fun x => engBytes s cx k x.va x.n

/-- A matrix operand can be read: its chunks are at hand and no line's tag speaks against its swizzle (R263). -/
def LinReads (s : State) (cx : Context) (k : Cmd) (swz : BitVec 2) (weight : Bool) (va : DWord) (n : Nat) : Prop :=
  (∀ x ∈ linSpans swz weight va n, EngReads s cx k x.va x.n) ∧ s.badTag cx k swz weight va n = none

/-- A matrix command is the first of its array, whose holder issued it, and no ACCCLR stands behind it (R273). -/
def ItsTurn (s : State) (k : Cmd) (num : Nat) : Prop :=
  (s.array k.bench num).holder = some k.team ∧ s.firstOn k.bench num = some k ∧
    ∀ j ∈ s.onArray k.bench num, ∀ n f c, j.op ≠ .accclr n f c

/-- The bytes of a row of activations (R275). -/
def rowLen (x : Ctl) : Nat := x.k * fmtBits x.afmt / 8

/-- The rows of activations that a step streams can be read (R263, R275, R280). -/
def RowsRead (s : State) (cx : Context) (k : Cmd) (x : Ctl) (y : Shape4) (va : DWord) (rows : List Stream) : Prop :=
  ∀ r ∈ rows, LinReads s cx k y.aswz false (va + BitVec.ofNat 64 (r.act * rowLen x)) (rowLen x)

/-- The activations that a step streams. -/
def rowsOf (s : State) (cx : Context) (k : Cmd) (x : Ctl) (y : Shape4) (va : DWord) (rows : List Stream) : List Byte :=
  rows.flatMap fun r => linBytes s cx k y.aswz (va + BitVec.ofNat 64 (r.act * rowLen x)) (rowLen x)

/-- An array after a step, its rows in the queue after the last one of a FINAL command (R279, R284). -/
def stepped (a : ArrayState) (x : Ctl) (i : Nat) (start last : Bool) (plane : List Byte) (rows : List Stream) (acts : List Byte) :
    ArrayState :=
  let b := a.step x i start plane rows acts
  if last && x.fin_ then { b with queue := b.queue ++ rows.map (·.ar) } else b

end Sys2Proof.Machine

/-- The matrix arrays' commands at their turn, with their operands at hand: MWLD loads the shadow plane; MSTR swaps in a newly
loaded plane and streams one step through a plane of its own fields, and answers 0x80000100 to another; MLOOP loads, swaps and
steps, and its last step gives N; SCPY writes the scale memory; ACCPOP takes the row at the head of the queue (R273, R276, R279,
R283, R284, R286). -/
def Obligations.MatrixArraysStep : Prop :=
  (∀ (s : State) (k : Cmd) (cx : Context) (num : Nat) (va : DWord) (ctl s4 : Word), Working s k cx → k.op = .mwld num va ctl s4 →
    ItsTurn s k num →
    let x := ctlOf ctl
    let y := shape4Of s4
    let n := x.k * 128 * fmtBits x.wfmt / 8
    LinReads s cx k y.wswz true va n →
      ∃ t, exec .mwldComplete s = .next t ∧ CmdDone s t k (BitVec.ofNat 32 n) ∧ SameBytes s t ∧
        t.array k.bench num = { s.array k.bench num with shadow := some (x.plane y (linBytes s cx k y.wswz va n)) }) ∧
  (∀ (s : State) (k : Cmd) (cx : Context) (num : Nat) (va : DWord) (ctl s4 : Word) (shape : Option (List (Nat × Nat))),
    Working s k cx → k.op = .mstr num va ctl s4 shape → ItsTurn s k num →
    let x := ctlOf ctl
    let y := shape4Of s4
    let a := match (s.array k.bench num).shadow with
      | some pl => { s.array k.bench num with active := some pl, shadow := none }
      | none => s.array k.bench num
    let rows := streamRows x y.m shape
    (∀ pl, a.active = some pl → pl = x.plane y pl.data → (∀ r ∈ rows, r.ar ∉ a.queue) → RowsRead s cx k x y va rows →
      ∃ t, exec .mstrStep s = .next t ∧ CmdDone s t k (BitVec.ofNat 32 y.m) ∧ SameBytes s t ∧
        t.array k.bench num = stepped a x 0 (!x.acc) true pl.data rows (rowsOf s cx k x y va rows)) ∧
    ((∀ pl, a.active = some pl → pl ≠ x.plane y pl.data) →
      ∃ t, exec .mstrStep s = .next t ∧ CmdDone s t k 0x80000100 ∧ SameBytes s t ∧ t.array k.bench num = a)) ∧
  (∀ (s : State) (k : Cmd) (cx : Context) (num : Nat) (blk : List Word) (shape : Option (List (Nat × Nat))), Working s k cx →
    k.op = .mloop num blk shape → ItsTurn s k num →
    let w (i : Nat) : Word := blk.getD i 0
    let x := ctlOf (w 7)
    let y := shape4Of (w 4)
    let act := dword (w 0) (w 1) + BitVec.ofNat 64 k.steps * (w 5).signExtend 64
    let wt := dword (w 2) (w 3) + BitVec.ofNat 64 k.steps * (w 6).signExtend 64
    let n := x.k * 128 * fmtBits x.wfmt / 8
    let rows := streamRows x y.m shape
    let plane := linBytes s cx k y.wswz wt n
    (∀ r ∈ rows, r.ar ∉ (s.array k.bench num).queue) → LinReads s cx k y.wswz true wt n → RowsRead s cx k x y act rows →
      ∃ t, exec .mloopStep s = .next t ∧ SameBytes s t ∧
        t.array k.bench num = stepped { s.array k.bench num with active := some (x.plane y plane), shadow := none } x k.steps
          (k.steps == 0 && !x.acc) (k.steps + 1 == y.n) plane rows (rowsOf s cx k x y act rows) ∧
        (k.steps + 1 = y.n → CmdDone s t k (BitVec.ofNat 32 y.n)) ∧
        (k.steps + 1 ≠ y.n → (∀ o r, t.held o r = s.held o r) ∧
          t.cmds = s.cmds.map fun j => if j.id = k.id then { j with steps := k.steps + 1, got := [] } else j)) ∧
  (∀ (s : State) (k : Cmd) (cx : Context) (num first count : Nat) (va : DWord), Working s k cx → s.Whole → k.op = .scpy num va first count →
    ItsTurn s k num → EngReads s cx k va (4 * count) →
      ∃ t, exec .scpyComplete s = .next t ∧ CmdDone s t k (BitVec.ofNat 32 (4 * count)) ∧ SameBytes s t ∧
        ∀ i, Sparse.get 0 (t.array k.bench num).scale i =
          if first ≤ i ∧ i < first + count then
            BitVec.ofNat 32 (leNat (((engBytes s cx k va (4 * count)).drop (4 * (i - first))).take 4))
          else Sparse.get 0 (s.array k.bench num).scale i) ∧
  ∀ (s : State) (k : Cmd) (cx : Context) (num ar : Nat) (mask : BitVec 32) (regs : Slots (List RegName)) (rest : List Nat),
    Working s k cx → k.op = .accpop num mask regs → (s.array k.bench num).holder = some k.team →
    (s.array k.bench num).queue = ar :: rest → (∀ j, s.firstOn k.bench num = some j → ∀ n f c, j.op ≠ .accclr n f c) →
    (s.onArray k.bench num).find? (fun j => j.op.isPop && j.team == k.team) = some k →
    (∀ u ∈ maskSlots mask, ∀ r ∈ regs[u], s.has k.owner r = true) →
      let ws := (maskSlots mask).flatMap fun u => ((List.range 4).zip regs[u]).map fun x =>
        ({ reg := x.2, val := (Sparse.get [] (s.array k.bench num).acc (4 * ar + (4 * u.val + x.1) / 32)).getD ((4 * u.val + x.1) % 32) 0,
           hi := 0 } : RegWrite)
      ∃ t, exec .accpopFill s = .next t ∧ RegsAfter s t k.owner ws ∧ SamePreds s t ∧ SameBytes s t ∧
        t.cmds = s.cmds.filter (fun x => x.id != k.id) ∧ t.array k.bench num = { s.array k.bench num with queue := rest }

namespace Sys2Proof.Machine

/-- The pages that a KVLD wants, ascending, with what it finds of each (R301). -/
def pagesFound (s : State) (cx : Context) (k : Cmd) (d : KvDesc) (ws : List Want) : List (Nat × PageState) :=
  ((List.range (wantedPages ws).length).zip (wantedPages ws)).map fun (j, pg) => (pg, s.pageState cx k d ws j pg)

/-- The payload of position i of a KVLD's tile, when it is wanted and live and its page is good (R300, R301). -/
def kvRow (s : State) (cx : Context) (k : Cmd) (d : KvDesc) (ws : List Want) (i : Nat) : Option (List Byte) :=
  (ws.find? fun w => w.i == i && (pagesFound s cx k d ws).contains (pageOf w.row, .good)).bind (s.livePayload cx k d)

/-- The tile that KVLD leaves: 16 rows of BF16 elements, zeros where a position is not live, not wanted or masked (R300, R301). -/
def kvTile (s : State) (cx : Context) (k : Cmd) (d : KvDesc) (ws : List Want) : List Byte :=
  (List.range 16).flatMap fun i => match kvRow s cx k d ws i with
    | some pay => (d.decodeRow pay).flatMap (leBytes 2)
    | none => List.replicate (2 * d.hdim) 0

/-- The position mask of KVLD's token (R300, R301). -/
def kvMask (s : State) (cx : Context) (k : Cmd) (d : KvDesc) (ws : List Want) : Nat :=
  ((List.range 16).map fun i => if (kvRow s cx k d ws i).isSome then 2 ^ i else 0).sum

/-- A page takes a record: it is absent, or becomes quarantined (R301). -/
def recorded : PageState → Bool
  | .absent | .spoiled _ => true
  | _ => false

/-- The bytes that quarantine a KVLD's spoiled pages, with their reasons (R295, R301, R302). -/
def quarantines (s : State) (cx : Context) (k : Cmd) (found : List (Nat × PageState)) : List (Loc × List Byte) :=
  found.filterMap fun x => match x.2, s.engResolve cx k .read (BitVec.ofNat 64 (x.1 * 65536)) with
    | .spoiled r, .ok l _ => some (l.page.add 65480, [BitVec.ofNat 8 (1 + 2 * r)])
    | _, _ => none

/-- What a KVLD that met absent pages leaves in its descriptor's APPROXCNT, which stays where it may not write it (R291, R301); memory
is seen as the quarantines leave it. -/
def approxWrite (s : State) (cx : Context) (k : Cmd) (desc : DWord) (gone : Nat) (qs : List (Loc × List Byte)) : List (Loc × List Byte) :=
  match s.engResolve cx k .engineWrite (desc + 0x44) with
  | .ok e b =>
    if gone = 0 ∨ s.lineFull cx (k.keys cx) e b = true then []
    else
      let old := leNat ((List.range 4).map fun i => qs.foldl (fun m p => overlay m p.1 p.2) (s.byteSeen (k.keys cx)) (e.add i))
      [(e, leBytes 4 (min (old + gone) 0xFFFFFFFF))]
  | _ => []

/-- A context's fault records and control block stand in pinned ranges, or at no place of this device, whatever memory holds. -/
def RecordsPinned (s : State) (cx : Context) : Prop :=
  0 < cx.fcCap ∧ ∀ (m : Memory) (cs : List LineCopy) (va : Nat), cs = s.copies ∨ cs = [] →
    (cx.fcBase.toNat ≤ va ∧ va < cx.fcBase.toNat + 64 * cx.fcCap) ∨ (cx.ccb.toNat ≤ va ∧ va < cx.ccb.toNat + 64) →
      ∀ l a, ({ s with mem := m, copies := cs } : State).resolve cx 0 0 none .read (BitVec.ofNat 64 va) = .ok l a →
        (∃ i o, l = .pin i o) ∨ ∃ d o, l = .peer d o

/-- A command meets a cause of its engine: it is held for a trap, or abandoned, which it is where nothing would take the trap (R179). -/
def EngFault (s t : State) (k : Cmd) (cx : Context) (code : Nat) (addr : DWord) : Prop :=
  (t.cmds = s.cmds.map (fun j => if j.id = k.id then
      { j with state := .held code addr 0 false, met := s.time, tags := [], got := [] } else j) ∧
    (∀ o r, t.held o r = s.held o r) ∧ SameBytes s t ∧ (∃ id, k.owner = .tray id) ∧ cx.trapPc ≠ 0) ∨
  (t.cmds = s.cmds.filter (fun x => x.id != k.id) ∧
    RegsAfter s t k.owner (tokenWrites k (BitVec.ofNat 32 (0x80000000 + code))) ∧ ∃ cx', t.ctx? k.ctx = some cx' ∧
      cx'.sticky = cx.sticky ||| 1#26 <<< (code - 1) ∧ cx'.fcHead + cx'.fcLost = cx.fcHead + cx.fcLost + 1)

end Sys2Proof.Machine

/-- KVLD leaves the tile of the positions that are live on good pages and their mask; a page is masked when it is absent, quarantined
or spoiled, with its bit of APPROX, its record, the count of absent pages in APPROXCNT, and the quarantine with its reason (R301 to
R303). KVST writes its row, its page's CRC and the descriptor's LEN, which stays 0xFFFFFFFF at the last position (log 126); it answers
0x80000500 to a quarantined page, and a page that is no KV page or may not be written is cause 0x08 or 0x09. Each answers 0x80000400
to a descriptor or selector that is not valid, and KVST 0x80000300 to another version and 0x80000200 to a position beyond LEN (R257,
R291, R293 to R295, R300, R304, R305). -/
def Obligations.KvEngineCompletes : Prop :=
  (∀ (s : State) (k : Cmd) (cx : Context) (desc tile : DWord) (pos sel : Word), Working s k cx → s.Whole →
    k.op = .kvld desc tile pos sel → EngReads s cx k desc 128 → desc.toNat % 128 = 0 →
    let d := KvDesc.of (engBytes s cx k desc 128)
    let ws := d.wanted sel pos
    let found := pagesFound s cx k d ws
    let gone := (found.filter fun x => x.2 == .absent).length
    let bad := found.any fun x => match x.2 with | .quarantined | .spoiled _ => true | _ => false
    let marks := (found.filter fun x => recorded x.2).length
    let qs := quarantines s cx k found
    let out := qs ++ approxWrite s cx k desc gone qs ++ placed s cx k [(tile, kvTile s cx k d ws)]
    ((d.valid = false ∨ d.selects sel = false) →
      ∃ t, exec .kvldComplete s = .next t ∧ CmdDone s t k 0x80000400 ∧ SameBytes s t) ∧
    (d.valid = true → d.selects sel = true → (∀ x ∈ found, ∀ e, x.2 ≠ .cause e) → EngWrites s cx k [(tile, kvTile s cx k d ws)] →
      Steady s cx k ((desc + 0x44) :: ws.map (·.row) ++ found.map (fun x => BitVec.ofNat 64 (x.1 * 65536)) ++
        writeVas [(tile, kvTile s cx k d ws)]) out →
      (∀ x ∈ found, ∀ r, x.2 = .spoiled r →
        ∃ l a, s.engResolve cx k .read (BitVec.ofNat 64 (x.1 * 65536)) = .ok l a ∧ (a.vers = true ∨ k.keys cx = [])) →
      (0 < gone → s.engResolve cx k .engineWrite (desc + 0x44) ≠ .wait ∧
        ∀ e b, s.engResolve cx k .engineWrite (desc + 0x44) = .ok e b → (∀ i o, e ≠ .pin i o) ∧ ∀ p o, e ≠ .peer p o) →
      (0 < marks → RecordsPinned s cx) →
        ∃ t cx', exec .kvldComplete s = .next t ∧ t.cmds = s.cmds.filter (fun x => x.id != k.id) ∧
          RegsAfter s t k.owner (tokenWrites k (BitVec.ofNat 32 (kvMask s cx k d ws))) ∧ SamePreds s t ∧
          (∀ l, (0 < marks → ∀ i o, l ≠ .pin i o) →
            t.byteSeen (k.keys cx) l = out.foldl (fun m p => overlay m p.1 p.2) (s.byteSeen (k.keys cx)) l) ∧
          t.ctx? k.ctx = some cx' ∧
          cx'.approx = cx.approx ||| (if 0 < gone then 4 else 0) ||| (if bad = true then 8 else 0) ∧
          cx'.sticky = cx.sticky ||| (if (found.any fun x => x.2 == .spoiled 1) = true then 1#26 <<< 12 else 0) |||
            (if (found.any fun x => x.2 == .spoiled 2) = true then 1#26 <<< 13 else 0) ∧
          cx'.fcHead + cx'.fcLost = cx.fcHead + cx.fcLost + BitVec.ofNat 64 marks ∧
          (gone = 0 → bad = false → CmdDone s t k (BitVec.ofNat 32 (kvMask s cx k d ws))))) ∧
  (∀ (s : State) (cx : Context) (k : Cmd) (d : KvDesc) (ws : List Want) (j pg : Nat),
    let va := BitVec.ofNat 64 (pg * 65536)
    let a := va.toNat
    let e1 := s.tableWord (frameOf (s.tableWord (cx.root + a / 2 ^ 38 % 2 ^ 18 * 8)) * 65536 + a / 2 ^ 25 % 2 ^ 13 * 8)
    (a / 2 ^ 48 < 2 ^ 8 → a / 2 ^ 48 ≠ 0xF0 → s.homeFor cx.id a = none → s.allocFor cx k.ver a = none →
      pointerOk (s.tableWord (cx.root + a / 2 ^ 38 % 2 ^ 18 * 8)) = true →
      (e1.getLsbD 52 = true ∧ e1.getLsbD 0 = false ∨ e1.getLsbD 52 = false ∧ pointerOk e1 = true ∧
        (s.tableWord (frameOf e1 * 65536 + a / 2 ^ 16 % 2 ^ 9 * 8)).getLsbD 0 = false) →
          s.pageState cx k d ws j pg = .absent) ∧
    (s.leafAbsent cx k.ver va = false →
      (∀ code, s.engResolve cx k .read va = .fault code → s.pageState cx k d ws j pg = .cause { code := code, addr := va }) ∧
      ∀ l b, s.engResolve cx k .read va = .ok l b →
        (b.kv = false → s.pageState cx k d ws j pg = .cause { code := 0x08, addr := va }) ∧
        (b.kv = true →
          let quar := (s.byteSeen (k.keys cx) (l.page.add 65480)).getLsbD 0
          let sound := crc64 (s.seen (k.keys cx) l.page 65472) = leNat (s.seen (k.keys cx) (l.page.add 65472) 8)
          let odd := ∃ w ∈ ws, pageOf w.row = pg ∧ ∃ pay, s.livePayload cx k d w = some pay ∧
            ∃ x ∈ d.decodeRow pay, x / 128 % 256 = 255
          (quar = true → s.pageState cx k d ws j pg = .quarantined) ∧
          (quar = false → ¬sound → (l.page.off / 65536, VKey.here k.ctx k.ver) ∉ s.promoted → s.pageState cx k d ws j pg = .spoiled 2) ∧
          (quar = false → sound → odd → s.pageState cx k d ws j pg = .spoiled 1) ∧
          (quar = false → sound → ¬odd → s.pageState cx k d ws j pg = .good)))) ∧
  ∀ (s : State) (k : Cmd) (cx : Context) (desc src : DWord) (pos sel : Word), Working s k cx → s.Whole →
    k.op = .kvst desc src pos sel → EngReads s cx k desc 128 → desc.toNat % 128 = 0 →
    let d := KvDesc.of (engBytes s cx k desc 128)
    let g := BitVec.ofNat 16 d.ver
    let row := d.row sel pos.toNat
    ((d.valid = false ∨ d.selects sel = false) →
      ∃ t, exec .kvstComplete s = .next t ∧ CmdDone s t k 0x80000400 ∧ SameBytes s t) ∧
    (d.valid = true → d.selects sel = true → d.ver ≠ 0 → g ≠ cx.gid s.devNo k.ver →
      ∃ t, exec .kvstComplete s = .next t ∧ CmdDone s t k 0x80000300 ∧ SameBytes s t) ∧
    (d.valid = true → d.selects sel = true → (d.ver = 0 ∨ g = cx.gid s.devNo k.ver) → d.len < pos.toNat →
      ∃ t, exec .kvstComplete s = .next t ∧ CmdDone s t k 0x80000200 ∧ SameBytes s t) ∧
    (∀ (l : Loc) (a : Attr), d.valid = true → d.selects sel = true → (d.ver = 0 ∨ g = cx.gid s.devNo k.ver) → pos.toNat ≤ d.len →
      Steady s cx k [row, desc + 0x3C] [] → s.engResolve cx k .read row = .ok l a →
        (a.kv = false → ∃ t, exec .kvstComplete s = .next t ∧ EngFault s t k cx 0x08 row) ∧
        (a.kv = true → (a.w = false ∨ k.ver ≠ 0 ∧ a.vers = false) →
          ∃ t, exec .kvstComplete s = .next t ∧ EngFault s t k cx 0x09 row) ∧
        (a.kv = true → a.w = true → (k.ver = 0 ∨ a.vers = true) →
          (∃ code, s.engResolve cx k .engineWrite (desc + 0x3C) = .fault code) →
            ∃ t, exec .kvstComplete s = .next t ∧ EngFault s t k cx 0x09 desc)) ∧
    ∀ (l e : Loc) (a b : Attr), d.valid = true → d.selects sel = true → (d.ver = 0 ∨ g = cx.gid s.devNo k.ver) → pos.toNat ≤ d.len →
      s.engResolve cx k .read row = .ok l a → s.engResolve cx k .engineWrite row = .ok l a → (∀ p o, l ≠ .peer p o) → a.kv = true →
      s.engResolve cx k .engineWrite (desc + 0x3C) = .ok e b → (∀ p o, e ≠ .peer p o) → b.kv = false →
      s.lineFull cx (k.keys cx) e b = false →
      ((∀ i < 4, ∀ j < 65536, e.add i ≠ l.page.add j) →
        Steady s cx k (row :: (desc + 0x3C) :: writeVas [(row, List.replicate d.rowb 0), (src, List.replicate (d.rowb - 16) 0)])
          [(l.page, List.replicate 65536 0)] →
        (s.byteSeen (k.keys cx) (l.page.add 65480)).getLsbD 0 = false →
        (leNat (s.seen (k.keys cx) l 4) < 2 ^ 31 ∨ leNat (s.seen (k.keys cx) l 4) - 2 ^ 31 ≤ (d.place pos.toNat).2) →
        (∀ y ∈ pieces row d.rowb, ∃ m, s.engResolve cx k .engineWrite y.1 = .ok m a) →
        s.lineless cx (k.keys cx) (engPlaces s cx k [(row, List.replicate d.rowb 0)]) = [] →
        EngReads s cx k src (d.rowb - 16) →
        let pay := (engBytes s cx k src (d.rowb - 16)).take d.payload ++ List.replicate (d.rowb - 16 - d.payload) 0
        let bytes := leBytes 4 (2 ^ 31 + (d.place pos.toNat).2) ++ List.replicate 12 0 ++ pay
        let after := overlay (s.byteSeen (k.keys cx)) l bytes
        let crc := crc64 ((List.range 65472).map fun i => after (l.page.add i))
        ∃ t, exec .kvstComplete s = .next t ∧ CmdDone s t k (BitVec.ofNat 32 d.rowb) ∧
          Written s t (k.keys cx)
            [(l, bytes), (l.page.add 65472, leBytes 8 crc),
              (e, leBytes 4 (max (leNat (s.seen (k.keys cx) e 4)) (min (pos.toNat + 1) 0xFFFFFFFF)))]) ∧
      (Steady s cx k [row, desc + 0x3C] [] →
        ((s.byteSeen (k.keys cx) (l.page.add 65480)).getLsbD 0 = true →
          ∃ t, exec .kvstComplete s = .next t ∧ CmdDone s t k 0x80000500 ∧ SameBytes s t) ∧
        ((s.byteSeen (k.keys cx) (l.page.add 65480)).getLsbD 0 = false → 2 ^ 31 ≤ leNat (s.seen (k.keys cx) l 4) →
          (d.place pos.toNat).2 < leNat (s.seen (k.keys cx) l 4) - 2 ^ 31 →
            ∃ t, exec .kvstComplete s = .next t ∧ CmdDone s t k 0x80000200 ∧ SameBytes s t))

namespace Sys2Proof.Machine

/-- The carousel command that the event names is at its station, and the car there is the next that the dwell serves it with
(R211, R216). -/
structure AtStation (s : State) (k : Cmd) (cx : Context) (n : Nat) : Prop where
  cmd : s.cmd? s.input.id = some k
  ctx : s.ctx? k.ctx = some cx
  car : s.dwelling k.die = some n
  turn : s.serving k = true
  token : k.token ≠ .none → s.has k.owner k.token = true

/-- A carousel command waits at its station from now on, with its place in the order of registration; one that follows a service of
the present dwell does not count it (R211, R256). -/
def Registers (s t : State) (k : Cmd) (dwells : Nat) (data : List Byte) (swz : BitVec 32) : Prop :=
  let n := if k.chained = true ∧ k.since = s.clk then 0 else dwells
  t.cmds = s.cmds.map (fun j => if j.id = k.id then
      { j with state := .registered s.nextId n, tags := [], got := [], data := data, swz := swz } else j) ∧
    t.nextId = s.nextId + 1 ∧ t.ring = s.ring ∧ (∀ o r, t.held o r = s.held o r) ∧ SameBytes s t

/-- The car that a tile becomes (R207, R212). -/
def boarded (s : State) (k : Cmd) (cx : Context) (name : Word) (n : Nat) : Car :=
  { num := n, name := name, owner := k.ctx, part := cx.part, gen := 1, swz := k.swz, crc := BitVec.ofNat 32 (crc32c k.data),
    data := k.data, boarded := s.clk, doomed := false }

/-- The lines of a tile's source go where they did (R212). -/
def TileSteady (s : State) (cx : Context) (k : Cmd) (src : DWord) : Prop :=
  Steady s cx k ((List.range 16).map fun i => src + BitVec.ofNat 64 (1024 * i)) []

/-- The writes of a tile's sectors (R223). -/
def tileWrites (dst : DWord) (data : List Byte) (secs : List Nat) : List (DWord × List Byte) :=
  secs.map fun i => (dst + BitVec.ofNat 64 (128 * i), (data.drop (128 * i)).take 128)

/-- The cars that a partition holds have reached its quota (R208, R212). -/
def QuotaFull (s : State) (part : Nat) : Prop :=
  (match s.part? part with | some p => p.carq | none => 0) ≤ (s.ring.cars.filter fun c => c.part = part).length

end Sys2Proof.Machine

/-- The carousel: a car stands one position further after each advance, which takes 8 clk; a command registers at its station
with the tile it read; BOARD loads a free car or answers that the name is there or the quota full; RPLC renews a car with the
next generation, CATCH latches its tile, of which some sectors may be written at once, and leaves the others with its generation (R223),
ALIGHT frees it; a car whose contents fail their check stops its context with cause 0x13; a command that no dwell served answers so;
none is served in the dwell whose service it follows (R4, R207, R208, R210 to R214, R216, R180, R256). -/
def Obligations.CarouselTurnsAndServes : Prop :=
  (∀ (s : State) (d n : Nat), s.dwelling d = some n → s.stationPos d < s.ring.size →
    (n + s.ring.turn) % s.ring.size = s.stationPos d ∧ n < s.ring.count) ∧
  (∀ (s : State), s.dwellBusy = false → s.pollDue = false →
    ∃ t, exec .carAdvance s = .next t ∧ t.clk = s.clk + 8 ∧ t.timeU = s.timeU + 184504320 / s.pkg.clock ∧
      t.ring.turn = (s.ring.turn + 1) % s.ring.size ∧ t.ring.size = s.ring.size ∧ t.ring.count = s.ring.count ∧ t.ring.freed = [] ∧
      (∀ c, c ∈ t.ring.cars ↔ c ∈ s.ring.cars ∧
        ¬(c.doomed = true ∧ ∃ d < 4, d ∉ s.pkg.offline ∧ t.dwelling d = some c.num)) ∧
      t.cmds = s.cmds.map (fun k => match k.state with
        | .registered o d => { k with state := .registered o (d + 1) }
        | _ => k) ∧
      t.past = s.past.filter (fun e => e.dwell = false) ∧
      { t with ring := s.ring, clk := s.clk, timeU := s.timeU, cmds := s.cmds, past := s.past } = s) ∧
  (∀ (s : State) (k : Cmd) (cx : Context), Working s k cx → k.gen = 0 → s.behind k = false →
    (∀ name src, k.op = .board name src → EngReads s cx k src 16384 → TileSteady s cx k src → ¬QuotaFull s cx.part →
      ∃ t, exec .stationRegister s = .next t ∧ Registers s t k 0 (engBytes s cx k src 16384) (s.tileTags cx k src)) ∧
    (∀ name src, k.op = .board name src → EngReads s cx k src 16384 → QuotaFull s cx.part →
      ∃ t, exec .stationRegister s = .next t ∧ CmdDone s t k 0x80000001) ∧
    (∀ name src, k.op = .rplc name src → EngReads s cx k src 16384 → TileSteady s cx k src →
      ∃ t, exec .stationRegister s = .next t ∧ Registers s t k 1 (engBytes s cx k src 16384) (s.tileTags cx k src)) ∧
    (((∃ name dst, k.op = .catchTile name dst) ∨ ∃ name, k.op = .alight name) → (∀ j ∈ s.cmds, j.id = k.id → j = k) →
      ∃ t, exec .stationRegister s = .next t ∧ Registers s t k 1 k.data k.swz)) ∧
  (∀ (s : State) (k : Cmd) (cx : Context) (n : Nat) (name : Word) (src : DWord), AtStation s k cx n → k.op = .board name src →
    let there := ∃ c ∈ s.ring.cars, c.name = name ∧ c.owner = k.ctx ∧ c.doomed = false
    (there → ∃ t, exec .boardLoad s = .next t ∧ CmdDone s t k 0x80000003 ∧ t.ring = s.ring) ∧
    (¬there → QuotaFull s cx.part → ∃ t, exec .boardLoad s = .next t ∧ CmdDone s t k 0x80000001 ∧ t.ring = s.ring) ∧
    (¬there → ¬QuotaFull s cx.part → ∃ t, exec .boardLoad s = .next t ∧ CmdDone s t k 1 ∧
      t.ring = { s.ring with cars := s.ring.cars ++ [boarded s k cx name n] })) ∧
  (∀ (s : State) (k : Cmd) (cx : Context) (n : Nat) (c : Car), AtStation s k cx n → s.ring.car? n = some c →
    (∀ name src, k.op = .rplc name src →
      let g := if c.gen = 0xFFFF then 1 else c.gen + 1
      ∃ t, exec .rplcServe s = .next t ∧ CmdDone s t k (BitVec.ofNat 32 g) ∧
        t.ring.car? n = some { c with gen := g, swz := k.swz, crc := BitVec.ofNat 32 (crc32c k.data), data := k.data } ∧
        t.ring.cars.filter (fun x => x.num != n) = s.ring.cars.filter fun x => x.num != n) ∧
    (∀ name, k.op = .alight name → ∃ t, exec .alightServe s = .next t ∧ t.cmds = s.cmds.filter (fun x => x.id != k.id) ∧
      t.ring.cars = s.ring.cars.filter (fun x => x.num != n) ∧ n ∈ t.ring.freed) ∧
    ∀ name dst, k.op = .catchTile name dst →
      let good := s.input.flag = false ∧ c.crc = BitVec.ofNat 32 (crc32c c.data)
      (good → s.Whole → c.data.length = 16384 → dst.toNat % 1024 = 0 → (∀ e ∈ s.past, missedBy e.unseen (.cmd k.id) = false) →
        EngWrites s cx k [(dst, c.data)] →
        ∃ t, exec .catchLatch s = .next t ∧ t.ring = s.ring ∧ (∀ o r, t.held o r = s.held o r) ∧
          t.cmds = s.cmds.map (fun j => if j.id = k.id then { k with data := c.data, swz := c.swz, gen := c.gen, state := .latched } else j) ∧
          Written s t (k.keys cx) (placed s cx k (tileWrites dst c.data (k.tileSectors true)))) ∧
      (¬good → cx.stopped = false → ∃ t x, exec .catchLatch s = .next t ∧ t.ctx? k.ctx = some x ∧ x.stopped = true ∧ x.stopCause = 0x13 ∧
        (∀ j ∈ t.cmds, j.ctx ≠ k.ctx) ∧ ∀ y ∈ t.ring.cars, y.num ≠ n)) ∧
  (∀ (s : State) (k : Cmd) (cx : Context) (name : Word) (dst : DWord), s.cmd? s.input.id = some k → s.ctx? k.ctx = some cx →
    k.op = .catchTile name dst → (k.state = .latched ∨ k.state = .queued ∧ k.gen ≠ 0) → s.Whole → k.data.length = 16384 →
    dst.toNat % 1024 = 0 → (k.token ≠ .none → s.has k.owner k.token = true) → (∀ e ∈ s.past, missedBy e.unseen (.cmd k.id) = false) →
    EngWrites s cx k [(dst, k.data)] →
      let secs := if k.state = .latched then k.tileSectors false else List.range 128
      (∀ i < 128, i ∈ k.tileSectors true ∨ i ∈ k.tileSectors false) ∧
      ∃ t, exec .catchLatch s = .next t ∧ CmdDone s t k (BitVec.ofNat 32 k.gen) ∧ t.ring = s.ring ∧
        Written s t (k.keys cx) (placed s cx k (tileWrites dst k.data secs))) ∧
  (∀ (s : State) (k : Cmd), k.chained = true → k.since = s.clk → s.servable k = false ∧ s.serving k = false) ∧
  ∀ (s : State) (k : Cmd) (o d : Nat), s.cmd? s.input.id = some k → k.state = .registered o d → s.ring.size < d →
    (k.token ≠ .none → s.has k.owner k.token = true) →
      ∃ t, exec .carouselNotServed s = .next t ∧
        CmdDone s t k (match k.op with | .board .. => 0x80000002 | _ => 0x80000000) ∧ t.ring = s.ring

namespace Sys2Proof.Machine

/-- Where eight bytes of a context's memory stand, in this device: writing them moves none of their addresses. -/
def WordAt (s : State) (c : Context) (va : Nat) (l : Loc) : Prop :=
  (∀ d o, l ≠ .peer d o) ∧
    ∀ m : Memory, (∀ x, m.read x ≠ s.mem.read x → ∃ i < 8, l.add i = .hbm x) → ∀ i < 8,
      ∃ a, ({ s with mem := m } : State).resolve c 0 0 none .read (BitVec.ofNat 64 (va + i)) = .ok (l.add i) a

/-- A chain forgets an item that ends, and NOTIFY signals the host (R333, R335, R384). -/
structure ItemLeaves (s t : State) (it : Item) : Prop where
  chains : t.sched.chains = s.sched.chains.map fun ch => if ch.num = it.chain then { ch with open_ := ch.open_.erase it.num } else ch
  told : t.outbox = s.outbox ++ if it.flags.getLsbD 1 then [Out.msix (it.chain / 4)] else []

/-- An item ends with a result word at its RESULT, and nothing starts or stops with it (R321, R333). -/
structure ItemEnds (s t : State) (it : Item) (w : DWord) : Prop where
  leaves : ItemLeaves s t it
  word : ∀ c l, s.Whole → s.ctx? (itemCtx it) = some c → it.result ≠ 0 → WordAt s c it.result.toNat l →
    ∀ i < 8, t.byteSeen [] (l.add i) = BitVec.ofNat 8 (w.toNat / 2 ^ (8 * i))
  rest : t.launches = s.launches ∧ t.ctxs = s.ctxs ∧ t.cmds = s.cmds ∧ t.sched.pifo = s.sched.pifo ∧ ∀ o r, t.held o r = s.held o r

/-- The PIFO entry of work, with the firmware's default rank, which holds while the slot for a rank program is empty (R338). -/
def entryOf (s : State) (w : Work) (prio deadline est : Nat) : PifoEntry :=
  { rank := (15 - min prio 15) * 2 ^ 28 + min (if deadline = 0 then 2 ^ 28 - 1 else (deadline - s.time) / 1000) (2 ^ 28 - 1)
    arrival := s.sched.arrivals, work := w, prio := prio, deadline := deadline, est := est }

/-- No range of HBM has its newest bytes in a tile store. -/
def Unpinned (s : State) : Prop := ∀ pa, s.physLoc pa = .hbm pa

/-- An entry of the PIFO for work: its rank is the default one, or what the program in the slot computes (R338). -/
def Queued (s : State) (e : PifoEntry) (w : Work) (prio deadline est : Nat) : Prop :=
  e = { entryOf s w prio deadline est with rank := e.rank } ∧ (s.sched.rankProg = none → e = entryOf s w prio deadline est)

/-- The entry of smallest rank among those of the PIFO's 4,096 that can be released, the oldest of equal ones (R338). -/
def Released (s : State) (e : PifoEntry) : Prop :=
  s.pkg.dead = false ∧ e ∈ s.sched.pifo.take 4096 ∧ s.eligible e = true ∧
    ∀ x ∈ s.sched.pifo.take 4096, s.eligible x = true → x = e ∨ e.rank < x.rank ∨ e.rank = x.rank ∧ e.arrival < x.arrival

/-- The state without an entry of the PIFO. -/
def State.popped (s : State) (e : PifoEntry) : State :=
  { s with sched := { s.sched with pifo := s.sched.pifo.filter fun x => x.arrival != e.arrival } }

/-- The item is late (R339). -/
def Late (s : State) (deadline est : Nat) : Prop := deadline ≠ 0 ∧ (deadline < s.time ∨ deadline < s.time + est)

end Sys2Proof.Machine

/-- Chains: a chain is registered with HEAD at its TAIL, or refused; a poll reads TAIL; a doorbell asks for it; an item that is
taken gets its number, moves TAKEN and enters the PIFO with its rank, or ends at once. The PIFO releases its smallest entry: an
item that is late ends with 02 and cause 0x17, any other starts (R332 to R335, R338, R339, R384). -/
def Obligations.ItemsAreTakenAndReleased : Prop :=
  (∀ (s : State) (ch : Chain), s.chain? s.input.id = some ch → s.canTake ch = true →
    let next := leNat (s.physRead ch.taken 8)
    let it := itemOf ch s.nextId (s.physRead next 64)
    next ≠ 0 → next % 64 = 0 → s.visible ch.part next 64 = true →
    (s.itemRefusal it = none → ∃ t e, exec .itemTake s = .next t ∧ t.sched.pifo = s.sched.pifo ++ [e] ∧
      Queued s e (.item it) (itemPrio it) it.deadline.toNat it.est.toNat ∧
      t.chain? ch.num = some { ch with taken := next, nextSeq := ch.nextSeq + 1, open_ := ch.open_ ++ [s.nextId] } ∧
      (s.Whole → Unpinned s → (ch.recAddr + 64 ≤ next ∨ next + 64 ≤ ch.recAddr) →
        t.mem.readN (next + 0x20) 4 = leBytes 4 ch.nextSeq.toNat ∧
        t.mem.readN (ch.recAddr + 8) 12 = leBytes 8 next ++ leBytes 4 (ch.nextSeq + 1).toNat)) ∧
    ∀ cause, s.itemRefusal it = some cause → ∃ t ch', exec .itemTake s = .next t ∧ t.sched.pifo = s.sched.pifo ∧
      t.chain? ch.num = some ch' ∧ ch'.taken = next ∧ ch'.nextSeq = ch.nextSeq + 1) ∧
  (∀ (s : State) (e : PifoEntry), Released s e →
    (∀ it, e.work = .item it → it.kind ≠ 2 → Late s it.deadline.toNat it.est.toNat →
      ∃ t, exec .pifoRelease s = .next t ∧
        ItemEnds ((s.popped e).record (itemCtx it) { cause := 0x17, info := true, d0 := it.seq.setWidth 64, d1 := it.deadline }) t it
          0x0200000000000017) ∧
    (∀ it, e.work = .item it → (it.kind = 2 ∨ ¬Late s it.deadline.toNat it.est.toNat) →
      exec .pifoRelease s = .next
        { s.popped e with agenda := .event (itemEvent it.kind.toNat) { Input.blank with item := it } :: s.agenda }) ∧
    (∀ id l, e.work = .launch id → s.launch? id = some l → ¬Late s l.deadline l.est → exec .pifoRelease s = .next (s.popped e)) ∧
    (∀ id l, e.work = .launch id → s.launch? id = some l → Late s l.deadline l.est →
      ∃ t, exec .pifoRelease s = .next t ∧ t.launch? id = none ∧ ∀ x ∈ t.sched.pifo, x.work ≠ .launch id) ∧
    ∀ id x u, e.work = .saved id → s.sched.saved.find? (fun x => x.id == id) = some x → (s.popped e).restore? x = some u →
      exec .pifoRelease s = .next u) ∧
  (∀ (s : State) (ch : Chain), s.chain? s.input.id = some ch → ch.active = true →
    ∃ t, exec .tailPoll s = .next t ∧ { t with sched := s.sched } = s ∧
      t.chain? ch.num = some { ch with tail := leNat (s.physRead ch.recAddr 8), polled := s.time, rung := false }) ∧
  (∀ (s : State), s.fnEnabled s.input.id = true → s.input.n < 4 → s.input.val.getLsbD 0 = true →
    let ch := s.slotOf s.input.id s.input.n
    let at_ := s.input.val.toNat / 64 * 64
    let bad := s.input.val.toNat / 2 % 32 ≠ 0 ∨ s.visible ch.part at_ 64 = false ∨ ∃ x ∈ s.sched.chains, x.active = true ∧ x.recAddr = at_
    ch.active = false →
    (bad → ∃ t, exec .chainRegister s = .next t ∧ t.chain? ch.num = some { ch with reg := s.input.val, refused := true } ∧ t.mem = s.mem) ∧
    (¬bad → ∃ t, exec .chainRegister s = .next t ∧
      t.chain? ch.num = some
        { ch with reg := s.input.val, active := true, refused := false, tail := leNat (s.physRead at_ 8), taken := leNat (s.physRead at_ 8),
                  nextSeq := 1, rung := false, polled := s.time, open_ := [] } ∧
      (s.Whole → Unpinned s → t.mem.readN (at_ + 8) 12 = s.mem.readN at_ 8 ++ [1, 0, 0, 0]))) ∧
  (∀ (s : State), s.fnEnabled s.input.id = true → s.input.n < 4 → s.input.val.getLsbD 0 = false →
    ∃ t, exec .chainRetire s = .next t ∧ { t with sched := s.sched } = s ∧
      t.chain? (s.slotOf s.input.id s.input.n).num =
        some { s.slotOf s.input.id s.input.n with reg := s.input.val, active := false, rung := false }) ∧
  ∀ (s : State), ∃ t, exec .doorbell s = .next t ∧ { t with sched := s.sched } = s ∧
    t.sched.chains = s.sched.chains.map fun ch =>
      if ch.fn = s.input.id ∧ ch.active = true ∧ ch.slot < 4 ∧ s.input.val.getLsbD ch.slot = true then { ch with rung := true } else ch

namespace Sys2Proof.Machine

/-- A launch record of a context that can be submitted in version 0 (R16, R17, R21, R22). -/
def Startable (s : State) (c : Context) (addr : DWord) (bs : List Byte) : Prop :=
  addr.toNat % 64 = 0 ∧ s.ctxRead c 0 addr.toNat 192 = some bs ∧ s.refusal c 0 (LaunchRec.of bs) = none

/-- A launch of a record for a work item: in version 0, with the item's priority, deadline, stream and role, its result meant for
a destination (R21, R323, R333, R334). -/
structure LaunchOf (l : Launch) (id : Nat) (c : Context) (addr : DWord) (bs : List Byte) (it : Item) (dest : Dest) : Prop where
  who : l.id = id ∧ l.ctx = c.id ∧ l.ver = 0 ∧ l.recAddr = addr ∧ l.dest = dest
  code : l.trayPc = BitVec.ofNat 64 (fieldAt bs 0 8) ∧ l.frontPc = BitVec.ofNat 64 (fieldAt bs 8 8) ∧ l.levels = (LaunchRec.of bs).levels
  item : l.itemPrio = itemPrio it ∧ l.deadline = it.deadline.toNat ∧ l.stream = itemStream it ∧ l.role = itemRole it ∧ l.seq = it.seq
  new : l.nextTeam = 0 ∧ l.endedTeams = 0 ∧ l.value = 0 ∧ l.cause = none

/-- No group of a node but one waits for its lists or uses them, and ids are unique (R341). -/
def OnlyGroup (s : State) (x : Group) : Prop :=
  x ∈ s.sched.groups ∧ x.closed = false ∧ x.launched = false ∧
    (∀ y ∈ s.sched.groups, y.id = x.id → y = x) ∧
    ∀ y ∈ s.sched.groups, y.ctx = x.ctx → y.node = x.node → y ≠ x → y.closed = false ∧ y.launched = false

/-- A group with its records is closed and enters the PIFO with their highest priority, earliest deadline and largest estimate
(R341). -/
def GroupGoes (s t : State) (x : Group) (recs : List Item) : Prop :=
  ∃ e y, t.sched.pifo = s.sched.pifo ++ [e] ∧ e.work = .group x.id ∧ (∀ r ∈ recs, itemPrio r ≤ e.prio ∧ r.est.toNat ≤ e.est) ∧
    (∀ r ∈ recs, r.deadline ≠ 0 → e.deadline ≠ 0 ∧ e.deadline ≤ r.deadline.toNat) ∧ y ∈ t.sched.groups ∧ y.id = x.id ∧
    y.recs = recs ∧ y.closed = true ∧ y.launched = true

end Sys2Proof.Machine

/-- What the kinds of work item do: NOP ends with 01; LAUNCH submits its record in version 0; RECORD joins its node's open group,
which goes when it is full or its timer lapses; GRAPH submits its node's record; CTXCREATE makes a context from its record, and
CTXCTL clears STICKY and APPROX bits or destroys the context; INVAL drops the copied translations of its pages and the remap entries
whose leaves are gone, and ends with 01; UPDATE waits for the takeover, which swaps the complexes and may fill the slot for a rank
program (log 150), or ends with 04. In a stopped context LAUNCH, RECORD and GRAPH end with 04 and its cause; with 1,024 contexts
CTXCREATE ends with 04 (log 154) (R183, R197, R198, R321, R334, R336, R337, R341, R342, R351). -/
def Obligations.WorkItemsHaveTheirEffects : Prop :=
  (∀ s : State, ∃ t, exec .itemNop s = .next t ∧ ItemEnds s t s.input.item 0x0100000000000000) ∧
  (∀ (s : State) (c : Context), s.ctx? (itemCtx s.input.item) = some c → c.stopped = true →
    ∀ i ∈ [Instr.itemLaunch, Instr.itemRecord, Instr.itemGraph],
      ∃ t, exec i s = .next t ∧ ItemEnds s t s.input.item (BitVec.ofNat 64 (4 * 2 ^ 56 + c.stopCause.toNat))) ∧
  (∀ (s : State) (c : Context) (bs : List Byte), s.ctx? (itemCtx s.input.item) = some c → c.stopped = false →
    let it := s.input.item
    (Startable s c it.arg0 bs → ∃ t l, exec .itemLaunch s = .next t ∧ { t with launches := s.launches, nextId := s.nextId } = s ∧
      t.launches = s.launches ++ [l] ∧ LaunchOf l s.nextId c it.arg0 bs it (.item it)) ∧
    (it.arg0.toNat % 64 ≠ 0 → ∃ t, exec .itemLaunch s = .next t ∧
      ItemEnds (s.record c.id { cause := 1, ver := c.gid s.devNo 0, addr := it.arg0 }) t it 0x0400000000000001)) ∧
  (∀ (s : State) (c : Context) (nd : GraphNode), s.ctx? (itemCtx s.input.item) = some c → c.stopped = false →
    s.graphNode? c s.input.item.arg0 = some nd →
    let it := s.input.item
    let mine (x : Group) : Bool := x.ctx == c.id && x.node == it.arg0.toNat && !x.closed
    ¬Late s it.deadline.toNat it.est.toNat →
    (s.sched.groups.find? mine = none → 1 < nd.g → ∃ t x, exec .itemRecord s = .next t ∧ t.sched.groups = s.sched.groups ++ [x] ∧
      x.id = s.nextId ∧ x.ctx = c.id ∧ x.node = it.arg0.toNat ∧ x.recs = [it] ∧ x.closed = false ∧
      x.timer = (if nd.timer = 0 then none else some (s.time + nd.timer)) ∧ t.sched.pifo = s.sched.pifo) ∧
    (∀ x, s.sched.groups.find? mine = some x → (∀ y ∈ s.sched.groups, y.id = x.id → y = x) → x.recs.length + 1 < nd.g →
      ∃ t, exec .itemRecord s = .next t ∧ t.sched.pifo = s.sched.pifo ∧
        t.sched.groups = s.sched.groups.map fun y => if y = x then { x with recs := x.recs ++ [it] } else y) ∧
    ∀ x, s.sched.groups.find? mine = some x → OnlyGroup s x → nd.g ≤ x.recs.length + 1 →
      (∀ r ∈ x.recs, ¬Late s r.deadline.toNat r.est.toNat) → ∃ t, exec .itemRecord s = .next t ∧ GroupGoes s t x (x.recs ++ [it])) ∧
  (∀ (s : State) (x : Group) (c : Context) (nd : GraphNode) (n : Nat),
    s.sched.groups.find? (fun x => x.id == s.input.id) = some x → OnlyGroup s x → x.timer = some n → n ≤ s.time →
    s.ctx? x.ctx = some c → s.graphNode? c (BitVec.ofNat 64 x.node) = some nd → x.recs ≠ [] →
    (∀ r ∈ x.recs, ¬Late s r.deadline.toNat r.est.toNat) → ∃ t, exec .groupTimerLapse s = .next t ∧ GroupGoes s t x x.recs) ∧
  (∀ (s : State) (c : Context) (node bs : List Byte), s.ctx? (itemCtx s.input.item) = some c → c.stopped = false →
    let it := s.input.item
    let addr := BitVec.ofNat 64 (fieldAt node 0 8)
    s.ctxRead c 0 (it.arg0.toNat + 32 * it.arg1.toNat) 32 = some node → Startable s c addr bs →
      ∃ t l, exec .itemGraph s = .next t ∧ t.launches = s.launches ++ [l] ∧ LaunchOf l (s.nextId + 1) c addr bs it (.graph s.nextId) ∧
        t.sched.graphs = s.sched.graphs ++ [{ id := s.nextId, item := it, node := it.arg1.toNat }] ∧
        (s.input.flag = false → t.sched.pifo = s.sched.pifo) ∧
        (s.input.flag = true → ∃ e, t.sched.pifo = s.sched.pifo ++ [e] ∧ Queued s e (.launch l.id) (itemPrio it) it.deadline.toNat 0)) ∧
  (∀ s : State,
    let it := s.input.item
    let bs := s.physRead it.arg0.toNat 64
    let free := (∀ c, s.ctx? (itemCtx it) = some c → c.stopped = true) ∧
      (s.ctxs.filter fun c => c.id != itemCtx it).length < 1024 ∧ fieldAt bs 0x10 8 % 2 ^ 32 = 0 ∧
      s.visible it.part it.arg0.toNat 64 = true
    (free → ∃ t c, exec .itemCtxcreate s = .next t ∧ t.ctx? (itemCtx it) = some c ∧ c.part = it.part ∧ ItemLeaves s t it ∧
      c.ccb = BitVec.ofNat 64 (fieldAt bs 0 8) ∧ c.root = fieldAt bs 8 8 ∧ c.tsap = fieldAt bs 0x10 8 ∧
      c.save = BitVec.ofNat 64 (fieldAt bs 0x18 8) ∧ c.slice = fieldAt bs 0x20 4 ∧ c.grace = fieldAt bs 0x24 4 ∧ c.stopped = false ∧
      c.fcHead = 0 ∧ c.fcLost = 0 ∧ c.sticky = 0 ∧ c.approx = 0 ∧ c.versions = [] ∧ c.bindings = [] ∧ ∀ i : Fin 256, c.streams[i] = 0x8000) ∧
    (¬free → ∃ t, exec .itemCtxcreate s = .next t ∧ ItemEnds s t it 0x0400000000000001)) ∧
  (∀ (s : State) (c : Context), s.ctx? (itemCtx s.input.item) = some c → c.stopped = false →
    let it := s.input.item
    (it.arg1.getLsbD 0 = false → ∃ t c', exec .itemCtxctl s = .next t ∧ t.ctx? c.id = some c' ∧ ItemLeaves s t it ∧
      (∀ i : Fin 26, c'.sticky.getLsbD i.val = (c.sticky.getLsbD i.val && !it.arg0.getLsbD i.val)) ∧
      (∀ i : Fin 4, c'.approx.getLsbD i.val = (c.approx.getLsbD i.val && !it.arg0.getLsbD (32 + i.val))) ∧ c'.stopped = false) ∧
    (it.arg1.getLsbD 0 = true → ∃ t, exec .itemCtxctl s = .next t ∧ t.ctx? c.id = none ∧ (∀ l ∈ t.launches, l.ctx ≠ c.id) ∧
      (∀ k ∈ t.cmds, k.ctx ≠ c.id) ∧ ∀ a ∈ t.allocs, a.ctx ≠ c.id)) ∧
  (∀ s : State,
    let it := s.input.item
    let hit (ctx page : Nat) : Prop :=
      it.arg1 ≠ 0 ∧ ctx = itemCtx it ∧ it.arg0.toNat / 65536 ≤ page ∧ page ≤ (it.arg0.toNat + it.arg1.toNat - 1) / 65536
    ∃ t u, exec .itemInval s = .next t ∧ { u with remapFilt := s.remapFilt, copies := s.copies, uncached := s.uncached } = s ∧
      ItemEnds u t it 0x0100000000000000 ∧ (∀ x, x ∈ t.copies ↔ x ∈ s.copies ∧ ¬hit x.ctx (x.line / 64)) ∧
      (∀ n ∈ t.uncached, n ∈ s.uncached) ∧
      ∀ r, r ∈ t.remapFilt ↔ r ∈ s.remapFilt ∧ ¬(hit r.ctx r.page ∧ ∀ c pa e, s.ctx? r.ctx = some c →
        s.walk c.root (BitVec.ofNat 64 (r.page * 65536)) = some (pa, e) → pa / 65536 ≠ r.frame)) ∧
  (∀ s : State, ∃ t, exec .itemUpdate s = .next t ∧
    (t.sched.update = some s.input.item ∧ { t with sched := s.sched } = s ∨ ItemEnds s t s.input.item 0x0400000000000001)) ∧
  ∀ (s : State) (it : Item), s.sched.update = some it → ∃ t, exec .takeover s = .next t ∧ t.sched.update = none ∧
    t.sched.activeB = (!s.sched.activeB) ∧ t.pkg.images = s.pkg.images ++ [s.sched.updImage] ∧ ItemLeaves s t it ∧
    (t.sched.rankProg = s.sched.rankProg ∨ t.sched.rankProg = some s.sched.updImage) ∧
    t.sched.pifo = s.sched.pifo ∧ t.launches = s.launches

namespace Sys2Proof.Machine

/-- What the estimator decides for a team (R347): drain, save, or discard. -/
inductive Decided where
  | drain
  | discard
  | save
  deriving DecidableEq, Repr

/-- The estimator's outcome (R347). -/
def decided (s : State) (c : Context) (deadline : Nat) (tm : Team) : Decided :=
  if deadline ≠ 0 ∧ s.time + s.estimate c tm.id ≤ deadline then .drain else if s.restartable tm = true then .discard else .save

/-- A request pre-empts teams of a context, none of which is discarded: each drains until the deadline or is to be saved into the
area (R345, R347, R348). -/
def Preempts (s t : State) (kind : PreemptKind) (c : Context) (area deadline : Nat) (teams : List Team) : Prop :=
  ∃ p, t.sched.preempts = s.sched.preempts ++ [p] ∧ p.id = s.nextId ∧ p.kind = kind ∧ p.ctx = c.id ∧ p.area = area ∧ p.done = [] ∧
    p.left = teams.map (·.id) ∧
    t.teams = s.teams.map fun tm =>
      if tm ∈ teams then
        match tm.fate with
        | .save a r => { tm with fate := .save a r }
        | _ => { tm with fate := if decided s c deadline tm = .drain then .drain deadline area s.nextId else .save area s.nextId }
      else tm

/-- The ids of teams and requests are unique and none stands for the next one. -/
def TeamIds (s : State) : Prop :=
  (s.teams.Pairwise fun x y => x.id ≠ y.id) ∧ ∀ q ∈ s.sched.preempts, q.id ≠ s.nextId

/-- A tray as it stands right after its team was bound (R24). -/
structure Bound (l : Launch) (tr : Tray) (k : Nat) : Prop where
  place : tr.trayno = k ∧ tr.formed = false ∧ tr.landed = none ∧ tr.trap = none ∧ tr.frames = [] ∧ tr.ext = none
  frontier : ∃ e, tr.frontier = [e] ∧ e.pc = l.trayPc ∧ e.prio = 0 ∧ e.mask = BitVec.allOnes 32 ∧ e.depth = 0 ∧ e.loops = [] ∧ e.wait = .none
  tids : ∀ u : Fin 32, tr.remap[u] = some (32 * k + u.val)
  regs : ∀ (u n : Fin 32), tr.base[u][n] = Reg.zero
  args : ∀ n : Fin 32, tr.sregs[n] = { val := if h : n.val < 8 then l.args[n.val] else 0, full := true }
  preds : ∀ u : Fin 32, tr.preds[u] = 1

end Sys2Proof.Machine

/-- Binding and pre-emption: the complex writes bind records for the next teams of a launch, those of one unit on one bench;
dispatch places a team with all its trays in their first state; a PREEMPT item and a lapsed slice begin a request in which each
team drains or is to be saved; a slice that lapses while nothing waits begins again (log 153); a drained team's deadline saves or
discards it; a team that has settled is saved into its area, in an image whose header is 256 bytes and whose sections are 64-byte
aligned, or drains where no room is left there (R14, R18, R23, R24, R186, R343, R345 to R348). -/
def Obligations.TeamsAreBoundAndPreempted : Prop :=
  (∀ (s : State) (l : Launch) (c : Context), s.quiescing = false → s.input.flag = false → s.launch? s.input.id = some l →
    s.ctx? l.ctx = some c → s.inPifo l.id = false → l.nextTeam < l.teams → s.benchesFor l c.part l.nextTeam ≠ [] →
    let n := min l.gang (l.teams - l.nextTeam)
    ∃ t b bs, exec .bindRecordPlace s = .next t ∧ b ∈ s.benchesFor l c.part l.nextTeam ∧ t.sched.slots = s.sched.slots ++ bs ∧
      bs.length = n ∧ (∀ i < n, ∃ r, bs[i]? = some r ∧ r.teamno = l.nextTeam + i ∧ r.bench = b ∧ r.launch = l.id ∧ r.ctx = l.ctx ∧
        r.ver = l.ver ∧ r.prio = s.bindPrio l) ∧
      t.launch? l.id = some { l with
        nextTeam := l.nextTeam + n
        dies := (l.dies.filter fun x => x.1 != l.nextTeam / l.unitTeamsOf 3) ++ [(l.nextTeam / l.unitTeamsOf 3, b / 48)] }) ∧
  (∀ (s u : State) (b : BindRec) (l : Launch), s.quiescing = false → s.input.flag = true →
    s.sched.slots.find? (fun x => x.id == s.input.id) = some b → s.launch? b.launch = some l → s.firstBind b = true →
    b.bench ∈ s.benchesOf (s.partOfCtx b.ctx) → s.gangOf b l = [b] → s.bindTeam l b.teamno b.bench b.prio = some u →
      ∃ t tm trs, exec .bindRecordPlace s = .next t ∧ t.sched.slots = s.sched.slots.filter (fun x => x.id != b.id) ∧
        t.teams = s.teams ++ [tm] ∧ tm.id = s.nextId ∧ tm.launch = l.id ∧ tm.teamno = b.teamno ∧ tm.bench = b.bench ∧
        tm.shared = Store.empty ∧ tm.front.pc = l.frontPc ∧ tm.front.status = (if l.frontPc = 0 then .idle else .running) ∧
        (∀ n : Fin 32, tm.front.fregs[n] = FReg.zero) ∧ t.trays = s.trays ++ trs ∧ trs.length = l.traysPerTeam ∧
        ∀ k < l.traysPerTeam, ∃ tr, trs[k]? = some tr ∧ tr.team = tm.id ∧ tr.bench = b.bench ∧ Bound l tr k ∧ tr.prio = b.prio) ∧
  (∀ (s : State) (c : Context), s.ctx? (itemCtx s.input.item) = some c → TeamIds s → s.teamsOf c.id ≠ [] →
    let it := s.input.item
    (∀ tm ∈ s.teamsOf c.id, decided s c it.deadline.toNat tm ≠ .discard) →
      ∃ t, exec .itemPreempt s = .next t ∧
        Preempts s t (.item it) c (if it.arg1 = 0 then c.save.toNat else it.arg1.toNat) it.deadline.toNat (s.teamsOf c.id)) ∧
  (∀ (s : State) (c : Context), s.ctx? s.input.id = some c → TeamIds s → c.slice ≠ 0 → c.sliceStart + c.slice ≤ s.time →
    let teams := (s.teamsOf c.id).filter fun tm => tm.fate == .run
    let lapse := s.time - (s.time - c.sliceStart) % c.slice
    (teams ≠ [] → s.contended c.id = true → (∀ tm ∈ teams, decided s c (lapse + c.grace) tm ≠ .discard) →
      ∃ t c', exec .sliceLapse s = .next t ∧ Preempts s t .slice c c.save.toNat (lapse + c.grace) teams ∧
        t.ctx? c.id = some c' ∧ c'.sliceStart = lapse) ∧
    ((teams = [] ∨ s.contended c.id = false) → ∃ t, exec .sliceLapse s = .next t ∧ { t with ctxs := s.ctxs } = s ∧
      t.ctx? c.id = some { c with sliceStart := lapse })) ∧
  (∀ (s : State) (tm : Team) (d area req : Nat), s.team? s.input.id = some tm → tm.fate = .drain d area req → d ≠ 0 → d ≤ s.time →
    (s.restartable tm = false → ∃ t, exec .drainDeadline s = .next t ∧ t.team? tm.id = some { tm with fate := .save area req } ∧
      { t with teams := s.teams } = s) ∧
    (s.restartable tm = true → ∃ t, exec .drainDeadline s = .next t ∧ ∀ x ∈ t.teams, x.launch ≠ tm.launch)) ∧
  ∀ (s : State) (tm : Team) (l : Launch) (c : Context) (p : Preempt) (area req : Nat), s.around s.input.id = some (tm, l, c) →
    tm.fate = .save area req → s.sched.preempts.find? (fun q => q.id == req) = some p → s.canSave tm = true →
    (∀ x ∈ s.teamsOf c.id, ∀ a, x.fate = .save a req → tm.teamno ≤ x.teamno) → s.input.err = none →
    let off := s.imageOffset c.id area p.used
    let image := layOut 0 (s.imageSections tm l)
    let fits := off + image.2 ≤ 2 ^ 26
      ∃ t, exec .teamSave s = .next t ∧ (∀ x ∈ image.1, x.1 % 64 = 0) ∧
        (image.1.head?.map fun x => (x.1, x.2.length)) = some (0, 256) ∧
        (fits → t.team? tm.id = none ∧ (∀ tr ∈ t.trays, tr.team ≠ tm.id) ∧ ∃ x, t.sched.saved = s.sched.saved ++ [x] ∧
          x.ctx = c.id ∧ x.area = area ∧ x.off = off ∧ x.len = image.2 ∧ (area + x.off) % 65536 = 0 ∧ x.team.id = tm.id ∧ x.team.teamno = tm.teamno ∧
          x.team.dq = tm.dq ∧ x.team.front.fregs = tm.front.fregs ∧
          x.trays.map (fun tr => (tr.id, tr.base, tr.frames, tr.sregs, tr.preds, tr.remap)) =
            (s.trays.filter fun tr => tr.team == tm.id).map fun tr => (tr.id, tr.base, tr.frames, tr.sregs, tr.preds, tr.remap)) ∧
        (¬fits → (∀ f, p.kind ≠ .die f) → s.restartable tm = false →
          t.team? tm.id = some { tm with fate := .drain 0 p.area req })

namespace Sys2Proof.Machine

/-- The version lines that a request of a version seen for the first time observes, itself first; version 0 has none
(R317, R319). -/
def firstKeys (cx : Context) (r : FabReq) : List VKey :=
  if r.gid.toNat / 64 % 64 = 0 then [] else (r.gid :: r.ancestors).map (VKey.remote cx.id)

/-- What a peer's request of n bytes resolves to, in version 0 or in another one (R190, R194). -/
def reqPlace (s : State) (cx : Context) (acc : Access) : Resolved :=
  s.resolveLocal cx (if s.input.req.gid.toNat / 64 % 64 = 0 then 0 else 64) acc s.input.req.addr

/-- A peer's request of 1 to 128 bytes, of a version without a history here, reaches the check of its leaf (R190, R370, R375). -/
structure Arrives (s : State) (cx : Context) (n : Nat) : Prop where
  fabric : s.cap 0 = true
  ctx : (s.part? s.input.req.part).bind (fun p => s.ctx? p.fabctx) = some cx
  fresh : s.input.req.gid.toNat / 64 % 64 = 0 ∨ s.peerVer? s.input.req.gid = none
  page : s.input.req.addr.toNat % 65536 + n ≤ 65536 ∧ s.input.req.addr.toNat < 2 ^ 52 ∧ 1 ≤ n ∧ n ≤ 128

/-- A peer's request that can be served at a place (R190, R194, R319, R370). -/
structure Inbound (s : State) (cx : Context) (acc : Access) (n : Nat) (l : Loc) (a : Attr) : Prop extends Arrives s cx n where
  place : reqPlace s cx acc = .ok l a
  room : acc.isWrite = true → a.kv = false ∧ s.lineFull cx (firstKeys cx s.input.req) l a = false

/-- A peer's request that fails the check of the leaf with a cause (R190, R194). -/
structure Refused (s : State) (cx : Context) (acc : Access) (n e : Nat) : Prop extends Arrives s cx n where
  cause : reqPlace s cx acc = .fault e

/-- A packet leaves for a peer on a virtual channel, by its route, with the next injection number; it waits for a crossbar
(R373, R374, R376). -/
def Sent (s t : State) (peer vc : Nat) (o : Packet → Nat → Out) : Prop :=
  let h : Packet := { dst := peer, src := s.pkg.fabno.toNat, vc := vc, age := 0, mask := 0, inj := s.fab.injected }
  t.outbox = s.outbox ++ [o h (s.hop peer)] ∧ t.fab.injected = s.fab.injected + 1 ∧ t.fab.queue = s.fab.queue ++ [h]

/-- A notice leaves for peers, to some as one multicast and to each of the others as a unicast copy (R377). -/
def Noticed (s t : State) (squash : Bool) (n : Notice) (ps : List Nat) : Prop :=
  ∃ (os : List Out) (many : List Nat), t.outbox = s.outbox ++ os ∧ (∀ o ∈ os, ∃ h, o = Out.notice h squash n ∧ h.vc = 2 ∧ h.src = s.pkg.fabno.toNat) ∧
    (∀ q ∈ many, q ∈ ps) ∧ ∀ q ∈ ps, ∃ o ∈ os, ∃ h, o = Out.notice h squash n ∧
      (h.mask = 0 ∧ h.dst = q ∨ h.mask = (many.map fun p => 2 ^ (p % 16)).sum ∧ q ∈ many)

/-- The request's location has had every earlier write, and nothing is held (R375). -/
def NextAtItsPlace (s : State) : Prop :=
  s.fab.heldReqs = [] ∧ s.input.req.locseq = s.expects s.input.req.src s.input.req.addr

/-- A packet's direct port on a die (R371, R374). -/
def directPort (s : State) (p : Packet) (q : Nat) : Prop :=
  (s.pkg.portstat.toList.getD q 0).getLsbD 31 = true ∧ ((s.pkg.portstat.toList.getD q 0).extractLsb' 16 4).toNat = p.dst

/-- The output ports of an optical die that hold no packet back (R371, R374). -/
def freePorts (s : State) (die : Nat) : List Nat :=
  ((List.range 8).map fun i => i + if die = 8 then 8 else 0).filter fun q => !s.fab.holds.any fun h => h.1 == die && h.2.1 == q

/-- The destinations of a packet: the one it names, or those of its multicast mask (R373, R377). -/
def reaches (p : Packet) (d : Nat) : Prop := if p.mask = 0 then d = p.dst else d < 16 ∧ p.mask.testBit d = true

/-- The packets that a die's hold registers release. -/
def releasedPackets (s : State) (die : Nat) : List Out :=
  (s.fab.holds.filter fun h => h.1 == die).map fun h => Out.packet die h.2.1 h.2.2

end Sys2Proof.Machine

/-- What peers ask and answer: a read, a write and an atomic are served at their place in the order of their location's writes,
one that fails the check of the leaf is refused with its cause, a late store of a squashed version raises SQDROP, an answered
access is over, notices are sent, acknowledged and heard; after FABTO a record's read brings cause 0x10, a waiting agent issues
again, and a squash notice owes its repeat (R190, R205, R241, R319, R326, R328, R329, R336, R370, R375 to R378). -/
def Obligations.PeersAreServedAndAnswered : Prop :=
  (∀ (s : State) (cx : Context) (l : Loc) (a : Attr), s.Whole →
    let r := s.input.req
    let ks := firstKeys cx r
    let told (t : State) (data : List Byte) : Prop :=
      Sent s t r.src 1 fun h hop => .response h hop { tag := r.tag, ok := true, data := data }
    let refused (t : State) (e : Nat) : Prop :=
      Sent s t r.src 1 fun h hop => .response h hop { tag := r.tag, ok := false, data := [], cause := e }
    (∀ n, r.op = .read n → Inbound s cx .read n l a →
      ∃ t, exec .fabricRequest s = .next t ∧ told t (s.seen ks l n) ∧ SameBytes s t) ∧
    (∀ bs, r.op = .write bs → Inbound s cx .engineWrite bs.length l a → NextAtItsPlace s →
      ∃ t, exec .fabricRequest s = .next t ∧ told t [] ∧ Written s t ks [(l, bs)] ∧
        t.expects r.src r.addr = (r.locseq + 1) % 65536) ∧
    (∀ f b c u, r.op = .atomic f b c u → Inbound s cx .write 4 l a → NextAtItsPlace s → l.off % 4 = 0 →
      let old := BitVec.ofNat 32 (leNat (s.seen ks l 4))
      ∃ t, exec .fabricRequest s = .next t ∧ told t (leBytes 4 old.toNat) ∧
        Written s t ks [(l, leBytes 4 (atomicNew f u old b c).toNat)]) ∧
    (∀ n e, r.op = .read n → Refused s cx .read n e → ∃ t, exec .fabricRequest s = .next t ∧ SameBytes s t ∧ refused t e) ∧
    (∀ bs e, r.op = .write bs → Refused s cx .engineWrite bs.length e → NextAtItsPlace s →
      ∃ t, exec .fabricRequest s = .next t ∧ SameBytes s t ∧ refused t e) ∧
    (∀ f b c u e, r.op = .atomic f b c u → Refused s cx .write 4 e → NextAtItsPlace s →
      ∃ t, exec .fabricRequest s = .next t ∧ SameBytes s t ∧ refused t e) ∧
    (s.cap 0 = true → (∀ n, r.op ≠ .read n) → r.op ≠ .other → r.locseq ≠ s.expects r.src r.addr →
      exec .fabricRequest s = .next { s with fab := { s.fab with heldReqs := s.fab.heldReqs ++ [r] } }) ∧
    ∀ bs v, r.op = .write bs → s.cap 0 = true → (s.part? r.part).bind (fun p => s.ctx? p.fabctx) = some cx → NextAtItsPlace s →
      r.gid.toNat / 64 % 64 ≠ 0 → s.peerVer? r.gid = some v → v.inc = r.gid.toNat % 64 → v.squashed = true → v.committed = none →
      Unpinned s → ∃ t, exec .fabricRequest s = .next t ∧ told t [] ∧ t.ctx? cx.id = some { cx with sqdrop := cx.sqdrop + 1 } ∧
        ∀ x, t.byteSeen [] (.hbm x) =
          if cx.recAddr.toNat + 0x28 ≤ x ∧ x < cx.recAddr.toNat + 0x30
          then BitVec.ofNat 8 ((cx.sqdrop + 1).toNat / 2 ^ (8 * (x - (cx.recAddr.toNat + 0x28)))) else s.byteSeen [] (.hbm x)) ∧
  (∀ (s : State) (f : FabAccess), s.fab.flights.find? (fun f => f.tag == s.input.resp.tag) = some f →
    let rest := s.fab.flights.filter fun x => x.tag != f.tag
    (f.use = .store → s.input.resp.ok = true → exec .fabricResponse s = .next
      { s with fab := { s.fab with flights := rest }, past := s.past.filter fun e => e.tag != f.tag }) ∧
    (∀ pid slot regs n signed x tray, f.use = .load pid slot regs n signed → s.input.resp.ok = true →
      s.prods.find? (fun x => x.id == pid) = some x → (∀ y ∈ s.prods, y.id = pid → y = x) → x.bad = [] →
      x.owner = .tray tray → s.fab.notices.any (fun y => y.waiter == some pid) = false → s.prods.Pairwise (fun y z => y.id ≠ z.id) →
        ∃ t, exec .fabricResponse s = .next t ∧ t.fab.flights = rest ∧
          t.prods = s.prods.map (fun y => if y.id = pid then
            { x with tags := x.tags.erase f.tag, writes := x.writes ++ respWrites regs signed (s.input.resp.data.take n) } else y) ∧
          (t.tray? tray).map (·.frontier) = (s.tray? tray).map fun tr =>
            if x.tags.erase f.tag = [] then
              mergeAll (tr.frontier.map fun e => if replyOf pid e.wait = true then e.past x.size else e)
            else tr.frontier) ∧
    (f.use = .peek → s.input.resp.ok = false → s.input.flag = false → s.input.resp.cause ∈ [0, 0x08, 0x09] → ∃ t p, exec .fabricResponse s = .next t ∧
      t.fab.flights = rest ∧ p ∈ t.fab.pulled ∧ p.owner = f.owner ∧ p.peer = f.peer ∧ p.addr = f.addr.toNat ∧
      p.cause = some (if s.input.resp.cause = 0 then 0x10 else s.input.resp.cause))) ∧
  (∀ s : State, s.fab.flights.find? (fun f => f.tag == s.input.resp.tag) = none →
    exec .fabricResponse s = .next { s with fab := { s.fab with deltas := s.fab.deltas.filter fun d => d.1 != s.input.resp.tag } }) ∧
  (∀ (s : State) (x : NoticeOut), s.fab.notices.find? (fun x => x.id == s.input.id) = some x →
    let p := s.input.n
    let n : Notice := { src := s.pkg.fabno.toNat, gid := x.gid, parent := x.parent }
    let free (q : Nat) : Prop := ∀ f ∈ s.fab.flights, ¬(f.gid = x.gid ∧ f.peer = q ∧ ordered f.op = true)
    let clear := ∀ y ∈ s.fab.notices, y.squash = true → y.waiter.isSome = true → y.waiter = x.waiter → y.waits = []
    x.squash = false → p ∈ x.waits → p ∉ x.sent →
    (clear → free p → (s.route p = .direct ∨ ∃ via, s.route p = .relay via) → ∃ t ps, exec .commitNoticeSend s = .next t ∧ p ∈ ps ∧
      (∀ q ∈ ps, q ∈ x.waits ∧ q ∉ x.sent ∧ free q) ∧ Noticed s t false n ps ∧ { x with sent := x.sent ++ ps } ∈ t.fab.notices) ∧
    ((¬clear ∨ ¬free p) → exec .commitNoticeSend s = .next s) ∧
    (free p → s.route p = .unreachable → x.waiter = none → ∃ t y, exec .commitNoticeSend s = .next t ∧
      { x with waits := x.waits.erase p, owed := x.owed ++ [p] } ∈ t.fab.notices ∧ y ∈ t.fab.notices ∧ y.squash = true ∧
      y.gid = x.gid ∧ y.owed = [p])) ∧
  (∀ (s : State) (x : NoticeOut), x ∈ s.fab.notices → s.fab.notices.Pairwise (fun y z => y.id ≠ z.id) →
    (∀ y ∈ s.fab.notices, (y.gid = s.input.notice.gid ∧ (s.input.n ∈ y.waits ∨ s.input.n ∈ y.owed) ∧ s.input.n ∈ y.sent) ↔ y = x) →
    let w := x.waits.erase s.input.n
    let o := x.owed.erase s.input.n
    (x.waiter = none → ∃ t, exec .squashNoticeAck s = .next t ∧ { t with fab := s.fab } = s ∧
      ∀ y, y ∈ t.fab.notices ↔ (y ∈ s.fab.notices ∧ y ≠ x ∧ ¬(y.waiter = none ∧ y.waits = [] ∧ y.owed = [] ∧ y.id = x.id)) ∨
        (y = { x with waits := w, owed := o } ∧ ¬(w = [] ∧ o = []))) ∧
    (∀ pid k, x.waiter = some pid → w = [] → o = [] → (∀ y ∈ s.fab.notices, y.waiter = some pid → y = x) →
      s.prods.find? (fun p => p.id == pid) = some k → s.inTrap k.owner = false → ∃ t, exec .squashNoticeAck s = .next t ∧
        (∀ y ∈ t.prods, y.id ≠ pid) ∧ ∀ y ∈ t.fab.notices, y.id ≠ x.id)) ∧
  (∀ s : State,
    let n := s.input.notice
    (∀ v, s.peerVer? n.gid = some v → v.inc = n.gid.toNat % 64) →
      ∃ t v, exec .peerSquashNotice s = .next t ∧ Sent s t n.src 1 (fun h hop => .ack h hop n.gid.toNat) ∧
        t.peerVer? n.gid = some v ∧ v.squashed = true ∧ v.inc = n.gid.toNat % 64 ∧ t.mem = s.mem ∧
        t.vlines = s.vlines.filter fun x => match x.key with | .remote _ g => g != n.gid | .here .. => true) ∧
  (∀ (s : State) (c : Nat), s.Whole →
    let n := s.input.notice
    n.parent.toNat / 64 % 64 = 0 → (∀ v, s.peerVer? n.gid = some v → v.inc = n.gid.toNat % 64) →
    (∀ x ∈ s.vlines, ∀ k, x.key = .remote k n.gid → k = c) → (∀ x ∈ s.vtags, ∀ k, x.key = .remote k n.gid → k = c) →
      ∃ t v, exec .peerCommitNotice s = .next t ∧ Sent s t n.src 1 (fun h hop => .ack h hop n.gid.toNat) ∧
        t.peerVer? n.gid = some v ∧ v.committed = some n.parent ∧ (∀ x ∈ t.vlines, x.key ≠ .remote c n.gid) ∧
        ∀ a, t.byteSeen [] (.hbm a) = s.byteSeen [.remote c n.gid] (.hbm a)) ∧
  (∀ (s : State) (v : PeerVer),
    let n := s.input.notice
    n.parent.toNat / 64 % 64 ≠ 0 → s.peerVer? n.parent = some v → v.inc = n.parent.toNat % 64 → v.committed = none → v.squashed = true →
      ∃ t, exec .peerCommitNotice s = .next t ∧ t.mem = s.mem ∧
        t.vlines = s.vlines.filter fun x => match x.key with | .remote _ g => g != n.gid | .here .. => true) ∧
  (∀ s : State,
    (∀ f : FabAccess, s.input.k = 0 → s.fab.flights.find? (fun f => f.tag == s.input.id) = some f →
      (s.time < f.since + s.fabtoNs ∨ f.use = .store → exec .fabtoExpiry s = .next s) ∧
      (f.since + s.fabtoNs ≤ s.time → f.use = .peek → ∃ t p, exec .fabtoExpiry s = .next t ∧
        t.fab.flights = (s.fab.flights.filter fun x => x.tag != f.tag) ∧ p ∈ t.fab.pulled ∧ p.owner = f.owner ∧
        p.addr = f.addr.toNat ∧ p.cause = some 0x10)) ∧
    (∀ t0, s.input.k = 1 → s.waitOf s.input.agent = .fabric t0 → t0 + s.fabtoNs ≤ s.time →
      exec .fabtoExpiry s = .next { s with agenda := .issue s.input.agent :: s.agenda }) ∧
    ∀ x : NoticeOut, 2 ≤ s.input.k → s.fab.notices.find? (fun x => x.id == s.input.id) = some x → x.squash = true → x.waiter = none →
      x.since + s.fabtoNs ≤ s.time → ∃ t, exec .fabtoExpiry s = .next t ∧ { t with fab := s.fab } = s ∧
        { x with waits := [], owed := x.owed ++ x.waits } ∈ t.fab.notices)

/-- Parity, crossbar, links and ports: a delta is added to its parity block or waits while its stripe is rebuilt; a lost member, a
rebuild and a replacement change STATE, rebuild the stripe and compute the parity; the crossbar sends as many packets as come in and
wait, by rank and over direct ports first, and loses no destination of a multicast; failed replays are counted for each link, and the
sixteenth takes a die off line or stops every context; a port trains to its wavelengths; the last drain marker ends a reconfiguration
(R358, R371, R373, R374, R377 to R382). -/
def Obligations.ParityCrossbarAndLinks : Prop :=
  (∀ (s : State) (p : Partition) (g : ParityGroup), s.Whole → Unpinned s →
    let d := s.input.delta
    s.part? d.part = some p → s.pgroup? p = some g → d.stripe < g.stripes → d.off + d.xor.length ≤ 65536 →
    let base := (g.qbase + d.stripe) * 65536 + d.off
    ((d.part, d.stripe) ∉ s.fab.rebuilds → ∃ t, exec .parityDelta s = .next t ∧ Sent s t d.src 1 (fun h hop => .ack h hop d.tag) ∧
      ∀ x, t.byteSeen [] (.hbm x) =
        if base ≤ x ∧ x < base + d.xor.length then s.byteSeen [] (.hbm x) ^^^ d.xor.getD (x - base) 0 else s.byteSeen [] (.hbm x)) ∧
    ((d.part, d.stripe) ∈ s.fab.rebuilds →
      exec .parityDelta s = .next { s with fab := { s.fab with queued := s.fab.queued ++ [d] } })) ∧
  (∀ (s : State) (p : Partition), s.Whole → Unpinned s → s.part? s.input.id = some p → p.pgroup ≠ 0 →
    (∃ t, exec .memberLost s = .next t ∧ ∀ x, t.byteSeen [] (.hbm x) = if x = p.pgroup + 2 then 1 else s.byteSeen [] (.hbm x)) ∧
    ∀ g, s.pgroup? p = some g →
      let cell (m o : Nat) : Byte := ((s.input.cells.find? fun c => c.1 == m * 2 ^ 48 + o).map (·.2)).getD 0
      ∃ t, exec .replacementJoin s = .next t ∧ t.byteSeen [] (.hbm (p.pgroup + 2)) = 0 ∧
        (s.input.flag = false → ∀ x, x ≠ p.pgroup + 2 → t.byteSeen [] (.hbm x) = s.byteSeen [] (.hbm x)) ∧
        (s.input.flag = true → ∀ k < g.stripes, ∀ i < 65536, (g.qbase + k) * 65536 + i ≠ p.pgroup + 2 →
          t.byteSeen [] (.hbm ((g.qbase + k) * 65536 + i)) =
            ((List.range g.n).filter fun m => m != g.rank && (m + 1 + k % (g.n - 1)) % g.n == g.rank).foldl
              (fun x m => x ^^^ cell m (k * 65536 + i)) 0)) ∧
  (∀ (s : State) (p : Partition) (g : ParityGroup), s.Whole → Unpinned s →
    let r := s.input.rebuild
    s.part? r.part = some p → s.pgroup? p = some g → (r.member + 1 + r.stripe % (g.n - 1)) % g.n = g.rank → r.stripe < g.stripes →
    r.member ≠ g.rank →
    (s.input.flag = false → ∃ t, exec .rebuildRequest s = .next t ∧ (r.part, r.stripe) ∈ t.fab.rebuilds ∧
      ∀ x, t.byteSeen [] (.hbm x) = if x = p.pgroup + 2 then 2 else s.byteSeen [] (.hbm x)) ∧
    let others := (List.range g.n).filter fun m =>
      m != r.member && m != g.rank && (m + 1 + r.stripe % (g.n - 1)) % g.n == g.rank
    (s.input.flag = true → (r.part, r.stripe) ∈ s.fab.rebuilds → (∀ m ∈ others, ∃ x ∈ r.peers, x.1 = m) →
      let due := s.fab.queued.filter fun d => d.part == r.part && d.stripe == r.stripe
      let cell (m : List (Nat × Byte)) (i : Nat) : Byte := ((m.find? fun c => c.1 == i).map (·.2)).getD 0
      ∃ t, exec .rebuildRequest s = .next t ∧ (r.part, r.stripe) ∉ t.fab.rebuilds ∧
        (∃ os, t.outbox = s.outbox ++ os ∧ Paired (fun d o => ∃ h hop, o = Out.ack h hop d.tag ∧ h.dst = d.src ∧ h.vc = 1) due os) ∧
        (due = [] → ∀ i < 65536, t.byteSeen [] (.hbm (r.frame * 65536 + i)) =
          (r.peers.filter fun x => others.contains x.1).foldl (fun x m => x ^^^ cell m.2 i) (s.byteSeen [] (.hbm ((g.qbase + r.stripe) * 65536 + i)))))) ∧
  (∀ (s : State) (die : Nat), s.input.id = die → die = 7 ∨ die = 8 → s.cap 0 = true →
    let through := s.input.packets.filter fun p => p.mask != 0 || p.dst != s.pkg.fabno.toNat
    let own (p : Packet) : Prop := p.mask = 0 ∧ p.dst ≠ s.pkg.fabno.toNat
    (s.fab.queue = [] → (∀ p ∈ s.input.packets, p.mask = 0) →
      ∃ t ps, exec .crossbarGrant s = .next t ∧ t.outbox = s.outbox ++ releasedPackets s die ++ ps ∧
        { t with outbox := s.outbox, fab := s.fab } = s ∧ t.fab.queue = [] ∧
        ps.length + (t.fab.holds.filter fun h => h.1 == die).length = min through.length (freePorts s die).length ∧
        t.fab.holds.filter (fun h => h.1 != die) = s.fab.holds.filter fun h => h.1 != die) ∧
    (∀ p q, own p → (s.input.packets = [p] ∧ s.fab.queue = [] ∨ s.input.packets = [] ∧ s.fab.queue = [p]) →
      q ∈ freePorts s die → directPort s p q → (∀ x ∈ freePorts s die, x < q → ¬directPort s p x) →
      ∃ t, exec .crossbarGrant s = .next t ∧ t.outbox = s.outbox ++ releasedPackets s die ++ [Out.packet die q p] ∧
        t.fab.queue = [] ∧ (q, p.vc, p) ∈ t.fab.replay) ∧
    (∀ p1 p2 q r, own p1 → own p2 → s.fab.queue = [] → (s.input.packets = [p1, p2] ∨ s.input.packets = [p2, p1]) →
      p2.age < p1.age → p1.age ≤ 255 → q ∈ freePorts s die → r ∈ freePorts s die → q ≠ r → (∀ x ∈ freePorts s die, x ≠ q → r ≤ x) →
      (∀ x ∈ [p1, p2], directPort s x q ∧ ∀ y, y ≠ q → ¬directPort s x y) →
        ∃ t, exec .crossbarGrant s = .next t ∧
          t.outbox = s.outbox ++ releasedPackets s die ++ [Out.packet die q p1, Out.packet die r { p2 with age := p2.age + 1 }]) ∧
    ∀ p, p.mask ≠ 0 → s.input.packets = [p] → s.fab.queue = [] → freePorts s die ≠ [] →
      ∃ t ps, exec .crossbarGrant s = .next t ∧ t.outbox = s.outbox ++ releasedPackets s die ++ ps ∧
        ∀ d, reaches p d → (∃ q p', Out.packet die q p' ∈ ps ∧ reaches p' d) ∨
          ({ p with dst := d, mask := 0 } : Packet) ∈ t.fab.queue ∨ ∃ q, (die, q, p) ∈ t.fab.holds) ∧
  (∀ s : State, Sparse.wf 0 s.pkg.replays = true → ∃ t, exec .linkCrcFail s = .next t ∧ ∀ link,
    Sparse.get 0 t.pkg.replays link =
      if link = s.input.id * 16 + s.input.n % 16 then (if s.input.flag = true then 0 else Sparse.get 0 s.pkg.replays link + 1)
      else Sparse.get 0 s.pkg.replays link) ∧
  (∀ s : State, 16 ≤ Sparse.get 0 s.pkg.replays (s.input.id * 16 + s.input.n % 16) → s.input.id ∉ s.pkg.offline → s.pkg.dead = false →
    let die := s.input.id
    (die < 4 ∨ die = 7 ∨ die = 8 → s.goingOff = none →
      exec .linkFailed s = .next { s with agenda := .event .dieOffline { Input.blank with id := die, flag := true, k := 1 } :: s.agenda }) ∧
    (4 ≤ die → die ≠ 7 → die ≠ 8 → ∃ t, exec .linkFailed s = .next t ∧ t.pkg.dead = true ∧
      ∀ k c, t.ctx? k = some c → c.stopped = true)) ∧
  (∀ s : State, s.cap 0 = true → s.input.id < 16 →
    let w := min (s.input.k / 32 * 32) 256
    let up := 128 ≤ w ∧ (if s.input.id < 8 then 7 else 8) ∉ s.pkg.offline
    ∃ t, exec .portTrain s = .next t ∧ ∀ q : Fin 16, t.pkg.portstat[q] =
      if q.val = s.input.id then
        BitVec.ofNat 32 ((if up then 2 ^ 31 else 0) + s.input.n % 16 * 2 ^ 16 + w)
      else s.pkg.portstat[q]) ∧
  ∀ (s : State) (r : Reconfig), s.fab.reconfig = some r → (s.input.id, s.input.n) ∈ r.markers →
    let left := r.markers.filter fun x => x != (s.input.id, s.input.n)
    (left ≠ [] → ∃ t, exec .drainMarkerAck s = .next t ∧ t.fab.reconfig = some { r with markers := left }) ∧
    (left = [] → ∃ t, exec .drainMarkerAck s = .next t ∧ t.fab.reconfig = none ∧ t.pkg.fabcfgGo = false ∧
      ∀ (q : Fin 16) (peer : Nat), r.ports.find? (fun x => x.1 == s.input.id) = some (s.input.id, peer) → q.val = s.input.id →
        (t.pkg.portstat[q].extractLsb' 16 4).toNat = peer % 16 ∧
          (t.pkg.portstat[q].getLsbD 31 = true ↔ (if q.val < 8 then 7 else 8) ∉ s.pkg.offline ∧ 128 ≤ s.pkg.portstat[q].toNat % 512))

namespace Sys2Proof.Machine

/-- Two states differ in the package registers only. -/
def OnlyPkg (s t : State) : Prop := { t with pkg := s.pkg } = s

/-- A team of a live context is to be saved. -/
def ToBeSaved (s t : State) (tm : Team) : Prop :=
  (∃ l c, s.launch? tm.launch = some l ∧ s.ctx? l.ctx = some c) → ∃ x ∈ t.teams, x.id = tm.id ∧ ∃ a r, x.fate = .save a r

/-- The written variant is fit (R361). -/
def FitVariant (s : State) : Prop :=
  88 ≤ s.pkg.nliveNew.toNat ∧ s.pkg.nliveNew.toNat ≤ 96 ∧
    ((List.range 96).filter fun i => s.pkg.liveNew.getLsbD i).length = s.pkg.nliveNew.toNat ∧
    ∀ i ∈ s.pkg.fenced, s.pkg.liveNew.getLsbD i = false

/-- The valid records of the partition table at PARTTAB, each with whether its reserved fields are 0 (R386). -/
def tableRecords (s : State) : List (Partition × Bool) :=
  (List.range 64).filterMap fun i => partRecord i (s.physRead (s.pkg.parttab.toNat + 128 * i) 128)

/-- A partition table is fit for a number of live slices (R387). -/
def FitTable (nlive : Nat) (ps : List (Partition × Bool)) : Prop :=
  (∀ x ∈ ps, x.2 = true ∧ 3 ≤ x.1.benches.length) ∧ ps.Pairwise (fun x y => ∀ b ∈ x.1.benches, b ∉ y.1.benches) ∧
    (ps.flatMap fun x => x.1.hbm).Pairwise (fun a b => a.2 = 0 ∨ b.2 = 0 ∨ a.1 + a.2 ≤ b.1 ∨ b.1 + b.2 ≤ a.1) ∧
    (ps.map fun x => x.1.l2q).sum ≤ nlive * 8 ∧ (ps.map fun x => x.1.carq).sum ≤ 1024 ∧ (ps.map fun x => x.1.fabsh).sum ≤ 1024

/-- DIECTL reads a status, with GO clear (R365). -/
def DieStatus (t : State) (n : Nat) : Prop := (t.pkg.diectl.extractLsb' 28 3).toNat = n ∧ t.pkg.diectl.getLsbD 31 = false

/-- DIECTL as the host writes it names a die that may leave or come back (R365). -/
def NamesDie (s : State) (die : Nat) : Prop :=
  s.input.val.toNat % 16 = die ∧ s.input.val.getLsbD 31 = true ∧ s.input.val.extractLsb' 4 3 = 0 ∧
    (die < 4 ∨ s.cap 0 = true ∧ (die = 7 ∨ die = 8))

/-- A die's tile store has room and quota for n units of a partition, from a unit on (R367, R386). -/
def HasRoom (s : State) (part die n first : Nat) : Prop :=
  die ∉ s.pkg.offline ∧ s.tileUsed part die + n ≤ ((s.part? part).map fun p => p.tsq.getD die 0).getD (if part < 64 then 0 else 2048) ∧ s.tileSpace die n = some first

end Sys2Proof.Machine

/-- Quiesce saves every team; once they are saved no line of the hub stays dirty, nor a protected sector whose delta finds its
way; it empties the promoted pages, installs a fit variant, takes a fit partition table or refuses it whole, and releases what
was saved; L2HSEL and L2LIVE are written as pending (R361, R362, R386, R387).
A compute die goes off line: its teams are to be saved, then its allocations move to the first of the next three dies that has
room, or the request is refused, and the carousel shrinks; an optical die's ports go down at once; a die that cannot be named
answers bad request; a re-admitted die is back, and the ring has 1,024 positions again (R358, R364 to R369). -/
def Obligations.QuiesceAndDies : Prop :=
  ((∀ s : State, s.pkg.quiesce.getLsbD 0 = false → (∀ q ∈ s.sched.preempts, q.id < s.nextId) →
    ∃ t, exec .quiesce s = .next t ∧ t.pkg = { s.pkg with quiesce := 1 } ∧ ∀ tm ∈ s.teams, ToBeSaved s t tm) ∧
  (∀ s : State, s.pkg.quiesce.getLsbD 0 = true → s.teams = [] → (∀ q ∈ s.sched.preempts, q.kind = .quiesce → q.left = []) →
    ∃ t, exec .quiesce s = .next t ∧ t.pkg.quiesce.getLsbD 0 = false ∧ t.pkg.pend = false ∧ t.promoted = [] ∧
      t.hubDirty = [] ∧ (s.fab.dirty = [] → t.fab.dirty = []) ∧
      (∀ x u, Unpinned s → s.fab.dirty = [x] → s.writeBack x.1 x.2.1 x.2.2 = .ok u → t.fab.dirty = []) ∧ (∀ q ∈ t.sched.preempts, q.kind ≠ .quiesce) ∧
      (∀ x ∈ s.sched.saved, (s.launch? x.team.launch).isSome = true → ∃ e ∈ t.sched.pifo, e.work = .saved x.id) ∧
      (s.pkg.pend = true → FitVariant s → t.pkg.nlive = s.pkg.nliveNew ∧ t.pkg.live = s.pkg.liveNew) ∧
      (¬(s.pkg.pend = true ∧ FitVariant s) → t.pkg.nlive = s.pkg.nlive ∧ t.pkg.live = s.pkg.live) ∧
      (s.fab.dirty = [] →
        let ps := tableRecords s
        (s.pkg.parttab.toNat % 64 = 0 ∧ FitTable t.pkg.nlive.toNat ps → t.pkg.parts = ps.map (·.1)) ∧
        (¬(s.pkg.parttab.toNat % 64 = 0 ∧ FitTable t.pkg.nlive.toNat ps) →
          t.pkg.parts = s.pkg.parts ∧ t.pkg.quiesce.getLsbD 2 = true))) ∧
  ∀ s : State,
    (s.input.id = 0 → exec .l2hselWrite s = .next { s with pkg := { s.pkg with nliveNew := s.input.val.setWidth 7, pend := true } }) ∧
    (1 ≤ s.input.id → s.input.id ≤ 3 → ∃ t, exec .l2hselWrite s = .next t ∧ OnlyPkg s t ∧ t.pkg.pend = true ∧
      t.pkg.nlive = s.pkg.nlive ∧ t.pkg.live = s.pkg.live ∧
      ∀ i : Fin 96, t.pkg.liveNew.getLsbD i.val =
        if i.val / 32 + 1 = s.input.id then s.input.val.getLsbD (i.val % 32) else s.pkg.liveNew.getLsbD i.val)) ∧
  (∀ (s : State) (die : Nat), s.input.k = 0 → s.goingOff = none → s.input.val.getLsbD 8 = false →
    (s.input.val.getLsbD 31 = true → s.input.val.toNat % 16 ∉ [0, 1, 2, 3, 7, 8] →
      ∃ t, exec .dieOffline s = .next t ∧ OnlyPkg s t ∧ DieStatus t 5 ∧ t.pkg.offline = s.pkg.offline) ∧
    (NamesDie s die → die ∉ s.pkg.offline → Unpinned s → s.pkg.diereq.toNat % 64 = 0 → s.pkg.diereq.toNat < 2 ^ 40 →
      (∀ i < 24, s.byteSeen [] (.hbm (s.pkg.diereq.toNat + 40 + i)) = 0) →
      (die < 4 → (∀ d ∈ s.pkg.offline, 4 ≤ d) → (∀ q ∈ s.sched.preempts, q.id < s.nextId) →
        ∃ t, exec .dieOffline s = .next t ∧ t.goingOff = some die ∧ t.pkg.offline = s.pkg.offline ∧
          ∀ tm ∈ s.teams, dieOf tm.bench = die ∨ (∃ tr ∈ s.trays, tr.team = tm.id ∧ dieOf tr.bench = die) → ToBeSaved s t tm) ∧
      (4 ≤ die → ∃ t, exec .dieOffline s = .next t ∧ OnlyPkg s t ∧ DieStatus t 2 ∧ t.pkg.offline = s.pkg.offline ++ [die] ∧
        ∀ q : Fin 16, t.pkg.portstat[q] = if (if q.val < 8 then 7 else 8) = die then 0 else s.pkg.portstat[q]))) ∧
  (∀ (s : State) (die : Nat), s.input.k = 1 → s.input.id = die → s.goingOff = none → s.cap 0 = true → die = 7 ∨ die = 8 →
    die ∉ s.pkg.offline → ∃ t, exec .dieOffline s = .next t ∧ OnlyPkg s t ∧ t.pkg.offline = s.pkg.offline ++ [die] ∧
      ∀ q : Fin 16, t.pkg.portstat[q] = if (if q.val < 8 then 7 else 8) = die then 0 else s.pkg.portstat[q]) ∧
  (∀ (s : State) (die : Nat), 2 ≤ s.input.k → s.goingOff = some die → s.pkg.report = 0 → s.homeTab = [] → s.ring.cars.length ≤ 896 →
    (∀ q ∈ s.sched.preempts, (∃ f, q.kind = .die f) → q.left = []) → (∀ tm ∈ s.teams, s.onDie die tm = false) →
    let left (t : State) : Prop := DieStatus t 2 ∧ t.pkg.offline = s.pkg.offline ++ [die] ∧ t.ring.size = 1152 ∧ t.ring.count = 896 ∧
      t.ring.cars.length = s.ring.cars.length
    ((∀ a ∈ s.allocs, a.die ≠ die) → ∃ t, exec .dieOffline s = .next t ∧ left t ∧ t.allocs = s.allocs) ∧
    ∀ a : Alloc, s.allocs = [a] → a.die = die → a.lost = false →
      let part := s.partOfCtx a.ctx
      (∀ i f, i ∈ [1, 2, 3] → HasRoom s part ((die + i) % 4) a.units f →
        (∀ j g, 1 ≤ j → j < i → ¬HasRoom s part ((die + j) % 4) a.units g) →
          ∃ t, exec .dieOffline s = .next t ∧ left t ∧ t.allocs = [{ a with die := (die + i) % 4, first := f }]) ∧
      ((∀ j g, j ∈ [1, 2, 3] → ¬HasRoom s part ((die + j) % 4) a.units g) → s.pkg.diectl.getLsbD 7 = false →
        ∃ t, exec .dieOffline s = .next t ∧ DieStatus t 3 ∧ t.pkg.offline = s.pkg.offline ∧ t.allocs = s.allocs)) ∧
  ∀ (s : State) (die : Nat), s.goingOff = none → NamesDie s die → s.input.val.getLsbD 8 = true →
    (die ∉ s.pkg.offline → ∃ t, exec .dieReadmit s = .next t ∧ OnlyPkg s t ∧ DieStatus t 5 ∧ t.pkg.offline = s.pkg.offline) ∧
    (die ∈ s.pkg.offline → ∃ t, exec .dieReadmit s = .next t ∧ DieStatus t 2 ∧ (∀ d, d ∈ t.pkg.offline ↔ d ∈ s.pkg.offline ∧ d ≠ die) ∧
      (die < 4 → (∀ d ∈ s.pkg.offline, d < 4 → d = die) → t.ring.size = 1024 ∧ t.ring.count = 1024))

/-- What the host writes and asks: the fabric number while no port is up, a reconfiguration with its drain markers, the power cap,
DIECTL, DIEREQ, FABTO, PARTTAB and a home-table entry, bytes of memory, an attestation report over the images, the partition
table and the nonce (its order of parts is the model's, log 12); clock steps, the thermal trip, boot, host reset and the
debugger's resume (R169, R199, R359, R365, R372, R378, R385, R388, R389, R391). -/
def Obligations.HostDrivesThePackage : Prop :=
  (∀ s : State, ((∀ q : Fin 16, s.pkg.portstat[q].getLsbD 31 = false) →
      exec .fabnoWrite s = .next { s with pkg := { s.pkg with fabno := s.input.val.setWidth 4 } }) ∧
    ((∃ q : Fin 16, s.pkg.portstat[q].getLsbD 31 = true) → exec .fabnoWrite s = .next s)) ∧
  (∀ s : State, s.cap 0 = true → s.fab.reconfig = none → s.input.pairs ≠ [] → (∀ x ∈ s.input.pairs, x.1 < 16 ∧ x.2 < 16) →
    ∃ t r, exec .fabReconfig s = .next t ∧ t.fab.reconfig = some r ∧ r.ports = s.input.pairs ∧ t.pkg.fabcfgGo = true ∧
      (∀ port vc, (port, vc) ∈ r.markers ↔ vc < 4 ∧ ∃ peer, (port, peer) ∈ s.input.pairs) ∧
      t.outbox = s.outbox ++ r.markers.map fun x => Out.marker x.1 x.2) ∧
  (∀ s : State, 1000 ≤ s.input.val.toNat % 4096 → s.input.val.toNat % 4096 ≤ 3500 →
    exec .pwrcapWrite s = .next { s with pkg := { s.pkg with pwrcap := BitVec.ofNat 12 (s.input.val.toNat % 4096) } }) ∧
  (∀ s : State, let v := s.input.val
    (s.input.id = 0x20 → s.goingOff = none → v.getLsbD 31 = false → ∃ t, exec .registerWrite s = .next t ∧ OnlyPkg s t ∧
      t.pkg.diectl.extractLsb' 0 9 = v.extractLsb' 0 9 ∧ t.pkg.diectl.extractLsb' 28 3 = s.pkg.diectl.extractLsb' 28 3 ∧
      t.pkg.diectl.getLsbD 31 = false) ∧
    (s.input.id = 0x28 → exec .registerWrite s = .next { s with pkg := { s.pkg with diereq := v } }) ∧
    (s.input.id = 0x44 → exec .registerWrite s = .next { s with pkg := { s.pkg with fabto := v.setWidth 32 } }) ∧
    (s.input.id = 0x48 → exec .registerWrite s = .next { s with pkg := { s.pkg with parttab := v } }) ∧
    ∀ i < 256, s.input.id = 0x10000 + 32 * i → s.input.bytes.length = 32 →
      (∀ h, s.homeTab[i]? = some h → ¬(h.valid = true ∧ (h.home = 2 ∨ h.home = 3))) → s.ctx? (fieldAt s.input.bytes 12 2) = none →
      let f (o n : Nat) := fieldAt s.input.bytes o n
      let fit := f 0 8 % 65536 = 0 ∧ 1 ≤ f 8 4 ∧ f 8 4 ≤ 2 ^ 24 ∧ f 12 2 < 4096 ∧ 2 ≤ f 14 1 % 4 ∧ f 15 1 = 0 ∧ f 16 8 < 2 ^ 36 ∧ f 24 8 = 0
      let room := f 14 1 % 4 = 3 → (s.tileSpace (f 14 1 / 4 % 4) (f 8 4)).isSome = true
      ∃ t h, exec .registerWrite s = .next t ∧ t.homeTab[i]? = some h ∧
        (h.valid = true ↔ (f 14 1).testBit 7 = true ∧ fit ∧ room) ∧
        h.base = f 0 8 ∧ h.pages = f 8 4 ∧ h.ctx = f 12 2 ∧ h.home.toNat = f 14 1 % 4 ∧ h.aff.toNat = f 14 1 / 4 % 4 ∧
        h.w = (f 14 1).testBit 4 ∧ h.vers = (f 14 1).testBit 5 ∧ h.prot = (f 14 1).testBit 6 ∧ h.frame = f 16 8 % 2 ^ 36 ∧
        h.store = Store.empty ∧ ∀ j < s.homeTab.length, j ≠ i → t.homeTab[j]? = s.homeTab[j]?) ∧
  (∀ s : State, s.Whole → Unpinned s → (∀ x ∈ s.input.cells, x.1 < 2 ^ 40) → s.input.cells.Pairwise (fun x y => x.1 ≠ y.1) →
    ∃ t, exec .cxlMemWrite s = .next t ∧ (∀ x ∈ s.input.cells, t.byteSeen [] (.hbm x.1) = x.2) ∧
      ∀ a, (∀ x ∈ s.input.cells, x.1 ≠ a) → t.byteSeen [] (.hbm a) = s.byteSeen [] (.hbm a)) ∧
  (∀ s : State, Unpinned s → s.input.id + s.input.n ≤ 2 ^ 40 →
    exec .cxlMemRead s = .next { s with outbox := s.outbox ++
      [Out.cxlData ((List.range s.input.n).map fun i => s.byteSeen [] (.hbm (s.input.id + i)))] }) ∧
  (∀ s : State, exec .clockStep s = .next { s with pkg := { s.pkg with
    clock := if s.input.flag = true then min (s.pkg.clock + 1) 16 else max (s.pkg.clock - 1) 8 } }) ∧
  (∀ s : State, ∃ t, exec .thermalTrip s = .next t ∧ t.pkg.power = .tripped ∧ t.outbox = s.outbox ++ [Out.trip] ∧ t.ctxs = [] ∧
    t.launches = [] ∧ t.teams = [] ∧ t.trays = [] ∧ t.cmds = [] ∧ t.mem = []) ∧
  (∀ s : State, ∃ t, exec .powerOnBoot s = .next t ∧ t.ctxs = [] ∧ t.teams = [] ∧ t.pkg.pwrcap = 3500 ∧ t.pkg.fabno = 0 ∧
    (s.input.images ≠ [] → (∀ x ∈ s.input.images, Config.imageVerifies x = true ∧
        Config.minimumVersion.toNat ≤ (Config.securityVersion x).toNat) →
      t.pkg.power = .running ∧ t.pkg.images = s.input.images) ∧
    ((∃ x ∈ s.input.images, Config.imageVerifies x = false) → t.pkg.power = .inReset)) ∧
  (∀ s : State, ∃ t, exec .hostReset s = .next t ∧ t.pkg.dead = false ∧ t.pkg.removed = [] ∧ t.ctxs = [] ∧ t.teams = [] ∧
    t.pkg.pwrcap = 3500 ∧ t.pkg.fabno = 0 ∧ t.pkg.nlive = 96) ∧
  (∀ (s : State) (id k : Nat), s.input.agent = .tray id k →
    exec .debuggerResume s = .next { s with trays := s.trays.map fun x => if x.id = id then { x with stopped := false } else x }) ∧
  (∀ (s : State) (id : Nat), s.input.agent = .front id →
    exec .debuggerResume s = .next { s with teams := s.teams.map fun x =>
      if x.id = id then { x with front := { x.front with stopped := false } } else x }) ∧
  ∀ s : State, s.input.bytes.length = 32 →
    let body := s.pkg.images.flatMap Config.sha384 ++
      s.pkg.images.flatMap (fun x => leBytes 4 (Config.securityVersion x).toNat) ++ Config.tableHash s.tableBytes ++ s.input.bytes
    exec .attestationRequest s = .next { s with outbox := s.outbox ++
      [Out.report (body ++ Config.signEd25519 body ++ Config.signMlDsa65 body)] }

namespace Sys2Proof.Machine

/-- The bytes of code at a PC as an agent reads them, none of them unreadable (R68, R194, R317). -/
def State.readsCode (s : State) (c : Ctx) (bs : List Byte) : Prop :=
  ∀ k b, bs[k]? = some b → s.fetchByte c.cx c.ver c.team.id (c.ent.pc + BitVec.ofNat 64 k) = .ok b

/-- The device after it has picked a move: the move is gone from those decided, and the model's count goes on (log 2). -/
def State.ticked (s : State) : State := { s with tick := s.tick + 1 }

end Sys2Proof.Machine

/-- A step of a device whose dies run makes the next move, the first one decided where there is one. Where an agent that waits
for nothing issues and the bytes at its PC decode to an instruction that its section may hold, the step is exec of that
instruction, whatever stands behind it. A reserved word, an unaccepted prefix or an instruction of the other section raises 0x01;
a byte that cannot be fetched before the word is whole raises its own cause. Where an event comes next, the step is
exec of that event on what it brings (R68, R79, R81, R82, R194). What a group reads of tokens before its effect (`Issues`) moves
only who is known to have seen which write, whose protected sectors and deltas are waited for, and which tokens are unread
(R225, R355, R392). -/
def Obligations.StepRunsTheDecodedInstruction : Prop :=
  (∀ (s : State) (c : Ctx) (r : Req),
    let rest (x : State) : State := { x with past := [], tokens := [], fab := { x.fab with dirty := [], deltas := [] } }
    rest (s.readTokens c r) = rest s) ∧
  ∀ s : State, s.pkg.power = .running →
    (∀ m rest, s.agenda = m :: rest → s.nextMove = some (m, { s with agenda := rest })) ∧
    (∀ i x s', s.nextMove = some (.event i x, s') → step s = exec i { s'.ticked with cur := .none, input := x }) ∧
    ∀ (a : Agent) (s' : State) (c : Ctx) (bs : List Byte), s.nextMove = some (.issue a, s') →
      s'.ticked.agentCtx a = some c → s'.ticked.canTry a = true → bs.length ≤ 12 → s'.ticked.readsCode c bs →
        (∀ i r, decode bs = .ok (i, r) → i.legal c.front = true →
          step s = exec i ((s'.ticked.begin a).fetched c)) ∧
        ((∃ e, decode bs = .error e ∧ e ≠ .short) ∨ (∃ i r, decode bs = .ok (i, r) ∧ i.legal c.front = false) →
          step s = .next ((s'.ticked.begin a).raise c { code := 0x01, mask := c.ent.mask })) ∧
        ∀ e, decode bs = .error .short → bs.length < 12 →
          s'.ticked.fetchByte c.cx c.ver c.team.id (c.ent.pc + BitVec.ofNat 64 bs.length) = .error e →
            step s = .next ((s'.ticked.begin a).raise c
              { code := e, mask := c.ent.mask, addr := if e = 0x0A then c.ent.pc else c.ent.pc + BitVec.ofNat 64 bs.length })

/-- Words written out from the manual's encodings decode to what they stand for: of the formats F3, FI, FM, FQ and FB, of each
kind of field, under one prefix and under two in either order, and compact forms; reserved words, wrong prefixes and nonzero
required zeros decode to nothing (R68-R74, R76, R78, R79, R81). -/
def Obligations.DecodeReadsTheEncodings : Prop :=
  let word (n : Nat) := wordBytes (BitVec.ofNat 32 n)
  let half (n : Nat) := halfBytes (BitVec.ofNat 16 n)
  -- the high fields first: y x b a d funct major 1
  decode (word 0b1_0_0000011_0000010_0000001_000_00000_1) =
    .ok (.add Pfx.empty { d := 1, a := 2, b := 3, ta := false, tb := true }, []) ∧
  decode (word 0b0_1_1010000_0100001_0000111_000_01001_1) =
    .ok (.fma Pfx.empty { d := 7, a := 33, b := 80, ta := true, tb := false }, []) ∧
  decode (word 0b0_0_0000101_0000100_0000_011_100_00100_1) =
    .ok (.cmpltu Pfx.empty { p := 3, a := 4, b := 5, ta := false, tb := false }, []) ∧
  decode (word 0b0_0_0000101_0000100_0000011_110_00101_1) =
    .ok (.sel Pfx.empty { n := 6, d := 3, a := 4, b := 5, ta := false, tb := false }, []) ∧
  decode (word 0b1_11111110_0000100_0000011_001_00111_1) =
    .ok (.addi Pfx.empty { d := 3, a := 4, imm := 0xFE, ta := true }, []) ∧
  decode (word 0b10_0000110_0000100_0000011_000_01111_1) =
    .ok (.pke4 Pfx.empty { d := 3, a := 4, s := 6, bsel := 2 }, []) ∧
  decode (word 0b0_1_1111111_0000100_0000011_011_10010_1) =
    .ok (.ld32 Pfx.empty { d := 3, a := 4, off := 127, ta := true }, []) ∧
  decode (word 0b1_0_0000001_0000100_0001000_100_10011_1) =
    .ok (.st128 Pfx.empty { d := 8, a := 4, off := 1, ta := false, td := true }, []) ∧
  decode (word 0b0_0_0000110_0000100_0000010_101_10100_1) =
    .ok (.atcas Pfx.empty { d := 2, a := 4, b := 6, ta := false, tb := false }, []) ∧
  decode (word 0b11111111111110_111111_000_000_11100_1) = .ok (.bra { pri := 63, off := 0x3FFE }, []) ∧
  decode (word 0b00000000000011_000001_101_001_11100_1) =
    .ok (.brp { p := 5, pri := 1, off := 3 }, []) ∧
  decode (word 0b000000000_0001101_0000010_101_11011_1) = .ok (.movsr { d := 2, sr := 13 }, []) ∧
  decode (half 0b1_00011_00010_0001_0) = .ok (.addC { d := 2, b := 3, s := true }, []) ∧
  decode (half 0b111111_00010_1001_0) = .ok (.moviC { d := 2, imm := 63 }, []) ∧
  -- IMM 0x12345 and GUARD p2, neg, clear before ADDI, in both orders
  (let imm := word 0b00000010010001101000101_000_11111_1
   let guard := word 0b000000000000000000_11_010_001_11111_1
   let addi := word 0b0_00000001_0000100_0000011_001_00111_1
   let i : Instr := .addi { imm := some 0x12345, guard := some { p := 2, neg := true, clear := true }, mod := none, ximm := none }
     { d := 3, a := 4, imm := 1, ta := false }
   decode (imm ++ guard ++ addi) = .ok (i, []) ∧ decode (guard ++ imm ++ addi) = .ok (i, []) ∧
   decode (imm ++ imm ++ addi) = .error .twoOfOneKind ∧ decode (imm ++ half 0) = .error .prefixBeforeCompact ∧
   decode (imm ++ guard ++ word 0b010_11111_1 ++ addi) = .error .threePrefixes) ∧
  decode (word 0b0_0_0000000_0000000_0000000_111_11011_1) = .error .reservedSlot ∧
  decode (word 0b0_0_0000001_0000000_0000000_011_11110_1) = .error .requiredZero ∧
  decode ([0xBB#8, 0x01#8, 0#8]) = .error .short

/-- Every well-formed instruction decodes from its own encoding, every operand and prefix at every value, and what follows it
is left; a group without prefixes is encoded in one way only, and one with prefixes takes up its instruction's length
(R68-R81). -/
def Obligations.DecodeAndEncodeAgree : Prop :=
  (∀ i : Instr, i.wf = true → ∀ rest, decode (encode i ++ rest) = .ok (i, rest)) ∧
  ∀ (bs : List Byte) (i : Instr) (r : List Byte), decode bs = .ok (i, r) →
    bs.length = i.size + r.length ∧ (i.pfx = Pfx.empty → bs = encode i ++ r)

/-- What the manual gives for the device right after reset: 96 live slices, no request pending, fabric number 0, no port up, a
power cap of 3,500 W, a clock of 1.5 GHz, 1,024 cars on 1,024 positions, no context and nothing resident; and the model's
memory is whole (R4, R209, R359, R361, R365, R371, R372, R391). -/
def Obligations.ResetLeavesTheDeviceEmpty : Prop :=
  let s := State.reset
  s.pkg.nlive = 96 ∧ s.pkg.live = BitVec.allOnes 96 ∧ s.pkg.pend = false ∧ s.pkg.diectl = 0 ∧ s.pkg.fabno = 0 ∧
    s.pkg.fabcfgGo = false ∧ (∀ k : Fin 16, s.pkg.portstat[k] = 0) ∧ s.pkg.pwrcap = 3500 ∧ s.pkg.clock = 16 ∧
    s.ring.size = 1024 ∧ s.ring.count = 1024 ∧ s.ring.cars = [] ∧ s.ctxs = [] ∧ s.launches = [] ∧ s.teams = [] ∧ s.trays = [] ∧
    s.prods = [] ∧ s.cmds = [] ∧ s.vlines = [] ∧ s.Whole

/-- Every step keeps the memory whole: whatever steps, its lists stay in canonical form, every version line holds a whole
sector, and no version has two lines of one location, none of them of the team region (R190, R319; log 1). -/
def Obligations.StepKeepsMemoryWhole : Prop :=
  ∀ s t : State, s.Whole → step s = .next t → t.Whole
end

