-- ==== Sys2Proof/Laws/State.lean ====
section
/-!
SUPPORT. Laws/State.lean: each field of the state after each update of one object, so that no proof unfolds a record update.
-/

namespace Sys2Proof.Machine

@[simp] theorem State.modTray_variant (s : State) (id : Nat) (g : Tray → Tray) : (s.modTray id g).variant = s.variant := rfl
@[simp] theorem State.modTray_ctxs (s : State) (id : Nat) (g : Tray → Tray) : (s.modTray id g).ctxs = s.ctxs := rfl
@[simp] theorem State.modTray_launches (s : State) (id : Nat) (g : Tray → Tray) : (s.modTray id g).launches = s.launches := rfl
@[simp] theorem State.modTray_teams (s : State) (id : Nat) (g : Tray → Tray) : (s.modTray id g).teams = s.teams := rfl
@[simp] theorem State.modTray_trays (s : State) (id : Nat) (g : Tray → Tray) : (s.modTray id g).trays = s.trays.map fun x => if x.id == id then g x else x := rfl
@[simp] theorem State.modTray_prods (s : State) (id : Nat) (g : Tray → Tray) : (s.modTray id g).prods = s.prods := rfl
@[simp] theorem State.modTray_cmds (s : State) (id : Nat) (g : Tray → Tray) : (s.modTray id g).cmds = s.cmds := rfl
@[simp] theorem State.modTray_epochs (s : State) (id : Nat) (g : Tray → Tray) : (s.modTray id g).epochs = s.epochs := rfl
@[simp] theorem State.modTray_remnants (s : State) (id : Nat) (g : Tray → Tray) : (s.modTray id g).remnants = s.remnants := rfl
@[simp] theorem State.modTray_dieSeq (s : State) (id : Nat) (g : Tray → Tray) : (s.modTray id g).dieSeq = s.dieSeq := rfl
@[simp] theorem State.modTray_arrays (s : State) (id : Nat) (g : Tray → Tray) : (s.modTray id g).arrays = s.arrays := rfl
@[simp] theorem State.modTray_ring (s : State) (id : Nat) (g : Tray → Tray) : (s.modTray id g).ring = s.ring := rfl
@[simp] theorem State.modTray_mem (s : State) (id : Nat) (g : Tray → Tray) : (s.modTray id g).mem = s.mem := rfl
@[simp] theorem State.modTray_tags (s : State) (id : Nat) (g : Tray → Tray) : (s.modTray id g).tags = s.tags := rfl
@[simp] theorem State.modTray_vlines (s : State) (id : Nat) (g : Tray → Tray) : (s.modTray id g).vlines = s.vlines := rfl
@[simp] theorem State.modTray_vtags (s : State) (id : Nat) (g : Tray → Tray) : (s.modTray id g).vtags = s.vtags := rfl
@[simp] theorem State.modTray_allocs (s : State) (id : Nat) (g : Tray → Tray) : (s.modTray id g).allocs = s.allocs := rfl
@[simp] theorem State.modTray_homeTab (s : State) (id : Nat) (g : Tray → Tray) : (s.modTray id g).homeTab = s.homeTab := rfl
@[simp] theorem State.modTray_remapFilt (s : State) (id : Nat) (g : Tray → Tray) : (s.modTray id g).remapFilt = s.remapFilt := rfl
@[simp] theorem State.modTray_copies (s : State) (id : Nat) (g : Tray → Tray) : (s.modTray id g).copies = s.copies := rfl
@[simp] theorem State.modTray_uncached (s : State) (id : Nat) (g : Tray → Tray) : (s.modTray id g).uncached = s.uncached := rfl
@[simp] theorem State.modTray_hubDirty (s : State) (id : Nat) (g : Tray → Tray) : (s.modTray id g).hubDirty = s.hubDirty := rfl
@[simp] theorem State.modTray_past (s : State) (id : Nat) (g : Tray → Tray) : (s.modTray id g).past = s.past := rfl
@[simp] theorem State.modTray_tokens (s : State) (id : Nat) (g : Tray → Tray) : (s.modTray id g).tokens = s.tokens := rfl
@[simp] theorem State.modTray_shadows (s : State) (id : Nat) (g : Tray → Tray) : (s.modTray id g).shadows = s.shadows := rfl
@[simp] theorem State.modTray_strays (s : State) (id : Nat) (g : Tray → Tray) : (s.modTray id g).strays = s.strays := rfl
@[simp] theorem State.modTray_promoted (s : State) (id : Nat) (g : Tray → Tray) : (s.modTray id g).promoted = s.promoted := rfl
@[simp] theorem State.modTray_sched (s : State) (id : Nat) (g : Tray → Tray) : (s.modTray id g).sched = s.sched := rfl
@[simp] theorem State.modTray_fab (s : State) (id : Nat) (g : Tray → Tray) : (s.modTray id g).fab = s.fab := rfl
@[simp] theorem State.modTray_pkg (s : State) (id : Nat) (g : Tray → Tray) : (s.modTray id g).pkg = s.pkg := rfl
@[simp] theorem State.modTray_clk (s : State) (id : Nat) (g : Tray → Tray) : (s.modTray id g).clk = s.clk := rfl
@[simp] theorem State.modTray_timeU (s : State) (id : Nat) (g : Tray → Tray) : (s.modTray id g).timeU = s.timeU := rfl
@[simp] theorem State.modTray_outbox (s : State) (id : Nat) (g : Tray → Tray) : (s.modTray id g).outbox = s.outbox := rfl
@[simp] theorem State.modTray_agenda (s : State) (id : Nat) (g : Tray → Tray) : (s.modTray id g).agenda = s.agenda := rfl
@[simp] theorem State.modTray_cur (s : State) (id : Nat) (g : Tray → Tray) : (s.modTray id g).cur = s.cur := rfl
@[simp] theorem State.modTray_input (s : State) (id : Nat) (g : Tray → Tray) : (s.modTray id g).input = s.input := rfl
@[simp] theorem State.modTray_stalled (s : State) (id : Nat) (g : Tray → Tray) : (s.modTray id g).stalled = s.stalled := rfl
@[simp] theorem State.modTray_tick (s : State) (id : Nat) (g : Tray → Tray) : (s.modTray id g).tick = s.tick := rfl
@[simp] theorem State.modTray_nextId (s : State) (id : Nat) (g : Tray → Tray) : (s.modTray id g).nextId = s.nextId := rfl

@[simp] theorem State.modTeam_variant (s : State) (id : Nat) (g : Team → Team) : (s.modTeam id g).variant = s.variant := rfl
@[simp] theorem State.modTeam_ctxs (s : State) (id : Nat) (g : Team → Team) : (s.modTeam id g).ctxs = s.ctxs := rfl
@[simp] theorem State.modTeam_launches (s : State) (id : Nat) (g : Team → Team) : (s.modTeam id g).launches = s.launches := rfl
@[simp] theorem State.modTeam_teams (s : State) (id : Nat) (g : Team → Team) : (s.modTeam id g).teams = s.teams.map fun x => if x.id == id then g x else x := rfl
@[simp] theorem State.modTeam_trays (s : State) (id : Nat) (g : Team → Team) : (s.modTeam id g).trays = s.trays := rfl
@[simp] theorem State.modTeam_prods (s : State) (id : Nat) (g : Team → Team) : (s.modTeam id g).prods = s.prods := rfl
@[simp] theorem State.modTeam_cmds (s : State) (id : Nat) (g : Team → Team) : (s.modTeam id g).cmds = s.cmds := rfl
@[simp] theorem State.modTeam_epochs (s : State) (id : Nat) (g : Team → Team) : (s.modTeam id g).epochs = s.epochs := rfl
@[simp] theorem State.modTeam_remnants (s : State) (id : Nat) (g : Team → Team) : (s.modTeam id g).remnants = s.remnants := rfl
@[simp] theorem State.modTeam_dieSeq (s : State) (id : Nat) (g : Team → Team) : (s.modTeam id g).dieSeq = s.dieSeq := rfl
@[simp] theorem State.modTeam_arrays (s : State) (id : Nat) (g : Team → Team) : (s.modTeam id g).arrays = s.arrays := rfl
@[simp] theorem State.modTeam_ring (s : State) (id : Nat) (g : Team → Team) : (s.modTeam id g).ring = s.ring := rfl
@[simp] theorem State.modTeam_mem (s : State) (id : Nat) (g : Team → Team) : (s.modTeam id g).mem = s.mem := rfl
@[simp] theorem State.modTeam_tags (s : State) (id : Nat) (g : Team → Team) : (s.modTeam id g).tags = s.tags := rfl
@[simp] theorem State.modTeam_vlines (s : State) (id : Nat) (g : Team → Team) : (s.modTeam id g).vlines = s.vlines := rfl
@[simp] theorem State.modTeam_vtags (s : State) (id : Nat) (g : Team → Team) : (s.modTeam id g).vtags = s.vtags := rfl
@[simp] theorem State.modTeam_allocs (s : State) (id : Nat) (g : Team → Team) : (s.modTeam id g).allocs = s.allocs := rfl
@[simp] theorem State.modTeam_homeTab (s : State) (id : Nat) (g : Team → Team) : (s.modTeam id g).homeTab = s.homeTab := rfl
@[simp] theorem State.modTeam_remapFilt (s : State) (id : Nat) (g : Team → Team) : (s.modTeam id g).remapFilt = s.remapFilt := rfl
@[simp] theorem State.modTeam_copies (s : State) (id : Nat) (g : Team → Team) : (s.modTeam id g).copies = s.copies := rfl
@[simp] theorem State.modTeam_uncached (s : State) (id : Nat) (g : Team → Team) : (s.modTeam id g).uncached = s.uncached := rfl
@[simp] theorem State.modTeam_hubDirty (s : State) (id : Nat) (g : Team → Team) : (s.modTeam id g).hubDirty = s.hubDirty := rfl
@[simp] theorem State.modTeam_past (s : State) (id : Nat) (g : Team → Team) : (s.modTeam id g).past = s.past := rfl
@[simp] theorem State.modTeam_tokens (s : State) (id : Nat) (g : Team → Team) : (s.modTeam id g).tokens = s.tokens := rfl
@[simp] theorem State.modTeam_shadows (s : State) (id : Nat) (g : Team → Team) : (s.modTeam id g).shadows = s.shadows := rfl
@[simp] theorem State.modTeam_strays (s : State) (id : Nat) (g : Team → Team) : (s.modTeam id g).strays = s.strays := rfl
@[simp] theorem State.modTeam_promoted (s : State) (id : Nat) (g : Team → Team) : (s.modTeam id g).promoted = s.promoted := rfl
@[simp] theorem State.modTeam_sched (s : State) (id : Nat) (g : Team → Team) : (s.modTeam id g).sched = s.sched := rfl
@[simp] theorem State.modTeam_fab (s : State) (id : Nat) (g : Team → Team) : (s.modTeam id g).fab = s.fab := rfl
@[simp] theorem State.modTeam_pkg (s : State) (id : Nat) (g : Team → Team) : (s.modTeam id g).pkg = s.pkg := rfl
@[simp] theorem State.modTeam_clk (s : State) (id : Nat) (g : Team → Team) : (s.modTeam id g).clk = s.clk := rfl
@[simp] theorem State.modTeam_timeU (s : State) (id : Nat) (g : Team → Team) : (s.modTeam id g).timeU = s.timeU := rfl
@[simp] theorem State.modTeam_outbox (s : State) (id : Nat) (g : Team → Team) : (s.modTeam id g).outbox = s.outbox := rfl
@[simp] theorem State.modTeam_agenda (s : State) (id : Nat) (g : Team → Team) : (s.modTeam id g).agenda = s.agenda := rfl
@[simp] theorem State.modTeam_cur (s : State) (id : Nat) (g : Team → Team) : (s.modTeam id g).cur = s.cur := rfl
@[simp] theorem State.modTeam_input (s : State) (id : Nat) (g : Team → Team) : (s.modTeam id g).input = s.input := rfl
@[simp] theorem State.modTeam_stalled (s : State) (id : Nat) (g : Team → Team) : (s.modTeam id g).stalled = s.stalled := rfl
@[simp] theorem State.modTeam_tick (s : State) (id : Nat) (g : Team → Team) : (s.modTeam id g).tick = s.tick := rfl
@[simp] theorem State.modTeam_nextId (s : State) (id : Nat) (g : Team → Team) : (s.modTeam id g).nextId = s.nextId := rfl

@[simp] theorem State.modFront_variant (s : State) (id : Nat) (g : Front → Front) : (s.modFront id g).variant = s.variant := rfl
@[simp] theorem State.modFront_ctxs (s : State) (id : Nat) (g : Front → Front) : (s.modFront id g).ctxs = s.ctxs := rfl
@[simp] theorem State.modFront_launches (s : State) (id : Nat) (g : Front → Front) : (s.modFront id g).launches = s.launches := rfl
@[simp] theorem State.modFront_teams (s : State) (id : Nat) (g : Front → Front) : (s.modFront id g).teams = s.teams.map fun x => if x.id == id then { x with front := g x.front } else x := rfl
@[simp] theorem State.modFront_trays (s : State) (id : Nat) (g : Front → Front) : (s.modFront id g).trays = s.trays := rfl
@[simp] theorem State.modFront_prods (s : State) (id : Nat) (g : Front → Front) : (s.modFront id g).prods = s.prods := rfl
@[simp] theorem State.modFront_cmds (s : State) (id : Nat) (g : Front → Front) : (s.modFront id g).cmds = s.cmds := rfl
@[simp] theorem State.modFront_epochs (s : State) (id : Nat) (g : Front → Front) : (s.modFront id g).epochs = s.epochs := rfl
@[simp] theorem State.modFront_remnants (s : State) (id : Nat) (g : Front → Front) : (s.modFront id g).remnants = s.remnants := rfl
@[simp] theorem State.modFront_dieSeq (s : State) (id : Nat) (g : Front → Front) : (s.modFront id g).dieSeq = s.dieSeq := rfl
@[simp] theorem State.modFront_arrays (s : State) (id : Nat) (g : Front → Front) : (s.modFront id g).arrays = s.arrays := rfl
@[simp] theorem State.modFront_ring (s : State) (id : Nat) (g : Front → Front) : (s.modFront id g).ring = s.ring := rfl
@[simp] theorem State.modFront_mem (s : State) (id : Nat) (g : Front → Front) : (s.modFront id g).mem = s.mem := rfl
@[simp] theorem State.modFront_tags (s : State) (id : Nat) (g : Front → Front) : (s.modFront id g).tags = s.tags := rfl
@[simp] theorem State.modFront_vlines (s : State) (id : Nat) (g : Front → Front) : (s.modFront id g).vlines = s.vlines := rfl
@[simp] theorem State.modFront_vtags (s : State) (id : Nat) (g : Front → Front) : (s.modFront id g).vtags = s.vtags := rfl
@[simp] theorem State.modFront_allocs (s : State) (id : Nat) (g : Front → Front) : (s.modFront id g).allocs = s.allocs := rfl
@[simp] theorem State.modFront_homeTab (s : State) (id : Nat) (g : Front → Front) : (s.modFront id g).homeTab = s.homeTab := rfl
@[simp] theorem State.modFront_remapFilt (s : State) (id : Nat) (g : Front → Front) : (s.modFront id g).remapFilt = s.remapFilt := rfl
@[simp] theorem State.modFront_copies (s : State) (id : Nat) (g : Front → Front) : (s.modFront id g).copies = s.copies := rfl
@[simp] theorem State.modFront_uncached (s : State) (id : Nat) (g : Front → Front) : (s.modFront id g).uncached = s.uncached := rfl
@[simp] theorem State.modFront_hubDirty (s : State) (id : Nat) (g : Front → Front) : (s.modFront id g).hubDirty = s.hubDirty := rfl
@[simp] theorem State.modFront_past (s : State) (id : Nat) (g : Front → Front) : (s.modFront id g).past = s.past := rfl
@[simp] theorem State.modFront_tokens (s : State) (id : Nat) (g : Front → Front) : (s.modFront id g).tokens = s.tokens := rfl
@[simp] theorem State.modFront_shadows (s : State) (id : Nat) (g : Front → Front) : (s.modFront id g).shadows = s.shadows := rfl
@[simp] theorem State.modFront_strays (s : State) (id : Nat) (g : Front → Front) : (s.modFront id g).strays = s.strays := rfl
@[simp] theorem State.modFront_promoted (s : State) (id : Nat) (g : Front → Front) : (s.modFront id g).promoted = s.promoted := rfl
@[simp] theorem State.modFront_sched (s : State) (id : Nat) (g : Front → Front) : (s.modFront id g).sched = s.sched := rfl
@[simp] theorem State.modFront_fab (s : State) (id : Nat) (g : Front → Front) : (s.modFront id g).fab = s.fab := rfl
@[simp] theorem State.modFront_pkg (s : State) (id : Nat) (g : Front → Front) : (s.modFront id g).pkg = s.pkg := rfl
@[simp] theorem State.modFront_clk (s : State) (id : Nat) (g : Front → Front) : (s.modFront id g).clk = s.clk := rfl
@[simp] theorem State.modFront_timeU (s : State) (id : Nat) (g : Front → Front) : (s.modFront id g).timeU = s.timeU := rfl
@[simp] theorem State.modFront_outbox (s : State) (id : Nat) (g : Front → Front) : (s.modFront id g).outbox = s.outbox := rfl
@[simp] theorem State.modFront_agenda (s : State) (id : Nat) (g : Front → Front) : (s.modFront id g).agenda = s.agenda := rfl
@[simp] theorem State.modFront_cur (s : State) (id : Nat) (g : Front → Front) : (s.modFront id g).cur = s.cur := rfl
@[simp] theorem State.modFront_input (s : State) (id : Nat) (g : Front → Front) : (s.modFront id g).input = s.input := rfl
@[simp] theorem State.modFront_stalled (s : State) (id : Nat) (g : Front → Front) : (s.modFront id g).stalled = s.stalled := rfl
@[simp] theorem State.modFront_tick (s : State) (id : Nat) (g : Front → Front) : (s.modFront id g).tick = s.tick := rfl
@[simp] theorem State.modFront_nextId (s : State) (id : Nat) (g : Front → Front) : (s.modFront id g).nextId = s.nextId := rfl

@[simp] theorem State.modLaunch_variant (s : State) (id : Nat) (g : Launch → Launch) : (s.modLaunch id g).variant = s.variant := rfl
@[simp] theorem State.modLaunch_ctxs (s : State) (id : Nat) (g : Launch → Launch) : (s.modLaunch id g).ctxs = s.ctxs := rfl
@[simp] theorem State.modLaunch_launches (s : State) (id : Nat) (g : Launch → Launch) : (s.modLaunch id g).launches = s.launches.map fun x => if x.id == id then g x else x := rfl
@[simp] theorem State.modLaunch_teams (s : State) (id : Nat) (g : Launch → Launch) : (s.modLaunch id g).teams = s.teams := rfl
@[simp] theorem State.modLaunch_trays (s : State) (id : Nat) (g : Launch → Launch) : (s.modLaunch id g).trays = s.trays := rfl
@[simp] theorem State.modLaunch_prods (s : State) (id : Nat) (g : Launch → Launch) : (s.modLaunch id g).prods = s.prods := rfl
@[simp] theorem State.modLaunch_cmds (s : State) (id : Nat) (g : Launch → Launch) : (s.modLaunch id g).cmds = s.cmds := rfl
@[simp] theorem State.modLaunch_epochs (s : State) (id : Nat) (g : Launch → Launch) : (s.modLaunch id g).epochs = s.epochs := rfl
@[simp] theorem State.modLaunch_remnants (s : State) (id : Nat) (g : Launch → Launch) : (s.modLaunch id g).remnants = s.remnants := rfl
@[simp] theorem State.modLaunch_dieSeq (s : State) (id : Nat) (g : Launch → Launch) : (s.modLaunch id g).dieSeq = s.dieSeq := rfl
@[simp] theorem State.modLaunch_arrays (s : State) (id : Nat) (g : Launch → Launch) : (s.modLaunch id g).arrays = s.arrays := rfl
@[simp] theorem State.modLaunch_ring (s : State) (id : Nat) (g : Launch → Launch) : (s.modLaunch id g).ring = s.ring := rfl
@[simp] theorem State.modLaunch_mem (s : State) (id : Nat) (g : Launch → Launch) : (s.modLaunch id g).mem = s.mem := rfl
@[simp] theorem State.modLaunch_tags (s : State) (id : Nat) (g : Launch → Launch) : (s.modLaunch id g).tags = s.tags := rfl
@[simp] theorem State.modLaunch_vlines (s : State) (id : Nat) (g : Launch → Launch) : (s.modLaunch id g).vlines = s.vlines := rfl
@[simp] theorem State.modLaunch_vtags (s : State) (id : Nat) (g : Launch → Launch) : (s.modLaunch id g).vtags = s.vtags := rfl
@[simp] theorem State.modLaunch_allocs (s : State) (id : Nat) (g : Launch → Launch) : (s.modLaunch id g).allocs = s.allocs := rfl
@[simp] theorem State.modLaunch_homeTab (s : State) (id : Nat) (g : Launch → Launch) : (s.modLaunch id g).homeTab = s.homeTab := rfl
@[simp] theorem State.modLaunch_remapFilt (s : State) (id : Nat) (g : Launch → Launch) : (s.modLaunch id g).remapFilt = s.remapFilt := rfl
@[simp] theorem State.modLaunch_copies (s : State) (id : Nat) (g : Launch → Launch) : (s.modLaunch id g).copies = s.copies := rfl
@[simp] theorem State.modLaunch_uncached (s : State) (id : Nat) (g : Launch → Launch) : (s.modLaunch id g).uncached = s.uncached := rfl
@[simp] theorem State.modLaunch_hubDirty (s : State) (id : Nat) (g : Launch → Launch) : (s.modLaunch id g).hubDirty = s.hubDirty := rfl
@[simp] theorem State.modLaunch_past (s : State) (id : Nat) (g : Launch → Launch) : (s.modLaunch id g).past = s.past := rfl
@[simp] theorem State.modLaunch_tokens (s : State) (id : Nat) (g : Launch → Launch) : (s.modLaunch id g).tokens = s.tokens := rfl
@[simp] theorem State.modLaunch_shadows (s : State) (id : Nat) (g : Launch → Launch) : (s.modLaunch id g).shadows = s.shadows := rfl
@[simp] theorem State.modLaunch_strays (s : State) (id : Nat) (g : Launch → Launch) : (s.modLaunch id g).strays = s.strays := rfl
@[simp] theorem State.modLaunch_promoted (s : State) (id : Nat) (g : Launch → Launch) : (s.modLaunch id g).promoted = s.promoted := rfl
@[simp] theorem State.modLaunch_sched (s : State) (id : Nat) (g : Launch → Launch) : (s.modLaunch id g).sched = s.sched := rfl
@[simp] theorem State.modLaunch_fab (s : State) (id : Nat) (g : Launch → Launch) : (s.modLaunch id g).fab = s.fab := rfl
@[simp] theorem State.modLaunch_pkg (s : State) (id : Nat) (g : Launch → Launch) : (s.modLaunch id g).pkg = s.pkg := rfl
@[simp] theorem State.modLaunch_clk (s : State) (id : Nat) (g : Launch → Launch) : (s.modLaunch id g).clk = s.clk := rfl
@[simp] theorem State.modLaunch_timeU (s : State) (id : Nat) (g : Launch → Launch) : (s.modLaunch id g).timeU = s.timeU := rfl
@[simp] theorem State.modLaunch_outbox (s : State) (id : Nat) (g : Launch → Launch) : (s.modLaunch id g).outbox = s.outbox := rfl
@[simp] theorem State.modLaunch_agenda (s : State) (id : Nat) (g : Launch → Launch) : (s.modLaunch id g).agenda = s.agenda := rfl
@[simp] theorem State.modLaunch_cur (s : State) (id : Nat) (g : Launch → Launch) : (s.modLaunch id g).cur = s.cur := rfl
@[simp] theorem State.modLaunch_input (s : State) (id : Nat) (g : Launch → Launch) : (s.modLaunch id g).input = s.input := rfl
@[simp] theorem State.modLaunch_stalled (s : State) (id : Nat) (g : Launch → Launch) : (s.modLaunch id g).stalled = s.stalled := rfl
@[simp] theorem State.modLaunch_tick (s : State) (id : Nat) (g : Launch → Launch) : (s.modLaunch id g).tick = s.tick := rfl
@[simp] theorem State.modLaunch_nextId (s : State) (id : Nat) (g : Launch → Launch) : (s.modLaunch id g).nextId = s.nextId := rfl

@[simp] theorem State.modCtx_variant (s : State) (id : Nat) (g : Context → Context) : (s.modCtx id g).variant = s.variant := rfl
@[simp] theorem State.modCtx_ctxs (s : State) (id : Nat) (g : Context → Context) : (s.modCtx id g).ctxs = s.ctxs.map fun x => if x.id == id then g x else x := rfl
@[simp] theorem State.modCtx_launches (s : State) (id : Nat) (g : Context → Context) : (s.modCtx id g).launches = s.launches := rfl
@[simp] theorem State.modCtx_teams (s : State) (id : Nat) (g : Context → Context) : (s.modCtx id g).teams = s.teams := rfl
@[simp] theorem State.modCtx_trays (s : State) (id : Nat) (g : Context → Context) : (s.modCtx id g).trays = s.trays := rfl
@[simp] theorem State.modCtx_prods (s : State) (id : Nat) (g : Context → Context) : (s.modCtx id g).prods = s.prods := rfl
@[simp] theorem State.modCtx_cmds (s : State) (id : Nat) (g : Context → Context) : (s.modCtx id g).cmds = s.cmds := rfl
@[simp] theorem State.modCtx_epochs (s : State) (id : Nat) (g : Context → Context) : (s.modCtx id g).epochs = s.epochs := rfl
@[simp] theorem State.modCtx_remnants (s : State) (id : Nat) (g : Context → Context) : (s.modCtx id g).remnants = s.remnants := rfl
@[simp] theorem State.modCtx_dieSeq (s : State) (id : Nat) (g : Context → Context) : (s.modCtx id g).dieSeq = s.dieSeq := rfl
@[simp] theorem State.modCtx_arrays (s : State) (id : Nat) (g : Context → Context) : (s.modCtx id g).arrays = s.arrays := rfl
@[simp] theorem State.modCtx_ring (s : State) (id : Nat) (g : Context → Context) : (s.modCtx id g).ring = s.ring := rfl
@[simp] theorem State.modCtx_mem (s : State) (id : Nat) (g : Context → Context) : (s.modCtx id g).mem = s.mem := rfl
@[simp] theorem State.modCtx_tags (s : State) (id : Nat) (g : Context → Context) : (s.modCtx id g).tags = s.tags := rfl
@[simp] theorem State.modCtx_vlines (s : State) (id : Nat) (g : Context → Context) : (s.modCtx id g).vlines = s.vlines := rfl
@[simp] theorem State.modCtx_vtags (s : State) (id : Nat) (g : Context → Context) : (s.modCtx id g).vtags = s.vtags := rfl
@[simp] theorem State.modCtx_allocs (s : State) (id : Nat) (g : Context → Context) : (s.modCtx id g).allocs = s.allocs := rfl
@[simp] theorem State.modCtx_homeTab (s : State) (id : Nat) (g : Context → Context) : (s.modCtx id g).homeTab = s.homeTab := rfl
@[simp] theorem State.modCtx_remapFilt (s : State) (id : Nat) (g : Context → Context) : (s.modCtx id g).remapFilt = s.remapFilt := rfl
@[simp] theorem State.modCtx_copies (s : State) (id : Nat) (g : Context → Context) : (s.modCtx id g).copies = s.copies := rfl
@[simp] theorem State.modCtx_uncached (s : State) (id : Nat) (g : Context → Context) : (s.modCtx id g).uncached = s.uncached := rfl
@[simp] theorem State.modCtx_hubDirty (s : State) (id : Nat) (g : Context → Context) : (s.modCtx id g).hubDirty = s.hubDirty := rfl
@[simp] theorem State.modCtx_past (s : State) (id : Nat) (g : Context → Context) : (s.modCtx id g).past = s.past := rfl
@[simp] theorem State.modCtx_tokens (s : State) (id : Nat) (g : Context → Context) : (s.modCtx id g).tokens = s.tokens := rfl
@[simp] theorem State.modCtx_shadows (s : State) (id : Nat) (g : Context → Context) : (s.modCtx id g).shadows = s.shadows := rfl
@[simp] theorem State.modCtx_strays (s : State) (id : Nat) (g : Context → Context) : (s.modCtx id g).strays = s.strays := rfl
@[simp] theorem State.modCtx_promoted (s : State) (id : Nat) (g : Context → Context) : (s.modCtx id g).promoted = s.promoted := rfl
@[simp] theorem State.modCtx_sched (s : State) (id : Nat) (g : Context → Context) : (s.modCtx id g).sched = s.sched := rfl
@[simp] theorem State.modCtx_fab (s : State) (id : Nat) (g : Context → Context) : (s.modCtx id g).fab = s.fab := rfl
@[simp] theorem State.modCtx_pkg (s : State) (id : Nat) (g : Context → Context) : (s.modCtx id g).pkg = s.pkg := rfl
@[simp] theorem State.modCtx_clk (s : State) (id : Nat) (g : Context → Context) : (s.modCtx id g).clk = s.clk := rfl
@[simp] theorem State.modCtx_timeU (s : State) (id : Nat) (g : Context → Context) : (s.modCtx id g).timeU = s.timeU := rfl
@[simp] theorem State.modCtx_outbox (s : State) (id : Nat) (g : Context → Context) : (s.modCtx id g).outbox = s.outbox := rfl
@[simp] theorem State.modCtx_agenda (s : State) (id : Nat) (g : Context → Context) : (s.modCtx id g).agenda = s.agenda := rfl
@[simp] theorem State.modCtx_cur (s : State) (id : Nat) (g : Context → Context) : (s.modCtx id g).cur = s.cur := rfl
@[simp] theorem State.modCtx_input (s : State) (id : Nat) (g : Context → Context) : (s.modCtx id g).input = s.input := rfl
@[simp] theorem State.modCtx_stalled (s : State) (id : Nat) (g : Context → Context) : (s.modCtx id g).stalled = s.stalled := rfl
@[simp] theorem State.modCtx_tick (s : State) (id : Nat) (g : Context → Context) : (s.modCtx id g).tick = s.tick := rfl
@[simp] theorem State.modCtx_nextId (s : State) (id : Nat) (g : Context → Context) : (s.modCtx id g).nextId = s.nextId := rfl

@[simp] theorem State.modAlloc_variant (s : State) (id : Nat) (g : Alloc → Alloc) : (s.modAlloc id g).variant = s.variant := rfl
@[simp] theorem State.modAlloc_ctxs (s : State) (id : Nat) (g : Alloc → Alloc) : (s.modAlloc id g).ctxs = s.ctxs := rfl
@[simp] theorem State.modAlloc_launches (s : State) (id : Nat) (g : Alloc → Alloc) : (s.modAlloc id g).launches = s.launches := rfl
@[simp] theorem State.modAlloc_teams (s : State) (id : Nat) (g : Alloc → Alloc) : (s.modAlloc id g).teams = s.teams := rfl
@[simp] theorem State.modAlloc_trays (s : State) (id : Nat) (g : Alloc → Alloc) : (s.modAlloc id g).trays = s.trays := rfl
@[simp] theorem State.modAlloc_prods (s : State) (id : Nat) (g : Alloc → Alloc) : (s.modAlloc id g).prods = s.prods := rfl
@[simp] theorem State.modAlloc_cmds (s : State) (id : Nat) (g : Alloc → Alloc) : (s.modAlloc id g).cmds = s.cmds := rfl
@[simp] theorem State.modAlloc_epochs (s : State) (id : Nat) (g : Alloc → Alloc) : (s.modAlloc id g).epochs = s.epochs := rfl
@[simp] theorem State.modAlloc_remnants (s : State) (id : Nat) (g : Alloc → Alloc) : (s.modAlloc id g).remnants = s.remnants := rfl
@[simp] theorem State.modAlloc_dieSeq (s : State) (id : Nat) (g : Alloc → Alloc) : (s.modAlloc id g).dieSeq = s.dieSeq := rfl
@[simp] theorem State.modAlloc_arrays (s : State) (id : Nat) (g : Alloc → Alloc) : (s.modAlloc id g).arrays = s.arrays := rfl
@[simp] theorem State.modAlloc_ring (s : State) (id : Nat) (g : Alloc → Alloc) : (s.modAlloc id g).ring = s.ring := rfl
@[simp] theorem State.modAlloc_mem (s : State) (id : Nat) (g : Alloc → Alloc) : (s.modAlloc id g).mem = s.mem := rfl
@[simp] theorem State.modAlloc_tags (s : State) (id : Nat) (g : Alloc → Alloc) : (s.modAlloc id g).tags = s.tags := rfl
@[simp] theorem State.modAlloc_vlines (s : State) (id : Nat) (g : Alloc → Alloc) : (s.modAlloc id g).vlines = s.vlines := rfl
@[simp] theorem State.modAlloc_vtags (s : State) (id : Nat) (g : Alloc → Alloc) : (s.modAlloc id g).vtags = s.vtags := rfl
@[simp] theorem State.modAlloc_allocs (s : State) (id : Nat) (g : Alloc → Alloc) : (s.modAlloc id g).allocs = s.allocs.map fun x => if x.id == id then g x else x := rfl
@[simp] theorem State.modAlloc_homeTab (s : State) (id : Nat) (g : Alloc → Alloc) : (s.modAlloc id g).homeTab = s.homeTab := rfl
@[simp] theorem State.modAlloc_remapFilt (s : State) (id : Nat) (g : Alloc → Alloc) : (s.modAlloc id g).remapFilt = s.remapFilt := rfl
@[simp] theorem State.modAlloc_copies (s : State) (id : Nat) (g : Alloc → Alloc) : (s.modAlloc id g).copies = s.copies := rfl
@[simp] theorem State.modAlloc_uncached (s : State) (id : Nat) (g : Alloc → Alloc) : (s.modAlloc id g).uncached = s.uncached := rfl
@[simp] theorem State.modAlloc_hubDirty (s : State) (id : Nat) (g : Alloc → Alloc) : (s.modAlloc id g).hubDirty = s.hubDirty := rfl
@[simp] theorem State.modAlloc_past (s : State) (id : Nat) (g : Alloc → Alloc) : (s.modAlloc id g).past = s.past := rfl
@[simp] theorem State.modAlloc_tokens (s : State) (id : Nat) (g : Alloc → Alloc) : (s.modAlloc id g).tokens = s.tokens := rfl
@[simp] theorem State.modAlloc_shadows (s : State) (id : Nat) (g : Alloc → Alloc) : (s.modAlloc id g).shadows = s.shadows := rfl
@[simp] theorem State.modAlloc_strays (s : State) (id : Nat) (g : Alloc → Alloc) : (s.modAlloc id g).strays = s.strays := rfl
@[simp] theorem State.modAlloc_promoted (s : State) (id : Nat) (g : Alloc → Alloc) : (s.modAlloc id g).promoted = s.promoted := rfl
@[simp] theorem State.modAlloc_sched (s : State) (id : Nat) (g : Alloc → Alloc) : (s.modAlloc id g).sched = s.sched := rfl
@[simp] theorem State.modAlloc_fab (s : State) (id : Nat) (g : Alloc → Alloc) : (s.modAlloc id g).fab = s.fab := rfl
@[simp] theorem State.modAlloc_pkg (s : State) (id : Nat) (g : Alloc → Alloc) : (s.modAlloc id g).pkg = s.pkg := rfl
@[simp] theorem State.modAlloc_clk (s : State) (id : Nat) (g : Alloc → Alloc) : (s.modAlloc id g).clk = s.clk := rfl
@[simp] theorem State.modAlloc_timeU (s : State) (id : Nat) (g : Alloc → Alloc) : (s.modAlloc id g).timeU = s.timeU := rfl
@[simp] theorem State.modAlloc_outbox (s : State) (id : Nat) (g : Alloc → Alloc) : (s.modAlloc id g).outbox = s.outbox := rfl
@[simp] theorem State.modAlloc_agenda (s : State) (id : Nat) (g : Alloc → Alloc) : (s.modAlloc id g).agenda = s.agenda := rfl
@[simp] theorem State.modAlloc_cur (s : State) (id : Nat) (g : Alloc → Alloc) : (s.modAlloc id g).cur = s.cur := rfl
@[simp] theorem State.modAlloc_input (s : State) (id : Nat) (g : Alloc → Alloc) : (s.modAlloc id g).input = s.input := rfl
@[simp] theorem State.modAlloc_stalled (s : State) (id : Nat) (g : Alloc → Alloc) : (s.modAlloc id g).stalled = s.stalled := rfl
@[simp] theorem State.modAlloc_tick (s : State) (id : Nat) (g : Alloc → Alloc) : (s.modAlloc id g).tick = s.tick := rfl
@[simp] theorem State.modAlloc_nextId (s : State) (id : Nat) (g : Alloc → Alloc) : (s.modAlloc id g).nextId = s.nextId := rfl

@[simp] theorem State.modCmd_variant (s : State) (id : Nat) (g : Cmd → Cmd) : (s.modCmd id g).variant = s.variant := rfl
@[simp] theorem State.modCmd_ctxs (s : State) (id : Nat) (g : Cmd → Cmd) : (s.modCmd id g).ctxs = s.ctxs := rfl
@[simp] theorem State.modCmd_launches (s : State) (id : Nat) (g : Cmd → Cmd) : (s.modCmd id g).launches = s.launches := rfl
@[simp] theorem State.modCmd_teams (s : State) (id : Nat) (g : Cmd → Cmd) : (s.modCmd id g).teams = s.teams := rfl
@[simp] theorem State.modCmd_trays (s : State) (id : Nat) (g : Cmd → Cmd) : (s.modCmd id g).trays = s.trays := rfl
@[simp] theorem State.modCmd_prods (s : State) (id : Nat) (g : Cmd → Cmd) : (s.modCmd id g).prods = s.prods := rfl
@[simp] theorem State.modCmd_cmds (s : State) (id : Nat) (g : Cmd → Cmd) : (s.modCmd id g).cmds = s.cmds.map fun x => if x.id == id then g x else x := rfl
@[simp] theorem State.modCmd_epochs (s : State) (id : Nat) (g : Cmd → Cmd) : (s.modCmd id g).epochs = s.epochs := rfl
@[simp] theorem State.modCmd_remnants (s : State) (id : Nat) (g : Cmd → Cmd) : (s.modCmd id g).remnants = s.remnants := rfl
@[simp] theorem State.modCmd_dieSeq (s : State) (id : Nat) (g : Cmd → Cmd) : (s.modCmd id g).dieSeq = s.dieSeq := rfl
@[simp] theorem State.modCmd_arrays (s : State) (id : Nat) (g : Cmd → Cmd) : (s.modCmd id g).arrays = s.arrays := rfl
@[simp] theorem State.modCmd_ring (s : State) (id : Nat) (g : Cmd → Cmd) : (s.modCmd id g).ring = s.ring := rfl
@[simp] theorem State.modCmd_mem (s : State) (id : Nat) (g : Cmd → Cmd) : (s.modCmd id g).mem = s.mem := rfl
@[simp] theorem State.modCmd_tags (s : State) (id : Nat) (g : Cmd → Cmd) : (s.modCmd id g).tags = s.tags := rfl
@[simp] theorem State.modCmd_vlines (s : State) (id : Nat) (g : Cmd → Cmd) : (s.modCmd id g).vlines = s.vlines := rfl
@[simp] theorem State.modCmd_vtags (s : State) (id : Nat) (g : Cmd → Cmd) : (s.modCmd id g).vtags = s.vtags := rfl
@[simp] theorem State.modCmd_allocs (s : State) (id : Nat) (g : Cmd → Cmd) : (s.modCmd id g).allocs = s.allocs := rfl
@[simp] theorem State.modCmd_homeTab (s : State) (id : Nat) (g : Cmd → Cmd) : (s.modCmd id g).homeTab = s.homeTab := rfl
@[simp] theorem State.modCmd_remapFilt (s : State) (id : Nat) (g : Cmd → Cmd) : (s.modCmd id g).remapFilt = s.remapFilt := rfl
@[simp] theorem State.modCmd_copies (s : State) (id : Nat) (g : Cmd → Cmd) : (s.modCmd id g).copies = s.copies := rfl
@[simp] theorem State.modCmd_uncached (s : State) (id : Nat) (g : Cmd → Cmd) : (s.modCmd id g).uncached = s.uncached := rfl
@[simp] theorem State.modCmd_hubDirty (s : State) (id : Nat) (g : Cmd → Cmd) : (s.modCmd id g).hubDirty = s.hubDirty := rfl
@[simp] theorem State.modCmd_past (s : State) (id : Nat) (g : Cmd → Cmd) : (s.modCmd id g).past = s.past := rfl
@[simp] theorem State.modCmd_tokens (s : State) (id : Nat) (g : Cmd → Cmd) : (s.modCmd id g).tokens = s.tokens := rfl
@[simp] theorem State.modCmd_shadows (s : State) (id : Nat) (g : Cmd → Cmd) : (s.modCmd id g).shadows = s.shadows := rfl
@[simp] theorem State.modCmd_strays (s : State) (id : Nat) (g : Cmd → Cmd) : (s.modCmd id g).strays = s.strays := rfl
@[simp] theorem State.modCmd_promoted (s : State) (id : Nat) (g : Cmd → Cmd) : (s.modCmd id g).promoted = s.promoted := rfl
@[simp] theorem State.modCmd_sched (s : State) (id : Nat) (g : Cmd → Cmd) : (s.modCmd id g).sched = s.sched := rfl
@[simp] theorem State.modCmd_fab (s : State) (id : Nat) (g : Cmd → Cmd) : (s.modCmd id g).fab = s.fab := rfl
@[simp] theorem State.modCmd_pkg (s : State) (id : Nat) (g : Cmd → Cmd) : (s.modCmd id g).pkg = s.pkg := rfl
@[simp] theorem State.modCmd_clk (s : State) (id : Nat) (g : Cmd → Cmd) : (s.modCmd id g).clk = s.clk := rfl
@[simp] theorem State.modCmd_timeU (s : State) (id : Nat) (g : Cmd → Cmd) : (s.modCmd id g).timeU = s.timeU := rfl
@[simp] theorem State.modCmd_outbox (s : State) (id : Nat) (g : Cmd → Cmd) : (s.modCmd id g).outbox = s.outbox := rfl
@[simp] theorem State.modCmd_agenda (s : State) (id : Nat) (g : Cmd → Cmd) : (s.modCmd id g).agenda = s.agenda := rfl
@[simp] theorem State.modCmd_cur (s : State) (id : Nat) (g : Cmd → Cmd) : (s.modCmd id g).cur = s.cur := rfl
@[simp] theorem State.modCmd_input (s : State) (id : Nat) (g : Cmd → Cmd) : (s.modCmd id g).input = s.input := rfl
@[simp] theorem State.modCmd_stalled (s : State) (id : Nat) (g : Cmd → Cmd) : (s.modCmd id g).stalled = s.stalled := rfl
@[simp] theorem State.modCmd_tick (s : State) (id : Nat) (g : Cmd → Cmd) : (s.modCmd id g).tick = s.tick := rfl
@[simp] theorem State.modCmd_nextId (s : State) (id : Nat) (g : Cmd → Cmd) : (s.modCmd id g).nextId = s.nextId := rfl

@[simp] theorem State.stall_variant (s : State) : (s.stall ).variant = s.variant := rfl
@[simp] theorem State.stall_ctxs (s : State) : (s.stall ).ctxs = s.ctxs := rfl
@[simp] theorem State.stall_launches (s : State) : (s.stall ).launches = s.launches := rfl
@[simp] theorem State.stall_teams (s : State) : (s.stall ).teams = s.teams := rfl
@[simp] theorem State.stall_trays (s : State) : (s.stall ).trays = s.trays := rfl
@[simp] theorem State.stall_prods (s : State) : (s.stall ).prods = s.prods := rfl
@[simp] theorem State.stall_cmds (s : State) : (s.stall ).cmds = s.cmds := rfl
@[simp] theorem State.stall_epochs (s : State) : (s.stall ).epochs = s.epochs := rfl
@[simp] theorem State.stall_remnants (s : State) : (s.stall ).remnants = s.remnants := rfl
@[simp] theorem State.stall_dieSeq (s : State) : (s.stall ).dieSeq = s.dieSeq := rfl
@[simp] theorem State.stall_arrays (s : State) : (s.stall ).arrays = s.arrays := rfl
@[simp] theorem State.stall_ring (s : State) : (s.stall ).ring = s.ring := rfl
@[simp] theorem State.stall_mem (s : State) : (s.stall ).mem = s.mem := rfl
@[simp] theorem State.stall_tags (s : State) : (s.stall ).tags = s.tags := rfl
@[simp] theorem State.stall_vlines (s : State) : (s.stall ).vlines = s.vlines := rfl
@[simp] theorem State.stall_vtags (s : State) : (s.stall ).vtags = s.vtags := rfl
@[simp] theorem State.stall_allocs (s : State) : (s.stall ).allocs = s.allocs := rfl
@[simp] theorem State.stall_homeTab (s : State) : (s.stall ).homeTab = s.homeTab := rfl
@[simp] theorem State.stall_remapFilt (s : State) : (s.stall ).remapFilt = s.remapFilt := rfl
@[simp] theorem State.stall_copies (s : State) : (s.stall ).copies = s.copies := rfl
@[simp] theorem State.stall_uncached (s : State) : (s.stall ).uncached = s.uncached := rfl
@[simp] theorem State.stall_hubDirty (s : State) : (s.stall ).hubDirty = s.hubDirty := rfl
@[simp] theorem State.stall_past (s : State) : (s.stall ).past = s.past := rfl
@[simp] theorem State.stall_tokens (s : State) : (s.stall ).tokens = s.tokens := rfl
@[simp] theorem State.stall_shadows (s : State) : (s.stall ).shadows = s.shadows := rfl
@[simp] theorem State.stall_strays (s : State) : (s.stall ).strays = s.strays := rfl
@[simp] theorem State.stall_promoted (s : State) : (s.stall ).promoted = s.promoted := rfl
@[simp] theorem State.stall_sched (s : State) : (s.stall ).sched = s.sched := rfl
@[simp] theorem State.stall_fab (s : State) : (s.stall ).fab = s.fab := rfl
@[simp] theorem State.stall_pkg (s : State) : (s.stall ).pkg = s.pkg := rfl
@[simp] theorem State.stall_clk (s : State) : (s.stall ).clk = s.clk := rfl
@[simp] theorem State.stall_timeU (s : State) : (s.stall ).timeU = s.timeU := rfl
@[simp] theorem State.stall_outbox (s : State) : (s.stall ).outbox = s.outbox := rfl
@[simp] theorem State.stall_agenda (s : State) : (s.stall ).agenda = s.agenda := rfl
@[simp] theorem State.stall_cur (s : State) : (s.stall ).cur = s.cur := rfl
@[simp] theorem State.stall_input (s : State) : (s.stall ).input = s.input := rfl
@[simp] theorem State.stall_stalled (s : State) : (s.stall ).stalled = true := rfl
@[simp] theorem State.stall_tick (s : State) : (s.stall ).tick = s.tick := rfl
@[simp] theorem State.stall_nextId (s : State) : (s.stall ).nextId = s.nextId := rfl

@[simp] theorem State.fresh_id (s : State) : s.fresh.1 = s.nextId := rfl
@[simp] theorem State.fresh_variant (s : State) : s.fresh.2.variant = s.variant := rfl
@[simp] theorem State.fresh_ctxs (s : State) : s.fresh.2.ctxs = s.ctxs := rfl
@[simp] theorem State.fresh_launches (s : State) : s.fresh.2.launches = s.launches := rfl
@[simp] theorem State.fresh_teams (s : State) : s.fresh.2.teams = s.teams := rfl
@[simp] theorem State.fresh_trays (s : State) : s.fresh.2.trays = s.trays := rfl
@[simp] theorem State.fresh_prods (s : State) : s.fresh.2.prods = s.prods := rfl
@[simp] theorem State.fresh_cmds (s : State) : s.fresh.2.cmds = s.cmds := rfl
@[simp] theorem State.fresh_epochs (s : State) : s.fresh.2.epochs = s.epochs := rfl
@[simp] theorem State.fresh_remnants (s : State) : s.fresh.2.remnants = s.remnants := rfl
@[simp] theorem State.fresh_dieSeq (s : State) : s.fresh.2.dieSeq = s.dieSeq := rfl
@[simp] theorem State.fresh_arrays (s : State) : s.fresh.2.arrays = s.arrays := rfl
@[simp] theorem State.fresh_ring (s : State) : s.fresh.2.ring = s.ring := rfl
@[simp] theorem State.fresh_mem (s : State) : s.fresh.2.mem = s.mem := rfl
@[simp] theorem State.fresh_tags (s : State) : s.fresh.2.tags = s.tags := rfl
@[simp] theorem State.fresh_vlines (s : State) : s.fresh.2.vlines = s.vlines := rfl
@[simp] theorem State.fresh_vtags (s : State) : s.fresh.2.vtags = s.vtags := rfl
@[simp] theorem State.fresh_allocs (s : State) : s.fresh.2.allocs = s.allocs := rfl
@[simp] theorem State.fresh_homeTab (s : State) : s.fresh.2.homeTab = s.homeTab := rfl
@[simp] theorem State.fresh_remapFilt (s : State) : s.fresh.2.remapFilt = s.remapFilt := rfl
@[simp] theorem State.fresh_copies (s : State) : s.fresh.2.copies = s.copies := rfl
@[simp] theorem State.fresh_uncached (s : State) : s.fresh.2.uncached = s.uncached := rfl
@[simp] theorem State.fresh_hubDirty (s : State) : s.fresh.2.hubDirty = s.hubDirty := rfl
@[simp] theorem State.fresh_past (s : State) : s.fresh.2.past = s.past := rfl
@[simp] theorem State.fresh_tokens (s : State) : s.fresh.2.tokens = s.tokens := rfl
@[simp] theorem State.fresh_shadows (s : State) : s.fresh.2.shadows = s.shadows := rfl
@[simp] theorem State.fresh_strays (s : State) : s.fresh.2.strays = s.strays := rfl
@[simp] theorem State.fresh_promoted (s : State) : s.fresh.2.promoted = s.promoted := rfl
@[simp] theorem State.fresh_sched (s : State) : s.fresh.2.sched = s.sched := rfl
@[simp] theorem State.fresh_fab (s : State) : s.fresh.2.fab = s.fab := rfl
@[simp] theorem State.fresh_pkg (s : State) : s.fresh.2.pkg = s.pkg := rfl
@[simp] theorem State.fresh_clk (s : State) : s.fresh.2.clk = s.clk := rfl
@[simp] theorem State.fresh_timeU (s : State) : s.fresh.2.timeU = s.timeU := rfl
@[simp] theorem State.fresh_outbox (s : State) : s.fresh.2.outbox = s.outbox := rfl
@[simp] theorem State.fresh_agenda (s : State) : s.fresh.2.agenda = s.agenda := rfl
@[simp] theorem State.fresh_cur (s : State) : s.fresh.2.cur = s.cur := rfl
@[simp] theorem State.fresh_input (s : State) : s.fresh.2.input = s.input := rfl
@[simp] theorem State.fresh_stalled (s : State) : s.fresh.2.stalled = s.stalled := rfl
@[simp] theorem State.fresh_tick (s : State) : s.fresh.2.tick = s.tick := rfl
@[simp] theorem State.fresh_nextId (s : State) : s.fresh.2.nextId = s.nextId + 1 := rfl

end Sys2Proof.Machine
end

