-- ==== Sys2Proof/Laws/Memory.lean ====
section
/-!
SUPPORT. Laws/Memory.lean: sparse lists read back what was put into them and keep their canonical form; memory and every
operation of Mem.lean that writes it keep the canonical form.
-/

namespace Sys2Proof.Machine

section
variable {α : Type} [DecidableEq α] {d : α}

theorem Sparse.wfAbove_mono {m : Sparse α} {a b : Nat} (h : Sparse.wfAbove d b m = true) (hab : a ≤ b) :
    Sparse.wfAbove d a m = true := by
  cases m with
  | nil => rfl
  | cons x m =>
    simp only [Sparse.wfAbove, Bool.and_eq_true, decide_eq_true_eq] at h ⊢
    exact ⟨⟨by omega, h.1.2⟩, h.2⟩

theorem Sparse.get_of_wfAbove {m : Sparse α} {a b : Nat} (h : Sparse.wfAbove d b m = true) (hab : a < b) :
    Sparse.get d m a = d := by
  induction m generalizing b with
  | nil => rfl
  | cons x m ih =>
    simp only [Sparse.wfAbove, Bool.and_eq_true, decide_eq_true_eq] at h
    have : x.1 ≠ a := by omega
    simp only [Sparse.get, if_neg this]
    exact ih h.2 (by omega)

/-- Putting a value keeps the canonical form. -/
theorem Sparse.put_wfAbove {m : Sparse α} {a b : Nat} (x : α) (h : Sparse.wfAbove d b m = true) (hab : b ≤ a) :
    Sparse.wfAbove d b (Sparse.put d m a x) = true := by
  induction m generalizing b with
  | nil =>
    by_cases hx : x = d <;> simp [Sparse.put, Sparse.wfAbove, hx, hab]
  | cons y m ih =>
    obtain ⟨k, v⟩ := y
    simp only [Sparse.wfAbove, Bool.and_eq_true, decide_eq_true_eq] at h
    simp only [Sparse.put]
    by_cases h1 : a < k
    · by_cases hx : x = d
      · simp [h1, hx, Sparse.wfAbove, h.1.1, h.1.2, h.2]
      · have : a + 1 ≤ k := h1
        simp [h1, hx, Sparse.wfAbove, hab, this, h.1.2, h.2]
    · by_cases h2 : a = k
      · by_cases hx : x = d
        · simp only [if_neg h1, if_pos h2, if_pos hx]
          exact Sparse.wfAbove_mono h.2 (by omega)
        · subst h2
          simp [hx, Sparse.wfAbove, h.1.1, h.2]
      · have : k + 1 ≤ a := by omega
        simp [h1, h2, Sparse.wfAbove, h.1.1, h.1.2, ih h.2 this]

theorem Sparse.put_wf {m : Sparse α} (a : Nat) (x : α) (h : Sparse.wf d m = true) : Sparse.wf d (Sparse.put d m a x) = true :=
  Sparse.put_wfAbove x h (Nat.zero_le a)

theorem Sparse.get_put_above {m : Sparse α} {b : Nat} (a c : Nat) (x : α) (h : Sparse.wfAbove d b m = true) :
    Sparse.get d (Sparse.put d m a x) c = if c = a then x else Sparse.get d m c := by
  induction m generalizing b with
  | nil =>
    by_cases hx : x = d <;> by_cases hc : c = a <;> simp [Sparse.put, Sparse.get, hx, hc, eq_comm (a := a)]
  | cons y m ih =>
    obtain ⟨k, v⟩ := y
    simp only [Sparse.wfAbove, Bool.and_eq_true, decide_eq_true_eq] at h
    simp only [Sparse.put]
    by_cases h1 : a < k
    · by_cases hx : x = d
      · simp only [if_pos h1, if_pos hx]
        by_cases hc : c = a
        · subst hc
          have hk : k ≠ c := by omega
          simp [Sparse.get, hk, hx, Sparse.get_of_wfAbove h.2 (by omega : c < k + 1)]
        · simp [hc]
      · simp only [if_pos h1, if_neg hx, Sparse.get]
        by_cases hc : a = c
        · simp [hc]
        · simp [hc, Ne.symm hc]
    · by_cases h2 : a = k
      · subst h2
        by_cases hx : x = d
        · simp only [if_neg h1, if_pos hx, if_true, Sparse.get]
          by_cases hc : a = c
          · subst hc
            simp [hx, Sparse.get_of_wfAbove h.2 (by omega : a < a + 1)]
          · simp [hc, Ne.symm hc]
        · simp only [if_neg h1, if_neg hx, if_true, Sparse.get]
          by_cases hc : a = c
          · simp [hc]
          · simp [hc, Ne.symm hc]
      · simp only [if_neg h1, if_neg h2, Sparse.get, ih h.2]
        by_cases hk : k = c
        · subst hk
          simp [Ne.symm h2]
        · simp [hk]

/-- A sparse list reads back what was put into it, and every other key is left alone. -/
theorem Sparse.get_put {m : Sparse α} (a c : Nat) (x : α) (h : Sparse.wf d m = true) :
    Sparse.get d (Sparse.put d m a x) c = if c = a then x else Sparse.get d m c :=
  Sparse.get_put_above a c x h

end

/-- A write keeps memory's canonical form. -/
theorem Memory.write_wf {m : Memory} (a : Nat) (x : Byte) (h : m.wf = true) : (m.write a x).wf = true := Sparse.put_wf a x h

/-- Reading after a write. -/
theorem Memory.read_write {m : Memory} (a c : Nat) (x : Byte) (h : m.wf = true) :
    (m.write a x).read c = if c = a then x else m.read c := Sparse.get_put a c x h

/-- Writing several bytes keeps memory's canonical form. -/
theorem Memory.writeN_wf {m : Memory} (a : Nat) (bs : List Byte) (h : m.wf = true) : (m.writeN a bs).wf = true := by
  induction bs generalizing m a with
  | nil => exact h
  | cons b bs ih => exact ih _ (Memory.write_wf a b h)

/-- Reading after writing several bytes. -/
theorem Memory.read_writeN {m : Memory} (a c : Nat) (bs : List Byte) (h : m.wf = true) :
    (m.writeN a bs).read c = if a ≤ c ∧ c < a + bs.length then bs.getD (c - a) 0 else m.read c := by
  induction bs generalizing m a with
  | nil =>
    have : ¬(a ≤ c ∧ c < a + 0) := by omega
    simp only [Memory.writeN, List.length_nil, if_neg this]
  | cons b bs ih =>
    rw [Memory.writeN, ih _ (Memory.write_wf a b h), Memory.read_write a c b h]
    by_cases h1 : c = a
    · subst h1
      have : ¬(c + 1 ≤ c ∧ c < c + 1 + bs.length) := by omega
      simp
    · by_cases h2 : a + 1 ≤ c ∧ c < a + 1 + bs.length
      · have h3 : a ≤ c ∧ c < a + (b :: bs).length := by simp; omega
        have h4 : c - a = (c - (a + 1)) + 1 := by omega
        simp only [if_pos h2, if_pos h3, h4, List.getD_cons_succ]
      · have h3 : ¬(a ≤ c ∧ c < a + (b :: bs).length) := by simp; omega
        simp only [if_neg h2, if_neg h3, if_neg h1]

/-- The memory of a state is in its canonical form. -/
abbrev State.memOk (s : State) : Prop := s.mem.wf = true

theorem State.putBase_mem (s : State) (l : Loc) (x : Byte) (h : s.memOk) : (s.putBase l x).memOk := by
  cases l <;> first | exact h | exact Memory.write_wf _ x h

theorem State.putVersion_mem (s : State) (ks : List VKey) (k : VKey) (l : Loc) (x : Byte) :
    (s.putVersion ks k l x).mem = s.mem := by
  unfold State.putVersion
  split <;> rfl

theorem State.putSeen_mem (s : State) (ks : List VKey) (v : Bool) (l : Loc) (x : Byte) (h : s.memOk) :
    (s.putSeen ks v l x).memOk := by
  unfold State.putSeen
  split
  · simpa only [State.memOk, State.putVersion_mem] using h
  · exact s.putBase_mem l x h

theorem State.putBytes_mem (ks : List VKey) (v : Bool) (bs : List Byte) :
    ∀ (s : State) (l : Loc), s.memOk → (s.putBytes ks v l bs).memOk := by
  induction bs with
  | nil => exact fun s l h => h
  | cons b bs ih => exact fun s l h => ih _ _ (s.putSeen_mem ks v l b h)

/-- A fold of steps that keep a property of the state keeps it. -/
theorem foldl_keeps {β : Type} {P : State → Prop} {f : State → β → State} (hf : ∀ s b, P s → P (f s b)) :
    ∀ (bs : List β) (s : State), P s → P (bs.foldl f s) := by
  intro bs
  induction bs with
  | nil => exact fun s h => h
  | cons b bs ih => exact fun s h => ih _ (hf s b h)

/-- A fold of steps that keep a part of the state keeps it. -/
theorem foldl_same {β γ : Type} {g : State → γ} {f : State → β → State} (hf : ∀ s b, g (f s b) = g s) (bs : List β) (s : State) :
    g (bs.foldl f s) = g s := by
  induction bs generalizing s with
  | nil => rfl
  | cons b bs ih => rw [List.foldl_cons, ih, hf]

theorem State.putTag_mem (s : State) (ks : List VKey) (v : Bool) (l : Loc) (t : BitVec 2) : (s.putTag ks v l t).mem = s.mem := by
  unfold State.putTag
  split
  · rfl
  · cases l <;> rfl

theorem State.markDirty_mem (s : State) (n : Nat) (o : Option Party) : (s.markDirty n o).mem = s.mem := by
  unfold State.markDirty
  dsimp only
  split <;> rfl

theorem State.markProt_mem (s : State) (a : Attr) (ks : List VKey) (l : Loc) (n : Nat) (o : Option Party) :
    (s.markProt a ks l n o).mem = s.mem := by
  unfold State.markProt
  split
  · refine foldl_same (g := State.mem) (fun s g => ?_) _ s
    split
    · exact s.markDirty_mem _ o
    · rfl
  · rfl

theorem State.markLines_mem (s : State) (a : Attr) (ks : List VKey) (l : Loc) (n : Nat) : (s.markLines a ks l n).mem = s.mem := by
  unfold State.markLines
  split
  · split <;> rfl
  · rfl

theorem State.markHub_mem (s : State) (hub : Bool) (l : Loc) (n : Nat) : (s.markHub hub l n).mem = s.mem := by
  unfold State.markHub
  split
  · refine foldl_same (g := State.mem) (fun s x => ?_) _ s
    split <;> rfl
  · rfl

theorem State.touch_mem (s : State) (ks : List VKey) (v : Bool) (l : Loc) (n : Nat) : (s.touch ks v l n).mem = s.mem := by
  have h1 (s : State) (k : Option VKey) : (s.touchShadows k l n).mem = s.mem := by unfold State.touchShadows; split <;> rfl
  have h2 (s : State) (k : Option VKey) : (s.touchCmds k l n).mem = s.mem := by unfold State.touchCmds; dsimp only; split <;> rfl
  unfold State.touch
  rw [h2, h1]

theorem State.loseResv_mem (s : State) (g : Loc) (w : Writer) : (s.loseResv g w).mem = s.mem := rfl

/-- The one store of bytes keeps memory's canonical form. -/
theorem State.store_mem (s : State) (ks : List VKey) (a : Attr) (l : Loc) (bs : List Byte) (w : Writer) (o : Option Party)
    (tag : Bool) (h : s.memOk) : (s.store ks a l bs w o tag).memOk := by
  unfold State.store
  dsimp only
  refine foldl_keeps (P := State.memOk) (f := fun s g => s.loseResv g w) (fun s g hs => hs) _ _ ?_
  have h1 : (((s.markProt a ks l bs.length o).markHub (a.home == 2 && (ks.isEmpty || !a.vers)) l bs.length).touch ks a.vers l
      bs.length).memOk := by
    rw [State.memOk, State.touch_mem, State.markHub_mem, State.markProt_mem]; exact h
  have h3 := State.putBytes_mem ks a.vers bs _ l h1
  split
  · refine foldl_keeps (P := State.memOk) (fun s ln hs => by rw [State.memOk, State.putTag_mem]; exact hs) _ _ ?_
    rw [State.memOk, State.markLines_mem]; exact h3
  · rw [State.memOk, State.markLines_mem]; exact h3

/-- A commit keeps memory's canonical form. -/
theorem State.merge_mem (s : State) (k : VKey) (into : Option VKey) (o : Option Party) (h : s.memOk) : (s.merge k into o).memOk := by
  unfold State.merge
  refine foldl_keeps (P := State.memOk) (f := fun s (y : VLine) => s.loseResv y.loc .agent) (fun s y hs => hs) _ _ ?_
  cases into with
  | some j => exact h
  | none =>
    refine foldl_keeps (P := State.memOk) (fun s y hs => by rw [State.memOk, State.putTag_mem]; exact hs) _ _ ?_
    refine foldl_keeps (P := State.memOk) (fun s y hs => ?_) _ _ h
    exact State.putBytes_mem [] false y.bytes _ y.loc
      (by rw [State.memOk, State.touch_mem, State.markHub_mem, State.markProt_mem]; exact hs)

/-- The device's own writes keep memory's canonical form. -/
theorem State.ctxWrite_mem (c : Context) (ver : Nat) (bs : List Byte) :
    ∀ (s : State) (va : Nat), s.memOk → (s.ctxWrite c ver va bs).memOk := by
  induction bs with
  | nil => exact fun s va h => h
  | cons b bs ih =>
    intro s va h
    rw [State.ctxWrite]
    refine ih _ _ ?_
    split
    · exact h
    · exact State.store_mem _ _ _ _ _ _ _ _ h
    · exact h

theorem State.reset_mem : State.reset.memOk := rfl

end Sys2Proof.Machine
end

