-- ==== Sys2Proof/Laws/Ops.lean ====
section
/-!
SUPPORT. Laws/Ops.lean: one law for each shared operation of issuing, writing registers and retiring: what it does to the
registers, and that it leaves the rest of the state.
-/

namespace Sys2Proof.Machine

/-! Finding an object after one was changed. -/

theorem find_map_keep {α : Type} (p : α → Bool) (g : α → α) (h : ∀ x, p (g x) = p x) (l : List α) :
    (l.map g).find? p = (l.find? p).map g := by
  induction l with
  | nil => rfl
  | cons x l ih =>
    rw [List.map_cons, List.find?_cons, List.find?_cons, h]
    cases p x <;> simp [ih]

theorem State.tray?_modTray (s : State) (id id' : Nat) (g : Tray → Tray) (hg : ∀ x, (g x).id = x.id) :
    (s.modTray id g).tray? id' = (s.tray? id').map fun x => if x.id == id then g x else x := by
  unfold State.tray?
  rw [State.modTray_trays]
  refine find_map_keep _ _ (fun x => ?_) _
  split <;> simp [hg]

theorem State.team?_modTeam (s : State) (id id' : Nat) (g : Team → Team) (hg : ∀ x, (g x).id = x.id) :
    (s.modTeam id g).team? id' = (s.team? id').map fun x => if x.id == id then g x else x := by
  unfold State.team?
  rw [State.modTeam_teams]
  refine find_map_keep _ _ (fun x => ?_) _
  split <;> simp [hg]

@[simp] theorem State.tray?_modTeam (s : State) (id id' : Nat) (g : Team → Team) : (s.modTeam id g).tray? id' = s.tray? id' := rfl
@[simp] theorem State.tray?_modFront (s : State) (id id' : Nat) (g : Front → Front) : (s.modFront id g).tray? id' = s.tray? id' := rfl
@[simp] theorem State.team?_modTray (s : State) (id id' : Nat) (g : Tray → Tray) : (s.modTray id g).team? id' = s.team? id' := rfl

theorem State.tray?_id {s : State} {id : Nat} {tr : Tray} (h : s.tray? id = some tr) : tr.id = id := by
  simpa using List.find?_some h

theorem State.team?_id {s : State} {id : Nat} {tm : Team} (h : s.team? id = some tm) : tm.id = id := by
  simpa using List.find?_some h

/-! The part of the state that a group which only computes leaves. -/

theorem State.modTray_still (s : State) (id : Nat) (g : Tray → Tray) (hg : ∀ x, (g x).still = x.still) :
    (s.modTray id g).still = s.still := by
  unfold State.still State.modTray
  simp only [List.map_map, State.mk.injEq, true_and, and_true]
  refine List.map_congr_left fun x _ => ?_
  simp only [Function.comp]
  split <;> simp [hg]

theorem State.modTeam_still (s : State) (id : Nat) (g : Team → Team) (hg : ∀ x, (g x).still = x.still) :
    (s.modTeam id g).still = s.still := by
  unfold State.still State.modTeam
  simp only [List.map_map, State.mk.injEq, true_and, and_true]
  refine List.map_congr_left fun x _ => ?_
  simp only [Function.comp]
  split <;> simp [hg]

theorem Tray.setReg_still (tr : Tray) (r : RegName) (x : Reg) : (tr.setReg r x).still = tr.still := by
  cases r <;> simp only [Tray.setReg, Tray.still, Tray.mk.injEq, true_and, and_true, List.map_map, Option.map_map]
  · refine List.map_congr_left fun f _ => ?_
    simp only [Function.comp]
    split <;> rfl
  · rfl

theorem Front.setReg_still (tm : Team) (r : RegName) (x : FReg) : ({ tm with front := tm.front.setReg r x } : Team).still = tm.still := by
  cases r <;> rfl

theorem State.putReg_still (s : State) (o : Owner) (w : RegWrite) : (s.putReg o w).still = s.still := by
  cases o with
  | tray id => exact s.modTray_still id _ fun tr => tr.setReg_still _ _
  | front t => exact s.modTeam_still t _ fun tm => Front.setReg_still tm _ _

theorem State.putRegs_still (o : Owner) (ws : List RegWrite) (s : State) : (s.putRegs o ws).still = s.still := by
  unfold State.putRegs
  induction ws generalizing s with
  | nil => rfl
  | cons w ws ih => rw [List.foldl_cons, ih, State.putReg_still]

theorem State.setFull_still (s : State) (o : Owner) (r : RegName) (b : Bool) : (s.setFull o r b).still = s.still := by
  cases o with
  | tray id => exact s.modTray_still id _ fun tr => tr.setReg_still _ _
  | front t => exact s.modTeam_still t _ fun tm => Front.setReg_still tm _ _

theorem State.markEmpty_still (o : Owner) (rs : List RegName) (s : State) : (s.markEmpty o rs).still = s.still := by
  unfold State.markEmpty
  induction rs generalizing s with
  | nil => rfl
  | cons r rs ih => rw [List.foldl_cons, ih, State.setFull_still]

theorem State.modEntry_still (s : State) (c : Ctx) (f : Entry → Entry) : (s.modEntry c f).still = s.still := by
  unfold State.modEntry
  split
  · exact s.modTeam_still _ _ fun tm => rfl
  · exact s.modTray_still _ _ fun tr => rfl

theorem State.served_still (s : State) (c : Ctx) : (s.served c).still = s.still := by
  unfold State.served
  split
  · rfl
  · exact (State.modTray_still { s with stalled := false } _ _ fun tr => rfl)

theorem State.counted_still (s : State) (c : Ctx) : (s.counted c).still = s.still := by
  unfold State.counted
  rw [State.served_still]
  exact s.modTeam_still _ _ fun tm => rfl

theorem Tray.advance_still (tr : Tray) (act : BitVec 32) (x : BitVec 7) : (tr.advance act x).still = tr.still := by
  unfold Tray.advance
  split <;> rfl

theorem Tray.advances_still (act : BitVec 32) (xs : List (BitVec 7)) (tr : Tray) :
    (xs.foldl (fun tr x => tr.advance act x) tr).still = tr.still := by
  induction xs generalizing tr with
  | nil => rfl
  | cons x xs ih => rw [List.foldl_cons, ih, Tray.advance_still]

theorem State.advance_still (s : State) (c : Ctx) : (s.advance c).still = s.still := by
  unfold State.advance
  split
  · rfl
  · exact s.modTray_still _ _ fun tr => Tray.advances_still _ _ _

/-- Retiring a group leaves everything but where its agent stands, its cursors and its counters. -/
theorem State.retire_still (s : State) (c : Ctx) : (s.retire c).still = s.still := by
  unfold State.retire
  rw [State.counted_still, State.modEntry_still, State.advance_still]

/-! What follows from equal still parts. -/

theorem Tray.still_id (tr : Tray) : tr.still.id = tr.id := rfl
theorem Team.still_id (tm : Team) : tm.still.id = tm.id := rfl

theorem tray?_still_eq {s t : State} (h : t.trays.map Tray.still = s.trays.map Tray.still) (id : Nat) :
    (t.tray? id).map Tray.still = (s.tray? id).map Tray.still := by
  unfold State.tray?
  rw [← find_map_keep (fun x : Tray => x.id == id) Tray.still (fun _ => rfl),
    ← find_map_keep (fun x : Tray => x.id == id) Tray.still (fun _ => rfl), h]

theorem team?_still_eq {s t : State} (h : t.teams.map Team.still = s.teams.map Team.still) (id : Nat) :
    (t.team? id).map Team.still = (s.team? id).map Team.still := by
  unfold State.team?
  rw [← find_map_keep (fun x : Team => x.id == id) Team.still (fun _ => rfl),
    ← find_map_keep (fun x : Team => x.id == id) Team.still (fun _ => rfl), h]

/-- Every byte reads the same when every store is the same. -/
theorem sameBytes_of {s t : State} (hm : t.mem = s.mem) (hv : t.vlines = s.vlines) (ha : t.allocs = s.allocs)
    (hh : t.homeTab = s.homeTab) (hr : t.remnants = s.remnants) (htr : t.trays.map Tray.still = s.trays.map Tray.still)
    (htm : t.teams.map Team.still = s.teams.map Team.still) : SameBytes s t := by
  intro ks l
  have hb : t.baseByte l = s.baseByte l := by
    cases l with
    | hbm a => simp only [State.baseByte, hm]
    | shared tm o =>
      have := congrArg (Option.map fun x : Team => x.shared) (team?_still_eq htm tm)
      simp only [Option.map_map] at this
      simp only [State.baseByte, State.sharedOf, hr]
      revert this
      cases t.team? tm <;> cases s.team? tm <;> simp [Team.still]
      intro h
      rw [h]
    | scratch tr o =>
      have := congrArg (Option.map fun x : Tray => x.scratch.read o) (tray?_still_eq htr tr)
      simp only [Option.map_map] at this
      simp only [State.baseByte]
      revert this
      cases t.tray? tr <;> cases s.tray? tr <;> simp [Tray.still]
    | tile al o => simp only [State.baseByte, State.alloc?, ha]
    | pin e o => simp only [State.baseByte, hh]
    | peer d a => rfl
  unfold State.byteSeen State.vline?
  rw [hv, hb]

theorem sameBytes_of_still {s t : State} (h : t.still = s.still) : SameBytes s t := by
  have hm : t.still.mem = s.still.mem := by rw [h]
  have hv : t.still.vlines = s.still.vlines := by rw [h]
  have ha : t.still.allocs = s.still.allocs := by rw [h]
  have hh : t.still.homeTab = s.still.homeTab := by rw [h]
  have hr : t.still.remnants = s.still.remnants := by rw [h]
  have htr : t.still.trays = s.still.trays := by rw [h]
  have htm : t.still.teams = s.still.teams := by rw [h]
  exact sameBytes_of hm hv ha hh hr htr htm

theorem State.byteSeen_modTray (s : State) (id : Nat) (g : Tray → Tray) (hg : ∀ x, (g x).id = x.id)
    (hs : ∀ x, (g x).scratch = x.scratch) (ks : List VKey) (l : Loc) : (s.modTray id g).byteSeen ks l = s.byteSeen ks l := by
  have hb : (s.modTray id g).baseByte l = s.baseByte l := by
    cases l with
    | scratch t o =>
      simp only [State.baseByte]
      rw [State.tray?_modTray _ _ _ _ hg]
      cases s.tray? t with
      | none => rfl
      | some tr =>
        simp only [Option.map_some]
        split <;> simp [hs]
    | _ => rfl
  unfold State.byteSeen
  rw [hb]
  rfl

theorem State.byteSeen_modFront (s : State) (id : Nat) (g : Front → Front) (ks : List VKey) (l : Loc) :
    (s.modFront id g).byteSeen ks l = s.byteSeen ks l := by
  have hb : (s.modFront id g).baseByte l = s.baseByte l := by
    cases l with
    | shared t o =>
      simp only [State.baseByte, State.sharedOf, State.modFront]
      rw [State.team?_modTeam _ _ _ _ (by intro x; rfl)]
      cases s.team? t with
      | none => rfl
      | some tm =>
        simp only [Option.map_some]
        split <;> rfl
    | _ => rfl
  unfold State.byteSeen
  rw [hb]
  rfl

/-! Registers. -/

theorem slots_set_get {α : Type} (v : Slots α) (t u : Fin 32) (x : α) : (v.set t x)[u] = if u = t then x else v[u] := by
  rw [Fin.getElem_fin, Fin.getElem_fin, Vector.getElem_set]
  by_cases h : t = u
  · subst h; simp
  · rw [if_neg (fun e => h (Fin.ext e)), if_neg (Ne.symm h)]

theorem vector_setIfInBounds_get? {α : Type} {n : Nat} (v : Vector α n) (i j : Nat) (x : α) (h : i < n) :
    (v.setIfInBounds i x)[j]? = if j = i then some x else v[j]? := by
  rw [Vector.getElem?_setIfInBounds]
  by_cases hij : i = j
  · subst hij; simp [h]
  · simp [hij, Ne.symm hij]

/-- Reading a tray's register after one that exists was changed. -/
theorem Tray.reg_setReg (tr : Tray) (r q : RegName) (x : Reg) (h : tr.has r = true) :
    (tr.setReg r x).reg q = if q = r then x else tr.reg q := by
  cases r with
  | base t n =>
    cases q with
    | base u m =>
      simp only [Tray.setReg, Tray.reg, slots_set_get, RegName.base.injEq]
      by_cases hu : u = t
      · subst hu
        simp only [if_true, vector_setIfInBounds_get? _ _ _ _ (by simpa [Tray.has] using h), true_and]
        by_cases hm : m = n <;> simp [hm]
      · simp [hu]
    | _ => simp [Tray.setReg, Tray.reg]
  | win w t n =>
    cases q with
    | win v u m =>
      simp only [Tray.setReg, Tray.reg, RegName.win.injEq]
      rw [find_map_keep _ _ (fun f => by split <;> rfl)]
      simp only [Tray.has, Bool.and_eq_true, decide_eq_true_eq, List.any_eq_true] at h
      by_cases hv : v = w
      · subst hv
        cases hf : tr.frames.find? fun f => f.uid == v with
        | none =>
          obtain ⟨f, hfm, hfu⟩ := h.2
          exact absurd hfu (by simpa using List.find?_eq_none.1 hf f hfm)
        | some f =>
          have hfu : (f.uid == v) = true := by simpa using List.find?_some hf
          simp only [Option.map_some, hfu, if_true, slots_set_get, true_and]
          by_cases hu : u = t
          · subst hu
            simp only [if_true, vector_setIfInBounds_get? _ _ _ _ h.1, true_and]
            by_cases hm : m = n <;> simp [hm]
          · simp [hu]
      · simp only [hv, false_and, if_false]
        cases hf : tr.frames.find? fun f => f.uid == v with
        | none => rfl
        | some f =>
          have hfu : f.uid = v := by simpa using List.find?_some hf
          have : ¬f.uid = w := by simp [hfu, hv]
          simp [this]
    | _ => simp [Tray.setReg, Tray.reg]
  | ext t n =>
    cases q with
    | ext u m =>
      simp only [Tray.has, Bool.and_eq_true, decide_eq_true_eq] at h
      obtain ⟨e, he⟩ := Option.isSome_iff_exists.1 h.2
      simp only [Tray.setReg, Tray.reg, he, Option.map_some, slots_set_get, RegName.ext.injEq]
      by_cases hu : u = t
      · subst hu
        simp only [if_true, vector_setIfInBounds_get? _ _ _ _ h.1, true_and]
        by_cases hm : m = n <;> simp [hm]
      · simp [hu]
    | _ => simp [Tray.setReg, Tray.reg]
  | s n =>
    cases q with
    | s m =>
      simp only [Tray.setReg, Tray.reg, RegName.s.injEq, vector_setIfInBounds_get? _ _ _ _ (by simpa [Tray.has] using h)]
      by_cases hm : m = n <;> simp [hm]
    | _ => simp [Tray.setReg, Tray.reg]
  | f n => simp [Tray.has] at h
  | none => simp [Tray.has] at h

/-- Reading a front strand's register after one that exists was changed. -/
theorem Front.reg_setReg (fr : Front) (r q : RegName) (x : FReg) (h : fr.has r = true) :
    (fr.setReg r x).reg q = if q = r then x else fr.reg q := by
  cases r with
  | f n =>
    cases q with
    | f m =>
      simp only [Front.setReg, Front.reg, RegName.f.injEq, vector_setIfInBounds_get? _ _ _ _ (by simpa [Front.has] using h)]
      by_cases hm : m = n <;> simp [hm]
    | _ => simp [Front.reg]
  | _ => simp [Front.has] at h

theorem Tray.setReg_id (tr : Tray) (r : RegName) (x : Reg) : (tr.setReg r x).id = tr.id := by
  cases r <;> rfl

theorem Tray.has_setReg (tr : Tray) (r q : RegName) (x : Reg) : (tr.setReg r x).has q = tr.has q := by
  cases r <;> cases q <;> simp [Tray.setReg, Tray.has, List.any_map, Function.comp_def]
  congr 1
  refine List.any_congr rfl fun f => ?_
  split <;> rfl

/-- A register of a state after a change of one tray. -/
theorem State.held_modTray (s : State) (id : Nat) (g : Tray → Tray) (hg : ∀ x, (g x).id = x.id) (o : Owner) (r : RegName) :
    (s.modTray id g).held o r =
      if o = .tray id then
        match s.tray? id with
        | some tr => (((g tr).reg r).val.setWidth 64, ((g tr).reg r).full)
        | none => (0, true)
      else s.held o r := by
  cases o with
  | tray j =>
    simp only [State.held, s.tray?_modTray id j g hg]
    by_cases hj : j = id
    · subst hj
      cases h : s.tray? j with
      | none => simp
      | some tr => simp [State.tray?_id h]
    · rw [if_neg (by simpa using hj)]
      cases h : s.tray? j with
      | none => rfl
      | some tr =>
        have : ¬tr.id = id := by simp [State.tray?_id h, hj]
        simp [this]
  | front t => simp [State.held]

/-- A register of a state after a change of one team. -/
theorem State.held_modTeam (s : State) (id : Nat) (g : Team → Team) (hg : ∀ x, (g x).id = x.id) (o : Owner) (r : RegName) :
    (s.modTeam id g).held o r =
      if o = .front id then
        match s.team? id with
        | some tm => (((g tm).front.reg r).val, ((g tm).front.reg r).full)
        | none => (0, true)
      else s.held o r := by
  cases o with
  | front j =>
    simp only [State.held, s.team?_modTeam id j g hg]
    by_cases hj : j = id
    · subst hj
      cases h : s.team? j with
      | none => simp
      | some tm => simp [State.team?_id h]
    · rw [if_neg (by simpa using hj)]
      cases h : s.team? j with
      | none => rfl
      | some tm =>
        have : ¬tm.id = id := by simp [State.team?_id h, hj]
        simp [this]
  | tray t => simp [State.held]

/-- A change of a tray that leaves its registers leaves every register. -/
theorem State.held_modTray_same (s : State) (id : Nat) (g : Tray → Tray) (hg : ∀ x, (g x).id = x.id)
    (hr : ∀ x r, (g x).reg r = x.reg r) (o : Owner) (r : RegName) : (s.modTray id g).held o r = s.held o r := by
  rw [s.held_modTray id g hg]
  split
  · rename_i h; subst h
    simp only [State.held]
    cases s.tray? id <;> simp [hr]
  · rfl

/-- A change of a team that leaves its strand's registers leaves every register. -/
theorem State.held_modTeam_same (s : State) (id : Nat) (g : Team → Team) (hg : ∀ x, (g x).id = x.id)
    (hr : ∀ x r, (g x).front.reg r = x.front.reg r) (o : Owner) (r : RegName) : (s.modTeam id g).held o r = s.held o r := by
  rw [s.held_modTeam id g hg]
  split
  · rename_i h; subst h
    simp only [State.held]
    cases s.team? id <;> simp [hr]
  · rfl

/-- Registers exist as before after one was written. -/
theorem State.has_putReg (s : State) (o o' : Owner) (w : RegWrite) (r : RegName) : (s.putReg o w).has o' r = s.has o' r := by
  cases o with
  | tray id =>
    cases o' with
    | front t => rfl
    | tray j =>
      simp only [State.has, State.putReg, s.tray?_modTray id j _ fun x => Tray.setReg_id x _ _]
      cases s.tray? j with
      | none => rfl
      | some tr =>
        simp only [Option.map_some]
        split
        · exact Tray.has_setReg _ _ _ _
        · rfl
  | front t =>
    cases o' with
    | tray j => rfl
    | front j =>
      simp only [State.has, State.putReg, State.modFront]
      rw [State.team?_modTeam _ _ _ _ (by intro x; rfl)]
      cases s.team? j with
      | none => rfl
      | some tm => cases r <;> simp [Front.has]

/-- Reading a register after one that exists was written (R43). -/
theorem State.held_putReg (s : State) (o o' : Owner) (w : RegWrite) (r : RegName) (h : s.has o w.reg = true) :
    (s.putReg o w).held o' r = if o' = o ∧ r = w.reg then (w.value o, true) else s.held o' r := by
  cases o with
  | tray id =>
    rw [State.putReg, s.held_modTray id _ fun x => Tray.setReg_id x _ _]
    by_cases ho : o' = .tray id
    · subst ho
      simp only [State.has] at h
      simp only [if_true, State.held, true_and]
      cases ht : s.tray? id with
      | none => simp [ht] at h
      | some tr =>
        rw [ht] at h
        simp only [Tray.reg_setReg tr _ _ _ h]
        by_cases hr : r = w.reg <;> simp [hr, RegWrite.value]
    · simp [ho]
  | front t =>
    rw [State.putReg, State.modFront, State.held_modTeam _ _ _ (by intro x; rfl)]
    by_cases ho : o' = .front t
    · subst ho
      simp only [State.has] at h
      simp only [if_true, State.held, true_and]
      cases ht : s.team? t with
      | none => simp [ht] at h
      | some tm =>
        rw [ht] at h
        simp only [Front.reg_setReg tm.front _ _ _ h]
        by_cases hr : r = w.reg <;> simp [hr, RegWrite.value]
    · simp [ho]

/-- Registers after several writes to registers that exist: the last write of a register holds. -/
theorem State.putRegs_regs (o : Owner) (ws : List RegWrite) (s : State) (h : ∀ w ∈ ws, s.has o w.reg = true) :
    RegsAfter s (s.putRegs o ws) o ws := by
  unfold State.putRegs
  induction ws generalizing s with
  | nil => intro o' r; simp [lastWrite]
  | cons w ws ih =>
    intro o' r
    have hw := h w (List.mem_cons_self ..)
    rw [List.foldl_cons, ih (s.putReg o w) (fun x hx => by rw [State.has_putReg]; exact h x (List.mem_cons_of_mem _ hx)) o' r,
      s.held_putReg o o' w r hw]
    by_cases ho : o' = o
    · simp only [ho, if_true, true_and, lastWrite, List.reverse_cons, List.find?_append, List.find?_cons, List.find?_nil]
      cases hf : ws.reverse.find? fun w => w.reg == r with
      | some x => simp
      | none =>
        by_cases hr : r = w.reg
        · subst hr; simp
        · have : (w.reg == r) = false := by simp [Ne.symm hr]
          simp [this, hr]
    · simp [ho]

theorem Front.reg_congr {a b : Front} (h : a.fregs = b.fregs) (r : RegName) : a.reg r = b.reg r := by
  cases r <;> simp [Front.reg, h]

theorem Tray.reg_congr {a b : Tray} (h1 : a.base = b.base) (h2 : a.frames = b.frames) (h3 : a.ext = b.ext)
    (h4 : a.sregs = b.sregs) (r : RegName) : a.reg r = b.reg r := by
  cases r <;> simp [Tray.reg, h1, h2, h3, h4]

theorem State.held_modEntry (s : State) (c : Ctx) (f : Entry → Entry) (o : Owner) (r : RegName) :
    (s.modEntry c f).held o r = s.held o r := by
  unfold State.modEntry
  split
  · exact State.held_modTeam_same _ _ _ (by intro x; rfl) (by intro x r; exact Front.reg_congr rfl r) o r
  · exact State.held_modTray_same _ _ _ (by intro x; rfl) (by intro x r; exact Tray.reg_congr rfl rfl rfl rfl r) o r

theorem State.held_stalled (s : State) (b : Bool) (o : Owner) (r : RegName) : ({ s with stalled := b } : State).held o r = s.held o r := rfl

theorem State.held_served (s : State) (c : Ctx) (o : Owner) (r : RegName) : (s.served c).held o r = s.held o r := by
  unfold State.served
  split
  · rfl
  · exact State.held_modTray_same _ _ _ (by intro x; rfl) (by intro x r; exact Tray.reg_congr rfl rfl rfl rfl r) o r

theorem State.held_counted (s : State) (c : Ctx) (o : Owner) (r : RegName) : (s.counted c).held o r = s.held o r := by
  unfold State.counted
  rw [State.held_served]
  exact State.held_modTeam_same _ _ _ (by intro x; rfl) (by intro x r; rfl) o r

theorem Tray.advance_id (tr : Tray) (act : BitVec 32) (x : BitVec 7) : (tr.advance act x).id = tr.id := by
  unfold Tray.advance
  split <;> rfl

theorem Tray.advance_reg (tr : Tray) (act : BitVec 32) (x : BitVec 7) (r : RegName) : (tr.advance act x).reg r = tr.reg r := by
  unfold Tray.advance
  split
  · exact Tray.reg_congr rfl rfl rfl rfl r
  · rfl

theorem State.held_advance (s : State) (c : Ctx) (o : Owner) (r : RegName) : (s.advance c).held o r = s.held o r := by
  unfold State.advance
  split
  · rfl
  · refine State.held_modTray_same _ _ _ ?_ ?_ o r
    · intro tr
      induction c.adv generalizing tr with
      | nil => rfl
      | cons x xs ih => rw [List.foldl_cons, ih, Tray.advance_id]
    · intro tr r
      induction c.adv generalizing tr with
      | nil => rfl
      | cons x xs ih => rw [List.foldl_cons, ih, Tray.advance_reg]

/-- Retiring a group changes no register. -/
theorem State.held_retire (s : State) (c : Ctx) (o : Owner) (r : RegName) : (s.retire c).held o r = s.held o r := by
  unfold State.retire
  rw [State.held_counted, State.held_modEntry, State.held_advance]

/-! Issuing. -/

/-- Slots that raise nothing are judged so. -/
theorem Ctx.judge_none (c : Ctx) (once : Bool) (slots : List (Fin 32)) (bad : Fin 32 → Option SlotCause)
    (h : ∀ t ∈ slots, bad t = none) : c.judge once slots bad = .clear 0 := by
  have h2 : (maskOf fun t => slots.contains t && (bad t).isSome) = 0 := by
    have : (fun t => slots.contains t && (bad t).isSome) = fun _ => false := by
      funext t
      by_cases ht : t ∈ slots
      · simp [h t ht]
      · simp [ht]
    rw [this]
    decide
  unfold Ctx.judge
  dsimp only
  split
  · rw [h2]
  · rename_i t x rest heq
    exfalso
    have hm := heq ▸ List.mem_cons_self (a := (t, x)) (l := rest)
    obtain ⟨u, hu, he⟩ := List.mem_filterMap.1 hm
    rw [h u hu] at he
    cases he

/-- What raises nothing goes on. -/
theorem State.judged_none (s : State) (c : Ctx) (once : Bool) (slots : List (Fin 32)) (bad : Fin 32 → Option SlotCause)
    (k : Ctx → State → State) (h : ∀ t ∈ slots, bad t = none) : s.judged c once slots bad k = k c s := by
  unfold State.judged
  rw [c.judge_none once slots bad h]
  simp

/-- An instruction whose questions to peers, if it has any, were answered without a cause goes on. -/
theorem State.inquired_answered (s : State) (c : Ctx) (once : Bool) (qs : List Query) (k : Ctx → State → State)
    (hs : c.slots once ≠ []) (h : ∀ q ∈ qs, ∃ y, s.broughtFrom c q.peer q.addr = some y ∧ y.cause = none) :
    s.inquired c once qs k = k c s := by
  have hl : (qs.filter fun q => (s.broughtFrom c q.peer q.addr).isNone) = [] := by
    rw [List.filter_eq_nil_iff]
    intro q hq
    obtain ⟨y, hy, -⟩ := h q hq
    simp [hy]
  have hb : ∀ t : Fin 32, (qs.foldl (fun r q =>
      match (if q.slot == t then (s.broughtFrom c q.peer q.addr).bind (·.cause) else none) with
      | some e => SlotCause.min r (atPeer e q.va)
      | none => r) none) = none := by
    intro t
    induction qs with
    | nil => rfl
    | cons q qs ih =>
      obtain ⟨y, hy, hc⟩ := h q (List.mem_cons_self ..)
      rw [List.foldl_cons]
      have : (if q.slot == t then (s.broughtFrom c q.peer q.addr).bind (·.cause) else none) = none := by
        split <;> simp [hy, hc]
      rw [this]
      exact ih (fun x hx => h x (List.mem_cons_of_mem _ hx))
        (by rw [List.filter_cons] at hl; split at hl <;> simp_all)
  unfold State.inquired
  dsimp only
  rw [hl]
  by_cases hq : qs.isEmpty = true
  · rw [if_pos hq]
  · rw [if_neg hq, if_neg (by simp)]
    rw [if_neg (by
      rw [List.all_eq_true]
      obtain ⟨t, ht⟩ := List.exists_mem_of_ne_nil _ hs
      intro hall
      have := (congrArg Option.isSome (hb t)).symm.trans (hall t ht)
      exact absurd this (by simp))]
    exact State.judged_none _ _ _ _ _ _ fun t _ => hb t

/-- A store whose checks at peers, if it has any, were answered without a cause goes on, and what they brought is forgotten. -/
theorem State.admitted_answered (s : State) (c : Ctx) (once : Bool) (n : Nat) (hs : List Hit) (k : Ctx → List Hit → State → State)
    (hc : c.slots once ≠ []) (ha : ∀ x ∈ hs, c.act.getLsbD x.slot.val = true)
    (h : ∀ x ∈ remoteHits hs, ∃ y, s.broughtFrom c x.2.1 x.2.2 = some y ∧ y.cause = none) :
    s.admitted c once n hs k = k c hs (s.unpull c) := by
  unfold State.admitted
  rw [State.inquired_answered _ _ _ _ _ hc]
  · rw [List.filter_eq_self.2 ha]
  · intro q hq
    obtain ⟨x, hx, rfl⟩ := List.mem_map.1 hq
    exact h x hx

theorem Ctx.slots_ne {c : Ctx} (h : (c.act == 0) = false) (once : Bool) : c.slots once ≠ [] := by
  unfold Ctx.slots
  split
  · simp
  · intro hm
    have h0 : c.act ≠ 0 := by simpa using h
    apply h0
    apply BitVec.eq_of_getLsbD_eq
    intro i hi
    by_contra hne
    have hb : c.act.getLsbD i = true := by
      cases hx : c.act.getLsbD i with
      | true => rfl
      | false => exact absurd (by rw [hx]; simp) hne
    have : (⟨i, hi⟩ : Fin 32) ∈ maskSlots c.act := by
      unfold maskSlots
      simp [List.mem_filter, hb, slotList]
    rw [hm] at this
    simp at this

/-- Operands that raise nothing in any active slot are judged so. -/
theorem State.slotBad_none (s : State) (c : Ctx) (r : Req) (h : ∀ t ∈ maskSlots c.act, c.slotCause r t = none) (t : Fin 32) :
    s.slotBad c r t = none := by
  unfold State.slotBad
  rw [if_neg]
  simp only [List.any_eq_true, not_exists, not_and]
  intro u hu
  simp [h u hu]

theorem State.judgedOps_none (s : State) (c : Ctx) (once : Bool) (bad : Fin 32 → Option SlotCause) (k : Ctx → State → State)
    (h : ∀ t ∈ maskSlots c.act, bad t = none) : s.judgedOps c once bad k = k c s := by
  unfold State.judgedOps
  rw [c.judge_none once _ bad h]
  simp

theorem State.predsBusy_append (s : State) (c : Ctx) (xs ys : List (BitVec 3)) :
    s.predsBusy c (xs ++ ys) = (s.predsBusy c xs || s.predsBusy c ys) := by
  unfold State.predsBusy
  induction s.prods with
  | nil => rfl
  | cons x l ih =>
    rw [List.any_cons, List.any_cons, List.any_cons, ih]
    cases x.clear <;> cases x.owner == c.owner <;> simp [Bool.or_left_comm, Bool.or_assoc]

/-- A group that issues with its own effect has it. -/
theorem Issues.run {s : State} {p : Pfx} {size : Nat} {r : Req} {c : Ctx} {u : State} (h : Issues s p size r c u)
    (k : Ctx → State → State) : s.run p size r k = k c u := by
  have hf := h.free
  rw [State.predsBusy_append, Bool.or_eq_false_iff] at hf
  unfold State.run
  rw [h.agent]
  dsimp only
  rw [← h.adv]
  change (if s.predsBusy c p.guards = true then _ else if (c.act == 0) = true then _ else if s.predsBusy c r.preds = true then _ else
    s.judgedOps c r.once (s.slotBad c r) _) = _
  rw [hf.1, h.active, hf.2, State.judgedOps_none _ _ _ _ _ fun t _ => s.slotBad_none c r h.sound t, h.full, ← h.read]
  simp

/-! Reading tokens changes what the order of memory and the fabric keep for the readers, and nothing else. -/

/-- A state without the lists in which the order of memory and the fabric keep their accounts. -/
def State.unnoted (s : State) : State :=
  { s with past := [], tokens := [], fab := { s.fab with dirty := [], deltas := [] } }

theorem State.tokenRead_unnoted (s : State) (o : Owner) (m : BitVec 32) (x : Fruit) : (s.tokenRead o m x).unnoted = s.unnoted := by
  have hp : ∀ (s : State) (f : Past → Past), (s.modPast f).unnoted = s.unnoted := by
    intro s f
    unfold State.modPast
    split <;> rfl
  unfold State.tokenRead
  cases x with
  | cmd k =>
    dsimp only
    exact (hp _ _).trans rfl
  | launch k => exact (hp _ _).trans rfl

theorem State.readTokens_unnoted (s : State) (c : Ctx) (r : Req) : (s.readTokens c r).unnoted = s.unnoted := by
  have hf : ∀ (ts : List Token) (s : State), (ts.foldl (fun s t => s.tokenRead c.owner c.act t.fruit) s).unnoted = s.unnoted := by
    intro ts
    induction ts with
    | nil => intro s; rfl
    | cons t ts ih => intro s; rw [List.foldl_cons, ih, State.tokenRead_unnoted]
  unfold State.readTokens
  split
  · rfl
  · exact (hf _ s : State.unnoted _ = s.unnoted)

theorem Issues.read_trays {s : State} {p : Pfx} {size : Nat} {r : Req} {c : Ctx} {u : State} (h : Issues s p size r c u) :
    u.trays = s.trays := by
  have := congrArg State.trays (s.readTokens_unnoted c r); rw [h.read]; exact this

theorem Issues.read_teams {s : State} {p : Pfx} {size : Nat} {r : Req} {c : Ctx} {u : State} (h : Issues s p size r c u) :
    u.teams = s.teams := by
  have := congrArg State.teams (s.readTokens_unnoted c r); rw [h.read]; exact this

theorem State.has_congr {s u : State} (h1 : u.trays = s.trays) (h2 : u.teams = s.teams) (o : Owner) (r : RegName) :
    u.has o r = s.has o r := by
  unfold State.has State.tray? State.team?
  rw [h1, h2]

theorem State.held_congr {s u : State} (h1 : u.trays = s.trays) (h2 : u.teams = s.teams) (o : Owner) (r : RegName) :
    u.held o r = s.held o r := by
  unfold State.held State.tray? State.team?
  rw [h1, h2]

/-- Registers that a destination of a group names exist. -/
theorem Issues.writes_has {s : State} {p : Pfx} {size : Nat} {r : Req} {c : Ctx} {u : State} (h : Issues s p size r c u) {d : BitVec 7} {n : Nat}
    (hd : (d, n) ∈ r.dsts) (v : Fin 32 → List Word) : ∀ w ∈ c.writes d n v, u.has c.owner w.reg = true := by
  intro w hw
  unfold Ctx.writes at hw
  obtain ⟨t, -, hw⟩ := List.mem_flatMap.1 hw
  cases hn : c.names d n t with
  | error e => simp [hn] at hw
  | ok rs =>
    have ht : ∀ x ∈ rs, u.has c.owner x = true := fun x hx => by
      rw [State.has_congr h.read_trays h.read_teams]
      exact h.there (d, n) hd t rs hn x hx
    simp only [hn] at hw
    split at hw
    · obtain ⟨x, hx, rfl⟩ := List.mem_map.1 hw
      exact ht x hx
    · obtain ⟨x, hx, rfl⟩ := List.mem_map.1 hw
      exact ht x.1 (List.of_mem_zip hx).1

/-- What the issuer's context is made of, for tray code. -/
theorem State.issuer_tray {s : State} {p : Pfx} {size : Nat} {c : Ctx} (h : s.issuer p size = some c) (hf : c.front = false) :
    s.tray? c.tray.id = some c.tray ∧ c.tray.frontier[c.entry]? = some c.ent ∧
      s.around c.tray.team = some (c.team, c.launch, c.cx) ∧ c.act = c.guarded ∧ c.pfx = p ∧ c.size = size := by
  unfold State.issuer at h
  split at h
  · cases h
  · rename_i id k hcur
    cases hc : s.trayCtx id k p size with
    | none => simp [hc] at h
    | some c' =>
      simp only [hc] at h
      split at h
      · cases h
        unfold State.trayCtx at hc
        cases ht : s.tray? id with
        | none => simp [ht] at hc
        | some tr =>
          simp only [ht] at hc
          split at hc
          · rename_i e tm l cx he ha
            cases hc
            have hid := State.tray?_id ht
            refine ⟨?_, he, ha, rfl, rfl, rfl⟩
            simp only [hid, ht]
          · cases hc
      · cases h
  · rename_i tm hcur
    cases hc : s.frontCtx tm p size with
    | none => simp [hc] at h
    | some c' =>
      simp only [hc] at h
      split at h
      · cases h
        unfold State.frontCtx at hc
        split at hc
        · cases hc
        · cases hc; simp at hf
      · cases h

/-! Where agents stand. -/

/-- Two states whose agents stand at the same places. -/
def State.stands (s : State) : List (Nat × List Entry) × List (Nat × DWord × List Loop × Wait) :=
  (s.trays.map fun tr => (tr.id, tr.frontier), s.teams.map fun tm => (tm.id, tm.front.pc, tm.front.loops, tm.front.wait))

theorem find_map_eq {α β : Type} (g : α → β) (f : β → Nat) (id : Nat) (l : List α) :
    (l.find? fun x => f (g x) == id).map g = (l.map g).find? fun y => f y == id := by
  induction l with
  | nil => rfl
  | cons x l ih =>
    simp only [List.find?_cons, List.map_cons]
    cases h : f (g x) == id
    · exact ih
    · rfl

theorem State.stands_tray {s t : State} (h : t.stands = s.stands) (id : Nat) :
    (t.tray? id).map (·.frontier) = (s.tray? id).map (·.frontier) := by
  have h1 := congrArg Prod.fst h
  simp only [State.stands] at h1
  have e (x : State) : (x.tray? id).map (·.frontier) =
      ((x.trays.map fun tr => (tr.id, tr.frontier)).find? fun y => y.1 == id).map Prod.snd := by
    rw [← find_map_eq (fun tr : Tray => (tr.id, tr.frontier)) Prod.fst id x.trays, Option.map_map]
    rfl
  rw [e, e, h1]

theorem State.stands_team {s t : State} (h : t.stands = s.stands) (id : Nat) :
    (t.team? id).map (fun tm => (tm.front.pc, tm.front.loops, tm.front.wait)) =
      (s.team? id).map fun tm => (tm.front.pc, tm.front.loops, tm.front.wait) := by
  have h1 := congrArg Prod.snd h
  simp only [State.stands] at h1
  have e (x : State) : (x.team? id).map (fun tm => (tm.front.pc, tm.front.loops, tm.front.wait)) =
      ((x.teams.map fun tm => (tm.id, tm.front.pc, tm.front.loops, tm.front.wait)).find? fun y => y.1 == id).map Prod.snd := by
    rw [← find_map_eq (fun tm : Team => (tm.id, tm.front.pc, tm.front.loops, tm.front.wait)) Prod.fst id x.teams, Option.map_map]
    rfl
  rw [e, e, h1]

theorem State.stands_modTray (s : State) (id : Nat) (g : Tray → Tray) (hg : ∀ x, (g x).id = x.id)
    (hf : ∀ x, (g x).frontier = x.frontier) : (s.modTray id g).stands = s.stands := by
  unfold State.stands State.modTray
  simp only [List.map_map, Prod.mk.injEq, and_true]
  refine List.map_congr_left fun x _ => ?_
  simp only [Function.comp]
  split <;> simp [hg, hf]

theorem State.stands_modTeam (s : State) (id : Nat) (g : Team → Team) (hg : ∀ x, (g x).id = x.id)
    (hf : ∀ x, (g x).front.pc = x.front.pc ∧ (g x).front.loops = x.front.loops ∧ (g x).front.wait = x.front.wait) :
    (s.modTeam id g).stands = s.stands := by
  unfold State.stands State.modTeam
  simp only [List.map_map, Prod.mk.injEq, true_and]
  refine List.map_congr_left fun x _ => ?_
  simp only [Function.comp]
  split <;> simp [hg, hf]

theorem Tray.setReg_frontier (tr : Tray) (r : RegName) (x : Reg) : (tr.setReg r x).frontier = tr.frontier := by
  cases r <;> rfl

theorem Front.setReg_stands (fr : Front) (r : RegName) (x : FReg) :
    (fr.setReg r x).pc = fr.pc ∧ (fr.setReg r x).loops = fr.loops ∧ (fr.setReg r x).wait = fr.wait := by
  cases r <;> exact ⟨rfl, rfl, rfl⟩

theorem State.stands_putRegs (o : Owner) (ws : List RegWrite) (s : State) : (s.putRegs o ws).stands = s.stands := by
  unfold State.putRegs
  induction ws generalizing s with
  | nil => rfl
  | cons w ws ih =>
    rw [List.foldl_cons, ih]
    cases o with
    | tray id => exact s.stands_modTray _ _ (by intro x; exact Tray.setReg_id x _ _) (by intro x; exact Tray.setReg_frontier x _ _)
    | front id => exact s.stands_modTeam _ _ (by intro x; rfl) (by intro x; exact Front.setReg_stands _ _ _)

theorem State.stands_markEmpty (o : Owner) (rs : List RegName) (s : State) : (s.markEmpty o rs).stands = s.stands := by
  unfold State.markEmpty
  induction rs generalizing s with
  | nil => rfl
  | cons r rs ih =>
    rw [List.foldl_cons, ih]
    cases o with
    | tray id => exact s.stands_modTray _ _ (by intro x; exact Tray.setReg_id x _ _) (by intro x; exact Tray.setReg_frontier x _ _)
    | front id => exact s.stands_modTeam _ _ (by intro x; rfl) (by intro x; exact Front.setReg_stands _ _ _)

theorem State.stands_advance (s : State) (c : Ctx) : (s.advance c).stands = s.stands := by
  unfold State.advance
  split
  · rfl
  · refine s.stands_modTray _ _ ?_ ?_
    · intro tr
      induction c.adv generalizing tr with
      | nil => rfl
      | cons x xs ih => rw [List.foldl_cons, ih, Tray.advance_id]
    · intro tr
      induction c.adv generalizing tr with
      | nil => rfl
      | cons x xs ih =>
        rw [List.foldl_cons, ih]
        unfold Tray.advance
        split <;> rfl

theorem State.stands_setPred (s : State) (c : Ctx) (p : BitVec 3) (m : BitVec 32) (v : Fin 32 → Bool) :
    (s.setPred c p m v).stands = s.stands := by
  unfold State.setPred
  split
  · rfl
  · split
    · split
      · exact s.stands_modTeam _ _ (by intro x; rfl) (by intro x; exact ⟨rfl, rfl, rfl⟩)
      · rfl
    · exact s.stands_modTray _ _ (by intro x; rfl) (by intro x; rfl)

/-- Changing the issuing entry moves it alone, and what an issue counts moves nothing. -/
theorem State.modEntry_moved {s u : State} {c : Ctx} (f : Entry → Entry) (hs : u.stands = s.stands)
    (hc : c.front = false → ∃ tr, s.tray? c.tray.id = some tr ∧ tr.frontier[c.entry]? = some c.ent) :
    Moved s (u.modEntry c f) c (f c.ent) := by
  have hmod : ∀ (l : List Entry) (n : Nat) (x : Entry), l[n]? = some x → modAt f l n = modAt (fun _ => f x) l n := by
    intro l
    induction l with
    | nil => intro n x h; rfl
    | cons y l ih =>
      intro n x h
      cases n with
      | zero => simp only [List.getElem?_cons_zero, Option.some.injEq] at h; simp [modAt, h]
      | succ n => simp only [List.getElem?_cons_succ] at h; simp [modAt, ih n x h]
  unfold State.modEntry
  cases hf : c.front with
  | true =>
    simp only [if_true]
    constructor
    · intro id
      simp only [hf, Bool.true_eq_false, false_and, if_false]
      rw [State.tray?_modFront]
      exact State.stands_tray hs id
    · intro id
      simp only [hf, true_and]
      rw [State.modFront, State.team?_modTeam _ _ _ _ (by intro x; rfl)]
      have := State.stands_team hs id
      cases hu : u.team? id with
      | none =>
        rw [hu] at this
        cases h' : s.team? id with
        | none => simp
        | some y => simp [h'] at this
      | some x =>
        rw [hu] at this
        cases h' : s.team? id with
        | none => simp [h'] at this
        | some y =>
          simp only [h', Option.map_some, Option.some.injEq] at this
          have hid := State.team?_id hu
          by_cases he : id = c.team.id
          · simp [hid, he]
          · simp [hid, he, this]
  | false =>
    simp only [Bool.false_eq_true, if_false]
    constructor
    · intro id
      simp only [hf, true_and]
      rw [State.tray?_modTray _ _ _ _ (by intro x; rfl)]
      have := State.stands_tray hs id
      cases hu : u.tray? id with
      | none =>
        rw [hu] at this
        cases h' : s.tray? id with
        | none => simp
        | some y => simp [h'] at this
      | some x =>
        rw [hu] at this
        cases h' : s.tray? id with
        | none => simp [h'] at this
        | some y =>
          simp only [h', Option.map_some, Option.some.injEq] at this
          have hid := State.tray?_id hu
          by_cases he : id = c.tray.id
          · obtain ⟨tr, htr, hent⟩ := hc hf
            rw [← he, h'] at htr
            cases htr
            rw [← this] at hent
            simp [hid, he, ← this, hmod _ _ _ hent]
          · simp [hid, he, this]
    · intro id
      simp only [hf, Bool.false_eq_true, false_and, if_false]
      rw [State.team?_modTray]
      exact State.stands_team hs id

theorem State.stands_served (s : State) (c : Ctx) : (s.served c).stands = s.stands := by
  unfold State.served
  split
  · rfl
  · exact State.stands_modTray _ _ _ (by intro x; rfl) (by intro x; rfl)

theorem Moved.congr {s t u : State} {c : Ctx} {e : Entry} (h : Moved s t c e) (hu : u.stands = t.stands) : Moved s u c e :=
  ⟨fun id => (State.stands_tray hu id).trans (h.trays id), fun id => (State.stands_team hu id).trans (h.fronts id)⟩

/-- Retiring a group moves its entry past it (R135, R150). -/
theorem State.retire_moved {s u : State} {c : Ctx} (hs : u.stands = s.stands)
    (hc : c.front = false → ∃ tr, s.tray? c.tray.id = some tr ∧ tr.frontier[c.entry]? = some c.ent) :
    Moved s (u.retire c) c c.past := by
  unfold State.retire State.counted
  refine Moved.congr (State.modEntry_moved (u := u.advance c) (fun e => { e.flowTo (c.ent.pc + BitVec.ofNat 64 c.size) with wait := .none })
    ((u.stands_advance c).trans hs) hc) ?_
  rw [State.stands_served]
  exact State.stands_modTeam _ _ _ (by intro x; rfl) (by intro x; exact ⟨rfl, rfl, rfl⟩)

theorem Issues.entry {s : State} {p : Pfx} {size : Nat} {r : Req} {c : Ctx} {u : State} (h : Issues s p size r c u) :
    c.front = false → ∃ tr, u.tray? c.tray.id = some tr ∧ tr.frontier[c.entry]? = some c.ent := by
  intro hf
  unfold State.tray?
  rw [h.read_trays]
  exact ⟨c.tray, (State.issuer_tray h.agent hf).1, (State.issuer_tray h.agent hf).2.1⟩

/-! Cursors. -/

/-- What an advance reads of a tray. -/
def Tray.ixPart (tr : Tray) : Slots (Vector (BitVec 8) 8) × Vector IxDesc 8 := (tr.cursors, tr.ix)

/-- Two states whose trays have the same index registers and cursors. -/
def SameIx (s t : State) : Prop := ∀ id, (t.tray? id).map Tray.ixPart = (s.tray? id).map Tray.ixPart

theorem SameIx.trans {s t u : State} (h : SameIx s t) (k : SameIx t u) : SameIx s u := fun id => (k id).trans (h id)

theorem SameIx.modTray (s : State) (j : Nat) (g : Tray → Tray) (hg : ∀ x, (g x).id = x.id)
    (hc : ∀ x, (g x).ixPart = x.ixPart) : SameIx s (s.modTray j g) := by
  intro id
  rw [State.tray?_modTray _ _ _ _ hg]
  cases s.tray? id with
  | none => rfl
  | some tr =>
    simp only [Option.map_some]
    split <;> simp [hc]

theorem SameIx.putRegs (o : Owner) (ws : List RegWrite) (s : State) : SameIx s (s.putRegs o ws) := by
  unfold State.putRegs
  induction ws generalizing s with
  | nil => intro id; rfl
  | cons w ws ih =>
    rw [List.foldl_cons]
    refine SameIx.trans ?_ (ih _)
    cases o with
    | front t => intro id; rfl
    | tray j => exact SameIx.modTray _ _ _ (fun x => Tray.setReg_id x _ _) fun x => by cases w.reg <;> rfl

theorem SameIx.markEmpty (o : Owner) (rs : List RegName) (s : State) : SameIx s (s.markEmpty o rs) := by
  unfold State.markEmpty
  induction rs generalizing s with
  | nil => intro id; rfl
  | cons r rs ih =>
    rw [List.foldl_cons]
    refine SameIx.trans ?_ (ih _)
    cases o with
    | front t => intro id; rfl
    | tray j => exact SameIx.modTray _ _ _ (fun x => Tray.setReg_id x _ _) fun x => by cases r <;> rfl

theorem SameIx.setPred (s : State) (c : Ctx) (p : BitVec 3) (m : BitVec 32) (v : Fin 32 → Bool) : SameIx s (s.setPred c p m v) := by
  unfold State.setPred
  split
  · intro id; rfl
  · split
    · split <;> intro id <;> rfl
    · exact SameIx.modTray _ _ _ (by intro x; rfl) (by intro x; rfl)

theorem IxDesc.advance_next (d : IxDesc) (cur : BitVec 8) : d.advance cur = d.next cur := by
  unfold IxDesc.advance IxDesc.next
  cases d.wrap
  · simp only [Bool.false_eq_true, if_false]
    apply BitVec.eq_of_toInt_eq
    rw [BitVec.toInt_add, BitVec.toInt_signExtend_of_le (by decide), BitVec.toInt_ofInt]
  · rfl

theorem Tray.advance_cursor (tr : Tray) (act : BitVec 32) (code : BitVec 7) (u : Fin 32) (x : Nat) (hx : x < 8) :
    ((tr.advance act code).cursors[u][x]?).getD 0 =
      if act.getLsbD u.val = true ∧ code = BitVec.ofNat 7 (104 + x) then
        ((tr.ix[x]?).getD IxDesc.unset).next ((tr.cursors[u][x]?).getD 0)
      else (tr.cursors[u][x]?).getD 0 := by
  have hcode : (code = BitVec.ofNat 7 (104 + x)) ↔ (104 ≤ code.toNat ∧ code.toNat - 104 = x) := by
    constructor
    · intro h; subst h; simp; omega
    · rintro ⟨h1, h2⟩
      apply BitVec.eq_of_toNat_eq
      have := code.isLt
      simp
      omega
  unfold Tray.advance
  by_cases hr : 104 ≤ code.toNat ∧ code.toNat < 112
  · rw [if_pos (by simpa using hr)]
    dsimp only
    rw [Slots.gen_get]
    by_cases ha : act.getLsbD u.val = true
    · rw [if_pos ha, vector_setIfInBounds_get? _ _ _ _ (by omega)]
      by_cases he : x = code.toNat - 104
      · rw [if_pos he, if_pos ⟨ha, hcode.2 ⟨hr.1, he.symm⟩⟩, ← he, IxDesc.advance_next]
        rfl
      · rw [if_neg he, if_neg fun h => he (hcode.1 h.2).2.symm]
    · rw [if_neg ha, if_neg fun h => ha h.1]
  · rw [if_neg (by simpa using hr), if_neg]
    rintro ⟨-, h⟩
    have := hcode.1 h
    omega

theorem Tray.advance_ix (tr : Tray) (act : BitVec 32) (code : BitVec 7) : (tr.advance act code).ix = tr.ix := by
  unfold Tray.advance
  split <;> rfl

theorem Tray.advances_cursor (act : BitVec 32) (codes : List (BitVec 7)) (hn : codes.Nodup) (u : Fin 32) (x : Nat) (hx : x < 8) (tr : Tray) :
    ((codes.foldl (fun tr y => tr.advance act y) tr).cursors[u][x]?).getD 0 =
      if act.getLsbD u.val = true ∧ BitVec.ofNat 7 (104 + x) ∈ codes then
        ((tr.ix[x]?).getD IxDesc.unset).next ((tr.cursors[u][x]?).getD 0)
      else (tr.cursors[u][x]?).getD 0 := by
  induction codes generalizing tr with
  | nil => simp
  | cons y ys ih =>
    rw [List.foldl_cons, ih (List.nodup_cons.1 hn).2, tr.advance_cursor act y u x hx, tr.advance_ix]
    by_cases ha : act.getLsbD u.val = true
    · by_cases hy : y = BitVec.ofNat 7 (104 + x)
      · have : BitVec.ofNat 7 (104 + x) ∉ ys := hy ▸ (List.nodup_cons.1 hn).1
        simp [ha, hy, this]
      · have hy' : ¬BitVec.ofNat 7 (104 + x) = y := fun e => hy e.symm
        by_cases hm : BitVec.ofNat 7 (104 + x) ∈ ys <;> simp [ha, hy, hm, hy']
    · rw [if_neg fun h => ha h.1, if_neg fun h => ha h.1, if_neg fun h => ha h.1]

/-- Retiring a group advances the cursors of its v[x+] operands, each once (R40). -/
theorem State.retire_cursors {s u : State} {c : Ctx} (h : SameIx s u) (hn : c.adv.Nodup) : Cursors s (u.retire c) c := by
  have hserved : ∀ s : State, SameIx s (s.served c) := by
    intro s
    unfold State.served
    split
    · intro id; rfl
    · exact SameIx.modTray { s with stalled := false } _ _ (by intro x; rfl) (by intro x; rfl)
  have hmod : ∀ (s : State) (f : Entry → Entry), SameIx s (s.modEntry c f) := by
    intro s f
    unfold State.modEntry
    split
    · intro id; rfl
    · exact SameIx.modTray _ _ _ (by intro x; rfl) (by intro x; rfl)
  have hrest : SameIx (u.advance c) (u.retire c) := by
    unfold State.retire State.counted
    exact (hmod _ _).trans (SameIx.trans (fun id => by rw [State.tray?_modTeam]) (hserved _))
  intro id tr htr
  have h1 := h id
  rw [htr] at h1
  obtain ⟨tu, htu, hpu⟩ := Option.map_eq_some_iff.1 h1
  have hidu := State.tray?_id htu
  have hids := State.tray?_id htr
  have hcur : tu.cursors = tr.cursors := congrArg Prod.fst hpu
  have hix : tu.ix = tr.ix := congrArg Prod.snd hpu
  have hadv : ∃ ta, (u.advance c).tray? id = some ta ∧ ∀ (v : Fin 32) (x : Nat), x < 8 →
      (ta.cursors[v][x]?).getD 0 = c.cursorAfter tr v x := by
    unfold State.advance
    by_cases hf : c.front = true ∨ c.adv = []
    · refine ⟨tu, ?_, fun v x _ => ?_⟩
      · rw [if_pos (by rcases hf with hf | hf <;> simp [hf])]
        exact htu
      · unfold Ctx.cursorAfter
        rw [if_neg (by rcases hf with hf | hf <;> simp [hf]), hcur]
    · have hf1 : c.front = false := by simpa using fun e => hf (.inl e)
      have hf2 : c.adv ≠ [] := fun e => hf (.inr e)
      rw [if_neg (by simp [hf1, hf2])]
      have hg : ∀ x : Tray, (c.adv.foldl (fun tr x => tr.advance c.act x) x).id = x.id := by
        intro tr
        generalize c.adv = codes
        induction codes generalizing tr with
        | nil => rfl
        | cons x xs ih => rw [List.foldl_cons, ih, Tray.advance_id]
      rw [State.tray?_modTray _ _ _ _ hg, htu]
      refine ⟨_, rfl, fun v x hx => ?_⟩
      unfold Ctx.cursorAfter
      by_cases hid : tu.id = c.tray.id
      · simp only [hid, beq_self_eq_true, if_true]
        rw [Tray.advances_cursor _ _ hn _ _ hx, hcur, hix]
        have : tr.id = c.tray.id := hids.trans (hidu.symm.trans hid)
        simp [hf1, this]
      · have : ¬tr.id = c.tray.id := fun e => hid (hidu.trans (hids.symm.trans e))
        simp [hid, this, hcur]
  obtain ⟨ta, hta, hca⟩ := hadv
  have h2 := hrest id
  rw [hta] at h2
  obtain ⟨tt, htt, hpt⟩ := Option.map_eq_some_iff.1 h2
  refine ⟨tt, htt, fun v x hx => ?_⟩
  have ht : tt.cursors = ta.cursors := congrArg Prod.fst hpt
  rw [← hca v x hx, ht]
  have : x < 8 := hx
  rw [Vector.getElem?_eq_getElem this]
  rfl

theorem Issues.nodup {s : State} {p : Pfx} {size : Nat} {r : Req} {c : Ctx} {u : State} (h : Issues s p size r c u) : c.adv.Nodup := by
  rw [h.adv]
  unfold Req.adv
  generalize r.codes.filter _ = l
  induction l with
  | nil => exact List.nodup_nil
  | cons x xs ih => exact ih.insert

/-- Writing a destination and retiring computes (R107). -/
theorem Issues.finish {s : State} {p : Pfx} {size : Nat} {r : Req} {c : Ctx} {u : State} (h : Issues s p size r c u) {d : BitVec 7} {n : Nat}
    (hd : (d, n) ∈ r.dsts) (v : Fin 32 → List Word) : Computes u (u.finish c d n v) c (c.writes d n v) where
  regs := by
    intro o x
    rw [State.finish, State.held_retire]
    exact State.putRegs_regs _ _ _ (h.writes_has hd v) o x
  rest := by rw [State.finish, State.retire_still, State.putRegs_still]
  bytes := by
    refine sameBytes_of_still ?_
    rw [State.finish, State.retire_still, State.putRegs_still]
  flow := State.retire_moved (State.stands_putRegs ..) h.entry
  cursors := State.retire_cursors (SameIx.putRegs _ _ _) h.nodup

/-- Registers exist as before after one was marked. -/
theorem State.has_setFull (s : State) (o o' : Owner) (q r : RegName) (b : Bool) : (s.setFull o q b).has o' r = s.has o' r := by
  cases o with
  | tray id =>
    cases o' with
    | front t => rfl
    | tray j =>
      simp only [State.has, State.setFull]
      rw [State.tray?_modTray _ _ _ _ (by intro x; exact Tray.setReg_id x _ _)]
      cases s.tray? j with
      | none => rfl
      | some tr =>
        simp only [Option.map_some]
        split
        · exact Tray.has_setReg _ _ _ _
        · rfl
  | front t =>
    cases o' with
    | tray j => rfl
    | front j =>
      simp only [State.has, State.setFull, State.modFront]
      rw [State.team?_modTeam _ _ _ _ (by intro x; rfl)]
      cases s.team? j with
      | none => rfl
      | some tm => cases r <;> simp [Front.has]

/-- Marking a register that exists keeps its value (R43, R47). -/
theorem State.held_setFull (s : State) (o o' : Owner) (q r : RegName) (b : Bool) (h : s.has o q = true) :
    (s.setFull o q b).held o' r = if o' = o ∧ r = q then ((s.held o' r).1, b) else s.held o' r := by
  cases o with
  | tray id =>
    rw [State.setFull, State.held_modTray _ _ _ (by intro x; exact Tray.setReg_id x _ _)]
    by_cases ho : o' = .tray id
    · subst ho
      simp only [State.has] at h
      simp only [if_true, State.held, true_and]
      cases ht : s.tray? id with
      | none => simp [ht] at h
      | some tr =>
        rw [ht] at h
        simp only [Tray.reg_setReg tr _ _ _ h]
        by_cases hr : r = q
        · subst hr; simp
        · simp [hr]
    · simp [ho]
  | front t =>
    rw [State.setFull, State.modFront, State.held_modTeam _ _ _ (by intro x; rfl)]
    by_cases ho : o' = .front t
    · subst ho
      simp only [State.has] at h
      simp only [if_true, State.held, true_and]
      cases ht : s.team? t with
      | none => simp [ht] at h
      | some tm =>
        rw [ht] at h
        simp only [Front.reg_setReg tm.front _ _ _ h]
        by_cases hr : r = q
        · subst hr; simp
        · simp [hr]
    · simp [ho]

/-- Marking registers that exist keeps their values and empties them (R43). -/
theorem State.markEmpty_regs (o : Owner) (rs : List RegName) (s : State) (h : ∀ r ∈ rs, s.has o r = true) :
    RegsMarked s (s.markEmpty o rs) o rs := by
  unfold State.markEmpty
  induction rs generalizing s with
  | nil => intro o' r; simp
  | cons q rs ih =>
    intro o' r
    have hq := h q (List.mem_cons_self ..)
    rw [List.foldl_cons, ih (s.setFull o q false) (fun x hx => by rw [State.has_setFull]; exact h x (List.mem_cons_of_mem _ hx)) o' r,
      s.held_setFull o o' q r false hq]
    by_cases ho : o' = o
    · by_cases hr : r = q
      · subst hr; simp [ho]
      · simp [ho, hr]
    · simp [ho]

/-- Leaving values with a new producer and retiring defers (R43). -/
theorem Issues.produce {s : State} {p : Pfx} {size : Nat} {r : Req} {c : Ctx} {u : State} (h : Issues s p size r c u) {d : BitVec 7} {n : Nat}
    (hd : (d, n) ∈ r.dsts) (kind : ProdKind) (v : Fin 32 → List Word) :
    Defers u (u.produce c kind (c.writes d n v)) c kind (c.writes d n v) := by
  have hm : ∀ x ∈ (c.writes d n v).map (·.reg), u.fresh.2.has c.owner x = true := by
    intro x hx
    obtain ⟨w, hw, rfl⟩ := List.mem_map.1 hx
    exact h.writes_has hd v w hw
  let pr : Producer :=
    { id := u.nextId, owner := c.owner, kind := kind, pc := c.ent.pc, size := c.size, mask := c.act, writes := c.writes d n v,
      marks := (c.writes d n v).map (·.reg), bad := [], tags := [], adv := [],
      clear := match c.pfx.guard with | some g => if g.clear then some (g.p, g.neg) else none | none => none
      acquire := none }
  have hstill : ((u.newProducer c kind ((c.writes d n v).map (·.reg)) (c.writes d n v) []).2.retire c).still =
      { u.still with prods := u.prods ++ [pr], nextId := u.nextId + 1 } := by
    rw [State.retire_still]
    have hme := State.markEmpty_still c.owner ((c.writes d n v).map (·.reg)) u.fresh.2
    have e1 : (u.fresh.2.markEmpty c.owner ((c.writes d n v).map (·.reg))).prods = u.prods := by
      have := congrArg State.prods hme; exact this
    have e2 := congrArg (fun x : State => ({ x with prods := u.prods ++ [pr] } : State)) hme
    unfold State.newProducer
    dsimp only
    rw [e1]
    exact e2
  have hrest : { (u.produce c kind (c.writes d n v)).still with prods := u.prods, nextId := u.nextId } = u.still := by
    rw [State.produce, hstill]
    rfl
  refine ⟨?_, ?_, hrest, State.retire_moved ?_ h.entry, ?_, ?_⟩
  · intro o x
    rw [State.produce, State.held_retire]
    exact State.markEmpty_regs c.owner _ u.fresh.2 hm o x
  · have hp := congrArg State.prods hstill
    exact ⟨_, hp, rfl, rfl, rfl, rfl, rfl, rfl, rfl⟩
  · exact State.stands_markEmpty ..
  · exact sameBytes_of_still (t := { (u.produce c kind (c.writes d n v)) with prods := u.prods, nextId := u.nextId }) hrest
  · exact State.retire_cursors (SameIx.markEmpty c.owner _ u.fresh.2) h.nodup

theorem setPredBit_bit (w : BitVec 8) (p q : BitVec 3) (v : Bool) :
    (setPredBit w p v).getLsbD q.toNat = if q = p then v else w.getLsbD q.toNat := by
  have hq : q.toNat < 8 := q.isLt
  have hs : (1#8 <<< p.toNat).getLsbD q.toNat = decide (q = p) := by
    revert p q
    decide
  unfold setPredBit
  cases v
  · rw [if_neg (by simp), BitVec.getLsbD_and, BitVec.getLsbD_not, hs]
    by_cases h : q = p <;> simp [h, hq]
  · rw [if_pos rfl, BitVec.getLsbD_or, hs]
    by_cases h : q = p <;> simp [h]

theorem Tray.preds_retire {s : State} {c : Ctx} (id : Nat) :
    ((s.retire c).tray? id).map (·.preds) = (s.tray? id).map (·.preds) := by
  have h := congrArg State.trays (s.retire_still c)
  have := congrArg (Option.map fun x : Tray => x.preds) (tray?_still_eq h id)
  simp only [Option.map_map] at this
  exact this

/-- Writing a predicate in the active slots and retiring (R26, R112). -/
theorem Issues.setPred {s : State} {p : Pfx} {size : Nat} {r : Req} {c : Ctx} {u : State} (h : Issues s p size r c u) (q : BitVec 3)
    (v : Fin 32 → Bool) : SetsPred u ((u.setPred c q c.act v).retire c) c q v := by
  have hst : ∀ u : State, (u.setPred c q c.act v).cmds = u.cmds ∧ (u.setPred c q c.act v).prods = u.prods ∧
      (u.setPred c q c.act v).ctxs = u.ctxs ∧ (u.setPred c q c.act v).mem = u.mem := by
    intro u
    unfold State.setPred
    split
    · exact ⟨rfl, rfl, rfl, rfl⟩
    · split
      · split <;> exact ⟨rfl, rfl, rfl, rfl⟩
      · exact ⟨rfl, rfl, rfl, rfl⟩
  have hret := State.retire_still (u.setPred c q c.act v) c
  refine ⟨?_, ?_, ?_, State.retire_moved (State.stands_setPred ..) h.entry, ?_, State.retire_cursors (SameIx.setPred _ _ _ _ _) h.nodup, ?_⟩
  · intro hf
    have ht : u.tray? c.tray.id = some c.tray := by
      unfold State.tray?
      rw [h.read_trays]
      exact (State.issuer_tray h.agent hf).1
    have hp := Tray.preds_retire (s := u.setPred c q c.act v) (c := c) c.tray.id
    have hset : ((u.setPred c q c.act v).tray? c.tray.id).map (·.preds) =
        some (if q = 0 then c.tray.preds else
          Slots.gen fun t => if c.act.getLsbD t.val then setPredBit c.tray.preds[t] q (v t) else c.tray.preds[t]) := by
      unfold State.setPred
      by_cases hq : q = 0
      · simp only [hq, beq_self_eq_true, if_true]
        rw [ht]; rfl
      · have hq' : (q == 0) = false := by simpa using hq
        simp only [hq', hf, Bool.false_eq_true, if_false, hq]
        rw [State.tray?_modTray _ _ _ _ (by intro x; rfl), ht]
        simp
    rw [hset] at hp
    obtain ⟨tr', htr, hpr⟩ := Option.map_eq_some_iff.1 hp
    refine ⟨tr', htr, fun q' x hq' => ?_⟩
    rw [hpr]
    by_cases hq : q = 0
    · have : ¬(q' = q ∧ c.act.getLsbD x.val = true) := fun e => hq' (e.1.trans hq)
      rw [if_pos hq, if_neg this]
    · rw [if_neg hq, Slots.gen_get]
      by_cases ha : c.act.getLsbD x.val = true
      · rw [if_pos ha, setPredBit_bit]
        by_cases he : q' = q
        · rw [if_pos he, if_pos ⟨he, ha⟩]
        · rw [if_neg he, if_neg fun e => he e.1]
      · rw [if_neg ha, if_neg fun e => ha e.2]
  · intro id hid
    rw [Tray.preds_retire]
    unfold State.setPred
    split
    · rfl
    · rcases hid with hf | hid
      · simp only [hf, if_true]
        split <;> rfl
      · split
        · split <;> rfl
        · rw [State.tray?_modTray _ _ _ _ (by intro x; rfl)]
          cases h' : u.tray? id with
          | none => rfl
          | some tr =>
            have : ¬tr.id = c.tray.id := by rw [State.tray?_id h']; exact hid
            simp [this]
  · intro o x
    rw [State.held_retire]
    unfold State.setPred
    split
    · rfl
    · split
      · split
        · exact State.held_modTeam_same _ _ _ (by intro x; rfl) (by intro x r; exact Front.reg_congr rfl r) o x
        · rfl
      · exact State.held_modTray_same _ _ _ (by intro x; rfl) (by intro x r; exact Tray.reg_congr rfl rfl rfl rfl r) o x
  · intro ks l
    rw [sameBytes_of_still hret ks l]
    unfold State.setPred
    split
    · rfl
    · split
      · split
        · exact State.byteSeen_modFront u _ _ ks l
        · rfl
      · exact State.byteSeen_modTray u _ _ (by intro x; rfl) (by intro x; rfl) ks l
  · have e := hst u
    refine ⟨?_, ?_, ?_, ?_⟩
    · exact (congrArg State.cmds hret).trans e.1
    · exact (congrArg State.prods hret).trans e.2.1
    · exact (congrArg State.ctxs hret).trans e.2.2.1
    · exact (congrArg State.mem hret).trans e.2.2.2

end Sys2Proof.Machine
end

