-- ==== Sys2Proof/Tests/Slice0.lean ====
section
/-!
SUPPORT. Tests/Slice0.lean: what the checks of well-formedness refuse, words that decode, single steps whose expected result is
the manual's, and for every statement with hypotheses a witness that something meets them together.
-/

namespace Sys2Proof.Tests
open Sys2Proof Sys2Proof.Machine

/-- The context that the issuing agent of a state has for a group. -/
def ctxOf (s : State) (p : Pfx) (size : Nat) (r : Req) : Option Ctx :=
  (s.issuer p size).map fun c => { c with adv := r.adv }

theorem issuer_adv {s : State} {p : Pfx} {size : Nat} {c : Ctx} (h : s.issuer p size = some c) : c.adv = [] := by
  unfold State.issuer at h
  split at h
  · exact absurd h (by simp)
  · split at h
    · rename_i c' hc
      split at h
      · obtain rfl := Option.some.inj h
        unfold State.trayCtx at hc
        split at hc
        · exact absurd hc (by simp)
        · split at hc
          · obtain rfl := Option.some.inj hc; rfl
          · exact absurd hc (by simp)
      · exact absurd h (by simp)
    · exact absurd h (by simp)
  · split at h
    · rename_i c' hc
      split at h
      · obtain rfl := Option.some.inj h
        unfold State.frontCtx at hc
        split at hc
        · exact absurd hc (by simp)
        · obtain rfl := Option.some.inj hc; rfl
      · exact absurd h (by simp)
    · exact absurd h (by simp)

/-- What `Issues` asks, checked. -/
def issuesB (s : State) (p : Pfx) (size : Nat) (r : Req) : Bool :=
  match ctxOf s p size r with
  | none => false
  | some c =>
    s.tokens.isEmpty && !(c.act == 0) && !(s.predsBusy c (p.guards ++ r.preds)) &&
      (maskSlots c.act).all (fun t => (c.slotCause r t).isNone) && !c.opsWait r &&
      r.dsts.all fun d => slotList.all fun t => match c.names d.1 d.2 t with | .ok rs => rs.all (s.has c.owner) | .error _ => true

theorem mem_slotList (t : Fin 32) : t ∈ slotList := by revert t; decide

theorem issues_of {s : State} {p : Pfx} {size : Nat} {r : Req} (h : issuesB s p size r = true) :
    ∃ c, ctxOf s p size r = some c ∧ Issues s p size r c s := by
  unfold issuesB at h
  cases hc : ctxOf s p size r with
  | none => simp [hc] at h
  | some c =>
    simp only [hc, Bool.and_eq_true, Bool.not_eq_true', List.all_eq_true] at h
    obtain ⟨⟨⟨⟨⟨h0, h1⟩, h2⟩, h3⟩, h4⟩, h5⟩ := h
    refine ⟨c, rfl, ?_, ?_, h1, h2, ?_, h4, ?_, by simp [State.readTokens, h0]⟩
    · obtain ⟨c0, h0, rfl⟩ := Option.map_eq_some_iff.1 hc
      have := issuer_adv h0
      rw [h0]
      cases c0; simp at this; subst this; rfl
    · obtain ⟨c0, h0, rfl⟩ := Option.map_eq_some_iff.1 hc; rfl
    · intro t ht; simpa using h3 t ht
    · intro d hd t rs hn x hx
      have := h5 d hd t (mem_slotList t)
      rw [hn] at this
      exact List.all_eq_true.1 this x hx

/-- A group issues in a state in which no token waits to be read, and its context has a property. -/
def Some (s : State) (p : Pfx) (size : Nat) (r : Req) (P : Ctx → Prop) : Prop := ∃ c, Issues s p size r c s ∧ P c

theorem some_of {s : State} {p : Pfx} {size : Nat} {r : Req} (P : Ctx → Prop) [DecidablePred P]
    (h : (issuesB s p size r && (ctxOf s p size r).any fun c => decide (P c)) = true) : Some s p size r P := by
  simp only [Bool.and_eq_true] at h
  obtain ⟨c, hc, hi⟩ := issues_of h.1
  refine ⟨c, hi, ?_⟩
  simpa [hc] using h.2

/-- A group issues in a state and its context meets a proposition that is proved of the context itself. -/
theorem some_at {s : State} {p : Pfx} {size : Nat} {r : Req} {P : Ctx → Prop} (h : issuesB s p size r = true)
    (hp : ∀ c, ctxOf s p size r = some c → P c) : Some s p size r P := by
  obtain ⟨c, hc, hi⟩ := issues_of h
  exact ⟨c, hi, hp c hc⟩

/-- Each of some groups issues in a state. -/
def Each (s : State) (l : List (Pfx × Nat × Req)) : Prop := ∀ x ∈ l, Some s x.1 x.2.1 x.2.2 fun _ => True

theorem each_of {s : State} {l : List (Pfx × Nat × Req)} (h : (l.all fun x => issuesB s x.1 x.2.1 x.2.2) = true) : Each s l :=
  fun x hx => (issues_of (List.all_eq_true.1 h x hx)).imp fun _ h => ⟨h.2, trivial⟩

/-- A device that runs one thread in slot 0 of one tray (log 8). -/
def rig : State := { State.reset.withFetchWord 0 0 with cur := .tray 1 0 }

/-- The rig with its tray changed. -/
def rigT (g : Tray → Tray) : State := { rig with trays := rig.trays.map g }

/-- The rig with its launch changed. -/
def rigL (g : Launch → Launch) : State := { rig with launches := rig.launches.map g }

/-- The rig with its context changed. -/
def rigC (g : Context → Context) : State := { rig with ctxs := rig.ctxs.map g }

/-- A device whose front strand runs, changed. -/
def rigF (g : Front → Front) : State :=
  { rig with cur := .front 1, teams := rig.teams.map fun tm => { tm with front := g { tm.front with status := .running } } }

/-- A device that runs two threads in slots 0 and 1, with p1 true in slot 0 only. -/
def pair : State := rigT fun tr =>
  { tr with
    remap := (tr.remap.set 0 (some 0)).set 1 (some 1)
    preds := tr.preds.set 0 3
    frontier := tr.frontier.map fun e => { e with mask := 3 } }

theorem Some.imp {s : State} {p : Pfx} {size : Nat} {r : Req} {P Q : Ctx → Prop} (h : Some s p size r P) (f : ∀ c, P c → Q c) :
    Some s p size r Q := h.elim fun c hc => ⟨c, hc.1, f c hc.2⟩

/-- A byte read is answered with a byte, checked. -/
def readsB (x : Except Nat Byte) (b : Byte) : Bool := match x with | .ok y => y == b | .error _ => false


/-- A 32-bit word decodes to an instruction and leaves nothing. -/
def reads (n : Nat) (i : Instr) : Prop := decode (wordBytes (BitVec.ofNat 32 n)) = .ok (i, [])

/-- A compact word decodes to an instruction and leaves nothing. -/
def readsHalf (n : Nat) (i : Instr) : Prop := decode (halfBytes (BitVec.ofNat 16 n)) = .ok (i, [])

-- every instruction's word, its fields from the high bit down and its fixed bits last, as the manual's tables of encodings
-- place them (R69 to R74, R81, R87, R88)
theorem test_decode_major_0 :
    reads 0b0_1_0111100_1011001_1110110_000000001 (.add Pfx.empty { tb := false, ta := true, b := 60, a := 89, d := 118 }) ∧
    reads 0b1_0_1100001_1111110_0011011_001000001 (.sub Pfx.empty { tb := true, ta := false, b := 97, a := 126, d := 27 }) ∧
    reads 0b0_1_0000110_0100011_1000000_010000001 (.mul Pfx.empty { tb := false, ta := true, b := 6, a := 35, d := 64 }) ∧
    reads 0b1_0_0101011_1001000_1100101_011000001 (.mulh Pfx.empty { tb := true, ta := false, b := 43, a := 72, d := 101 }) ∧
    reads 0b0_1_1010000_1101101_0001010_100000001 (.mulhu Pfx.empty { tb := false, ta := true, b := 80, a := 109, d := 10 }) ∧
    reads 0b1_0_1110101_0010010_0101111_101000001 (.min Pfx.empty { tb := true, ta := false, b := 117, a := 18, d := 47 }) ∧
    reads 0b0_1_0011010_0110111_1010100_110000001 (.max Pfx.empty { tb := false, ta := true, b := 26, a := 55, d := 84 }) :=
  ⟨rfl, rfl, rfl, rfl, rfl, rfl, rfl⟩

theorem test_decode_major_1 :
    reads 0b1_0_0111111_1011100_1111001_000000011 (.minu Pfx.empty { tb := true, ta := false, b := 63, a := 92, d := 121 }) ∧
    reads 0b0_1_1100100_0000001_0011110_001000011 (.maxu Pfx.empty { tb := false, ta := true, b := 100, a := 1, d := 30 }) ∧
    reads 0b1_0_0001001_0100110_1000011_010000011 (.div Pfx.empty { tb := true, ta := false, b := 9, a := 38, d := 67 }) ∧
    reads 0b0_1_0101110_1001011_1101000_011000011 (.divu Pfx.empty { tb := false, ta := true, b := 46, a := 75, d := 104 }) ∧
    reads 0b1_0_1010011_1110000_0001101_100000011 (.rem Pfx.empty { tb := true, ta := false, b := 83, a := 112, d := 13 }) ∧
    reads 0b0_1_1111000_0010101_0110010_101000011 (.remu Pfx.empty { tb := false, ta := true, b := 120, a := 21, d := 50 }) :=
  ⟨rfl, rfl, rfl, rfl, rfl, rfl⟩

theorem test_decode_major_2 :
    reads 0b1_0_0011101_0111010_1010111_000000101 (.and Pfx.empty { tb := true, ta := false, b := 29, a := 58, d := 87 }) ∧
    reads 0b0_1_1000010_1011111_1111100_001000101 (.or Pfx.empty { tb := false, ta := true, b := 66, a := 95, d := 124 }) ∧
    reads 0b1_0_1100111_0000100_0100001_010000101 (.xor Pfx.empty { tb := true, ta := false, b := 103, a := 4, d := 33 }) ∧
    reads 0b0_1_0001100_0101001_1000110_011000101 (.andn Pfx.empty { tb := false, ta := true, b := 12, a := 41, d := 70 }) ∧
    reads 0b1_0_0110001_1001110_1101011_100000101 (.shl Pfx.empty { tb := true, ta := false, b := 49, a := 78, d := 107 }) ∧
    reads 0b0_1_1010110_1110011_0010000_101000101 (.shr Pfx.empty { tb := false, ta := true, b := 86, a := 115, d := 16 }) :=
  ⟨rfl, rfl, rfl, rfl, rfl, rfl⟩

theorem test_decode_major_3 :
    reads 0b1_0_1111011_0011000_0110101_000000111 (.sra Pfx.empty { tb := true, ta := false, b := 123, a := 24, d := 53 }) ∧
    reads 0b0_1_0100000_0111101_1011010_001000111 (.rol Pfx.empty { tb := false, ta := true, b := 32, a := 61, d := 90 }) ∧
    reads 0b1_0_1000101_1100010_1111111_010000111 (.ror Pfx.empty { tb := true, ta := false, b := 69, a := 98, d := 127 }) ∧
    reads 0b0_0_0000000_1001101_1101010_011000111 (.bcnt Pfx.empty { ta := false, a := 77, d := 106 }) ∧
    reads 0b0_1_0000000_1110010_0001111_100000111 (.clz Pfx.empty { ta := true, a := 114, d := 15 }) ∧
    reads 0b0_0_0000000_0010111_0110100_101000111 (.ctz Pfx.empty { ta := false, a := 23, d := 52 }) ∧
    reads 0b0_1_0000000_0111100_1011001_110000111 (.bitrev Pfx.empty { ta := true, a := 60, d := 89 }) :=
  ⟨rfl, rfl, rfl, rfl, rfl, rfl, rfl⟩

theorem test_decode_major_4 :
    reads 0b0_1_1111110_0011011_0000_100_000001001 (.cmpeq Pfx.empty { tb := false, ta := true, b := 126, a := 27, p := 4 }) ∧
    reads 0b1_0_0100011_1000000_0000_001_001001001 (.cmpne Pfx.empty { tb := true, ta := false, b := 35, a := 64, p := 1 }) ∧
    reads 0b0_1_1001000_1100101_0000_110_010001001 (.cmplt Pfx.empty { tb := false, ta := true, b := 72, a := 101, p := 6 }) ∧
    reads 0b1_0_1101101_0001010_0000_011_011001001 (.cmple Pfx.empty { tb := true, ta := false, b := 109, a := 10, p := 3 }) ∧
    reads 0b0_1_0010010_0101111_0000_000_100001001 (.cmpltu Pfx.empty { tb := false, ta := true, b := 18, a := 47, p := 0 }) ∧
    reads 0b1_0_0110111_1010100_0000_101_101001001 (.cmpleu Pfx.empty { tb := true, ta := false, b := 55, a := 84, p := 5 }) :=
  ⟨rfl, rfl, rfl, rfl, rfl, rfl⟩

theorem test_decode_major_5 :
    reads 0b0_1_1011100_1111001_0010110_111_001011 (.sel Pfx.empty { tb := false, ta := true, b := 92, a := 121, d := 22, n := 7 }) :=
  rfl

theorem test_decode_major_6 :
    reads 0b000000_011_0000_000_0000_101_000001101 (.pand Pfx.empty { pb := 3, pa := 0, p := 5 }) ∧
    reads 0b000000_000_0000_101_0000_010_001001101 (.por Pfx.empty { pb := 0, pa := 5, p := 2 }) ∧
    reads 0b000000_101_0000_010_0000_111_010001101 (.pxor Pfx.empty { pb := 5, pa := 2, p := 7 }) ∧
    reads 0b0000000000000_010_0000_111_011001101 (.pnot Pfx.empty { pa := 2, p := 7 }) ∧
    reads 0b0_1_0000000_1111000_0000_001_100001101 (.pfrom Pfx.empty { ta := true, a := 120, p := 1 }) ∧
    reads 0b0000000000000_100_0011101_101001101 (.pto Pfx.empty { pa := 4, d := 29 }) :=
  ⟨rfl, rfl, rfl, rfl, rfl, rfl⟩

theorem test_decode_major_7 :
    reads 0b0_01100101_0000000_1000010_000001111 (.movi Pfx.empty { imm := 101, d := 66 }) ∧
    reads 0b0_10100111_0000100_0100001_001001111 (.addi Pfx.empty { ta := false, imm := 167, a := 4, d := 33 }) ∧
    reads 0b1_11001100_0101001_1000110_010001111 (.shli Pfx.empty { ta := true, imm := 204, a := 41, d := 70 }) ∧
    reads 0b0_11110001_1001110_1101011_011001111 (.shri Pfx.empty { ta := false, imm := 241, a := 78, d := 107 }) ∧
    reads 0b1_00010110_1110011_0010000_100001111 (.andi Pfx.empty { ta := true, imm := 22, a := 115, d := 16 }) ∧
    reads 0b0_00111011_0011000_0110101_101001111 (.ori Pfx.empty { ta := false, imm := 59, a := 24, d := 53 }) ∧
    reads 0b1_01100000_0111101_1011010_110001111 (.xori Pfx.empty { ta := true, imm := 96, a := 61, d := 90 }) :=
  ⟨rfl, rfl, rfl, rfl, rfl, rfl, rfl⟩

theorem test_decode_major_8 :
    reads 0b0_1_1100010_1111111_0011100_000010001 (.fadd Pfx.empty { tb := false, ta := true, b := 98, a := 127, d := 28 }) ∧
    reads 0b1_0_0000111_0100100_1000001_001010001 (.fsub Pfx.empty { tb := true, ta := false, b := 7, a := 36, d := 65 }) ∧
    reads 0b0_1_0101100_1001001_1100110_010010001 (.fmul Pfx.empty { tb := false, ta := true, b := 44, a := 73, d := 102 }) ∧
    reads 0b1_0_1010001_1101110_0001011_011010001 (.fdiv Pfx.empty { tb := true, ta := false, b := 81, a := 110, d := 11 }) ∧
    reads 0b0_1_1110110_0010011_0110000_100010001 (.fmin Pfx.empty { tb := false, ta := true, b := 118, a := 19, d := 48 }) ∧
    reads 0b1_0_0011011_0111000_1010101_101010001 (.fmax Pfx.empty { tb := true, ta := false, b := 27, a := 56, d := 85 }) ∧
    reads 0b0_1_1000000_1011101_1111010_110010001 (.fscale Pfx.empty { tb := false, ta := true, b := 64, a := 93, d := 122 }) :=
  ⟨rfl, rfl, rfl, rfl, rfl, rfl, rfl⟩

theorem test_decode_major_9 :
    reads 0b1_0_1100101_0000010_0011111_000010011 (.fma Pfx.empty { tb := true, ta := false, b := 101, a := 2, d := 31 }) ∧
    reads 0b0_1_0001010_0100111_1000100_001010011 (.fms Pfx.empty { tb := false, ta := true, b := 10, a := 39, d := 68 }) ∧
    reads 0b1_0_0101111_1001100_1101001_010010011 (.fnma Pfx.empty { tb := true, ta := false, b := 47, a := 76, d := 105 }) ∧
    reads 0b0_0_0000000_0110111_1010100_011010011 (.fsqrt Pfx.empty { ta := false, a := 55, d := 84 }) ∧
    reads 0b0_1_0000000_1011100_1111001_100010011 (.frcpa Pfx.empty { ta := true, a := 92, d := 121 }) ∧
    reads 0b0_0_0000000_0000001_0011110_101010011 (.frsqa Pfx.empty { ta := false, a := 1, d := 30 }) :=
  ⟨rfl, rfl, rfl, rfl, rfl, rfl⟩

theorem test_decode_major_10 :
    reads 0b1_0_1000011_1100000_0000_001_000010101 (.fcmpeq Pfx.empty { tb := true, ta := false, b := 67, a := 96, p := 1 }) ∧
    reads 0b0_1_1101000_0000101_0000_110_001010101 (.fcmpne Pfx.empty { tb := false, ta := true, b := 104, a := 5, p := 6 }) ∧
    reads 0b1_0_0001101_0101010_0000_011_010010101 (.fcmplt Pfx.empty { tb := true, ta := false, b := 13, a := 42, p := 3 }) ∧
    reads 0b0_1_0110010_1001111_0000_000_011010101 (.fcmple Pfx.empty { tb := false, ta := true, b := 50, a := 79, p := 0 }) ∧
    reads 0b1_0_1010111_1110100_0000_101_100010101 (.fcmpun Pfx.empty { tb := true, ta := false, b := 87, a := 116, p := 5 }) ∧
    reads 0b0_0_0000000_1011111_1111100_101010101 (.fclass Pfx.empty { ta := false, a := 95, d := 124 }) ∧
    reads 0b0_1_0000000_0000100_0000_101_110010101 (.ftstnf Pfx.empty { ta := true, a := 4, p := 5 }) :=
  ⟨rfl, rfl, rfl, rfl, rfl, rfl, rfl⟩

theorem test_decode_major_11 :
    reads 0b0_0_0000000_0101001_1000110_000010111 (.fexp2 Pfx.empty { ta := false, a := 41, d := 70 }) ∧
    reads 0b0_1_0000000_1001110_1101011_001010111 (.flog2 Pfx.empty { ta := true, a := 78, d := 107 }) ∧
    reads 0b0_0_0000000_1110011_0010000_010010111 (.fsin Pfx.empty { ta := false, a := 115, d := 16 }) ∧
    reads 0b0_1_0000000_0011000_0110101_011010111 (.fcos Pfx.empty { ta := true, a := 24, d := 53 }) ∧
    reads 0b0_0_0000000_0111101_1011010_100010111 (.ftanh Pfx.empty { ta := false, a := 61, d := 90 }) ∧
    reads 0b0_1_0000000_1100010_1111111_101010111 (.fsigm Pfx.empty { ta := true, a := 98, d := 127 }) :=
  ⟨rfl, rfl, rfl, rfl, rfl, rfl⟩

theorem test_decode_major_12 :
    reads 0b0_1_0100100_1000001_1011110_000011001 (.phadd Pfx.empty { tb := false, ta := true, b := 36, a := 65, d := 94 }) ∧
    reads 0b1_0_1001001_1100110_0000011_001011001 (.phmul Pfx.empty { tb := true, ta := false, b := 73, a := 102, d := 3 }) ∧
    reads 0b0_1_1101110_0001011_0101000_010011001 (.phfma Pfx.empty { tb := false, ta := true, b := 110, a := 11, d := 40 }) ∧
    reads 0b1_0_0010011_0110000_1001101_011011001 (.phmax Pfx.empty { tb := true, ta := false, b := 19, a := 48, d := 77 }) ∧
    reads 0b0_1_0111000_1010101_1110010_100011001 (.pbadd Pfx.empty { tb := false, ta := true, b := 56, a := 85, d := 114 }) ∧
    reads 0b1_0_1011101_1111010_0010111_101011001 (.pbfma Pfx.empty { tb := true, ta := false, b := 93, a := 122, d := 23 }) :=
  ⟨rfl, rfl, rfl, rfl, rfl, rfl⟩

theorem test_decode_major_13 :
    reads 0b0_1_0000010_0011111_0111100_000011011 (.f64add Pfx.empty { tb := false, ta := true, b := 2, a := 31, d := 60 }) ∧
    reads 0b1_0_0100111_1000100_1100001_001011011 (.f64sub Pfx.empty { tb := true, ta := false, b := 39, a := 68, d := 97 }) ∧
    reads 0b0_1_1001100_1101001_0000110_010011011 (.f64mul Pfx.empty { tb := false, ta := true, b := 76, a := 105, d := 6 }) ∧
    reads 0b1_0_1110001_0001110_0101011_011011011 (.f64fma Pfx.empty { tb := true, ta := false, b := 113, a := 14, d := 43 }) ∧
    reads 0b0_1_0010110_0110011_1010000_100011011 (.f64div Pfx.empty { tb := false, ta := true, b := 22, a := 51, d := 80 }) :=
  ⟨rfl, rfl, rfl, rfl, rfl⟩

theorem test_decode_major_14 :
    reads 0b0_1_0000000_0011110_0111011_000011101 (.cvtfi Pfx.empty { ta := true, a := 30, d := 59 }) ∧
    reads 0b0_0_0000000_1000011_1100000_001011101 (.cvtif Pfx.empty { ta := false, a := 67, d := 96 }) ∧
    reads 0b0_1_0000000_1101000_0000101_010011101 (.cvtfh Pfx.empty { ta := true, a := 104, d := 5 }) ∧
    reads 0b0_0_0000000_0001101_0101010_011011101 (.cvthf Pfx.empty { ta := false, a := 13, d := 42 }) ∧
    reads 0b0_1_0000000_0110010_1001111_100011101 (.cvtfb Pfx.empty { ta := true, a := 50, d := 79 }) ∧
    reads 0b0_0_0000000_1010111_1110100_101011101 (.cvtfd Pfx.empty { ta := false, a := 87, d := 116 }) ∧
    reads 0b0_1_0000000_1111100_0011001_110011101 (.cvtdf Pfx.empty { ta := true, a := 124, d := 25 }) :=
  ⟨rfl, rfl, rfl, rfl, rfl, rfl, rfl⟩

theorem test_decode_major_15 :
    reads 0b10_0100001_0111110_1011011_000011111 (.pke4 Pfx.empty { bsel := 2, s := 33, a := 62, d := 91 }) ∧
    reads 0b11_1000110_1100011_0000000_001011111 (.pke5 Pfx.empty { bsel := 3, s := 70, a := 99, d := 0 }) ∧
    reads 0b00_1101011_0001000_0100101_010011111 (.unpe4 Pfx.empty { bsel := 0, s := 107, a := 8, d := 37 }) ∧
    reads 0b01_0010000_0101101_1001010_011011111 (.unpe5 Pfx.empty { bsel := 1, s := 16, a := 45, d := 74 }) ∧
    reads 0b10_0110101_1010010_1101111_100011111 (.unpi8 Pfx.empty { bsel := 2, s := 53, a := 82, d := 111 }) ∧
    reads 0b11_1011010_1110111_0010100_101011111 (.unpi4 Pfx.empty { bsel := 3, s := 90, a := 119, d := 20 }) ∧
    reads 0b00_1111111_0011100_0111001_110011111 (.pki8 Pfx.empty { bsel := 0, s := 127, a := 28, d := 57 }) ∧
    reads 0b01_0100100_1000001_1011110_111011111 (.pki4 Pfx.empty { bsel := 1, s := 36, a := 65, d := 94 }) :=
  ⟨rfl, rfl, rfl, rfl, rfl, rfl, rfl, rfl⟩

theorem test_decode_major_16 :
    reads 0b0_1_1100110_0000011_0100000_000100001 (.idot4 Pfx.empty { tb := false, ta := true, b := 102, a := 3, d := 32 }) ∧
    reads 0b1_0_0001011_0101000_1000101_001100001 (.idot8 Pfx.empty { tb := true, ta := false, b := 11, a := 40, d := 69 }) ∧
    reads 0b0_1_0110000_1001101_1101010_010100001 (.bperm Pfx.empty { tb := false, ta := true, b := 48, a := 77, d := 106 }) ∧
    reads 0b0_1_0000000_0111000_1010101_011100001 (.sext8 Pfx.empty { ta := true, a := 56, d := 85 }) ∧
    reads 0b0_0_0000000_1011101_1111010_100100001 (.sext16 Pfx.empty { ta := false, a := 93, d := 122 }) :=
  ⟨rfl, rfl, rfl, rfl, rfl⟩

theorem test_decode_major_17 :
    reads 0b1_0_0011111_0111100_1011001_000100011 (.xpick Pfx.empty { tb := true, ta := false, b := 31, a := 60, d := 89 }) ∧
    reads 0b0_1_1000100_1100001_1111110_001100011 (.xpickx Pfx.empty { tb := false, ta := true, b := 68, a := 97, d := 126 }) ∧
    reads 0b0000000000000_011_0000_000_010100011 (.pall Pfx.empty { pa := 3, p := 0 }) ∧
    reads 0b0000000000000_000_0000_101_011100011 (.pany Pfx.empty { pa := 0, p := 5 }) ∧
    reads 0b0000000000000_101_0010110_100100011 (.pmask Pfx.empty { pa := 5, d := 22 }) ∧
    reads 0b0_0_0000000_0111011_1011000_101100011 (.traysum Pfx.empty { ta := false, a := 59, d := 88 }) :=
  ⟨rfl, rfl, rfl, rfl, rfl, rfl⟩

theorem test_decode_major_18 :
    reads 0b0_1_1100000_1111101_0011010_000100101 (.ld8 Pfx.empty { ta := true, off := 96, a := 125, d := 26 }) ∧
    reads 0b0_0_0000101_0100010_0111111_001100101 (.ld8s Pfx.empty { ta := false, off := 5, a := 34, d := 63 }) ∧
    reads 0b0_1_0101010_1000111_1100100_010100101 (.ld16 Pfx.empty { ta := true, off := 42, a := 71, d := 100 }) ∧
    reads 0b0_0_1001111_1101100_0001001_011100101 (.ld32 Pfx.empty { ta := false, off := 79, a := 108, d := 9 }) ∧
    reads 0b0_1_1110100_0010001_0101110_100100101 (.ld64 Pfx.empty { ta := true, off := 116, a := 17, d := 46 }) ∧
    reads 0b0_0_0011001_0110110_1010011_101100101 (.ld128 Pfx.empty { ta := false, off := 25, a := 54, d := 83 }) ∧
    reads 0b0_1_0111110_1011011_1111000_110100101 (.lds Pfx.empty { ta := true, off := 62, a := 91, d := 120 }) :=
  ⟨rfl, rfl, rfl, rfl, rfl, rfl, rfl⟩

theorem test_decode_major_19 :
    reads 0b0_1_0000000_0011101_0111010_000100111 (.st8 Pfx.empty { td := false, ta := true, off := 0, a := 29, d := 58 }) ∧
    reads 0b1_0_0100101_1000010_1011111_001100111 (.st16 Pfx.empty { td := true, ta := false, off := 37, a := 66, d := 95 }) ∧
    reads 0b0_1_1001010_1100111_0000100_010100111 (.st32 Pfx.empty { td := false, ta := true, off := 74, a := 103, d := 4 }) ∧
    reads 0b1_0_1101111_0001100_0101001_011100111 (.st64 Pfx.empty { td := true, ta := false, off := 111, a := 12, d := 41 }) ∧
    reads 0b0_1_0010100_0110001_1001110_100100111 (.st128 Pfx.empty { td := false, ta := true, off := 20, a := 49, d := 78 }) ∧
    reads 0b1_0_0111001_1010110_1110011_101100111 (.sts Pfx.empty { td := true, ta := false, off := 57, a := 86, d := 115 }) ∧
    reads 0b0_1_1011110_1111011_0011000_110100111 (.stnt Pfx.empty { td := false, ta := true, off := 94, a := 123, d := 24 }) :=
  ⟨rfl, rfl, rfl, rfl, rfl, rfl, rfl⟩

theorem test_decode_major_20 :
    reads 0b1_0_0000011_0100000_0111101_000101001 (.atadd Pfx.empty { tb := true, ta := false, b := 3, a := 32, d := 61 }) ∧
    reads 0b0_1_0101000_1000101_1100010_001101001 (.atmin Pfx.empty { tb := false, ta := true, b := 40, a := 69, d := 98 }) ∧
    reads 0b1_0_1001101_1101010_0000111_010101001 (.atmax Pfx.empty { tb := true, ta := false, b := 77, a := 106, d := 7 }) ∧
    reads 0b0_1_1110010_0001111_0101100_011101001 (.atand Pfx.empty { tb := false, ta := true, b := 114, a := 15, d := 44 }) ∧
    reads 0b1_0_0010111_0110100_1010001_100101001 (.atxchg Pfx.empty { tb := true, ta := false, b := 23, a := 52, d := 81 }) ∧
    reads 0b0_1_0111100_1011001_1110110_101101001 (.atcas Pfx.empty { tb := false, ta := true, b := 60, a := 89, d := 118 }) ∧
    reads 0b1_0_1100001_1111110_0011011_110101001 (.atfadd Pfx.empty { tb := true, ta := false, b := 97, a := 126, d := 27 }) :=
  ⟨rfl, rfl, rfl, rfl, rfl, rfl, rfl⟩

theorem test_decode_major_21 :
    reads 0b0_0_0000000_1101001_0000110_000101011 (.ldres Pfx.empty { ta := false, a := 105, d := 6 }) ∧
    reads 0b1_0_0101011_1001000_0000_001_001101011 (.stcnd Pfx.empty { tb := true, ta := false, b := 43, a := 72, p := 1 }) ∧
    reads 0b0_1_1010000_1101101_0000000010101011 (.acq Pfx.empty { tb := false, ta := true, b := 80, a := 109 }) ∧
    reads 0b0_1_0000000_1011000_0000000011101011 (.rel Pfx.empty { ta := true, a := 88 }) ∧
    reads 0b00000000000000000000000100101011 (.fence Pfx.empty) ∧
    reads 0b1_0_0111111_1011100_1111001_101101011 (.bind Pfx.empty { tb := true, ta := false, b := 63, a := 92, d := 121 }) ∧
    reads 0b0_0_0000000_1000111_0000000110101011 (.unbind Pfx.empty { ta := false, a := 71 }) ∧
    reads 0b1_0_0001001_0100110_1000011_111101011 (.waitne Pfx.empty { tb := true, ta := false, b := 9, a := 38, d := 67 }) :=
  ⟨rfl, rfl, rfl, rfl, rfl, rfl, rfl, rfl⟩

theorem test_decode_major_22 :
    reads 0b0_1_0101110_1001011_1101000_000101101 (.cpy Pfx.empty { tb := false, ta := true, b := 46, a := 75, d := 104 }) ∧
    reads 0b1_0_1010011_1110000_0001101_001101101 (.cpyt Pfx.empty { tb := true, ta := false, b := 83, a := 112, d := 13 }) ∧
    reads 0b00000000000000_00_1011011_010101101 (.ctag Pfx.empty { n := 0, d := 91 }) ∧
    reads 0b1_0_0011101_0111010_1010111_011101101 (.gath Pfx.empty { tb := true, ta := false, b := 29, a := 58, d := 87 }) ∧
    reads 0b0_0_0000000_0100101_1000010_100101101 (.tsalloc Pfx.empty { ta := false, a := 37, d := 66 }) ∧
    reads 0b0_1_0000000_1001010_0000000101101101 (.tsfree Pfx.empty { ta := true, a := 74 }) ∧
    reads 0b0_0_0000000_1101111_0001100_110101101 (.publish Pfx.empty { ta := false, a := 111, d := 12 }) :=
  ⟨rfl, rfl, rfl, rfl, rfl, rfl, rfl⟩

theorem test_decode_major_23 :
    reads 0b1_0_0110001_1001110_1101011_000101111 (.mwld Pfx.empty { tb := true, ta := false, b := 49, a := 78, d := 107 }) ∧
    reads 0b0_1_1010110_1110011_0010000_001101111 (.mstr Pfx.empty { tb := false, ta := true, b := 86, a := 115, d := 16 }) ∧
    reads 0b1_0_1011110_0000000_1111011_010101111 (.mloop Pfx.empty { tb := true, b := 94, d := 123 }) ∧
    reads 0b000000000000000_0_0000011_011101111 (.accpop Pfx.empty { n := 0, d := 3 }) ∧
    reads 0b0_1_0000000_0101000_000000_1_100101111 (.accclr Pfx.empty { ta := true, a := 40, n := 1 }) ∧
    reads 0b0_1_1101010_0000111_0100100_101101111 (.scpy Pfx.empty { tb := false, ta := true, b := 106, a := 7, d := 36 }) ∧
    reads 0b0_1_0000000_1110010_000000_1_110101111 (.mshape Pfx.empty { ta := true, a := 114, n := 1 }) :=
  ⟨rfl, rfl, rfl, rfl, rfl, rfl, rfl⟩

theorem test_decode_major_24 :
    reads 0b0_1_0110100_1010001_1101110_000110001 (.board Pfx.empty { tb := false, ta := true, b := 52, a := 81, d := 110 }) ∧
    reads 0b1_0_1011001_1110110_0010011_001110001 (.catch_ Pfx.empty { tb := true, ta := false, b := 89, a := 118, d := 19 }) ∧
    reads 0b0_0_0000000_1100001_0000000010110001 (.alight Pfx.empty { ta := false, a := 97 }) ∧
    reads 0b1_0_0100011_1000000_1011101_011110001 (.rplc Pfx.empty { tb := true, ta := false, b := 35, a := 64, d := 93 }) ∧
    reads 0b0_0_0000000_0101011_0000000100110001 (.migrate { ta := false, a := 43 }) ∧
    reads 0b0_1_0000000_1010000_1101101_101110001 (.homeq Pfx.empty { ta := true, a := 80, d := 109 }) :=
  ⟨rfl, rfl, rfl, rfl, rfl, rfl⟩

theorem test_decode_major_25 :
    reads 0b0_1_0010010_0101111_1001100_000110011 (.kvmap Pfx.empty { tb := false, ta := true, b := 18, a := 47, d := 76 }) ∧
    reads 0b1_0_0110111_1010100_1110001_001110011 (.kvld Pfx.empty { tb := true, ta := false, b := 55, a := 84, d := 113 }) ∧
    reads 0b0_1_1011100_1111001_0010110_010110011 (.kvst Pfx.empty { tb := false, ta := true, b := 92, a := 121, d := 22 }) ∧
    reads 0b0_1_0000000_1100100_0000001_011110011 (.osmx Pfx.empty { ta := true, a := 100, d := 1 }) ∧
    reads 0b0_1_0100110_1000011_1100000_100110011 (.osmxf Pfx.empty { tb := false, ta := true, b := 38, a := 67, d := 96 }) ∧
    reads 0b1_0_1001011_1101000_0000101_101110011 (.verify Pfx.empty { tb := true, ta := false, b := 75, a := 104, d := 5 }) ∧
    reads 0b0_1_1110000_0001101_0101010_110110011 (.sample Pfx.empty { tb := false, ta := true, b := 112, a := 13, d := 42 }) :=
  ⟨rfl, rfl, rfl, rfl, rfl, rfl, rfl⟩

theorem test_decode_major_26 :
    reads 0b0_1_0000000_1111000_0010101_000110101 (.launch Pfx.empty { ta := true, a := 120, d := 21 }) ∧
    reads 0b0_1_0111010_1010111_1110100_001110101 (.launchs Pfx.empty { tb := false, ta := true, b := 58, a := 87, d := 116 }) ∧
    reads 0b0_1_0000000_1000010_0000000010110101 (.resolve Pfx.empty { ta := true, a := 66 }) ∧
    reads 0b0_0_0000000_1100111_0000000011110101 (.squash Pfx.empty { ta := false, a := 103 }) ∧
    reads 0b0_1_0000000_0001100_0101001_100110101 (.verq Pfx.empty { ta := true, a := 12, d := 41 }) ∧
    reads 0b0_0_0000000_0110001_0000000101110101 (.postres Pfx.empty { ta := false, a := 49 }) :=
  ⟨rfl, rfl, rfl, rfl, rfl, rfl⟩

theorem test_decode_major_27 :
    reads 0b00000000000000000000000000110111 (.xacq) ∧
    reads 0b00000000000000000000000001110111 (.xrel) ∧
    reads 0b1_0_0100000_0111101_0000_110_010110111 (.ixset Pfx.empty { tb := true, b := 32, a := 61, x := 6 }) ∧
    reads 0b00000000_0_0000_001_1100010_011110111 (.ixget { sel := 0, x := 1, d := 98 }) ∧
    reads 0b0_1_0000000_1101010_0000_011_100110111 (.ixmov { ta := true, a := 106, x := 3 }) ∧
    reads 0b000000000_1110010_0001111_101110111 (.movsr { sr := 114, d := 15 }) ∧
    reads 0b0_1_0000000_0110100_0000000110110111 (.setpri Pfx.empty { ta := true, a := 52 }) :=
  ⟨rfl, rfl, rfl, rfl, rfl, rfl, rfl⟩

theorem test_decode_major_28 :
    reads 0b11100111111100_111001_000000111001 (.bra { off := 14844, pri := 57 }) ∧
    reads 0b11101000100001_011110_111_001111001 (.brp { off := 14881, pri := 30, p := 7 }) ∧
    reads 0b11101001000110_000011_100_010111001 (.brnp { off := 14918, pri := 3, p := 4 }) ∧
    reads 0b11101001101011_101000_001_011111001 (.brsp Pfx.empty { off := 14955, pri := 40, p := 1 }) ∧
    reads 0b11101010010000_001101_110_100111001 (.call { off := 14992, pri := 13, w := 6 }) ∧
    reads 0b00000000000000000000000101111001 (.ret) ∧
    reads 0b000000_0_0110111_110100_000110111001 (.jmpi { ta := false, a := 55, pri := 52 }) :=
  ⟨rfl, rfl, rfl, rfl, rfl, rfl, rfl⟩

theorem test_decode_major_29 :
    reads 0b0_1_1011100_1111001_00000_00_000111011 (.loop Pfx.empty { ta := true, e := 92, a := 121, lc := 0 }) ∧
    reads 0b0_0_0000000_0000001_0000000001111011 (.dqpush { ta := false, a := 1 }) ∧
    reads 0b0000000000000000_0001001_010111011 (.dqpop { d := 9 }) ∧
    reads 0b00000000000000000000000011111011 (.meet) ∧
    reads 0b0000000000000_111_0000000100111011 (.meetl { n := 7 }) ∧
    reads 0b00000000000000000000000101111011 (.exit Pfx.empty) ∧
    reads 0b00000000000000000000000110111011 (.land) :=
  ⟨rfl, rfl, rfl, rfl, rfl, rfl, rfl⟩

theorem test_decode_major_30 :
    reads 0b00000000000000000000000000111101 (.trap Pfx.empty) ∧
    reads 0b00000000000000000000000001111101 (.eret) ∧
    reads 0b00000000000000000000000010111101 (.brk Pfx.empty) ∧
    reads 0b00000000000000000000000011111101 (.nop) ∧
    reads 0b0_0_0000000_1110011_0000000100111101 (.waitt Pfx.empty { ta := false, a := 115 }) ∧
    reads 0b00000000000000000000000101111101 (.kill) :=
  ⟨rfl, rfl, rfl, rfl, rfl, rfl⟩

theorem test_decode_compact :
    readsHalf 0b0_01101_01010_00000 (.mov { s := false, b := 13, d := 10 }) ∧
    readsHalf 0b1_10010_01111_00010 (.addC { s := true, b := 18, d := 15 }) ∧
    readsHalf 0b0_10111_10100_00100 (.subC { s := false, b := 23, d := 20 }) ∧
    readsHalf 0b1_11100_11001_00110 (.andC { s := true, b := 28, d := 25 }) ∧
    readsHalf 0b0_00001_11110_01000 (.orC { s := false, b := 1, d := 30 }) ∧
    readsHalf 0b1_00110_00011_01010 (.xorC { s := true, b := 6, d := 3 }) ∧
    readsHalf 0b011110_01011_01100 (.shliC { imm := 30, d := 11 }) ∧
    readsHalf 0b000011_10000_01110 (.shriC { imm := 3, d := 16 }) ∧
    readsHalf 0b101000_10101_10000 (.addiC { imm := 40, d := 21 }) ∧
    readsHalf 0b001101_11010_10010 (.moviC { imm := 13, d := 26 }) ∧
    readsHalf 0b0_11111_11100_10100 (.faddC { s := false, b := 31, d := 28 }) ∧
    readsHalf 0b1_00100_00001_10110 (.fsubC { s := true, b := 4, d := 1 }) ∧
    readsHalf 0b0_01001_00110_11000 (.fmulC { s := false, b := 9, d := 6 }) ∧
    readsHalf 0b1_01110_01011_11010 (.fmaxC { s := true, b := 14, d := 11 }) ∧
    readsHalf 0b0_10011_10000_11100 (.ld32C { s := false, b := 19, d := 16 }) ∧
    readsHalf 0b1_11000_10101_11110 (.st32C { s := true, b := 24, d := 21 }) :=
  ⟨rfl, rfl, rfl, rfl, rfl, rfl, rfl, rfl, rfl, rfl, rfl, rfl, rfl, rfl, rfl, rfl⟩


/-- A group of 32-bit words decodes to an instruction and leaves nothing. -/
def readsGroup (ws : List Nat) (i : Instr) : Prop := decode (ws.flatMap fun n => wordBytes (BitVec.ofNat 32 n)) = .ok (i, [])

/-- The manual's own assembled statements ("Encoding at work", R49, R70, R165, R159, R162, R250, R257, R264, R303, R306, R307,
R322). -/
theorem test_decode_assembled :
    readsGroup [0xC3860A91] (.fmul Pfx.empty { d := 5, a := 6, b := 7, ta := true, tb := true }) ∧
    readsGroup [0x2186DA01] (.add Pfx.empty { d := 109, a := 6, b := 67, ta := false, tb := false }) ∧
    readsHalf 0x8882 (.addC { d := 4, b := 2, s := true }) ∧
    readsGroup [0x02420841] (.sub Pfx.empty { d := 4, a := 66, b := 4, ta := false, tb := false }) ∧
    readsHalf 0xF530 (.addiC { d := 9, imm := 0x3D }) ∧
    readsGroup [0x2400A8AF] (.mloop Pfx.empty { d := 84, b := 72, tb := false }) ∧
    readsGroup [0x00805479] (.brp { p := 2, pri := 5, off := 32 }) ∧
    readsGroup [0xFFC03039] (.bra { pri := 3, off := 0x3FF0 }) ∧
    readsGroup [0x00000179] .ret ∧
    readsGroup [0x000001BB] .land ∧
    readsGroup [0x001031B9] (.jmpi { pri := 3, a := 4, ta := false }) ∧
    readsGroup [0x0242003B] (.loop Pfx.empty { lc := 0, a := 66, e := 4, ta := false }) ∧
    readsGroup [0x0004007B] (.dqpush { a := 4, ta := false }) ∧
    readsGroup [0x000094BB] (.dqpop { d := 74 }) ∧
    readsGroup [0x6184231F] (.unpi8 Pfx.empty { d := 17, a := 4, s := 67, bsel := 1 }) ∧
    readsGroup [0x26449073] (.kvld Pfx.empty { d := 72, a := 68, b := 76, ta := false, tb := false }) ∧
    readsGroup [0x0744A8B3] (.kvst Pfx.empty { d := 84, a := 68, b := 14, ta := false, tb := false }) ∧
    readsGroup [0x000950F3] (.osmx Pfx.empty { d := 40, a := 9, ta := false }) ∧
    readsGroup [0x14AB1933] (.osmxf Pfx.empty { d := 12, a := 43, b := 41, ta := false, tb := false }) ∧
    readsGroup [0x0044A835] (.launch Pfx.empty { d := 84, a := 68, ta := false }) ∧
    readsGroup [0x2444B075] (.launchs Pfx.empty { d := 88, a := 68, b := 72, ta := false, tb := false }) ∧
    readsGroup [0x005800B5] (.resolve Pfx.empty { a := 88, ta := false }) ∧
    readsGroup [0x00580D35] (.verq Pfx.empty { d := 6, a := 88, ta := false }) ∧
    readsGroup [0x004A0175] (.postres Pfx.empty { a := 74, ta := false }) ∧
    readsGroup [0x38420D73] (.verify Pfx.empty { d := 6, a := 66, b := 112, ta := false, tb := false }) ∧
    readsGroup [0x02C09525] (.ld64 Pfx.empty { d := 74, a := 64, off := 5, ta := false }) :=
  ⟨rfl, rfl, rfl, rfl, rfl, rfl, rfl, rfl, rfl, rfl, rfl, rfl, rfl, rfl, rfl, rfl, rfl, rfl, rfl, rfl, rfl, rfl, rfl, rfl, rfl, rfl⟩

/-- A MOD prefix with every field 0. -/
def mod0 : Mod := { emp := 0, fmt := 0, grp := 0, scope := 0, scen := false, sb := false, sa := false, sgnen := false, sat := false, ftz := false, rnd := 0 }

/-- A MOD prefix and perhaps a GUARD. -/
def under (g : Option Guard) (m : Mod) : Pfx := { Pfx.empty with guard := g, mod := some m }

/-- The manual's own groups with prefixes ("Working a group out", R52, R159, R250, R257, R264). -/
theorem test_decode_prefixed :
    readsGroup [0x0000167F, 0x0000A0BF, 0x04070CC1] (.mulh
      (under (some { p := 3, neg := true, clear := false }) { mod0 with sgnen := true, sb := true }) { d := 6, a := 7, b := 8, ta := false, tb := false }) ∧
    readsGroup [0x010002BF, 0x0002061D] (.cvtfi { Pfx.empty with mod := some { mod0 with fmt := 4, rnd := 1 } } { d := 3, a := 2, ta := false }) ∧
    readsGroup [0x0000087F, 0x00000EBF, 0x060B1413] (.fma
      (under (some { p := 4, neg := false, clear := false }) { mod0 with rnd := 3, ftz := true }) { d := 10, a := 11, b := 12, ta := false, tb := false }) ∧
    readsGroup [0x0000183F, 0x00F844F9] (.brsp { Pfx.empty with imm := some 12 } { p := 2, pri := 4, off := 62 }) ∧
    readsGroup [0x0000023F, 0x004600AB] (.acq { Pfx.empty with imm := some 1 } { a := 70, b := 0, ta := false, tb := false }) ∧
    readsGroup [0x000700BF, 0x244600AB] (.acq { Pfx.empty with mod := some { mod0 with scen := true, scope := 3 } } { a := 70, b := 72, ta := false, tb := false }) ∧
    readsGroup [0x2001FE3F, 0x2246A02D] (.cpy { Pfx.empty with imm := some 0x1000FF } { d := 80, a := 70, b := 68, ta := false, tb := false }) ∧
    readsGroup [0x0000043F, 0x0304146D] (.cpyt { Pfx.empty with imm := some 2 } { d := 10, a := 4, b := 6, ta := false, tb := false }) ∧
    readsGroup [0x47 * 512 + 0x3F, 0x002804B7] (.ixset { Pfx.empty with imm := some 0x47 } { x := 2, a := 40, b := 0, tb := false }) :=
  ⟨rfl, rfl, rfl, rfl, rfl, rfl, rfl, rfl, rfl⟩

/-- Words that decode to nothing: the reserved word of "Encoding at work", two prefixes of one kind, a prefix
before a compact form and before nothing. -/
theorem test_decode_refuses :
    decode (wordBytes 0x000001C1) = .error .reservedSlot ∧
    decode (wordBytes 0x0000167F ++ wordBytes 0x0000167F ++ wordBytes 0x04070CC1) = .error .twoOfOneKind ∧
    decode (wordBytes 0x0000023F ++ halfBytes 0x8882) = .error .prefixBeforeCompact ∧
    decode (wordBytes 0x0000023F) = .error .short := ⟨rfl, rfl, rfl, rfl⟩

/-- The decoder reads a table row's bits as they stand at the PC (the operand words above the row's bits are zeros). -/
theorem test_decode_table_word : decodeTableWord 32 0x0000000001 = some (.add Pfx.empty { d := 0, a := 0, b := 0, ta := false, tb := false }) ∧
    decodeTableWord 16 0x8882 = some (.addC { d := 4, b := 2, s := true }) := ⟨rfl, rfl⟩

/-- One of two instructions is well formed and the other, which differs in one thing, is not. -/
def refuses (good bad : Instr) : Bool := good.wf && !bad.wf

/-- One of two instructions may stand in front code and the other may not. -/
def refusesFront (good bad : Instr) : Bool := good.legal true && !bad.legal true

/-- Fields of layout F3 without trap bits. -/
def f3 (d a b : BitVec 7) : F3 := { d := d, a := a, b := b, ta := false, tb := false }

/-- Register fields: a destination, a source, a trap bit on a constant, the field and the trap bit under IMM, a pair, a quad, an
s register and its alignment, a v register and its alignment, a scale register, a config source, one cursor advanced twice. -/
theorem test_wf_registers :
    refuses (.add Pfx.empty (f3 111 0 0)) (.add Pfx.empty (f3 112 0 0)) = true ∧
    refuses (.add Pfx.empty (f3 0 119 0)) (.add Pfx.empty (f3 0 120 0)) = true ∧
    refuses (.add Pfx.empty (f3 0 112 0)) (.add Pfx.empty { f3 0 112 0 with ta := true }) = true ∧
    refuses (.add { Pfx.empty with imm := some 5 } (f3 0 0 0)) (.add { Pfx.empty with imm := some 5 } (f3 0 0 1)) = true ∧
    refuses (.add { Pfx.empty with imm := some 5 } (f3 0 0 0)) (.add { Pfx.empty with imm := some 5 } { f3 0 0 0 with tb := true }) = true ∧
    refuses (.f64add Pfx.empty (f3 94 0 0)) (.f64add Pfx.empty (f3 96 0 0)) = true ∧
    refuses (.f64add Pfx.empty (f3 2 0 0)) (.f64add Pfx.empty (f3 3 0 0)) = true ∧
    refuses (.ld128 Pfx.empty { d := 4, a := 0, off := 0, ta := false }) (.ld128 Pfx.empty { d := 6, a := 0, off := 0, ta := false }) = true ∧
    refuses (.lds Pfx.empty { d := 64, a := 64, off := 0, ta := false }) (.lds Pfx.empty { d := 63, a := 64, off := 0, ta := false }) = true ∧
    refuses (.lds Pfx.empty { d := 64, a := 66, off := 0, ta := false }) (.lds Pfx.empty { d := 64, a := 65, off := 0, ta := false }) = true ∧
    refuses (.xpick Pfx.empty (f3 0 63 0)) (.xpick Pfx.empty (f3 0 64 0)) = true ∧
    refuses (.accpop Pfx.empty { d := 60, n := 0 }) (.accpop Pfx.empty { d := 62, n := 0 }) = true ∧
    refuses (.pke4 Pfx.empty { d := 0, a := 0, s := 95, bsel := 0 }) (.pke4 Pfx.empty { d := 0, a := 0, s := 96, bsel := 0 }) = true ∧
    refuses (.ixset Pfx.empty { x := 0, a := 0, b := 64, tb := false }) (.ixset Pfx.empty { x := 0, a := 0, b := 63, tb := false }) = true ∧
    refuses (.add Pfx.empty (f3 0 104 105)) (.add Pfx.empty (f3 0 104 104)) = true := by decide

/-- Prefixes: a GUARD, an IMM, an XIMM and a MOD that the row does not accept, XIMM without IMM, three, POL with p0. -/
theorem test_wf_prefixes :
    let g : Guard := { p := 1, neg := false, clear := false }
    refuses (.setpri Pfx.empty { a := 0, ta := false }) (.setpri { Pfx.empty with guard := some g } { a := 0, ta := false }) = true ∧
    refuses (.bcnt Pfx.empty { d := 0, a := 0, ta := false }) (.bcnt { Pfx.empty with imm := some 0 } { d := 0, a := 0, ta := false }) = true ∧
    refuses (.add { Pfx.empty with imm := some 0 } (f3 0 0 0)) (.add { Pfx.empty with imm := some 0, ximm := some 0 } (f3 0 0 0)) = true ∧
    refuses (.exit Pfx.empty) (.exit { Pfx.empty with mod := some mod0 }) = true ∧
    refuses (.ld32 { Pfx.empty with imm := some 0, ximm := some 0 } { d := 0, a := 0, off := 0, ta := false })
      (.ld32 { Pfx.empty with ximm := some 0 } { d := 0, a := 0, off := 0, ta := false }) = true ∧
    refuses (.ld32 { Pfx.empty with imm := some 0, guard := some g } { d := 0, a := 0, off := 0, ta := false })
      (.ld32 { Pfx.empty with imm := some 0, ximm := some 0, guard := some g } { d := 0, a := 0, off := 0, ta := false }) = true ∧
    refuses (.bcnt { Pfx.empty with guard := some { g with clear := true } } { d := 0, a := 0, ta := false })
      (.bcnt { Pfx.empty with guard := some { g with clear := true, p := 0 } } { d := 0, a := 0, ta := false }) = true := by decide

/-- An ADD under a MOD prefix. -/
def addMod (m : Mod) : Instr := .add { Pfx.empty with mod := some m } (f3 0 0 0)

/-- MOD: values that are none of the field's, a scope without SCEN, signedness without SGNEN, each field on a row that does not
accept it, SGNEN on ADD without SAT and of two kinds. -/
theorem test_wf_mod :
    refuses (addMod { mod0 with emp := 2 }) (addMod { mod0 with emp := 3 }) = true ∧
    refuses (.fclass { Pfx.empty with mod := some { mod0 with fmt := 11 } } { d := 0, a := 0, ta := false })
      (.fclass { Pfx.empty with mod := some { mod0 with fmt := 12 } } { d := 0, a := 0, ta := false }) = true ∧
    refuses (.fence { Pfx.empty with mod := some { mod0 with scen := true, scope := 5 } })
      (.fence { Pfx.empty with mod := some { mod0 with scen := true, scope := 6 } }) = true ∧
    refuses (.fence { Pfx.empty with mod := some { mod0 with scen := true, scope := 2 } }) (.fence { Pfx.empty with mod := some { mod0 with scope := 2 } }) = true ∧
    refuses (.mulh { Pfx.empty with mod := some { mod0 with sgnen := true, sa := true } } (f3 0 0 0))
      (.mulh { Pfx.empty with mod := some { mod0 with sa := true } } (f3 0 0 0)) = true ∧
    refuses (addMod mod0) (addMod { mod0 with rnd := 1 }) = true ∧
    refuses (addMod mod0) (addMod { mod0 with ftz := true }) = true ∧
    refuses (addMod { mod0 with sat := true }) (.mul { Pfx.empty with mod := some { mod0 with sat := true } } (f3 0 0 0)) = true ∧
    refuses (.mulh { Pfx.empty with mod := some { mod0 with sgnen := true } } (f3 0 0 0)) (.mul { Pfx.empty with mod := some { mod0 with sgnen := true } } (f3 0 0 0)) = true ∧
    refuses (addMod mod0) (addMod { mod0 with scen := true }) = true ∧
    refuses (addMod mod0) (addMod { mod0 with grp := 1 }) = true ∧
    refuses (addMod mod0) (addMod { mod0 with fmt := 1 }) = true ∧
    refuses (.fence { Pfx.empty with mod := some { mod0 with scen := true } }) (.fence { Pfx.empty with mod := some { mod0 with scen := true, emp := 1 } }) = true ∧
    refuses (.atadd { Pfx.empty with mod := some { mod0 with scen := true, scope := 4 } } (f3 0 0 0))
      (.atadd { Pfx.empty with mod := some { mod0 with scen := true, scope := 5 } } (f3 0 0 0)) = true ∧
    refuses (addMod { mod0 with sgnen := true, sat := true }) (addMod { mod0 with sgnen := true }) = true ∧
    refuses (addMod { mod0 with sgnen := true, sat := true, sa := true, sb := true }) (addMod { mod0 with sgnen := true, sat := true, sa := true }) = true := by
  decide

/-- What single rows ask beside that (R92, R48, R162, R164, R165, R209, R246, R250, R264, R282). -/
theorem test_wf_rows :
    refuses (.sel Pfx.empty { n := 1, d := 0, a := 0, b := 0, ta := false, tb := false }) (.sel Pfx.empty { n := 0, d := 0, a := 0, b := 0, ta := false, tb := false }) = true ∧
    refuses (.fclass { Pfx.empty with mod := some { mod0 with fmt := 7 } } { d := 0, a := 0, ta := false })
      (.fclass { Pfx.empty with mod := some { mod0 with fmt := 6 } } { d := 0, a := 0, ta := false }) = true ∧
    refuses (.cvtfi { Pfx.empty with mod := some { mod0 with fmt := 6 } } { d := 0, a := 0, ta := false })
      (.cvtfi { Pfx.empty with mod := some { mod0 with fmt := 7 } } { d := 0, a := 0, ta := false }) = true ∧
    refuses (.phadd { Pfx.empty with imm := some 0xFFFF } (f3 0 0 0)) (.phadd { Pfx.empty with imm := some 0x10000 } (f3 0 0 0)) = true ∧
    refuses (.unpi8 { Pfx.empty with mod := some { mod0 with sgnen := true, sa := true } } { d := 0, a := 0, s := 0, bsel := 0 })
      (.unpi8 { Pfx.empty with mod := some { mod0 with sgnen := true, sb := true } } { d := 0, a := 0, s := 0, bsel := 0 }) = true ∧
    refuses (.atmin { Pfx.empty with mod := some { mod0 with sgnen := true, sb := true } } (f3 0 0 0))
      (.atmin { Pfx.empty with mod := some { mod0 with sgnen := true, sa := true } } (f3 0 0 0)) = true ∧
    refuses (.cpy { Pfx.empty with imm := some 0 } (f3 64 0 0)) (.cpy Pfx.empty (f3 64 0 0)) = true ∧
    refuses (.cpy { Pfx.empty with imm := some 0, ximm := some 0x3FFFFF } (f3 64 0 0)) (.cpy { Pfx.empty with imm := some 0, ximm := some 0x400000 } (f3 64 0 0)) = true ∧
    refuses (.cpyt { Pfx.empty with imm := some 3 } (f3 0 0 0)) (.cpyt { Pfx.empty with imm := some 4 } (f3 0 0 0)) = true ∧
    refuses (.gath { Pfx.empty with imm := some 0, ximm := some 0 } (f3 64 0 0)) (.gath { Pfx.empty with imm := some 0 } (f3 64 0 0)) = true ∧
    refuses (.gath { Pfx.empty with imm := some 0xFFF, ximm := some 0 } (f3 64 0 0)) (.gath { Pfx.empty with imm := some 0x1FFF, ximm := some 0 } (f3 64 0 0)) = true ∧
    refuses (.movsr { d := 0, sr := 20 }) (.movsr { d := 0, sr := 21 }) = true ∧
    refuses (.movsr { d := 0, sr := 47 }) (.movsr { d := 0, sr := 48 }) = true ∧
    refuses (.brsp { Pfx.empty with imm := some 32 } { p := 0, pri := 0, off := 0 }) (.brsp { Pfx.empty with imm := some 33 } { p := 0, pri := 0, off := 0 }) = true ∧
    refuses (.call { w := 4, pri := 0, off := 0 }) (.call { w := 5, pri := 0, off := 0 }) = true ∧
    refuses (.loop Pfx.empty { lc := 2, a := 64, e := 3, ta := false }) (.loop Pfx.empty { lc := 3, a := 64, e := 3, ta := false }) = true ∧
    refuses (.loop Pfx.empty { lc := 2, a := 64, e := 3, ta := false }) (.loop Pfx.empty { lc := 2, a := 64, e := 2, ta := false }) = true ∧
    refuses (.loop { Pfx.empty with imm := some 3 } { lc := 0, a := 64, e := 0, ta := false }) (.loop { Pfx.empty with imm := some 2 } { lc := 0, a := 64, e := 0, ta := false }) = true ∧
    refuses (.loop { Pfx.empty with imm := some 3 } { lc := 0, a := 64, e := 0, ta := false }) (.loop { Pfx.empty with imm := some 3 } { lc := 0, a := 64, e := 3, ta := false }) = true ∧
    refuses (.meetl { n := 1 }) (.meetl { n := 0 }) = true ∧
    refuses (.ld32C { d := 0, b := 2, s := false }) (.ld32C { d := 0, b := 3, s := false }) = true ∧
    refuses (.st32C { d := 0, b := 2, s := false }) (.st32C { d := 0, b := 3, s := false }) = true ∧
    refuses .nop .carAdvance = true := by decide

/-- What front code may not hold (R30, R48, R82, R147). -/
theorem test_wf_front :
    refusesFront (.ld32 Pfx.empty { d := 31, a := 0, off := 0, ta := false }) (.ld32 Pfx.empty { d := 32, a := 0, off := 0, ta := false }) = true ∧
    refusesFront (.ld32 Pfx.empty { d := 0, a := 0, off := 0, ta := false }) (.ld32 Pfx.empty { d := 0, a := 32, off := 0, ta := false }) = true ∧
    refusesFront (.st32 Pfx.empty { d := 95, a := 0, off := 0, ta := false, td := false }) (.st32 Pfx.empty { d := 96, a := 0, off := 0, ta := false, td := false }) = true ∧
    refusesFront (.movsr { d := 0, sr := 2 }) (.movsr { d := 0, sr := 1 }) = true ∧
    refusesFront (.call { w := 0, pri := 0, off := 0 }) (.call { w := 1, pri := 0, off := 0 }) = true ∧
    refusesFront .ret .kill = true ∧ refusesFront .nop (.exit Pfx.empty) = true ∧ refusesFront .eret (.add Pfx.empty (f3 0 0 0)) = true := by decide

/-- A device that is to issue a group of words in slot 0, with v and s registers and predicates set. -/
def runRig (ws : List Nat) (vs ss : List (Nat × Word)) (preds : BitVec 8) : State :=
  let s := State.reset.withFetchWord (32 * ws.length) (ws.foldr (fun w n => w + 2 ^ 32 * n) 0)
  let put (r : Vector Reg 32) (l : List (Nat × Word)) := l.foldl (fun r x => if h : x.1 < 32 then r.set x.1 { val := x.2, full := true } else r) r
  { s with
    trays := s.trays.map fun tr =>
      { tr with base := tr.base.set 0 (put (tr.base[(0 : Fin 32)]) vs), sregs := put tr.sregs ss, preds := tr.preds.set 0 preds } }

/-- The register v n of slot 0 after one step. -/
def vAfter (s : State) (n : Fin 32) : Option Word :=
  match step s with
  | .next t => (t.tray? 1).map fun tr => (tr.base[(0 : Fin 32)][n]).val
  | _ => none

/-- A predicate of slot 0 after one step. -/
def pAfter (s : State) (n : Nat) : Option Bool :=
  match step s with
  | .next t => (t.tray? 1).map fun tr => (tr.preds[(0 : Fin 32)]).getLsbD n
  | _ => none

/-- The PC after one step. -/
def pcAfter (s : State) : Option DWord :=
  match step s with
  | .next t => (t.tray? 1).bind fun tr => tr.frontier.head?.map (·.pc)
  | _ => none

/-- "Working a group out": MULH.AU.BS under a GUARD that is true and one that is not, and without MOD. -/
theorem test_mulh : vAfter (runRig [0x0000167F, 0x0000A0BF, 0x04070CC1] [(7, 0xFFFFFFFF), (8, 0xFFFFFFFE), (6, 9)] [] 1) 6 = some 0xFFFFFFFE ∧
    vAfter (runRig [0x04070CC1] [(7, 0xFFFFFFFF), (8, 0xFFFFFFFE), (6, 9)] [] 1) 6 = some 0 ∧
    vAfter (runRig [0x0000167F, 0x0000A0BF, 0x04070CC1] [(7, 0xFFFFFFFF), (8, 0xFFFFFFFE), (6, 9)] [] 9) 6 = some 9 ∧
    pcAfter (runRig [0x0000167F, 0x0000A0BF, 0x04070CC1] [(7, 0xFFFFFFFF), (8, 0xFFFFFFFE), (6, 9)] [] 9) = some 0x1000C := by decide

/-- "Working a group out": CVTFI.UI8.RZ saturates at either end. -/
theorem test_cvtfi : vAfter (runRig [0x010002BF, 0x0002061D] [(2, 0x43960000)] [] 1) 3 = some 0xFF ∧
    vAfter (runRig [0x010002BF, 0x0002061D] [(2, 0xC0700000), (3, 7)] [] 1) 3 = some 0 := by decide

set_option maxRecDepth 50000 in
/-- "Working a group out": a MOD field that ADD does not accept kills the tray. -/
theorem test_illegal_mod : (match step (runRig [0x000002BF, 0x00000001] [] [] 1) with | .next t => t.trays.length | _ => 9) = 0 := by decide

/-- "Encoding at work": FMA.RD.FTZ, where p4 is true and where it is not; with RU. -/
theorem test_fma : vAfter (runRig [0x0000087F, 0x00000EBF, 0x060B1413] [(11, 0x3F800001), (12, 0x3F800001), (10, 0xBF800000)] [] 0x11) 10 = some 0x34800000 ∧
    vAfter (runRig [0x0000087F, 0x00000EBF, 0x060B1413] [(11, 0x3F800001), (12, 0x3F800001), (10, 0xBF800000)] [] 1) 10 = some 0xBF800000 ∧
    vAfter (runRig [0x00000CBF, 0x060B1413] [(11, 0x3F800001), (12, 0x3F800001), (10, 0xBF800000)] [] 1) 10 = some 0x34800001 := by decide

/-- "Arithmetic at work", score8: UNPI8 of row 1 by a scale word in s3. -/
theorem test_unpi8 : vAfter (runRig [0x6184231F] [(4, 0x00100C08)] [(3, 0x00043400)] 1) 17 = some 0x40000000 := by decide

/-- "Arithmetic at work": CVTFH at the midpoint above 65,504, under RN and under RZ. -/
theorem test_cvtfh_rn : vAfter (runRig [0b0_0_0000000_0000010_0000011_010_01110_1] [(2, 0x477FF000)] [] 1) 3 = some 0x7C00 := by decide

set_option maxRecDepth 4000 in
theorem test_cvtfh_rz : vAfter (runRig [0x000002BF, 0b0_0_0000000_0000010_0000011_010_01110_1] [(2, 0x477FF000)] [] 1) 3 = some 0x7BFF := by decide

/-- ADD wraps (R108). -/
theorem test_add_wraps : vAfter (runRig [0b0_0_0000010_0000001_0000011_000_00000_1] [(1, 0xFFFFFFFF), (2, 3)] [] 1) 3 = some 2 := by decide

/-- SUB of a register from itself, source and destination one. -/
theorem test_sub : vAfter (runRig [0b0_0_0000010_0000001_0000001_001_00000_1] [(1, 5), (2, 7)] [] 1) 1 = some 0xFFFFFFFE := by decide

/-- CMPLT is signed and CMPLTU is not (R109). -/
theorem test_compares :
    pAfter (runRig [0b0_0_0000010_0000001_0000_011_010_00100_1] [(1, 0x80000000), (2, 1)] [] 1) 3 = some true ∧
    pAfter (runRig [0b0_0_0000010_0000001_0000_011_100_00100_1] [(1, 0x80000000), (2, 1)] [] 1) 3 = some false := by decide

/-- The branches of "Encoding at work": BRA top. -/
theorem test_bra : pcAfter (runRig [0xFFC03039] [] [] 1) = some (0x10000 - 0x20) := by decide

/-- LOOP of "Control flow": a count of 0 goes on at the end, another one at the body. -/
theorem test_loop : pcAfter (runRig [0x0242003B, 0x00000001] [] [(2, 0)] 1) = some 0x10008 ∧
    pcAfter (runRig [0x0242003B, 0x00000001] [] [(2, 3)] 1) = some 0x10004 := by decide

/-- "Attention at work": OSMX of a first value and of a larger one, and OSMXF. -/
theorem test_osmx :
    (let s := runRig [0x000430F3] [(4, 0x40000000), (24, 0xFF800000)] [] 1
     vAfter s 24 = some 0x40000000 ∧ vAfter s 25 = some 0x3F800000 ∧ vAfter s 26 = some 0 ∧ vAfter s 27 = some 0x3F800000) ∧
    (let s := runRig [0x000630F3] [(6, 0x40C00000), (24, 0x40000000), (25, 0x3F800000)] [] 1
     vAfter s 24 = some 0x40C00000 ∧ vAfter s 25 = some 0x3F880000 ∧ vAfter s 26 = some 0x3D800000 ∧ vAfter s 27 = some 0x3F800000) := by decide

theorem test_osmxf :
    (let s := runRig [0x0C881933] [(8, 0x3D800000), (25, 0x3F880000)] [] 0x81
     vAfter s 12 = some 0x3D70F0F1 ∧ pAfter s 7 = some false) := by decide

/-- "The package": the home slice of a line, with 96 live slices and with slice 3 fenced (R360). -/
theorem test_home_slice : rig.slice 7 0x0000004000123400 = 74 ∧
    ({ rig with pkg := { rig.pkg with live := BitVec.allOnes 96 &&& ~~~8, nlive := 95 } } : State).slice 7 0x0000004000123400 = 34 := by decide

/-- "Attention": a stream's EWMA after 3 of 4 drafts (R312). -/
theorem test_ewma : ewma 0x8000 3 4 = 0x87FF := by decide

theorem witness_integer_results : Each rig
    [(Pfx.empty, 4, askTwo Pfx.empty ⟨1, 2, 64, false, false⟩ .int 0), (Pfx.empty, 4, askOne ⟨31, 119, false⟩ .int),
     ({ Pfx.empty with imm := some 5 }, 8, askTwo { Pfx.empty with imm := some 5 } ⟨95, 2, 0, true, false⟩ .int 5)] :=
  each_of (by decide)

theorem witness_deferred_results : Each rig
    [(Pfx.empty, 4, askTwo Pfx.empty ⟨1, 2, 3, false, true⟩ .int 0), (Pfx.empty, 4, askOne ⟨1, 2, true⟩ .f32)] := each_of (by decide)

theorem witness_compares : Each rig
    [(Pfx.empty, 4, { srcs := [.reg 1 1 false .int, .reg 2 1 false .int], preds := [7] }),
     (Pfx.empty, 4, { srcs := [.reg 1 1 false .f32, .reg 2 1 false .f32], preds := [1] }),
     (Pfx.empty, 4, { srcs := [.reg 1 1 false .int, .reg 2 1 false .int], dsts := [(3, 1)], preds := [0] }),
     (Pfx.empty, 4, { preds := [1, 2, 0] }), (Pfx.empty, 4, { dsts := [(3, 1)], preds := [7] })] := each_of (by decide)

theorem witness_fp64 : rig.cap 3 = true ∧ Each rig
    [(Pfx.empty, 4, { srcs := [.reg 2 2 false .int, .reg 4 2 false .int, .reg 6 2 false .int], dsts := [(6, 2)] }),
     (Pfx.empty, 4, { srcs := [.reg 30 2 false .int], dsts := [(1, 1)] })] := ⟨by decide, each_of (by decide)⟩

theorem witness_fp64_absent : Each { rig with variant := .lite } [(Pfx.empty, 4, {})] ∧
    ({ rig with variant := .lite } : State).cap 3 = false := ⟨each_of (by decide), by decide⟩

theorem witness_packs : Each rig
    [(Pfx.empty, 4, { srcs := [plain 1 1 .f32, .at_ 64 fun t => groupSlot 32 (byteElement ⟨0, 0, 0, 3⟩ t), plain 5 1 .int], dsts := [(5, 1)] }),
     (Pfx.empty, 4, { srcs := [plain 2 2 .f32, .at_ 2 fun t => groupSlot 128 (nibbleElement ⟨0, 0, 0, 1⟩ t)], dsts := [(6, 2)] })] :=
  each_of (by decide)

/-- Slot 0 picks slot 1's register, which is full, and slot 1 picks slot 0's across, whose thread has TID 0. -/
theorem witness_picks : Some pair { Pfx.empty with imm := some 1 } 8 { srcs := [.imm 1], dsts := [(3, 1)], named := [2] } fun c =>
    c.front = false ∧ slotOfTid c 1 = some 1 ∧ slotAcross c 1 1 = some 0 ∧ slotOfTid c 2 = none ∧
      (pair.held c.owner (.base 1 2)).2 = true := some_of _ (by decide)

/-- IXSET meets both sides: bound 32 of base 0 fits, of base 1 it does not, and a reserved bit never does. -/
theorem witness_ixset : Some rig { Pfx.empty with imm := some 31 } 8 { srcs := [.imm 31], once := true } fun c =>
    c.front = false ∧ (c.val (.imm 31) c.low).toNat < 2 ^ 11 ∧ 0 + (c.val (.imm 31) c.low).toNat % 64 < 32 ∧
      ¬(1 + (c.val (.imm 31) c.low).toNat % 64 < 32) ∧ ¬((2048#32).toNat < 2 ^ 11) := some_of _ (by decide)

theorem witness_ixmov : Some rig Pfx.empty 4 { srcs := [.reg 3 1 false .int] } fun c => c.front = false ∧ c.adv = [] := some_of _ (by decide)

/-- A group that names v[x0+]. -/
theorem witness_cursors : Some (rigT fun tr => { tr with ix := tr.ix.set 0 { base := 4, boundM1 := 3, step := 15, wrap := true, set := true } })
    Pfx.empty 4 (askTwo Pfx.empty ⟨104, 2, 3, false, false⟩ .int 0) fun c => c.front = false ∧ c.adv = [104] := some_of _ (by decide)

theorem witness_movsr : Some rig Pfx.empty 4 { dsts := [(3, 1)] } (fun c => c.front = false ∧ ∃ x ∈ specials.map (·.1), x = 47) ∧
    Some (rigF id) Pfx.empty 4 { dsts := [(31, 1)] } fun c => c.front = true := ⟨some_of _ (by decide), some_of _ (by decide)⟩

/-- XACQ with and without a block, XREL with a block that is full. -/
theorem witness_ext : Some rig Pfx.empty 4 {} (fun c => c.front = false ∧ c.tray.ext = none ∧ rig.room c c.tray 16 1 = .fits []) ∧
    Some (rigT fun tr => { tr with ext := some (blankRegs 16) }) Pfx.empty 4 {} fun c =>
      c.front = false ∧ c.tray.ext = some (blankRegs 16) ∧ ∀ q ∈ c.tray.pending, q.1 + q.2 ≤ 48 := ⟨some_of _ (by decide), some_of _ (by decide)⟩

/-- BRP and BRSP split a two-slot entry; a strand branches on f1. -/
theorem witness_branches :
    Some pair Pfx.empty 4 { preds := [1] } (fun c => takenBy c 1 true = 1 ∧ c.act &&& ~~~takenBy c 1 true = 2 ∧
      pair.canSpawn c.tray = false ∧ c.fit [c.to 0 0 1, c.onward 2]) ∧
    Some (rigF id) Pfx.empty 4 (asksPred (rigF id) 1) fun c => takenBy c 1 true = 0 ∧ c.fit [c.to 0 0 0, c.onward c.act] :=
  ⟨some_of (fun c => takenBy c 1 true = 1 ∧ c.act &&& ~~~takenBy c 1 true = 2 ∧ pair.canSpawn c.tray = false ∧
      (mergeAll (c.tray.frontier.eraseIdx c.entry ++ [c.to 0 0 1, c.onward 2].filter fun e => e.mask != 0)).length ≤ 6) (by decide),
   some_of (fun c => takenBy c 1 true = 0 ∧
      (mergeAll (c.tray.frontier.eraseIdx c.entry ++ [c.to 0 0 0, c.onward c.act].filter fun e => e.mask != 0)).length ≤ 6) (by decide)⟩

/-- The two threads with a spawn area. -/
def pairSpawn : State := { pair with launches := pair.launches.map fun l => { l with shmem := 16384 } }

/-- A tie: the taken side goes. -/
theorem witness_brsp : Some pairSpawn Pfx.empty 4 { preds := [1] } fun c =>
    c.front = false ∧ takenBy c 1 true ≠ 0 ∧ c.act &&& ~~~takenBy c 1 true ≠ 0 ∧ c.ent.depth = 0 ∧ pairSpawn.canSpawn c.tray = true ∧
      c.fit [c.onward 2] ∧ ∃ u, pairSpawn.spawnThreads c.tray.id 0x100 0 32 1 = some u := by
  refine (some_of (fun c => c.front = false ∧ takenBy c 1 true ≠ 0 ∧ c.act &&& ~~~takenBy c 1 true ≠ 0 ∧ c.ent.depth = 0 ∧
    pairSpawn.canSpawn c.tray = true ∧
    (mergeAll (c.tray.frontier.eraseIdx c.entry ++ [c.onward 2].filter fun e => e.mask != 0)).length ≤ 6 ∧
    (pairSpawn.spawnThreads c.tray.id 0x100 0 32 1).isSome = true) (by decide)).imp fun c h => ?_
  exact ⟨h.1, h.2.1, h.2.2.1, h.2.2.2.1, h.2.2.2.2.1, h.2.2.2.2.2.1, Option.isSome_iff_exists.1 h.2.2.2.2.2.2⟩

/-- Seven threads in six entries, slots 0 and 1 in the one that issues; where the team has a spawn area of a size. -/
def sixRig (shmem : Nat) : State :=
  let s := rigT fun tr =>
    { tr with
      remap := Slots.gen fun u => if u.val < 7 then some u.val else none
      preds := tr.preds.set 0 3
      frontier := tr.frontier.flatMap fun e => { e with mask := 3 } ::
        (List.range 5).map fun i => { e with pc := BitVec.ofNat 64 (0x20000 + 16 * i), mask := 4#32 <<< i } }
  { s with launches := s.launches.map fun l => { l with shmem := shmem } }

/-- The last of the six entries, of slot 6: the one whose lowest thread has the highest TID. -/
def sixthEntry : Entry := { pc := 0x20040, prio := 0, mask := 64, depth := 0, loops := [], wait := .none, skip := 0 }

/-- A split past six entries, without a victim and with one. -/
theorem witness_past_six :
    Some (sixRig 0) Pfx.empty 4 { preds := [1] } (fun c => c.front = false ∧ c.tray.frontier.length ≤ 6 ∧
      ¬c.fit [c.to 0 0 (takenBy c 1 true), c.onward (c.act &&& ~~~takenBy c 1 true)] ∧ (sixRig 0).canSpawn c.tray = false) ∧
    Some (sixRig 16384) Pfx.empty 4 { preds := [1] } (fun c =>
      let old := c.tray.frontier.eraseIdx c.entry
      let new := [c.to 0 0 (takenBy c 1 true), c.onward (c.act &&& ~~~takenBy c 1 true)].filter fun e => e.mask != 0
      c.front = false ∧ c.tray.frontier.length ≤ 6 ∧ ¬c.fit [c.to 0 0 (takenBy c 1 true), c.onward (c.act &&& ~~~takenBy c 1 true)] ∧
        (sixRig 16384).canSpawn c.tray = true ∧ IsVictim c.tray (mergeAll (old ++ new)) sixthEntry ∧
        ((sixRig 16384).spawnThreads c.tray.id sixthEntry.pc sixthEntry.prio 32 sixthEntry.mask).isSome = true ∧
        (mergeAll (without sixthEntry.mask old ++ without sixthEntry.mask new)).length ≤ 6 ∧
        without sixthEntry.mask old ++ without sixthEntry.mask new ≠ []) ∧
    ∀ id t0, sixthEntry.wait ≠ .reply id t0 := by
  delta IsVictim Ctx.fit
  exact ⟨some_of _ (by decide), some_of _ (by decide), fun _ _ => nofun⟩

theorem witness_six_entries : (∀ tr ∈ rig.trays, tr.frontier.length ≤ 6 ∧ ∀ ts, tr.trap = some ts → ts.frontier.length ≤ 6) ∧
    ∃ t, exec (.bra ⟨0, 4⟩) rig = .next t :=
  ⟨by intro tr h; obtain rfl := List.mem_singleton.1 h; exact ⟨by decide, fun _ h => by cases h⟩, _, rfl⟩

/-- A device whose next groups are LAND words. -/
def landRig (g : Tray → Tray) : State :=
  let s : State := { State.reset.withFetchWord 32 0x000001BB with cur := .tray 1 0 }
  { s with trays := s.trays.map g, ctxs := s.ctxs.map fun cx => { cx with trapPc := 0x10000 } }

/-- A landing point, checked. -/
def landsB (s : State) (c : Ctx) (va : DWord) : Bool :=
  decide (va.toNat % 2 = 0) && (List.finRange 4).all fun i =>
    readsB (s.fetchByte c.cx c.launch.ver c.team.id (va + BitVec.ofNat 64 i.val)) (BitVec.ofNat 8 (0x000001BB / 2 ^ (8 * i.val)))

theorem readsB_iff (x : Except Nat Byte) (b : Byte) : readsB x b = true ↔ x = .ok b := by
  cases x <;> simp [readsB]

theorem lands_iff (s : State) (c : Ctx) (va : DWord) : landsAt s c va ↔ landsB s c va = true := by
  simp [landsAt, landsB, readsB_iff]

/-- A register pair that holds an address. -/
def holding (va : Word) (tr : Tray) : Tray := { tr with base := tr.base.set 0 ((tr.base[(0 : Fin 32)]).set 2 { val := va, full := true }) }

/-- Two threads, slot 0 with a landing point in v2 and v3, slot 1 with address 0, which is none. -/
def landPair : State := landRig fun tr =>
  { holding 0x10000 tr with remap := (tr.remap.set 0 (some 0)).set 1 (some 1), frontier := tr.frontier.map fun e => { e with mask := 3 } }

/-- The rig's one entry, twice: a second thread in slot 1 stands elsewhere. -/
def twoEntries (tr : Tray) : Tray :=
  { tr with
    remap := (tr.remap.set 0 (some 0)).set 1 (some 1)
    frontier := tr.frontier.flatMap fun e => [{ e with mask := 1 }, { e with mask := 2, pc := 0x20000 }] }

/-- A spawned thread of tray 1. -/
def goneThread (written : Bool) : Spawn :=
  { id := 9, tid := 5, tray := 1, slot := 5, live := 8, pc := 0x10000, prio := 0, preds := 1, curs := Vector.replicate 8 0, off := 0,
    written := written, image := [], since := 0 }

/-- A device whose tray has a spawned thread, its record written or not. -/
def spawnedRig (written : Bool) : State := { rig with teams := rig.teams.map fun tm => { tm with spawns := [goneThread written] } }

/-- Slots without a landing point: in a handler, with another entry, with a spawned thread that is not written, and alone. -/
theorem witness_jmpi_parks :
    Some (rigT fun tr => { tr with trap := some { frontier := tr.frontier, issuer := 0, size := 4, once := false } }) Pfx.empty 4
      { srcs := [.reg 2 2 false .int] } (fun c => c.front = false ∧ c.tray.trap.isSome = true ∧ landsB rig c 0 = false) ∧
    Some (rigT twoEntries) Pfx.empty 4 { srcs := [.reg 2 2 false .int] } (fun c => c.front = false ∧ c.tray.trap = none ∧
      (∀ u ∈ maskSlots c.act, landsB (rigT twoEntries) c (c.val64 (.reg 2 2 false .int) u) = false) ∧ 1 < c.tray.frontier.length) ∧
    (∀ w, Some (spawnedRig w) Pfx.empty 4 { srcs := [.reg 2 2 false .int] } (fun c => c.front = false ∧ c.tray.trap = none ∧
      (∀ u ∈ maskSlots c.act, landsB (spawnedRig w) c (c.val64 (.reg 2 2 false .int) u) = false) ∧ c.tray.frontier.length ≤ 1 ∧
      ∃ sp ∈ c.team.spawns, sp.tray = c.tray.id ∧ sp.written = w)) :=
  ⟨some_of _ (by decide), some_of _ (by decide), fun w => by cases w <;> exact some_of _ (by decide)⟩

theorem witness_jmpi :
    Some (landRig (holding 0x10000)) Pfx.empty 4 { srcs := [.reg 2 2 false .int] } (fun c =>
      (∀ u ∈ maskSlots c.act, landsAt (landRig (holding 0x10000)) c (c.val64 (.reg 2 2 false .int) u)) ∧
        c.fit (c.jumps (fun u => c.val64 (.reg 2 2 false .int) u) 5 (maskSlots c.act) [])) ∧
    Some landPair Pfx.empty 4 { srcs := [.reg 2 2 false .int] } (fun c => c.front = false ∧ c.tray.trap = none ∧
      (∀ u : Fin 32, (2#32).getLsbD u.val = true ↔ u ∈ maskSlots c.act ∧ ¬landsAt landPair c (c.val64 (.reg 2 2 false .int) u)) ∧
      ∃ u ∈ maskSlots c.act, landsAt landPair c (c.val64 (.reg 2 2 false .int) u)) ∧
    Some (rigF id) Pfx.empty 4 { srcs := [.reg 2 2 false .int] } fun c => c.front = true ∧ ¬landsAt (rigF id) c (c.val64 (.reg 2 2 false .int) 0) := by
  simp only [lands_iff]
  exact ⟨some_of (fun c => (∀ u ∈ maskSlots c.act, landsB (landRig (holding 0x10000)) c (c.val64 (.reg 2 2 false .int) u) = true) ∧
    (mergeAll (c.tray.frontier.eraseIdx c.entry ++ (c.jumps (fun u => c.val64 (.reg 2 2 false .int) u) 5 (maskSlots c.act) []).filter
      fun e => e.mask != 0)).length ≤ 6) (by decide), some_of _ (by decide), some_of _ (by decide)⟩

/-- A frame. -/
def oneFrame : Frame :=
  { uid := 0, size := 0, regs := blankRegs 16, held := true, spill := .none, retAddr := 0, prio := 0, callers := 1,
    asked := 0 }

theorem witness_call :
    Some rig Pfx.empty 4 {} (fun c => c.front = false ∧ c.tray.frames.length < 64 ∧ rig.room c c.tray 16 0 = .fits []) ∧
    Some (rigT fun tr => { tr with frames := List.replicate 64 oneFrame, frontier := tr.frontier.map fun e => { e with depth := 64 } })
      Pfx.empty 4 {} (fun c => c.front = false ∧ 64 ≤ c.tray.frames.length) ∧
    Some (rigF fun fr => { fr with stack := List.replicate 15 0 }) Pfx.empty 4 {} (fun c => c.front = true ∧ c.team.front.stack.length < 16) ∧
    Some (rigF fun fr => { fr with stack := List.replicate 16 0 }) Pfx.empty 4 {} fun c => c.front = true ∧ 16 ≤ c.team.front.stack.length :=
  ⟨some_of _ (by decide), some_of _ (by decide), some_of _ (by decide), some_of _ (by decide)⟩

theorem witness_ret :
    Some (rigT fun tr => { tr with frames := [oneFrame], frontier := tr.frontier.map fun e => { e with depth := 1 } }) Pfx.empty 4 {} (fun c =>
      c.front = false ∧ c.ent.depth ≠ 0) ∧
    Some rig Pfx.empty 4 {} (fun c => c.front = false ∧ c.ent.depth = 0) ∧
    Some (rigF fun fr => { fr with stack := [4] }) Pfx.empty 4 {} (fun c => c.front = true ∧ c.team.front.stack = 4 :: []) ∧
    Some (rigF id) Pfx.empty 4 {} fun c => c.front = true ∧ c.team.front.stack = [] :=
  ⟨some_of _ (by decide), some_of _ (by decide), some_of _ (by decide), some_of _ (by decide)⟩

/-- A body of two compact words, whose count is 0. -/
theorem witness_loop : Some rig Pfx.empty 4 { srcs := [.reg 64 1 false .int] } fun c =>
    (∀ l ∈ c.ent.loops, l.lc ≠ 0 ∧ 0x10008 ≤ l.stop.toNat) ∧ State.bodyOk 5 rig c [(0, 0x10008)] 0x10004 0x10008 = true ∧
      c.val (.reg 64 1 false .int) c.low = 0 := some_of _ (by decide)

/-- Illegal loops: a counter that is in use, an end beyond an open loop's, and a body of one LAND word. -/
theorem witness_illegal_loop :
    ((rigT fun tr => { tr with frontier := tr.frontier.map fun e => { e with loops := [{ lc := 0, count := 2, start := 0xFFFC, stop := 0x10006 }] } }).issuer
      Pfx.empty 4).any (fun c => c.ent.loops.any fun l => l.lc == 0 || l.stop.toNat < 0x10008) = true ∧
    (let s : State := { State.reset.withFetchWord 64 0x000001BB_00000000 with cur := .tray 1 0 }
     (s.issuer Pfx.empty 4).any (fun c => !State.bodyOk 5 s c [(0, 0x10008)] 0x10004 0x10008) = true ∧
     (s.issuer Pfx.empty 4).any (fun c => match decode ((s.codeAt c 0x10004 16).take 12) with
       | .ok (.land, _) => true | _ => false) = true) := by decide

theorem witness_decisions :
    Some (rigF id) Pfx.empty 4 { srcs := [.reg 2 2 false .int] } (fun c => c.front = true ∧
      (((rigF id).dqTrim c.team.id).readers c.team.id).isEmpty = false ∧ ∃ tm ∈ ((rigF id).dqTrim c.team.id).team? c.team.id, tm.dq.length < 64) ∧
    Some { rig with teams := rig.teams.map fun tm => { tm with dq := [7] } } Pfx.empty 4 { dsts := [(64, 2)] } (fun c =>
      c.front = false ∧ c.tray.formed = false ∧ c.tray.landed = none ∧ c.team.dq[c.tray.dqPos - c.team.dqBase]? = some 7) ∧
    Some rig Pfx.empty 4 { named := [2] } (fun c => c.front = false) ∧
    Some (rigT fun tr => { tr with formed := true }) Pfx.empty 4 { dsts := [(64, 2)] } (fun c => c.tray.formed = true) ∧
    Some (rigF id) Pfx.empty 4 {} fun c => c.front = true :=
  ⟨some_of _ (by decide), some_of _ (by decide), some_of _ (by decide), some_of _ (by decide), some_of _ (by decide)⟩

/-- A barrier of a launch whose levels have scopes TRAY, BENCH and FAB. -/
theorem witness_barriers :
    Some rig Pfx.empty 4 {} (fun c => c.tray.landed = none ∧ MeetsAtOnce rig c c.launch.teamLevel ∧ c.launch.levels.length ≤ 2 ∧
      (1 : BitVec 3).toNat < c.launch.levels.length) ∧
    Some (rigL fun l => { l with levels := l.levels ++ [{ scope := 4, dom := 4, extent := 1 }] }) Pfx.empty 4 {} (fun c =>
      c.tray.landed = none ∧ MeetsAtOnce rig c 2) ∧
    Some (rigT fun tr => { tr with landed := some 0 }) Pfx.empty 4 {} fun c => c.front = false ∧ c.tray.landed.isSome = true := by
  delta MeetsAtOnce NoneUnacked
  exact ⟨some_of _ (by decide), some_of _ (by decide), some_of _ (by decide)⟩

/-- WAITT at the boundary: a value equal to device time has passed, one above has not. -/
theorem witness_simple :
    Some rig { Pfx.empty with imm := some 0 } 8 { srcs := [.imm 0], once := true } (fun c => (c.val64 (.imm 0) c.low).toInt ≤ rig.time) ∧
    Some rig { Pfx.empty with imm := some 1 } 8 { srcs := [.imm 1], once := true } (fun c => rig.time < (c.val64 (.imm 1) c.low).toInt) ∧
    Some (rigC fun cx => { cx with debugger := true }) Pfx.empty 4 {} fun c => c.cx.debugger = true :=
  ⟨some_of _ (by decide), some_of _ (by decide), some_of _ (by decide)⟩

/-- EXIT of one of two threads, and of the last one. -/
theorem witness_exit :
    Some pair { Pfx.empty with guard := some { p := 1, neg := false, clear := false } } 8 {} (fun c => c.front = false ∧
      cutMask (mergeAll (modAt (fun _ => c.past) c.tray.frontier c.entry)) c.act ≠ []) ∧
    Some rig Pfx.empty 4 {} fun c => c.front = false ∧
      cutMask (mergeAll (modAt (fun _ => c.past) c.tray.frontier c.entry)) c.act = [] ∧ c.tray.trap = none :=
  ⟨some_of _ (by decide), some_of _ (by decide)⟩

set_option maxRecDepth 20000 in
/-- A cause traps into a handler at a landing point; without TRAPPC, with one that is no landing point and in a handler there is none;
in front code there is never one. -/
theorem witness_traps :
    Some (landRig id) Pfx.empty 4 {} (fun c => c.front = false ∧ (landRig id).tray? c.tray.id = some c.tray ∧
      (landRig id).ctx? c.cx.id = some c.cx ∧ c.tray.trap = none ∧ c.cx.trapPc ≠ 0 ∧ landsAt (landRig id) c c.cx.trapPc) ∧
    Some rig Pfx.empty 4 {} (fun c => c.front = false ∧ rig.tray? c.tray.id = some c.tray ∧ rig.ctx? c.cx.id = some c.cx ∧
      rig.team? c.tray.team = some c.team ∧ rig.launch? c.team.launch = some c.launch ∧ c.cx.trapPc = 0) ∧
    Some (rigC fun cx => { cx with trapPc := 0x10004 }) Pfx.empty 4 {} (fun c => c.front = false ∧ c.cx.trapPc ≠ 0 ∧
      ¬landsAt (rigC fun cx => { cx with trapPc := 0x10004 }) c c.cx.trapPc) ∧
    Some (rigT fun tr => { tr with trap := some { frontier := tr.frontier, issuer := 0, size := 4, once := false } }) Pfx.empty 4 {} (fun c =>
      c.front = false ∧ c.tray.trap.isSome = true) ∧
    Some (rigF id) Pfx.empty 4 {} fun c => c.front = true ∧ (rigF id).team? c.team.id = some c.team ∧
      (rigF id).ctx? c.cx.id = some c.cx := by
  simp only [lands_iff]
  exact ⟨some_of _ (by decide), some_of _ (by decide), some_of _ (by decide), some_of _ (by decide), some_of _ (by decide)⟩

/-- A handler under way, for each way back, and no entry that waits to spawn. -/
theorem witness_eret (k : BitVec 8) (h : k ∈ [0x1A, 0x02, 0x07]) :
    Some (rigT fun tr => { tr with fcause := k, fmask := 1, trap := some { frontier := tr.frontier, issuer := 0, size := 4, once := false } })
      Pfx.empty 4 {} (fun c => c.front = false ∧ c.tray.fcause = k ∧
        (∀ x ∈ c.tray.frontier, x.wait = .none) ∧
        ∃ ts ∈ c.tray.trap, (∀ x ∈ ts.frontier, x.wait = .none) ∧ ∃ e ∈ ts.frontier[ts.issuer]?, e.pc = 0x10000) := by
  simp only [List.mem_cons, List.not_mem_nil, or_false] at h
  obtain rfl | rfl | rfl := h <;> exact some_of _ (by decide)

/-- A device whose thread has an address in v2 and v3, and data at an offset of a page that may be read, written and executed, in
every version. -/
def dataRig (lo hi : Word) (at_ : Nat) (bytes : List Byte) : State :=
  let s : State := State.reset.withFetchWord 0 0
  { s with
    cur := .tray 1 0
    trays := s.trays.map fun tr =>
      { tr with base := tr.base.set 0 (((tr.base[(0 : Fin 32)]).set 2 { val := lo, full := true }).set 3 { val := hi, full := true }) }
    mem := (s.mem.writeN 0x1020008 (leBytes 8 0x1030107)).writeN (0x1030000 + at_) bytes }

/-- The hits of a group's accesses, when every one resolves. -/
def hitsOf (s : State) (c : Ctx) (acc : Access) (n : Nat) (va : Fin 32 → DWord) : List (Fin 32) → Option (List Hit)
  | [] => some []
  | t :: ts =>
    match s.resolve c.cx c.launch.ver c.team.id c.tray? acc (va t) with
    | .ok l a =>
      if (va t).toNat % n = 0 then (hitsOf s c acc n va ts).map ({ slot := t, loc := l, attr := a, va := va t } :: ·) else none
    | _ => none

/-- The hits of a group's accesses, when every one lands. -/
def landsOf (s : State) (c : Ctx) (acc : Access) (n : Nat) (va : Fin 32 → DWord) (ts : List (Fin 32)) : Option (List Hit) :=
  (hitsOf s c acc n va ts).filter fun hs => !acc.isWrite || (s.lineless c.cx c.keys (hs.map fun h => (h.loc, h.attr))).isEmpty

theorem hitsOf_sound {s : State} {c : Ctx} {acc : Access} {n : Nat} {va : Fin 32 → DWord} :
    ∀ {ts : List (Fin 32)} {hs : List Hit}, hitsOf s c acc n va ts = some hs →
      Paired (fun t h => h.slot = t ∧ h.va = va t ∧ (va t).toNat % n = 0 ∧
        s.resolve c.cx c.launch.ver c.team.id c.tray? acc (va t) = .ok h.loc h.attr) ts hs
  | [], hs, h => by cases h; trivial
  | t :: ts, hs, h => by
    simp only [hitsOf] at h
    split at h
    · rename_i hr
      split at h
      · rename_i hc
        obtain ⟨hs', h', rfl⟩ := Option.map_eq_some_iff.1 h
        exact ⟨⟨rfl, rfl, hc, hr⟩, hitsOf_sound h'⟩
      · cases h
    · cases h

theorem landsOf_sound {s : State} {c : Ctx} {once : Bool} {acc : Access} {n : Nat} {va : Fin 32 → DWord} {hs : List Hit}
    (h : landsOf s c acc n va (c.slots once) = some hs) : Lands s c once acc n va hs := by
  obtain ⟨h1, h2⟩ := Option.filter_eq_some_iff.1 h
  refine ⟨hitsOf_sound h1, fun hw => ?_⟩
  simpa [hw] using h2

/-- The places of a group's accesses land, with a property. -/
theorem lands_of {s : State} {c : Ctx} {once : Bool} {acc : Access} {n : Nat} {va : Fin 32 → DWord} {q : List Hit → Bool}
    (h : (landsOf s c acc n va (c.slots once)).any q = true) : ∃ hs, Lands s c once acc n va hs ∧ q hs = true := by
  cases hl : landsOf s c acc n va (c.slots once) with
  | none => simp [hl] at h
  | some hs => exact ⟨hs, landsOf_sound hl, by simpa [hl] using h⟩

/-- Places in this device, checked. -/
def localB (hs : List Hit) : Bool := hs.all fun h => match h.loc with | .peer .. => false | _ => true

theorem local_of {hs : List Hit} (h : localB hs = true) : Local hs := by
  intro x hx d a he
  have := List.all_eq_true.1 h x hx
  simp [he] at this

theorem lands_local {s : State} {c : Ctx} {once : Bool} {acc : Access} {n : Nat} {va : Fin 32 → DWord}
    (h : (landsOf s c acc n va (c.slots once)).any localB = true) : ∃ hs, Lands s c once acc n va hs ∧ Local hs :=
  (lands_of h).imp fun _ h => ⟨h.1, local_of h.2⟩

/-- Canonical stores of a state without version lines, checked. -/
def wholeB (s : State) : Bool :=
  let st (x : Store) : Bool := Memory.wf x.bytes && Sparse.wf 0 x.tags
  Memory.wf s.mem && Sparse.wf 0 s.tags && s.teams.all (fun x => st x.shared) && s.trays.all (fun x => st x.scratch) &&
    s.allocs.all (fun x => st x.store) && s.homeTab.all (fun x => st x.store) && s.arrays.isEmpty && s.sched.saved.isEmpty &&
    s.vlines.isEmpty

theorem whole_of {s : State} (h : wholeB s = true) : s.Whole := by
  simp only [wholeB, Bool.and_eq_true, List.all_eq_true, List.isEmpty_iff] at h
  obtain ⟨⟨⟨⟨⟨⟨⟨⟨h1, h2⟩, h3⟩, h4⟩, h5⟩, h6⟩, h7⟩, h8⟩, h9⟩ := h
  refine ⟨⟨h1, h2, fun x hx => h3 x hx, fun x hx => h4 x hx, fun x hx => h5 x hx, fun x hx => h6 x hx, ?_, ?_⟩, ?_, ?_⟩ <;>
    simp [h7, h8, h9]

/-- An access to the page's first word, by two instructions of one slot: as LD128, at LD32's highest offset, and to a store's place. -/
theorem witness_loads :
    Some (dataRig 0x10000 0 0 [1]) Pfx.empty 4 { srcs := [.reg 2 2 false .int], dsts := [(4, 4)] } (fun c => ∃ hs,
      Lands (dataRig 0x10000 0 0 [1]) c false .read 16 (address c Pfx.empty 2 false 0 16) hs ∧ Local hs) ∧
    Some (dataRig 0x10000 0 0 [1]) Pfx.empty 4 { srcs := [.reg 2 2 false .int], dsts := [(64, 1)], once := true } (fun c => ∃ hs,
      Lands (dataRig 0x10000 0 0 [1]) c true .read 4 (address c Pfx.empty 2 false 63 4) hs ∧ Local hs) ∧
    Some (dataRig 0x10000 0 0 [1]) Pfx.empty 2 { srcs := [.reg 2 2 false .int], dsts := [(31, 1)] } (fun c => ∃ hs,
      Lands (dataRig 0x10000 0 0 [1]) c false .read 4 (c.val64 (.reg 2 2 false .int)) hs ∧ Local hs) :=
  ⟨(some_of (fun c => (landsOf (dataRig 0x10000 0 0 [1]) c .read 16 (address c Pfx.empty 2 false 0 16) (c.slots false)).any localB = true)
      (by decide)).imp fun _ h => lands_local h,
   (some_of (fun c => (landsOf (dataRig 0x10000 0 0 [1]) c .read 4 (address c Pfx.empty 2 false 63 4) (c.slots true)).any localB = true)
      (by decide)).imp fun _ h => lands_local h,
   (some_of (fun c => (landsOf (dataRig 0x10000 0 0 [1]) c .read 4 (c.val64 (.reg 2 2 false .int)) (c.slots false)).any localB = true)
      (by decide)).imp fun _ h => lands_local h⟩

/-- A device with a trained port to peer 2, whose thread has an address there. -/
def peerRig : State :=
  let s := dataRig 0 0x01200000 0 []
  { s with pkg := { s.pkg with portstat := s.pkg.portstat.set 0 0x80020000 } }

theorem witness_peer_load : Some peerRig Pfx.empty 4 { srcs := [.reg 2 2 false .int], dsts := [(4, 1)] } (fun c => ∃ hs,
    Lands peerRig c false .read 4 (address c Pfx.empty 2 false 0 4) hs ∧ ¬Local hs ∧
      ∀ h ∈ hs, ∀ d a, h.loc = .peer d a → peerRig.ownPending c d a = false) ∧ ∀ q ∈ peerRig.prods, q.id ≠ peerRig.nextId := by
  refine ⟨(some_of (fun c => (landsOf peerRig c .read 4 (address c Pfx.empty 2 false 0 4) (c.slots false)).any
    (fun hs => hs.length == 1 && hs.all fun h => h.loc == .peer 2 0) = true) (by decide)).imp fun c h => ?_, by decide⟩
  obtain ⟨hs, hl, hq⟩ := lands_of (once := false) h
  simp only [Bool.and_eq_true, beq_iff_eq] at hq
  obtain ⟨x, rfl⟩ := List.length_eq_one_iff.1 hq.1
  have hx : x.loc = .peer 2 0 := by simpa using hq.2
  exact ⟨_, hl, fun hh => hh x (List.mem_singleton.2 rfl) 2 0 hx, fun _ _ _ _ _ => rfl⟩

/-- The check of a store at peer 2 was answered without a cause. -/
def admitRig : State :=
  { peerRig with fab := { peerRig.fab with pulled := [{ owner := .tray 1, peer := 2, addr := 252, data := [], cause := none }] } }

theorem witness_stores :
    (dataRig 0x10000 0 0 []).Whole ∧ admitRig.Whole ∧
    Some (dataRig 0x10000 0 0 []) Pfx.empty 4 { srcs := [.reg 2 2 false .int, .reg 4 4 false .int] } (fun c => ∃ hs,
      Lands (dataRig 0x10000 0 0 []) c false .write 16 (address c Pfx.empty 2 false 1 16) hs ∧ Local hs) ∧
    Some admitRig Pfx.empty 4 { srcs := [.reg 2 2 false .int, .reg 64 1 false .int], once := true } (fun c => ∃ hs,
      Lands admitRig c true .write 4 (address c Pfx.empty 2 false 63 4) hs ∧ ¬Local hs ∧ Admitted admitRig c hs) := by
  refine ⟨whole_of (by decide), whole_of (by decide),
   (some_of (fun c => (landsOf (dataRig 0x10000 0 0 []) c .write 16 (address c Pfx.empty 2 false 1 16) (c.slots false)).any localB = true)
      (by decide)).imp fun _ h => lands_local h,
   (some_of (fun c => c.owner = .tray 1 ∧ (landsOf admitRig c .write 4 (address c Pfx.empty 2 false 63 4) (c.slots true)).any
      (fun hs => hs.length == 1 && hs.all fun h => h.loc == .peer 2 252) = true) (by decide)).imp fun c h => ?_⟩
  obtain ⟨hs, hl, hq⟩ := lands_of (once := true) h.2
  simp only [Bool.and_eq_true, beq_iff_eq] at hq
  obtain ⟨x, rfl⟩ := List.length_eq_one_iff.1 hq.1
  have hx : x.loc = .peer 2 252 := by simpa using hq.2
  refine ⟨_, hl, fun hh => hh x (List.mem_singleton.2 rfl) 2 252 hx, fun y hy d a hd => ?_⟩
  obtain rfl := List.mem_singleton.1 hy
  obtain ⟨rfl, rfl⟩ : 2 = d ∧ 252 = a := by simpa [hx] using hd
  exact ⟨_, by rw [h.1]; rfl, rfl⟩

/-- A MOD prefix that gives a scope. -/
def atScope (n : BitVec 3) : Pfx :=
  { Pfx.empty with mod := some { mod0 with scope := n, scen := true } }

/-- An atomic of scope FAB on a local word while another strand's write at a peer is under way, which its release does not cover. -/
def busyRig : State :=
  let s := dataRig 0x10000 0 0 []
  { s with fab := { s.fab with flights :=
      [{ tag := 1, peer := 2, owner := .front 7, op := .write [], addr := 0, va := 0x0120000000000000, gid := 0, locseq := 0, use := .store, since := 0 }] } }

theorem witness_fab_atomic :
    Some busyRig (atScope 4) 8 { srcs := [.reg 2 2 false .int, .reg 6 2 false .int], dsts := [(4, 1)] } (fun c =>
      (∃ hs, Lands busyRig c false .write 4 (c.val64 (.reg 2 2 false .int)) hs ∧ Local hs) ∧
      ∀ y ∈ busyRig.fab.flights, busyRig.ackDue c .implicit y = true → c.cx.unbound y.va = false) ∧
    (atScope 4).scope (busyRig.cap 0) = some 4 ∧ busyRig.fab.flights ≠ [] :=
  ⟨(some_of (fun c => (landsOf busyRig c .write 4 (c.val64 (.reg 2 2 false .int)) (c.slots false)).any localB = true ∧
      ∀ y ∈ busyRig.fab.flights, busyRig.ackDue c .implicit y = true → c.cx.unbound y.va = false) (by decide)).imp
      fun _ h => ⟨lands_local h.1, h.2⟩, by decide, by decide⟩

/-- An atomic without a scope and one of scope PKG on a local word; LDRES and STCND on the same. -/
theorem witness_atomics :
    Some (dataRig 0x10000 0 0 []) Pfx.empty 4 { srcs := [.reg 2 2 false .int, .reg 6 2 false .int], dsts := [(4, 1)] } (fun c =>
      (∃ hs, Lands (dataRig 0x10000 0 0 []) c false .write 4 (c.val64 (.reg 2 2 false .int)) hs ∧ Local hs) ∧
      ∀ u ∈ maskSlots c.act, (c.val64 (.reg 2 2 false .int) u).getLsbD 56 = false) ∧
    Pfx.empty.scope ((dataRig 0x10000 0 0 []).cap 0) ≠ some 4 ∧
    Some (dataRig 0x10000 0 0 []) Pfx.empty 4 { srcs := [.reg 2 2 false .int, .reg 6 1 false .int], preds := [1] } fun c =>
      c.front = false ∧ ∃ hs, Lands (dataRig 0x10000 0 0 []) c false .write 4 (c.val64 (.reg 2 2 false .int)) hs ∧ Local hs :=
  ⟨(some_of (fun c => (landsOf (dataRig 0x10000 0 0 []) c .write 4 (c.val64 (.reg 2 2 false .int)) (c.slots false)).any localB = true ∧
      ∀ u ∈ maskSlots c.act, (c.val64 (.reg 2 2 false .int) u).getLsbD 56 = false) (by decide)).imp fun _ h => ⟨lands_local h.1, h.2⟩,
   by decide,
   (some_of (fun c => c.front = false ∧
      (landsOf (dataRig 0x10000 0 0 []) c .write 4 (c.val64 (.reg 2 2 false .int)) (c.slots false)).any localB = true)
      (by decide)).imp fun _ h => ⟨h.1, lands_local h.2⟩⟩

/-- FENCE of a scope below FAB, of FAB with nothing due, of SURV in a version, and of SURV without a parity unit. -/
theorem witness_fences :
    Some rig Pfx.empty 4 {} (fun c => scopeInForce rig c.pfx = 3) ∧
    Some busyRig (atScope 4) 8 {} (fun c => scopeInForce busyRig (atScope 4) = 4 ∧
      ∀ x ∈ busyRig.fab.flights, busyRig.ackDue c .implicit x = true → c.cx.unbound x.va = false) ∧
    Some (rigL fun l => { l with ver := 1 }) (atScope 5) 8 {} (fun c => scopeInForce (rigL fun l => { l with ver := 1 }) (atScope 5) = 5 ∧
      (rigL fun l => { l with ver := 1 }).cap 1 = true ∧ c.launch.ver ≠ 0 ∧ (rigL fun l => { l with ver := 1 }).fab.flights = []) ∧
    Some { rig with variant := .lite } (atScope 5) 8 {}
      (fun _ => scopeInForce { rig with variant := .lite } (atScope 5) = 5 ∧ ({ rig with variant := .lite } : State).cap 1 = false) :=
  ⟨some_of _ (by decide), some_of _ (by decide), some_of _ (by decide), some_of _ (by decide)⟩

/-- A region of one sector with its object in another, and the same with the object in it. -/
theorem witness_bindings :
    Some (dataRig 0x10000 0 0 []) { Pfx.empty with imm := some 128 } 8
      { srcs := [.reg 2 2 false .int, .reg 4 2 false .int, .imm 128], once := true } (fun c =>
      (∃ l a, (dataRig 0x10000 0 0 []).resolve c.cx c.launch.ver c.team.id c.tray? .read (c.val64 (.reg 2 2 false .int) c.low) = .ok l a) ∧
      (c.val64 (.reg 2 2 false .int) c.low).toNat = 0x10000 ∧ (c.val64 (.reg 4 2 false .int) c.low).toNat = 0 ∧
      (c.val (.imm 128) c.low).toNat = 128 ∧ (∀ x ∈ c.cx.bindings, 0 < x.len) ∧
      (c.val64 (.reg 4 2 false .int) c.low).getLsbD 56 = false ∧ c.cx.bindings = []) ∧
    ∀ cx : Context, cx.bindings = [] → bindable cx 0x10000 0 128 ∧ ¬bindable cx 64 0 128 := by
  refine ⟨(some_of (fun c => (match (dataRig 0x10000 0 0 []).resolve c.cx c.launch.ver c.team.id c.tray? .read (c.val64 (.reg 2 2 false .int) c.low) with | .ok .. => true | _ => false) = true ∧
      (c.val64 (.reg 2 2 false .int) c.low).toNat = 0x10000 ∧ (c.val64 (.reg 4 2 false .int) c.low).toNat = 0 ∧
      (c.val (.imm 128) c.low).toNat = 128 ∧ (∀ x ∈ c.cx.bindings, 0 < x.len) ∧
      (c.val64 (.reg 4 2 false .int) c.low).getLsbD 56 = false ∧ c.cx.bindings = []) (by decide)).imp fun c h => ⟨?_, h.2⟩, ?_⟩
  · have := h.1
    split at this
    · rename_i l a h; exact ⟨l, a, h⟩
    · cases this
  · intro cx hc
    refine ⟨⟨?_, by simp [hc], by simp [hc]⟩, ?_⟩
    · rintro ⟨x, h1, h2, h3, h4⟩; omega
    · rintro ⟨h, -⟩
      exact h ⟨64, by omega, by omega, by omega, by omega⟩

theorem witness_unbind : Some (rigC fun cx => { cx with bindings := [{ base := 0, len := 128, obj := 256, scope := 4 }] }) Pfx.empty 4
    { srcs := [.reg 2 2 false .int], once := true } (fun c =>
      (c.cx.bindings.find? fun y => y.base == (c.val64 (.reg 2 2 false .int) c.low).toNat) = some ⟨0, 128, 256, 4⟩ ∧
      (rigC fun cx => { cx with bindings := [{ base := 0, len := 128, obj := 256, scope := 4 }] }).fab.flights = []) ∧
    Some rig Pfx.empty 4 { srcs := [.reg 2 2 false .int], once := true } fun c => c.cx.bindings = [] :=
  ⟨some_of _ (by decide), some_of _ (by decide)⟩

/-- ACQ at its boundary: sequence 1 has reached targets 1 and 1 − (2^63 − 1), and not 2. -/
theorem witness_acquire :
    Some (dataRig 0x10000 0 0 [1]) Pfx.empty 4 { srcs := [.reg 2 2 false .int, .reg 4 2 false .int], once := true } (fun c =>
      ∃ h, Lands (dataRig 0x10000 0 0 [1]) c true .read 64 (c.val64 (.reg 2 2 false .int)) [h] ∧ Local [h] ∧
        BitVec.ofNat 64 (leNat ((dataRig 0x10000 0 0 [1]).seen c.keys h.loc 8)) = 1) ∧
    (1 - 1 : DWord).toNat < 2 ^ 63 ∧ (1 - 0x8000000000000002 : DWord).toNat < 2 ^ 63 ∧ 2 ^ 63 ≤ (1 - 2 : DWord).toNat ∧
    Some (dataRig 0x10000 0 0 [1]) Pfx.empty 4 { srcs := [.reg 2 2 false .int], once := true } (fun c =>
      ∃ h, Lands (dataRig 0x10000 0 0 [1]) c true .write 64 (c.val64 (.reg 2 2 false .int)) [h] ∧ Local [h]) := by
  refine ⟨(some_of (fun c => (landsOf (dataRig 0x10000 0 0 [1]) c .read 64 (c.val64 (.reg 2 2 false .int)) (c.slots true)).any (fun hs =>
      localB hs && hs.length == 1 && hs.all fun h => BitVec.ofNat 64 (leNat ((dataRig 0x10000 0 0 [1]).seen c.keys h.loc 8)) == 1) = true)
      (by decide)).imp fun c h => ?_, by decide, by decide, by decide,
    (some_of (fun c => (landsOf (dataRig 0x10000 0 0 [1]) c .write 64 (c.val64 (.reg 2 2 false .int)) (c.slots true)).any (fun hs =>
      localB hs && hs.length == 1) = true) (by decide)).imp fun c h => ?_⟩
  · obtain ⟨hs, hl, hq⟩ := lands_of (once := true) h
    simp only [Bool.and_eq_true] at hq
    match hs, hq with
    | [x], hq => exact ⟨x, hl, local_of hq.1.1, by simpa using hq.2⟩
  · obtain ⟨hs, hl, hq⟩ := lands_of (once := true) h
    simp only [Bool.and_eq_true] at hq
    match hs, hq with
    | [x], hq => exact ⟨x, hl, local_of hq.1⟩

/-- WAITNE compares the word 1 with 0, which differs, and with 1, which does not. -/
theorem witness_waitne (k : BitVec 23) (h : k = 0 ∨ k = 1) :
    Some (dataRig 0x10000 0 0 [1]) { Pfx.empty with imm := some k } 8 { srcs := [.reg 2 2 false .int, .imm (k.setWidth 64)], dsts := [(4, 1)] } fun c =>
      ∃ hs, Lands (dataRig 0x10000 0 0 [1]) c false .read 4 (c.val64 (.reg 2 2 false .int)) hs ∧ Local hs := by
  obtain rfl | rfl := h <;>
  exact (some_of (fun c => (landsOf (dataRig 0x10000 0 0 [1]) c .read 4 (c.val64 (.reg 2 2 false .int)) (c.slots false)).any localB = true)
      (by decide)).imp fun _ h => lands_local h

/-- A path to an address, checked. -/
theorem path_of {s : State} {va : DWord} (h : va.toNat / 2 ^ 56 = 0) : HasPath s va := fun h' => by omega

theorem matrix_path_of {s : State} {va : DWord} (h : va.toNat / 2 ^ 56 = 0) : HasMatrixPath s va := fun h' => by omega

/-- Copies from an aligned pair to an aligned pair, swizzled too; a CTAG of an epoch without copies and with one; CPYT of 32 lines. -/
theorem witness_copies :
    Some rig { Pfx.empty with imm := some 0x10003F } 8 (askToken [.reg 2 2 false .int, .reg 4 2 false .int] 64) (fun c =>
      (HasPath rig (c.pair 2 false) ∧ HasPath rig (c.pair 4 false)) ∧ (c.pair 2 false).toNat % 1024 = 0 ∧ (c.pair 4 false).toNat % 16 = 0 ∧
      0x10003F / 2 ^ 20 % 4 = 1 ∧ (0x10003F % 2 ^ 20 + 1) * 16 % 1024 = 0) ∧
    Some rig Pfx.empty 4 (askToken [] 64) (fun c => c.front = false ∧ ∀ e ∈ rig.epochs, ¬(e.tray = c.tray.id ∧ e.tag = 3 ∧ e.epoch = 0)) ∧
    Some { rig with epochs := [{ tray := 1, tag := 3, epoch := 0, left := 1, bytes := 0, cause := 0, cancelled := false, copies := [] }] } Pfx.empty 4 (askToken [] 95) (fun c =>
      ∃ e ∈ ({ rig with epochs := [{ tray := 1, tag := 3, epoch := 0, left := 1, bytes := 0, cause := 0, cancelled := false, copies := [] }] } : State).epochs, e.tray = c.tray.id ∧ e.tag = 3 ∧ e.epoch = 0) ∧
    Some (dataRig 0x10000 0 0 []) { Pfx.empty with imm := some 3 } 8
      { srcs := [.reg 6 1 false .int, .reg 2 2 false .int, .reg 4 2 false .int] } (fun c => c.front = false ∧
        (∃ hs, Lands (dataRig 0x10000 0 0 []) c false .engineWrite 32 (c.val64 (.reg 2 2 false .int)) hs ∧ Local hs) ∧
        ∀ x ∈ maskSlots c.act, (c.val (.reg 6 1 false .int) x).toNat = 0) ∧
    Some (dataRig 0x10000 0 0 []) { Pfx.empty with imm := some 3 } 8
      { srcs := [.reg 2 1 false .int, .reg 2 2 false .int, .reg 2 2 false .int] } (fun c => c.front = false ∧
        (∃ hs, Lands (dataRig 0x10000 0 0 []) c false .engineWrite 32 (c.val64 (.reg 2 2 false .int)) hs ∧ Local hs) ∧
        ∀ x ∈ maskSlots c.act, (c.val64 (.reg 2 2 false .int) x).toNat % 32 = 0 ∧
          ∃ l a, (dataRig 0x10000 0 0 []).resolve c.cx c.launch.ver c.team.id c.tray? .read (c.val64 (.reg 2 2 false .int) x) = .ok l a ∧
            ∀ d o, l ≠ .peer d o) := by
  refine ⟨(some_of (fun c => ((c.pair 2 false).toNat / 2 ^ 56 = 0 ∧ (c.pair 4 false).toNat / 2 ^ 56 = 0) ∧
      (c.pair 2 false).toNat % 1024 = 0 ∧ (c.pair 4 false).toNat % 16 = 0 ∧ 0x10003F / 2 ^ 20 % 4 = 1 ∧
      (0x10003F % 2 ^ 20 + 1) * 16 % 1024 = 0) (by decide)).imp fun c h => ⟨⟨path_of h.1.1, path_of h.1.2⟩, h.2⟩,
    some_of _ (by decide), some_of _ (by decide),
    (some_of (fun c => c.front = false ∧
      (landsOf (dataRig 0x10000 0 0 []) c .engineWrite 32 (c.val64 (.reg 2 2 false .int)) (c.slots false)).any localB = true ∧
      ∀ x ∈ maskSlots c.act, (c.val (.reg 6 1 false .int) x).toNat = 0) (by decide)).imp fun c h => ⟨h.1, lands_local h.2.1, h.2.2⟩,
    (some_of (fun c => c.front = false ∧
      (landsOf (dataRig 0x10000 0 0 []) c .engineWrite 32 (c.val64 (.reg 2 2 false .int)) (c.slots false)).any localB = true ∧
      (maskSlots c.act).all fun x => (c.val64 (.reg 2 2 false .int) x).toNat % 32 == 0 &&
        match (dataRig 0x10000 0 0 []).resolve c.cx c.launch.ver c.team.id c.tray? .read (c.val64 (.reg 2 2 false .int) x) with
        | .ok l _ => localB [{ slot := 0, loc := l, attr := Attr.team, va := 0 }]
        | _ => false) (by decide)).imp fun c h => ⟨h.1, lands_local h.2.1, fun x hx => ?_⟩⟩
  have := List.all_eq_true.1 h.2.2 x hx
  simp only [Bool.and_eq_true, beq_iff_eq] at this
  refine ⟨this.1, ?_⟩
  have h2 := this.2
  split at h2
  · rename_i l a hr
    exact ⟨l, a, hr, fun d o he => local_of h2 _ (List.mem_singleton.2 rfl) d o he⟩
  · cases h2

/-- A block of s registers for the matrix instructions. -/
def blockRig (ws : List Word) : State := rigT fun tr => { tr with sregs := Vector.ofFn fun i => { val := ws.getD i.val 0, full := true } }

/-- A load of FP16 weights, a stream of 256 rows from row 0, the same of no steps, and a scale copy of all 4,096 lines. -/
theorem witness_matrix :
    Some (blockRig [0, 0]) Pfx.empty 4 (askToken (.reg 2 2 false .int :: blockSrcs 64 2 false) 80) (fun c =>
      c.detached = false ∧ HasMatrixPath (blockRig [0, 0]) (c.pair 2 false) ∧ (c.pair 2 false).toNat % 64 = 0 ∧
      (ctlOf (c.blockWord 64 2 false 0)).formats = true ∧ (shape4Of (c.blockWord 64 2 false 1)).swizzles = true ∧
      (shape4Of (c.blockWord 64 2 false 1)).n = 0 ∧ (shape4Of (c.blockWord 64 2 false 1)).m = 0) ∧
    Some (blockRig [0, 0x01000000]) Pfx.empty 4 (askToken (.reg 2 2 false .int :: blockSrcs 64 2 false) 80) (fun c =>
      streamOk (ctlOf (c.blockWord 64 2 false 0)) (shape4Of (c.blockWord 64 2 false 1)) ((blockRig [0, 0x01000000]).shapeFor c 0) = true ∧
      (shape4Of (c.blockWord 64 2 false 1)).n = 0) ∧
    Some (blockRig [0, 0, 0, 0, 0x01000002]) Pfx.empty 4 (askToken (blockSrcs 64 8 false) 80) (fun c => c.detached = false ∧
      (c.blockWord 64 8 false 0).toNat % 64 = 0 ∧ (c.blockWord 64 8 false 5).toNat % 64 = 0 ∧
      streamOk (ctlOf (c.blockWord 64 8 false 7)) (shape4Of (c.blockWord 64 8 false 4)) ((blockRig [0, 0, 0, 0, 0x01000002]).shapeFor c 0) = true ∧
      (shape4Of (c.blockWord 64 8 false 4)).n = 2) ∧
    Some (blockRig [0x01000000]) Pfx.empty 4 (askToken [.reg 2 2 false .int, .reg 64 1 false .int] 80) (fun c => c.detached = false ∧
      (c.val (.reg 64 1 false .int) c.low).toNat < 2 ^ 26 ∧ (c.val (.reg 64 1 false .int) c.low).toNat / 2 ^ 12 % 2 ^ 13 = 4096 ∧
      (c.val (.reg 64 1 false .int) c.low).toNat % 2 ^ 12 + 4096 ≤ 4096) :=
  ⟨(some_of (fun c => c.detached = false ∧ (c.pair 2 false).toNat / 2 ^ 56 = 0 ∧ (c.pair 2 false).toNat % 64 = 0 ∧
      (ctlOf (c.blockWord 64 2 false 0)).formats = true ∧ (shape4Of (c.blockWord 64 2 false 1)).swizzles = true ∧
      (shape4Of (c.blockWord 64 2 false 1)).n = 0 ∧ (shape4Of (c.blockWord 64 2 false 1)).m = 0) (by decide)).imp
      fun c h => ⟨h.1, matrix_path_of h.2.1, h.2.2⟩,
   some_of _ (by decide), some_of _ (by decide), some_of _ (by decide)⟩

/-- Accumulators: ACCPOP attached and detached; ACCCLR of all 256 rows, with nothing before it. -/
theorem witness_accumulators :
    Some rig Pfx.empty 4 { dsts := [(28, 4)] } (fun c => c.detached = false) ∧
    Some (rigT fun tr => { tr with landed := some 0 }) Pfx.empty 4 { dsts := [(0, 4)] } (fun c => c.detached = true ∧ c.clears = false) ∧
    Some rig { Pfx.empty with imm := some 0x10000 } 8 { srcs := [.imm 0x10000], once := true } (fun c => c.detached = false ∧
      (c.val (.imm 0x10000) c.low).toNat < 2 ^ 17 ∧ (c.val (.imm 0x10000) c.low).toNat / 2 ^ 8 ≤ 256 ∧
      (rig.array c.bench 1).holder = none ∧ rig.onArray c.bench 1 = []) ∧ ∀ k ∈ rig.cmds, k.id ≠ rig.nextId :=
  ⟨some_of _ (by decide), some_of _ (by decide), some_of _ (by decide), by decide⟩

/-- Ranges at hand, checked. -/
def atHandB (s : State) (c : Ctx) (spans : List (DWord × Nat)) : Bool :=
  spans.all fun x => (pieces x.1 x.2).all fun y =>
    match s.resolve c.cx c.launch.ver c.team.id c.tray? .read y.1 with
    | .ok l _ => localB [{ slot := 0, loc := l, attr := Attr.team, va := 0 }]
    | _ => false

theorem at_hand_of {s : State} {c : Ctx} {spans : List (DWord × Nat)} (h : atHandB s c spans = true) : AtHand s c spans := by
  intro x hx y hy
  have := List.all_eq_true.1 (List.all_eq_true.1 h x hx) y hy
  split at this
  · rename_i l a hr
    exact ⟨l, a, hr, fun d o he => local_of this _ (List.mem_singleton.2 rfl) d o he⟩
  · cases this

/-- A shape record of one sequence of 256 rows, and the address 0. -/
def shapeRig : State := dataRig 0x10000 0 0 [1, 0, 0, 0, 0, 0, 0, 0, 0, 0, 0, 1]

theorem witness_shapes :
    Some shapeRig Pfx.empty 4 { srcs := [.reg 2 2 false .int], once := true } (fun c => c.detached = false ∧
      (shapeRig.array c.bench 1).holder = none ∧ shapeRig.onArray c.bench 1 = [] ∧ AtHand shapeRig c [(c.pair 2 false, 8), (c.pair 2 false, 12)] ∧
      fieldAt (bytesAt shapeRig c (c.pair 2 false) 8) 0 2 = 1 ∧ shapeLegal (bytesAt shapeRig c (c.pair 2 false) 12)) ∧
    Some rig Pfx.empty 4 { srcs := [.reg 2 2 false .int], once := true } (fun c => c.pair 2 false = 0) ∧
      ∀ c, NothingPulled shapeRig c :=
  ⟨(some_of (fun c => c.detached = false ∧
      (shapeRig.array c.bench 1).holder = none ∧ shapeRig.onArray c.bench 1 = [] ∧
      atHandB shapeRig c [(c.pair 2 false, 8), (c.pair 2 false, 12)] = true ∧
      fieldAt (bytesAt shapeRig c (c.pair 2 false) 8) 0 2 = 1 ∧
      let bs := bytesAt shapeRig c (c.pair 2 false) 12
      1 ≤ fieldAt bs 0 2 ∧ fieldAt bs 0 2 ≤ 256 ∧ fieldAt bs 2 1 ≤ 1 ∧ fieldAt bs 3 5 = 0 ∧ (∀ x ∈ shapeSeqs bs, 1 ≤ x.2) ∧
        ((shapeSeqs bs).map (·.2)).sum ≤ 256) (by decide)).imp fun c h => ⟨h.1, h.2.1, h.2.2.1, at_hand_of h.2.2.2.1, h.2.2.2.2⟩,
   some_of _ (by decide), fun _ _ h => absurd h List.not_mem_nil⟩

/-- A context with a tile-store aperture and a quota of two units. -/
def tileRig : State :=
  let s := rigC fun cx => { cx with tsap := 0x100000000 }
  { s with pkg := { s.pkg with parts := s.pkg.parts.map fun p => { p with tsq := [2, 0, 0, 0] } } }

/-- TSALLOC of both units, of one more, of none. -/
theorem witness_tsalloc :
    Some tileRig { Pfx.empty with imm := some 2 } 8 { srcs := [.imm 2], dsts := [(4, 2)], once := true } (fun c =>
      c.cx.tsap ≠ 0 ∧ tileRig.tileUsed c.cx.part (dieOf c.bench) + 2 ≤ 2 ∧ tileRig.tileSpace (dieOf c.bench) 2 = some 0 ∧
      2 < tileRig.tileUsed c.cx.part (dieOf c.bench) + 3 ∧
      ∀ x ∈ maskSlots c.act, c.slotWaits { dsts := [(4, 2)] } x = false) ∧
    Some rig { Pfx.empty with imm := some 0 } 8 { srcs := [.imm 0], dsts := [(4, 2)], once := true } (fun c =>
      (c.val (.imm 0) c.low).toNat = 0) ∧ ∀ cx, tileRig.handlesFor cx 2 ≠ [] := by
  refine ⟨some_of _ (by decide), some_of _ (by decide), fun cx h => ?_⟩
  have : (0 : Nat) ∈ tileRig.handlesFor cx 2 := by
    simp only [State.handlesFor, List.mem_filter, List.mem_range]
    exact ⟨by decide, rfl⟩
  rw [h] at this
  exact absurd this List.not_mem_nil

/-- A live allocation of the issuing version, and one of its parent. -/
def freeRig (ver : Nat) : State :=
  let s := dataRig 0 1 0 []
  { s with
    launches := s.launches.map fun l => { l with ver := ver }
    ctxs := s.ctxs.map fun cx => { cx with versions := [{ loc := 1, inc := 1, state := .live, parent := 0, frees := [], told := [], ended := [] }] }
    allocs := [{ id := 9, ctx := 1, ver := 0, handle := 0x100000000, units := 1, die := 0, first := 0, store := Store.empty, lost := false }] }

theorem witness_tsfree (v : Nat) (h : v = 0 ∨ v = 1) :
    Some (freeRig v) Pfx.empty 4 { srcs := [.reg 2 2 false .int], once := true } fun c => c.launch.ver = v ∧
      ∃ x ∈ (freeRig v).allocs, x.ctx = c.cx.id ∧ x.ver ∈ c.cx.chain c.launch.ver ∧ x.handle = (c.pair 2 false).toNat := by
  obtain rfl | rfl := h <;> exact some_of _ (by decide)

/-- MIGRATE to the tray's own die and to die 1, by the home of the address. -/
def migrateRig (die : BitVec 2) : State :=
  let s := dataRig 0x10000 0 0 []
  { s with homeTab := [{ base := 0x10000, pages := 1, ctx := 1, home := 3, aff := die, w := true, vers := true, prot := false, valid := true, frame := 0x103, store := Store.empty, lost := false }] }

theorem witness_migrate (d : BitVec 2) (h : d = 0 ∨ d = 1) :
    Some (migrateRig d) Pfx.empty 4 { srcs := [.reg 2 2 false .int], once := true } fun c =>
      c.front = false ∧ c.tray.landed = none ∧ c.team.bench / 48 = 0 ∧ homeValue (migrateRig d) c (c.pair 2 false) = d.toNat := by
  obtain rfl | rfl := h <;> exact some_of _ (by decide)

/-- Team shared memory of 16 KiB, at the address in v2 and v3. -/
def sharedRig : State :=
  let s := dataRig 0 0x00F00000 0 []
  { s with launches := s.launches.map fun l => { l with shmem := 16384 } }

/-- A tile in shared memory for BOARD, RPLC and CATCH. -/
theorem witness_tiles : Some sharedRig { Pfx.empty with imm := some 5 } 8 (askToken [.imm 5, .reg 2 2 false .int] 64) fun c =>
    c.launch.ver = 0 ∧ c.val (.imm 5) c.low ≠ 0 ∧ HasPath sharedRig (c.pair 2 false) ∧ (c.pair 2 false).toNat % 1024 = 0 ∧
      ∀ y ∈ pieces (c.pair 2 false) 16384, sharedRig.catchable c y.1 = true ∧
        ∀ code, sharedRig.resolve c.cx c.launch.ver c.team.id c.tray? .engineWrite y.1 ≠ .fault code :=
  (some_of (fun c => c.launch.ver = 0 ∧ c.val (.imm 5) c.low ≠ 0 ∧ (c.pair 2 false).toNat / 2 ^ 56 = 0 ∧
      (c.pair 2 false).toNat % 1024 = 0 ∧ (pieces (c.pair 2 false) 16384).all (fun y => sharedRig.catchable c y.1 &&
        match sharedRig.resolve c.cx c.launch.ver c.team.id c.tray? .engineWrite y.1 with | .fault _ => false | _ => true) = true)
      (by decide)).imp fun c h => ⟨h.1, h.2.1, path_of h.2.2.1, h.2.2.2.1, fun y hy => by
    have := List.all_eq_true.1 h.2.2.2.2 y hy
    simp only [Bool.and_eq_true] at this
    refine ⟨this.1, fun code hc => ?_⟩
    rw [hc] at this
    exact Bool.noConfusion this.2⟩

/-- A valid descriptor of FP16 rows of 32 elements, with a sink of 1 and a window of 16 positions and 18 positions. -/
def kvRig : State := dataRig 0x10000 0 0
  ([0, 0, 0, 0, 0, 0, 32, 0, 1, 0, 0, 0, 16, 0, 0, 0] ++ List.replicate 40 0 ++ [1, 0, 1, 0, 18, 0, 0, 0])

set_option maxRecDepth 20000 in
theorem witness_kv :
    Some kvRig { Pfx.empty with imm := some 17 } 8 { srcs := [.reg 2 2 false .int, .imm 17], dsts := [(4, 1)] } (fun c =>
      ∀ x ∈ maskSlots c.act, (c.val64 (.reg 2 2 false .int) x).toNat % 128 = 0 ∧ AtHand kvRig c [(c.val64 (.reg 2 2 false .int) x, 128)] ∧
        (KvDesc.of (bytesAt kvRig c (c.val64 (.reg 2 2 false .int) x) 128)).valid = true ∧
        (KvDesc.of (bytesAt kvRig c (c.val64 (.reg 2 2 false .int) x) 128)).len = 18) ∧
    Some kvRig { Pfx.empty with imm := some 17 } 8
      (askToken (.reg 2 2 false .int :: .imm 17 :: blockSrcs ((64 : BitVec 7) + 1) 3 false) 64) (fun c => kvRig.cap 4 = true ∧
        (c.pair 2 false).toNat % 128 = 0 ∧ (dword (c.blockWord 65 3 false 0) (c.blockWord 65 3 false 1)).toNat % 64 = 0) :=
  ⟨(some_of (fun c => ∀ x ∈ maskSlots c.act, (c.val64 (.reg 2 2 false .int) x).toNat % 128 = 0 ∧
        atHandB kvRig c [(c.val64 (.reg 2 2 false .int) x, 128)] = true ∧
        (KvDesc.of (bytesAt kvRig c (c.val64 (.reg 2 2 false .int) x) 128)).valid = true ∧
        (KvDesc.of (bytesAt kvRig c (c.val64 (.reg 2 2 false .int) x) 128)).len = 18) (by decide)).imp
      fun c h x hx => ⟨(h x hx).1, at_hand_of (h x hx).2.1, (h x hx).2.2⟩,
   some_of _ (by decide)⟩

set_option maxRecDepth 20000 in
/-- A descriptor of E4M3 rows on a device without KVDEC, and one of FP16 rows there. -/
theorem witness_no_kvdec (n : Nat) (h : n = 0 ∨ n = 1) :
    let s : State := { dataRig 0x10000 0 4 [BitVec.ofNat 8 n] with variant := .lite }
    Some s { Pfx.empty with imm := some 17 } 8 (askToken (.reg 2 2 false .int :: .imm 17 :: blockSrcs ((64 : BitVec 7) + 1) 3 false) 64) (fun c =>
      (c.pair 2 false).toNat % 128 = 0 ∧ AtHand s c [(c.pair 2 false + 4, 2)] ∧
        fieldAt (bytesAt s c (c.pair 2 false + 4) 2) 0 2 % 4 = n) ∧ s.cap 4 = false ∧ ∀ c, NothingPulled s c := by
  obtain rfl | rfl := h
  · exact ⟨(some_of (fun c => (c.pair 2 false).toNat % 128 = 0 ∧
      atHandB { dataRig 0x10000 0 4 [BitVec.ofNat 8 0] with variant := .lite } c [(c.pair 2 false + 4, 2)] = true ∧
      fieldAt (bytesAt { dataRig 0x10000 0 4 [BitVec.ofNat 8 0] with variant := .lite } c (c.pair 2 false + 4) 2) 0 2 % 4 = 0) (by decide)).imp
      fun c h => ⟨h.1, at_hand_of h.2.1, h.2.2⟩, by decide, fun _ _ h => absurd h List.not_mem_nil⟩
  · exact ⟨(some_of (fun c => (c.pair 2 false).toNat % 128 = 0 ∧
      atHandB { dataRig 0x10000 0 4 [BitVec.ofNat 8 1] with variant := .lite } c [(c.pair 2 false + 4, 2)] = true ∧
      fieldAt (bytesAt { dataRig 0x10000 0 4 [BitVec.ofNat 8 1] with variant := .lite } c (c.pair 2 false + 4) 2) 0 2 % 4 = 1) (by decide)).imp
      fun c h => ⟨h.1, at_hand_of h.2.1, h.2.2⟩, by decide, fun _ _ h => absurd h List.not_mem_nil⟩

theorem witness_softmax : Each rig
    [(Pfx.empty, 4, { srcs := [.reg 1 1 false .f32, .reg 4 1 false .f32, .reg (4 + 1) 1 false .f32], dsts := [(4, 4)] }),
     (Pfx.empty, 4, { srcs := [.reg 1 1 false .f32, .reg 2 1 false .f32], dsts := [(4, 1)], preds := [7] })] := each_of (by decide)

/-- A sample record of one logit at 0x10100. -/
def sampleRig : State := dataRig 0x10000 0 0 [0, 1, 1, 0, 0, 0, 0, 0, 1]

/-- A verify record of no drafts and a sample record of one logit, without tables. -/
theorem witness_decoding :
    Some (dataRig 0x10000 0 0 []) Pfx.empty 4 { srcs := [.reg 2 2 false .int, .reg 4 1 false .int], dsts := [(6, 1)] } (fun c =>
      ∀ x ∈ maskSlots c.act, (c.val64 (.reg 2 2 false .int) x).toNat % 16 = 0 ∧
        AtHand (dataRig 0x10000 0 0 []) c [(c.val64 (.reg 2 2 false .int) x, 160)] ∧
        BitVec.ofNat 64 (fieldAt (bytesAt (dataRig 0x10000 0 0 []) c (c.val64 (.reg 2 2 false .int) x) 160) 8 8) = 0) ∧
    Some sampleRig Pfx.empty 4 { srcs := [.reg 2 2 false .int, .reg 4 1 false .int], dsts := [(6, 1)] } fun c =>
      ∀ x ∈ maskSlots c.act, AtHand sampleRig c [(c.val64 (.reg 2 2 false .int) x, 64)] ∧
        BitVec.ofNat 64 (fieldAt (bytesAt sampleRig c (c.val64 (.reg 2 2 false .int) x) 64) 0x20 8) = 0 ∧
        logitBytes (bytesAt sampleRig c (c.val64 (.reg 2 2 false .int) x) 64) = 4 ∧
        (BitVec.ofNat 64 (fieldAt (bytesAt sampleRig c (c.val64 (.reg 2 2 false .int) x) 64) 0 8)).toNat % 4 = 0 ∧
        AtHand sampleRig c [(BitVec.ofNat 64 (fieldAt (bytesAt sampleRig c (c.val64 (.reg 2 2 false .int) x) 64) 0 8), 4)] :=
  ⟨(some_of (fun c => ∀ x ∈ maskSlots c.act, (c.val64 (.reg 2 2 false .int) x).toNat % 16 = 0 ∧
        atHandB (dataRig 0x10000 0 0 []) c [(c.val64 (.reg 2 2 false .int) x, 160)] = true ∧
        BitVec.ofNat 64 (fieldAt (bytesAt (dataRig 0x10000 0 0 []) c (c.val64 (.reg 2 2 false .int) x) 160) 8 8) = 0) (by decide)).imp
      fun c h x hx => ⟨(h x hx).1, at_hand_of (h x hx).2.1, (h x hx).2.2⟩,
   (some_of (fun c => ∀ x ∈ maskSlots c.act, atHandB sampleRig c [(c.val64 (.reg 2 2 false .int) x, 64)] = true ∧
        BitVec.ofNat 64 (fieldAt (bytesAt sampleRig c (c.val64 (.reg 2 2 false .int) x) 64) 0x20 8) = 0 ∧
        (fieldAt (bytesAt sampleRig c (c.val64 (.reg 2 2 false .int) x) 64) 8 4 = 1 ∧
          fieldAt (bytesAt sampleRig c (c.val64 (.reg 2 2 false .int) x) 64) 0xC 4 = 0) ∧
        (BitVec.ofNat 64 (fieldAt (bytesAt sampleRig c (c.val64 (.reg 2 2 false .int) x) 64) 0 8)).toNat % 4 = 0 ∧
        atHandB sampleRig c [(BitVec.ofNat 64 (fieldAt (bytesAt sampleRig c (c.val64 (.reg 2 2 false .int) x) 64) 0 8), 4)] = true)
      (by decide)).imp fun c h x hx => by
    obtain ⟨h1, h2, ⟨h3, h3'⟩, h4, h5⟩ := h x hx
    exact ⟨at_hand_of h1, h2, by unfold logitBytes; rw [h3, h3']; rfl, h4, at_hand_of h5⟩⟩

/-- A verify record with a constraint table behind it. -/
def tableRig : State := dataRig 0x10000 0 0 ([0, 0, 0, 0, 0, 0, 0, 0, 0, 1, 1] ++ List.replicate 245 0 ++ [0, 0, 0, 0, 1])

set_option maxRecDepth 20000 in
/-- The table of a verify record may be read and written; it forces one token. -/
theorem witness_table : tableRig.Whole ∧
    Some tableRig Pfx.empty 4 { srcs := [.reg 2 2 false .int, .reg 4 1 false .int], dsts := [(6, 1)] } fun c =>
      ∀ x ∈ maskSlots c.act,
        let tab := BitVec.ofNat 64 (fieldAt (bytesAt tableRig c (c.val64 (.reg 2 2 false .int) x) 160) 8 8)
        AtHand tableRig c [(c.val64 (.reg 2 2 false .int) x, 160), (tab, 4384)] ∧ tab = 0x10100 ∧ tab.toNat % 64 = 0 ∧
          c.accessCause tableRig .write 1 tab = none ∧ (tab + 6).toNat % 64 = 6 ∧
          tableRig.resolve c.cx c.launch.ver c.team.id c.tray? .write (tab + 6) = .ok (.hbm 0x1030106) (leafAttr 0x1030107) :=
  ⟨whole_of (by decide),
   (some_of (fun c => ∀ x ∈ maskSlots c.act,
        let tab := BitVec.ofNat 64 (fieldAt (bytesAt tableRig c (c.val64 (.reg 2 2 false .int) x) 160) 8 8)
        atHandB tableRig c [(c.val64 (.reg 2 2 false .int) x, 160), (tab, 4384)] = true ∧ tab = 0x10100 ∧ tab.toNat % 64 = 0 ∧
          c.accessCause tableRig .write 1 tab = none ∧ (tab + 6).toNat % 64 = 6 ∧
          tableRig.resolve c.cx c.launch.ver c.team.id c.tray? .write (tab + 6) = .ok (.hbm 0x1030106) (leafAttr 0x1030107))
      (by decide)).imp fun c h x hx => ⟨at_hand_of (h x hx).1, (h x hx).2⟩⟩

/-- A launch record: tray code at 0x10000, two levels, one tray. -/
def launchRig (vs : List Version) : State :=
  let s := dataRig 0x10040 0 0x40 ([0, 0, 1, 0, 0, 0, 0, 0] ++ List.replicate 8 0 ++ [2] ++ List.replicate 63 0 ++
    [32, 0, 0, 0, 0, 0, 0, 0, 1, 0, 0, 0, 1])
  { s with
    ctxs := s.ctxs.map fun cx => { cx with versions := vs }
    pkg := { s.pkg with parts := s.pkg.parts.map fun p => { p with l2q := 1 } } }

set_option maxRecDepth 20000 in
theorem witness_launch : Some (launchRig []) Pfx.empty 4 { srcs := [.reg 2 2 false .int], dsts := [(64, 2)], once := true } fun c =>
    Submittable (launchRig []) c c.cx c.launch.ver (c.pair 2 false) :=
  (some_of (fun c => (c.pair 2 false).toNat % 64 = 0 ∧ atHandB (launchRig []) c [(c.pair 2 false, 192)] = true ∧
      (launchRig []).refusal c.cx c.launch.ver (LaunchRec.of (bytesAt (launchRig []) c (c.pair 2 false) 192)) = none ∧
      (launchRig []).sched.pifo.length < 4096) (by decide)).imp fun c h => ⟨h.1, at_hand_of h.2.1, h.2.2⟩

set_option maxRecDepth 20000 in
theorem witness_launchs :
    Some (launchRig []) Pfx.empty 4 { srcs := [.reg 2 2 false .int, .reg 4 2 false .int], dsts := [(64, 4)], once := true } (fun c =>
      c.front = false ∧ c.cx.freeVer = some 1 ∧ c.launchsCause (launchRig []) (c.pair 2 false) = none ∧
      Submittable (launchRig []) c (c.cx.addVer 1 c.launch.ver) 1 (c.pair 2 false) ∧
      ∃ l a, (launchRig []).resolve (c.cx.addVer 1 c.launch.ver) 1 c.team.id c.tray? .write (c.pair 2 false + 0x28) = .ok l a ∧
        a.vers = true ∧ l = .hbm 0x1030068) ∧ (launchRig []).Whole := by
  refine ⟨(some_of (fun c => c.front = false ∧ c.cx.freeVer = some 1 ∧ c.launchsCause (launchRig []) (c.pair 2 false) = none ∧
      ((c.pair 2 false).toNat % 64 = 0 ∧ atHandB (launchRig []) c [(c.pair 2 false, 192)] = true ∧
        (launchRig []).refusal (c.cx.addVer 1 c.launch.ver) 1 (LaunchRec.of (bytesAt (launchRig []) c (c.pair 2 false) 192)) = none ∧
        (launchRig []).sched.pifo.length < 4096) ∧
      (match (launchRig []).resolve (c.cx.addVer 1 c.launch.ver) 1 c.team.id c.tray? .write (c.pair 2 false + 0x28) with
        | .ok l a => a.vers && l == .hbm 0x1030068 | _ => false) = true) (by decide)).imp fun c h => ?_, whole_of (by decide)⟩
  obtain ⟨h1, h2, h3, ⟨h4, h5, h6, h7⟩, h8⟩ := h
  refine ⟨h1, h2, h3, ⟨h4, at_hand_of h5, h6, h7⟩, ?_⟩
  split at h8
  · rename_i l a hr
    simp only [Bool.and_eq_true, beq_iff_eq] at h8
    exact ⟨l, a, hr, h8⟩
  · cases h8

/-- A live version of incarnation 1. -/
def live (loc parent : Nat) : Version := { loc := loc, inc := 1, state := .live, parent := parent, frees := [], told := [], ended := [] }

set_option maxRecDepth 20000 in
/-- RESOLVE and SQUASH of version 1, a child of version 0, with and without a sibling, and of a number that is none. -/
theorem witness_versions (vs : List Version) (h : vs = [live 1 0] ∨ vs = [live 1 0, live 2 0]) :
    Some (launchRig vs) { Pfx.empty with imm := some 0x41 } 8 { srcs := [.imm 0x41], once := true } (fun c =>
      c.cx.liveVer (launchRig vs).devNo (BitVec.ofNat 16 (c.val (.imm 0x41) c.low).toNat) = some (live 1 0) ∧
      (live 1 0).parent = c.launch.ver ∧ (live 1 0).loc ≠ c.launch.ver ∧ c.launch.ver ∈ c.cx.chain (live 1 0).loc ∧
      (c.cx.versions.filter fun r => r.state == .live && r.parent == 0 && r.loc != 1) = vs.drop 1 ∧
      (∀ l ∈ (launchRig vs).launches, l.ver = 0) ∧ (launchRig vs).cmds = [] ∧ (launchRig vs).peers = [] ∧ (launchRig vs).prods = [] ∧
      (launchRig vs).fab.notices = [] ∧
      ∀ r ∈ c.cx.versions, r.ended = [] ∧ r.told = []) ∧
    Some rig { Pfx.empty with imm := some 0x41 } 8 { srcs := [.imm 0x41], once := true } (fun c => c.clears = false ∧
      c.cx.liveVer rig.devNo (BitVec.ofNat 16 (c.val (.imm 0x41) c.low).toNat) = none) ∧ (launchRig vs).Whole := by
  obtain rfl | rfl := h <;> exact ⟨some_of _ (by decide), some_of _ (by decide), whole_of (by decide)⟩

/-- A producer of the thread's v1. -/
def prodOf (kind : ProdKind) : Producer :=
  { id := 9, owner := .tray 1, kind := kind, pc := 0x10000, size := 4, mask := 1, writes := [{ reg := .base 0 1, val := 7, hi := 0 }],
    marks := [.base 0 1], bad := [], tags := [], adv := [], clear := none,
    acquire := none }

/-- A state that an event about object 9 finds. -/
def eventRig (pr : List Producer) (err : Option Nat) : State := { rig with prods := pr, input := { Input.blank with id := 9, err := err } }

theorem witness_fills (k : ProdKind) :
    (eventRig [prodOf k] none).prods.find? (fun y => y.id == (eventRig [prodOf k] none).input.id) = some (prodOf k) ∧
      (prodOf k).tags = [] ∧ (eventRig [prodOf k] none).awaits (prodOf k).owner 9 = false ∧
      (∀ w ∈ (prodOf k).writes, (eventRig [prodOf k] none).has (prodOf k).owner w.reg = true) ∧
      (eventRig [prodOf .load] (some 3)).input.err = some 3 ∧ (eventRig [prodOf .load] (some 3)).input.flag = false ∧
      ∃ x ∈ (eventRig [prodOf .load] (some 3)).ownerCtx (prodOf .load).owner,
        (eventRig [prodOf .load] (some 3)).ctx? x.2.2.id = some x.2.2 ∧ x.2.2.stopped = false := by
  cases k <;> exact ⟨rfl, rfl, by decide, by decide, rfl, rfl, _, rfl, rfl, rfl⟩

/-- The thread waits, in an event about it. -/
def waitRig (w : Wait) (time : Nat) : State :=
  { dataRig 0 0 0 [1] with
    trays := (dataRig 0 0 0 [1]).trays.map fun tr => { tr with frontier := tr.frontier.map fun e => { e with wait := w } }
    input := { Input.blank with agent := .tray 1 0 }
    timeU := time * 2162160 }

/-- A watch of the word 1 for a value. -/
def watch (cmp : Word) : Watch := { slot := 0, loc := .hbm 0x1030000, va := 0x10000, cmp := cmp, regs := [.base 0 1], tag := 0, got := none }

/-- A waiting WAITNE at a time. -/
def waitneRig (cmp : Word) (time : Nat) : State := waitRig (.waitne 0 4 [watch cmp] [] none) time

/-- A wait for the object at 0x10000 to reach 1. -/
def acqWait : Wait := .acq (.hbm 0x1030000) 1 4 0 0x10000 3 1

/-- WAITT at its value, ACQ at its target, WAITNE with a word that differs and, at the boundary of its time, with one that does
not. -/
theorem witness_wakes :
    ((waitRig (.waitt 5 4) 5).waitOf (.tray 1 0) = .waitt 5 4 ∧ (5 : DWord).toInt ≤ (waitRig (.waitt 5 4) 5).time) ∧
    ((waitRig acqWait 0).waitOf (.tray 1 0) = acqWait ∧
      ∃ x ∈ (waitRig acqWait 0).ownerCtx (.tray 1), (BitVec.ofNat 64 (leNat ((waitRig acqWait 0).seen (x.2.2.keys x.2.1.ver) (.hbm 0x1030000) 8)) - 1).toNat < 2 ^ 63) ∧
    ((waitneRig 0 0).waitOf (.tray 1 0) = .waitne 0 4 [watch 0] [] none ∧
      (∀ r ∈ (watch 0).regs, (waitneRig 0 0).has (.tray 1) r = true) ∧
      ∃ x ∈ (waitneRig 0 0).ownerCtx (.tray 1),
        Machine.wordOf (waitneRig 0 0) x.2.2 x.2.1.ver (watch 0) ≠ (watch 0).cmp) ∧
    ((waitneRig 1 65536).waitOf (.tray 1 0) = .waitne 0 4 [watch 1] [] none ∧
      0 + 65536 ≤ (waitneRig 1 65536).time) :=
  ⟨⟨rfl, by decide⟩, ⟨rfl, _, rfl, by decide⟩, ⟨rfl, by decide, _, rfl, by decide⟩, rfl, by decide⟩

/-- The tray with frames, in an event about it and frame 7. -/
def frameRig (g : Tray → Tray) : State :=
  { rig with trays := rig.trays.map g, input := { Input.blank with id := 1, n := 7 } }

/-- Frame 7 of 16 registers in a state of its spill. -/
def frame7 (held : Bool) (sp : Spill) : Frame := { oneFrame with uid := 7, size := 16, held := held, spill := sp }

theorem witness_frames :
    (∃ tr ∈ (frameRig fun tr => { tr with frames := [frame7 false .pending] }).tray? 1,
      tr.frames.find? (fun g => g.uid == 7 && g.spill == .pending) = some (frame7 false .pending) ∧
      ((frameRig fun tr => { tr with frames := [frame7 false .pending] }).around tr.team).isSome = true) ∧
    (∃ tr ∈ (frameRig fun tr => { tr with frames := [frame7 true .written] }).tray? 1,
      tr.frames.find? (fun g => g.uid == 7 && g.held && g.spill == .written) = some (frame7 true .written) ∧ tr.remap[(0 : Fin 32)] = some 0) ∧
    (∃ tr ∈ (frameRig fun tr => { tr with frames := [frame7 true .none] }).tray? 1,
      tr.frames = frame7 true .none :: [] ∧ tr.lapsed = false ∧
        stillCalled { tr with frontier := [{ pc := 0, prio := 0, mask := 1, depth := 1, loops := [], wait := .ret, skip := 0 }] } (frame7 true .none) &&&
          ~~~returned { tr with frontier := [{ pc := 0, prio := 0, mask := 1, depth := 1, loops := [], wait := .ret, skip := 0 }] } = 0) ∧
    (∃ tr ∈ ({ frameRig id with clk := 4096 } : State).tray? 1, tr.lapsed = false ∧ tr.fairClk + 4096 ≤ 4096) :=
  ⟨⟨_, rfl, by decide, by decide⟩, ⟨_, rfl, by decide, by decide⟩, ⟨_, rfl, by decide, by decide, by decide⟩, _, rfl, by decide, by decide⟩

/-- A wait for pool space that fits: the fill of frame 7, and a CALL's frame. -/
theorem witness_pool :
    (let s := { frameRig (fun tr => { tr with frames := [frame7 false .written], frontier := tr.frontier.map fun e => { e with depth := 1, wait := .pool 3 (.fill 7) } }) with
        input := { Input.blank with id := 0, n := 0 } }
     servedFirst s = some (1, 0, .fill 7, []) ∧ (s.tray? 1).isSome = true) ∧
    (let s := { frameRig (fun tr => { tr with frontier := tr.frontier.map fun e => { e with wait := .pool 3 (.frame 16) } }) with
        input := { Input.blank with id := 0, n := 0 } }
     servedFirst s = some (1, 0, .frame 16, [])) := ⟨⟨by decide, rfl⟩, by decide⟩

/-- A spawned thread of the team, its record written or not. -/
def spawn (id : Nat) (written : Bool) : Spawn :=
  { id := id, tid := id, tray := 1, slot := 1, live := 1, pc := 0x10000, prio := 0, preds := 1, curs := Vector.replicate 8 0, off := 0, written := written,
    image := [], since := 0 }

/-- The team with spawned threads, in an event about object 1 and group (1, 0x10000, 0). -/
def spawnRig (sps : List Spawn) (clk : Nat) : State :=
  { rig with
    teams := rig.teams.map fun tm => { tm with spawns := sps }
    input := { Input.blank with id := 1, n := 5, group := { team := 1, pc := 0x10000, prio := 0 }, barrier := { launch := 1, level := 1, unit := 0 } }
    clk := clk }

theorem witness_spawns :
    (∃ tm ∈ (spawnRig [spawn 1 false] 0).team? 1, spawn 1 false ∈ tm.spawns ∧ (spawn 1 false).written = false ∧
      (∀ tm' ∈ (spawnRig [spawn 1 false] 0).teams, ∀ x ∈ tm'.spawns, x.id = 1 → tm' = tm ∧ x = spawn 1 false) ∧
      (∃ tr ∈ (spawnRig [spawn 1 false] 0).tray? (spawn 1 false).tray, tr.frontier ≠ [] ∧
        ∀ n : Fin 32, n.val < 1 → (tr.base[(spawn 1 false).slot][n]).full = true)) ∧
    (spawnRig [spawn 1 false] 0).Whole ∧
    (∃ tm ∈ (spawnRig [spawn 1 true] 2048).team? 1, ∃ l ∈ (spawnRig [spawn 1 true] 2048).launch? tm.launch,
      spawn 1 true ∈ waitingIn tm (spawnRig [spawn 1 true] 2048).input.group ∧ (spawn 1 true).since + l.formerTimeout ≤ 2048) ∧
    (∃ tm ∈ (spawnRig (List.replicate 32 (spawn 1 true)) 0).team? 1,
      32 ≤ (waitingIn tm (spawnRig (List.replicate 32 (spawn 1 true)) 0).input.group).length) := by
  refine ⟨⟨_, rfl, List.mem_singleton.2 rfl, rfl, ?_, _, rfl, by decide, by decide⟩, whole_of (by decide),
    ⟨_, rfl, _, rfl, by decide, by decide⟩, _, rfl, by decide⟩
  intro tm' h x hx _
  obtain rfl := List.mem_singleton.1 h
  exact ⟨rfl, List.mem_singleton.1 hx⟩

/-- A formed tray to bind whose record is as it was written, a barrier that every member has reached. -/
theorem witness_forms :
    (let sp : Spawn := { spawn 1 true with image := List.replicate (spawnSize 1) 0 }
     let s : State := { spawnRig [] 0 with teams := rig.teams.map fun tm => { tm with formed := [{ id := 5, spawns := [sp] }] } }
     ∃ x ∈ s.around 1, x.1.formed.find? (fun y => y.id == 5) = some { id := 5, spawns := [sp] } ∧ s.laneFor x.2.1 x.1.bench 0 = some 0 ∧
      (∀ tr ∈ s.trays, ∀ e ∈ tr.frontier, e.wait = .none) ∧
      s.seen [] (.shared 1 (x.2.1.shmem - 8192 + sp.off)) (spawnSize sp.live) = sp.image) ∧
    (let s : State := { spawnRig [] 0 with trays := rig.trays.map fun tr => { tr with frontier := tr.frontier.map fun e => { e with wait := .meet 1 } } }
     ∃ l ∈ s.launch? 1, s.arrived l 1 0 = true ∧
      (∀ x ∈ s.barrierMembers l 1 0, ∀ tr ∈ s.tray? x.1, (tr.passed 1 x.2).length ≤ 6) ∧
      ∃ tr ∈ s.tray? 1, tr.landed = none ∧ (1, 0) ∉ tr.excused ∧ ∃ e ∈ tr.frontier, e.wait = .meet 1) :=
  ⟨⟨_, rfl, by decide, by decide, by decide, by decide⟩, _, rfl, by decide, by decide, _, rfl, by decide⟩

/-- A tray in MIGRATE: to its team's die from die 1, and away. -/
theorem witness_ships :
    (let s : State := { spawnRig [] 0 with trays := rig.trays.map fun tr => { tr with bench := 48, landed := some 0, frontier := tr.frontier.map fun e => { e with wait := .migrate 0 } } }
     ∃ tr ∈ s.tray? 1, tr.frontier.findSome? (fun e => match e.wait with | .migrate d => some d | _ => none) = some 0 ∧
      ∃ x ∈ s.around tr.team, s.trayBusy tr.id = false ∧ 0 = x.1.bench / 48 ∧ s.laneFor x.2.1 x.1.bench tr.used = some 0) ∧
    (let s : State := { spawnRig [] 0 with trays := rig.trays.map fun tr => { tr with frontier := tr.frontier.map fun e => { e with wait := .migrate 1 } } }
     ∃ tr ∈ s.tray? 1, tr.frontier.findSome? (fun e => match e.wait with | .migrate d => some d | _ => none) = some 1 ∧
      ∃ x ∈ s.around tr.team, s.trayBusy tr.id = false ∧ 1 ≠ x.1.bench / 48 ∧ (48, 0) ∈ s.landingSlots 1) :=
  ⟨⟨_, rfl, by decide, _, rfl, by decide, by decide, by decide⟩, _, rfl, by decide, _, rfl, by decide, by decide, by decide⟩

/-- A command of the thread. -/
def cmdOf (op : CmdOp) : Cmd :=
  { id := 5, die := 0, bench := 0, seq := some 1, prevSeq := 0, ctx := 1, ver := 0, launch := 1, team := 1, teamno := 0, owner := .tray 1, pc := 0x10000,
    token := .s 0, prio := 0, op := op, state := .queued, steps := 0, data := [], swz := 0, gen := 0, tags := [], got := [], since := 0,
    met := 0, chained := false, may := none }

/-- A command in an event about it; team shared memory holds some bytes. -/
def cmdRig (k : Cmd) (bytes : List Byte) : State :=
  { rig with
    cmds := [k]
    input := { Input.blank with id := 5 }
    launches := rig.launches.map fun l => { l with shmem := 16384 }
    teams := rig.teams.map fun tm => { tm with shared := { bytes := Memory.writeN [] 0 bytes, valid := [0, 1], tags := [] } } }

/-- The context of the rigs. -/
def cx0 : Context := (rig.ctx? 1).get (by decide)

/-- A held cause of the thread's command, in a context whose handler stands at the thread's landing point. -/
theorem witness_engine_trap :
    let k : Cmd := { cmdOf (.alight 1) with state := .held 9 0 0 false }
    let s : State := { landRig id with cmds := [k], input := { Input.blank with id := 5 } }
    s.cmd? 5 = some k ∧ (∃ tr ∈ s.tray? 1, tr.trap = none) ∧ (s.ctx? k.ctx).isSome = true ∧
      ∃ c, s.trayCtx 1 0 Pfx.empty 0 = some c ∧ c.cx.trapPc ≠ 0 ∧ landsAt s c c.cx.trapPc := by
  simp only [lands_iff]
  exact ⟨rfl, ⟨_, rfl, rfl⟩, by decide, _, rfl, by decide, by decide⟩

/-- Ranges that a command can read, checked. -/
def engReadsB (s : State) (cx : Context) (k : Cmd) (va : DWord) (n : Nat) : Bool :=
  (pieces va n).all fun y => match s.engResolve cx k .read y.1 with
    | .ok l _ => localB [{ slot := 0, loc := l, attr := Attr.team, va := 0 }]
    | _ => false

theorem eng_reads_of {s : State} {cx : Context} {k : Cmd} {va : DWord} {n : Nat} (h : engReadsB s cx k va n = true) : EngReads s cx k va n := by
  intro y hy
  have := List.all_eq_true.1 h y hy
  split at this
  · rename_i l a hr
    exact ⟨l, a, hr, fun d o he => local_of this _ (List.mem_singleton.2 rfl) d o he⟩
  · cases this

/-- An address in team shared memory of 16 KiB. -/
def inShared (va : DWord) : Prop := va.toNat / 2 ^ 48 = 0xF0 ∧ va.toNat % 2 ^ 48 < 16384

/-- Shared memory resolves without a translation table. -/
theorem resolves_shared {s : State} {cx : Context} {ver team id : Nat} {tr : Tray} {tm : Team} {l : Launch} {acc : Access} {va : DWord}
    (h : inShared va) (h1 : s.tray? id = some tr) (h2 : tr.landed = none) (h3 : s.team? team = some tm)
    (h4 : s.launch? tm.launch = some l) (h5 : l.shmem = 16384) (ha : acc ≠ .fetch) :
    s.resolve cx ver team (some id) acc va = .ok (.shared team (va.toNat % 2 ^ 48)) Attr.team := by
  have h0 := h.1
  have g1 : va.toNat / 2 ^ 57 = 0 := by have := va.isLt; omega
  have g2 : va.toNat / 2 ^ 56 = 0 := by omega
  have g3 : va.toNat % 2 ^ 48 < 16384 := h.2
  have g4 : (acc == Access.fetch) = false := by simpa using ha
  unfold State.resolve
  simp only [h0, g1, g2, h1, h2, h3, h4, h5, g3, g4]
  rfl

/-- What a command writes into shared memory can be written. -/
theorem shared_writes_in {s : State} {cx : Context} {k : Cmd} {tr : Tray} {tm : Team} {l : Launch} {ws : List (DWord × List Byte)}
    (hx : k.keys cx = []) (hk : k.team = 1 ∧ k.owner = .tray 1) (h1 : s.tray? 1 = some tr) (h2 : tr.landed = none) (h3 : s.team? 1 = some tm)
    (h4 : s.launch? tm.launch = some l) (h5 : l.shmem = 16384) (h : ∀ w ∈ ws, ∀ y ∈ pieces w.1 w.2.length, inShared y.1) :
    EngWrites s cx k ws := by
  have ht : k.tray? = some 1 := by simp [Cmd.tray?, hk.2]
  have hr (m : Memory) (cs : List LineCopy) (acc : Access) (va : DWord) (hv : inShared va) (ha : acc ≠ .fetch) :
      ({ s with mem := m, copies := cs } : State).engResolve cx k acc va = .ok (.shared 1 (va.toNat % 2 ^ 48)) Attr.team := by
    unfold State.engResolve
    rw [hk.1, ht]
    exact resolves_shared (s := { s with mem := m, copies := cs }) hv h1 h2 h3 h4 h5 ha
  have hf (m : Memory) (cs : List LineCopy) (va : DWord) (hv : inShared va) :
      ({ s with mem := m, copies := cs } : State).engResolve cx k .fetch va = .fault 0x0A := by
    have h0 := hv.1
    have g1 : va.toNat / 2 ^ 57 = 0 := by have := va.isLt; omega
    have g2 : va.toNat / 2 ^ 56 = 0 := by omega
    unfold State.engResolve State.resolve
    simp only [h0, g1, g2]
    rfl
  refine ⟨fun w hw y hy => ⟨_, _, hr s.mem s.copies .engineWrite y.1 (h w hw y hy) (by simp), by simp, rfl⟩, ?_, fun m _ acc va hva => ?_⟩
  · simp [hx, State.lineless, State.newLines]
  · obtain ⟨w, hw, hy'⟩ := List.mem_flatMap.1 hva
    obtain ⟨y, hy, rfl⟩ := List.mem_map.1 hy'
    by_cases ha : acc = .fetch
    · subst ha
      exact (hf m [] y.1 (h w hw y hy)).trans (hf s.mem s.copies y.1 (h w hw y hy)).symm
    · exact (hr m [] acc y.1 (h w hw y hy) ha).trans (hr s.mem s.copies acc y.1 (h w hw y hy) ha).symm

theorem shared_writes {s : State} {k : Cmd} {tr : Tray} {tm : Team} {l : Launch} {ws : List (DWord × List Byte)}
    (hk : k.team = 1 ∧ k.owner = .tray 1 ∧ k.ver = 0) (h1 : s.tray? 1 = some tr) (h2 : tr.landed = none) (h3 : s.team? 1 = some tm)
    (h4 : s.launch? tm.launch = some l) (h5 : l.shmem = 16384) (h : ∀ w ∈ ws, ∀ y ∈ pieces w.1 w.2.length, inShared y.1) :
    EngWrites s cx0 k ws :=
  shared_writes_in (by unfold Cmd.keys; rw [hk.2.2]; decide) ⟨hk.1, hk.2.1⟩ h1 h2 h3 h4 h5 h

/-- Address o of team shared memory. -/
def sh (o : Nat) : DWord := BitVec.ofNat 64 (0xF0 * 2 ^ 48 + o)

/-- What a list of writes needs to stay in shared memory, checked. -/
def inSharedB (ws : List (DWord × Nat)) : Bool :=
  ws.all fun w => (pieces w.1 w.2).all fun y => y.1.toNat / 2 ^ 48 == 0xF0 && decide (y.1.toNat % 2 ^ 48 < 16384)

theorem in_shared_of {ws : List (DWord × List Byte)} (h : inSharedB (ws.map fun w => (w.1, w.2.length)) = true) :
    ∀ w ∈ ws, ∀ y ∈ pieces w.1 w.2.length, inShared y.1 := by
  intro w hw y hy
  have := List.all_eq_true.1 (List.all_eq_true.1 h (w.1, w.2.length) (List.mem_map.2 ⟨w, hw, rfl⟩)) y hy
  simpa [inShared] using this

/-- A swizzled copy of one line, from offset 0 to offset 1,024. -/
def cpyCmd : Cmd := cmdOf (.cpy (sh 1024) (sh 0) 1 1024 0 0 1 false)

/-- Where the copy's source is read or written. -/
def cpyRigResolves (acc : Access) : Option (Loc × Attr) :=
  match (cmdRig cpyCmd []).engResolve cx0 cpyCmd acc (sh 0) with | .ok l a => some (l, a) | _ => none

set_option maxRecDepth 50000 in
theorem witness_cpy_done :
    Working (cmdRig cpyCmd [1, 2]) cpyCmd cx0 ∧ (cmdRig cpyCmd [1, 2]).Whole ∧
    (∀ r ∈ cpyRows (sh 1024) (sh 0) 1 1024 0 0, EngReads (cmdRig cpyCmd [1, 2]) cx0 cpyCmd r.src r.n) ∧
    EngWrites (cmdRig cpyCmd [1, 2]) cx0 cpyCmd (rowWrites (cmdRig cpyCmd [1, 2]) cx0 cpyCmd 1 (cpyRows (sh 1024) (sh 0) 1 1024 0 0)) ∧
    Apart (cpyRows (sh 1024) (sh 0) 1 1024 0 0) := by
  refine ⟨⟨rfl, rfl, rfl, fun _ => rfl, fun _ h => nomatch h⟩, whole_of (by decide), ?_, shared_writes ⟨rfl, rfl, rfl⟩ rfl rfl rfl rfl rfl (in_shared_of ?_), ?_⟩
  · intro r hr
    obtain rfl := List.mem_singleton.1 hr
    exact eng_reads_of (by decide)
  · have : (rowWrites (cmdRig cpyCmd [1, 2]) cx0 cpyCmd 1 (cpyRows (sh 1024) (sh 0) 1 1024 0 0)).map (fun w => (w.1, w.2.length)) =
        [(sh 1024 + 0, (engBytes (cmdRig cpyCmd [1, 2]) cx0 cpyCmd (sh 0) 1024).length)] := by
      simp [rowWrites, cpyRows, laid]
    rw [this]
    decide
  · intro r hr q hq i hi
    obtain rfl := List.mem_singleton.1 hr
    obtain rfl := List.mem_singleton.1 hq
    have hi : i < 1024 := hi
    simp [sh]
    omega

/-- A gather of one row of 16 bytes, whose list stands at offset 0 and names row 1 of a table there. -/
def gathCmd : Cmd := cmdOf (.gath (sh 4096) (sh 0) 16 1 16 0 false)

def gathRig : State := cmdRig gathCmd [0, 0, 0, 0, 0, 0, 0xF0, 0, 1]

theorem witness_gath_done :
    Working gathRig gathCmd cx0 ∧ gathRig.Whole ∧ EngReads gathRig cx0 gathCmd (sh 0) 12 ∧
    listRows (sh 4096) 16 1 16 (engBytes gathRig cx0 gathCmd (sh 0) 12) = [{ dst := sh 4096, src := sh 16, n := 16 }] ∧
    EngReads gathRig cx0 gathCmd (sh 16) 16 ∧ EngWrites gathRig cx0 gathCmd (rowWrites gathRig cx0 gathCmd 0 [{ dst := sh 4096, src := sh 16, n := 16 }]) ∧
    Apart [{ dst := sh 4096, src := sh 16, n := 16 }] := by
  refine ⟨⟨rfl, rfl, rfl, fun _ => rfl, fun _ h => nomatch h⟩, whole_of (by decide), eng_reads_of (by decide), by decide, eng_reads_of (by decide),
    shared_writes ⟨rfl, rfl, rfl⟩ rfl rfl rfl rfl rfl (in_shared_of (by decide)), ?_⟩
  intro r hr q hq i hi
  obtain rfl := List.mem_singleton.1 hr
  obtain rfl := List.mem_singleton.1 hq
  have hi : i < 16 := hi
  simp [sh]
  omega

/-- A copy of CPYT of 32 bytes and the token of its tag, with one copy left and with none. -/
def tagRig (op : CmdOp) (left : Nat) : State :=
  { cmdRig (cmdOf op) [1] with epochs := [{ tray := 1, tag := 3, epoch := 0, left := left, bytes := 0, cause := 0, cancelled := false, copies := [] }] }

theorem witness_cpyt_done :
    Working (tagRig (.cpyt (sh 32) (sh 0) 32 0 3 0) 1) (cmdOf (.cpyt (sh 32) (sh 0) 32 0 3 0)) cx0 ∧
    (tagRig (.cpyt (sh 32) (sh 0) 32 0 3 0) 1).Whole ∧
    (∃ e, (tagRig (.cpyt (sh 32) (sh 0) 32 0 3 0) 1).epochs.find? (fun x => x.tray == 1 && x.tag == 3 && x.epoch == 0) = some e) ∧
    EngReads (tagRig (.cpyt (sh 32) (sh 0) 32 0 3 0) 1) cx0 (cmdOf (.cpyt (sh 32) (sh 0) 32 0 3 0)) (sh 0) 32 ∧
    EngWrites (tagRig (.cpyt (sh 32) (sh 0) 32 0 3 0) 1) cx0 (cmdOf (.cpyt (sh 32) (sh 0) 32 0 3 0))
      [(sh 32, engBytes (tagRig (.cpyt (sh 32) (sh 0) 32 0 3 0) 1) cx0 (cmdOf (.cpyt (sh 32) (sh 0) 32 0 3 0)) (sh 0) 32 ++ List.replicate 0 0)] ∧
    Working (tagRig (.ctag 3 0) 0) (cmdOf (.ctag 3 0)) cx0 ∧
    (∃ e, (tagRig (.ctag 3 0) 0).epochs.find? (fun x => x.tray == 1 && x.tag == 3 && x.epoch == 0) = some e ∧ e.left = 0) :=
  ⟨⟨rfl, rfl, rfl, fun _ => rfl, fun _ h => nomatch h⟩, whole_of (by decide), ⟨_, rfl⟩, eng_reads_of (by decide),
    shared_writes ⟨rfl, rfl, rfl⟩ rfl rfl rfl rfl rfl (in_shared_of (by decide)), ⟨rfl, rfl, rfl, fun _ => rfl, fun _ h => nomatch h⟩, _, rfl, rfl⟩

/-- A shadow sector of key 0x40, with a store to its byte 5 since. -/
def pubCmd : Cmd := cmdOf (.publish 0x40 [])

def pubRig : State :=
  { cmdRig pubCmd [] with
    shadows := [
      { ctx := 1, ver := 0, key := 0x40, cmd := 4, va := sh 128, loc := .shared 1 128, bytes := List.replicate 128 1,
        written := [5], tag := 0 }] }

set_option maxRecDepth 50000 in
theorem witness_publish_done :
    Working pubRig pubCmd cx0 ∧ pubRig.Whole ∧ shadowOf pubRig pubCmd 0x40 = pubRig.shadows ∧
    (∀ x ∈ shadowOf pubRig pubCmd 0x40, x.bytes.length = 128 ∧ x.va.toNat % 128 = 0) ∧
    EngWrites pubRig cx0 pubCmd (pubWrites pubRig cx0 pubCmd 0x40 fun _ => false) := by
  refine ⟨⟨rfl, rfl, rfl, fun _ => rfl, fun _ h => nomatch h⟩, whole_of (by decide), by decide, ?_,
    shared_writes ⟨rfl, rfl, rfl⟩ rfl rfl rfl rfl rfl (in_shared_of (by decide))⟩
  intro x hx
  obtain rfl := List.mem_singleton.1 hx
  exact ⟨by decide, by decide⟩

/-- A read and a write of the copy engine in this device, outside KV pages and in version 0. -/
theorem witness_engine_views :
    cpyRigResolves .read = some (.shared 1 0, Attr.team) ∧ cpyRigResolves .engineWrite = some (.shared 1 0, Attr.team) ∧
      Attr.team.kv = false ∧ cpyCmd.keys cx0 = [] ∧ (cmdRig cpyCmd []).Whole :=
  ⟨by decide, by decide, rfl, by decide, whole_of (by decide)⟩

/-- A matrix array of the team's bench. -/
def arrayRig (k : Cmd) (a : ArrayState) : State := { cmdRig k [] with arrays := [a] }

/-- An array that the team holds, with planes and an output queue. -/
def heldArray (active shadow : Option Plane) (queue : List Nat) : ArrayState :=
  { ArrayState.blank 0 1 with holder := some 1, active := active, shadow := shadow, queue := queue }

/-- Array 1, FP16 operands, one row. -/
def oneRow : Word := 0x40000000

theorem its_turn {k : Cmd} {a : ArrayState} (h : (arrayRig k a).firstOn k.bench 1 = some k)
    (h2 : ((arrayRig k a).array k.bench 1).holder = some k.team) (h3 : (arrayRig k a).onArray k.bench 1 = [k])
    (h4 : ∀ n f c, k.op ≠ .accclr n f c) : ItsTurn (arrayRig k a) k 1 :=
  ⟨h2, h, fun j hj => by rw [h3] at hj; obtain rfl := List.mem_singleton.1 hj; exact h4⟩

theorem lin_reads {s : State} {k : Cmd} {va : DWord} {weight : Bool} {n : Nat} (h : engReadsB s cx0 k va n = true)
    (h2 : s.badTag cx0 k 0 weight va n = none) : LinReads s cx0 k 0 weight va n :=
  ⟨fun x hx => by obtain rfl := List.mem_singleton.1 hx; exact eng_reads_of h, h2⟩

set_option maxRecDepth 50000 in
/-- A load of weights; a stream of one row through a plane of its fields, and of other fields; a load of one scale word; a row
popped. -/
theorem witness_arrays :
    (∃ n, n = (ctlOf oneRow).k * 128 * fmtBits (ctlOf oneRow).wfmt / 8 ∧
      Working (arrayRig (cmdOf (.mwld 1 (sh 0) oneRow 0)) (heldArray none none [])) (cmdOf (.mwld 1 (sh 0) oneRow 0)) cx0 ∧
      ItsTurn (arrayRig (cmdOf (.mwld 1 (sh 0) oneRow 0)) (heldArray none none [])) (cmdOf (.mwld 1 (sh 0) oneRow 0)) 1 ∧
      LinReads (arrayRig (cmdOf (.mwld 1 (sh 0) oneRow 0)) (heldArray none none [])) cx0 (cmdOf (.mwld 1 (sh 0) oneRow 0)) 0 true (sh 0) n) ∧
    (∃ pl : Plane, pl = (ctlOf oneRow).plane (shape4Of 0x00010000) pl.data ∧ streamRows (ctlOf oneRow) 1 none = [{ act := 0, ar := 0, lo := 0, hi := 128 }] ∧
      ItsTurn (arrayRig (cmdOf (.mstr 1 (sh 0) oneRow 0x00010000 none)) (heldArray (some pl) none [1])) (cmdOf (.mstr 1 (sh 0) oneRow 0x00010000 none)) 1 ∧
      LinReads (arrayRig (cmdOf (.mstr 1 (sh 0) oneRow 0x00010000 none)) (heldArray (some pl) none [1])) cx0
        (cmdOf (.mstr 1 (sh 0) oneRow 0x00010000 none)) 0 false (sh 0 + BitVec.ofNat 64 (0 * rowLen (ctlOf oneRow))) (rowLen (ctlOf oneRow)) ∧
      { pl with k := 0 } ≠ (ctlOf oneRow).plane (shape4Of 0x00010000) ({ pl with k := 0 } : Plane).data) ∧
    (Working (arrayRig (cmdOf (.scpy 1 (sh 0) 4095 1)) (heldArray none none [])) (cmdOf (.scpy 1 (sh 0) 4095 1)) cx0 ∧
      (arrayRig (cmdOf (.scpy 1 (sh 0) 4095 1)) { heldArray none none [] with acc := [] }).array 0 1 = heldArray none none [] ∧
      ItsTurn (arrayRig (cmdOf (.scpy 1 (sh 0) 4095 1)) (heldArray none none [])) (cmdOf (.scpy 1 (sh 0) 4095 1)) 1 ∧
      EngReads (arrayRig (cmdOf (.scpy 1 (sh 0) 4095 1)) (heldArray none none [])) cx0 (cmdOf (.scpy 1 (sh 0) 4095 1)) (sh 0) 4) ∧
    (let regs : Slots (List RegName) := (Vector.replicate 32 []).set 0 [.base 0 0, .base 0 1, .base 0 2, .base 0 3]
     let k := cmdOf (.accpop 1 1 regs)
     let s := arrayRig k (heldArray none none [255])
     (s.array 0 1).queue = [255] ∧ (s.onArray 0 1).find? (fun j => j.op.isPop && j.team == 1) = some k ∧ s.firstOn 0 1 = none ∧
      ∀ u ∈ maskSlots 1, ∀ r ∈ regs[u], s.has k.owner r = true) := by
  refine ⟨⟨_, rfl, ⟨rfl, rfl, rfl, fun _ => rfl, fun _ h => nomatch h⟩, its_turn rfl rfl rfl (fun _ _ _ h => by cases h), lin_reads (by decide) (by decide)⟩,
    ⟨(ctlOf oneRow).plane (shape4Of 0x00010000) [], rfl, by decide, its_turn rfl rfl rfl (fun _ _ _ h => by cases h),
      lin_reads (by decide) (by decide), by decide⟩,
    ⟨⟨rfl, rfl, rfl, fun _ => rfl, fun _ h => nomatch h⟩, rfl, its_turn rfl rfl rfl (fun _ _ _ h => by cases h), eng_reads_of (by decide)⟩,
    by decide, by decide, by decide, by decide⟩

/-- A loop of one step and one row. -/
def loopCmd : Cmd := cmdOf (.mloop 1 [0, 0x00F00000, 0, 0x00F00000, 0x00010001, 0, 0, oneRow] none)

set_option maxRecDepth 50000 in
theorem witness_mloop :
    Working (arrayRig loopCmd (heldArray none none [])) loopCmd cx0 ∧ ItsTurn (arrayRig loopCmd (heldArray none none [])) loopCmd 1 ∧
    streamRows (ctlOf oneRow) (shape4Of 0x00010001).m none = [{ act := 0, ar := 0, lo := 0, hi := 128 }] ∧
    dword 0 0x00F00000 + BitVec.ofNat 64 loopCmd.steps * (0 : Word).signExtend 64 = sh 0 ∧
    LinReads (arrayRig loopCmd (heldArray none none [])) cx0 loopCmd 0 true (sh 0) ((ctlOf oneRow).k * 128 * fmtBits (ctlOf oneRow).wfmt / 8) ∧
    LinReads (arrayRig loopCmd (heldArray none none [])) cx0 loopCmd 0 false (sh 0 + BitVec.ofNat 64 (0 * rowLen (ctlOf oneRow))) (rowLen (ctlOf oneRow)) ∧
    loopCmd.steps + 1 = (shape4Of 0x00010001).n :=
  ⟨⟨rfl, rfl, rfl, fun _ => rfl, fun _ h => nomatch h⟩, its_turn rfl rfl rfl (fun _ _ _ h => by cases h), by decide, by decide, lin_reads (by decide) (by decide),
    lin_reads (by decide) (by decide), by decide⟩

/-- The words of the tables that the translation of an address reads. -/
def tableAddrs (s : State) (root : Nat) (va : DWord) : List Nat :=
  let a := va.toNat
  let w2 := root + a / 2 ^ 38 % 2 ^ 18 * 8
  let w1 := frameOf (s.tableWord w2) * 65536 + a / 2 ^ 25 % 2 ^ 13 * 8
  [w2, w1, frameOf (s.tableWord w1) * 65536 + a / 2 ^ 16 % 2 ^ 9 * 8]

theorem walk_same {s t : State} {root : Nat} {va : DWord}
    (h : ∀ p ∈ tableAddrs s root va, ∀ i < 8, t.mem.read (p + i) = s.mem.read (p + i)) : t.walk root va = s.walk root va := by
  have hw (p : Nat) (hp : p ∈ tableAddrs s root va) : t.tableWord p = s.tableWord p := by
    unfold State.tableWord Memory.readN
    exact congrArg (fun bs => BitVec.ofNat 64 (leNat bs)) (List.map_congr_left fun i hi => h p hp i (List.mem_range.1 hi))
  simp only [tableAddrs, List.mem_cons, List.not_mem_nil, or_false, forall_eq_or_imp, forall_eq] at hw
  unfold State.walk
  simp only [hw.1, hw.2.1, hw.2.2]

/-- A command's address of a page goes where it went while the words of its tables stand. -/
theorem eng_same {s : State} {m : Memory} {cx : Context} {k : Cmd} {acc : Access} {va : DWord} (hc : s.copies = [])
    (hv : va.toNat / 2 ^ 48 < 0xF0) (h : ∀ p ∈ tableAddrs s cx.root va, ∀ i < 8, m.read (p + i) = s.mem.read (p + i)) :
    ({ s with mem := m, copies := [] } : State).engResolve cx k acc va = s.engResolve cx k acc va := by
  have g1 : va.toNat / 2 ^ 57 = 0 := by omega
  have g2 : va.toNat / 2 ^ 56 = 0 := by omega
  have g3 : (va.toNat / 2 ^ 48 == 0xF0) = false := by simp; omega
  have hw : ({ s with mem := m, copies := [] } : State).walk cx.root va = s.walk cx.root va := walk_same (t := { s with mem := m, copies := [] }) h
  have ht : ({ s with mem := m, copies := [] } : State).translate cx va = s.translate cx va := by
    unfold State.translate
    simp only [hw, hc]
  have key (t : State) (e1 : t.homeFor = s.homeFor) (e2 : t.frameIn = s.frameIn) (e3 : t.physLoc = s.physLoc) (e4 : t.slicePinLost = s.slicePinLost)
      (e5 : t.allocFor = s.allocFor) (e6 : t.walk cx.root va = s.walk cx.root va) (e7 : t.translate cx va = s.translate cx va) (e8 : t.tick = s.tick) :
      t.resolveLocal cx k.ver acc va = s.resolveLocal cx k.ver acc va := by
    unfold State.resolveLocal
    simp only [e1, e2, e3, e4, e5, e6, e7, e8]
  have hl := key { s with mem := m, copies := [] } rfl rfl rfl rfl rfl hw ht rfl
  unfold State.engResolve State.resolve
  simp only [g1, g2, g3, hl, bne_self_eq_false, (by decide : ((0 : Nat) == 1) = false), Bool.false_eq_true, if_false]

/-- An address of shared memory, or of a page whose table words do not stand among the places written, checked. -/
def standsB (s : State) (cx : Context) (vas : List DWord) (ps : List (Loc × Nat)) : Bool :=
  vas.all fun va => (va.toNat / 2 ^ 48 == 0xF0 && decide (va.toNat % 2 ^ 48 < 16384)) ||
    decide (va.toNat / 2 ^ 48 < 0xF0) && (tableAddrs s cx.root va).all fun a => ps.all fun p =>
      match p.1 with | .hbm b => decide (a + 8 ≤ b ∨ b + p.2 ≤ a) | _ => true

theorem steady_of {s : State} {cx : Context} {k : Cmd} {tr : Tray} {tm : Team} {l : Launch} {vas : List DWord} {ps : List (Loc × List Byte)}
    (hk : k.team = 1 ∧ k.owner = .tray 1) (hc : s.copies = []) (h1 : s.tray? 1 = some tr) (h2 : tr.landed = none) (h3 : s.team? 1 = some tm)
    (h4 : s.launch? tm.launch = some l) (h5 : l.shmem = 16384) (h : standsB s cx vas (ps.map fun p => (p.1, p.2.length)) = true) :
    Steady s cx k vas ps := by
  intro m hm acc va hva
  have := List.all_eq_true.1 h va hva
  simp only [Bool.or_eq_true, Bool.and_eq_true, beq_iff_eq, decide_eq_true_eq, List.all_eq_true] at this
  rcases this with hv | ⟨hv, ht⟩
  · have hi : inShared va := hv
    have hr (t : State) (g1 : t.tray? 1 = some tr) (g3 : t.team? 1 = some tm) (g4 : t.launch? tm.launch = some l) :
        t.engResolve cx k acc va = if acc = .fetch then .fault 0x0A else .ok (.shared 1 (va.toNat % 2 ^ 48)) Attr.team := by
      have hy : k.tray? = some 1 := by simp [Cmd.tray?, hk.2]
      unfold State.engResolve
      rw [hk.1, hy]
      split
      · rename_i ha
        subst ha
        have h0 := hi.1
        have q1 : va.toNat / 2 ^ 57 = 0 := by omega
        have q2 : va.toNat / 2 ^ 56 = 0 := by omega
        unfold State.resolve
        simp only [h0, q1, q2]
        rfl
      · rename_i ha
        exact resolves_shared hi g1 h2 g3 g4 h5 ha
    exact (hr { s with mem := m, copies := [] } h1 h3 h4).trans (hr s h1 h3 h4).symm
  · refine eng_same hc hv fun a ha i hi => ?_
    by_contra hne
    obtain ⟨p, hp, j, hj, he⟩ := hm _ hne
    have := ht a ha (p.1, p.2.length) (List.mem_map.2 ⟨p, hp, rfl⟩)
    cases hl : p.1 <;> simp only [hl, Loc.add, Loc.hbm.injEq, decide_eq_true_eq, reduceCtorEq] at this he
    omega

/-- The bytes of a descriptor of FP16 rows of 32 elements, a sink of one position at 0x20000 and a window of 16, one layer, one head. -/
def kvBytes (len ver : Byte) : List Byte :=
  [0, 0, 0, 0, 0, 0, 32, 0, 1, 0, 0, 0, 16, 0, 0, 0, 0, 0, 2] ++ List.replicate 37 0 ++ [1, 0, 1, 0, len, 0, 0, 0, ver]

/-- A KV command whose descriptor stands at offset 0 of shared memory, with a KV page at 0x20000. -/
def kvCmdRig (op : CmdOp) (bytes : List Byte) : State :=
  { cmdRig (cmdOf op) bytes with mem := rig.mem.writeN 0x1020010 (leBytes 8 (0x103 * 65536 + 0x203)) }

set_option maxRecDepth 50000 in
theorem witness_kvld :
    (let k := cmdOf (.kvld (sh 0) (sh 1024) 0 0)
     let s := kvCmdRig k.op (kvBytes 0 0)
     let d := KvDesc.of (engBytes s cx0 k (sh 0) 128)
     Working s k cx0 ∧ s.Whole ∧ EngReads s cx0 k (sh 0) 128 ∧ (d.valid = true ∧ d.selects 0 = true ∧ d.wanted 0 0 = [] ∧
       (d.selects 0x00010000 = false)) ∧ EngWrites s cx0 k [(sh 1024, kvTile s cx0 k d [])]) ∧
    (KvDesc.of (engBytes (kvCmdRig (.kvld (sh 0) (sh 1024) 0 0) []) cx0 (cmdOf (.kvld (sh 0) (sh 1024) 0 0)) (sh 0) 128)).valid = false :=
  ⟨⟨⟨rfl, rfl, rfl, fun _ => rfl, fun _ h => nomatch h⟩, whole_of (by decide), eng_reads_of (by decide), by decide,
    shared_writes ⟨rfl, rfl, rfl⟩ rfl rfl rfl rfl rfl (in_shared_of (by decide))⟩, by decide⟩

theorem le_bytes (n v : Nat) : (leBytes n v).length = n := by
  induction n generalizing v with
  | zero => rfl
  | succ n ih => simp [leBytes, ih]

theorem flat_words {α : Type} (n : Nat) (f : α → Nat) (l : List α) : (l.flatMap fun x => leBytes n (f x)).length = n * l.length := by
  induction l with
  | nil => rfl
  | cons x l ih => simp only [List.flatMap_cons, List.length_append, le_bytes, ih, List.length_cons, Nat.mul_succ]; omega

/-- A device with a KV command of the thread in its event, a descriptor at offset 0 of shared memory, a leaf for the page 0x20000, what
stands in that page, and its context changed. -/
def pageRig (op : CmdOp) (desc : List Byte) (leaf : Nat) (page : List (Nat × List Byte)) (g : Context → Context) : State :=
  { cmdRig (cmdOf op) desc with
    ctxs := rig.ctxs.map g
    mem := page.foldl (fun m x => m.writeN (0x1030000 + x.1) x.2) (rig.mem.writeN 0x1020010 (leBytes 8 leaf)) }

/-- The leaf of a KV page that may be written. -/
def kvLeaf : Nat := 0x103 * 65536 + 0x203

/-- The context with its records and control block in an address space that only a team has. -/
def pinned (cx : Context) : Context := { cx with fcBase := sh 0, fcCap := 4, ccb := sh 4096 }

theorem records_pinned {s : State} (h1 : s.team? 0 = none) (h2 : s.remnants = []) : RecordsPinned s (pinned cx0) := by
  refine ⟨by decide, fun m cs va _ hv l a hr => ?_⟩
  have hva : (BitVec.ofNat 64 va).toNat / 2 ^ 48 = 0xF0 := by
    have e1 : (pinned cx0).fcBase.toNat = 0xF0 * 2 ^ 48 := by decide
    have e2 : (pinned cx0).ccb.toNat = 0xF0 * 2 ^ 48 + 4096 := by decide
    have e3 : (pinned cx0).fcCap = 4 := rfl
    rw [e1, e2, e3] at hv
    have : va < 2 ^ 64 := by omega
    rw [BitVec.toNat_ofNat, Nat.mod_eq_of_lt this]
    omega
  have g1 : (BitVec.ofNat 64 va).toNat / 2 ^ 57 = 0 := by omega
  have g2 : (BitVec.ofNat 64 va).toNat / 2 ^ 56 = 0 := by omega
  have h1' : ({ s with mem := m, copies := cs } : State).team? 0 = none := h1
  have h2' : ({ s with mem := m, copies := cs } : State).remnants.find? (·.team == 0) = none := by rw [show ({ s with mem := m, copies := cs } : State).remnants = [] from h2]; rfl
  unfold State.resolve at hr
  simp only [hva, g1, g2, h1', h2', Nat.not_lt_zero] at hr
  cases hr

/-- The KVLD of position 0 whose descriptor and tile stand in shared memory, and the position that it wants. -/
def kvldCmd : Cmd := cmdOf (.kvld (sh 0) (sh 1024) 0 0)

def kvldWants : List Want := [{ i := 0, p := 0, row := 0x20000 }]

/-- Its descriptor, of one position. -/
def kvldDesc : KvDesc := KvDesc.of (kvBytes 1 0)

/-- The tile that it leaves. -/
def kvldTileOut (s : State) : List (DWord × List Byte) := [(sh 1024, kvTile s (pinned cx0) kvldCmd kvldDesc kvldWants)]

/-- What it writes. -/
def kvldOut (s : State) (found : List (Nat × PageState)) : List (Loc × List Byte) :=
  let qs := quarantines s (pinned cx0) kvldCmd found
  qs ++ approxWrite s (pinned cx0) kvldCmd (sh 0) (found.filter fun x => x.2 == .absent).length qs ++ placed s (pinned cx0) kvldCmd (kvldTileOut s)

/-- The addresses that it uses. -/
def kvldVas (s : State) (found : List (Nat × PageState)) : List DWord :=
  (sh 0 + 0x44) :: kvldWants.map (·.row) ++ found.map (fun x => BitVec.ofNat 64 (x.1 * 65536)) ++ writeVas (kvldTileOut s)

/-- What a KVLD of position 0 meets of its page, and what may be written, with the context's records pinned. -/
structure KvldMet (s : State) (found : List (Nat × PageState)) : Prop where
  works : Working s kvldCmd (pinned cx0)
  whole : s.Whole
  reads : EngReads s (pinned cx0) kvldCmd (sh 0) 128
  desc : KvDesc.of (engBytes s (pinned cx0) kvldCmd (sh 0) 128) = kvldDesc
  pages : pagesFound s (pinned cx0) kvldCmd kvldDesc kvldWants = found
  writes : EngWrites s (pinned cx0) kvldCmd (kvldTileOut s)
  steady : Steady s (pinned cx0) kvldCmd (kvldVas s found) (kvldOut s found)
  marks : ∀ x ∈ found, ∀ r, x.2 = .spoiled r →
    ∃ l a, s.engResolve (pinned cx0) kvldCmd .read (BitVec.ofNat 64 (x.1 * 65536)) = .ok l a ∧ (a.vers = true ∨ kvldCmd.keys (pinned cx0) = [])
  count : ∃ e b, s.engResolve (pinned cx0) kvldCmd .engineWrite (sh 0 + 0x44) = .ok e b ∧ (∀ i o, e ≠ .pin i o) ∧ ∀ p o, e ≠ .peer p o
  records : RecordsPinned s (pinned cx0)

theorem kvld_wanted : kvldDesc.valid = true ∧ kvldDesc.selects 0 = true ∧ kvldDesc.wanted 0 0 = kvldWants := by decide

/-- The rig of that KVLD. -/
def kvldRig (leaf : Nat) (page : List (Nat × List Byte)) : State := pageRig kvldCmd.op (kvBytes 1 0) leaf page pinned

set_option maxRecDepth 50000 in
/-- A KVLD of one position whose page is absent. -/
theorem witness_kvld_absent : KvldMet (kvldRig 0 []) [(2, .absent)] :=
  { works := ⟨rfl, rfl, rfl, fun _ => rfl, fun _ h => nomatch h⟩
    whole := whole_of (by decide)
    reads := eng_reads_of (by decide)
    desc := by decide
    pages := by decide
    writes := shared_writes_in (by decide) ⟨rfl, rfl⟩ rfl rfl rfl rfl rfl (in_shared_of (by decide))
    steady := steady_of ⟨rfl, rfl⟩ rfl rfl rfl rfl rfl rfl (by decide)
    marks := fun x hx r h => by obtain rfl := List.mem_singleton.1 hx; cases h
    count := ⟨_, _, rfl, by simp, by simp⟩
    records := records_pinned rfl rfl }

set_option maxRecDepth 50000 in
/-- A KVLD of one position whose page is quarantined. -/
theorem witness_kvld_quarantined : KvldMet (kvldRig kvLeaf [(65480, [1])]) [(2, .quarantined)] :=
  { works := ⟨rfl, rfl, rfl, fun _ => rfl, fun _ h => nomatch h⟩
    whole := whole_of (by decide)
    reads := eng_reads_of (by decide)
    desc := by decide
    pages := by decide
    writes := shared_writes_in (by decide) ⟨rfl, rfl⟩ rfl rfl rfl rfl rfl (in_shared_of (by decide))
    steady := steady_of ⟨rfl, rfl⟩ rfl rfl rfl rfl rfl rfl (by decide)
    marks := fun x hx r h => by obtain rfl := List.mem_singleton.1 hx; cases h
    count := ⟨_, _, rfl, by simp, by simp⟩
    records := records_pinned rfl rfl }

theorem crc_byte (x : Nat) (b : Byte) (h : x < 2 ^ 64) : crcByte 0xC96C5795D7870F42 x b < 2 ^ 64 := by
  have bit (y : Nat) (hy : y < 2 ^ 64) : crcBit 0xC96C5795D7870F42 y < 2 ^ 64 := by
    unfold crcBit
    split
    · exact Nat.xor_lt_two_pow (by omega) (by decide)
    · omega
  have run (n : List Nat) (y : Nat) (hy : y < 2 ^ 64) : n.foldl (fun y _ => crcBit 0xC96C5795D7870F42 y) y < 2 ^ 64 := by
    induction n generalizing y with
    | nil => exact hy
    | cons _ n ih => exact ih _ (bit y hy)
  exact run _ _ (Nat.xor_lt_two_pow h (by have := b.isLt; omega))

theorem crc64_bound (bs : List Byte) : crc64 bs < 2 ^ 64 := by
  have run (l : List Byte) (y : Nat) (hy : y < 2 ^ 64) : l.foldl (crcByte 0xC96C5795D7870F42) y < 2 ^ 64 := by
    induction l generalizing y with
    | nil => exact hy
    | cons b l ih => exact ih _ (crc_byte y b hy)
  exact Nat.xor_lt_two_pow (run bs _ (by decide)) (by decide)

theorem bytes_number (n x : Nat) : leNat (leBytes n x) = x % 256 ^ n := by
  induction n generalizing x with
  | zero => simp [leBytes, leNat, Nat.mod_one]
  | succ n ih =>
    simp only [leBytes, leNat, ih, BitVec.toNat_ofNat]
    rw [show 256 ^ (n + 1) = 256 * 256 ^ n from Nat.pow_succ', Nat.mod_mul]

theorem eight_bytes (x : Nat) : (leBytes 8 x).length = 8 := rfl

/-- The rig with its page's stored CRC changed from the one of its contents. -/
def sealedRig (s : State) (f : Nat → Nat) : State :=
  { s with mem := s.mem.writeN (0x1030000 + 65472) (leBytes 8 (f (crc64 (s.mem.readN 0x1030000 65472)))), copies := [] }

/-- What the rig's page is, but for its CRC: a KV page that is not quarantined, read by the command, its table words elsewhere. -/
structure Page (s : State) : Prop where
  wf : s.mem.wf = true
  fresh : s.copies = [] ∧ s.promoted = [] ∧ s.homeTab = [] ∧ s.allocs = []
  there : s.leafAbsent (pinned cx0) 0 0x20000 = false
  place : s.engResolve (pinned cx0) kvldCmd .read 0x20000 = .ok (.hbm 0x1030000) (leafAttr (BitVec.ofNat 64 kvLeaf))
  loose : (s.mem.read 0x103FFC8).getLsbD 0 = false
  stands : standsB s (pinned cx0) [0x20000] [(.hbm 0x1030000, 65536)] = true

theorem sealed_read {s : State} {f : Nat → Nat} (h : s.mem.wf = true) (x : Nat) : (sealedRig s f).mem.read x =
    if 0x103FFC0 ≤ x ∧ x < 0x103FFC8 then (leBytes 8 (f (crc64 (s.mem.readN 0x1030000 65472)))).getD (x - 0x103FFC0) 0 else s.mem.read x := by
  have := Memory.read_writeN (0x1030000 + 65472) x (leBytes 8 (f (crc64 (s.mem.readN 0x1030000 65472)))) h
  rw [eight_bytes] at this
  exact this

theorem sealed_off {s : State} {f : Nat → Nat} (h : s.mem.wf = true) {x : Nat} (hx : x < 0x103FFC0 ∨ 0x103FFC8 ≤ x) :
    (sealedRig s f).mem.read x = s.mem.read x := by
  rw [sealed_read h, if_neg (by omega)]

theorem sealed_place {s : State} (p : Page s) (f : Nat → Nat) :
    (sealedRig s f).engResolve (pinned cx0) kvldCmd .read 0x20000 = .ok (.hbm 0x1030000) (leafAttr (BitVec.ofNat 64 kvLeaf)) := by
  refine (eng_same p.fresh.1 (by decide) fun a ha i hi => sealed_off p.wf ?_).trans p.place
  have := p.stands
  simp only [standsB, List.all_cons, List.all_nil, Bool.and_true, Bool.or_eq_true, Bool.and_eq_true, List.all_eq_true, decide_eq_true_eq] at this
  rcases this with h | h
  · exact absurd h.1 (by decide)
  · have := h.2 a ha
    omega

/-- A page whose stored CRC is made from the one of its contents: what KVLD finds of it. -/
theorem sealed_state {s : State} (p : Page s) (f : Nat → Nat) (hf : ∀ x < 2 ^ 64, f x < 2 ^ 64) :
    let c := crc64 (s.mem.readN 0x1030000 65472)
    (sealedRig s f).pageState (pinned cx0) kvldCmd kvldDesc kvldWants 0 2 =
      if f c = c then
        (if (match s.livePayload (pinned cx0) kvldCmd kvldDesc { i := 0, p := 0, row := 0x20000 } with
          | some pay => (kvldDesc.decodeRow pay).any nonFinite | none => false) = true then .spoiled 1 else .good)
      else .spoiled 2 := by
  intro c
  have hs := sealed_place p f
  have ha : (sealedRig s f).leafAbsent (pinned cx0) 0 0x20000 = false := by
    have hw (q : Nat) (hq : q ∈ tableAddrs s (pinned cx0).root 0x20000) : (sealedRig s f).tableWord q = s.tableWord q := by
      unfold State.tableWord Memory.readN
      refine congrArg (fun bs => BitVec.ofNat 64 (leNat bs)) (List.map_congr_left fun i hi => sealed_off p.wf ?_)
      have := p.stands
      simp only [standsB, List.all_cons, List.all_nil, Bool.and_true, Bool.or_eq_true, Bool.and_eq_true, List.all_eq_true, decide_eq_true_eq] at this
      have hi := List.mem_range.1 hi
      rcases this with h | h
      · exact absurd h.1 (by decide)
      · have := h.2 q hq
        omega
    simp only [tableAddrs, List.mem_cons, List.not_mem_nil, or_false, forall_eq_or_imp, forall_eq] at hw
    have h0 := p.there
    unfold State.leafAbsent at h0 ⊢
    simp only [(by decide : ((0x20000 : DWord).toNat / 2 ^ 56 == 1) = false), Bool.false_and, Bool.false_eq_true, if_false] at h0 ⊢
    rw [hw.1, hw.2.1, hw.2.2]
    exact h0
  have hb (n : Nat) (hn : n ≤ 65472) : (sealedRig s f).seen [] (.hbm 0x1030000) n = s.mem.readN 0x1030000 n :=
    List.map_congr_left fun i hi => sealed_off p.wf (by have := List.mem_range.1 hi; omega)
  have hc : leNat ((sealedRig s f).seen [] (.hbm 0x103FFC0) 8) = f c := by
    have : (sealedRig s f).seen [] (.hbm 0x103FFC0) 8 = leBytes 8 (f c) := by
      refine List.ext_getElem (by simp [State.seen, eight_bytes]) fun i h1 h2 => ?_
      have hi : i < 8 := h2
      have hr : (sealedRig s f).byteSeen [] (.hbm (0x103FFC0 + i)) = (leBytes 8 (f c)).getD i 0 := by
        have := sealed_read (f := f) p.wf (0x103FFC0 + i)
        rw [if_pos (by omega), Nat.add_sub_cancel_left] at this
        exact this
      simp only [State.seen, List.getElem_map, List.getElem_range]
      exact hr.trans (by rw [List.getD_eq_getElem?_getD, List.getElem?_eq_getElem h2]; rfl)
    rw [this, bytes_number]
    exact Nat.mod_eq_of_lt (hf c (crc64_bound _))
  have hp : (sealedRig s f).promoted = [] := p.fresh.2.1
  have hq : (sealedRig s f).byteSeen [] (.hbm 0x103FFC8) = s.mem.read 0x103FFC8 := sealed_off p.wf (.inr (Nat.le_refl _))
  have hk : kvldCmd.keys (pinned cx0) = [] := by decide
  have hl : (sealedRig s f).livePayload (pinned cx0) kvldCmd kvldDesc { i := 0, p := 0, row := 0x20000 } =
      s.livePayload (pinned cx0) kvldCmd kvldDesc { i := 0, p := 0, row := 0x20000 } := by
    have h2 := p.place
    unfold State.livePayload State.rowSeen
    simp only [hs, h2, hk, hb kvldDesc.rowb (by decide)]
    rfl
  unfold State.pageState
  simp only [show (BitVec.ofNat 64 (2 * 65536) : DWord) = 0x20000 from rfl, show kvldCmd.ver = 0 from rfl, ha, hs, hk,
    show (leafAttr (BitVec.ofNat 64 kvLeaf)).kv = true from by decide, show (Loc.hbm 0x1030000).page = .hbm 0x1030000 from rfl,
    show (Loc.hbm 0x1030000).add 65480 = .hbm 0x103FFC8 from rfl, show (Loc.hbm 0x1030000).add 65472 = .hbm 0x103FFC0 from rfl, hq, p.loose, hp,
    hb 65472 (Nat.le_refl _), hc, kvldWants, List.any_cons, List.any_nil, hl, Bool.or_false, List.contains_nil, Bool.false_and, Bool.not_false,
    Bool.true_and, Bool.not_true, Bool.false_eq_true, if_false]
  simp only [show (pageOf 0x20000 == 2) = true from by decide, Bool.true_and]
  change (if (c != f c) = true then _ else _) = _
  by_cases h : f c = c
  · rw [if_neg (by simp [h]), if_pos h] <;> rfl
  · rw [if_pos (by simpa using fun e => h e.symm), if_neg h]

theorem tile_length (s : State) : ((kvldTileOut s).map fun w => (w.1, w.2.length)) = [(sh 1024, 1024)] := by
  have key (rows : List (Option (List Byte))) : (rows.flatMap fun r => match r with
      | some pay => (kvldDesc.decodeRow pay).flatMap (leBytes 2)
      | none => List.replicate (2 * kvldDesc.hdim) 0).length = 64 * rows.length := by
    induction rows with
    | nil => rfl
    | cons r rows ih =>
      have h1 : (match r with | some pay => (kvldDesc.decodeRow pay).flatMap (leBytes 2) | none => List.replicate (2 * kvldDesc.hdim) (0 : Byte)).length = 64 := by
        cases r with
        | none => rfl
        | some pay =>
          refine (flat_words 2 id (kvldDesc.decodeRow pay)).trans ?_
          rw [show (kvldDesc.decodeRow pay).length = 32 by rw [KvDesc.decodeRow, List.length_map, List.length_range]; rfl]
      rw [List.flatMap_cons, List.length_append, ih, h1, List.length_cons]
      omega
  have : (kvTile s (pinned cx0) kvldCmd kvldDesc kvldWants).length = 1024 := by
    have := key ((List.range 16).map (kvRow s (pinned cx0) kvldCmd kvldDesc kvldWants))
    rw [List.flatMap_map, List.length_map, List.length_range] at this
    exact this
  simp [kvldTileOut, this]

/-- What is written into shared memory stands there. -/
theorem placed_shared {s : State} {cx : Context} {k : Cmd} {tr : Tray} {tm : Team} {l : Launch} {ws : List (DWord × List Byte)}
    (hk : k.team = 1 ∧ k.owner = .tray 1) (h1 : s.tray? 1 = some tr) (h2 : tr.landed = none) (h3 : s.team? 1 = some tm)
    (h4 : s.launch? tm.launch = some l) (h5 : l.shmem = 16384) (h : ∀ w ∈ ws, ∀ y ∈ pieces w.1 w.2.length, inShared y.1) :
    ∀ p ∈ placed s cx k ws, ∃ t o, p.1 = .shared t o := by
  intro p hp
  obtain ⟨w, hw, hp⟩ := List.mem_flatMap.1 hp
  obtain ⟨y, hy, hp⟩ := List.mem_filterMap.1 hp
  have cut (ps : List (DWord × Nat)) (bs : List Byte) (hy : y ∈ cutBytes ps bs) : ∃ q ∈ ps, q.1 = y.1 := by
    induction ps generalizing bs with
    | nil => cases hy
    | cons q ps ih =>
      rcases List.mem_cons.1 hy with rfl | hy
      · exact ⟨q, List.mem_cons_self, rfl⟩
      · obtain ⟨r, hr, he⟩ := ih _ hy
        exact ⟨r, List.mem_cons_of_mem _ hr, he⟩
  obtain ⟨q, hq, he⟩ := cut _ _ hy
  have hi := h w hw q hq
  rw [he] at hi
  have hy : k.tray? = some 1 := by simp [Cmd.tray?, hk.2]
  have hr : s.engResolve cx k .engineWrite y.1 = .ok (.shared 1 (y.1.toNat % 2 ^ 48)) Attr.team := by
    unfold State.engResolve
    rw [hk.1, hy]
    exact resolves_shared hi h1 h2 h3 h4 h5 (by simp)
  rw [hr] at hp
  obtain rfl := Option.some.inj hp
  exact ⟨_, _, rfl⟩

/-- Addresses of a command stand while one page, and no table, changes. -/
theorem steady_page {s : State} {m0 : Memory} {cx : Context} {k : Cmd} {tr : Tray} {tm : Team} {l : Launch} {vas : List DWord}
    {ps : List (Loc × List Byte)} (hk : k.team = 1 ∧ k.owner = .tray 1) (hc : s.copies = []) (h1 : s.tray? 1 = some tr) (h2 : tr.landed = none)
    (h3 : s.team? 1 = some tm) (h4 : s.launch? tm.launch = some l) (h5 : l.shmem = 16384)
    (h6 : ∀ x, (x < 0x1030000 ∨ 0x1040000 ≤ x) → m0.read x = s.mem.read x)
    (h7 : ∀ p ∈ ps, ∀ i < p.2.length, ∀ x, p.1.add i = .hbm x → 0x1030000 ≤ x ∧ x < 0x1040000)
    (h : standsB s cx vas [(.hbm 0x1030000, 65536)] = true) : Steady { s with mem := m0, copies := [] } cx k vas ps := by
  intro m hm acc va hva
  have base (q : Memory) (hq : ∀ x, (x < 0x1030000 ∨ 0x1040000 ≤ x) → q.read x = s.mem.read x) :
      ({ s with mem := q, copies := [] } : State).engResolve cx k acc va = s.engResolve cx k acc va := by
    refine steady_of (ps := [(.hbm 0x1030000, List.replicate 65536 0)]) hk hc h1 h2 h3 h4 h5 ?_ q (fun x hx => ?_) acc va hva
    · rw [← h]
      simp only [List.map_cons, List.map_nil, List.length_replicate]
    · by_cases hx' : x < 0x1030000 ∨ 0x1040000 ≤ x
      · exact absurd (hq x hx') hx
      · exact ⟨_, List.mem_singleton.2 rfl, x - 0x1030000, by rw [List.length_replicate]; omega, by simp only [Loc.add, Loc.hbm.injEq]; omega⟩
  refine (base m fun x hx => ?_).trans (base m0 h6).symm
  by_contra hne
  have : m.read x ≠ m0.read x := by rw [h6 x hx]; exact hne
  obtain ⟨p, hp, i, hi, he⟩ := hm x this
  have := h7 p hp i hi x he
  omega

theorem pages_one (s : State) (cx : Context) (k : Cmd) (d : KvDesc) :
    pagesFound s cx k d kvldWants = [(2, s.pageState cx k d kvldWants 0 2)] := by
  rw [pagesFound, show wantedPages kvldWants = [2] from by decide]
  rfl

set_option maxRecDepth 50000 in
/-- A KVLD whose page is a KV page of this device: what it meets of it. -/
theorem sealed_met {rows : List (Nat × List Byte)} {st : PageState} (f : Nat → Nat) (p : Page (kvldRig kvLeaf rows))
    (hw : wholeB (kvldRig kvLeaf rows) = true)
    (hs : (sealedRig (kvldRig kvLeaf rows) f).pageState (pinned cx0) kvldCmd kvldDesc kvldWants 0 2 = st) :
    KvldMet (sealedRig (kvldRig kvLeaf rows) f) [(2, st)] := by
  refine { works := ⟨rfl, rfl, rfl, fun _ => rfl, fun _ h => nomatch h⟩, whole := ?_, reads := eng_reads_of rfl, desc := by rfl, pages := ?_,
           writes := shared_writes_in (by decide) ⟨rfl, rfl⟩ rfl rfl rfl rfl rfl (in_shared_of ?_), steady := ?_, marks := ?_,
           count := ⟨.shared 1 ((sh 0 + 0x44).toNat % 2 ^ 48), Attr.team, ?_, by simp, by simp⟩, records := records_pinned rfl rfl }
  · have := whole_of hw
    exact ⟨⟨Memory.writeN_wf _ _ this.stores.1, this.stores.2⟩, this.lines⟩
  · rw [pages_one, hs]
  · rw [tile_length]
    decide
  · have hv : kvldVas (sealedRig (kvldRig kvLeaf rows) f) [(2, st)] = (sh 0 + 0x44) :: 0x20000 :: 0x20000 :: (pieces (sh 1024) 1024).map (·.1) := by
      have := tile_length (sealedRig (kvldRig kvLeaf rows) f)
      simp only [kvldTileOut, List.map_cons, List.map_nil, List.cons.injEq, Prod.mk.injEq, and_true, true_and] at this
      simp only [kvldVas, kvldTileOut, writeVas, List.map_cons, List.map_nil, List.flatMap_cons, List.flatMap_nil, List.append_nil, this]
      rfl
    rw [hv]
    refine steady_page ⟨rfl, rfl⟩ p.fresh.1 rfl rfl rfl rfl rfl (fun x hx => sealed_off p.wf (by omega)) ?_ ?_
    · intro q hq i hi x hx
      rcases List.mem_append.1 hq with hq | hq
      · rcases List.mem_append.1 hq with hq | hq
        · obtain ⟨y, hy, hq⟩ := List.mem_filterMap.1 hq
          obtain rfl := List.mem_singleton.1 hy
          have hl : (sealedRig (kvldRig kvLeaf rows) f).engResolve (pinned cx0) kvldCmd .read (BitVec.ofNat 64 (2 * 65536)) = _ := sealed_place p f
          simp only [hl] at hq
          cases st <;> cases hq
          have hi : i < 1 := hi
          obtain rfl : i = 0 := by omega
          simp only [Loc.page, Loc.at, Loc.off, Loc.add, Loc.hbm.injEq] at hx
          omega
        · have hr : (sealedRig (kvldRig kvLeaf rows) f).engResolve (pinned cx0) kvldCmd .engineWrite (sh 0 + 0x44) = .ok (.shared 1 ((sh 0 + 0x44).toNat % 2 ^ 48)) Attr.team := by
            unfold State.engResolve
            exact resolves_shared (team := 1) ⟨by decide, by decide⟩ rfl rfl rfl rfl rfl (by simp)
          simp only [approxWrite, hr] at hq
          split at hq
          · cases hq
          · obtain rfl := List.mem_singleton.1 hq
            cases hx
      · obtain ⟨t, o, hp⟩ := placed_shared ⟨rfl, rfl⟩ rfl rfl rfl rfl rfl (in_shared_of (by rw [tile_length]; decide)) q hq
        rw [hp] at hx
        cases hx
    · have hsh := List.all_eq_true.1 (by decide : (((sh 0 + 0x44) :: (pieces (sh 1024) 1024).map (·.1)).all fun va =>
        va.toNat / 2 ^ 48 == 0xF0 && decide (va.toNat % 2 ^ 48 < 16384)) = true)
      refine List.all_eq_true.2 fun va hva => ?_
      by_cases h2 : va = 0x20000
      · have := List.all_eq_true.1 p.stands va (List.mem_singleton.2 h2)
        exact this
      · rw [hsh va (by
          rcases List.mem_cons.1 hva with h | h
          · exact List.mem_cons.2 (.inl h)
          · rcases List.mem_cons.1 h with h | h
            · exact absurd h h2
            · rcases List.mem_cons.1 h with h | h
              · exact absurd h h2
              · exact List.mem_cons_of_mem _ h)]
        rfl
  · intro x hx r hr
    obtain rfl := List.mem_singleton.1 hx
    have hl : (sealedRig (kvldRig kvLeaf rows) f).engResolve (pinned cx0) kvldCmd .read (BitVec.ofNat 64 (2 * 65536)) = _ := sealed_place p f
    exact ⟨_, _, hl, .inr (by decide)⟩
  · unfold State.engResolve
    exact resolves_shared (team := 1) ⟨by decide, by decide⟩ rfl rfl rfl rfl rfl (by simp)

set_option maxRecDepth 50000 in
/-- A KVLD of one position whose page is sound, without a live row and with one; whose page has an element that is not finite; whose
page has another CRC than it should. -/
theorem witness_kvld_pages :
    KvldMet (sealedRig (kvldRig kvLeaf []) id) [(2, .good)] ∧
    KvldMet (sealedRig (kvldRig kvLeaf [(3, [0x80])]) id) [(2, .good)] ∧
    ((kvldRig kvLeaf [(3, [0x80])]).livePayload (pinned cx0) kvldCmd kvldDesc { i := 0, p := 0, row := 0x20000 }).isSome = true ∧
    KvldMet (sealedRig (kvldRig kvLeaf [(3, [0x80]), (16, [0x80, 0x7F])]) id) [(2, .spoiled 1)] ∧
    KvldMet (sealedRig (kvldRig kvLeaf []) (· ^^^ 1)) [(2, .spoiled 2)] := by
  have page (rows : List (Nat × List Byte)) (h : ((kvldRig kvLeaf rows).mem.wf && !(kvldRig kvLeaf rows).leafAbsent (pinned cx0) 0 0x20000 &&
      (match (kvldRig kvLeaf rows).engResolve (pinned cx0) kvldCmd .read 0x20000 with
        | .ok l a => l == .hbm 0x1030000 && a == leafAttr (BitVec.ofNat 64 kvLeaf) | _ => false) &&
      !((kvldRig kvLeaf rows).mem.read 0x103FFC8).getLsbD 0 &&
      standsB (kvldRig kvLeaf rows) (pinned cx0) [0x20000] [(.hbm 0x1030000, 65536)]) = true) : Page (kvldRig kvLeaf rows) := by
    simp only [Bool.and_eq_true, Bool.not_eq_true'] at h
    refine ⟨h.1.1.1.1, ⟨rfl, rfl, rfl, rfl⟩, h.1.1.1.2, ?_, h.1.2, h.2⟩
    have := h.1.1.2
    split at this
    · rename_i l a hr
      simp only [Bool.and_eq_true, beq_iff_eq] at this
      rw [hr, this.1, this.2]
    · cases this
  have same : ∀ x < 2 ^ 64, id x < 2 ^ 64 := fun _ h => h
  have flip : ∀ x < 2 ^ 64, x ^^^ 1 < 2 ^ 64 := fun _ h => Nat.xor_lt_two_pow h (by decide)
  have p0 := page [] (by decide)
  have p1 := page [(3, [0x80])] (by decide)
  have p2 := page [(3, [0x80]), (16, [0x80, 0x7F])] (by decide)
  refine ⟨sealed_met id p0 (by decide) ?_, sealed_met id p1 (by decide) ?_, by decide, sealed_met id p2 (by decide) ?_,
    sealed_met (· ^^^ 1) p0 (by decide) ?_⟩
  · exact (sealed_state p0 id same).trans ((if_pos (id_eq _)).trans (if_neg (by decide)))
  · exact (sealed_state p1 id same).trans ((if_pos (id_eq _)).trans (if_neg (by decide)))
  · exact (sealed_state p2 id same).trans ((if_pos (id_eq _)).trans (if_pos (by decide)))
  · rw [sealed_state p0 (· ^^^ 1) flip, if_neg]
    intro h
    have := congrArg (· ^^^ crc64 ((kvldRig kvLeaf []).mem.readN 0x1030000 65472)) h
    simp [Nat.xor_comm _ 1] at this

set_option maxRecDepth 50000 in
/-- Pages as KVLD may find them: absent at either level; a fault of the walk; no KV page; a KV page of this device. -/
theorem witness_page_kinds :
    (let s := kvldRig 0 []
     s.homeFor 1 0x20000 = none ∧ s.allocFor (pinned cx0) 0 0x20000 = none ∧ pointerOk (s.tableWord 0x1000000) = true ∧
      pointerOk (s.tableWord 0x1010000) = true ∧ (s.tableWord 0x1010000).getLsbD 52 = false ∧ (s.tableWord 0x1020010).getLsbD 0 = false) ∧
    (let s : State := { kvldRig 0 [] with mem := (kvldRig 0 []).mem.writeN 0x1010008 (leBytes 8 (2 ^ 52)) }
     s.homeFor 1 0x2000000 = none ∧ s.allocFor (pinned cx0) 0 0x2000000 = none ∧ (s.tableWord 0x1010008).getLsbD 52 = true ∧
      (s.tableWord 0x1010008).getLsbD 0 = false) ∧
    (let s := kvldRig 0 []
     s.leafAbsent (pinned cx0) 0 0x4000000000 = false ∧
      (match s.engResolve (pinned cx0) kvldCmd .read 0x4000000000 with | .fault e => e == 0x08 | _ => false) = true) ∧
    ∀ leaf kv, (leaf = kvLeaf ∧ kv = true ∨ leaf = 0x103 * 65536 + 3 ∧ kv = false) →
      (kvldRig leaf []).leafAbsent (pinned cx0) 0 0x20000 = false ∧
        (match (kvldRig leaf []).engResolve (pinned cx0) kvldCmd .read 0x20000 with | .ok l a => l == .hbm 0x1030000 && a.kv == kv | _ => false) = true := by
  refine ⟨by decide, by decide, by decide, fun leaf kv h => ?_⟩
  obtain ⟨rfl, rfl⟩ | ⟨rfl, rfl⟩ := h <;> decide

/-- A KVST of a position into the page 0x20000, from offset 2,048 of shared memory. -/
def kvstOp (desc : DWord) (pos : Word) : CmdOp := .kvst desc (sh 2048) pos 0

/-- What a KVST meets first: it works, and its descriptor can be read. -/
structure KvstMet (s : State) (desc : DWord) (pos : Word) (d : KvDesc) : Prop where
  works : Working s (cmdOf (kvstOp desc pos)) cx0
  whole : s.Whole
  reads : EngReads s cx0 (cmdOf (kvstOp desc pos)) desc 128
  desc : KvDesc.of (engBytes s cx0 (cmdOf (kvstOp desc pos)) desc 128) = d

/-- The rig of a KVST whose descriptor stands in shared memory. -/
def kvstRig (pos : Word) (len ver : Byte) (leaf : Nat) (page : List (Nat × List Byte)) : State := pageRig (kvstOp (sh 0) pos) (kvBytes len ver) leaf page id

set_option maxRecDepth 50000 in
/-- KVST with a descriptor that is not valid, beyond LEN by one, and of another version. -/
theorem witness_kvst_refused :
    (KvstMet (pageRig (kvstOp (sh 0) 0) [] kvLeaf [] id) (sh 0) 0 (KvDesc.of []) ∧ (KvDesc.of []).valid = false) ∧
    (KvstMet (kvstRig 1 0 0 kvLeaf []) (sh 0) 1 (KvDesc.of (kvBytes 0 0)) ∧ (KvDesc.of (kvBytes 0 0)).valid = true ∧
      (KvDesc.of (kvBytes 0 0)).selects 0 = true ∧ (KvDesc.of (kvBytes 0 0)).ver = 0 ∧ (KvDesc.of (kvBytes 0 0)).len < (1 : Word).toNat) ∧
    (KvstMet (kvstRig 0 0 1 kvLeaf []) (sh 0) 0 (KvDesc.of (kvBytes 0 1)) ∧ (KvDesc.of (kvBytes 0 1)).valid = true ∧
      (KvDesc.of (kvBytes 0 1)).ver ≠ 0 ∧ BitVec.ofNat 16 (KvDesc.of (kvBytes 0 1)).ver ≠ cx0.gid (kvstRig 0 0 1 kvLeaf []).devNo 0) := by
  refine ⟨⟨⟨⟨rfl, rfl, rfl, fun _ => rfl, fun _ h => nomatch h⟩, whole_of (by decide), eng_reads_of (by decide), by decide⟩, by decide⟩,
    ⟨⟨⟨rfl, rfl, rfl, fun _ => rfl, fun _ h => nomatch h⟩, whole_of (by decide), eng_reads_of (by decide), by decide⟩, by decide⟩,
    ⟨⟨rfl, rfl, rfl, fun _ => rfl, fun _ h => nomatch h⟩, whole_of (by decide), eng_reads_of (by decide), by decide⟩, by decide⟩

/-- The descriptor of an empty cache. -/
def kvstDesc : KvDesc := KvDesc.of (kvBytes 0 0)

theorem kvst_desc : kvstDesc.valid = true ∧ kvstDesc.selects 0 = true ∧ kvstDesc.ver = 0 ∧ kvstDesc.row 0 0 = 0x20000 ∧ kvstDesc.rowb = 80 := by decide

set_option maxRecDepth 50000 in
/-- KVST of position 0 whose row's page is no KV page, a KV page that may not be written, and one that may while the descriptor's page
may not. -/
theorem witness_kvst_causes :
    (∀ leaf kv w, (leaf = 0x103 * 65536 + 3 ∧ kv = false ∧ w = true ∨ leaf = 0x103 * 65536 + 0x201 ∧ kv = true ∧ w = false) →
      KvstMet (kvstRig 0 0 0 leaf []) (sh 0) 0 kvstDesc ∧
      Steady (kvstRig 0 0 0 leaf []) cx0 (cmdOf (kvstOp (sh 0) 0)) [0x20000, sh 0 + 0x3C] [] ∧
      ∃ a, (kvstRig 0 0 0 leaf []).engResolve cx0 (cmdOf (kvstOp (sh 0) 0)) .read 0x20000 = .ok (.hbm 0x1030000) a ∧ a.kv = kv ∧ a.w = w) ∧
    (let s := pageRig (kvstOp 0x10000 0) [] kvLeaf [(0, kvBytes 0 0)] id
     KvstMet s 0x10000 0 kvstDesc ∧ Steady s cx0 (cmdOf (kvstOp 0x10000 0)) [0x20000, 0x10000 + 0x3C] [] ∧
      (∃ a, s.engResolve cx0 (cmdOf (kvstOp 0x10000 0)) .read 0x20000 = .ok (.hbm 0x1030000) a ∧ a.kv = true ∧ a.w = true) ∧
      s.engResolve cx0 (cmdOf (kvstOp 0x10000 0)) .engineWrite (0x10000 + 0x3C) = .fault 0x09) := by
  refine ⟨fun leaf kv w h => ?_, ⟨⟨rfl, rfl, rfl, fun _ => rfl, fun _ h => nomatch h⟩, whole_of (by decide), eng_reads_of (by decide), by decide +kernel⟩,
    steady_of ⟨rfl, rfl⟩ rfl rfl rfl rfl rfl rfl (by decide), ⟨leafAttr (BitVec.ofNat 64 kvLeaf), by decide, by decide, by decide⟩, by decide⟩
  obtain ⟨rfl, rfl, rfl⟩ | ⟨rfl, rfl, rfl⟩ := h
  · exact ⟨⟨⟨rfl, rfl, rfl, fun _ => rfl, fun _ h => nomatch h⟩, whole_of (by decide), eng_reads_of (by decide), by decide⟩,
      steady_of ⟨rfl, rfl⟩ rfl rfl rfl rfl rfl rfl (by decide), leafAttr (BitVec.ofNat 64 (0x103 * 65536 + 3)), by decide, by decide, by decide⟩
  · exact ⟨⟨⟨rfl, rfl, rfl, fun _ => rfl, fun _ h => nomatch h⟩, whole_of (by decide), eng_reads_of (by decide), by decide⟩,
      steady_of ⟨rfl, rfl⟩ rfl rfl rfl rfl rfl rfl (by decide), leafAttr (BitVec.ofNat 64 (0x103 * 65536 + 0x201)), by decide, by decide, by decide⟩

/-- The places of a KVST's row and LEN. -/
structure KvstPlaces (s : State) : Prop where
  met : KvstMet s (sh 0) 0 kvstDesc
  row : s.engResolve cx0 (cmdOf (kvstOp (sh 0) 0)) .read 0x20000 = .ok (.hbm 0x1030000) (leafAttr (BitVec.ofNat 64 kvLeaf)) ∧
    s.engResolve cx0 (cmdOf (kvstOp (sh 0) 0)) .engineWrite 0x20000 = .ok (.hbm 0x1030000) (leafAttr (BitVec.ofNat 64 kvLeaf))
  len : ∃ o, s.engResolve cx0 (cmdOf (kvstOp (sh 0) 0)) .engineWrite (sh 0 + 0x3C) = .ok (.shared 1 o) Attr.team
  room : s.lineFull cx0 ((cmdOf (kvstOp (sh 0) 0)).keys cx0) (.shared 1 0x3C) Attr.team = false

set_option maxRecDepth 50000 in
/-- KVST of position 0 into an empty cache, whose page is quarantined, whose row is of a later generation, and neither. -/
theorem witness_kvst :
    (∀ page, page = [(65480, [1])] ∨ page = [(0, [5, 0, 0, 0x80])] ∨ page = [] →
      KvstPlaces (kvstRig 0 0 0 kvLeaf page) ∧ Steady (kvstRig 0 0 0 kvLeaf page) cx0 (cmdOf (kvstOp (sh 0) 0)) [0x20000, sh 0 + 0x3C] []) ∧
    ((kvstRig 0 0 0 kvLeaf [(65480, [1])]).byteSeen [] (.hbm 0x103FFC8)).getLsbD 0 = true ∧
    (let s := kvstRig 0 0 0 kvLeaf [(0, [5, 0, 0, 0x80])]
     (s.byteSeen [] (.hbm 0x103FFC8)).getLsbD 0 = false ∧ leNat (s.seen [] (.hbm 0x1030000) 4) = 2 ^ 31 + 5 ∧ (kvstDesc.place 0).2 = 0) ∧
    (let s := kvstRig 0 0 0 kvLeaf []
     let k := cmdOf (kvstOp (sh 0) 0)
     (∀ o, ∀ i < 4, ∀ j < 65536, (Loc.shared 1 o).add i ≠ (Loc.hbm 0x1030000).page.add j) ∧
      Steady s cx0 k (0x20000 :: (sh 0 + 0x3C) :: writeVas [(0x20000, List.replicate 80 0), (sh 2048, List.replicate 64 0)])
        [(.hbm 0x1030000, List.replicate 65536 0)] ∧
      (s.byteSeen [] (.hbm 0x103FFC8)).getLsbD 0 = false ∧ leNat (s.seen [] (.hbm 0x1030000) 4) < 2 ^ 31 ∧
      (∀ y ∈ pieces 0x20000 80, ∃ m, s.engResolve cx0 k .engineWrite y.1 = .ok m (leafAttr (BitVec.ofNat 64 kvLeaf))) ∧
      s.lineless cx0 (k.keys cx0) (engPlaces s cx0 k [(0x20000, List.replicate 80 0)]) = [] ∧ EngReads s cx0 k (sh 2048) 64) := by
  refine ⟨fun page h => ?_, by decide, by decide, fun o i _ j _ h => (by simp [Loc.add, Loc.page, Loc.at] at h), ?_, by decide, by decide, ?_, ?_,
    eng_reads_of (by decide)⟩
  · obtain rfl | rfl | rfl := h <;>
      exact ⟨⟨⟨⟨rfl, rfl, rfl, fun _ => rfl, fun _ h => nomatch h⟩, whole_of (by decide), eng_reads_of (by decide), by decide⟩, ⟨by decide, by decide⟩,
        ⟨0x3C, by decide⟩, by decide⟩, steady_of ⟨rfl, rfl⟩ rfl rfl rfl rfl rfl rfl (by decide)⟩
  · refine steady_of ⟨rfl, rfl⟩ rfl rfl rfl rfl rfl rfl ?_
    simp only [List.map_cons, List.map_nil, List.length_replicate]
    decide
  · intro y hy
    rw [show pieces 0x20000 80 = [(0x20000, 80)] from by decide] at hy
    obtain rfl := List.mem_singleton.1 hy
    exact ⟨.hbm 0x1030000, by decide⟩
  · simp only [show (cmdOf (kvstOp (sh 0) 0)).keys cx0 = [] from by decide]
    simp [State.lineless, State.newLines]

/-- A car with a name and contents. -/
def carOf (data : List Byte) : Car :=
  { num := 0, name := 5, owner := 1, part := 1, gen := 0xFFFF, swz := 0, crc := BitVec.ofNat 32 (crc32c data), data := data, boarded := 0, doomed := false }

/-- A registered carousel command at its station, where car 0 dwells, with a quota of cars. -/
def carRig (op : CmdOp) (cars : List Car) (dwells quota : Nat) : State :=
  let s := cmdRig { cmdOf op with state := .registered 3 dwells } []
  { s with ring := { s.ring with cars := cars }, pkg := { s.pkg with parts := s.pkg.parts.map fun p => { p with carq := quota } } }

/-- The command of `carRig`. -/
def carCmd (op : CmdOp) (dwells : Nat) : Cmd := { cmdOf op with state := .registered 3 dwells }

/-- A carousel command that has not registered, with a quota of cars. -/
def carRigQ (op : CmdOp) (quota : Nat) : State :=
  let s := cmdRig (cmdOf op) []
  { s with pkg := { s.pkg with parts := s.pkg.parts.map fun p => { p with carq := quota } } }

theorem witness_dwell : rig.dwelling 0 = some 0 ∧ rig.stationPos 0 < rig.ring.size ∧ rig.dwellBusy = false ∧ rig.pollDue = false := by decide

/-- BOARD with room in its quota and with none, RPLC, ALIGHT, at the head of their station's queue, the tile at hand. -/
theorem witness_registers :
    (∀ op, op = CmdOp.board 5 (sh 0) ∨ op = .rplc 5 (sh 0) ∨ op = .alight 5 →
      Working (carRigQ op 1) (cmdOf op) cx0 ∧ (cmdOf op).gen = 0 ∧ (carRigQ op 1).behind (cmdOf op) = false ∧
      EngReads (carRigQ op 1) cx0 (cmdOf op) (sh 0) 16384 ∧ TileSteady (carRigQ op 1) cx0 (cmdOf op) (sh 0) ∧ ¬QuotaFull (carRigQ op 1) 1 ∧
      ∀ j ∈ (carRigQ op 1).cmds, j.id = 5 → j = cmdOf op) ∧
    (Working (carRigQ (.board 5 (sh 0)) 0) (cmdOf (.board 5 (sh 0))) cx0 ∧ (carRigQ (.board 5 (sh 0)) 0).behind (cmdOf (.board 5 (sh 0))) = false ∧
      EngReads (carRigQ (.board 5 (sh 0)) 0) cx0 (cmdOf (.board 5 (sh 0))) (sh 0) 16384 ∧ QuotaFull (carRigQ (.board 5 (sh 0)) 0) 1) := by
  refine ⟨fun op h => ?_, ⟨rfl, rfl, rfl, fun _ => rfl, fun _ h => nomatch h⟩, by decide, eng_reads_of (by decide), Nat.le_refl 0⟩
  obtain rfl | rfl | rfl := h <;>
    exact ⟨⟨rfl, rfl, rfl, fun _ => rfl, fun _ h => nomatch h⟩, rfl, by decide, eng_reads_of (by decide),
      steady_of ⟨rfl, rfl⟩ rfl rfl rfl rfl rfl rfl (by decide), fun h => absurd (show 1 ≤ 0 from h) (by decide),
      fun j hj _ => List.mem_singleton.1 hj⟩

set_option maxRecDepth 50000 in
theorem at_station (op : CmdOp) (cars : List Car) (d q : Nat) (h : ((carRig op cars d q).dwelling 0 == some 0 && (carRig op cars d q).serving (carCmd op d)) = true) :
    AtStation (carRig op cars d q) (carCmd op d) cx0 0 := ⟨rfl, rfl, by simp at h; exact h.1, by simp at h; exact h.2, fun _ => rfl⟩

/-- BOARD at a free car, its name elsewhere and not, its quota full and not. -/
theorem witness_board :
    AtStation (carRig (.board 5 (sh 0)) [] 1 1) (carCmd (.board 5 (sh 0)) 1) cx0 0 ∧
    AtStation (carRig (.board 5 (sh 0)) [{ carOf [] with num := 9 }] 1 1) (carCmd (.board 5 (sh 0)) 1) cx0 0 ∧
    AtStation (carRig (.board 5 (sh 0)) [{ carOf [] with num := 9, name := 6 }] 1024 1) (carCmd (.board 5 (sh 0)) 1024) cx0 0 :=
  ⟨at_station _ _ _ _ (by decide), at_station _ _ _ _ (by decide), at_station _ _ _ _ (by decide)⟩

set_option maxRecDepth 50000 in
/-- RPLC of a car whose generation wraps, ALIGHT of it, and CATCH of good and of bad contents. -/
theorem witness_cars :
    AtStation (carRig (.rplc 5 (sh 0)) [carOf []] 1 1) (carCmd (.rplc 5 (sh 0)) 1) cx0 0 ∧
    AtStation (carRig (.alight 5) [carOf []] 1 1) (carCmd (.alight 5) 1) cx0 0 ∧
    (carRig (.alight 5) [carOf []] 1 1).ring.car? 0 = some (carOf []) ∧
    (let c := carOf (List.replicate 16384 0)
     let s := carRig (.catchTile 5 (sh 0)) [c] 1 1
     AtStation s (carCmd (.catchTile 5 (sh 0)) 1) cx0 0 ∧ s.ring.car? 0 = some c ∧ s.input.flag = false ∧
      c.crc = BitVec.ofNat 32 (crc32c c.data) ∧ s.Whole ∧ c.data.length = 16384 ∧ EngWrites s cx0 (carCmd (.catchTile 5 (sh 0)) 1) [(sh 0, c.data)]) ∧
    AtStation (carRig (.catchTile 5 (sh 0)) [{ carOf [] with crc := 1 }] 1 1) (carCmd (.catchTile 5 (sh 0)) 1) cx0 0 ∧ cx0.stopped = false := by
  refine ⟨at_station _ _ _ _ (by decide), at_station _ _ _ _ (by decide), rfl, ⟨at_station _ _ _ _ rfl, rfl, rfl, rfl, whole_of rfl,
    List.length_replicate, shared_writes ⟨rfl, rfl, rfl⟩ rfl rfl rfl rfl rfl (in_shared_of ?_)⟩, at_station _ _ _ _ (by decide), rfl⟩
  have : ([(sh 0, (carOf (List.replicate 16384 0)).data)] : List (DWord × List Byte)).map (fun w => (w.1, w.2.length)) = [(sh 0, 16384)] :=
    congrArg (fun n => [(sh 0, n)]) (List.length_replicate : (List.replicate 16384 (0 : Byte)).length = 16384)
  rw [this]
  decide

/-- A CATCH that has latched its tile, and one that was saved so and begins again. -/
theorem witness_caught : ∀ st g, (st = CmdState.latched ∧ g = 0 ∨ st = .queued ∧ g = 7) →
    let k : Cmd := { cmdOf (.catchTile 5 (sh 0)) with state := st, gen := g, data := List.replicate 16384 0 }
    let s := cmdRig k []
    s.cmd? s.input.id = some k ∧ s.ctx? k.ctx = some cx0 ∧ (k.state = .latched ∨ k.state = .queued ∧ k.gen ≠ 0) ∧ s.Whole ∧
      k.data.length = 16384 ∧ (sh 0).toNat % 1024 = 0 ∧ s.has k.owner k.token = true ∧ s.past = [] ∧ EngWrites s cx0 k [(sh 0, k.data)] := by
  intro st g h
  have h1 : ([(sh 0, (List.replicate 16384 0 : List Byte))] : List (DWord × List Byte)).map (fun w => (w.1, w.2.length)) = [(sh 0, 16384)] :=
    congrArg (fun n => [(sh 0, n)]) (List.length_replicate : (List.replicate 16384 (0 : Byte)).length = 16384)
  refine ⟨rfl, rfl, ?_, whole_of rfl, List.length_replicate, by decide, rfl, rfl,
    shared_writes ⟨rfl, rfl, rfl⟩ rfl rfl rfl rfl rfl (in_shared_of (by rw [h1]; decide))⟩
  obtain ⟨rfl, rfl⟩ | ⟨rfl, rfl⟩ := h
  · exact .inl rfl
  · exact .inr ⟨rfl, by decide⟩

/-- A command one dwell beyond its time. -/
theorem witness_not_served : (carRig (.board 5 (sh 0)) [] 1025 1).ring.size < 1025 ∧
    (carRig (.board 5 (sh 0)) [] 1025 1).cmd? 5 = some (carCmd (.board 5 (sh 0)) 1025) := ⟨by decide, rfl⟩

/-- A chain of function 0 of partition 1, its records at 0x1030100 and on. -/
def chain24 : Chain :=
  { fn := 6, slot := 0, part := 1, reg := 0x1030101, active := true, refused := false, tail := 0x1030180, taken := 0x1030140,
    nextSeq := 1, rung := false, polled := 0, open_ := [] }

/-- The device with the chain and a PIFO, whose item taken last points to one of a kind, in an event. -/
def schedRig (chains : List Chain) (pifo : List PifoEntry) (kind : Byte) (x : Input) : State :=
  let s := dataRig 0 0 0x140 [0x80, 1, 3, 1]
  { s with
    mem := s.mem.writeN 0x1030188 [kind, 0, 0, 0, 1, 0, 0, 0]
    pkg := { s.pkg with parts := s.pkg.parts.map fun p => { p with vfs := 6 } }
    sched := { s.sched with chains := chains, pifo := pifo }
    input := x }

/-- An item taken next: of a kind that there is, and of kind 9. -/
theorem witness_taking :
    (let s := schedRig [chain24] [] 0 { Input.blank with id := 24 }
     s.chain? s.input.id = some chain24 ∧ s.canTake chain24 = true ∧ leNat (s.physRead chain24.taken 8) = 0x1030180 ∧
      s.visible 1 0x1030180 64 = true ∧ s.itemRefusal (itemOf chain24 s.nextId (s.physRead 0x1030180 64)) = none ∧
      s.Whole ∧ Unpinned s ∧ chain24.recAddr + 64 ≤ 0x1030180) ∧
    (let s := schedRig [chain24] [] 9 { Input.blank with id := 24 }
     s.chain? s.input.id = some chain24 ∧ s.canTake chain24 = true ∧ leNat (s.physRead chain24.taken 8) = 0x1030180 ∧
      s.itemRefusal (itemOf chain24 s.nextId (s.physRead 0x1030180 64)) = some 1) :=
  ⟨⟨rfl, by decide, by decide, by decide, by decide, whole_of (by decide), fun _ => rfl, by decide⟩, rfl, by decide, by decide, by decide⟩

/-- An item of context 1. -/
def itemFor (kind : BitVec 8) (deadline : BitVec 64) : Item := { Item.blank with chain := 24, part := 1, kind := kind, ctxid := 1, deadline := deadline }

/-- An entry of the PIFO. -/
def entry (w : Work) : PifoEntry := { rank := 3, arrival := 2, work := w, prio := 0, deadline := 0, est := 0 }

/-- The device 5 ns on, with one entry in the PIFO and launches changed. -/
def pifoRig (w : Work) (g : Launch → Launch) : State :=
  let s := schedRig [chain24] [entry w] 0 Input.blank
  { s with timeU := 5 * 2162160, launches := s.launches.map g }

theorem released_alone {s : State} {e : PifoEntry} (h : s.pkg.dead = false ∧ s.sched.pifo = [e] ∧ s.eligible e = true) : Released s e :=
  ⟨h.1, by simp [h.2.1], h.2.2, fun x hx _ => .inl (by simpa [h.2.1] using hx)⟩

/-- What the PIFO releases: an item, late and not; a RECORD item; a launch, late and not; of two entries, the older one. -/
theorem witness_releases :
    (Released (pifoRig (.item (itemFor 0 4)) id) (entry (.item (itemFor 0 4))) ∧
      Late (pifoRig (.item (itemFor 0 4)) id) (itemFor 0 4).deadline.toNat (itemFor 0 4).est.toNat) ∧
    (Released (pifoRig (.item (itemFor 0 5)) id) (entry (.item (itemFor 0 5))) ∧
      ¬Late (pifoRig (.item (itemFor 0 5)) id) (itemFor 0 5).deadline.toNat (itemFor 0 5).est.toNat) ∧
    Released (pifoRig (.item (itemFor 2 4)) id) (entry (.item (itemFor 2 4))) ∧
    (∀ d, d = 0 ∨ d = 4 → ∃ l, Released (pifoRig (.launch 1) fun l => { l with deadline := d }) (entry (.launch 1)) ∧
      (pifoRig (.launch 1) fun l => { l with deadline := d }).launch? 1 = some l ∧
      (Late (pifoRig (.launch 1) fun l => { l with deadline := d }) l.deadline l.est ↔ d = 4)) ∧
    (let s := schedRig [] [{ entry (.launch 1) with arrival := 7 }, entry (.launch 2)] 0 Input.blank
     Released s (entry (.launch 2))) := by
  refine ⟨⟨released_alone ⟨rfl, rfl, by decide⟩, by decide, by decide⟩, ⟨released_alone ⟨rfl, rfl, by decide⟩, by unfold Late; decide⟩,
    released_alone ⟨rfl, rfl, by decide⟩, fun d h => ?_, ⟨rfl, by decide, by decide, by decide⟩⟩
  obtain rfl | rfl := h <;> exact ⟨_, released_alone ⟨rfl, rfl, by decide⟩, rfl, by unfold Late; decide⟩

/-- A team that was saved. -/
def savedTeam : Saved :=
  { id := 7, ctx := 1, area := 0, off := 0, len := 65536,
    team := rig.teams.head (by decide)
    trays := [], arrays := [], cmds := [] }

/-- The device with no team but a saved one in the PIFO. -/
def savedRig : State :=
  let s := schedRig [] [entry (.saved 7)] 0 Input.blank
  { s with teams := [], trays := [], sched := { s.sched with saved := [savedTeam] } }

theorem restore_one {s : State} {x : Saved} {l : Launch} (h1 : s.launch? x.team.launch = some l)
    (h2 : (s.quiescing || !((s.sched.saved.all fun (y : Saved) => y.team.launch != l.id || x.team.teamno / l.gang ≤ y.team.teamno / l.gang) &&
      s.sched.slots.all fun (b : BindRec) => b.launch != l.id || x.team.teamno / l.gang ≤ b.teamno / l.gang)) = false)
    (h3 : ((s.benchesFor l (s.partOfCtx x.ctx) x.team.teamno).filterMap fun b =>
      (s.savedGang l x).foldlM (fun (s : State) y => s.restoreOn y b) s).length = 1) : (s.restore? x).isSome = true := by
  obtain ⟨u, hu⟩ := List.length_eq_one_iff.1 h3
  unfold State.restore?
  simp only [h1, h2, hu, List.length_singleton, Nat.mod_one]
  rfl

/-- A saved team is restored on the one bench that there is. -/
theorem witness_restore : Released savedRig (entry (.saved 7)) ∧ savedRig.sched.saved.find? (fun x => x.id == 7) = some savedTeam ∧
    ∃ u, (savedRig.popped (entry (.saved 7))).restore? savedTeam = some u := by
  refine ⟨released_alone ⟨rfl, rfl, ?_⟩, rfl, Option.isSome_iff_exists.1
    (restore_one (l := rig.launches.head (by decide)) rfl (by decide) (by decide))⟩
  exact restore_one (s := savedRig) (x := savedTeam) (l := rig.launches.head (by decide)) rfl (by decide) (by decide)

/-- Registers: the chain is polled; an empty slot is registered with an address that holds and with one that does not; retired. -/
theorem witness_chains :
    (schedRig [chain24] [] 0 { Input.blank with id := 24 }).chain? 24 = some chain24 ∧ chain24.active = true ∧
    (∀ v : BitVec 64, v = 0x1030101 ∨ v = 0x1030103 →
      let s := schedRig [] [] 0 { Input.blank with id := 6, n := 0, val := v }
      s.fnEnabled 6 = true ∧ v.getLsbD 0 = true ∧ (s.slotOf 6 0).active = false ∧
      ((v.toNat / 2 % 32 ≠ 0 ∨ s.visible (s.slotOf 6 0).part (v.toNat / 64 * 64) 64 = false ∨
        ∃ x ∈ s.sched.chains, x.active = true ∧ x.recAddr = v.toNat / 64 * 64) ↔ v = 0x1030103) ∧ s.Whole ∧ Unpinned s) ∧
    (let s := schedRig [chain24] [] 0 { Input.blank with id := 6, n := 3, val := 2 }
     s.fnEnabled 6 = true ∧ s.input.n < 4 ∧ s.input.val.getLsbD 0 = false) := by
  refine ⟨rfl, rfl, fun v h => ?_, by decide, by decide, by decide⟩
  obtain rfl | rfl := h <;> exact ⟨by decide, by decide, by decide, by decide, whole_of (by decide), fun _ => rfl⟩

/-- A device with a launch record at 0x10040, a node of two records (whose launch record is that one) at 0x10100, and groups, in
an event about an item. -/
def workRig (groups : List Group) (it : Item) : State :=
  let s := launchRig []
  { s with
    mem := (s.mem.writeN 0x1030100 [0x40, 0, 1]).writeN 0x1030110 [2, 0, 1, 0, 0, 1, 0, 0]
    sched := { s.sched with groups := groups }
    input := { Input.blank with id := 9, item := it } }

/-- The context of `workRig`. -/
def workCtx : Context := ((workRig [] Item.blank).ctx? 1).get (by decide)

/-- A group of the node. -/
def groupOf (recs : List Item) (timer : Option Nat) : Group :=
  { id := 9, ctx := 1, node := 0x10100, recs := recs, timer := timer, closed := false, launched := false, lists := 0 }

/-- A startable record, checked. -/
def startableB (s : State) (c : Context) (addr : DWord) : Bool :=
  addr.toNat % 64 == 0 && (s.ctxRead c 0 addr.toNat 192).any fun bs => s.refusal c 0 (LaunchRec.of bs) == none

theorem startable_of {s : State} {c : Context} {addr : DWord} (h : startableB s c addr = true) : ∃ bs, Startable s c addr bs := by
  simp only [startableB, Bool.and_eq_true, beq_iff_eq] at h
  cases hr : s.ctxRead c 0 addr.toNat 192 with
  | none => simp [hr] at h
  | some bs => exact ⟨bs, h.1, hr, by simpa [hr] using h.2⟩

theorem node_startable {s : State} {c : Context} {a : Nat}
    (h : ((s.ctxRead c 0 a 32).any fun node => startableB s c (BitVec.ofNat 64 (fieldAt node 0 8))) = true) :
    ∃ node, s.ctxRead c 0 a 32 = some node ∧ ∃ bs, Startable s c (BitVec.ofNat 64 (fieldAt node 0 8)) bs := by
  cases hr : s.ctxRead c 0 a 32 with
  | none => simp [hr] at h
  | some node => exact ⟨node, rfl, startable_of (by simpa [hr] using h)⟩

set_option maxRecDepth 50000 in
/-- LAUNCH of a record, and LAUNCH of an address that is not aligned. -/
theorem witness_item_launch :
    (let s := workRig [] { itemFor 1 0 with arg0 := 0x10040 }
     s.ctx? (itemCtx s.input.item) = some workCtx ∧ ∃ bs, Startable s workCtx 0x10040 bs) ∧
    (let s := workRig [] { itemFor 1 0 with arg0 := 0x10041 }
     s.ctx? (itemCtx s.input.item) = some workCtx ∧ s.input.item.arg0.toNat % 64 ≠ 0) :=
  ⟨⟨rfl, startable_of (by decide +kernel)⟩, ⟨rfl, by decide⟩⟩

set_option maxRecDepth 50000 in
/-- GRAPH of a node whose record can start. -/
theorem witness_item_graph :
    let s := workRig [] { itemFor 3 0 with arg0 := 0x100C0, arg1 := 2 }
    ∃ node, s.ctxRead workCtx 0 (0x100C0 + 32 * 2) 32 = some node ∧
      ∃ bs, Startable s workCtx (BitVec.ofNat 64 (fieldAt node 0 8)) bs :=
  node_startable (by decide +kernel)

theorem only_one {s : State} {x : Group} (h : s.sched.groups = [x] ∧ x.closed = false ∧ x.launched = false) : OnlyGroup s x := by
  refine ⟨by simp [h.1], h.2.1, h.2.2, fun y hy _ => by simpa [h.1] using hy, fun y hy _ _ hn => absurd (by simpa [h.1] using hy) hn⟩

set_option maxRecDepth 50000 in
/-- A RECORD item that opens a group, joins one with room, and fills one; a timer that lapses. -/
theorem witness_records :
    (∀ gs : List Group, gs = [] ∨ gs = [groupOf [] none] ∨ gs = [groupOf [itemFor 2 0] (some 0)] →
      let s := workRig gs { itemFor 2 0 with arg0 := 0x10100 }
      s.ctx? (itemCtx s.input.item) = some workCtx ∧ ¬Late s s.input.item.deadline.toNat s.input.item.est.toNat ∧
      (∃ nd, s.graphNode? workCtx s.input.item.arg0 = some nd ∧ nd.g = 2) ∧
      s.sched.groups.find? (fun x => x.ctx == workCtx.id && x.node == s.input.item.arg0.toNat && !x.closed) = gs.head? ∧
      ∀ x ∈ gs, OnlyGroup s x ∧ ∀ r ∈ x.recs, ¬Late s r.deadline.toNat r.est.toNat) ∧
    (let s := workRig [groupOf [itemFor 2 0] (some 0)] Item.blank
     s.sched.groups.find? (fun x => x.id == s.input.id) = some (groupOf [itemFor 2 0] (some 0)) ∧ 0 ≤ s.time ∧ s.ctx? 1 = some workCtx ∧
      (s.graphNode? workCtx (BitVec.ofNat 64 0x10100)).isSome = true ∧
      ∀ r ∈ (groupOf [itemFor 2 0] (some 0)).recs, ¬Late s r.deadline.toNat r.est.toNat) := by
  refine ⟨fun gs h => ?_, rfl, by decide, rfl, by decide, by unfold Late; decide⟩
  obtain rfl | rfl | rfl := h
  · exact ⟨rfl, by unfold Late; decide, ⟨{ lrec := 0x10040, list := 0, g := 2, timer := 256, groups := 0 }, by decide, rfl⟩, by decide, fun x hx => by cases hx⟩
  · refine ⟨rfl, by unfold Late; decide, ⟨{ lrec := 0x10040, list := 0, g := 2, timer := 256, groups := 0 }, by decide, rfl⟩, by decide, fun x hx => ?_⟩
    obtain rfl := List.mem_singleton.1 hx
    exact ⟨only_one ⟨rfl, rfl, rfl⟩, by unfold Late; decide⟩
  · refine ⟨rfl, by unfold Late; decide, ⟨{ lrec := 0x10040, list := 0, g := 2, timer := 256, groups := 0 }, by decide, rfl⟩, by decide, fun x hx => ?_⟩
    obtain rfl := List.mem_singleton.1 hx
    exact ⟨only_one ⟨rfl, rfl, rfl⟩, by unfold Late; decide⟩

set_option maxRecDepth 50000 in
/-- CTXCREATE of a context that does not exist, and of one that runs; CTXCTL; a takeover. -/
theorem witness_contexts :
    (let s := workRig [] { itemFor 4 0 with ctxid := 2, arg0 := 0x1030140 }
     (∀ c, s.ctx? (itemCtx s.input.item) = some c → c.stopped = true) ∧
      (s.ctxs.filter fun c => c.id != itemCtx s.input.item).length < 1024 ∧ fieldAt (s.physRead 0x1030140 64) 0x10 8 % 2 ^ 32 = 0 ∧
      s.visible s.input.item.part 0x1030140 64 = true) ∧
    (let s := workRig [] (itemFor 4 0)
     s.ctx? (itemCtx s.input.item) = some workCtx ∧ workCtx.stopped = false) ∧
    (let s : State := { workRig [] (itemFor 1 0) with ctxs := rig.ctxs.map fun c => { c with stopped := true } }
     ∃ c, s.ctx? (itemCtx s.input.item) = some c ∧ c.stopped = true) ∧
    ∃ s : State, s.sched.update = some (itemFor 8 0) := by
  refine ⟨⟨fun c h => ?_, by decide, by decide, by decide⟩, ⟨rfl, rfl⟩, ⟨_, rfl, rfl⟩, { rig with sched := { rig.sched with update := some (itemFor 8 0) } }, rfl⟩
  have : (workRig [] { itemFor 4 0 with ctxid := 2, arg0 := 0x1030140 }).ctx? 2 = none := rfl
  exact absurd (h.symm.trans this) (by simp)

/-- A bind record of the launch's next team. -/
def bindRec (ctx : Nat) : BindRec := { id := 8, ctx := ctx, launch := 1, teamno := 1, bench := 0, ver := 0, prio := 3 }

/-- The device with its launch, teams and records changed, 5 ns on, in an event. -/
def bindRig (g : Launch → Launch) (f : Team → Team) (slots : List BindRec) (ps : List Preempt) (x : Input) : State :=
  { rig with
    launches := rig.launches.map g
    teams := rig.teams.map f
    ctxs := rig.ctxs.map fun c => { c with slice := 5, grace := 3 }
    sched := { rig.sched with slots := slots, preempts := ps }
    timeU := 5 * 2162160
    input := x }

/-- The context, launch and team of `bindRig`. -/
def bindCtx : Context := ((bindRig id id [] [] Input.blank).ctx? 1).get (by decide)

def bindTeam1 : Team := ((bindRig id id [] [] Input.blank).team? 1).get (by decide)

/-- Records are written for the next team, which is then placed. -/
theorem witness_binding :
    (let g : Launch → Launch := fun l => { l with nextTeam := 0 }
     let s := bindRig g id [] [] { Input.blank with id := 1 }
     ∃ l, s.launch? 1 = some l ∧ s.ctx? l.ctx = some bindCtx ∧ s.inPifo l.id = false ∧ l.nextTeam < l.teams ∧
      s.benchesFor l bindCtx.part l.nextTeam ≠ [] ∧ s.quiescing = false) ∧
    (let s := bindRig id id [bindRec 1] [] { Input.blank with id := 8, flag := true }
     ∃ l u, s.sched.slots.find? (fun x => x.id == s.input.id) = some (bindRec 1) ∧ s.launch? 1 = some l ∧ s.firstBind (bindRec 1) = true ∧
      (0 : Nat) ∈ s.benchesOf (s.partOfCtx 1) ∧ s.gangOf (bindRec 1) l = [bindRec 1] ∧ s.bindTeam l 1 0 3 = some u) :=
  ⟨⟨_, rfl, rfl, by decide, by decide, by decide, by decide⟩, _, _, rfl, rfl, by decide, by decide, by decide, rfl⟩

/-- A PREEMPT item that saves and one that drains; a lapsed slice beside another context's work, and one beside none. -/
theorem witness_preempts :
    (∀ d : BitVec 64, d = 0 ∨ d = 6 →
      let s := bindRig id id [] [] { Input.blank with item := itemFor 6 d }
      s.ctx? (itemCtx s.input.item) = some bindCtx ∧ TeamIds s ∧ s.teamsOf 1 = [bindTeam1] ∧
        decided s bindCtx d.toNat bindTeam1 = (if d = 0 then .save else .drain)) ∧
    ∀ slots : List BindRec, slots = [bindRec 2] ∨ slots = [] →
      let s := bindRig id id slots [] { Input.blank with id := 1 }
      s.ctx? 1 = some bindCtx ∧ TeamIds s ∧ bindCtx.slice ≠ 0 ∧ bindCtx.sliceStart + bindCtx.slice ≤ s.time ∧
        ((s.teamsOf 1).filter fun tm => tm.fate == .run) = [bindTeam1] ∧ s.contended 1 = !slots.isEmpty ∧
        decided s bindCtx (s.time - (s.time - bindCtx.sliceStart) % bindCtx.slice + bindCtx.grace) bindTeam1 = .drain := by
  have ids (s : State) (h : s.teams.map (·.id) = [1] ∧ s.sched.preempts = []) : TeamIds s := by
    obtain ⟨x, hx⟩ := List.length_eq_one_iff.1 (by simpa using congrArg List.length h.1 : s.teams.length = 1)
    exact ⟨by simp [hx], by simp [h.2]⟩
  refine ⟨fun d h => ?_, fun slots h => ?_⟩
  · obtain rfl | rfl := h <;> exact ⟨rfl, ids _ ⟨rfl, rfl⟩, by decide, by decide⟩
  · obtain rfl | rfl := h <;> exact ⟨rfl, ids _ ⟨rfl, rfl⟩, by decide, by decide, by decide, by decide, by decide⟩

/-- A device whose team is to be saved by a lapsed slice that has used some of its area. -/
def saveRig (used : Nat) : State :=
  bindRig id (fun tm => { tm with fate := .save 0 9 }) []
    [{ id := 9, kind := .slice, ctx := 1, area := 0, used := used, done := [], left := [1] }] { Input.blank with id := 1 }

/-- A drain whose deadline has come, of a launch with RESTART and of one without; a team to be saved. -/
theorem witness_fates :
    (∀ r : Bool, let s := bindRig (fun l => { l with restart := r }) (fun tm => { tm with fate := .drain 5 0 9 }) [] [] { Input.blank with id := 1 }
      ∃ tm, s.team? 1 = some tm ∧ tm.fate = .drain 5 0 9 ∧ 5 ≤ s.time ∧ s.restartable tm = r) ∧
    ∀ used, ∃ tm l p, (saveRig used).around 1 = some (tm, l, bindCtx) ∧ tm.fate = .save 0 9 ∧
      (saveRig used).sched.preempts.find? (fun q => q.id == 9) = some p ∧ p.used = used ∧ p.kind = .slice ∧
      (saveRig used).canSave tm = true ∧ (∀ x ∈ (saveRig used).teamsOf 1, tm.teamno ≤ x.teamno) ∧ (saveRig used).input.err = none ∧
      (saveRig used).restartable tm = false :=
  ⟨fun r => by cases r <;> exact ⟨_, rfl, rfl, by decide, rfl⟩,
    fun _ => ⟨_, _, _, rfl, rfl, rfl, rfl, rfl, rfl, fun x hx => by obtain rfl := List.mem_singleton.1 hx; exact Nat.le_refl _, rfl, rfl⟩⟩

theorem laid_within (xs : List (List Byte)) (o : Nat) : (layOut o xs).2 ≤ o + (xs.map fun x => x.length + 64).sum := by
  induction xs generalizing o with
  | nil => simp [layOut]
  | cons x xs ih =>
    have h := ih (align64 (o + x.length))
    simp only [layOut, align64, List.map_cons, List.sum_cons] at h ⊢
    omega

theorem laid_beyond (xs : List (List Byte)) (o : Nat) : o ≤ (layOut o xs).2 := by
  induction xs generalizing o with
  | nil => simp [layOut]
  | cons x xs ih =>
    have h := ih (align64 (o + x.length))
    simp only [layOut, align64] at h ⊢
    omega

theorem reg_bytes (rs : List Reg) : (regBytes rs).length = 5 * rs.length := by
  simp only [regBytes, List.length_append, flat_words, List.length_map]
  omega

/-- The image of a team of one tray with nothing but its registers, shared memory of no byte, is small where its parts without form are. -/
theorem small_image {s : State} {tm : Team} {l : Launch} {tr : Tray} (hf : ∀ n, (Config.saveImageBytes n).length ≤ 65536)
    (h1 : (s.trays.filter fun tr => tr.team == tm.id) = [tr]) (h2 : tr.frames = [] ∧ tr.ext = none ∧ tr.landed = none)
    (h3 : s.arrays.filter (fun a => a.holder == some tm.id) = []) (h4 : tm.spawns = [] ∧ tm.formed = [] ∧ tm.front.stack = []) (h5 : l.shmem = 0) :
    (layOut 0 (s.imageSections tm l)).2 ≤ 2 ^ 20 := by
  have ht : (s.traySection 0 tr).length ≤ 131072 + 5280 := by
    have h6 := hf (s.tick * 65536 + (2 * 0 + 1))
    have h7 := hf (s.tick * 65536 + (2 * 0 + 2))
    have h8 : (tr.base.toList.flatMap fun v => v.toList).length = 1024 := by
      have : tr.base.toList.map (fun v => v.toList.length) = List.replicate 32 32 := List.eq_replicate_iff.2 ⟨by simp, by simp⟩
      rw [List.length_flatMap, this]
      rfl
    simp only [State.traySection, State.formless, Tray.regions, h2, List.length_append, reg_bytes, h8, Vector.length_toList, List.filter_nil,
      List.flatMap_nil, List.length_nil]
    omega
  have hq : (s.queueSection tm).length = 520 := by simp only [State.queueSection, List.length_append, flat_words, List.length_range, le_bytes]
  have hr : (s.frontSection tm).length ≤ 65536 + 297 := by
    have h6 := hf (s.tick * 65536 + 0)
    simp only [State.frontSection, State.formless, h4, List.length_append, flat_words, le_bytes, Vector.length_toList, List.length_map,
      List.flatMap_nil, List.length_nil, List.length_cons]
    omega
  have hl : ([tr].filter fun t => t.landed.isSome) = [] := by simp [h2.2.2]
  refine (laid_within _ _).trans ?_
  simp only [State.imageSections, State.imageHeader, h1, hl, h3, h4, h5, Store.section]
  simp
  omega

/-- An image has room at the start of an area, however its parts without form are laid out in 64 KiB, and none beyond the area. -/
theorem witness_image :
    (∃ tm l, (saveRig (2 ^ 26 + 1)).around 1 = some (tm, l, bindCtx) ∧
      ¬(saveRig (2 ^ 26 + 1)).imageOffset 1 0 (2 ^ 26 + 1) + (layOut 0 ((saveRig (2 ^ 26 + 1)).imageSections tm l)).2 ≤ 2 ^ 26) ∧
    ((∀ n, (Config.saveImageBytes n).length ≤ 65536) → ∃ tm l, (saveRig 0).around 1 = some (tm, l, bindCtx) ∧
      (saveRig 0).imageOffset 1 0 0 + (layOut 0 ((saveRig 0).imageSections tm l)).2 ≤ 2 ^ 26) := by
  refine ⟨⟨_, _, rfl, fun h => ?_⟩, fun hf => ⟨_, _, rfl, ?_⟩⟩
  · have := Nat.le_trans (Nat.le_add_right _ _) h
    revert this
    decide
  · have h0 : (saveRig 0).imageOffset 1 0 0 = 0 := by decide
    rw [h0]
    have := small_image (s := saveRig 0) (tm := bindTeam1) (l := rig.launches.head (by decide)) (tr := rig.trays.head (by decide)) hf rfl
      ⟨rfl, rfl, rfl⟩ rfl ⟨rfl, rfl, rfl⟩ rfl
    exact (Nat.zero_add _).le.trans (this.trans (by decide))

/-- A request of device 2. -/
def reqOf (op : FabOp) (addr : BitVec 64) (gid : BitVec 16) (seq : Nat) : FabReq :=
  { src := 2, part := 1, tag := 5, op := op, addr := addr, gid := gid, ancestors := [], locseq := seq }

/-- A device with a fabric context, its ports down but the one to device 3, in an event. -/
def fabRig (f : Fab → Fab) (x : Input) : State :=
  let s := launchRig []
  { s with
    pkg := { s.pkg with portstat := s.pkg.portstat.set 0 0x80030000 }
    fab := f s.fab
    timeU := 20000000 * 2162160
    input := x }

/-- The context of `fabRig`. -/
def fabCtx : Context := ((fabRig id Input.blank).ctx? 1).get (by decide)

/-- What `Arrives` asks, checked. -/
def arrivesB (s : State) (cx : Context) (n : Nat) : Bool :=
  s.cap 0 && (s.part? s.input.req.part).bind (fun p => s.ctx? p.fabctx) == some cx &&
    (s.input.req.gid.toNat / 64 % 64 == 0 || (s.peerVer? s.input.req.gid).isNone) &&
    decide (s.input.req.addr.toNat % 65536 + n ≤ 65536 ∧ s.input.req.addr.toNat < 2 ^ 52 ∧ 1 ≤ n ∧ n ≤ 128)

theorem arrives_of {s : State} {cx : Context} {n : Nat} (h : arrivesB s cx n = true) : Arrives s cx n := by
  simp only [arrivesB, Bool.and_eq_true, Bool.or_eq_true, beq_iff_eq, decide_eq_true_eq, Option.isNone_iff_eq_none] at h
  exact ⟨h.1.1.1, h.1.1.2, h.1.2, h.2⟩

/-- What `Inbound` asks, checked. -/
def inboundB (s : State) (cx : Context) (acc : Access) (n : Nat) (q : Loc → Bool) : Bool :=
  arrivesB s cx n &&
    match reqPlace s cx acc with
    | .ok l a => q l && !a.kv && !s.lineFull cx (firstKeys cx s.input.req) l a
    | _ => false

theorem inbound_of {s : State} {cx : Context} {acc : Access} {n : Nat} {q : Loc → Bool} (h : inboundB s cx acc n q = true) :
    ∃ l a, Inbound s cx acc n l a ∧ q l = true := by
  simp only [inboundB, Bool.and_eq_true] at h
  obtain ⟨h1, h2⟩ := h
  split at h2
  · rename_i l a hr
    simp only [Bool.and_eq_true, Bool.not_eq_true'] at h2
    exact ⟨l, a, ⟨arrives_of h1, hr, fun _ => ⟨h2.1.2, h2.2⟩⟩, h2.1.1⟩
  · cases h2

/-- What `Refused` asks, checked. -/
def refusedB (s : State) (cx : Context) (acc : Access) (n e : Nat) : Bool :=
  arrivesB s cx n && match reqPlace s cx acc with | .fault x => x == e | _ => false

theorem refused_of {s : State} {cx : Context} {acc : Access} {n e : Nat} (h : refusedB s cx acc n e = true) : Refused s cx acc n e := by
  simp only [refusedB, Bool.and_eq_true] at h
  obtain ⟨h1, h2⟩ := h
  split at h2
  · rename_i x hr
    obtain rfl := beq_iff_eq.1 h2
    exact ⟨arrives_of h1, hr⟩
  · cases h2

/-- A request's event. -/
def asks (r : FabReq) : Input := { Input.blank with req := r }

set_option maxRecDepth 50000 in
/-- Requests that are served: a read, writes of version 0 and of a version seen first, an atomic; each the next at its location; and
a read, a write and an atomic of a page that is not there. -/
theorem witness_served :
    (∃ l a, Inbound (fabRig id (asks (reqOf (.read 128) 0x10080 0 0))) fabCtx .read 128 l a) ∧
    (∀ g : BitVec 16, g = 0 ∨ g = 0x2041 → let s := fabRig id (asks (reqOf (.write [1, 2]) 0x10080 g 0))
      (∃ l a, Inbound s fabCtx .engineWrite 2 l a) ∧ NextAtItsPlace s ∧ s.Whole) ∧
    (let s := fabRig id (asks (reqOf (.atomic 0 1 0 true) 0x10080 0 0))
     (∃ l a, Inbound s fabCtx .write 4 l a ∧ (l.off % 4 == 0) = true) ∧ NextAtItsPlace s) ∧
    Refused (fabRig id (asks (reqOf (.read 128) 0x80000080 0 0))) fabCtx .read 128 0x08 ∧
    (let s := fabRig id (asks (reqOf (.write [1]) 0x80000080 0 0))
     Refused s fabCtx .engineWrite 1 0x08 ∧ NextAtItsPlace s) ∧
    (let s := fabRig id (asks (reqOf (.atomic 0 1 0 true) 0x80000080 0 0))
     Refused s fabCtx .write 4 0x08 ∧ NextAtItsPlace s) ∧
    (let s := fabRig id (asks (reqOf .increment 0x10080 0 1))
     s.cap 0 = true ∧ s.input.req.locseq ≠ s.expects s.input.req.src s.input.req.addr) := by
  have ok {s : State} {acc : Access} {n : Nat} (h : inboundB s fabCtx acc n (fun _ => true) = true) : ∃ l a, Inbound s fabCtx acc n l a :=
    (inbound_of h).imp fun _ h => h.imp fun _ h => h.1
  refine ⟨ok (by decide), fun g h => ?_, ⟨inbound_of (by decide), rfl, by decide⟩, refused_of (by decide),
    ⟨refused_of (by decide), rfl, by decide⟩, ⟨refused_of (by decide), rfl, by decide⟩, by decide, by decide⟩
  obtain rfl | rfl := h <;> exact ⟨ok (by decide), ⟨rfl, by decide⟩, whole_of (by decide)⟩

/-- What is known of device 2's version 1. -/
def peer1 (inc : Nat) (squashed : Bool) : PeerVer := { dev := 2, loc := 1, inc := inc, squashed := squashed, committed := none, ancestors := [] }

set_option maxRecDepth 50000 in
/-- A late store of a squashed version. -/
theorem witness_late_store : let s := fabRig (fun f => { f with peerVers := [peer1 1 true] }) (asks (reqOf (.write [1]) 0x10080 0x2041 0))
    (s.part? 1).bind (fun p => s.ctx? p.fabctx) = some fabCtx ∧ NextAtItsPlace s ∧ s.peerVer? s.input.req.gid = some (peer1 1 true) ∧
      s.input.req.gid.toNat % 64 = 1 ∧ s.input.req.gid.toNat / 64 % 64 ≠ 0 ∧ Unpinned s ∧ s.cap 0 = true :=
  ⟨rfl, ⟨rfl, by decide⟩, rfl, by decide, by decide, fun _ => rfl, rfl⟩

/-- An access in flight to device 3. -/
def flight (u : FabUse) : FabAccess :=
  { tag := 5, peer := 3, owner := .tray 1, op := .read 4, addr := 0x80, va := 0x0130000000000080, gid := 0, locseq := 0, use := u, since := 0 }

/-- Responses and FABTO: for a store, a load whose producer stands in the tray, a peek; none in flight. -/
theorem witness_answers :
    (∀ u : FabUse, u = .store ∨ u = .peek → ∀ ok : Bool,
      let s := fabRig (fun f => { f with flights := [flight u] }) { Input.blank with id := 5, resp := { tag := 5, ok := ok, data := [] } }
      s.fab.flights.find? (fun f => f.tag == s.input.resp.tag) = some (flight u) ∧ s.fab.flights.find? (fun f => f.tag == s.input.id) = some (flight u) ∧
        (flight u).since + s.fabtoNs ≤ s.time) ∧
    (let x : Producer := { prodOf .load with tags := [5] }
     let s0 := fabRig (fun f => { f with flights := [flight (.load 9 0 [.base 0 1] 4 false)] }) { Input.blank with resp := { tag := 5, ok := true, data := [7, 0, 0, 0] } }
     let s : State := { s0 with prods := [x] }
     s.fab.flights.find? (fun f => f.tag == s.input.resp.tag) = some (flight (.load 9 0 [.base 0 1] 4 false)) ∧
      s.prods.find? (fun x => x.id == 9) = some x ∧ x.bad = [] ∧ x.owner = .tray 1 ∧ s.fab.notices.any (fun y => y.waiter == some 9) = false) ∧
    (fabRig id Input.blank).fab.flights.find? (fun f => f.tag == 0) = none ∧
    (let s : State := { waitRig (.fabric 0) 20000000 with input := { Input.blank with k := 1, agent := .tray 1 0 } }
     s.waitOf s.input.agent = .fabric 0 ∧ 0 + s.fabtoNs ≤ s.time) := by
  refine ⟨fun u h ok => ?_, ⟨rfl, rfl, rfl, rfl, rfl⟩, rfl, rfl, by decide⟩
  obtain rfl | rfl := h <;> cases ok <;> exact ⟨rfl, rfl, by decide⟩

/-- A notice to a device. -/
def noticeTo (squash : Bool) (peer : Nat) (sent : List Nat) (waiter : Option Nat) : NoticeOut :=
  { id := 9, squash := squash, gid := 0x1041, parent := 0x1000, waits := [peer], owed := [], since := 0, sent := sent, waiter := waiter }

/-- The device with a notice, in an event about it and a device. -/
def noticeRig (x : NoticeOut) (pr : List Producer) (n k : Nat) : State :=
  { fabRig (fun f => { f with notices := [x] }) { Input.blank with id := 9, n := n, k := k, notice := { src := n, gid := 0x1041, parent := 0 } } with
    prods := pr }

/-- Notices: to a device within reach and to one out of reach, acknowledged with and without an instruction that waits, and owed
a repeat after FABTO. -/
theorem witness_notices :
    (∀ p : Nat, p = 3 ∨ p = 4 → let s := noticeRig (noticeTo false p [] none) [] p 0
      s.fab.notices.find? (fun x => x.id == s.input.id) = some (noticeTo false p [] none) ∧ (∀ f ∈ s.fab.flights, ¬(f.gid = 0x1041 ∧ f.peer = p)) ∧
        (p = 3 → s.route p = .direct)) ∧
    (let s : State := { noticeRig (noticeTo false 4 [] none) [] 4 0 with pkg := rig.pkg }
     s.route 4 = .unreachable) ∧
    (∀ w : Option Nat, w = none ∨ w = some 9 → let s := noticeRig (noticeTo true 3 [3] w) [prodOf .long] 3 0
      (∀ y ∈ s.fab.notices, (y.gid = s.input.notice.gid ∧ (s.input.n ∈ y.waits ∨ s.input.n ∈ y.owed) ∧ s.input.n ∈ y.sent) ↔ y = noticeTo true 3 [3] w) ∧
        (noticeTo true 3 [3] w).waits.erase 3 = [] ∧ s.prods.find? (fun p => p.id == 9) = some (prodOf .long) ∧ s.inTrap (prodOf .long).owner = false) ∧
    (let s := noticeRig (noticeTo true 3 [3] none) [] 3 2
     s.fab.notices.find? (fun x => x.id == s.input.id) = some (noticeTo true 3 [3] none) ∧ (noticeTo true 3 [3] none).since + s.fabtoNs ≤ s.time) := by
  refine ⟨fun p h => ?_, by decide, fun w h => ?_, rfl, by decide⟩
  · obtain rfl | rfl := h <;> exact ⟨rfl, fun f hf => (List.not_mem_nil hf).elim, by decide⟩
  · obtain rfl | rfl := h <;> exact ⟨by decide, rfl, rfl, rfl⟩

/-- A commit notice that must wait: for the acknowledgement of a squash notice of the same RESOLVE, and for a store of its version that is
in flight to its peer; with neither it may go. -/
theorem witness_notice_waits :
    let x := noticeTo false 3 [] (some 9)
    let s (qs : List NoticeOut) (fs : List FabAccess) : State := fabRig (fun f => { f with notices := x :: qs, flights := fs }) { Input.blank with id := 9, n := 3 }
    let clear (s : State) := ∀ y ∈ s.fab.notices, y.squash = true → y.waiter.isSome = true → y.waiter = x.waiter → y.waits = []
    let free (s : State) := ∀ f ∈ s.fab.flights, ¬(f.gid = x.gid ∧ f.peer = 3 ∧ ordered f.op = true)
    (∀ qs fs, (s qs fs).fab.notices.find? (fun y => y.id == (s qs fs).input.id) = some x) ∧
    (clear (s [] []) ∧ free (s [] []) ∧ (s [] []).route 3 = .direct) ∧
    ¬clear (s [{ noticeTo true 4 [4] (some 9) with id := 8 }] []) ∧
    ¬free (s [] [{ flight .store with gid := 0x1041, op := .write [1] }]) := by
  refine ⟨fun _ _ => rfl, ⟨fun y hy h => ?_, fun f hf => (List.not_mem_nil hf).elim, by decide⟩, fun h => ?_, fun h => ?_⟩
  · obtain rfl := List.mem_singleton.1 hy
    cases h
  · exact absurd (h _ (List.mem_cons_of_mem _ (List.mem_singleton.2 rfl)) rfl rfl rfl) (by simp [noticeTo])
  · exact h _ (List.mem_singleton.2 rfl) ⟨rfl, rfl, rfl⟩

/-- A commit notice whose parent is squashed here. -/
theorem witness_squashed_parent :
    let s := fabRig (fun f => { f with peerVers := [peer1 1 true] }) { Input.blank with notice := { src := 2, gid := 0x2081, parent := 0x2041 } }
    s.input.notice.parent.toNat / 64 % 64 ≠ 0 ∧ s.peerVer? s.input.notice.parent = some (peer1 1 true) ∧
      s.input.notice.parent.toNat % 64 = (peer1 1 true).inc := ⟨by decide, rfl, rfl⟩

set_option maxRecDepth 50000 in
/-- A squash and a commit notice heard of a version whose incarnation is known. -/
theorem witness_heard :
    let s := fabRig (fun f => { f with peerVers := [peer1 1 false] }) { Input.blank with notice := { src := 2, gid := 0x2041, parent := 0x2000 } }
    s.peerVer? s.input.notice.gid = some (peer1 1 false) ∧ s.input.notice.gid.toNat % 64 = 1 ∧ s.input.notice.parent.toNat / 64 % 64 = 0 ∧ s.Whole ∧
      s.vlines = [] ∧ s.vtags = [] := ⟨rfl, by decide, by decide, whole_of (by decide), rfl, rfl⟩

/-- A device of a parity group of three at 0x1030200, rank 0, four stripes from frame 0x200 on, in an event. -/
def parityRig (rebuilds : List (Nat × Nat)) (x : Input) : State :=
  let s := fabRig (fun f => { f with rebuilds := rebuilds }) x
  { s with
    pkg := { s.pkg with parts := s.pkg.parts.map fun p => { p with pgroup := 0x1030200 } }
    mem := ((s.mem.writeN 0x1030200 [3]).writeN 0x1030210 [4]).writeN 0x1030219 [2] }

/-- The partition and its group. -/
def parityPart : Partition := ((parityRig [] Input.blank).part? 1).get (by decide)

def parityGrp : ParityGroup := { n := 3, rank := 0, state := 0, pbase := 0, stripes := 4, qbase := 0x200, members := List.replicate 16 0 }

/-- A delta of the last stripe to its last byte. -/
def deltaIn : Delta := { part := 1, src := 2, tag := 5, stripe := 3, off := 65534, xor := [1, 2] }

set_option maxRecDepth 50000 in
/-- Parity: a delta, a lost member and a replacement, the rebuild of a stripe of member 2 and its end. -/
theorem witness_parity :
    (∀ rs : List (Nat × Nat), rs = [] ∨ rs = [(1, 3)] → let s := parityRig rs { Input.blank with delta := deltaIn }
      s.Whole ∧ Unpinned s ∧ s.part? deltaIn.part = some parityPart ∧ s.pgroup? parityPart = some parityGrp ∧ deltaIn.stripe < parityGrp.stripes ∧
        deltaIn.off + deltaIn.xor.length ≤ 65536) ∧
    (∀ b : Bool, let s := parityRig [] { Input.blank with id := 1, cells := [(0x2000000, 7)], flag := b }
      s.part? s.input.id = some parityPart ∧ parityPart.pgroup ≠ 0 ∧ s.pgroup? parityPart = some parityGrp ∧ s.Whole ∧ Unpinned s) ∧
    (∀ b : Bool, let s := parityRig [(1, 0)] { Input.blank with rebuild := { part := 1, member := 2, stripe := 0, frame := 0x300, peers := [(1, [(0, 1)])] }, flag := b }
      s.Whole ∧ Unpinned s ∧ (s.input.rebuild.member + 1 + s.input.rebuild.stripe % (parityGrp.n - 1)) % parityGrp.n = parityGrp.rank ∧
        s.input.rebuild.stripe < parityGrp.stripes ∧ s.input.rebuild.member ≠ parityGrp.rank ∧
        (s.input.rebuild.part, s.input.rebuild.stripe) ∈ s.fab.rebuilds ∧ s.fab.queued = [] ∧
        ∀ m ∈ (List.range parityGrp.n).filter fun m =>
          m != s.input.rebuild.member && m != parityGrp.rank && (m + 1 + s.input.rebuild.stripe % (parityGrp.n - 1)) % parityGrp.n == parityGrp.rank,
          ∃ x ∈ s.input.rebuild.peers, x.1 = m) := by
  refine ⟨fun rs h => ?_, fun b => by cases b <;> exact ⟨rfl, by decide, by decide, whole_of (by decide), fun _ => rfl⟩, fun b => by
    cases b <;> exact ⟨whole_of (by decide), fun _ => rfl, by decide, by decide, by decide, List.mem_singleton.2 rfl, rfl, by decide⟩⟩
  obtain rfl | rfl := h <;> exact ⟨whole_of (by decide), fun _ => rfl, rfl, by decide, by decide, by decide⟩

/-- A packet for device 3. -/
def packet (age : Nat) : Packet := { dst := 3, src := 1, vc := 0, age := age, mask := 0, inj := 0 }

/-- The crossbar of die 7, whose port 0 leads to device 3, with one packet that comes in or waits, with two and with a multicast; links
that fail sixteen times, of die 0 and of a hub; the last drain marker and one that is not. -/
theorem witness_links :
    (∀ ps qs, (ps = [packet 0] ∧ qs = [] ∨ ps = [] ∧ qs = [packet 0]) →
      let s := fabRig (fun f => { f with queue := qs }) { Input.blank with id := 7, packets := ps }
      s.cap 0 = true ∧ (packet 0).mask = 0 ∧ (packet 0).dst ≠ s.pkg.fabno.toNat ∧ (0 : Nat) ∈ freePorts s 7 ∧ directPort s (packet 0) 0 ∧
        ∀ x ∈ freePorts s 7, x < 0 → ¬directPort s (packet 0) x) ∧
    (let s := fabRig id { Input.blank with id := 7, packets := [{ packet 0 with mask := 0x28 }] }
     s.cap 0 = true ∧ ({ packet 0 with mask := 0x28 } : Packet).mask ≠ 0 ∧ s.fab.queue = [] ∧ freePorts s 7 ≠ []) ∧
    (let s := fabRig id { Input.blank with id := 7, packets := [packet 255, packet 3] }
     (packet 3).age < (packet 255).age ∧ (0 : Nat) ∈ freePorts s 7 ∧ (1 : Nat) ∈ freePorts s 7 ∧ (∀ x ∈ freePorts s 7, x ≠ 0 → 1 ≤ x) ∧
      ∀ x ∈ [packet 255, packet 3], directPort s x 0 ∧ ∀ y, y ≠ 0 → ¬directPort s x y) ∧
    (Sparse.wf 0 rig.pkg.replays = true ∧ ∀ d : Nat, d = 0 ∨ d = 5 →
      let s : State := { rig with pkg := { rig.pkg with replays := [(d * 16 + 2, 16)] }, input := { Input.blank with id := d, n := 2 } }
      16 ≤ Sparse.get 0 s.pkg.replays (s.input.id * 16 + s.input.n % 16) ∧ s.input.id ∉ s.pkg.offline ∧ s.pkg.dead = false ∧ s.goingOff = none) ∧
    (∀ ms : List (Nat × Nat), ms = [(0, 3)] ∨ ms = [(0, 3), (1, 3)] →
      let r : Reconfig := { ports := [(0, 3)], markers := ms }
      let s := fabRig (fun f => { f with reconfig := some r }) { Input.blank with id := 0, n := 3 }
      s.fab.reconfig = some r ∧ (s.input.id, s.input.n) ∈ r.markers ∧
        ((r.markers.filter fun x => x != (s.input.id, s.input.n)) = [] ↔ ms = [(0, 3)])) := by
  refine ⟨fun ps qs h => ?_, ⟨rfl, by decide, rfl, by decide⟩,
    ⟨by decide, by decide, by decide, by decide, fun x hx => ?_⟩, ⟨rfl, fun d h => ?_⟩, fun ms h => ?_⟩
  · have h0 (s : State) (h : s = fabRig (fun f => { f with queue := qs }) { Input.blank with id := 7, packets := ps }) :
        s.cap 0 = true ∧ (packet 0).mask = 0 ∧ (packet 0).dst ≠ s.pkg.fabno.toNat ∧ (0 : Nat) ∈ freePorts s 7 ∧ directPort s (packet 0) 0 ∧
          ∀ x ∈ freePorts s 7, x < 0 → ¬directPort s (packet 0) x := by
      subst h
      refine ⟨?_, rfl, ?_, ?_, ?_, fun x _ h => absurd h (Nat.not_lt_zero x)⟩
      · exact (by decide : (fabRig id Input.blank).cap 0 = true)
      · exact (by decide : (3 : Nat) ≠ (fabRig id Input.blank).pkg.fabno.toNat)
      · exact (by decide : (0 : Nat) ∈ freePorts (fabRig id Input.blank) 7)
      · exact (by unfold directPort; decide : directPort (fabRig id Input.blank) (packet 0) 0)
    exact h0 _ rfl
  · have hd : x.dst = 3 := by
      rcases List.mem_cons.1 hx with rfl | hx
      · rfl
      · rcases List.mem_cons.1 hx with rfl | hx
        · rfl
        · exact (List.not_mem_nil hx).elim
    refine ⟨⟨by decide, by rw [hd]; decide⟩, fun y hy h => ?_⟩
    by_cases hy' : y < 16
    · have key : ∀ y < 16, y ≠ 0 → ((fabRig id { Input.blank with id := 7, packets := [packet 255, packet 3] }).pkg.portstat.toList.getD y 0).getLsbD 31 = false := by
        decide
      exact Bool.noConfusion (h.1.symm.trans (key y hy' hy))
    · have : (fabRig id { Input.blank with id := 7, packets := [packet 255, packet 3] }).pkg.portstat.toList.getD y 0 = 0 := by
        rw [List.getD_eq_getElem?_getD, List.getElem?_eq_none (by simp; omega)]
        rfl
      exact Bool.noConfusion (h.1.symm.trans (congrArg (·.getLsbD 31) this))
  · obtain rfl | rfl := h <;> decide
  · obtain rfl | rfl := h <;> exact ⟨rfl, by decide, by decide⟩

/-- A device whose memory holds a partition table of one record at 0, with some benches, and no team. -/
def quiesceRig (benches : Byte) (pend : Bool) : State :=
  { rig with
    mem := (Memory.writeN [] 0 [benches]).writeN 0x33 [1]
    teams := []
    trays := []
    pkg := { rig.pkg with quiesce := 1, pend := pend } }

set_option maxRecDepth 100000 in
/-- Quiesce as it is asked; as every team is saved, with a fit variant pending and none, and a table that is fit and one that is
not (two benches). -/
theorem witness_quiesce :
    (rig.pkg.quiesce.getLsbD 0 = false ∧ ∀ q ∈ rig.sched.preempts, q.id < rig.nextId) ∧
    ∀ p : Bool, let s := quiesceRig 7 p
      s.pkg.quiesce.getLsbD 0 = true ∧ s.teams = [] ∧ s.sched.preempts = [] ∧ Unpinned s ∧ s.fab.dirty = [] ∧ FitVariant s := by
  refine ⟨⟨by decide, fun q h => (List.not_mem_nil h).elim⟩, fun p => ?_⟩
  unfold FitVariant
  cases p <;> exact ⟨by decide, rfl, rfl, fun _ => rfl, rfl, by decide, by decide, by decide +kernel, fun i h => (List.not_mem_nil h).elim⟩

/-- A device at quiesce, its teams saved, with a dirty protected sector of a stripe of its parity group, whose holder is device 3. -/
def dirtyRig : State :=
  let s := parityRig [] Input.blank
  { s with
    teams := []
    trays := []
    mem := (s.mem.writeN 0x1030209 [1]).writeN 0x1030220 (List.replicate 16 3)
    pkg := { s.pkg with quiesce := 1 }
    fab := { s.fab with dirty := [(0x101 * 512 + 7, List.replicate 128 1, [])] } }

set_option maxRecDepth 50000 in
/-- Its delta finds its way. -/
theorem witness_dirty : Unpinned dirtyRig ∧ dirtyRig.pkg.quiesce.getLsbD 0 = true ∧ dirtyRig.teams = [] ∧ dirtyRig.sched.preempts = [] ∧
    ∃ x u, dirtyRig.fab.dirty = [x] ∧ dirtyRig.writeBack x.1 x.2.1 x.2.2 = .ok u := by
  refine ⟨fun _ => rfl, by decide, rfl, rfl, (0x101 * 512 + 7, List.replicate 128 1, []), ?_⟩
  have h : (match dirtyRig.writeBack (0x101 * 512 + 7) (List.replicate 128 1) [] with | .ok _ => true | .error _ => false) = true := by decide +kernel
  split at h
  · rename_i u hu
    exact ⟨u, rfl, hu⟩
  · cases h

set_option maxRecDepth 100000 in
theorem witness_tables :
    ((quiesceRig 7 false).pkg.parttab.toNat % 64 = 0 ∧ FitTable 96 (tableRecords (quiesceRig 7 false))) ∧
    ¬FitTable 96 (tableRecords (quiesceRig 3 false)) := by
  have t7 : (tableRecords (quiesceRig 7 false)).map (fun x => (x.1.benches, x.2, x.1.hbm, x.1.l2q, x.1.carq, x.1.fabsh)) =
      [([0, 1, 2], true, List.replicate 4 (0, 0), 0, 0, 0)] := by decide +kernel
  have t3 : (tableRecords (quiesceRig 3 false)).map (fun x => (x.1.benches, x.2, x.1.hbm, x.1.l2q, x.1.carq, x.1.fabsh)) =
      [([0, 1], true, List.replicate 4 (0, 0), 0, 0, 0)] := by decide +kernel
  obtain ⟨x, hx⟩ := List.length_eq_one_iff.1 (by simpa using congrArg List.length t7 : (tableRecords (quiesceRig 7 false)).length = 1)
  obtain ⟨y, hy⟩ := List.length_eq_one_iff.1 (by simpa using congrArg List.length t3 : (tableRecords (quiesceRig 3 false)).length = 1)
  simp only [hx, hy, List.map_cons, List.map_nil, List.cons.injEq, and_true, Prod.mk.injEq] at t7 t3
  refine ⟨⟨rfl, ?_⟩, fun h => ?_⟩
  · rw [hx]
    simp [FitTable, t7]
  · rw [hy] at h
    have := (h.1 y (List.mem_singleton.2 rfl)).2
    rw [t3.1] at this
    exact absurd this (by decide)

/-- The device as the host writes DIECTL. -/
def dieRig (val : BitVec 64) (off : List Nat) (ctl : Word) (k : Nat) (id : Nat) : State :=
  { rig with pkg := { rig.pkg with offline := off, diectl := ctl }, input := { Input.blank with val := val, k := k, id := id } }

/-- A die that cannot be named; die 3 and die 8 leave; an optical die whose links failed; a die that is off line and one that is not
come back. -/
theorem witness_dies :
    (let s := dieRig 0x80000005 [] 0 0 0
     s.goingOff = none ∧ s.input.val.getLsbD 8 = false ∧ s.input.val.getLsbD 31 = true ∧ s.input.val.toNat % 16 ∉ [0, 1, 2, 3, 7, 8]) ∧
    (∀ d : Nat, d = 3 ∨ d = 8 → let s := dieRig (BitVec.ofNat 64 (0x80000000 + d)) [7] 0 0 0
      NamesDie s d ∧ d ∉ s.pkg.offline ∧ Unpinned s ∧ s.pkg.diereq.toNat % 64 = 0 ∧ s.pkg.diereq.toNat < 2 ^ 40 ∧
        (∀ i < 24, s.byteSeen [] (.hbm (s.pkg.diereq.toNat + 40 + i)) = 0) ∧ (∀ x ∈ s.pkg.offline, 4 ≤ x) ∧ s.goingOff = none) ∧
    (let s := dieRig 0 [] 0 1 7
     s.goingOff = none ∧ s.cap 0 = true ∧ s.input.id = 7 ∧ (7 : Nat) ∉ s.pkg.offline) ∧
    (∀ off : List Nat, off = [] ∨ off = [3] → let s := dieRig 0x80000103 off 0 0 0
      s.goingOff = none ∧ NamesDie s 3 ∧ s.input.val.getLsbD 8 = true) := by
  refine ⟨by decide, fun d h => ?_, by decide, fun off h => ?_⟩
  · obtain rfl | rfl := h <;> exact ⟨by unfold NamesDie; decide, by decide, fun _ => rfl, by decide, by decide, by decide, by decide, by decide⟩
  · obtain rfl | rfl := h <;> exact ⟨by decide, by unfold NamesDie; decide, by decide⟩

/-- An allocation of one unit on die 0. -/
def alloc0 : Alloc := { id := 9, ctx := 1, ver := 0, handle := 0x100000000, units := 1, die := 0, first := 0, store := Store.empty, lost := false }

/-- Die 0 leaves, its teams gone, with allocations and quotas of the four dies. -/
def leaveRig (allocs : List Alloc) (tsq : List Nat) : State :=
  let s := dieRig 0 [] 0x90000000 2 0
  { s with teams := [], trays := [], allocs := allocs, pkg := { s.pkg with parts := s.pkg.parts.map fun p => { p with tsq := tsq } } }

theorem leaving (as_ : List Alloc) (q : List Nat) : (leaveRig as_ q).input.k = 2 ∧ (leaveRig as_ q).goingOff = some 0 ∧ (leaveRig as_ q).pkg.report = 0 ∧
    (leaveRig as_ q).homeTab = [] ∧ (leaveRig as_ q).ring.cars.length ≤ 896 ∧ (leaveRig as_ q).sched.preempts = [] ∧ (leaveRig as_ q).teams = [] ∧
    (leaveRig as_ q).pkg.diectl.getLsbD 7 = false := ⟨rfl, (by decide : (dieRig 0 [] 0x90000000 2 0).goingOff = some 0), rfl, rfl, Nat.zero_le 896, rfl, rfl,
    show (0x90000000#32).getLsbD 7 = false from by decide⟩

/-- Where the allocation of a die that leaves goes: to the first of the next three with room, or nowhere. -/
theorem witness_room :
    (∀ i : Nat, i = 1 ∨ i = 2 ∨ i = 3 → let s := leaveRig [alloc0] (([1, 0, 0, 0] : List Nat).set i 1)
      HasRoom s (s.partOfCtx 1) i 1 0 ∧ ∀ j g, 1 ≤ j → j < i → ¬HasRoom s (s.partOfCtx 1) j 1 g) ∧
    (let s := leaveRig [alloc0] [1, 0, 0, 0]
     ∀ j g, j ∈ [1, 2, 3] → ¬HasRoom s (s.partOfCtx 1) ((0 + j) % 4) 1 g) := by
  refine ⟨fun i h => ?_, fun j g hj h => ?_⟩
  · obtain rfl | rfl | rfl := h <;> refine ⟨by unfold HasRoom; decide, fun j g h1 h2 h => ?_⟩
    · omega
    · obtain rfl : j = 1 := by omega
      exact absurd h.2.1 (by decide)
    · obtain rfl | rfl : j = 1 ∨ j = 2 := by omega
      · exact absurd h.2.1 (by decide)
      · exact absurd h.2.1 (by decide)
  · simp only [List.mem_cons, List.not_mem_nil, or_false] at hj
    obtain rfl | rfl | rfl := hj <;> exact absurd h.2.1 (by decide)

/-- The device in an event that the host brings. -/
def hostRig (x : Input) : State := { rig with input := x }

/-- Ports down and up, a reconfiguration, the ends of the power cap's range, the last entry of the home table, memory as the host
writes and reads it, a nonce, images that verify. -/
theorem witness_host :
    (∀ q : Fin 16, rig.pkg.portstat[q].getLsbD 31 = false) ∧ (∃ q : Fin 16, (fabRig id Input.blank).pkg.portstat[q].getLsbD 31 = true) ∧
    (let s := hostRig { Input.blank with pairs := [(15, 3)] }
     s.cap 0 = true ∧ s.fab.reconfig = none ∧ s.input.pairs ≠ [] ∧ ∀ x ∈ s.input.pairs, x.1 < 16 ∧ x.2 < 16) ∧
    (∀ v : BitVec 64, v = 1000 ∨ v = 3500 → 1000 ≤ v.toNat % 4096 ∧ v.toNat % 4096 ≤ 3500) ∧
    (let s := hostRig { Input.blank with id := 0x10000 + 32 * 255, bytes := List.replicate 12 0 ++ [9] ++ List.replicate 19 0 }
     s.input.bytes.length = 32 ∧ (∀ h, s.homeTab[255]? = some h → ¬(h.valid = true ∧ h.home = 3)) ∧ s.ctx? (fieldAt s.input.bytes 12 2) = none) ∧
    (let s := hostRig { Input.blank with cells := [(2 ^ 40 - 1, 7), (0, 1)], id := 2 ^ 40 - 64, n := 64 }
     s.Whole ∧ Unpinned s ∧ (∀ x ∈ s.input.cells, x.1 < 2 ^ 40) ∧ s.input.cells.Pairwise (fun x y => x.1 ≠ y.1) ∧ s.input.id + s.input.n ≤ 2 ^ 40) ∧
    (List.replicate 32 (0 : Byte)).length = 32 ∧
    ∀ x : List Byte, Config.imageVerifies x = true → Config.minimumVersion.toNat ≤ (Config.securityVersion x).toNat →
      (hostRig { Input.blank with images := [x] }).input.images ≠ [] ∧
        ∀ y ∈ (hostRig { Input.blank with images := [x] }).input.images, Config.imageVerifies y = true ∧
          Config.minimumVersion.toNat ≤ (Config.securityVersion y).toNat :=
  ⟨by decide, ⟨0, by decide⟩, ⟨rfl, rfl, by decide, by decide⟩, fun v h => by obtain rfl | rfl := h <;> decide,
    ⟨rfl, fun h (hh : none = some h) => (nomatch hh), rfl⟩, ⟨whole_of (by decide), fun _ => rfl, by decide, by decide, by decide⟩, rfl,
    fun x h1 h2 => ⟨by simp [hostRig], fun y hy => by obtain rfl := List.mem_singleton.1 hy; exact ⟨h1, h2⟩⟩⟩

/-- A device that is to issue a group of a word. -/
def fetchRig (w : Nat) : State := State.reset.withFetchWord 32 w

/-- A device that is to issue a group whose first two bytes are the last of its page. -/
def edgeRig : State :=
  let s := fetchRig 0
  { s with
    mem := s.mem.writeN 0x103FFFE [1]
    trays := s.trays.map fun tr => { tr with frontier := tr.frontier.map fun e => { e with pc := 0x1FFFE } } }

/-- The bytes at a PC, checked. -/
def readsCodeB (s : State) (c : Ctx) (bs : List Byte) : Bool :=
  (List.range bs.length).all fun k => readsB (s.fetchByte c.cx c.ver c.team.id (c.ent.pc + BitVec.ofNat 64 k)) (bs.getD k 0)

theorem reads_code_of {s : State} {c : Ctx} {bs : List Byte} (h : readsCodeB s c bs = true) : s.readsCode c bs := by
  intro k b hb
  have hk : k < bs.length := (List.getElem?_eq_some_iff.1 hb).1
  have := List.all_eq_true.1 h k (List.mem_range.2 hk)
  rw [List.getD_eq_getElem?_getD, hb] at this
  exact (readsB_iff _ _).1 this

/-- A device that issues: its next move, its context, and the bytes at its PC. -/
theorem issues_next (r : State) (bs : List Byte)
    (h : (({ r with agenda := [] } : State).ticked.canTry (.tray 1 0) &&
      (({ r with agenda := [] } : State).ticked.agentCtx (.tray 1 0)).any fun c =>
        readsCodeB ({ r with agenda := [] } : State).ticked c bs) = true)
    (hn : r.nextMove = some (.issue (.tray 1 0), { r with agenda := [] })) :
    ∃ s' c, r.nextMove = some (.issue (.tray 1 0), s') ∧ s'.ticked.agentCtx (.tray 1 0) = some c ∧
      s'.ticked.canTry (.tray 1 0) = true ∧ s'.ticked.readsCode c bs := by
  generalize hs : ({ r with agenda := [] } : State) = s at h hn
  simp only [Bool.and_eq_true] at h
  cases hc : s.ticked.agentCtx (.tray 1 0) with
  | none => rw [hc] at h; exact absurd h.2 (by simp)
  | some c =>
    rw [hc] at h
    exact ⟨s, c, hn, hc, h.1, reads_code_of h.2⟩

/-- ADD issues; a reserved word and an instruction of the front section raise 0x01; code that runs off its page is short. -/
theorem witness_step :
    (∃ s' c, (fetchRig 1).nextMove = some (.issue (.tray 1 0), s') ∧ s'.ticked.agentCtx (.tray 1 0) = some c ∧
      s'.ticked.canTry (.tray 1 0) = true ∧ s'.ticked.readsCode c [1, 0, 0, 0]) ∧
    decode [1, 0, 0, 0] = .ok (.add Pfx.empty { d := 0, a := 0, b := 0, ta := false, tb := false }, []) ∧
    (∃ s' c, (fetchRig 0x1FB).nextMove = some (.issue (.tray 1 0), s') ∧ s'.ticked.agentCtx (.tray 1 0) = some c ∧
      s'.ticked.canTry (.tray 1 0) = true ∧ s'.ticked.readsCode c [0xFB, 1, 0, 0]) ∧
    decode [0xFB, 1, 0, 0] = .error .reservedSlot ∧
    (∃ s' c, edgeRig.nextMove = some (.issue (.tray 1 0), s') ∧ s'.ticked.agentCtx (.tray 1 0) = some c ∧
      s'.ticked.canTry (.tray 1 0) = true ∧ s'.ticked.readsCode c [1, 0]) ∧ decode [1, 0] = .error .short ∧
    (edgeRig.ctx? 1).any (fun c => match edgeRig.fetchByte c 0 1 0x20000 with | .error e => e == 0x08 | .ok _ => false) = true := by
  refine ⟨issues_next (fetchRig 1) _ (by decide) rfl, rfl, issues_next (fetchRig 0x1FB) _ (by decide) rfl, rfl, issues_next edgeRig _ (by decide) rfl, rfl, by decide⟩

end Sys2Proof.Tests
end

/-!
SUPPORT. Fences and bindings (R227, R228, R233, R243, R250 to R252), and the device right after reset.
-/

namespace Sys2Proof.Machine

/-! A group that changes neither trays nor teams before it retires. -/

theorem RegsAfter.of_same {s t : State} (h : ∀ o r, t.held o r = s.held o r) (o : Owner) : RegsAfter s t o [] := by
  intro o' r
  rw [h]
  split <;> rfl

theorem State.stands_congr {s u : State} (htr : u.trays = s.trays) (htm : u.teams = s.teams) : u.stands = s.stands := by
  unfold State.stands
  rw [htr, htm]

/-- A group that retires in a state with the trays and teams in which it issued has done all else that it does. -/
theorem Issues.computes_retire {s u v : State} {p : Pfx} {size : Nat} {r : Req} {c : Ctx} (h : Issues s p size r c u)
    (htr : v.trays = u.trays) : Computes v (v.retire c) c [] where
  regs := RegsAfter.of_same (v.held_retire c) _
  rest := v.retire_still c
  flow := State.retire_moved rfl fun hf => by
    unfold State.tray?
    rw [htr]
    exact h.entry hf
  bytes := sameBytes_of_still (v.retire_still c)
  cursors := State.retire_cursors (fun _ => rfl) h.nodup

theorem Issues.acts_retire {s u v : State} {p : Pfx} {size : Nat} {r : Req} {c : Ctx} (h : Issues s p size r c u)
    (htr : v.trays = u.trays) (htm : v.teams = u.teams) : Acts u (v.retire c) v c [] c.past where
  regs := RegsAfter.of_same (fun o x => by rw [State.held_retire, State.held_congr htr htm]) _
  rest := v.retire_still c
  flow := State.retire_moved (State.stands_congr htr htm) h.entry

/-! With what scope a group issues. -/

theorem State.trayCtx_pfx {s : State} {id k size : Nat} {p : Pfx} {c : Ctx} (h : s.trayCtx id k p size = some c) : c.pfx = p := by
  unfold State.trayCtx at h
  split at h
  · cases h
  · split at h <;> cases h
    rfl

theorem State.frontCtx_pfx {s : State} {id size : Nat} {p : Pfx} {c : Ctx} (h : s.frontCtx id p size = some c) : c.pfx = p := by
  unfold State.frontCtx at h
  split at h <;> cases h
  rfl

theorem State.issuer_pfx {s : State} {p : Pfx} {size : Nat} {c : Ctx} (h : s.issuer p size = some c) : c.pfx = p := by
  unfold State.issuer at h
  split at h
  case h_1 => cases h
  case h_2 =>
    split at h
    · rename_i c' hc
      split at h <;> cases h
      exact State.trayCtx_pfx hc
    · cases h
  case h_3 =>
    split at h
    · rename_i c' hc
      split at h <;> cases h
      exact State.frontCtx_pfx hc
    · cases h

theorem Issues.scope {s u : State} {p : Pfx} {size : Nat} {r : Req} {c : Ctx} (h : Issues s p size r c u) (v : State) :
    c.scope v = scopeInForce v p := by
  have hp := State.issuer_pfx h.agent
  unfold Ctx.scope scopeInForce
  exact congrArg (fun q => (Pfx.scope q (v.cap 0)).getD 3) hp

/-! What a release or an acquire leaves, and what it waits for. -/

@[simp] theorem State.modPast_trays (s : State) (f : Past → Past) : (s.modPast f).trays = s.trays := by
  unfold State.modPast
  split <;> rfl

@[simp] theorem State.modPast_teams (s : State) (f : Past → Past) : (s.modPast f).teams = s.teams := by
  unfold State.modPast
  split <;> rfl

@[simp] theorem State.releaseOn_trays (s : State) (cx : Context) (o : Owner) (m : BitVec 32) (g : Guard) (n : Nat) :
    (s.releaseOn cx o m g n).trays = s.trays := s.modPast_trays _

@[simp] theorem State.releaseOn_teams (s : State) (cx : Context) (o : Owner) (m : BitVec 32) (g : Guard) (n : Nat) :
    (s.releaseOn cx o m g n).teams = s.teams := s.modPast_teams _

@[simp] theorem State.acquireOn_trays (s : State) (cx : Context) (o : Owner) (m : BitVec 32) (g : Guard) (n : Nat) :
    (s.acquireOn cx o m g n).trays = s.trays := s.modPast_trays _

/-- A release whose covered writes are all acknowledged goes on at once (R241). -/
theorem State.afterAcks_acked (s : State) (c : Ctx) (once : Bool) (g : Guard) (cover : BitVec 64 → Bool) (k : State → State)
    (h : ∀ x ∈ s.fab.flights, s.ackDue c g x = true → cover x.va = false) : s.afterAcks c once g cover k = k s := by
  have hnone : (s.fab.flights.find? fun x => s.ackDue c g x && cover x.va) = none := by
    rw [List.find?_eq_none]
    intro x hx
    cases hd : s.ackDue c g x <;> simp [h x hx, hd]
  unfold State.afterAcks
  rw [hnone]

/-- The survivable part of a release is version 0's alone (R157, R243). -/
theorem State.survive_version (s : State) (c : Ctx) (k : State → State) (h : c.launch.ver ≠ 0) : s.survive c k = k s := by
  unfold State.survive
  exact if_pos (by simpa [Ctx.ver] using h)

/-! FENCE. -/

/-- What FENCE does to the order of memory: it releases and acquires on the implicit object (R233, R250). -/
def State.fenced (s : State) (c : Ctx) (n : Nat) : State :=
  (s.releaseOn c.cx c.owner c.act .implicit n).acquireOn c.cx c.owner c.act .implicit n

/-- When FENCE has nothing to wait for: its scope is below FAB, or the covered writes are acknowledged, at SURV also with a
parity unit and outside version 0 (R2, R241, R243). -/
def FenceReady (s : State) (c : Ctx) (scope : BitVec 3) : Prop :=
  let acked := ∀ x ∈ s.fab.flights, s.ackDue c .implicit x = true → c.cx.unbound x.va = false
  scope ≠ 4 ∧ scope ≠ 5 ∨ scope = 4 ∧ acked ∨ scope = 5 ∧ s.cap 1 = true ∧ acked ∧ c.launch.ver ≠ 0

theorem exec_fence_ready {s u : State} {p : Pfx} {c : Ctx} (h : Issues s p (groupSize p) {} c u)
    (hr : FenceReady u c (scopeInForce u p)) :
    exec (.fence p) s = .next ((u.fenced c (scopeInForce u p).toNat).retire c) := by
  change execFence p s = _
  dsimp only [execFence]
  rw [h.run, h.scope]
  generalize scopeInForce u p = n at hr ⊢
  obtain ⟨h4, h5⟩ | ⟨rfl, hack⟩ | ⟨rfl, hcap, hack, hver⟩ := hr
  · have h4' : (n == 4) = false := beq_false_of_ne h4
    have h5' : (n == 5) = false := beq_false_of_ne h5
    simp only [h4', h5', Bool.false_and, Bool.false_eq_true, if_false]
    rfl
  · simp [u.afterAcks_acked c true _ _ _ hack, State.fenced]
  · simp [u.afterAcks_acked c true _ _ _ hack, u.survive_version c _ hver, hcap, State.fenced]

theorem exec_fence_without_parity {s u : State} {p : Pfx} {c : Ctx} (h : Issues s p (groupSize p) {} c u)
    (h5 : scopeInForce u p = 5) (hcap : u.cap 1 = false) :
    exec (.fence p) s = .next (u.raise c { code := 0x02, mask := c.act }) := by
  change execFence p s = _
  dsimp only [execFence]
  rw [h.run, h.scope]
  simp [h5, hcap]

/-! BIND. -/

/-- Nonempty ranges meet exactly when each begins before the other ends. -/
theorem meetRanges_iff_overlaps {a n b m : Nat} (hn : 0 < n) (hm : 0 < m) : meetRanges a n b m ↔ overlaps a n b m = true := by
  simp only [overlaps, Bool.and_eq_true, decide_eq_true_eq]
  constructor
  · rintro ⟨x, h1, h2, h3, h4⟩
    omega
  · rintro ⟨h1, h2⟩
    exact ⟨max a b, by omega, by omega, by omega, by omega⟩

theorem Context.bindable_iff {cx : Context} {obj base len : Nat} (hl : 0 < len) (hb : ∀ x ∈ cx.bindings, 0 < x.len) :
    bindable cx obj base len ↔ cx.bindClash obj base len = false := by
  have hany : (∀ b ∈ cx.bindings, ¬meetRanges base len b.base b.len ∧ ¬meetRanges base len b.obj 8 ∧ ¬meetRanges obj 8 b.base b.len) ↔
      (cx.bindings.any fun b => overlaps base len b.base b.len || overlaps base len b.obj 8 || overlaps obj 8 b.base b.len) = false := by
    rw [List.any_eq_false]
    refine forall₂_congr fun b hm => ?_
    rw [meetRanges_iff_overlaps hl (hb b hm), meetRanges_iff_overlaps hl (by decide), meetRanges_iff_overlaps (by decide) (hb b hm)]
    simp [and_assoc]
  unfold bindable Context.bindClash
  rw [meetRanges_iff_overlaps hl (by decide), hany, Bool.or_eq_false_iff, Bool.or_eq_false_iff]
  simp [and_assoc]

/-- A cause that no clear policy takes, raised by the one slot of a list (R77, R175). -/
theorem State.judged_single (s : State) (c : Ctx) (once : Bool) (t : Fin 32) (x : SlotCause) (k : Ctx → State → State)
    (hx : clearable x.code = false) : ∃ f : Cause, f.code = x.code ∧ s.judged c once [t] (fun _ => some x) k = s.raise c f := by
  unfold State.judged Ctx.judge
  simp only [List.filterMap_cons, List.filterMap_nil, hx, Bool.and_false, Bool.false_eq_true, if_false, List.foldl_nil, List.find?_cons, beq_self_eq_true]
  exact ⟨_, rfl, rfl⟩

/-- An aligned address that resolves raises nothing (R175). -/
theorem Ctx.accessCause_none {c : Ctx} {s : State} {acc : Access} {n : Nat} {va : DWord} {l : Loc} {a : Attr}
    (h : s.resolve c.cx c.launch.ver c.team.id c.tray? acc va = .ok l a) (hn : va.toNat % n = 0) : c.accessCause s acc n va = none := by
  unfold Ctx.accessCause Ctx.ver
  rw [h]
  simp [hn]

/-- What makes BIND legal but for the overlaps: an aligned object that resolves, whole sectors, and no region at a peer below DIE
scope (R228, R251). -/
structure BindSound (s : State) (c : Ctx) (scope : BitVec 3) (obj base : DWord) (len : Nat) : Prop where
  lands : ∃ l a, s.resolve c.cx c.launch.ver c.team.id c.tray? .read obj = .ok l a
  object : obj.toNat % 64 = 0
  region : base.toNat % 128 = 0
  nonempty : len ≠ 0
  sectors : len % 128 = 0
  remote : base.getLsbD 56 = true → 1 < scope.toNat

/-- A region is added to a context's bindings. -/
def State.withBinding (s : State) (ctx : Nat) (b : Binding) : State :=
  s.modCtx ctx fun x => { x with bindings := x.bindings ++ [b] }

section
variable {s u : State} {p : Pfx} {f : F3} {c : Ctx} {obj base : DWord} {len : Nat}
  (h : Issues s p (groupSize p)
    { srcs := [.reg f.d 2 false .int, .reg f.a 2 f.ta .int, immOr p p.immU f.b f.tb .int], once := true } c u)
  (ho : c.val64 (.reg f.d 2 false .int) c.low = obj) (ha : c.val64 (.reg f.a 2 f.ta .int) c.low = base)
  (hl : (c.val (immOr p p.immU f.b f.tb .int) c.low).toNat = len) (hs : BindSound u c (scopeInForce u p) obj base len)
include h ho ha hl hs

/-- The only cause that a sound BIND can raise is the clash. -/
theorem exec_bind_judged :
    exec (.bind p f) s = .next (u.judged c true [c.low]
      (fun _ => if c.cx.bindClash obj.toNat base.toNat len then some { code := 0x12, addr := base } else none) fun c s =>
      (s.withBinding c.cx.id { base := base.toNat, len := len, obj := obj.toNat, scope := scopeInForce u p }).retire c) := by
  obtain ⟨⟨l, a, hres⟩, hobj, hreg, hlen, hsec, hrem⟩ := hs
  have hr : (base.getLsbD 56 && (p.scope (u.cap 0)).isSome && decide ((scopeInForce u p).toNat ≤ 1)) = false := by
    cases hb : base.getLsbD 56 with
    | false => rfl
    | true => simp [Nat.not_le.2 (hrem hb)]
  change execBind p f s = _
  dsimp only [execBind]
  rw [h.run]
  simp only [h.scope, ho, ha, hl, Ctx.accessCause_none hres hobj, hr, hreg, hsec]
  cases c.cx.bindClash obj.toNat base.toNat len <;> simp [hlen, SlotCause.min, State.withBinding]

theorem exec_bind_bindable (hc : c.cx.bindClash obj.toNat base.toNat len = false) :
    exec (.bind p f) s = .next ((u.withBinding c.cx.id
      { base := base.toNat, len := len, obj := obj.toNat, scope := scopeInForce u p }).retire c) := by
  rw [exec_bind_judged h ho ha hl hs, State.judged_none _ _ _ _ _ _ fun _ _ => by simp [hc]]

theorem exec_bind_clash (hc : c.cx.bindClash obj.toNat base.toNat len = true) :
    ∃ k : Cause, k.code = 0x12 ∧ exec (.bind p f) s = .next (u.raise c k) := by
  obtain ⟨k, hk, hj⟩ := u.judged_single c true c.low { code := 0x12, addr := base } _ rfl
  refine ⟨k, hk, ?_⟩
  rw [exec_bind_judged h ho ha hl hs]
  simp only [hc, if_true]
  exact congrArg _ hj

end

/-! UNBIND. -/

theorem exec_unbind_none {s u : State} {p : Pfx} {f : FA} {c : Ctx}
    (h : Issues s p (groupSize p) { srcs := [.reg f.a 2 f.ta .int], once := true } c u)
    (hb : ∀ b ∈ c.cx.bindings, b.base ≠ (c.val64 (.reg f.a 2 f.ta .int) c.low).toNat) :
    exec (.unbind p f) s = .next (u.retire c) := by
  have hf : (c.cx.bindings.find? fun b => b.base == (c.val64 (.reg f.a 2 f.ta .int) c.low).toNat) = none := by
    rw [List.find?_eq_none]
    simpa using hb
  change execUnbind p f s = _
  dsimp only [execUnbind]
  rw [h.run]
  rw [hf]

theorem exec_unbind_found {s u : State} {p : Pfx} {f : FA} {c : Ctx} {b : Binding} {base : Nat}
    (h : Issues s p (groupSize p) { srcs := [.reg f.a 2 f.ta .int], once := true } c u)
    (ha : (c.val64 (.reg f.a 2 f.ta .int) c.low).toNat = base)
    (hf : c.cx.bindings.find? (fun y => y.base == base) = some b)
    (hack : 4 ≤ b.scope.toNat → ∀ x ∈ u.fab.flights, u.ackDue c (.object b.obj) x = true →
      x.va.toNat < b.base ∨ b.base + b.len ≤ x.va.toNat) :
    exec (.unbind p f) s = .next (((u.releaseOn { c.cx with bindings := [b] } c.owner c.act (.object b.obj) b.scope.toNat).modCtx
      c.cx.id fun x => { x with bindings := x.bindings.filter fun y => y.base != base }).retire c) := by
  have hbase : b.base = base := by simpa using List.find?_some hf
  change execUnbind p f s = _
  dsimp only [execUnbind]
  rw [h.run]
  rw [ha, hf]
  dsimp only
  rw [u.afterAcks_acked, hbase]
  intro x hx hdue
  by_cases h4 : 4 ≤ b.scope.toNat
  · have := hack h4 x hx hdue
    simp only [Bool.and_eq_false_iff, decide_eq_false_iff_not]
    omega
  · simp [h4]

/-! Reset. -/

/-- A device whose stores list nothing holds whole memory. -/
theorem State.reset_whole : State.reset.Whole where
  stores := by
    refine ⟨State.reset_mem, rfl, ?_, ?_, ?_, ?_, ?_, ?_⟩ <;> exact fun x hx => nomatch hx
  lines := ⟨fun x hx => (nomatch hx), List.Pairwise.nil⟩

end Sys2Proof.Machine

namespace Sys2Proof.Proofs

open Sys2Proof.Machine

/-- Settles O32: each instruction's run comes down to one state that retires; FENCE and UNBIND change only the order of memory
before it, and BIND's clash is the model's overlap test. -/
theorem fencesAndBindings : Obligations.FencesAndBindings := by
  unfold Obligations.FencesAndBindings
  refine ⟨fun p s s' c h => ⟨fun hr => ?_, exec_fence_without_parity h⟩, fun p f s s' c l a => ?_, fun p f s s' c h => ⟨fun hb => ?_, fun b hf hack => ?_⟩⟩
  · exact ⟨_, exec_fence_ready h hr, h.computes_retire (by simp)⟩
  · intro o b n h hres hobj hreg hlen hsec hrem hpos
    have hs : BindSound s' c (scopeInForce s' p) (c.val64 o c.low) (c.val64 b c.low) (c.val n c.low).toNat :=
      ⟨⟨l, a, hres⟩, hobj, hreg, hlen, hsec, hrem⟩
    rw [Context.bindable_iff (Nat.pos_of_ne_zero hlen) hpos, Bool.not_eq_false]
    exact ⟨fun hc => ⟨_, exec_bind_bindable h rfl rfl rfl hs hc, h.acts_retire rfl rfl⟩, exec_bind_clash h rfl rfl rfl hs⟩
  · exact ⟨_, exec_unbind_none h hb, h.computes_retire rfl⟩
  · exact ⟨_, exec_unbind_found h rfl hf hack, h.acts_retire (by simp) (by simp)⟩

/-- Settles O59: every register has its reset value by definition, and lists that hold nothing are canonical (log 5: the
device is an X9; log 9: the values that the manual does not give). -/
theorem resetLeavesTheDeviceEmpty : Obligations.ResetLeavesTheDeviceEmpty := by
  unfold Obligations.ResetLeavesTheDeviceEmpty
  refine ⟨rfl, rfl, rfl, rfl, rfl, rfl, fun k => ?_, rfl, rfl, rfl, rfl, rfl, rfl, rfl, rfl, rfl, rfl, rfl, rfl, State.reset_whole⟩
  exact Vector.getElem_replicate _

end Sys2Proof.Proofs

/-!
SUPPORT. Binding and pre-emption (R18, R23, R24, R186, R343, R345 to R348): what the device's own writes leave of what is resident, and one
law for each operation of dispatch and of a pre-emption request.
-/

namespace Sys2Proof.Machine

/-! What is resident, and the images of the saved teams: the device's own writes, of reports, result words and images, leave both. -/

/-- What a tray's image takes over unchanged, with the tray's team. -/
def Tray.kept (tr : Tray) :
    Nat × Nat × Slots (Vector Reg 32) × List Frame × Vector Reg 32 × Slots (BitVec 8) × Slots (Option Nat) :=
  (tr.team, tr.id, tr.base, tr.frames, tr.sregs, tr.preds, tr.remap)

/-- The resident teams and their launches. -/
def State.crew (s : State) : List (Nat × Nat) := s.teams.map fun tm => (tm.id, tm.launch)

/-- The resident teams, what images take over of the trays, and the saved teams. -/
def State.residents (s : State) :=
  (s.crew, s.trays.map Tray.kept, s.sched.saved)

theorem State.crew_of_residents {s t : State} (h : t.residents = s.residents) : t.crew = s.crew := congrArg (·.1) h

theorem State.trays_kept_of_residents {s t : State} (h : t.residents = s.residents) : t.trays.map Tray.kept = s.trays.map Tray.kept :=
  congrArg (·.2.1) h

theorem State.saved_of_residents {s t : State} (h : t.residents = s.residents) : t.sched.saved = s.sched.saved := congrArg (·.2.2) h

theorem State.modTeam_crew (s : State) (id : Nat) (g : Team → Team) (hg : ∀ x, (g x).id = x.id ∧ (g x).launch = x.launch) :
    (s.modTeam id g).crew = s.crew := by
  unfold State.crew
  rw [State.modTeam_teams, List.map_map]
  refine List.map_congr_left fun x _ => ?_
  simp only [Function.comp]
  split <;> simp [hg]

theorem State.modTeam_residents (s : State) (id : Nat) (g : Team → Team) (hg : ∀ x, (g x).id = x.id ∧ (g x).launch = x.launch) :
    (s.modTeam id g).residents = s.residents := congrArg (·, s.trays.map Tray.kept, s.sched.saved) (s.modTeam_crew id g hg)

theorem State.modTray_residents (s : State) (id : Nat) (g : Tray → Tray) (hg : ∀ x, (g x).kept = x.kept) :
    (s.modTray id g).residents = s.residents := by
  have h : (s.modTray id g).trays.map Tray.kept = s.trays.map Tray.kept := by
    rw [State.modTray_trays, List.map_map]
    refine List.map_congr_left fun x _ => ?_
    simp only [Function.comp]
    split <;> simp [hg]
  exact congrArg (s.crew, ·, s.sched.saved) h

theorem State.modShared_residents (s : State) (team : Nat) (f : Store → Store) : (s.modShared team f).residents = s.residents :=
  s.modTeam_residents team _ fun _ => ⟨rfl, rfl⟩

theorem State.putBase_residents (s : State) (l : Loc) (x : Byte) : (s.putBase l x).residents = s.residents := by
  cases l with
  | shared t o => exact s.modShared_residents t _
  | scratch t o => exact s.modTray_residents t _ fun _ => rfl
  | _ => rfl

theorem State.putVersion_residents (s : State) (ks : List VKey) (k : VKey) (l : Loc) (x : Byte) :
    (s.putVersion ks k l x).residents = s.residents := by
  unfold State.putVersion
  split <;> rfl

theorem State.putSeen_residents (s : State) (ks : List VKey) (v : Bool) (l : Loc) (x : Byte) :
    (s.putSeen ks v l x).residents = s.residents := by
  unfold State.putSeen
  split
  · exact s.putVersion_residents _ _ l x
  · exact s.putBase_residents l x

theorem State.putBytes_residents (ks : List VKey) (v : Bool) (bs : List Byte) (s : State) (l : Loc) :
    (s.putBytes ks v l bs).residents = s.residents := by
  induction bs generalizing s l with
  | nil => rfl
  | cons b bs ih => exact (ih _ _).trans (s.putSeen_residents ks v l b)

theorem State.putTag_residents (s : State) (ks : List VKey) (v : Bool) (l : Loc) (t : BitVec 2) :
    (s.putTag ks v l t).residents = s.residents := by
  unfold State.putTag
  split
  · rfl
  · cases l with
    | shared tm o => exact s.modShared_residents tm _
    | scratch tr o => exact s.modTray_residents tr _ fun _ => rfl
    | _ => rfl

theorem State.markDirty_residents (s : State) (n : Nat) (o : Option Party) : (s.markDirty n o).residents = s.residents := by
  unfold State.markDirty
  dsimp only
  split <;> rfl

theorem State.markProt_residents (s : State) (a : Attr) (ks : List VKey) (l : Loc) (n : Nat) (o : Option Party) :
    (s.markProt a ks l n o).residents = s.residents := by
  unfold State.markProt
  split
  · refine foldl_same (g := State.residents) (fun s g => ?_) _ s
    split
    · exact s.markDirty_residents _ o
    · rfl
  · rfl

theorem State.markLines_residents (s : State) (a : Attr) (ks : List VKey) (l : Loc) (n : Nat) :
    (s.markLines a ks l n).residents = s.residents := by
  unfold State.markLines
  split
  · split <;> rfl
  · rfl

theorem State.markHub_residents (s : State) (hub : Bool) (l : Loc) (n : Nat) : (s.markHub hub l n).residents = s.residents := by
  unfold State.markHub
  split
  · refine foldl_same (g := State.residents) (fun s x => ?_) _ s
    split <;> rfl
  · rfl

theorem State.touch_residents (s : State) (ks : List VKey) (v : Bool) (l : Loc) (n : Nat) : (s.touch ks v l n).residents = s.residents := by
  have h1 (s : State) (k : Option VKey) : (s.touchShadows k l n).residents = s.residents := by
    unfold State.touchShadows
    split <;> rfl
  have h2 (s : State) (k : Option VKey) : (s.touchCmds k l n).residents = s.residents := by
    unfold State.touchCmds
    dsimp only
    split <;> rfl
  exact (h2 _ _).trans (h1 _ _)

/-- A lost reservation is no part of an image (R186). -/
theorem State.loseResv_residents (s : State) (g : Loc) (w : Writer) : (s.loseResv g w).residents = s.residents := by
  have hcrew : (s.loseResv g w).crew = s.crew := by
    simp only [State.crew, State.loseResv, List.map_map]
    refine List.map_congr_left fun x _ => ?_
    simp only [Function.comp]
    split <;> rfl
  have htrays : (s.loseResv g w).trays.map Tray.kept = s.trays.map Tray.kept := by
    simp only [State.loseResv, List.map_map]
    exact List.map_congr_left fun x _ => rfl
  exact congrArg₂ (·, ·, s.sched.saved) hcrew htrays

theorem State.store_residents (s : State) (ks : List VKey) (a : Attr) (l : Loc) (bs : List Byte) (w : Writer) (o : Option Party)
    (tag : Bool) : (s.store ks a l bs w o tag).residents = s.residents := by
  unfold State.store
  dsimp only
  rw [foldl_same (g := State.residents) fun s g => s.loseResv_residents g w]
  have h : ∀ u : State, (if tag then (l.lines bs.length).foldl (fun s ln => s.putTag ks a.vers ln 3) u else u).residents = u.residents := by
    intro u
    split
    · exact foldl_same (g := State.residents) (fun s ln => s.putTag_residents ks a.vers ln 3) _ u
    · rfl
  rw [h, State.markLines_residents, State.putBytes_residents, State.touch_residents, State.markHub_residents, State.markProt_residents]

theorem State.ctxWrite_residents (c : Context) (ver : Nat) (bs : List Byte) (s : State) (va : Nat) :
    (s.ctxWrite c ver va bs).residents = s.residents := by
  induction bs generalizing s va with
  | nil => rfl
  | cons b bs ih =>
    rw [State.ctxWrite, ih]
    split
    · rfl
    · exact s.store_residents _ _ _ _ _ _ _
    · rfl

theorem State.endItem_residents (s : State) (it : Item) (w : DWord) : (s.endItem it w).residents = s.residents := by
  have h : (match s.ctx? (it.ctxid.toNat % 4096) with
      | some c => if it.result == 0 then s else s.ctxWrite c 0 it.result.toNat (leBytes 8 w.toNat)
      | none => s).residents = s.residents := by
    split
    · split
      · rfl
      · exact State.ctxWrite_residents _ _ _ s _
    · rfl
  unfold State.endItem
  dsimp only
  split <;> exact h

theorem State.preemptOver_residents (s : State) (p : Preempt) : (s.preemptOver p).residents = s.residents := by
  unfold State.preemptOver
  split
  · rfl
  · dsimp only
    split
    · split
      · exact (State.endItem_residents _ _ _).trans (State.ctxWrite_residents _ _ _ _ _)
      · exact State.endItem_residents _ _ _
    · rfl
    · rfl

/-- A report of a team's outcome leaves what is resident (R350). -/
theorem State.reported_residents (s : State) (team teamno outcome off : Nat) :
    (s.reported team teamno outcome off).residents = s.residents := by
  unfold State.reported
  exact foldl_same (g := State.residents) (fun s p => s.preemptOver_residents p) _ _

/-! A team goes. -/

theorem State.poolFreed_teams (s : State) (bench lane : Nat) (landed : Bool) : (s.poolFreed bench lane landed).teams = s.teams := by
  unfold State.poolFreed
  dsimp only
  split <;> rfl

theorem State.poolFreed_trays (s : State) (bench lane : Nat) (landed : Bool) : (s.poolFreed bench lane landed).trays = s.trays := by
  unfold State.poolFreed
  dsimp only
  split <;> rfl

theorem State.poolFreed_sched (s : State) (bench lane : Nat) (landed : Bool) : (s.poolFreed bench lane landed).sched = s.sched := by
  unfold State.poolFreed
  dsimp only
  split <;> rfl

theorem State.modPast_sched (s : State) (f : Past → Past) : (s.modPast f).sched = s.sched := by
  unfold State.modPast
  split <;> rfl

theorem State.cmdOver_sched (s : State) (id : Nat) : (s.cmdOver id).sched = s.sched := s.modPast_sched _

theorem State.dropCmds_sched (s : State) (gone : Cmd → Bool) : (s.dropCmds gone).sched = s.sched := by
  unfold State.dropCmds
  exact foldl_same (g := State.sched) (fun s id => s.cmdOver_sched id) _ _

theorem State.dropTeam_teams (s : State) (id : Nat) : (s.dropTeam id).teams = s.teams.filter (·.id != id) := by
  unfold State.dropTeam
  exact foldl_same (g := State.teams) (fun s tr => s.poolFreed_teams _ _ _) _ _

theorem State.dropTeam_trays (s : State) (id : Nat) : (s.dropTeam id).trays = s.trays.filter (·.team != id) := by
  unfold State.dropTeam
  exact foldl_same (g := State.trays) (fun s tr => s.poolFreed_trays _ _ _) _ _

theorem State.dropTeam_sched (s : State) (id : Nat) : (s.dropTeam id).sched = s.sched := by
  unfold State.dropTeam
  rw [foldl_same (g := State.sched) fun s tr => s.poolFreed_sched _ _ _]
  exact s.dropCmds_sched _

theorem State.dropTeam_crew (s : State) (id : Nat) : (s.dropTeam id).crew = s.crew.filter (·.1 != id) := by
  unfold State.crew
  rw [State.dropTeam_teams, List.filter_map]
  rfl

/-! A launch is discarded (R348): its teams go, and how it ends or waits again touches no other team. -/

theorem State.putRegs_crew (s : State) (o : Owner) (ws : List RegWrite) : (s.putRegs o ws).crew = s.crew := by
  have h : ∀ u : State, u.still.crew = u.crew := fun u => by
    simp only [State.crew, State.still, List.map_map]
    rfl
  rw [← h, State.putRegs_still, h]

theorem State.putResult_crew (s : State) (o : Owner) (ws : List RegWrite) (launch : Nat) : (s.putResult o ws launch).crew = s.crew := by
  unfold State.putResult
  cases o <;> exact s.putRegs_crew _ ws

theorem State.endItem_crew (s : State) (it : Item) (w : DWord) : (s.endItem it w).crew = s.crew := State.crew_of_residents (s.endItem_residents it w)

theorem State.deliver_crew (s : State) (d : Dest) (w : DWord) (launch : Nat) : (s.deliver d w launch).crew = s.crew := by
  unfold State.deliver
  cases d with
  | none => rfl
  | regs o lo hi => cases hi <;> exact s.putResult_crew o _ launch
  | item it => exact s.endItem_crew it w
  | group g =>
    dsimp only
    split
    case h_1 x _ =>
      have h := foldl_same (g := State.crew) (fun s it => s.endItem_crew it w) x.recs s
      split <;> exact h
    case h_2 => rfl
  | graph g =>
    dsimp only
    split
    case h_1 => rfl
    case h_2 x _ =>
      split
      case h_1 => exact State.endItem_crew _ _ w
      case h_2 c _ =>
        have hw : ∀ (u : State) (res : Nat), (if res == 0 then u else u.ctxWrite c 0 res (leBytes 8 w.toNat)).crew = u.crew := fun u res => by
          split
          · rfl
          · exact State.crew_of_residents (u.ctxWrite_residents c 0 _ res)
        split
        case h_1 => exact hw _ _
        case h_2 => exact (State.endItem_crew _ _ w).trans (hw _ _)

theorem State.endLaunch_crew (s : State) (id : Nat) (w : DWord) : (s.endLaunch id w).crew = s.crew := by
  unfold State.endLaunch
  split
  · rfl
  · dsimp only
    rw [State.deliver_crew]
    unfold State.crew State.launchReleased
    rw [State.modPast_teams]
    split <;> rfl

/-- Teams that go one after another, each with its report. -/
theorem State.dropTeams_crew (outcome : Nat) (ts : List Team) (s : State) :
    (ts.foldl (fun s t => (s.dropTeam t.id).reported t.id t.teamno outcome 0) s).crew = s.crew.filter fun x => ts.all (·.id != x.1) := by
  induction ts generalizing s with
  | nil => simp
  | cons t ts ih =>
    rw [List.foldl_cons, ih, State.crew_of_residents (State.reported_residents _ _ _ _ _), State.dropTeam_crew, List.filter_filter]
    refine List.filter_congr fun x _ => ?_
    rw [List.all_cons, Bool.and_comm, bne_comm]

theorem State.discardLaunch_crew {s : State} {launch : Nat} {l : Launch} (h : s.launch? launch = some l) :
    (s.discardLaunch launch).crew = s.crew.filter fun x => (s.teams.filter (·.launch == launch)).all (·.id != x.1) := by
  unfold State.discardLaunch
  rw [h]
  dsimp only
  refine Eq.trans ?_ (State.dropTeams_crew 2 _ s)
  split
  · exact State.endLaunch_crew _ _ _
  · split <;> rfl

/-- No team of a discarded launch stays resident (R348). -/
theorem State.discardLaunch_unbinds {s : State} {launch : Nat} {l : Launch} (h : s.launch? launch = some l) :
    ∀ x ∈ (s.discardLaunch launch).teams, x.launch ≠ launch := by
  intro x hx hl
  have hc : (x.id, x.launch) ∈ (s.discardLaunch launch).crew := List.mem_map_of_mem hx
  rw [State.discardLaunch_crew h, List.mem_filter] at hc
  obtain ⟨hc, hgone⟩ := hc
  obtain ⟨y, hy, hyx⟩ := List.mem_map.1 hc
  obtain ⟨hid, hyl⟩ := Prod.mk.inj hyx
  have hmine : y ∈ s.teams.filter (·.launch == launch) := List.mem_filter.2 ⟨hy, by simp [hyl, hl]⟩
  have := List.all_eq_true.1 hgone y hmine
  simp [hid] at this

/-! A request begins (R345, R347, R348). -/

/-- Where no team is discarded, the estimator drains or saves as `decided` says (R347). -/
theorem estimated_spares {s : State} {c : Context} {deadline : Nat} {tm : Team} (h : decided s c deadline tm ≠ .discard) :
    s.estimated c deadline tm = if decided s c deadline tm = .drain then .drain else .save := by
  unfold decided at h ⊢
  unfold State.estimated outcomeAt
  by_cases hd : deadline ≠ 0 ∧ s.time + s.estimate c tm.id ≤ deadline
  · simp [hd]
  · have hd' : (deadline != 0 && decide (s.time + s.estimate c tm.id ≤ deadline)) = false := by simpa using hd
    rw [if_neg hd] at h ⊢
    cases hr : s.restartable tm with
    | true => simp [hr] at h
    | false => simp only [hd', Bool.false_eq_true, if_false, reduceCtorEq]

/-- The fate that an outcome other than to discard gives. -/
def Outcome.fate (area req deadline : Nat) (o : Outcome) : Fate := if o = .drain then .drain deadline area req else .save area req

/-- A team of a request as its outcome leaves it, where that is not to discard it: one that an earlier request saves stays in that. -/
def Team.preempted (tm : Team) (f : Fate) : Team :=
  match tm.fate with
  | .save a r => { tm with fate := .save a r }
  | _ => { tm with fate := f }

@[simp] theorem Team.preempted_id (tm : Team) (f : Fate) : (tm.preempted f).id = tm.id := by
  unfold Team.preempted
  split <;> rfl

/-- A team of a request takes its outcome, as a request begins. -/
def State.takeOutcome (area req deadline : Nat) (choose : Team → Outcome) (s : State) (t : Team) : State :=
  match t.fate with
  | .save .. => s
  | _ => s.decide t.id area req deadline (choose t)

section
variable {s : State} {area req deadline : Nat} {choose : Team → Outcome} {t : Team}

theorem decide_spares (ht : t ∈ s.teams) {o : Outcome} (ho : o ≠ .discard) :
    s.decide t.id area req deadline o = s.setFate t.id (o.fate area req deadline) := by
  obtain ⟨y, hy⟩ : ∃ y, s.team? t.id = some y := Option.isSome_iff_exists.1 (List.find?_isSome.2 ⟨t, ht, beq_self_eq_true _⟩)
  unfold State.decide
  rw [hy]
  cases o with
  | discard => exact absurd rfl ho
  | _ => rfl

theorem takeOutcome_spares (hu : (s.teams.map (·.id)).Nodup) (ht : t ∈ s.teams) (hc : choose t ≠ .discard) :
    s.takeOutcome area req deadline choose t =
      { s with teams := s.teams.map fun x => if x = t then x.preempted ((choose x).fate area req deadline) else x } := by
  have same : ∀ x ∈ s.teams, (x.id == t.id) = decide (x = t) := fun x hx => by
    rw [Bool.eq_iff_iff, beq_iff_eq, decide_eq_true_iff]
    exact ⟨List.inj_on_of_nodup_map hu hx ht, congrArg _⟩
  have hset : ∀ f : Fate, (∀ a r, t.fate ≠ .save a r) →
      s.setFate t.id f = { s with teams := s.teams.map fun x => if x = t then x.preempted f else x } := fun f hf =>
    congrArg (fun ts => { s with teams := ts }) (List.map_congr_left fun x hx => by
      simp only [same x hx, decide_eq_true_eq]
      split
      · subst x
        unfold Team.preempted
        split
        · exact absurd ‹_› (hf _ _)
        · rfl
      · rfl)
  unfold State.takeOutcome
  split
  case h_1 a r hf =>
    have hid : ∀ x ∈ s.teams, (if x = t then x.preempted ((choose x).fate area req deadline) else x) = id x := fun x _ => by
      split
      · subst x
        simp only [Team.preempted, hf]
        rw [← hf]
        rfl
      · rfl
    rw [List.map_congr_left hid, List.map_id]
  case h_2 hf =>
    rw [decide_spares ht hc, hset _ hf]
    refine congrArg (fun ts => { s with teams := ts }) (List.map_congr_left fun x _ => ?_)
    split
    · subst x
      rfl
    · rfl

theorem takeOutcomes_spare {ts : List Team} (hu : (s.teams.map (·.id)).Nodup) (hts : ∀ t ∈ ts, t ∈ s.teams)
    (hn : (ts.map (·.id)).Nodup) (hc : ∀ t ∈ ts, choose t ≠ .discard) :
    ts.foldl (State.takeOutcome area req deadline choose) s =
      { s with teams := s.teams.map fun x => if x ∈ ts then x.preempted ((choose x).fate area req deadline) else x } := by
  induction ts generalizing s with
  | nil => simp
  | cons t ts ih =>
    obtain ⟨ht, hts⟩ := List.forall_mem_cons.1 hts
    obtain ⟨hct, hc⟩ := List.forall_mem_cons.1 hc
    obtain ⟨hnew, hn⟩ := List.nodup_cons.1 hn
    rw [List.foldl_cons, takeOutcome_spares hu ht hct, ih _ _ hn hc]
    · refine congrArg (fun ts => { s with teams := ts }) ?_
      rw [List.map_map]
      refine List.map_congr_left fun x _ => ?_
      by_cases hx : x = t
      · subst x
        have hout : t.preempted ((choose t).fate area req deadline) ∉ ts := fun hm =>
          hnew (List.mem_map.2 ⟨_, hm, Team.preempted_id _ _⟩)
        simp [hout]
      · simp [hx]
    · rw [List.map_map, List.map_congr_left (g := (·.id)) fun x _ => by simp only [Function.comp]; split <;> simp]
      exact hu
    · refine fun x hx => List.mem_map.2 ⟨x, hts x hx, if_neg ?_⟩
      rintro rfl
      exact hnew (List.mem_map_of_mem hx)

end

/-- A request as it begins. -/
def State.request (s : State) (kind : PreemptKind) (ctx area : Nat) (teams : List Team) : Preempt :=
  { id := s.nextId, kind := kind, ctx := ctx, area := area, used := 0, done := [], left := teams.map fun t => t.id }

/-- A request stands among those under way. -/
def State.withRequest (s : State) (p : Preempt) : State :=
  { s with nextId := s.nextId + 1, sched := { s.sched with preempts := s.sched.preempts ++ [p] } }

/-- Teams of a request take their outcomes, where none is to discard them. -/
def State.preempted (s : State) (area req deadline : Nat) (teams : List Team) (choose : Team → Outcome) : State :=
  { s with teams := s.teams.map fun x => if x ∈ teams then x.preempted ((choose x).fate area req deadline) else x }

theorem startPreempt_begins {s u : State} {teams : List Team} {choose : Team → Outcome} {kind : PreemptKind} {ctx area deadline : Nat} {q : Preempt}
    (hu : teams.foldl (State.takeOutcome area s.nextId deadline choose) (s.withRequest (s.request kind ctx area teams)) = u)
    (hq : u.sched.preempts.find? (fun q => q.id == s.nextId) = some q) :
    s.startPreempt kind ctx area deadline teams choose = u.preemptOver q := by
  have h : s.startPreempt kind ctx area deadline teams choose =
      match u.sched.preempts.find? fun q => q.id == s.nextId with
      | some q => u.preemptOver q
      | none => u := by
    subst hu
    rfl
  rw [h, hq]

/-- A request that has teams left goes on (R350). -/
theorem preemptOver_left {p : Preempt} (s : State) (h : p.left ≠ []) : s.preemptOver p = s := if_pos (by simpa using h)

/-- A request none of whose teams is discarded gives each its fate and does nothing else. -/
theorem startPreempt_spares {s : State} {teams : List Team} {choose : Team → Outcome} (kind : PreemptKind) (ctx area deadline : Nat)
    (h : TeamIds s) (hsub : teams.Sublist s.teams) (hne : teams ≠ []) (hc : ∀ t ∈ teams, choose t ≠ .discard) :
    s.startPreempt kind ctx area deadline teams choose =
      (s.withRequest (s.request kind ctx area teams)).preempted area s.nextId deadline teams choose := by
  obtain ⟨hids, hfresh⟩ := h
  have hu : (s.teams.map (·.id)).Nodup := List.pairwise_map.2 hids
  have hfold := takeOutcomes_spare (s := s.withRequest (s.request kind ctx area teams)) (area := area) (req := s.nextId)
    (deadline := deadline) hu (fun t ht => hsub.subset ht) (hu.sublist (hsub.map _)) hc
  have hfind : ((s.withRequest (s.request kind ctx area teams)).preempted area s.nextId deadline teams choose).sched.preempts.find?
      (fun q => q.id == s.nextId) = some (s.request kind ctx area teams) := by
    change (s.sched.preempts ++ _).find? _ = _
    rw [List.find?_append, List.find?_eq_none.2 fun q hq => by simpa using hfresh q hq]
    simp [State.request]
  rw [startPreempt_begins hfold hfind]
  exact preemptOver_left _ (by simpa [State.request] using hne)

theorem estimated_ne_discard {s : State} {c : Context} {deadline : Nat} {tm : Team} (h : decided s c deadline tm ≠ .discard) :
    s.estimated c deadline tm ≠ .discard := by
  rw [estimated_spares h]
  split <;> simp

theorem estimated_fate {s : State} {c : Context} {area req deadline : Nat} {tm : Team} (h : decided s c deadline tm ≠ .discard) :
    (s.estimated c deadline tm).fate area req deadline =
      if decided s c deadline tm = .drain then .drain deadline area req else .save area req := by
  rw [estimated_spares h]
  unfold Outcome.fate
  split <;> simp

section
variable {s : State} {teams : List Team} (kind : PreemptKind) (c : Context) (area deadline : Nat)
  (h : TeamIds s) (hsub : teams.Sublist s.teams) (hne : teams ≠ []) (hc : ∀ tm ∈ teams, decided s c deadline tm ≠ .discard)
include h hsub hne hc

theorem startPreempt_preempts :
    Preempts s (s.startPreempt kind c.id area deadline teams (s.estimated c deadline)) kind c area deadline teams := by
  rw [startPreempt_spares (choose := s.estimated c deadline) kind c.id area deadline h hsub hne fun tm ht => estimated_ne_discard (hc tm ht)]
  refine ⟨_, rfl, rfl, rfl, rfl, rfl, rfl, rfl, List.map_congr_left fun tm _ => ?_⟩
  split
  case isTrue ht =>
    rw [estimated_fate (hc tm ht)]
    rfl
  case isFalse => rfl

theorem startPreempt_ctxs : (s.startPreempt kind c.id area deadline teams (s.estimated c deadline)).ctxs = s.ctxs := by
  rw [startPreempt_spares (choose := s.estimated c deadline) kind c.id area deadline h hsub hne fun tm ht => estimated_ne_discard (hc tm ht)]
  rfl

end

/-! Contexts and launches after one was changed. -/

theorem State.ctx?_modCtx (s : State) (id id' : Nat) (g : Context → Context) (hg : ∀ x, (g x).id = x.id) :
    (s.modCtx id g).ctx? id' = (s.ctx? id').map fun x => if x.id == id then g x else x := by
  unfold State.ctx?
  rw [State.modCtx_ctxs]
  refine find_map_keep _ _ (fun x => ?_) _
  split <;> simp [hg]

theorem State.launch?_modLaunch (s : State) (id id' : Nat) (g : Launch → Launch) (hg : ∀ x, (g x).id = x.id) :
    (s.modLaunch id g).launch? id' = (s.launch? id').map fun x => if x.id == id then g x else x := by
  unfold State.launch?
  rw [State.modLaunch_launches]
  refine find_map_keep _ _ (fun x => ?_) _
  split <;> simp [hg]

theorem State.ctx?_id {s : State} {id : Nat} {c : Context} (h : s.ctx? id = some c) : c.id = id := by
  simpa using List.find?_some h

theorem State.launch?_id {s : State} {id : Nat} {l : Launch} (h : s.launch? id = some l) : l.id = id := by
  simpa using List.find?_some h

/-! The complex writes bind records (R343). -/

/-- The bind record of the i-th next team of a launch. -/
def State.bindRecord (s : State) (l : Launch) (b i : Nat) : BindRec :=
  { id := s.nextId + i, ctx := l.ctx, launch := l.id, teamno := l.nextTeam + i, bench := b, ver := l.ver, prio := s.bindPrio l }

/-- The bind records of the n next teams of a launch are written. -/
def State.withBindRecords (s : State) (l : Launch) (b n : Nat) : State :=
  { s with nextId := s.nextId + n, sched := { s.sched with slots := s.sched.slots ++ (List.range n).map (s.bindRecord l b) } }

/-- The complex writes the record of the i-th next team, with a number of its own. -/
def State.addBindRecord (l : Launch) (b : Nat) (s : State) (i : Nat) : State :=
  { s with nextId := s.nextId + 1, sched := { s.sched with slots := s.sched.slots ++ [{ s.bindRecord l b i with id := s.nextId }] } }

theorem State.addBindRecords (s : State) (l : Launch) (b n : Nat) :
    (List.range n).foldl (State.addBindRecord l b) s = s.withBindRecords l b n := by
  induction n with
  | zero => simp [State.withBindRecords]
  | succ n ih =>
    rw [List.range_succ, List.foldl_append, ih]
    simp [State.withBindRecords, State.addBindRecord, State.bindRecord, List.range_succ, State.bindPrio, State.accept, State.ctx?, Nat.add_assoc]

theorem State.writeBind_on {s : State} {l : Launch} {c : Context} (hc : s.ctx? l.ctx = some c) (hb : s.benchesFor l c.part l.nextTeam ≠ []) :
    ∃ b ∈ s.benchesFor l c.part l.nextTeam, s.writeBind l =
      ((s.withBindRecords l b (min l.gang (l.teams - l.nextTeam))).onUnitDie l.id l.nextTeam b).modLaunch l.id
        fun x => { x with nextTeam := x.nextTeam + min l.gang (l.teams - l.nextTeam) } := by
  have hlt := Nat.mod_lt (Config.freeValue s.tick).toNat (List.length_pos_iff.2 hb)
  refine ⟨_, List.getElem_mem hlt, ?_⟩
  unfold State.writeBind
  rw [hc, ← State.addBindRecords]
  simp only [List.getElem?_eq_getElem hlt]
  rfl

theorem exec_bindRecordPlace_writes {s : State} {l : Launch} (hq : s.quiescing = false) (hflag : s.input.flag = false)
    (hl : s.launch? s.input.id = some l) (hp : s.inPifo l.id = false) (hn : l.nextTeam < l.teams) : exec .bindRecordPlace s = .next (s.writeBind l) := by
  change execBindRecordPlace s = _
  unfold execBindRecordPlace
  simp [hq, hflag, hl, hp, hn]

/-! Dispatch places a team (R23, R24). -/

/-- A tray that dispatch has bound. -/
structure BoundIn (l : Launch) (team bench : Nat) (prio : BitVec 4) (k : Nat) (tr : Tray) : Prop where
  team : tr.team = team
  bench : tr.bench = bench
  fresh : Bound l tr k
  prio : tr.prio = prio

theorem Launch.sregs_get (l : Launch) (n : Fin 32) :
    l.sregs[n] = { val := if h : n.val < 8 then l.args[n.val] else 0, full := true } := by
  have hn : l.sregs[n] = { val := l.args.toList.getD n 0, full := true } := by simp [Launch.sregs]
  rw [hn]
  by_cases h : n.val < 8 <;> simp [h]

/-- Tray i of a team as dispatch binds it to a lane. -/
def State.boundTray (s : State) (l : Launch) (team bench lane i : Nat) (prio : BitVec 4) : Tray :=
  { Tray.fresh with
    id := s.nextId, team := team, trayno := i, bench := bench, lane := lane, pos := s.freePos bench lane, sregs := l.sregs
    remap := Slots.gen fun t => some (32 * i + t.val)
    frontier := [{ pc := l.trayPc, prio := 0, mask := BitVec.allOnes 32, depth := 0, loops := [], wait := .none, skip := 0 }]
    prio := prio, fairClk := s.clk }

theorem State.boundTray_boundIn (s : State) (l : Launch) (team bench lane i : Nat) (prio : BitVec 4) :
    BoundIn l team bench prio i (s.boundTray l team bench lane i prio) where
  team := rfl
  bench := rfl
  prio := rfl
  fresh :=
    { place := ⟨rfl, rfl, rfl, rfl, rfl, rfl⟩
      frontier := ⟨_, rfl, rfl, rfl, rfl, rfl, rfl, rfl⟩
      tids := fun u => Slots.gen_get _ u
      regs := fun u n => by simp [State.boundTray, Tray.fresh]
      args := l.sregs_get
      preds := fun u => by simp [State.boundTray, Tray.fresh] }

/-- Trays that dispatch has bound, each with a number of its own. -/
def State.withTrays (s : State) (trs : List Tray) : State := { s with nextId := s.nextId + trs.length, trays := s.trays ++ trs }

theorem State.bindTrays_bound {s u : State} {l : Launch} {team bench n : Nat} {prio : BitVec 4}
    (h : s.bindTrays l team bench n prio = some u) :
    ∃ trs, u = s.withTrays trs ∧ trs.length = n ∧
      ∀ k < n, ∃ tr, trs[k]? = some tr ∧ BoundIn l team bench prio k tr := by
  unfold State.bindTrays at h
  induction n generalizing u with
  | zero =>
    obtain rfl := Option.some.inj h
    exact ⟨[], by simp [State.withTrays], rfl, fun k hk => absurd hk (Nat.not_lt_zero k)⟩
  | succ n ih =>
    rw [List.range_succ, List.foldlM_append, Option.bind_eq_bind, Option.bind_eq_some_iff] at h
    obtain ⟨v, hv, hlast⟩ := h
    obtain ⟨trs, rfl, hlen, hall⟩ := ih hv
    simp only [List.foldlM_cons, List.foldlM_nil, Option.bind_eq_bind, Option.bind_eq_some_iff, Option.map_eq_some_iff] at hlast
    obtain ⟨w, ⟨lane, -, rfl⟩, hw⟩ := hlast
    obtain rfl := Option.some.inj hw
    refine ⟨trs ++ [(s.withTrays trs).boundTray l team bench lane n prio], ?_, by simp [hlen], fun k hk => ?_⟩
    · simp only [State.withTrays, List.length_append, ← Nat.add_assoc, ← List.append_assoc]
      rfl
    · obtain hk | rfl := Nat.lt_succ_iff_lt_or_eq.1 hk
      · obtain ⟨tr, htr, hb⟩ := hall k hk
        exact ⟨tr, by rw [List.getElem?_append_left (hlen ▸ hk), htr], hb⟩
      · exact ⟨_, by rw [List.getElem?_append_right hlen.le, hlen, Nat.sub_self]; rfl, State.boundTray_boundIn ..⟩

/-- A context that is bound changes only itself (R171, R345). -/
theorem State.boundCtx_ctxs_only (s : State) (ctx : Nat) : ∃ cs, s.boundCtx ctx = { s with ctxs := cs } := by
  unfold State.boundCtx
  split
  · exact ⟨s.ctxs, rfl⟩
  · unfold State.readCcb
    split <;> exact ⟨_, rfl⟩

section
variable (s : State) (ctx : Nat)

theorem State.boundCtx_sched : (s.boundCtx ctx).sched = s.sched := by
  obtain ⟨cs, h⟩ := s.boundCtx_ctxs_only ctx
  rw [h]

theorem State.boundCtx_teams : (s.boundCtx ctx).teams = s.teams := by
  obtain ⟨cs, h⟩ := s.boundCtx_ctxs_only ctx
  rw [h]

theorem State.boundCtx_trays : (s.boundCtx ctx).trays = s.trays := by
  obtain ⟨cs, h⟩ := s.boundCtx_ctxs_only ctx
  rw [h]

variable (launch : Nat) (o : Owner) (m : BitVec 32)

theorem State.joins_sched : (s.joins ctx launch o m).sched = s.sched := s.modPast_sched _

theorem State.joins_teams : (s.joins ctx launch o m).teams = s.teams := s.modPast_teams _

theorem State.joins_trays : (s.joins ctx launch o m).trays = s.trays := s.modPast_trays _

end

/-- What dispatch does with a team that fits: the team and its trays stand on the bench, in their first state (R24). -/
theorem State.bindTeam_bound {s u : State} {l : Launch} {teamno bench : Nat} {prio : BitVec 4}
    (h : s.bindTeam l teamno bench prio = some u) :
    ∃ tm trs, u.sched = s.sched ∧ u.teams = s.teams ++ [tm] ∧ u.trays = s.trays ++ trs ∧
      tm = { id := s.nextId, launch := l.id, teamno := teamno, bench := bench, shared := Store.empty, front := l.front prio, dq := [],
             dqBase := 0, spawns := [], formed := [], retired := 0, fate := .run } ∧
      trs.length = l.traysPerTeam ∧ ∀ k < l.traysPerTeam, ∃ tr, trs[k]? = some tr ∧ BoundIn l s.nextId bench prio k tr := by
  unfold State.bindTeam at h
  split at h
  · cases h
  · obtain ⟨v, hv, rfl⟩ := Option.map_eq_some_iff.1 h
    obtain ⟨trs, rfl, hlen, hall⟩ := State.bindTrays_bound hv
    refine ⟨_, trs, ?_, ?_, ?_, rfl, hlen, hall⟩
    · refine (foldl_same (g := State.sched) (fun s o => s.joins_sched _ _ o _) _ _).trans ?_
      exact State.boundCtx_sched _ l.ctx
    · refine (foldl_same (g := State.teams) (fun s o => s.joins_teams _ _ o _) _ _).trans ?_
      exact congrArg (· ++ _) (State.boundCtx_teams _ l.ctx)
    · refine (foldl_same (g := State.trays) (fun s o => s.joins_trays _ _ o _) _ _).trans ?_
      exact State.boundCtx_trays _ l.ctx

theorem exec_bindRecordPlace_places {s u : State} {b : BindRec} {l : Launch} (hq : s.quiescing = false) (hflag : s.input.flag = true)
    (hb : s.sched.slots.find? (fun x => x.id == s.input.id) = some b) (hl : s.launch? b.launch = some l) (hfirst : s.firstBind b = true)
    (hbench : b.bench ∈ s.benchesOf (s.partOfCtx b.ctx)) (hgang : s.gangOf b l = [b]) (hu : s.bindTeam l b.teamno b.bench b.prio = some u) :
    exec .bindRecordPlace s = .next { u with sched := { u.sched with slots := u.sched.slots.filter fun x => x.id != b.id } } := by
  change execBindRecordPlace s = _
  unfold execBindRecordPlace
  have hids : ∀ x : BindRec, (!([b].map fun y => y.id).contains x.id) = (x.id != b.id) := fun x => by
    rw [List.map_singleton, List.contains_cons, List.contains_nil, Bool.or_false]
    rfl
  simp [hq, hflag, hb, hl, hfirst, hbench, hgang, hu, ← hids]

/-! A team is saved (R186, R346). -/

/-- The offsets of a laid out image are 64-byte aligned (R186). -/
theorem layOut_aligned (xs : List (List Byte)) (o : Nat) (ho : o % 64 = 0) : ∀ x ∈ (layOut o xs).1, x.1 % 64 = 0 := by
  induction xs generalizing o with
  | nil => simp [layOut]
  | cons x xs ih =>
    rw [layOut, List.forall_mem_cons]
    exact ⟨ho, ih _ (Nat.mul_mod_left _ _)⟩

/-- An image begins with its header (R186). -/
theorem State.image_header (s : State) (tm : Team) (l : Launch) :
    ((layOut 0 (s.imageSections tm l)).1.head?.map fun x => (x.1, x.2.length)) = some (0, 256) := by
  simp [State.imageSections, layOut, State.imageHeader]

/-- An image begins on a multiple of 64 KiB (R346). -/
theorem State.imageOffset_aligned (s : State) (ctx area used : Nat) : (area + s.imageOffset ctx area used) % 65536 = 0 := by
  unfold State.imageOffset roundUp64k
  dsimp only
  omega

/-- The saved team that a save leaves, with an image of some length at an offset. -/
def State.imageOf (s : State) (tm : Team) (ctx area off len : Nat) : Saved :=
  { id := s.nextId, ctx := ctx, area := area, off := off, len := len, team := tm.saved
    trays := (s.trays.filter fun tr => tr.team == tm.id).map Tray.saved
    arrays := s.arrays.filter fun a => a.holder == some tm.id
    cmds := (s.cmds.filter fun k => k.team == tm.id && k.rests).map fun k => { k with tags := [], got := [] } }

theorem State.takeOut_residents (s : State) (tm : Team) (ctx area off len : Nat) :
    (s.takeOut tm ctx area off len).2.residents =
      (s.crew.filter (·.1 != tm.id), (s.trays.filter (·.team != tm.id)).map Tray.kept,
        s.sched.saved ++ [s.imageOf tm ctx area off len]) := by
  unfold State.takeOut State.residents
  rw [State.dropTeam_crew, State.dropTeam_trays, State.dropTeam_sched]
  rfl

/-- A team's image is written into a context's save area at an offset. -/
def State.withImage (s : State) (c : Context) (ver start : Nat) (parts : List (Nat × List Byte)) : State :=
  parts.foldl (fun s x => s.ctxWrite c ver (start + x.1) x.2) s

theorem State.withImage_residents (s : State) (c : Context) (ver start : Nat) (parts : List (Nat × List Byte)) :
    (s.withImage c ver start parts).residents = s.residents := by
  unfold State.withImage
  exact foldl_same (g := State.residents) (fun s x => s.ctxWrite_residents c ver x.2 _) parts s

/-- A request has used its area up to an offset (R346). -/
def State.usedUpTo (s : State) (req n : Nat) : State :=
  { s with sched := { s.sched with preempts := s.sched.preempts.map fun q => if q.id == req then { q with used := n } else q } }

theorem State.usedUpTo_residents (s : State) (req n : Nat) : (s.usedUpTo req n).residents = s.residents := rfl

/-- A saved team waits in the PIFO, but for one that a quiesce or a leaving die saves (R348, R362, R366). -/
def State.enqueueSaved (s : State) (kind : PreemptKind) (l : Launch) (id : Nat) : State :=
  match kind with
  | .item _ | .slice => s.enqueue (.saved id) l.itemPrio l.deadline l.est
  | _ => s

theorem State.enqueueSaved_residents (s : State) (kind : PreemptKind) (l : Launch) (id : Nat) :
    (s.enqueueSaved kind l id).residents = s.residents := by
  unfold State.enqueueSaved
  split <;> rfl

/-- A team whose image has room is saved: the image is written, the team goes, and its request and the PIFO hear of it. -/
def State.saveTeam (s : State) (tm : Team) (l : Launch) (c : Context) (p : Preempt) (area off : Nat) (image : List (Nat × List Byte) × Nat) :
    State :=
  let out := (s.withImage c l.ver (area + off) image.1).takeOut tm c.id area off image.2
  (((out.2.usedUpTo p.id (off + image.2)).reported tm.id tm.teamno 3 off).enqueueSaved p.kind l out.1)

/-- What a save leaves is what taking the team out of the state with its image leaves. -/
theorem State.saveTeam_residents (s : State) (tm : Team) (l : Launch) (c : Context) (p : Preempt) (area off : Nat)
    (image : List (Nat × List Byte) × Nat) : (s.saveTeam tm l c p area off image).residents =
      ((s.withImage c l.ver (area + off) image.1).takeOut tm c.id area off image.2).2.residents := by
  unfold State.saveTeam
  rw [State.enqueueSaved_residents, State.reported_residents, State.usedUpTo_residents]

theorem exec_teamSave_settled {s : State} {tm : Team} {l : Launch} {c : Context} {p : Preempt} {area req : Nat}
    (h : s.around s.input.id = some (tm, l, c)) (hf : tm.fate = .save area req)
    (hp : s.sched.preempts.find? (fun q => q.id == req) = some p) (hs : s.canSave tm = true)
    (hfirst : ∀ x ∈ s.teamsOf c.id, ∀ a, x.fate = .save a req → tm.teamno ≤ x.teamno) (herr : s.input.err = none) :
    exec .teamSave s = .next (if s.imageOffset c.id area p.used + (layOut 0 (s.imageSections tm l)).2 ≤ 2 ^ 26
      then s.saveTeam tm l c p area (s.imageOffset c.id area p.used) (layOut 0 (s.imageSections tm l)) else s.noImageRoom tm p) := by
  obtain rfl : p.id = req := by simpa using List.find?_some hp
  change execTeamSave s = _
  unfold execTeamSave
  simp only [h, hf, hp, herr]
  rw [if_neg]
  case hnc =>
    rw [hs, Bool.not_true, Bool.false_or, Bool.not_eq_true', Bool.not_eq_false, List.all_eq_true]
    intro x hx
    split
    case h_1 a r hr =>
      by_cases hreq : r = p.id
      · simp [hfirst x hx a (hreq ▸ hr)]
      · simp [hreq]
    case h_2 => rfl
  by_cases hfit : s.imageOffset c.id area p.used + (layOut 0 (s.imageSections tm l)).2 ≤ 2 ^ 26
  · rw [if_pos hfit, if_neg (Nat.not_lt.2 hfit)]
    rfl
  · rw [if_neg hfit, if_pos (Nat.not_le.1 hfit)]

/-- A team without room for its image drains until it ends, where its launch is not to be discarded and no die waits for it (R346). -/
theorem State.noImageRoom_drains {s : State} {tm : Team} {p : Preempt} (hk : ∀ f, p.kind ≠ .die f) (hr : s.restartable tm = false) :
    s.noImageRoom tm p = s.setFate tm.id (.drain 0 p.area p.id) := by
  unfold State.noImageRoom
  cases h : p.kind with
  | die f => exact absurd h (hk f)
  | _ => simp [hr]

theorem State.team?_setFate {s : State} {tm : Team} {id : Nat} (h : s.team? id = some tm) (f : Fate) :
    (s.setFate tm.id f).team? tm.id = some { tm with fate := f } := by
  obtain rfl := State.team?_id h
  refine (State.team?_modTeam s tm.id tm.id (fun t => { t with fate := f }) fun _ => rfl).trans ?_
  rw [h]
  simp

theorem State.around_team {s : State} {id : Nat} {tm : Team} {l : Launch} {c : Context} (h : s.around id = some (tm, l, c)) :
    s.team? id = some tm := by
  unfold State.around at h
  split at h
  case h_1 => cases h
  case h_2 x hx =>
    split at h
    case h_1 => cases h
    case h_2 =>
      split at h
      case h_1 => cases h
      case h_2 =>
        obtain ⟨rfl, -⟩ := Prod.mk.inj (Option.some.inj h)
        exact hx

/-- What a save that has room leaves: neither the team nor a tray of it, and a saved team that holds what they held (R186). -/
structure SavedInto (s t : State) (tm : Team) (x : Saved) : Prop where
  gone : t.team? tm.id = none
  trays : ∀ tr ∈ t.trays, tr.team ≠ tm.id
  listed : t.sched.saved = s.sched.saved ++ [x]
  kept : x.trays.map Tray.kept = (s.trays.filter fun tr => tr.team == tm.id).map Tray.kept

theorem State.saveTeam_saved (s : State) (tm : Team) (l : Launch) (c : Context) (p : Preempt) (area off : Nat)
    (image : List (Nat × List Byte) × Nat) : SavedInto s (s.saveTeam tm l c p area off image) tm
      ((s.withImage c l.ver (area + off) image.1).imageOf tm c.id area off image.2) := by
  have hw := s.withImage_residents c l.ver (area + off) image.1
  have hres := s.saveTeam_residents tm l c p area off image
  rw [State.takeOut_residents] at hres
  generalize s.withImage c l.ver (area + off) image.1 = w at hw hres ⊢
  generalize s.saveTeam tm l c p area off image = t at hres ⊢
  obtain ⟨hcrew, htrays, hsaved⟩ : t.crew = _ ∧ t.trays.map Tray.kept = _ ∧ t.sched.saved = _ := by
    simpa only [State.residents, Prod.mk.injEq] using hres
  refine ⟨?_, fun tr htr hteam => ?_, ?_, ?_⟩
  · refine List.find?_eq_none.2 fun x hx hid => ?_
    have hm : (x.id, x.launch) ∈ t.crew := List.mem_map_of_mem hx
    rw [hcrew, List.mem_filter] at hm
    simp [beq_iff_eq.1 hid] at hm
  · have hm : tr.kept ∈ t.trays.map Tray.kept := List.mem_map_of_mem htr
    rw [htrays] at hm
    obtain ⟨y, hy, hk⟩ := List.mem_map.1 hm
    have hyt : y.team = tr.team := congrArg (·.1) hk
    have := (List.mem_filter.1 hy).2
    simp [hyt, hteam] at this
  · rw [hsaved, State.saved_of_residents hw]
  · have hfilter : ∀ u : State, (u.trays.filter fun tr => tr.team == tm.id).map Tray.kept = (u.trays.map Tray.kept).filter fun x => x.1 == tm.id :=
      fun u => by rw [List.filter_map]; rfl
    unfold State.imageOf
    dsimp only
    rw [List.map_map, hfilter s, ← State.trays_kept_of_residents hw, ← hfilter w]
    rfl

/-! The events that begin and end what a team's request decides (R345, R348). -/

theorem exec_itemPreempt_of_ctx {s : State} {c : Context} (h : s.ctx? (itemCtx s.input.item) = some c) :
    exec .itemPreempt s = .next (s.startPreempt (.item s.input.item) c.id
      (if s.input.item.arg1 = 0 then c.save.toNat else s.input.item.arg1.toNat) s.input.item.deadline.toNat (s.teamsOf c.id)
      (s.estimated c s.input.item.deadline.toNat)) := by
  change execItemPreempt s = _
  unfold execItemPreempt
  simp only [h, beq_iff_eq]

/-- The teams that a lapsed slice pre-empts. -/
def State.runningOf (s : State) (ctx : Nat) : List Team := (s.teamsOf ctx).filter fun tm => tm.fate == .run

/-- When a context's slice lapsed last. -/
def State.lapseOf (s : State) (c : Context) : Nat := s.time - (s.time - c.sliceStart) % c.slice

/-- A slice begins (R345). -/
def State.withSlice (s : State) (ctx lapse : Nat) : State := s.modCtx ctx fun x => { x with sliceStart := lapse }

theorem State.ctx?_withSlice {s : State} {id : Nat} {c : Context} (h : s.ctx? id = some c) (lapse : Nat) :
    (s.withSlice c.id lapse).ctx? c.id = some { c with sliceStart := lapse } := by
  obtain rfl := State.ctx?_id h
  refine (s.ctx?_modCtx c.id c.id (fun x => { x with sliceStart := lapse }) fun _ => rfl).trans ?_
  rw [h]
  simp

section
variable {s : State} {c : Context} (h : s.ctx? s.input.id = some c) (hs : c.slice ≠ 0) (hl : c.sliceStart + c.slice ≤ s.time)
include h hs hl

theorem exec_sliceLapse_contended (ht : s.runningOf c.id ≠ []) (hc : s.contended c.id = true) :
    exec .sliceLapse s = .next ((s.withSlice c.id (s.lapseOf c)).startPreempt .slice c.id c.save.toNat (s.lapseOf c + c.grace)
      (s.runningOf c.id) ((s.withSlice c.id (s.lapseOf c)).estimated c (s.lapseOf c + c.grace))) := by
  have hbusy : (!(s.runningOf c.id).isEmpty && s.contended c.id) = true := by simpa [hc] using ht
  change execSliceLapse s = _
  unfold execSliceLapse
  unfold State.runningOf at hbusy
  simp only [h, beq_eq_false_iff_ne.2 hs, decide_eq_false (Nat.not_lt.2 hl), Bool.or_self, Bool.false_eq_true, if_false, hbusy, if_true]
  rfl

theorem exec_sliceLapse_alone (ha : s.runningOf c.id = [] ∨ s.contended c.id = false) :
    exec .sliceLapse s = .next (s.withSlice c.id (s.lapseOf c)) := by
  have hidle : (!(s.runningOf c.id).isEmpty && s.contended c.id) = false := by
    obtain ha | ha := ha <;> simp [ha]
  change execSliceLapse s = _
  unfold execSliceLapse
  unfold State.runningOf at hidle
  simp only [h, beq_eq_false_iff_ne.2 hs, decide_eq_false (Nat.not_lt.2 hl), Bool.or_self, Bool.false_eq_true, if_false, hidle]
  rfl

end

theorem exec_drainDeadline_come {s : State} {tm : Team} {d area req : Nat} (h : s.team? s.input.id = some tm)
    (hf : tm.fate = .drain d area req) (hd : d ≠ 0) (hd' : d ≤ s.time) :
    exec .drainDeadline s = .next (if s.restartable tm then s.discardLaunch tm.launch else s.setFate tm.id (.save area req)) := by
  change execDrainDeadline s = _
  unfold execDrainDeadline
  simp only [h, hf, beq_eq_false_iff_ne.2 hd, decide_eq_false (Nat.not_lt.2 hd'), Bool.or_self, Bool.false_eq_true, if_false]
  split <;> rfl

/-- A team with RESTART has a launch. -/
theorem State.launch?_of_restartable {s : State} {tm : Team} (h : s.restartable tm = true) : ∃ l, s.launch? tm.launch = some l := by
  unfold State.restartable at h
  split at h
  · exact ⟨_, ‹_›⟩
  · cases h

/-- A launch of whose teams some have been given to dispatch, their DIE unit on one die. -/
theorem launch?_bound {s : State} {id : Nat} {l : Launch} (h : s.launch? id = some l) (b n : Nat) :
    ((s.onUnitDie l.id l.nextTeam b).modLaunch l.id fun x => { x with nextTeam := x.nextTeam + n }).launch? l.id =
      some { l with
        nextTeam := l.nextTeam + n
        dies := (l.dies.filter fun x => x.1 != l.nextTeam / l.unitTeamsOf 3) ++ [(l.nextTeam / l.unitTeamsOf 3, b / 48)] } := by
  obtain rfl := State.launch?_id h
  rw [State.launch?_modLaunch, State.onUnitDie, State.launch?_modLaunch, h]
  · simp only [Option.map_some, beq_self_eq_true, if_true]
    rfl
  all_goals exact fun _ => rfl

theorem State.bindRecord_getElem? (s : State) (l : Launch) (b : Nat) {n i : Nat} (hi : i < n) :
    ((List.range n).map (s.bindRecord l b))[i]? = some (s.bindRecord l b i) := by
  rw [List.getElem?_map, List.getElem?_range hi]
  rfl

end Sys2Proof.Machine

namespace Sys2Proof.Proofs

open Sys2Proof.Machine

/-- Settles O51: each event comes down to one operation of dispatch or of a request (log 153: a slice that lapses while nothing
waits begins again); what a save leaves is what taking the team out leaves, for the image's bytes touch nothing that is resident. -/
theorem teamsAreBoundAndPreempted : Obligations.TeamsAreBoundAndPreempted := by
  unfold Obligations.TeamsAreBoundAndPreempted
  refine ⟨?binding, ?placing, ?item, ?slice, ?deadline, ?save⟩
  case binding =>
    intro s l c hq hflag hl hc hp hn hb
    obtain ⟨b, hmem, hw⟩ := State.writeBind_on hc hb
    exact ⟨_, b, _, (exec_bindRecordPlace_writes hq hflag hl hp hn).trans (congrArg _ hw), hmem, rfl, by simp,
      fun i hi => ⟨_, s.bindRecord_getElem? l b hi, rfl, rfl, rfl, rfl, rfl, rfl⟩, 
        launch?_bound (s := s.withBindRecords l b _) hl b _⟩
  case placing =>
    intro s u b l hq hflag hb hl hfirst hbench hgang hu
    obtain ⟨tm, trs, hsched, hteams, htrays, rfl, hlen, hall⟩ := State.bindTeam_bound hu
    refine ⟨_, _, trs, exec_bindRecordPlace_places hq hflag hb hl hfirst hbench hgang hu,
      congrArg (fun x : Sched => x.slots.filter fun y => y.id != b.id) hsched, hteams, rfl, rfl, rfl, rfl, rfl, rfl, ?_, fun n => ?_, htrays, hlen, fun k hk => ?_⟩
    · simp [Launch.front]
    · simp [Launch.front]
    · obtain ⟨tr, htr, hteam, hbenchk, hfresh, hprio⟩ := hall k hk
      exact ⟨tr, htr, hteam, hbenchk, hfresh, hprio⟩
  case item =>
    intro s c hc hids hne it hspare
    exact ⟨_, exec_itemPreempt_of_ctx hc, startPreempt_preempts _ c _ _ hids List.filter_sublist hne hspare⟩
  case slice =>
    intro s c hc hids hs hl teams lapse
    refine ⟨fun hne hcont hspare => ?_, fun ha => ⟨_, exec_sliceLapse_alone hc hs hl ha, rfl, State.ctx?_withSlice hc _⟩⟩
    have hsub : teams.Sublist s.teams := List.filter_sublist.trans List.filter_sublist
    refine ⟨_, { c with sliceStart := lapse }, exec_sliceLapse_contended hc hs hl hne hcont, ?_, ?_, rfl⟩
    · exact startPreempt_preempts (s := s.withSlice c.id lapse) .slice c c.save.toNat (lapse + c.grace) hids hsub hne hspare
    · exact (congrArg _ (startPreempt_ctxs (s := s.withSlice c.id lapse) .slice c c.save.toNat (lapse + c.grace) hids hsub hne
        hspare)).trans (State.ctx?_withSlice hc lapse)
  case deadline =>
    intro s tm d area req h hf hd hd'
    have hexec := exec_drainDeadline_come h hf hd hd'
    refine ⟨fun hr => ⟨_, by rw [hexec, hr]; rfl, State.team?_setFate h _, rfl⟩, fun hr => ?_⟩
    obtain ⟨l, hl⟩ := State.launch?_of_restartable hr
    exact ⟨_, by rw [hexec, if_pos hr], State.discardLaunch_unbinds hl⟩
  case save =>
    intro s tm l c p area req h hf hp hs hfirst herr off image fits
    refine ⟨_, exec_teamSave_settled h hf hp hs hfirst herr, layOut_aligned _ 0 rfl, s.image_header tm l, fun hfit => ?_, fun hfit hk hr => ?_⟩
    · rw [if_pos hfit]
      obtain ⟨hgone, htrays, hlisted, hkept⟩ := s.saveTeam_saved tm l c p area off image
      refine ⟨hgone, htrays, _, hlisted, rfl, rfl, rfl, rfl, s.imageOffset_aligned c.id area p.used, rfl, rfl, rfl, rfl, ?_⟩
      have hparts := congrArg (List.map Prod.snd) hkept
      rw [List.map_map, List.map_map] at hparts
      exact hparts
    · obtain rfl : p.id = req := by simpa using List.find?_some hp
      rw [if_neg hfit, State.noImageRoom_drains hk hr]
      exact State.team?_setFate (State.around_team h) _

end Sys2Proof.Proofs

/-!
SUPPORT. Registers and simple system instructions (R39, R48, R52 to R56, R168, R169): an issuer's own special registers, and one law
for each instruction's run.
-/

namespace Sys2Proof.Machine

/-! A group that changes no register and moves no agent before it writes and retires. -/

/-- A group that writes a destination and retires in a state with the registers and places of the state in which it issued. -/
theorem Issues.acts_finish {s u v : State} {p : Pfx} {size : Nat} {r : Req} {c : Ctx} (h : Issues s p size r c u)
    (hheld : ∀ o x, v.held o x = u.held o x) (hhas : ∀ o x, v.has o x = u.has o x) (hst : v.stands = u.stands)
    {d : BitVec 7} {n : Nat} (hd : (d, n) ∈ r.dsts) (val : Fin 32 → List Word) :
    Acts u (v.finish c d n val) v c (c.writes d n val) c.past where
  regs := by
    intro o x
    have hw : ∀ w ∈ c.writes d n val, v.has c.owner w.reg = true := fun w hw => (hhas _ _).trans (h.writes_has hd val w hw)
    rw [State.finish, State.held_retire, State.putRegs_regs _ _ _ hw, hheld]
  rest := by rw [State.finish, State.retire_still, State.putRegs_still]
  flow := State.retire_moved ((State.stands_putRegs ..).trans hst) h.entry

/-- A group that only retires in a state with the registers and places of the state in which it issued. -/
theorem Issues.acts_retire_of_same {s u v : State} {p : Pfx} {size : Nat} {r : Req} {c : Ctx} (h : Issues s p size r c u)
    (hheld : ∀ o x, v.held o x = u.held o x) (hst : v.stands = u.stands) : Acts u (v.retire c) v c [] c.past where
  regs := RegsAfter.of_same (fun o x => by rw [State.held_retire, hheld]) _
  rest := v.retire_still c
  flow := State.retire_moved hst h.entry

/-- A group that begins a wait at its instruction does nothing else (R159). -/
theorem Issues.acts_waitAt {s u : State} {p : Pfx} {size : Nat} {r : Req} {c : Ctx} (h : Issues s p size r c u) (w : Wait) :
    Acts u (u.waitAt c w) u c [] { c.ent with wait := w } where
  regs := RegsAfter.of_same (fun o x => by rw [State.waitAt, State.held_served, State.held_modEntry]) _
  rest := by rw [State.waitAt, State.served_still, State.modEntry_still]
  flow := (State.modEntry_moved (fun e => { e with wait := w }) rfl h.entry).congr (State.stands_served _ c)

/-! An issuer's own special registers. -/

/-- Change the special registers of the issuer, a tray or a front strand. -/
def State.modIssuer (s : State) (c : Ctx) (g : Tray → Tray) (k : Front → Front) : State :=
  if c.front then s.modFront c.team.id k else s.modTray c.tray.id g

/-- A change of special registers: names, registers and places stay, as they do in every update of other fields. -/
structure Special (g : Tray → Tray) (k : Front → Front) : Prop where
  id : ∀ x, (g x).id = x.id := by intro x; rfl
  reg : ∀ x r, (g x).reg r = x.reg r := by intro x r; exact Tray.reg_congr rfl rfl rfl rfl r
  has : ∀ x r, (g x).has r = x.has r := by intro x r; cases r <;> rfl
  frontier : ∀ x, (g x).frontier = x.frontier := by intro x; rfl
  fregs : ∀ x, (k x).fregs = x.fregs := by intro x; rfl
  place : ∀ x, (k x).pc = x.pc ∧ (k x).loops = x.loops ∧ (k x).wait = x.wait := by intro x; exact ⟨rfl, rfl, rfl⟩

section
variable {g : Tray → Tray} {k : Front → Front} (hs : Special g k) (s : State) (c : Ctx)
include hs

theorem State.held_modIssuer (o : Owner) (r : RegName) : (s.modIssuer c g k).held o r = s.held o r := by
  unfold State.modIssuer
  split
  · exact s.held_modTeam_same _ _ (by intro x; rfl) (by intro x; exact Front.reg_congr (hs.fregs x.front)) o r
  · exact s.held_modTray_same _ _ hs.id hs.reg o r

theorem State.stands_modIssuer : (s.modIssuer c g k).stands = s.stands := by
  unfold State.modIssuer
  split
  · exact s.stands_modTeam _ _ (by intro x; rfl) fun x => hs.place _
  · exact s.stands_modTray _ _ hs.id hs.frontier

theorem State.has_modIssuer (o : Owner) (r : RegName) : (s.modIssuer c g k).has o r = s.has o r := by
  unfold State.modIssuer
  split
  · cases o with
    | tray id => rfl
    | front id =>
      simp only [State.has, State.modFront]
      rw [State.team?_modTeam _ _ _ _ (by intro x; rfl)]
      cases s.team? id <;> cases r <;> rfl
  · cases o with
    | front id => rfl
    | tray id =>
      simp only [State.has]
      rw [State.tray?_modTray _ _ _ _ hs.id]
      cases s.tray? id with
      | none => rfl
      | some tr =>
        simp only [Option.map_some]
        split
        · exact hs.has tr r
        · rfl

end

/-- A change that commutes with taking the still part of trays and strands does so on the state. -/
theorem State.still_modIssuer {g : Tray → Tray} {k : Front → Front} (s : State) (c : Ctx) (hg : ∀ x, (g x).still = g x.still)
    (hk : ∀ x : Team, ({ x with front := k x.front } : Team).still = { x.still with front := k x.still.front }) :
    (s.modIssuer c g k).still = s.still.modIssuer c g k := by
  unfold State.modIssuer
  split
  · unfold State.still State.modFront State.modTeam
    simp only [List.map_map, State.mk.injEq, true_and, and_true]
    refine List.map_congr_left fun x _ => ?_
    change (if x.id == c.team.id then _ else x : Team).still = if x.id == c.team.id then _ else x.still
    split
    · exact hk x
    · rfl
  · unfold State.still State.modTray
    simp only [List.map_map, State.mk.injEq, true_and, and_true]
    refine List.map_congr_left fun x _ => ?_
    change (if x.id == c.tray.id then g x else x).still = if x.id == c.tray.id then g x.still else x.still
    split
    · exact hg x
    · rfl

/-! SETPRI, BRK and WAITT. -/

/-- A tray with another issue priority. -/
def Tray.withPrio (tr : Tray) (v : BitVec 4) : Tray := { tr with prio := v }

/-- A front strand with another priority for its engine commands. -/
def Front.withPrio (fr : Front) (v : BitVec 4) : Front := { fr with prio := v }

/-- The priority of the issuer becomes v (R56). -/
def State.withPrio (s : State) (c : Ctx) (v : BitVec 4) : State := s.modIssuer c (·.withPrio v) (·.withPrio v)

theorem special_prio (v : BitVec 4) : Special (·.withPrio v) (·.withPrio v) := {}

theorem exec_setpri {s u : State} {p : Pfx} {f : FA} {c : Ctx}
    (h : Issues s p (groupSize p) { srcs := [immOr p p.immU f.a f.ta .int], once := true } c u) :
    exec (.setpri p f) s =
      .next ((u.withPrio c (BitVec.ofNat 4 (min (c.val (immOr p p.immU f.a f.ta .int) c.low).toNat 15))).retire c) := by
  change execSetpri p f s = _
  dsimp only [execSetpri]
  rw [h.run]
  rfl

/-- The debugger is told of a BRK of the issuer. -/
def State.toldBrk (s : State) (c : Ctx) : State :=
  { s with outbox := s.outbox ++ [Out.brk (if c.front then c.team.id else c.tray.id)] }

/-- A tray stopped for its debugger. -/
def Tray.halted (tr : Tray) : Tray := { tr with stopped := true }

/-- A front strand stopped for its debugger. -/
def Front.halted (fr : Front) : Front := { fr with stopped := true }

/-- The issuer stops for its debugger (R169). -/
def State.haltIssuer (s : State) (c : Ctx) : State := s.modIssuer c Tray.halted Front.halted

theorem special_halted : Special Tray.halted Front.halted := {}

/-- Telling the debugger and stopping sees of a state only what a retiring group leaves. -/
theorem State.haltIssuer_toldBrk_still {s t : State} (c : Ctx) (h : t.still = s.still) :
    ((t.toldBrk c).haltIssuer c).still = ((s.toldBrk c).haltIssuer c).still := by
  have hb : (t.toldBrk c).still = (s.toldBrk c).still := congrArg (State.toldBrk · c) h
  have hm (x : State) := x.still_modIssuer (g := Tray.halted) (k := Front.halted) c (fun _ => rfl) fun _ => rfl
  unfold State.haltIssuer
  rw [hm, hm, hb]

theorem exec_brk {s u : State} {p : Pfx} {c : Ctx} (h : Issues s p (groupSize p) {} c u) :
    exec (.brk p) s = .next (if c.cx.debugger then ((u.retire c).toldBrk c).haltIssuer c else u.retire c) := by
  change execBrk p s = _
  dsimp only [execBrk]
  rw [h.run]
  cases c.cx.debugger <;> rfl

theorem Issues.acts_haltIssuer {s u : State} {p : Pfx} {size : Nat} {r : Req} {c : Ctx} (h : Issues s p size r c u) :
    Acts u (((u.retire c).toldBrk c).haltIssuer c) ((u.toldBrk c).haltIssuer c) c [] c.past where
  regs := RegsAfter.of_same (fun o x => (State.held_modIssuer special_halted ((u.retire c).toldBrk c) c o x).trans (u.held_retire c o x)) _
  rest := State.haltIssuer_toldBrk_still c (u.retire_still c)
  flow := (State.retire_moved rfl h.entry).congr (State.stands_modIssuer special_halted _ c)

/-- WAITT's operand: E, or the pair of A (R75, R169). -/
def waittSrc (p : Pfx) (f : FA) : Src := match p.imm with | some _ => .imm p.immX | none => .reg f.a 2 f.ta .int

section
variable {s u : State} {p : Pfx} {f : FA} {c : Ctx} (h : Issues s p (groupSize p) { srcs := [waittSrc p f], once := true } c u)
include h

theorem exec_waitt_passed (hv : (c.val64 (waittSrc p f) c.low).toInt ≤ u.time) : exec (.waitt p f) s = .next (u.retire c) :=
  congrArg Host.Outcome.next ((h.run _).trans (if_pos hv))

theorem exec_waitt_early (hv : u.time < (c.val64 (waittSrc p f) c.low).toInt) :
    exec (.waitt p f) s = .next (u.waitAt c (.waitt (c.val64 (waittSrc p f) c.low) c.size)) :=
  congrArg Host.Outcome.next ((h.run _).trans (if_neg (not_le.2 hv)))

end

/-! MOVSR. -/

/-- A tray with another TIMEHI. -/
def Tray.withTimehi (tr : Tray) (v : Word) : Tray := { tr with timehi := v }

/-- A front strand with another TIMEHI. -/
def Front.withTimehi (fr : Front) (v : Word) : Front := { fr with timehi := v }

theorem special_timehi (v : Word) : Special (·.withTimehi v) (·.withTimehi v) := {}

theorem exec_movsr {s u : State} {f : FSr} {c : Ctx} (h : Issues s Pfx.empty 4 { dsts := [(f.d, 1)] } c u) :
    exec (.movsr f) s =
      .next ((if f.sr.toNat = 8 then latched u c else u).finish c f.d 1 fun t => [u.special c f.sr.toNat t]) := by
  change execMovsr f s = _
  dsimp only [execMovsr]
  rw [h.run]
  have hsr : (f.sr == 8) = decide (f.sr.toNat = 8) := by
    rw [Bool.eq_iff_iff]
    simp [BitVec.toNat_eq]
  rw [hsr]
  by_cases h8 : f.sr.toNat = 8 <;> simp [h8, latched, State.finish, w32]

/-- What a read of TIME latches is a special register of the issuer. -/
theorem latched_eq (s : State) (c : Ctx) :
    latched s c = s.modIssuer c (·.withTimehi (BitVec.ofNat 32 (s.time / 2 ^ 32))) (·.withTimehi (BitVec.ofNat 32 (s.time / 2 ^ 32))) := rfl

theorem Issues.acts_movsr {s u : State} {f : FSr} {c : Ctx} (h : Issues s Pfx.empty 4 { dsts := [(f.d, 1)] } c u)
    (v : Fin 32 → List Word) : Acts u ((if f.sr.toNat = 8 then latched u c else u).finish c f.d 1 v)
      (if f.sr.toNat = 8 then latched u c else u) c (c.writes f.d 1 v) c.past := by
  split
  · rw [latched_eq]
    exact h.acts_finish (State.held_modIssuer (special_timehi _) _ _) (State.has_modIssuer (special_timehi _) _ _)
      (State.stands_modIssuer (special_timehi _) _ _) (List.mem_singleton_self _) v
  · exact h.acts_finish (fun _ _ => rfl) (fun _ _ => rfl) rfl (List.mem_singleton_self _) v

/-! The values of special registers (R48). -/

/-- Beyond the 21 single registers come the tag counts, the level indices and the extents. -/
theorem State.special_blocks (s : State) (c : Ctx) (n : Nat) (t : Fin 32) (hf : c.front = false) :
    s.special c (n + 21) t =
      if 24 ≤ n + 21 ∧ n + 21 < 28 then (c.tray.tags[n + 21 - 24]?).map (·.count) |>.getD 0
      else if 32 ≤ n + 21 ∧ n + 21 < 40 then w32 (c.levelIndex (n + 21 - 32) ((c.tray.remap[t]).getD 0))
      else if 40 ≤ n + 21 ∧ n + 21 < 48 then w32 (c.launch.extent (n + 21 - 40))
      else 0 := by
  simp only [State.special, hf]
  rfl

theorem Launch.extent_eq (l : Launch) (k : Nat) : l.extent k = ((l.levels[k]?).map (·.extent)).getD 1 := by
  unfold Launch.extent
  cases l.levels[k]? <;> rfl

theorem ofNat_mod_word (n : Nat) : BitVec.ofNat 32 (n % 4294967296) = BitVec.ofNat 32 n :=
  BitVec.eq_of_toNat_eq (by simp)

theorem loWord_eq (x : DWord) : loWord x = BitVec.ofNat 32 (x.toNat % 2 ^ 32) :=
  BitVec.eq_of_toNat_eq (by simp [loWord])

theorem hiWord_eq (x : DWord) : hiWord x = BitVec.ofNat 32 (x.toNat / 2 ^ 32) :=
  BitVec.eq_of_toNat_eq (by simp [hiWord, Nat.shiftRight_eq_div_pow])

/-- In tray code each special register reads as R48 gives it. -/
theorem State.special_eq {s : State} {c : Ctx} (hf : c.front = false) (u : Fin 32) :
    ∀ x ∈ specials, s.special c x.1 u = BitVec.ofNat 32 (x.2 s c u) := by
  have hbool (b : Bool) : (if b then 1 else 0 : Word) = BitVec.ofNat 32 b.toNat := by cases b <;> rfl
  unfold specials
  simp only [List.forall_mem_append, List.forall_mem_map, List.mem_range]
  refine ⟨⟨⟨?single, fun n hn => ?counts⟩, fun k hk => ?indices⟩, fun k hk => ?extents⟩
  case single =>
    simp only [List.forall_mem_cons, State.special, hf, Bool.false_eq_true, if_false, w32, BitVec.ofNat_toNat, hbool]
    have hb : c.bench = c.tray.bench := by simp [Ctx.bench, hf]
    simp [hb, loWord_eq, hiWord_eq, ofNat_mod_word, Ctx.ver, Ring.lapclk, dieOf]
  case counts =>
    rw [show 24 + n = n + 3 + 21 by omega, s.special_blocks c _ u hf, if_pos (by omega)]
    rw [show n + 3 + 21 - 24 = n by omega]
    cases c.tray.tags[n]? <;> simp
  case indices =>
    rw [show 32 + k = k + 11 + 21 by omega, s.special_blocks c _ u hf, if_neg (by omega), if_pos (by omega)]
    rw [show k + 11 + 21 - 32 = k by omega, Ctx.levelIndex, c.launch.extent_eq]
    rfl
  case extents =>
    rw [show 40 + k = k + 19 + 21 by omega, s.special_blocks c _ u hf, if_neg (by omega), if_neg (by omega), if_pos (by omega)]
    rw [show k + 19 + 21 - 40 = k by omega, c.launch.extent_eq]
    rfl

end Sys2Proof.Machine

namespace Sys2Proof.Proofs

open Sys2Proof.Machine

/-- Settles O23: each run comes down to one state that retires or waits; what SETPRI and BRK change besides is a special register of
the issuer. -/
theorem simpleSystemInstructions : Obligations.SimpleSystemInstructions := by
  unfold Obligations.SimpleSystemInstructions
  refine ⟨fun p f s s' c h => ?setpri, fun s s' c h i hi => ?nothing, fun p s s' c h => ⟨_, exec_brk h, ?brk⟩, fun p f s s' c => ?waitt⟩
  case setpri =>
    exact ⟨_, exec_setpri h, h.acts_retire_of_same (State.held_modIssuer (special_prio _) s' c) (State.stands_modIssuer (special_prio _) s' c)⟩
  case nothing =>
    have hrun : exec i s = .next (s'.retire c) := by
      rcases List.mem_pair.1 hi with rfl | rfl
      · exact congrArg Host.Outcome.next (h.run _)
      · exact congrArg Host.Outcome.next (h.run _)
    exact ⟨_, hrun, h.computes_retire rfl⟩
  case brk =>
    split
    · exact h.acts_haltIssuer
    · exact h.acts_retire rfl rfl
  case waitt =>
    intro a h
    refine ⟨fun hle => ?_, fun hlt => ?_⟩
    · exact ⟨_, exec_waitt_passed h hle, h.acts_retire rfl rfl⟩
    · exact ⟨_, exec_waitt_early h hlt, h.acts_waitAt _⟩

/-- Settles O14: the run writes what the model's `State.special` reads, which in tray code is R48's table and in front code gives the
strand's own TIMEHI. -/
theorem movsrReadsSpecialRegisters : Obligations.MovsrReadsSpecialRegisters := by
  unfold Obligations.MovsrReadsSpecialRegisters
  intro f s s' c h
  refine ⟨_, s'.special c f.sr.toNat, exec_movsr h, h.acts_movsr _, fun hf x hx hc u => ?_, fun hf hc u => ?_⟩
  · rw [hc]
    exact State.special_eq hf u x hx
  · rw [hc]
    exact if_pos hf

end Sys2Proof.Proofs

/-!
SUPPORT. IXSET (R39, R40, R52): its run, and a state in which its B operand advances a cursor.
-/

namespace Sys2Proof.Machine

theorem ixsetOk_iff (base : Nat) (w : Word) : ixsetOk base w = true ↔ ixFits base w := by
  have hw : w.toNat / 2048 = 0 ↔ w.toNat < 2 ^ 11 := by omega
  unfold ixsetOk ixFits
  simp only [Bool.and_eq_true, beq_iff_eq, decide_eq_true_eq, hw]
  split
  · simp only [decide_eq_true_eq]
    omega
  · split
    · simp only [decide_eq_true_eq]
      omega
    · simp only [and_true]
      omega

/-- IXSET's descriptor and its cleared cursors in a tray (R52). -/
def Tray.indexed (tr : Tray) (x : Nat) (d : IxDesc) : Tray :=
  { tr with
    ix := tr.ix.setIfInBounds x d
    cursors := Slots.gen fun t => tr.cursors[t].setIfInBounds x 0 }

theorem ixDescOf_eq (base : BitVec 7) (w : Word) :
    ixDescOf base w =
      { base := base.setWidth 6, boundM1 := w.setWidth 6, step := w.extractLsb' 6 4, wrap := w.getLsbD 10, set := true } := by
  have hb : BitVec.ofNat 6 (w.toNat % 64) = w.setWidth 6 := BitVec.eq_of_toNat_eq (by simp)
  have hs : BitVec.ofNat 4 (w.toNat / 64 % 16) = w.extractLsb' 6 4 :=
    BitVec.eq_of_toNat_eq (by simp [Nat.shiftRight_eq_div_pow])
  have hw : (w.toNat / 1024 % 2 == 1) = w.getLsbD 10 := by
    simp [BitVec.getLsbD, Nat.testBit_eq_decide_div_mod_eq, beq_eq_decide]
  rw [ixDescOf, hb, hs, hw]

/-- What IXSET raises for a configuration word that does not fit (R52, R174). -/
def ixFault (c : Ctx) (f : FIxs) (w : Word) : Cause :=
  { code := 0x04, mask := 1#32 <<< c.low.val, once := true
    d0 := f.x.setWidth 64 ||| f.a.setWidth 64 <<< 16 ||| (w.setWidth 6).setWidth 64 <<< 24 }

theorem exec_ixset (p : Pfx) (f : FIxs) (s : State) :
    exec (.ixset p f) s = .next (s.run p (groupSize p) { srcs := [ixConfig p f], once := true } fun c s =>
      let w := c.val (ixConfig p f) c.low
      if ixsetOk f.a.toNat w then (s.modTray c.tray.id (·.indexed f.x.toNat (ixDescOf f.a w))).retire c
      else s.raise c (ixFault c f w)) := by
  have hx (i : BitVec 23) : (i.setWidth 32).setWidth 64 = i.setWidth 64 := BitVec.eq_of_toNat_eq (by simp)
  change execIxset p f s = _
  cases hi : p.imm with
  | none => simp only [execIxset, ixConfig, hi, ixDescOf_eq, Tray.indexed, ixFault]
  | some i => simp only [execIxset, ixConfig, hi, ixDescOf_eq, Tray.indexed, ixFault, Pfx.immU, Option.getD_some, hx]

/-- A legal configuration source is no index operand. -/
theorem ixConfig_adv {p : Pfx} {f : FIxs} (hb : p.imm = none → okCfg f.b = true) :
    ({ srcs := [ixConfig p f], once := true } : Req).adv = [] := by
  unfold Req.adv Req.codes ixConfig
  cases hi : p.imm with
  | some i => rfl
  | none =>
    have hcode : (104 ≤ f.b.toNat && f.b.toNat < 112) = false := by
      have := hb hi
      simp only [okCfg, Bool.or_eq_true, Bool.and_eq_true, decide_eq_true_eq] at this
      simp only [Bool.and_eq_false_iff, decide_eq_false_iff_not]
      omega
    simp [hcode]

/-- The tray from which a group of tray code issues. -/
theorem Issues.tray {s u : State} {p : Pfx} {size : Nat} {r : Req} {c : Ctx} (h : Issues s p size r c u) (hf : c.front = false) :
    u.tray? c.tray.id = some c.tray := by
  unfold State.tray?
  rw [h.read_trays]
  exact (State.issuer_tray h.agent hf).1

section
variable {s u : State} {p : Pfx} {f : FIxs} {c : Ctx} (h : Issues s p (groupSize p) { srcs := [ixConfig p f], once := true } c u)
  (hw : ixFits f.a.toNat (c.val (ixConfig p f) c.low))
include h hw

theorem exec_ixset_fits :
    exec (.ixset p f) s =
      .next ((u.modTray c.tray.id (·.indexed f.x.toNat (ixDescOf f.a (c.val (ixConfig p f) c.low)))).retire c) := by
  rw [exec_ixset, h.run]
  exact congrArg Host.Outcome.next (if_pos ((ixsetOk_iff _ _).2 hw))

/-- The cursors that an IXSET leaves are those of the tray with its new descriptor after the group's own advances (R40). -/
theorem exec_ixset_cursors (hf : c.front = false) : ∃ t tr, exec (.ixset p f) s = .next t ∧ t.tray? c.tray.id = some tr ∧
    ∀ (v : Fin 32) (y : Nat), y < 8 → tr.cursors[v][y]? =
      some (c.cursorAfter (c.tray.indexed f.x.toNat (ixDescOf f.a (c.val (ixConfig p f) c.low))) v y) := by
  have hpost : (u.modTray c.tray.id (·.indexed f.x.toNat (ixDescOf f.a (c.val (ixConfig p f) c.low)))).tray? c.tray.id =
      some (c.tray.indexed f.x.toNat (ixDescOf f.a (c.val (ixConfig p f) c.low))) := by
    rw [State.tray?_modTray _ _ _ _ (by intro x; rfl), h.tray hf]
    simp
  obtain ⟨tr, htr, hcur⟩ := State.retire_cursors (fun _ => rfl) h.nodup _ _ hpost
  exact ⟨_, tr, exec_ixset_fits h hw, htr, hcur⟩

/-- With a legal configuration source (R52) no operand advances, and an IXSET only clears the cursors of its index register. -/
theorem exec_ixset_clears (hf : c.front = false) (hb : p.imm = none → okCfg f.b = true) :
    ∃ t tr, exec (.ixset p f) s = .next t ∧ t.tray? c.tray.id = some tr ∧
      ∀ v : Fin 32, tr.cursors[v] = (c.tray.cursors[v]).setIfInBounds f.x.toNat 0 := by
  have hadv : c.adv = [] := h.adv.trans (ixConfig_adv hb)
  obtain ⟨t, tr, ht, htr, hcur⟩ := exec_ixset_cursors h hw hf
  refine ⟨t, tr, ht, htr, fun v => Vector.ext fun y hy => ?_⟩
  have hy' := hcur v y hy
  rw [Ctx.cursorAfter, hadv, if_neg (by simp), Tray.indexed, Slots.gen_get] at hy'
  simpa [hy] using hy'

end

/-! A group of IXSET whose B is v[x1+]. -/

/-- A tray of one thread whose x1 names v0 with cursor 0, bound 1 and step 1 in fault mode. -/
def stepping : State :=
  { State.reset.withFetchWord 0 0 with cur := .tray 1 0 }.modTray 1 fun tr =>
    { tr with ix := tr.ix.set 1 { base := 0, boundM1 := 0, step := 1, wrap := false, set := true } }

/-- IXSET x0, v0, v[x1+], a form that R52 does not have. -/
def ixsetByIndex : FIxs := { x := 0, a := 0, b := 105, tb := false }

/-- The context in which it issues. -/
def steppingCtx : Ctx := { (stepping.issuer Pfx.empty 4).get (by decide) with adv := [105] }

theorem stepping_issues : Issues stepping Pfx.empty 4 { srcs := [ixConfig Pfx.empty ixsetByIndex], once := true } steppingCtx stepping where
  agent := rfl
  adv := by decide
  active := by decide
  free := by decide
  sound := by decide
  full := by decide
  there := fun d hd => nomatch hd
  read := rfl

theorem steppingCtx_fits : ixFits 0 (steppingCtx.val (ixConfig Pfx.empty ixsetByIndex) steppingCtx.low) := by
  rw [← ixsetOk_iff]
  decide

end Sys2Proof.Machine

namespace Sys2Proof.Proofs

open Sys2Proof.Machine

/-- Refutes O13: IXSET's clause asks that every cursor but the one it clears stays, for every operand code B. With B = v[x1+] the
group advances cursor 1 when it retires (R40), from 0 to 1. R52 has no such form (B is an s register, a constant or 0), but the
statement does not ask that the instruction be legal; for a legal one its clause about the cursors is `exec_ixset_clears`. -/
theorem not_indexRegisterInstructions : ¬ Obligations.IndexRegisterInstructions := by
  unfold Obligations.IndexRegisterInstructions
  rintro ⟨hset, -⟩
  obtain ⟨t, ht, -, tr, htr, hkept⟩ :=
    (hset Pfx.empty ixsetByIndex stepping stepping steppingCtx stepping_issues rfl).1 steppingCtx_fits
  obtain ⟨t', tr', ht', htr', hadv⟩ := exec_ixset_cursors stepping_issues steppingCtx_fits rfl
  obtain rfl := Host.Outcome.next.inj (ht.symm.trans ht')
  obtain rfl := Option.some.inj (htr.symm.trans htr')
  have hone := hadv 0 1 (by decide)
  have hzero := congrArg (·[1]?) (hkept 0)
  exact absurd (hone.symm.trans hzero) (by decide)

end Sys2Proof.Proofs

/-!
SUPPORT. Frames (R34 to R36, R58, R138, R148): what changes of a tray's frames and frontier leave of registers, bytes and predicates, and
one law for each event's run.
-/

namespace Sys2Proof.Machine

/-! Changes of one tray that leave memory, predicates or registers. -/

/-- Every register, byte and predicate reads as before. -/
structure SameFiles (s t : State) : Prop where
  held : ∀ o r, t.held o r = s.held o r
  bytes : SameBytes s t
  preds : SamePreds s t

theorem SameFiles.trans {s t u : State} (h : SameFiles s t) (k : SameFiles t u) : SameFiles s u where
  held o r := (k.held o r).trans (h.held o r)
  bytes ks l := (k.bytes ks l).trans (h.bytes ks l)
  preds := ⟨fun id => (k.preds.1 id).trans (h.preds.1 id), fun id => (k.preds.2 id).trans (h.preds.2 id)⟩

theorem State.samePreds_modTray (s : State) (id : Nat) (g : Tray → Tray) (hg : ∀ x, (g x).id = x.id)
    (hp : ∀ x, (g x).preds = x.preds) : SamePreds s (s.modTray id g) := by
  refine ⟨fun j => ?_, fun _ => rfl⟩
  rw [State.tray?_modTray _ _ _ _ hg]
  cases s.tray? j with
  | none => rfl
  | some tr =>
    simp only [Option.map_some]
    split <;> simp [hp]

/-- A tray's register is found through the frames alone, and a frame by its number. -/
theorem Tray.reg_frames_map {a b : Tray} (F : Frame → Frame) (hb : a.base = b.base) (hf : a.frames = b.frames.map F) (he : a.ext = b.ext)
    (hs : a.sregs = b.sregs) (hF : ∀ f, (F f).uid = f.uid ∧ (F f).regs = f.regs) (r : RegName) : a.reg r = b.reg r := by
  cases r with
  | win w t n =>
    simp only [Tray.reg, hf]
    rw [find_map_keep _ _ fun f => by rw [(hF f).1]]
    cases b.frames.find? fun f => f.uid == w with
    | none => rfl
    | some f => simp [(hF f).2]
  | _ => simp [Tray.reg, hb, he, hs]

/-- A change of a tray's frames, but for their registers, of its frontier and of its account of the pool. -/
structure Restacks (g : Tray → Tray) (F : Frame → Frame) : Prop where
  regs : ∀ f, (F f).uid = f.uid ∧ (F f).regs = f.regs
  id : ∀ x, (g x).id = x.id := by intro x; rfl
  files : ∀ x, (g x).base = x.base ∧ (g x).ext = x.ext ∧ (g x).sregs = x.sregs := by intro x; exact ⟨rfl, rfl, rfl⟩
  frames : ∀ x, (g x).frames = x.frames.map F := by intro x; rfl
  scratch : ∀ x, (g x).scratch = x.scratch := by intro x; rfl
  preds : ∀ x, (g x).preds = x.preds := by intro x; rfl

theorem Restacks.sameFiles {g : Tray → Tray} {F : Frame → Frame} (h : Restacks g F) (s : State) (id : Nat) :
    SameFiles s (s.modTray id g) where
  held := s.held_modTray_same id g h.id fun x r =>
    Tray.reg_frames_map F (h.files x).1 (h.frames x) (h.files x).2.1 (h.files x).2.2 h.regs r
  bytes := s.byteSeen_modTray id g h.id h.scratch
  preds := s.samePreds_modTray id g h.id h.preds

theorem Restacks.sameFiles_modHeld {g : Tray → Tray} {F : Frame → Frame} (h : Restacks g F) (s : State) (id : Nat) :
    SameFiles s (s.modHeld id g) :=
  Restacks.sameFiles (g := fun tr => { g tr with drawn := redraw (s.regres tr) tr.used (g tr).used tr.drawn })
    ⟨h.regs, h.id, h.files, h.frames, h.scratch, h.preds⟩ s id

theorem State.tray?_modHeld {s : State} {id : Nat} {tr : Tray} (h : s.tray? id = some tr) (g : Tray → Tray) (hg : ∀ x, (g x).id = x.id) :
    (s.modHeld id g).tray? id = some { g tr with drawn := redraw (s.regres tr) tr.used (g tr).used tr.drawn } := by
  unfold State.modHeld
  rw [State.tray?_modTray _ _ _ _ (by intro x; exact hg x), h]
  simp [State.tray?_id h]

/-- A change of one tray that leaves its registers but for those of a frame leaves every other register. -/
theorem State.held_modTray_except {s : State} {id w : Nat} {tr : Tray} (ht : s.tray? id = some tr) (g : Tray → Tray)
    (hg : ∀ x, (g x).id = x.id) (hreg : ∀ r, (∀ t n, r ≠ .win w t n) → (g tr).reg r = tr.reg r) (o : Owner) (r : RegName)
    (hr : ∀ u n, ¬(o = .tray id ∧ r = .win w u n)) : (s.modTray id g).held o r = s.held o r := by
  rw [s.held_modTray id g hg]
  split
  · rename_i ho
    rw [ho, ht]
    simp only [State.held, ht, hreg r fun t n e => hr t n ⟨ho, e⟩]
  · rfl

/-! Spills and fills. -/

theorem exec_spillWrite {s : State} {tr : Tray} {f : Frame} {tm : Team} {l : Launch} {cx : Context} (ht : s.tray? s.input.id = some tr)
    (hf : tr.frames.find? (fun g => g.uid == s.input.n && g.spill == .pending) = some f) (ha : s.around tr.team = some (tm, l, cx)) :
    exec .spillWrite s = .next ((spilled s cx tm l tr f).modTray tr.id fun tr =>
        { tr with frames := tr.frames.map fun g => if g.uid = f.uid then { g with spill := .written } else g }) := by
  change execSpillWrite s = _
  unfold execSpillWrite
  simp only [ht, hf, ha, beq_iff_eq]
  rfl

/-- The word that a fill reads for register i of a slot's thread; a free value where memory cannot be read (R35). -/
def State.fillWord (s : State) (tm : Team) (l : Launch) (cx : Context) (tr : Tray) (f : Frame) (t : Fin 32) (tid i : Nat) : Word :=
  match s.ctxRead cx l.ver (spillAt tm l tr f tid + 4 * i) 4 with
  | some bs => w32 (leNat bs)
  | none => loWord (Config.freeValue (s.tick * 65536 + t.val * 16 + i))

/-- The registers that a fill restores. -/
def State.fillRegs (s : State) (tm : Team) (l : Launch) (cx : Context) (tr : Tray) (f : Frame) : Slots (Vector Reg 16) :=
  Slots.gen fun t => match tr.remap[t] with
    | some tid => Vector.ofFn fun i => { val := s.fillWord tm l cx tr f t tid i.val, full := true : Reg }
    | none => Vector.replicate 16 Reg.zero

/-- A tray whose frame with a number holds these registers again. -/
def Tray.refilled (tr : Tray) (uid : Nat) (regs : Slots (Vector Reg 16)) : Tray :=
  { tr with frames := tr.frames.map fun g => if g.uid == uid then { g with regs := regs, spill := .none } else g }

theorem Tray.refilled_find (tr : Tray) (uid w : Nat) (regs : Slots (Vector Reg 16)) :
    (tr.refilled uid regs).frames.find? (fun g => g.uid == w) = (tr.frames.find? fun g => g.uid == w).map
      fun g => if g.uid == uid then { g with regs := regs, spill := .none } else g :=
  find_map_keep _ _ (fun g => by split <;> rfl) _

theorem Tray.refilled_reg_other (tr : Tray) (uid : Nat) (regs : Slots (Vector Reg 16)) (r : RegName)
    (hr : ∀ t n, r ≠ .win uid t n) : (tr.refilled uid regs).reg r = tr.reg r := by
  cases r with
  | win w t n =>
    have hw : w ≠ uid := fun e => hr t n (by rw [e])
    simp only [Tray.reg]
    rw [tr.refilled_find]
    cases hfind : tr.frames.find? fun g => g.uid == w with
    | none => rfl
    | some g =>
      have hg : g.uid = w := by simpa using List.find?_some hfind
      simp [hg, hw]
  | _ => rfl

theorem Tray.refilled_reg_same (tr : Tray) {f : Frame} (hf : f ∈ tr.frames) (regs : Slots (Vector Reg 16)) (t : Fin 32) (n : Nat) :
    (tr.refilled f.uid regs).reg (.win f.uid t n) = (regs[t][n]?).getD Reg.zero := by
  simp only [Tray.reg]
  rw [tr.refilled_find]
  cases hfind : tr.frames.find? fun g => g.uid == f.uid with
  | none => exact absurd (beq_self_eq_true f.uid) (List.find?_eq_none.1 hfind f hf)
  | some g =>
    have hg : g.uid = f.uid := by simpa using List.find?_some hfind
    simp [hg]

theorem exec_fillRestore {s : State} {tr : Tray} {f : Frame} {tm : Team} {l : Launch} {cx : Context} (ht : s.tray? s.input.id = some tr)
    (hf : tr.frames.find? (fun g => g.uid == s.input.n && g.held && g.spill == .written) = some f)
    (ha : s.around tr.team = some (tm, l, cx)) :
    exec .fillRestore s = .next (s.modTray tr.id (·.refilled f.uid (s.fillRegs tm l cx tr f))) := by
  change execFillRestore s = _
  unfold execFillRestore
  simp only [ht, hf, ha]
  rfl

/-- A word that the spill area holds comes back into its register (R35). -/
theorem State.fillRegs_read {s : State} {tm : Team} {l : Launch} {cx : Context} {tr : Tray} {f : Frame} {u : Fin 32} {i : Fin 16}
    {tid : Nat} {bs : List Byte} (hu : tr.remap[u] = some tid)
    (hb : s.ctxRead cx l.ver (spillAt tm l tr f tid + 4 * i.val) 4 = some bs) :
    ((s.fillRegs tm l cx tr f)[u][i.val]?).getD Reg.zero = { val := BitVec.ofNat 32 (leNat bs), full := true } := by
  have hw : s.fillWord tm l cx tr f u tid i.val = BitVec.ofNat 32 (leNat bs) := by
    unfold State.fillWord
    rw [hb]
    rfl
  unfold State.fillRegs
  rw [Slots.gen_get, hu]
  simp [hw]

/-! Waits for pool space. -/

/-- The wait that R58 serves is the one that the model's search finds. -/
theorem servedFirst_found {s : State} {id k : Nat} {need : PoolNeed} {us : List Nat} (h : servedFirst s = some (id, k, need, us)) :
    ∃ o, ((s.lanePool s.input.id s.input.n s.input.flag).findSome? fun w =>
      (s.fitsNow w.2.1 w.2.2.1 w.2.2.2).map fun us => (w, us)) = some ((o, id, k, need), us) := by
  have hmap : servedFirst s = ((s.lanePool s.input.id s.input.n s.input.flag).findSome? fun w =>
      (s.fitsNow w.2.1 w.2.2.1 w.2.2.2).map fun us => (w, us)).map fun x => (x.1.2.1, x.1.2.2.1, x.1.2.2.2, x.2) := by
    unfold servedFirst
    rw [List.map_findSome?]
    simp only [Function.comp_def, Option.map_map]
  rw [hmap] at h
  obtain ⟨⟨⟨o, id', k', need'⟩, us'⟩, hx, he⟩ := Option.map_eq_some_iff.1 h
  cases he
  exact ⟨o, hx⟩

theorem exec_poolWaitServe_fill {s : State} {id k uid : Nat} {us : List Nat} (h : servedFirst s = some (id, k, .fill uid, us)) :
    exec .poolWaitServe s = .next { s.fillTake id uid us with agenda := .event .poolWaitServe s.input :: s.agenda } := by
  obtain ⟨o, ho⟩ := servedFirst_found h
  change execPoolWaitServe s = _
  unfold execPoolWaitServe
  simp only [ho]
  rfl

theorem exec_poolWaitServe_issue {s : State} {id k : Nat} {need : PoolNeed} {us : List Nat} (h : servedFirst s = some (id, k, need, us))
    (hn : ∀ u, need ≠ .fill u) :
    exec .poolWaitServe s = .next { s.modTray id fun tr =>
        { tr with frontier := modAt (fun e => { e with wait := .none }) tr.frontier k } with
      agenda := .issue (.tray id k) :: .event .poolWaitServe s.input :: s.agenda } := by
  obtain ⟨o, ho⟩ := servedFirst_found h
  change execPoolWaitServe s = _
  unfold execPoolWaitServe
  simp only [ho]
  cases need with
  | fill u => exact absurd rfl (hn u)
  | ext => rfl
  | frame n => rfl

/-- A frame that a spill reads out (R34). -/
def Frame.spilledOf (f : Frame) (us : List Nat) : Frame := if us.contains f.uid then { f with held := false, spill := .pending } else f

/-- A frame once its fill has its registers (R35). -/
def Frame.grantedTo (f : Frame) (uid : Nat) : Frame := if f.uid == uid then { f with held := true, asked := 0 } else f

theorem Frame.spilledOf_keeps (us : List Nat) (f : Frame) : (f.spilledOf us).uid = f.uid ∧ (f.spilledOf us).regs = f.regs := by
  unfold Frame.spilledOf
  split <;> exact ⟨rfl, rfl⟩

theorem Frame.grantedTo_keeps (uid : Nat) (f : Frame) : (f.grantedTo uid).uid = f.uid ∧ (f.grantedTo uid).regs = f.regs := by
  unfold Frame.grantedTo
  split <;> exact ⟨rfl, rfl⟩

/-- An entry that waits for the registers of a frame goes on (R35). -/
def Entry.fed (uid : Nat) (e : Entry) : Entry :=
  match e.wait with
  | .pool _ (.fill u) => if u == uid then { e with wait := .none } else e
  | _ => e

/-- A tray whose spilled frames are read out. -/
def Tray.spilling (tr : Tray) (us : List Nat) : Tray := { tr with frames := tr.frames.map (·.spilledOf us) }

/-- A tray once a fill has its registers: the entries that waited for them go on (R35). -/
def Tray.granted (tr : Tray) (uid : Nat) : Tray :=
  { tr with
    frames := tr.frames.map (·.grantedTo uid)
    frontier := mergeAll (tr.frontier.map (Entry.fed uid))
    trap := tr.trap.map fun ts => { ts with frontier := ts.frontier.map (Entry.fed uid) } }

theorem fedEntries_eq (es : List Entry) (uid : Nat) : fedEntries es uid = mergeAll (es.map (Entry.fed uid)) := by
  unfold fedEntries
  refine congrArg mergeAll (List.map_congr_left fun e _ => ?_)
  unfold Entry.fed
  cases e.wait with
  | pool o need => cases need <;> simp only [beq_iff_eq]
  | _ => rfl

theorem State.fillTake_eq (s : State) (id uid : Nat) (us : List Nat) :
    s.fillTake id uid us = (s.modHeld id (·.spilling us)).modHeld id (·.granted uid) := rfl

theorem restacks_spilling (us : List Nat) : Restacks (·.spilling us) (·.spilledOf us) :=
  { regs := Frame.spilledOf_keeps us }

theorem restacks_granted (uid : Nat) : Restacks (·.granted uid) (·.grantedTo uid) :=
  { regs := Frame.grantedTo_keeps uid }

/-- Registers that are allocated for a fill change neither registers nor bytes nor predicates. -/
theorem State.fillTake_sameFiles (s : State) (id uid : Nat) (us : List Nat) : SameFiles s (s.fillTake id uid us) := by
  rw [State.fillTake_eq]
  exact ((restacks_spilling us).sameFiles_modHeld s id).trans ((restacks_granted uid).sameFiles_modHeld _ id)

theorem State.tray?_fillTake {s : State} {id : Nat} {tr : Tray} (h : s.tray? id = some tr) (uid : Nat) (us : List Nat) :
    ∃ tr', (s.fillTake id uid us).tray? id = some tr' ∧ tr'.frontier = mergeAll (tr.frontier.map (Entry.fed uid)) ∧
      tr'.frames = tr.frames.map fun f => (f.spilledOf us).grantedTo uid := by
  rw [State.fillTake_eq]
  have hspilt := State.tray?_modHeld h (·.spilling us) fun _ => rfl
  exact ⟨_, State.tray?_modHeld hspilt (·.granted uid) fun _ => rfl, rfl, List.map_map⟩

/-! Fairness and returns. -/

theorem exec_fairnessLapse_due {s : State} {tr : Tray} {tm : Team} {l : Launch} {cx : Context} (ht : s.tray? s.input.id = some tr)
    (ha : s.around tr.team = some (tm, l, cx)) (hl : tr.lapsed = false) (hd : tr.fairClk + l.fairPeriod ≤ s.clk) :
    exec .fairnessLapse s = .next (s.modTray tr.id fun tr => { tr with lapsed := true }) := by
  change execFairnessLapse s = _
  unfold execFairnessLapse
  simp [ht, ha, hl, hd]

/-- Freeing registers only puts a look at the waits into the agenda (R58). -/
theorem State.poolFreed_agenda (s : State) (bench lane : Nat) (landed : Bool) :
    ∃ a, s.poolFreed bench lane landed = { s with agenda := a } := by
  unfold State.poolFreed
  dsimp only
  split <;> exact ⟨_, rfl⟩

theorem SameBytes.poolFreed {s t : State} (h : SameBytes s t) (bench lane : Nat) (landed : Bool) :
    SameBytes s (t.poolFreed bench lane landed) := by
  obtain ⟨a, ha⟩ := t.poolFreed_agenda bench lane landed
  rw [ha]
  exact h

theorem SamePreds.poolFreed {s t : State} (h : SamePreds s t) (bench lane : Nat) (landed : Bool) :
    SamePreds s (t.poolFreed bench lane landed) := by
  obtain ⟨a, ha⟩ := t.poolFreed_agenda bench lane landed
  rw [ha]
  exact h

theorem State.tray?_poolFreed (s : State) (bench lane : Nat) (landed : Bool) (id : Nat) :
    (s.poolFreed bench lane landed).tray? id = s.tray? id := by
  unfold State.tray?
  rw [State.poolFreed_trays]

/-- The newest frame is gone, and its callers go on at its return address (R148); the frame below may wait for its fill. -/
def Tray.returnedFrom (tr : Tray) (f : Frame) : Tray := (tr.popFrame f .none).emptyHead 0

/-- Emptying the frame that is now the newest changes the frames alone. -/
theorem Tray.emptyHead_frames (tr : Tray) (n : Nat) : ∃ fs, tr.emptyHead n = { tr with frames := fs } := by
  unfold Tray.emptyHead
  split
  · split <;> exact ⟨_, rfl⟩
  · exact ⟨_, rfl⟩

theorem Tray.returnedFrom_keeps (tr : Tray) (f : Frame) :
    (tr.returnedFrom f).id = tr.id ∧ (tr.returnedFrom f).scratch = tr.scratch ∧ (tr.returnedFrom f).preds = tr.preds := by
  obtain ⟨fs, hfs⟩ := (tr.popFrame f .none).emptyHead_frames 0
  unfold Tray.returnedFrom
  rw [hfs]
  exact ⟨rfl, rfl, rfl⟩

section
variable {s : State} {tr : Tray} {f : Frame} {rest : List Frame} (ht : s.tray? s.input.id = some tr) (hfr : tr.frames = f :: rest)
  (hrest : ∀ g, rest.head? = some g → g.held = true ∨ g.size = 0)
include hfr hrest

/-- Where the frame below holds its registers, a return leaves it as it is. -/
theorem Tray.returnedFrom_eq : tr.returnedFrom f = { tr with frames := rest, frontier := backEntries tr f } := by
  have hpop : tr.popFrame f .none = { tr with frames := rest, frontier := backEntries tr f } := by
    unfold Tray.popFrame backEntries
    rw [hfr]
    rfl
  unfold Tray.returnedFrom
  rw [hpop]
  unfold Tray.emptyHead
  cases rest with
  | nil => rfl
  | cons g gs => rcases hrest g rfl with hg | hg <;> simp [hg]

/-- A return takes away the registers of the frame that goes, and no other. -/
theorem Tray.returnedFrom_reg (r : RegName) (hr : ∀ t n, r ≠ .win f.uid t n) : (tr.returnedFrom f).reg r = tr.reg r := by
  rw [Tray.returnedFrom_eq hfr hrest]
  cases r with
  | win w t n =>
    have hw : (f.uid == w) = false := beq_false_of_ne fun e => hr t n (by rw [e])
    simp only [Tray.reg, hfr, List.find?_cons, hw]
  | _ => rfl

include ht

theorem exec_frameFree_pops (hc : stillCalled tr f &&& ~~~returned tr = 0) :
    exec .frameFree s =
      .next ((s.modHeld tr.id (·.returnedFrom f)).poolFreed tr.bench tr.lane tr.landed.isSome) := by
  have hleft : (tr.callersLeft f &&& ~~~tr.atRet != 0) = false := bne_eq_false_iff_eq.2 hc
  change execFrameFree s = _
  unfold execFrameFree
  simp only [ht, hfr, hleft, Bool.false_eq_true, if_false]
  cases rest with
  | nil => rfl
  | cons g gs =>
    have hg : (g.held || g.size == 0) = true := by rcases hrest g rfl with hg | hg <;> simp [hg]
    simp only [List.head?_cons, hg, if_true]
    rfl

end

end Sys2Proof.Machine

namespace Sys2Proof.Proofs

open Sys2Proof.Machine

/-- Settles O43 (log 13: `backEntries` and `fedEntries` are the model's `mergeAll` of the changed entries): each event changes the
frames and the frontier of one tray, and registers only where a frame is restored or goes. -/
theorem framesSpillFillAndReturn : Obligations.FramesSpillFillAndReturn := by
  unfold Obligations.FramesSpillFillAndReturn
  refine ⟨fun s tr f tm l cx => exec_spillWrite, ?fill, ?served, fun s id k need us => exec_poolWaitServe_issue,
    fun s tr tm l cx => exec_fairnessLapse_due, ?freed⟩
  case fill =>
    intro s tr f tm l cx ht hf ha
    have hid : s.tray? tr.id = some tr := (State.tray?_id ht).symm ▸ ht
    refine ⟨_, exec_fillRestore ht hf ha, fun u i tid bs hu hb => ?_,
      State.held_modTray_except hid _ (fun _ => rfl) (tr.refilled_reg_other f.uid _),
      State.stands_tray (s.stands_modTray _ _ (fun _ => rfl) fun _ => rfl),
      s.byteSeen_modTray _ _ (fun _ => rfl) fun _ => rfl, s.samePreds_modTray _ _ (fun _ => rfl) fun _ => rfl⟩
    rw [State.held_modTray _ _ _ (by intro x; rfl), if_pos rfl, hid]
    simp only [tr.refilled_reg_same (List.mem_of_find?_eq_some hf), State.fillRegs_read hu hb]
  case served =>
    intro s id k uid us tr h ht
    obtain ⟨tr', htr', hfrontier, hframes⟩ := State.tray?_fillTake ht uid us
    have hfiles := s.fillTake_sameFiles id uid us
    refine ⟨_, tr', exec_poolWaitServe_fill h, htr', hfrontier.trans (fedEntries_eq ..).symm, hframes.trans ?_, rfl, hfiles.held,
      hfiles.bytes, hfiles.preds⟩
    simp only [Frame.grantedTo, Frame.spilledOf, beq_iff_eq]
  case freed =>
    intro s tr f rest ht hfr hc hrest
    have hid : s.tray? tr.id = some tr := (State.tray?_id ht).symm ▸ ht
    have hkeep := fun x : Tray => x.returnedFrom_keeps f
    have heq := Tray.returnedFrom_eq hfr hrest
    refine ⟨_, _, exec_frameFree_pops ht hfr hrest hc, (State.tray?_poolFreed ..).trans (State.tray?_modHeld hid _ fun x => (hkeep x).1),
      congrArg Tray.frames heq, congrArg Tray.frontier heq, fun o r hr => ?held, SameBytes.poolFreed ?bytes _ _ _,
      SamePreds.poolFreed ?preds _ _ _⟩
    case held =>
      rw [State.held_congr (State.poolFreed_trays ..) (State.poolFreed_teams ..)]
      unfold State.modHeld
      refine State.held_modTray_except hid _ (by intro x; exact (hkeep x).1) (fun r hr => ?_) o r hr
      exact (Tray.reg_congr rfl rfl rfl rfl r).trans (Tray.returnedFrom_reg hfr hrest r hr)
    case bytes => exact s.byteSeen_modTray _ _ (by intro x; exact (hkeep x).1) (by intro x; exact (hkeep x).2.1)
    case preds => exact s.samePreds_modTray _ _ (by intro x; exact (hkeep x).1) (by intro x; exact (hkeep x).2.2)

end Sys2Proof.Proofs

/-!
SUPPORT. The extended block (R50, R51, R58): what reads as before while a block comes or goes, and one law for each outcome of XACQ
and XREL.
-/

namespace Sys2Proof.Machine

/-! A tray's extended block. -/

/-- A tray with another extended block, or without one. -/
def Tray.withExt (tr : Tray) (e : Option (Slots (Vector Reg 16))) : Tray := { tr with ext := e }

/-- Blank registers read as the register that is not there. -/
theorem blankRegs_get (m : Nat) (t : Fin 32) (n : Nat) : ((blankRegs m)[t][n]?).getD Reg.zero = Reg.zero := by
  simp only [blankRegs, Fin.getElem_fin, Vector.getElem_replicate, Vector.getElem?_replicate]
  split <;> rfl

theorem Tray.withExt_reg_other (tr : Tray) (e : Option (Slots (Vector Reg 16))) (r : RegName) (hr : ∀ t n, r ≠ .ext t n) :
    (tr.withExt e).reg r = tr.reg r := by
  cases r with
  | ext t n => exact absurd rfl (hr t n)
  | _ => rfl

/-- A block of zeros reads as no block does. -/
theorem Tray.withExt_blank_reg {tr : Tray} (h : tr.ext = none) (r : RegName) : (tr.withExt (some (blankRegs 16))).reg r = tr.reg r := by
  cases r with
  | ext t n => simp only [Tray.reg, Tray.withExt, h, blankRegs_get]
  | _ => rfl

/-! Changes of what a tray holds in its pool, and the end of a group. -/

theorem State.stands_modHeld (s : State) (id : Nat) (g : Tray → Tray) (hg : ∀ x, (g x).id = x.id)
    (hf : ∀ x, (g x).frontier = x.frontier) : (s.modHeld id g).stands = s.stands :=
  s.stands_modTray id _ hg hf

/-- A register that a tray reads as before, or that is no register of it, is held as before. -/
theorem State.held_modHeld_kept {s : State} {id : Nat} {tr : Tray} (ht : s.tray? id = some tr) (g : Tray → Tray)
    (hg : ∀ x, (g x).id = x.id) (o : Owner) (r : RegName) (hr : o = .tray id → (g tr).reg r = tr.reg r) :
    (s.modHeld id g).held o r = s.held o r := by
  unfold State.modHeld
  rw [State.held_modTray _ _ _ (by intro x; exact hg x)]
  split
  · rename_i ho
    have hkept : ({ g tr with drawn := redraw (s.regres tr) tr.used (g tr).used tr.drawn } : Tray).reg r = tr.reg r :=
      (Tray.reg_congr rfl rfl rfl rfl r).trans (hr ho)
    rw [ho, ht]
    simp only [State.held, ht, hkept]
  · rfl

theorem State.ext_modTray (s : State) (id j : Nat) (g : Tray → Tray) (hg : ∀ x, (g x).id = x.id) (he : ∀ x, (g x).ext = x.ext) :
    ((s.modTray id g).tray? j).map (·.ext) = (s.tray? j).map (·.ext) := by
  rw [State.tray?_modTray _ _ _ _ hg]
  cases s.tray? j with
  | none => rfl
  | some tr =>
    simp only [Option.map_some]
    split <;> simp [he]

theorem Tray.advances_ext (act : BitVec 32) (xs : List (BitVec 7)) (tr : Tray) :
    (xs.foldl (fun tr x => tr.advance act x) tr).id = tr.id ∧ (xs.foldl (fun tr x => tr.advance act x) tr).ext = tr.ext := by
  induction xs generalizing tr with
  | nil => exact ⟨rfl, rfl⟩
  | cons x xs ih =>
    rw [List.foldl_cons, (ih _).1, (ih _).2]
    unfold Tray.advance
    split <;> exact ⟨rfl, rfl⟩

/-- Retiring a group leaves every tray its extended block. -/
theorem State.ext_retire (s : State) (c : Ctx) (j : Nat) : ((s.retire c).tray? j).map (·.ext) = (s.tray? j).map (·.ext) := by
  have hadv : ((s.advance c).tray? j).map (·.ext) = (s.tray? j).map (·.ext) := by
    unfold State.advance
    split
    · rfl
    · exact s.ext_modTray _ _ _ (fun x => (x.advances_ext _ _).1) fun x => (x.advances_ext _ _).2
  have hent (u : State) (f : Entry → Entry) : ((u.modEntry c f).tray? j).map (·.ext) = (u.tray? j).map (·.ext) := by
    unfold State.modEntry
    split
    · rfl
    · exact u.ext_modTray _ _ _ (by intro x; rfl) (by intro x; rfl)
  have hcount (u : State) : ((u.counted c).tray? j).map (·.ext) = (u.tray? j).map (·.ext) := by
    unfold State.counted State.served
    dsimp only
    split
    · rfl
    · exact State.ext_modTray _ _ _ _ (by intro x; rfl) (by intro x; rfl)
  exact (hcount _).trans ((hent _ _).trans hadv)

/-- Retiring a group puts nothing into the agenda. -/
theorem State.retire_agenda (s : State) (c : Ctx) : (s.retire c).agenda = s.agenda := by
  have hstill : (s.retire c).still.agenda = s.still.agenda := congrArg State.agenda (s.retire_still c)
  exact hstill

/-- Where an entry of the lane waits for pool space, freed registers have the waits looked at next (R58). -/
theorem State.poolFreed_looks {s : State} {bench lane : Nat} {landed : Bool}
    (h : ∃ tr ∈ s.trays, tr.bench = bench ∧ tr.lane = lane ∧ tr.landed.isSome = landed ∧ ∃ e ∈ tr.frontier, ∃ n need, e.wait = .pool n need) :
    ∃ x, (s.poolFreed bench lane landed).agenda = .event .poolWaitServe x :: s.agenda := by
  obtain ⟨tr, htr, hb, hl, hd, e, he, n, need, hw⟩ := h
  refine ⟨_, congrArg State.agenda (if_pos (List.any_eq_true.2 ⟨tr, htr, ?_⟩))⟩
  simp only [hb, hl, hd, beq_self_eq_true, Bool.true_and]
  exact Bool.or_eq_true_iff.2 (.inl (List.any_eq_true.2 ⟨e, he, by rw [hw]⟩))

/-! XACQ and XREL. -/

/-- A state in which a tray that has room for it has a block of zeros (R34, R50). -/
def State.givenExt (s : State) (id : Nat) (us : List Nat) : State := (s.spill id us).modHeld id (·.withExt (some (blankRegs 16)))

/-- A state in which a tray's block is back in the pool (R51). -/
def State.withoutExt (s : State) (id : Nat) : State := s.modHeld id (·.withExt none)

theorem State.stands_givenExt (s : State) (id : Nat) (us : List Nat) : (s.givenExt id us).stands = s.stands :=
  (State.stands_modHeld _ id (·.withExt (some (blankRegs 16))) (fun _ => rfl) fun _ => rfl).trans
    (s.stands_modHeld id (·.spilling us) (fun _ => rfl) fun _ => rfl)

theorem State.stands_withoutExt (s : State) (id : Nat) : (s.withoutExt id).stands = s.stands :=
  s.stands_modHeld id (·.withExt none) (fun _ => rfl) fun _ => rfl

section
variable {s u : State} {c : Ctx} (h : Issues s Pfx.empty 4 {} c u)
include h

theorem exec_xacq_holding (he : c.tray.ext.isSome = true) : exec .xacq s = .next (u.retire c) :=
  congrArg Host.Outcome.next ((h.run _).trans (if_pos he))

theorem exec_xacq_fits {us : List Nat} (he : c.tray.ext = none) (hroom : u.room c c.tray 16 1 = .fits us) :
    exec .xacq s = .next ((u.givenExt c.tray.id us).retire c) := by
  change execXacq s = _
  unfold execXacq
  rw [h.run]
  simp only [he, Option.isSome_none, Bool.false_eq_true, if_false, State.take, hroom]
  rfl

theorem exec_xrel_without (he : c.tray.ext = none) : exec .xrel s = .next (u.retire c) := by
  change execXrel s = _
  unfold execXrel
  rw [h.run]
  simp only [he]

theorem exec_xrel_full {e : Slots (Vector Reg 16)} (he : c.tray.ext = some e)
    (hfull : ∀ (t : Fin 32) (n : Nat) (hn : n < 16), (e[t][n]'hn).full = true) (hp : ∀ q ∈ c.tray.pending, q.1 + q.2 ≤ 48) :
    exec .xrel s = .next (((u.withoutExt c.tray.id).retire c).poolFreed c.tray.bench c.tray.lane c.tray.landed.isSome) := by
  have hregs : (slotList.all fun t => e[t].toList.all (·.full)) = true := by
    refine List.all_eq_true.2 fun t _ => List.all_eq_true.2 fun x hx => ?_
    obtain ⟨n, hn, rfl⟩ := Vector.mem_iff_getElem.1 (Vector.mem_toList_iff.1 hx)
    exact hfull t n hn
  have hmarks : (c.tray.pending.all fun q => q.1 + q.2 ≤ 48) = true := List.all_eq_true.2 fun q hq => decide_eq_true (hp q hq)
  change execXrel s = _
  unfold execXrel
  rw [h.run]
  simp only [he, hregs, hmarks, Bool.and_self, if_true]
  rfl

variable (hf : c.front = false)
include hf

theorem Issues.tray_spill (us : List Nat) :
    ∃ tr, (u.spill c.tray.id us).tray? c.tray.id = some tr ∧ tr.ext = c.tray.ext :=
  ⟨_, State.tray?_modHeld (h.tray hf) (·.spilling us) fun _ => rfl, rfl⟩

/-- A block of zeros that comes, and frames that go to memory for it, leave every register as it reads. -/
theorem Issues.acts_givenExt (us : List Nat) (he : c.tray.ext = none) :
    Acts u ((u.givenExt c.tray.id us).retire c) (u.givenExt c.tray.id us) c [] c.past := by
  obtain ⟨tr, htr, hext⟩ := h.tray_spill hf us
  refine h.acts_retire_of_same (fun o r => ?_) (u.stands_givenExt _ us)
  calc (u.givenExt c.tray.id us).held o r
      = (u.spill c.tray.id us).held o r :=
        State.held_modHeld_kept htr (·.withExt (some (blankRegs 16))) (fun _ => rfl) o r fun _ =>
          Tray.withExt_blank_reg (hext.trans he) r
    _ = u.held o r := ((restacks_spilling us).sameFiles_modHeld u c.tray.id).held o r

/-- Once XACQ has retired, the tray has its block. -/
theorem Issues.tray_givenExt (us : List Nat) :
    ∃ tr, ((u.givenExt c.tray.id us).retire c).tray? c.tray.id = some tr ∧ tr.ext = some (blankRegs 16) := by
  obtain ⟨tr, htr, -⟩ := h.tray_spill hf us
  have hgiven := State.tray?_modHeld htr (·.withExt (some (blankRegs 16))) fun _ => rfl
  exact Option.map_eq_some_iff.1 (((u.givenExt c.tray.id us).ext_retire c c.tray.id).trans (congrArg (Option.map Tray.ext) hgiven))

/-- A block that goes takes no other register with it. -/
theorem Issues.held_withoutExt (o : Owner) (r : RegName) (hr : ∀ t n, ¬(o = .tray c.tray.id ∧ r = .ext t n)) :
    (u.withoutExt c.tray.id).held o r = u.held o r :=
  State.held_modHeld_kept (h.tray hf) (·.withExt none) (fun _ => rfl) o r fun ho => Tray.withExt_reg_other _ _ _ fun t n e => hr t n ⟨ho, e⟩

end

end Sys2Proof.Machine

namespace Sys2Proof.Proofs

open Sys2Proof.Machine

/-- Settles O15: XACQ and XREL each come down to one state that retires; XREL then has the pool's waits looked at. -/
theorem extendedBlockComesAndGoes : Obligations.ExtendedBlockComesAndGoes := by
  unfold Obligations.ExtendedBlockComesAndGoes
  intro s s' c h hf
  refine ⟨fun he => ⟨_, exec_xacq_holding h he, h.acts_retire rfl rfl⟩,
    fun us he hroom => ⟨_, exec_xacq_fits h he hroom, h.acts_givenExt hf us he, h.tray_givenExt hf us⟩,
    fun he => ⟨_, exec_xrel_without h he, h.acts_retire rfl rfl⟩,
    fun e he hfull hp => ⟨_, exec_xrel_full h he hfull hp, ?rest, ?flow, fun o r hr => ?held, fun hwaits => ?looks⟩⟩
  case rest =>
    obtain ⟨a, ha⟩ := ((s'.withoutExt c.tray.id).retire c).poolFreed_agenda c.tray.bench c.tray.lane c.tray.landed.isSome
    rw [ha]
    exact congrArg (fun x : State => { x with agenda := s'.agenda }) ((s'.withoutExt c.tray.id).retire_still c)
  case flow =>
    exact (State.retire_moved (s'.stands_withoutExt _) h.entry).congr
      (State.stands_congr (State.poolFreed_trays ..) (State.poolFreed_teams ..))
  case held =>
    rw [State.held_congr (State.poolFreed_trays ..) (State.poolFreed_teams ..), State.held_retire]
    exact h.held_withoutExt hf o r hr
  case looks =>
    rw [State.poolFreed_trays] at hwaits
    obtain ⟨x, hx⟩ := State.poolFreed_looks hwaits
    exact ⟨x, hx.trans (congrArg _ ((s'.withoutExt c.tray.id).retire_agenda c))⟩

end Sys2Proof.Proofs

/-!
SUPPORT. Decoding and encoding (R68 to R81): which fields a format reads, what a word and a halfword decode to, and a group's words
one after another.
-/

namespace Sys2Proof

@[simp] theorem fieldOf_or {n : Nat} (x y : BitVec n) (lo len : Nat) : fieldOf (x ||| y) lo len = fieldOf x lo len ||| fieldOf y lo len :=
  BitVec.extractLsb'_or

theorem fieldOf_fieldOf {n lo len lo' len' : Nat} (w : BitVec n) (h : lo' + len' ≤ len) :
    fieldOf (fieldOf w lo len) lo' len' = fieldOf w (lo + lo') len' := by
  refine BitVec.eq_of_getLsbD_eq fun i hi => ?_
  have : lo' + i < len := by omega
  simp [fieldOf, this, Nat.add_assoc]

theorem fieldOf_of_low {n m lo len : Nat} {w : BitVec n} {x : BitVec m} (h : fieldOf w 0 m = x) (hl : lo + len ≤ m) :
    fieldOf w lo len = fieldOf x lo len := by
  rw [← h, fieldOf_fieldOf w hl, Nat.zero_add]

theorem getLsbD_of_fieldOf {n lo : Nat} {w : BitVec n} (h : fieldOf w lo 1 = 1#1) : w.getLsbD lo = true := by
  have := congrArg (·.getLsbD 0) h
  simpa [fieldOf] using this

/-- A field is read back from where it was put. -/
theorem fieldOf_shiftLeft {n N : Nat} (x : BitVec n) {lo : Nat} (h : lo + n ≤ N) : fieldOf (x.setWidth N <<< lo) lo n = x := by
  refine BitVec.eq_of_getLsbD_eq fun i hi => ?_
  have h1 : lo + i < N := by omega
  simp [fieldOf, hi, h1]

/-- A field put elsewhere leaves a place empty. -/
theorem fieldOf_shiftLeft_apart {n N : Nat} (x : BitVec n) {lo lo' len : Nat} (h : lo' + len ≤ lo ∨ lo + n ≤ lo') :
    fieldOf (x.setWidth N <<< lo) lo' len = 0#len := by
  refine BitVec.eq_of_getLsbD_eq fun i hi => ?_
  obtain h | h := h
  · have : lo' + i < lo := by omega
    simp [fieldOf, this]
  · have : x.getLsbD (lo' + i - lo) = false := BitVec.getLsbD_of_ge _ _ (by omega)
    simp [fieldOf, this]

@[simp] theorem fieldOf_putField {n lo : Nat} (x : BitVec n) (h : lo + n ≤ 32) : fieldOf (putField x lo) lo n = x :=
  fieldOf_shiftLeft x h

@[simp] theorem fieldOf_putField_apart {n lo lo' len : Nat} (x : BitVec n) (h : lo' + len ≤ lo ∨ lo + n ≤ lo') :
    fieldOf (putField x lo) lo' len = 0#len := fieldOf_shiftLeft_apart x h

theorem getElem_eq_fieldOf {w : BitVec 32} {i : Nat} (hi : i < 32) : w[i] = (fieldOf w i 1)[0] := by simp [fieldOf, hi]

@[simp] theorem getElem_putField_apart {n lo i : Nat} (x : BitVec n) (hi : i < 32) (h : i < lo ∨ lo + n ≤ i) : (putField x lo)[i] = false := by
  simp [getElem_eq_fieldOf hi, fieldOf_putField_apart x (by omega : i + 1 ≤ lo ∨ lo + n ≤ i)]

@[simp] theorem getElem_putBit (b : Bool) {lo : Nat} (h : lo < 32) : (putBit b lo)[lo] = b := by
  simp [getElem_eq_fieldOf h, putBit, fieldOf_putField _ (by omega : lo + 1 ≤ 32)]

@[simp] theorem getElem_putBit_apart {lo i : Nat} (b : Bool) (hi : i < 32) (h : i < lo ∨ lo < i) : (putBit b lo)[i] = false :=
  getElem_putField_apart _ hi h

@[simp] theorem fieldOf_putBit_apart {lo lo' len : Nat} (b : Bool) (h : lo' + len ≤ lo ∨ lo < lo') : fieldOf (putBit b lo) lo' len = 0#len :=
  fieldOf_putField_apart _ h

/-- A word whose bits lie in the opcode bits 8:0 of a format (R69). -/
def Opcode (w : BitVec 32) : Prop := w.toNat < 2 ^ 9

theorem Opcode.getElem {w : BitVec 32} (h : Opcode w) {i : Nat} (h9 : 9 ≤ i) (hi : i < 32) : w[i] = false := by
  exact Nat.testBit_lt_two_pow (h.trans_le (Nat.pow_le_pow_right (by decide) h9))

theorem Opcode.fieldOf {w : BitVec 32} (h : Opcode w) {lo len : Nat} (h9 : 9 ≤ lo) : fieldOf w lo len = 0#len := by
  refine BitVec.eq_of_getLsbD_eq fun i hi => ?_
  have := Nat.testBit_lt_two_pow (h.trans_le (Nat.pow_le_pow_right (by decide) (by omega : 9 ≤ lo + i)))
  rw [Sys2Proof.fieldOf, BitVec.getLsbD_extractLsb', BitVec.getLsbD, this]
  simp

/-- Fields at fixed places above the opcode bits, as the encoder puts and the decoder reads them (R69 to R71). -/
structure Layout {α : Type} (read : BitVec 32 → α) (bits : α → BitVec 32) : Prop where
  below : ∀ f lo len, lo + len ≤ 9 → fieldOf (bits f) lo len = 0#len
  back : ∀ base f, Opcode base → read (base ||| bits f) = f

theorem F3.layout : Layout F3.read F3.bits where
  below f lo len h := by simp (disch := omega) [F3.bits]
  back base f h := by simp (disch := omega) [F3.read, F3.bits, h.fieldOf, h.getElem]

theorem F3A.layout : Layout F3A.read F3A.bits where
  below f lo len h := by simp (disch := omega) [F3A.bits]
  back base f h := by simp (disch := omega) [F3A.read, F3A.bits, h.fieldOf, h.getElem]

theorem FCmp.layout : Layout FCmp.read FCmp.bits where
  below f lo len h := by simp (disch := omega) [FCmp.bits]
  back base f h := by simp (disch := omega) [FCmp.read, FCmp.bits, h.fieldOf, h.getElem]

theorem FPP.layout : Layout FPP.read FPP.bits where
  below f lo len h := by simp (disch := omega) [FPP.bits]
  back base f h := by simp (disch := omega) [FPP.read, FPP.bits, h.fieldOf]

theorem FPA.layout : Layout FPA.read FPA.bits where
  below f lo len h := by simp (disch := omega) [FPA.bits]
  back base f h := by simp (disch := omega) [FPA.read, FPA.bits, h.fieldOf]

theorem FPF.layout : Layout FPF.read FPF.bits where
  below f lo len h := by simp (disch := omega) [FPF.bits]
  back base f h := by simp (disch := omega) [FPF.read, FPF.bits, h.fieldOf, h.getElem]

theorem FDP.layout : Layout FDP.read FDP.bits where
  below f lo len h := by simp (disch := omega) [FDP.bits]
  back base f h := by simp (disch := omega) [FDP.read, FDP.bits, h.fieldOf]

theorem FMovi.layout : Layout FMovi.read FMovi.bits where
  below f lo len h := by simp (disch := omega) [FMovi.bits]
  back base f h := by simp (disch := omega) [FMovi.read, FMovi.bits, h.fieldOf]

theorem FI.layout : Layout FI.read FI.bits where
  below f lo len h := by simp (disch := omega) [FI.bits]
  back base f h := by simp (disch := omega) [FI.read, FI.bits, h.fieldOf, h.getElem]

theorem FQ.layout : Layout FQ.read FQ.bits where
  below f lo len h := by simp (disch := omega) [FQ.bits]
  back base f h := by simp (disch := omega) [FQ.read, FQ.bits, h.fieldOf]

theorem FLd.layout : Layout FLd.read FLd.bits where
  below f lo len h := by simp (disch := omega) [FLd.bits]
  back base f h := by simp (disch := omega) [FLd.read, FLd.bits, h.fieldOf, h.getElem]

theorem FSt.layout : Layout FSt.read FSt.bits where
  below f lo len h := by simp (disch := omega) [FSt.bits]
  back base f h := by simp (disch := omega) [FSt.read, FSt.bits, h.fieldOf, h.getElem]

theorem FAB.layout : Layout FAB.read FAB.bits where
  below f lo len h := by simp (disch := omega) [FAB.bits]
  back base f h := by simp (disch := omega) [FAB.read, FAB.bits, h.fieldOf, h.getElem]

theorem FA.layout : Layout FA.read FA.bits where
  below f lo len h := by simp (disch := omega) [FA.bits]
  back base f h := by simp (disch := omega) [FA.read, FA.bits, h.fieldOf, h.getElem]

theorem FTag.layout : Layout FTag.read FTag.bits where
  below f lo len h := by simp (disch := omega) [FTag.bits]
  back base f h := by simp (disch := omega) [FTag.read, FTag.bits, h.fieldOf]

theorem FDB.layout : Layout FDB.read FDB.bits where
  below f lo len h := by simp (disch := omega) [FDB.bits]
  back base f h := by simp (disch := omega) [FDB.read, FDB.bits, h.fieldOf, h.getElem]

theorem FPop.layout : Layout FPop.read FPop.bits where
  below f lo len h := by simp (disch := omega) [FPop.bits]
  back base f h := by simp (disch := omega) [FPop.read, FPop.bits, h.fieldOf]

theorem FNA.layout : Layout FNA.read FNA.bits where
  below f lo len h := by simp (disch := omega) [FNA.bits]
  back base f h := by simp (disch := omega) [FNA.read, FNA.bits, h.fieldOf, h.getElem]

theorem FIxs.layout : Layout FIxs.read FIxs.bits where
  below f lo len h := by simp (disch := omega) [FIxs.bits]
  back base f h := by simp (disch := omega) [FIxs.read, FIxs.bits, h.fieldOf, h.getElem]

theorem FIxg.layout : Layout FIxg.read FIxg.bits where
  below f lo len h := by simp (disch := omega) [FIxg.bits]
  back base f h := by simp (disch := omega) [FIxg.read, FIxg.bits, h.fieldOf]

theorem FIxm.layout : Layout FIxm.read FIxm.bits where
  below f lo len h := by simp (disch := omega) [FIxm.bits]
  back base f h := by simp (disch := omega) [FIxm.read, FIxm.bits, h.fieldOf, h.getElem]

theorem FSr.layout : Layout FSr.read FSr.bits where
  below f lo len h := by simp (disch := omega) [FSr.bits]
  back base f h := by simp (disch := omega) [FSr.read, FSr.bits, h.fieldOf]

theorem FBra.layout : Layout FBra.read FBra.bits where
  below f lo len h := by simp (disch := omega) [FBra.bits]
  back base f h := by simp (disch := omega) [FBra.read, FBra.bits, h.fieldOf]

theorem FBrp.layout : Layout FBrp.read FBrp.bits where
  below f lo len h := by simp (disch := omega) [FBrp.bits]
  back base f h := by simp (disch := omega) [FBrp.read, FBrp.bits, h.fieldOf]

theorem FCall.layout : Layout FCall.read FCall.bits where
  below f lo len h := by simp (disch := omega) [FCall.bits]
  back base f h := by simp (disch := omega) [FCall.read, FCall.bits, h.fieldOf]

theorem FJmp.layout : Layout FJmp.read FJmp.bits where
  below f lo len h := by simp (disch := omega) [FJmp.bits]
  back base f h := by simp (disch := omega) [FJmp.read, FJmp.bits, h.fieldOf, h.getElem]

theorem FLoop.layout : Layout FLoop.read FLoop.bits where
  below f lo len h := by simp (disch := omega) [FLoop.bits]
  back base f h := by simp (disch := omega) [FLoop.read, FLoop.bits, h.fieldOf, h.getElem]

theorem FD.layout : Layout FD.read FD.bits where
  below f lo len h := by simp (disch := omega) [FD.bits]
  back base f h := by simp (disch := omega) [FD.read, FD.bits, h.fieldOf]

theorem FMeet.layout : Layout FMeet.read FMeet.bits where
  below f lo len h := by simp (disch := omega) [FMeet.bits]
  back base f h := by simp (disch := omega) [FMeet.read, FMeet.bits, h.fieldOf]

/-! Words of 32 bits (R69 to R71, R81). -/

/-- The operation of a word of a major and funct (R81). -/
def decodeSlot (major funct : Nat) (p : Pfx) (w : BitVec 32) : Option Instr :=
  match major with
  | 0 => decodeMajor0 p funct w
  | 1 => decodeMajor1 p funct w
  | 2 => decodeMajor2 p funct w
  | 3 => decodeMajor3 p funct w
  | 4 => decodeMajor4 p funct w
  | 5 => decodeMajor5 p funct w
  | 6 => decodeMajor6 p funct w
  | 7 => decodeMajor7 p funct w
  | 8 => decodeMajor8 p funct w
  | 9 => decodeMajor9 p funct w
  | 10 => decodeMajor10 p funct w
  | 11 => decodeMajor11 p funct w
  | 12 => decodeMajor12 p funct w
  | 13 => decodeMajor13 p funct w
  | 14 => decodeMajor14 p funct w
  | 15 => decodeMajor15 p funct w
  | 16 => decodeMajor16 p funct w
  | 17 => decodeMajor17 p funct w
  | 18 => decodeMajor18 p funct w
  | 19 => decodeMajor19 p funct w
  | 20 => decodeMajor20 p funct w
  | 21 => decodeMajor21 p funct w
  | 22 => decodeMajor22 p funct w
  | 23 => decodeMajor23 p funct w
  | 24 => decodeMajor24 p funct w
  | 25 => decodeMajor25 p funct w
  | 26 => decodeMajor26 p funct w
  | 27 => decodeMajor27 p funct w
  | 28 => decodeMajor28 p funct w
  | 29 => decodeMajor29 p funct w
  | 30 => decodeMajor30 p funct w
  | _ => none

theorem decodeFields_eq (p : Pfx) (w : BitVec 32) :
    decodeFields p w = decodeSlot (fieldOf w 1 5).toNat (fieldOf w 6 3).toNat p w := rfl

theorem wordBase_opcode : ∀ m < 32, ∀ k < 8, Opcode (wordBase m k) ∧ fieldOf (wordBase m k) 0 1 = 1#1 ∧
    fieldOf (wordBase m k) 1 5 = BitVec.ofNat 5 m ∧ fieldOf (wordBase m k) 6 3 = BitVec.ofNat 3 k := by
  unfold Opcode
  decide

/-- A word of 32 bits that stands for an operation under some prefixes. -/
structure Reads (p : Pfx) (w : BitVec 32) (i : Instr) : Prop where
  isWord : w.getLsbD 0 = true
  fields : decodeFields p w = some i

/-- The fields of a slot of the opcode map that has a layout. -/
theorem Layout.reads {α : Type} {read : BitVec 32 → α} {bits : α → BitVec 32} (l : Layout read bits) {m k : Nat} (p : Pfx) (f : α)
    {mk : α → Instr} (h : ∀ w, decodeSlot m k p w = some (mk (read w))) (hm : m < 32 := by decide) (hk : k < 8 := by decide) :
    Reads p (wordBase m k ||| bits f) (mk f) := by
  obtain ⟨hb, h0, hmaj, hfun⟩ := wordBase_opcode m hm k hk
  have hlow : ∀ lo len, lo + len ≤ 9 → fieldOf (wordBase m k ||| bits f) lo len = fieldOf (wordBase m k) lo len := fun lo len h9 => by
    rw [fieldOf_or, l.below f lo len h9, BitVec.or_zero]
  constructor
  · exact getLsbD_of_fieldOf ((hlow 0 1 (by decide)).trans h0)
  · rw [decodeFields_eq, hlow 1 5 (by decide), hlow 6 3 (by decide), hmaj, hfun, BitVec.toNat_ofNat, BitVec.toNat_ofNat,
      Nat.mod_eq_of_lt hm, Nat.mod_eq_of_lt hk, h, l.back _ f hb]

/-- SEL's predicate number stands in the funct field (R111). -/
theorem FSel.read_bits (f : FSel) : FSel.read (wordBase 5 0 ||| f.bits) = f := by
  obtain ⟨hb, -, -, hn⟩ := wordBase_opcode 5 (by decide) 0 (by decide)
  simp (disch := omega) [FSel.read, FSel.bits, hb.fieldOf, hb.getElem, hn]

theorem reads_sel {p : Pfx} {f : FSel} (hn : f.n ≠ 0) : Reads p (wordBase 5 0 ||| f.bits) (.sel p f) := by
  obtain ⟨-, h0, h5, -⟩ := wordBase_opcode 5 (by decide) 0 (by decide)
  have hmaj : fieldOf (wordBase 5 0 ||| f.bits) 1 5 = 5#5 := by simp (disch := omega) [FSel.bits, h5]
  have hfun : fieldOf (wordBase 5 0 ||| f.bits) 6 3 = f.n := congrArg FSel.n f.read_bits
  have hn' : f.n.toNat ≠ 0 := fun h => hn (BitVec.eq_of_toNat_eq h)
  constructor
  · exact getLsbD_of_fieldOf (by simp (disch := omega) [FSel.bits, h0])
  · rw [decodeFields_eq, hmaj, hfun]
    change (if f.n.toNat = 0 then none else some (Instr.sel p (FSel.read _))) = _
    rw [if_neg hn', f.read_bits]

/-- A well-formed instruction of 32 bits is read from its own word. -/
theorem Instr.reads_main {i : Instr} {w : BitVec 32} (hi : i.wf = true) (h : i.main = .word w) : Reads i.pfx w i := by
  cases i with
  | add p f | sub p f | mul p f | mulh p f | mulhu p f | min p f | max p f | minu p f | maxu p f | div p f | divu p f | rem p f
    | remu p f | and p f | or p f | xor p f | andn p f | shl p f | shr p f | sra p f | rol p f | ror p f | fadd p f | fsub p f
    | fmul p f | fdiv p f | fmin p f | fmax p f | fscale p f | fma p f | fms p f | fnma p f | phadd p f | phmul p f | phfma p f
    | phmax p f | pbadd p f | pbfma p f | f64add p f | f64sub p f | f64mul p f | f64fma p f | f64div p f | idot4 p f | idot8 p f
    | bperm p f | xpick p f | xpickx p f | atadd p f | atmin p f | atmax p f | atand p f | atxchg p f | atcas p f | atfadd p f
    | bind p f | waitne p f | cpy p f | cpyt p f | gath p f | mwld p f | mstr p f | scpy p f | board p f | catch_ p f | rplc p f
    | kvmap p f | kvld p f | kvst p f | osmxf p f | verify p f | sample p f | launchs p f =>
    cases h
    exact F3.layout.reads _ f fun _ => rfl
  | bcnt p f | clz p f | ctz p f | bitrev p f | fsqrt p f | frcpa p f | frsqa p f | fclass p f | fexp2 p f | flog2 p f
    | fsin p f | fcos p f | ftanh p f | fsigm p f | cvtfi p f | cvtif p f | cvtfh p f | cvthf p f | cvtfb p f | cvtfd p f
    | cvtdf p f | sext8 p f | sext16 p f | traysum p f | ldres p f | tsalloc p f | publish p f | homeq p f | osmx p f
    | launch p f | verq p f =>
    cases h
    exact F3A.layout.reads _ f fun _ => rfl
  | cmpeq p f | cmpne p f | cmplt p f | cmple p f | cmpltu p f | cmpleu p f | fcmpeq p f | fcmpne p f | fcmplt p f | fcmple p f
    | fcmpun p f | stcnd p f =>
    cases h
    exact FCmp.layout.reads _ f fun _ => rfl
  | sel p f =>
    cases h
    simp only [Instr.wf, Instr.legal, Bool.or_eq_true, Bool.and_eq_true, bne_iff_ne] at hi
    exact reads_sel (hi.elim (·.2) (·.2))
  | pand p f | por p f | pxor p f => cases h; exact FPP.layout.reads _ f fun _ => rfl
  | pnot p f | pall p f | pany p f => cases h; exact FPA.layout.reads _ f fun _ => rfl
  | pfrom p f | ftstnf p f => cases h; exact FPF.layout.reads _ f fun _ => rfl
  | pto p f | pmask p f => cases h; exact FDP.layout.reads _ f fun _ => rfl
  | movi p f => cases h; exact FMovi.layout.reads _ f fun _ => rfl
  | addi p f | shli p f | shri p f | andi p f | ori p f | xori p f => cases h; exact FI.layout.reads _ f fun _ => rfl
  | pke4 p f | pke5 p f | unpe4 p f | unpe5 p f | unpi8 p f | unpi4 p f | pki8 p f | pki4 p f =>
    cases h
    exact FQ.layout.reads _ f fun _ => rfl
  | ld8 p f | ld8s p f | ld16 p f | ld32 p f | ld64 p f | ld128 p f | lds p f => cases h; exact FLd.layout.reads _ f fun _ => rfl
  | st8 p f | st16 p f | st32 p f | st64 p f | st128 p f | sts p f | stnt p f => cases h; exact FSt.layout.reads _ f fun _ => rfl
  | acq p f => cases h; exact FAB.layout.reads _ f fun _ => rfl
  | rel p f | unbind p f | tsfree p f | alight p f | resolve p f | squash p f | postres p f | setpri p f | waitt p f =>
    cases h
    exact FA.layout.reads _ f fun _ => rfl
  | fence p | exit p | trap p | brk p => cases h; exact ⟨rfl, rfl⟩
  | ctag p f => cases h; exact FTag.layout.reads _ f fun _ => rfl
  | mloop p f => cases h; exact FDB.layout.reads _ f fun _ => rfl
  | accpop p f => cases h; exact FPop.layout.reads _ f fun _ => rfl
  | accclr p f | mshape p f => cases h; exact FNA.layout.reads _ f fun _ => rfl
  | migrate f | dqpush f => cases h; exact FA.layout.reads _ f fun _ => rfl
  | xacq | xrel | ret | meet | land | eret | nop | kill => cases h; exact ⟨rfl, rfl⟩
  | ixset p f => cases h; exact FIxs.layout.reads _ f fun _ => rfl
  | ixget f => cases h; exact FIxg.layout.reads _ f fun _ => rfl
  | ixmov f => cases h; exact FIxm.layout.reads _ f fun _ => rfl
  | movsr f => cases h; exact FSr.layout.reads _ f fun _ => rfl
  | bra f => cases h; exact FBra.layout.reads _ f fun _ => rfl
  | brp f | brnp f => cases h; exact FBrp.layout.reads _ f fun _ => rfl
  | brsp p f => cases h; exact FBrp.layout.reads _ f fun _ => rfl
  | call f => cases h; exact FCall.layout.reads _ f fun _ => rfl
  | jmpi f => cases h; exact FJmp.layout.reads _ f fun _ => rfl
  | loop p f => cases h; exact FLoop.layout.reads _ f fun _ => rfl
  | dqpop f => cases h; exact FD.layout.reads _ f fun _ => rfl
  | meetl f => cases h; exact FMeet.layout.reads _ f fun _ => rfl
  | _ => cases h

/-- Major 31 is the prefixes' (R74, R81). -/
theorem Reads.not_prefix {p : Pfx} {w : BitVec 32} {i : Instr} (h : Reads p w i) : fieldOf w 0 6 ≠ 0x3F#6 := by
  intro hw
  have hmaj : fieldOf w 1 5 = 31#5 := fieldOf_of_low hw (by decide)
  have := h.fields
  rw [decodeFields_eq, hmaj] at this
  cases this

theorem Reads.decodeWord {i : Instr} {w : BitVec 32} (h : Reads i.pfx w i) (hm : i.main = .word w) : decodeWord i.pfx w = .ok i := by
  simp [Sys2Proof.decodeWord, h.fields, hm]

/-! Compact halfwords (R72). -/

/-- The operation of a compact halfword of an op (R72). -/
def decodeCompact (op : Nat) (h : BitVec 16) : Instr :=
  match op with
  | 0 => .mov (CReg.read h)
  | 1 => .addC (CReg.read h)
  | 2 => .subC (CReg.read h)
  | 3 => .andC (CReg.read h)
  | 4 => .orC (CReg.read h)
  | 5 => .xorC (CReg.read h)
  | 6 => .shliC (CImm.read h)
  | 7 => .shriC (CImm.read h)
  | 8 => .addiC (CImm.read h)
  | 9 => .moviC (CImm.read h)
  | 10 => .faddC (CReg.read h)
  | 11 => .fsubC (CReg.read h)
  | 12 => .fmulC (CReg.read h)
  | 13 => .fmaxC (CReg.read h)
  | 14 => .ld32C (CReg.read h)
  | _ => .st32C (CReg.read h)

theorem decodeHalf_eq (h : BitVec 16) : decodeHalf h = decodeCompact (fieldOf h 1 4).toNat h := rfl

/-- The op of a compact form at its place, bits 4:1. -/
theorem compactOp_eq (k : BitVec 4) : BitVec.ofNat 16 (k.toNat * 2) = k.setWidth 16 <<< 1 := by
  revert k
  decide

theorem CReg.op_bits (k : BitVec 4) (f : CReg) :
    fieldOf (f.bits k.toNat) 1 4 = k ∧ CReg.read (f.bits k.toNat) = f ∧ (f.bits k.toNat).getLsbD 0 = false := by
  simp [CReg.read, CReg.bits, compactOp_eq, fieldOf_shiftLeft, fieldOf_shiftLeft_apart]

theorem CImm.op_bits (k : BitVec 4) (f : CImm) :
    fieldOf (f.bits k.toNat) 1 4 = k ∧ CImm.read (f.bits k.toNat) = f ∧ (f.bits k.toNat).getLsbD 0 = false := by
  simp [CImm.read, CImm.bits, compactOp_eq, fieldOf_shiftLeft, fieldOf_shiftLeft_apart]

/-- A halfword with bit 0 clear is its op, at bits 4:1, and its fields above them. -/
theorem CReg.bits_read {h : BitVec 16} (h0 : h[0] = false) : (CReg.read h).bits (fieldOf h 1 4).toNat = h := by
  refine BitVec.eq_of_getLsbD_eq fun i hi => ?_
  simp only [CReg.read, CReg.bits, compactOp_eq]
  interval_cases i <;> simp [fieldOf, h0]

theorem CImm.bits_read {h : BitVec 16} (h0 : h[0] = false) : (CImm.read h).bits (fieldOf h 1 4).toNat = h := by
  refine BitVec.eq_of_getLsbD_eq fun i hi => ?_
  simp only [CImm.read, CImm.bits, compactOp_eq]
  interval_cases i <;> simp [fieldOf, h0]

theorem decodeHalf_reg (k : BitVec 4) (f : CReg) {mk : CReg → Instr} (hk : ∀ h, decodeCompact k.toNat h = mk (CReg.read h)) :
    (f.bits k.toNat).getLsbD 0 = false ∧ decodeHalf (f.bits k.toNat) = mk f := by
  obtain ⟨hop, hf, h0⟩ := f.op_bits k
  exact ⟨h0, by rw [decodeHalf_eq, hop, hk, hf]⟩

theorem decodeHalf_imm (k : BitVec 4) (f : CImm) {mk : CImm → Instr} (hk : ∀ h, decodeCompact k.toNat h = mk (CImm.read h)) :
    (f.bits k.toNat).getLsbD 0 = false ∧ decodeHalf (f.bits k.toNat) = mk f := by
  obtain ⟨hop, hf, h0⟩ := f.op_bits k
  exact ⟨h0, by rw [decodeHalf_eq, hop, hk, hf]⟩

/-- A compact form decodes from its own halfword. -/
theorem decodeHalf_main {i : Instr} {h : BitVec 16} (hm : i.main = .half h) : h.getLsbD 0 = false ∧ decodeHalf h = i := by
  cases i with
  | mov f => cases hm; exact decodeHalf_reg 0 f fun _ => rfl
  | addC f => cases hm; exact decodeHalf_reg 1 f fun _ => rfl
  | subC f => cases hm; exact decodeHalf_reg 2 f fun _ => rfl
  | andC f => cases hm; exact decodeHalf_reg 3 f fun _ => rfl
  | orC f => cases hm; exact decodeHalf_reg 4 f fun _ => rfl
  | xorC f => cases hm; exact decodeHalf_reg 5 f fun _ => rfl
  | shliC f => cases hm; exact decodeHalf_imm 6 f fun _ => rfl
  | shriC f => cases hm; exact decodeHalf_imm 7 f fun _ => rfl
  | addiC f => cases hm; exact decodeHalf_imm 8 f fun _ => rfl
  | moviC f => cases hm; exact decodeHalf_imm 9 f fun _ => rfl
  | faddC f => cases hm; exact decodeHalf_reg 10 f fun _ => rfl
  | fsubC f => cases hm; exact decodeHalf_reg 11 f fun _ => rfl
  | fmulC f => cases hm; exact decodeHalf_reg 12 f fun _ => rfl
  | fmaxC f => cases hm; exact decodeHalf_reg 13 f fun _ => rfl
  | ld32C f => cases hm; exact decodeHalf_reg 14 f fun _ => rfl
  | st32C f => cases hm; exact decodeHalf_reg 15 f fun _ => rfl
  | _ => cases hm

/-- What a compact halfword decodes to is a compact form with that halfword, which bears no prefixes (R72, R79). -/
theorem main_decodeHalf {h : BitVec 16} (h0 : h[0] = false) : (decodeHalf h).main = .half h ∧ (decodeHalf h).pfx = Pfx.empty := by
  have hreg := congrArg MainWord.half (CReg.bits_read h0)
  have himm := congrArg MainWord.half (CImm.bits_read h0)
  have hop := (fieldOf h 1 4).isLt
  rw [decodeHalf_eq]
  revert hreg himm hop
  generalize (fieldOf h 1 4).toNat = k
  intro hreg himm hop
  match k with
  | 0 | 1 | 2 | 3 | 4 | 5 | 10 | 11 | 12 | 13 | 14 | 15 => exact ⟨hreg, rfl⟩
  | 6 | 7 | 8 | 9 => exact ⟨himm, rfl⟩
  | k + 16 => omega

/-! Bytes and words, low byte first (R68). -/

theorem halfOf_halfBytes (h : BitVec 16) : halfOf (fieldOf h 0 8) (fieldOf h 8 8) = h := by
  unfold halfOf fieldOf
  rw [BitVec.extractLsb'_append_extractLsb'_eq_extractLsb' (by decide)]
  simp

theorem wordOf_wordBytes (w : BitVec 32) : wordOf (fieldOf w 0 8) (fieldOf w 8 8) (fieldOf w 16 8) (fieldOf w 24 8) = w := by
  unfold wordOf halfOf fieldOf
  rw [BitVec.extractLsb'_append_extractLsb'_eq_extractLsb' (by decide), BitVec.extractLsb'_append_extractLsb'_eq_extractLsb' (by decide),
    BitVec.extractLsb'_append_extractLsb'_eq_extractLsb' (by decide)]
  simp

@[simp] theorem fieldOf_halfOf (b0 b1 : Byte) : fieldOf (halfOf b0 b1) 0 8 = b0 ∧ fieldOf (halfOf b0 b1) 8 8 = b1 :=
  ⟨BitVec.extractLsb'_append_eq_right, BitVec.extractLsb'_append_eq_left⟩

theorem fieldOf_wordOf_low (b0 b1 b2 b3 : Byte) {lo : Nat} (h : lo + 8 ≤ 16) :
    fieldOf (wordOf b0 b1 b2 b3) lo 8 = fieldOf (halfOf b0 b1) lo 8 := BitVec.extractLsb'_append_eq_of_add_le h

theorem fieldOf_wordOf_high (b0 b1 b2 b3 : Byte) {lo : Nat} (h : 16 ≤ lo) :
    fieldOf (wordOf b0 b1 b2 b3) lo 8 = fieldOf (halfOf b2 b3) (lo - 16) 8 := BitVec.extractLsb'_append_eq_of_le h

theorem halfBytes_halfOf (b0 b1 : Byte) : halfBytes (halfOf b0 b1) = [b0, b1] := by simp [halfBytes]

theorem wordBytes_wordOf (b0 b1 b2 b3 : Byte) : wordBytes (wordOf b0 b1 b2 b3) = [b0, b1, b2, b3] := by
  simp [wordBytes, fieldOf_wordOf_low, fieldOf_wordOf_high]

/-! The words of a group, one after another (R68, R74, R79). -/

theorem getLsbD_lowByte {n : Nat} (w : BitVec n) : (fieldOf w 0 8).getLsbD 0 = w.getLsbD 0 := by simp [fieldOf]

theorem getLsbD_of_prefix {w : BitVec 32} (h : fieldOf w 0 6 = 0x3F#6) : w.getLsbD 0 = true :=
  getLsbD_of_fieldOf (fieldOf_of_low h (by decide))

theorem decodeFrom_prefix {n : Nat} {p q : Pfx} {w : BitVec 32} (rest : List Byte) (hw : fieldOf w 0 6 = 0x3F#6) (hq : p.add w = .ok q) :
    decodeFrom (n + 1) p (wordBytes w ++ rest) = decodeFrom n q rest := by
  simp [wordBytes, decodeFrom, getLsbD_lowByte, getLsbD_of_prefix hw, wordOf_wordBytes, hw, hq, -BitVec.getLsbD_eq_getElem]

theorem decodeFrom_word {n : Nat} {p : Pfx} {w : BitVec 32} {i : Instr} (rest : List Byte) (h0 : w.getLsbD 0 = true)
    (hw : fieldOf w 0 6 ≠ 0x3F#6) (hi : decodeWord p w = .ok i) :
    decodeFrom (n + 1) p (wordBytes w ++ rest) = .ok (i, rest) := by
  simp [wordBytes, decodeFrom, getLsbD_lowByte, h0, wordOf_wordBytes, hw, hi, -BitVec.getLsbD_eq_getElem]

theorem decodeFrom_half (n : Nat) {h : BitVec 16} (rest : List Byte) (h0 : h.getLsbD 0 = false) :
    decodeFrom (n + 1) Pfx.empty (halfBytes h ++ rest) = .ok (decodeHalf h, rest) := by
  simp [halfBytes, decodeFrom, getLsbD_lowByte, h0, halfOf_halfBytes, -BitVec.getLsbD_eq_getElem]

theorem fieldOf_setWidth {n N : Nat} (x : BitVec n) (h : n ≤ N) : fieldOf (x.setWidth N) 0 n = x := by
  simpa using fieldOf_shiftLeft (N := N) x (lo := 0) (by omega)

theorem fieldOf_setWidth_above {n N lo : Nat} (x : BitVec n) {len : Nat} (h : n ≤ lo) : fieldOf (x.setWidth N) lo len = 0#len := by
  simpa using fieldOf_shiftLeft_apart (N := N) x (lo := 0) (len := len) (by omega : lo + len ≤ 0 ∨ 0 + n ≤ lo)

/-! Prefix words (R74, R76, R78). -/

theorem fieldOf_prefixWord {k : Nat} (hk : k < 8) (x : BitVec 23) :
    fieldOf (prefixWord k x) 0 6 = 0x3F#6 ∧ fieldOf (prefixWord k x) 6 3 = BitVec.ofNat 3 k ∧ fieldOf (prefixWord k x) 9 23 = x := by
  have hhead : ∀ k < 8, fieldOf (0x3F#32 ||| BitVec.ofNat 32 (k * 64)) 0 6 = 0x3F#6 ∧
      fieldOf (0x3F#32 ||| BitVec.ofNat 32 (k * 64)) 6 3 = BitVec.ofNat 3 k ∧
      fieldOf (0x3F#32 ||| BitVec.ofNat 32 (k * 64)) 9 23 = 0#23 := by decide
  obtain ⟨h0, h6, h9⟩ := hhead k hk
  unfold prefixWord
  rw [fieldOf_or, fieldOf_or _ (putField x 9), fieldOf_or _ (putField x 9), h0, h6, h9]
  simp

theorem Guard.ofPayload_payload (g : Guard) : Guard.ofPayload g.payload = some g := by
  have h : ({ p := fieldOf g.payload 0 3, neg := g.payload.getLsbD 3, clear := g.payload.getLsbD 4 } : Guard) = g := by
    cases g
    simp [Guard.payload, fieldOf_setWidth, fieldOf_shiftLeft_apart]
  unfold Guard.ofPayload
  rw [h]
  simp

theorem Mod.ofPayload_payload (m : Mod) : Mod.ofPayload m.payload = some m := by
  have h : ({
      rnd := fieldOf m.payload 0 2, ftz := m.payload.getLsbD 2, sat := m.payload.getLsbD 3, sgnen := m.payload.getLsbD 4,
      sa := m.payload.getLsbD 5, sb := m.payload.getLsbD 6, scen := m.payload.getLsbD 7, scope := fieldOf m.payload 8 3,
      grp := fieldOf m.payload 11 2, fmt := fieldOf m.payload 13 4, emp := fieldOf m.payload 17 2 } : Mod) = m := by
    cases m
    simp [Mod.payload, fieldOf_setWidth, fieldOf_setWidth_above, fieldOf_shiftLeft_apart, fieldOf_shiftLeft]
  unfold Mod.ofPayload
  rw [h]
  simp

section
variable {p : Pfx}

theorem Pfx.add_imm (h : p.imm = none) (x : BitVec 23) : p.add (prefixWord 0 x) = .ok { p with imm := some x } := by
  obtain ⟨-, h6, h9⟩ := fieldOf_prefixWord (k := 0) (by decide) x
  simp [Pfx.add, h6, h9, h]

theorem Pfx.add_guard (h : p.guard = none) (g : Guard) : p.add (prefixWord 1 g.payload) = .ok { p with guard := some g } := by
  obtain ⟨-, h6, h9⟩ := fieldOf_prefixWord (k := 1) (by decide) g.payload
  simp [Pfx.add, h6, h9, h, Guard.ofPayload_payload]

theorem Pfx.add_mod (h : p.mod = none) (m : Mod) : p.add (prefixWord 2 m.payload) = .ok { p with mod := some m } := by
  obtain ⟨-, h6, h9⟩ := fieldOf_prefixWord (k := 2) (by decide) m.payload
  simp [Pfx.add, h6, h9, h, Mod.ofPayload_payload]

theorem Pfx.add_ximm (h : p.ximm = none) (x : BitVec 23) : p.add (prefixWord 3 x) = .ok { p with ximm := some x } := by
  obtain ⟨-, h6, h9⟩ := fieldOf_prefixWord (k := 3) (by decide) x
  simp [Pfx.add, h6, h9, h]

end

/-- The words before a group's own, read one after another, give its prefixes. -/
theorem Pfx.foldlM_add_words (p : Pfx) : p.words.foldlM Pfx.add Pfx.empty = .ok p := by
  obtain ⟨i, g, m, x⟩ := p
  unfold Pfx.words
  rw [List.foldlM_append, List.foldlM_append, List.foldlM_append]
  have hi : (i.toList.map (prefixWord 0)).foldlM Pfx.add Pfx.empty = .ok { Pfx.empty with imm := i } := by
    cases i <;> simp [Pfx.add_imm, Pfx.empty, bind, Except.bind, pure, Except.pure]
  have hg : (g.toList.map fun g => prefixWord 1 g.payload).foldlM Pfx.add { Pfx.empty with imm := i } =
      .ok { Pfx.empty with imm := i, guard := g } := by
    cases g <;> simp [Pfx.add_guard, Pfx.empty, bind, Except.bind, pure, Except.pure]
  have hm : (m.toList.map fun m => prefixWord 2 m.payload).foldlM Pfx.add { Pfx.empty with imm := i, guard := g } =
      .ok { Pfx.empty with imm := i, guard := g, mod := m } := by
    cases m <;> simp [Pfx.add_mod, Pfx.empty, bind, Except.bind, pure, Except.pure]
  have hx : (x.toList.map (prefixWord 3)).foldlM Pfx.add { Pfx.empty with imm := i, guard := g, mod := m } =
      .ok { imm := i, guard := g, mod := m, ximm := x } := by
    cases x <;> simp [Pfx.add_ximm, Pfx.empty, bind, Except.bind, pure, Except.pure]
  simp only [hi, hg, hm, hx, bind, Except.bind]

theorem Pfx.words_prefix (p : Pfx) : ∀ w ∈ p.words, fieldOf w 0 6 = 0x3F#6 := by
  intro w hw
  simp only [Pfx.words, List.mem_append, List.mem_map] at hw
  obtain ((⟨x, -, rfl⟩ | ⟨x, -, rfl⟩) | ⟨x, -, rfl⟩) | ⟨x, -, rfl⟩ := hw <;>
    exact (fieldOf_prefixWord (by decide) _).1

theorem decodeFrom_prefixes {n : Nat} {p q : Pfx} {ws : List (BitVec 32)} (rest : List Byte) (hw : ∀ w ∈ ws, fieldOf w 0 6 = 0x3F#6)
    (hq : ws.foldlM Pfx.add p = .ok q) : decodeFrom (n + ws.length) p (ws.flatMap wordBytes ++ rest) = decodeFrom n q rest := by
  induction ws generalizing p with
  | nil => cases hq; rfl
  | cons w ws ih =>
    rw [List.foldlM_cons] at hq
    cases hp : p.add w with
    | error e => rw [hp] at hq; cases hq
    | ok q' =>
      rw [hp] at hq
      rw [List.length_cons, ← Nat.add_assoc, List.flatMap_cons, List.append_assoc,
        decodeFrom_prefix _ (hw w (List.mem_cons_self ..)) hp]
      exact ih (fun x hx => hw x (List.mem_cons_of_mem _ hx)) hq

/-! How many prefixes stand before an instruction (R79). -/

theorem Pfx.words_length (p : Pfx) : p.words.length =
    p.imm.isSome.toNat + p.guard.isSome.toNat + p.mod.isSome.toNat + p.ximm.isSome.toNat := by
  obtain ⟨i, g, m, x⟩ := p
  cases i <;> cases g <;> cases m <;> cases x <;> rfl

theorem Pfx.ok_words {a : Acc} {surv : Bool} {p : Pfx} (h : p.ok a surv = true) : p.words.length ≤ 2 := by
  rw [p.words_length]
  simp only [Pfx.ok, Bool.and_eq_true, decide_eq_true_eq] at h
  omega

/-- No instruction is legal under prefixes that no row accepts. -/
theorem Instr.legal_of_no_row {front : Bool} {i : Instr} {q : Pfx} (hq : i.pfx = q) (hbad : ∀ a surv, q.ok a surv = false) :
    i.legal front = false := by
  cases i with
  | add p f | sub p f | mul p f | mulh p f | mulhu p f | min p f | max p f | minu p f | maxu p f | div p f | divu p f | rem p f
    | remu p f | and p f | or p f | xor p f | andn p f | shl p f | shr p f | sra p f | rol p f | ror p f | bcnt p f | clz p f
    | ctz p f | bitrev p f | cmpeq p f | cmpne p f | cmplt p f | cmple p f | cmpltu p f | cmpleu p f | sel p f | pand p f
    | por p f | pxor p f | pnot p f | pfrom p f | pto p f | movi p f | addi p f | shli p f | shri p f | andi p f | ori p f
    | xori p f | fadd p f | fsub p f | fmul p f | fdiv p f | fmin p f | fmax p f | fscale p f | fma p f | fms p f | fnma p f
    | fsqrt p f | frcpa p f | frsqa p f | fcmpeq p f | fcmpne p f | fcmplt p f | fcmple p f | fcmpun p f | fclass p f
    | ftstnf p f | fexp2 p f | flog2 p f | fsin p f | fcos p f | ftanh p f | fsigm p f | phadd p f | phmul p f | phfma p f
    | phmax p f | pbadd p f | pbfma p f | f64add p f | f64sub p f | f64mul p f | f64fma p f | f64div p f | cvtfi p f | cvtif p f
    | cvtfh p f | cvthf p f | cvtfb p f | cvtfd p f | cvtdf p f | pke4 p f | pke5 p f | unpe4 p f | unpe5 p f | unpi8 p f
    | unpi4 p f | pki8 p f | pki4 p f | idot4 p f | idot8 p f | bperm p f | sext8 p f | sext16 p f | xpick p f | xpickx p f
    | pall p f | pany p f | pmask p f | traysum p f | ld8 p f | ld8s p f | ld16 p f | ld32 p f | ld64 p f | ld128 p f | lds p f
    | st8 p f | st16 p f | st32 p f | st64 p f | st128 p f | sts p f | stnt p f | atadd p f | atmin p f | atmax p f | atand p f
    | atxchg p f | atcas p f | atfadd p f | ldres p f | stcnd p f | acq p f | rel p f | bind p f | unbind p f | waitne p f
    | cpy p f | cpyt p f | ctag p f | gath p f | tsalloc p f | tsfree p f | publish p f | mwld p f | mstr p f | mloop p f
    | accpop p f | accclr p f | scpy p f | mshape p f | board p f | catch_ p f | alight p f | rplc p f | homeq p f | kvmap p f
    | kvld p f | kvst p f | osmx p f | osmxf p f | verify p f | sample p f | launch p f | launchs p f | resolve p f | squash p f
    | verq p f | postres p f | ixset p f | setpri p f | brsp p f | loop p f | waitt p f | fence p | exit p | trap p | brk p =>
    obtain rfl : p = q := hq
    simp only [Instr.legal, hbad, Bool.and_false, Bool.false_and]
  | _ =>
    obtain rfl : Pfx.empty = q := hq
    exact absurd (hbad accG false) (by decide)

theorem Instr.legal_words {front : Bool} {i : Instr} (h : i.legal front = true) : i.pfx.words.length ≤ 2 := by
  by_contra hc
  have hbad : ∀ a surv, i.pfx.ok a surv = false := fun a surv => by
    cases hok : i.pfx.ok a surv with
    | false => rfl
    | true => exact absurd (Pfx.ok_words hok) hc
  exact absurd h (by rw [Instr.legal_of_no_row rfl hbad]; decide)

theorem Instr.wf_words {i : Instr} (h : i.wf = true) : i.pfx.words.length ≤ 2 :=
  (Bool.or_eq_true_iff.1 h).elim Instr.legal_words Instr.legal_words

/-! Decoding what was encoded. -/

/-- The bytes of the word or halfword that ends a group. -/
def MainWord.bytes : MainWord → List Byte
  | .word w => wordBytes w
  | .half h => halfBytes h
  | .event => []

theorem encode_eq (i : Instr) : encode i = i.pfx.words.flatMap wordBytes ++ i.main.bytes := by
  unfold encode MainWord.bytes
  cases i.main <;> rfl

/-- Events are no instructions (R81). -/
theorem Instr.legal_of_event {front : Bool} {i : Instr} (he : i.main = .event) : i.legal front = false := by
  cases i <;> cases he <;> rfl

theorem Instr.wf_main {i : Instr} (h : i.wf = true) : i.main ≠ .event := fun he => by
  simp [Instr.wf, Instr.legal_of_event he] at h

theorem Instr.pfx_of_half {i : Instr} {h : BitVec 16} (hm : i.main = .half h) : i.pfx = Pfx.empty := by
  obtain ⟨h0, rfl⟩ := decodeHalf_main hm
  exact (main_decodeHalf h0).2

theorem decodeFrom_main {i : Instr} (n : Nat) (hi : i.wf = true) (rest : List Byte) :
    decodeFrom (n + 1) i.pfx (i.main.bytes ++ rest) = .ok (i, rest) := by
  cases hm : i.main with
  | word w =>
    have hr := Instr.reads_main hi hm
    exact decodeFrom_word rest hr.isWord hr.not_prefix (hr.decodeWord hm)
  | half h =>
    obtain ⟨h0, hd⟩ := decodeHalf_main hm
    rw [Instr.pfx_of_half hm, MainWord.bytes, decodeFrom_half n rest h0, hd]
  | event => exact absurd hm (Instr.wf_main hi)

theorem decode_encode {i : Instr} (hi : i.wf = true) (rest : List Byte) : decode (encode i ++ rest) = .ok (i, rest) := by
  obtain ⟨n, hn⟩ := Nat.exists_eq_add_of_le (Instr.wf_words hi)
  have h3 : 3 = (n + 1) + i.pfx.words.length := by omega
  rw [decode, encode_eq, List.append_assoc, h3, decodeFrom_prefixes _ i.pfx.words_prefix i.pfx.foldlM_add_words, decodeFrom_main n hi]

/-! Encoding what was decoded. -/

/-- A word that joins the prefixes is one more word of them (R74, R79). -/
theorem Pfx.words_add {p q : Pfx} {w : BitVec 32} (h : p.add w = .ok q) : q.words.length = p.words.length + 1 := by
  obtain ⟨i, g, m, x⟩ := p
  rw [Pfx.words_length, Pfx.words_length]
  unfold Pfx.add at h
  dsimp only at h
  split at h
  case h_1 =>
    cases i <;> cases h
    simp
    omega
  case h_2 =>
    cases g <;> dsimp at h
    · split at h <;> cases h
      simp
      omega
    · cases h
  case h_3 =>
    cases m <;> dsimp at h
    · split at h <;> cases h
      simp
      omega
    · cases h
  case h_4 =>
    cases x <;> cases h
    simp
  case h_5 => cases h

theorem decodeWord_ok {p : Pfx} {w : BitVec 32} {i : Instr} (h : decodeWord p w = .ok i) : i.main = .word w ∧ i.pfx = p := by
  unfold decodeWord at h
  split at h
  · cases h
  · split at h
    · cases h
    · split at h
      · cases h
      · cases h
        simp_all

/-- What stands at the head of a group that decodes: a compact form, one of its prefixes before the rest, or an instruction word. -/
theorem decodeFrom_head {n : Nat} {p : Pfx} {bs r : List Byte} {i : Instr} (h : decodeFrom (n + 1) p bs = .ok (i, r)) :
    (∃ x : BitVec 16, x[0] = false ∧ p = Pfx.empty ∧ i = decodeHalf x ∧ bs = halfBytes x ++ r) ∨
    (∃ w q rest, p.add w = .ok q ∧ decodeFrom n q rest = .ok (i, r) ∧ bs = wordBytes w ++ rest) ∨
    ∃ w, decodeWord p w = .ok i ∧ bs = wordBytes w ++ r := by
  unfold decodeFrom at h
  split at h
  case h_1 hn => cases hn
  case h_3 => cases h
  case h_2 b0 b1 rest hn =>
    cases hn
    split at h
    next h0 =>
      split at h
      next hp =>
        cases h
        have hx : (halfOf b0 b1)[0] = b0[0] := by
          have := getLsbD_lowByte (halfOf b0 b1)
          rw [(fieldOf_halfOf b0 b1).1] at this
          exact this.symm
        exact .inl ⟨halfOf b0 b1, by simpa [hx] using h0, eq_of_beq hp, rfl, by rw [halfBytes_halfOf]; rfl⟩
      next => cases h
    next h0 =>
      split at h
      next b2 b3 rest' =>
        have hbs : ∀ l, b0 :: b1 :: b2 :: b3 :: l = wordBytes (wordOf b0 b1 b2 b3) ++ l := fun l => by rw [wordBytes_wordOf]; rfl
        dsimp only at h
        split at h
        next =>
          split at h
          next q hq => exact .inr (.inl ⟨_, q, rest', hq, h, hbs _⟩)
          next => cases h
        next =>
          split at h
          next j hj =>
            cases h
            exact .inr (.inr ⟨_, hj, hbs _⟩)
          next => cases h
      next => cases h

/-- A group that decodes is some words, as many as its instruction has prefixes, and the instruction's word or halfword. -/
theorem decodeFrom_ok {n : Nat} {p : Pfx} {bs r : List Byte} {i : Instr} (h : decodeFrom n p bs = .ok (i, r)) :
    ∃ ws : List (BitVec 32), i.pfx.words.length = p.words.length + ws.length ∧ bs = ws.flatMap wordBytes ++ i.main.bytes ++ r := by
  induction n generalizing p bs with
  | zero => cases h
  | succ n ih =>
    obtain ⟨x, h0, rfl, rfl, rfl⟩ | ⟨w, q, rest, hq, hr, rfl⟩ | ⟨w, hw, rfl⟩ := decodeFrom_head h
    · obtain ⟨hm, hp⟩ := main_decodeHalf h0
      exact ⟨[], by rw [hp]; rfl, by rw [hm]; rfl⟩
    · obtain ⟨ws, hlen, rfl⟩ := ih hr
      refine ⟨w :: ws, ?_, by simp⟩
      rw [hlen, Pfx.words_add hq, List.length_cons]
      omega
    · obtain ⟨hm, rfl⟩ := decodeWord_ok hw
      exact ⟨[], rfl, by rw [hm]; rfl⟩

theorem flatMap_wordBytes_length (ws : List (BitVec 32)) : (ws.flatMap wordBytes).length = 4 * ws.length := by
  simp [List.length_flatMap, wordBytes, Nat.mul_comm]

theorem decode_length {bs r : List Byte} {i : Instr} (h : decode bs = .ok (i, r)) : bs.length = i.size + r.length := by
  obtain ⟨ws, hlen, rfl⟩ := decodeFrom_ok h
  have he : (Pfx.empty.words).length = 0 := rfl
  rw [Instr.size, encode_eq, List.length_append, List.length_append, List.length_append, flatMap_wordBytes_length, flatMap_wordBytes_length,
    hlen, he, Nat.zero_add]

/-- Without prefixes a group is encoded in one way only. -/
theorem encode_decode {bs r : List Byte} {i : Instr} (h : decode bs = .ok (i, r)) (hp : i.pfx = Pfx.empty) : bs = encode i ++ r := by
  obtain ⟨ws, hlen, rfl⟩ := decodeFrom_ok h
  rw [hp] at hlen
  obtain rfl : ws = [] := List.eq_nil_of_length_eq_zero (by simpa using hlen)
  rw [encode_eq, hp]
  rfl

end Sys2Proof

namespace Sys2Proof.Proofs

/-- Settles O58. Forth: every layout reads its own fields back, and the words before a group's own add up to its prefixes. Back: a group that
decodes ends in its instruction's own word, and has as many words before it as the instruction has prefixes. -/
theorem decodeAndEncodeAgree : Obligations.DecodeAndEncodeAgree := by
  unfold Obligations.DecodeAndEncodeAgree
  exact ⟨fun _ hi rest => decode_encode hi rest, fun _ _ _ h => ⟨decode_length h, encode_decode h⟩⟩

end Sys2Proof.Proofs

namespace Sys2Proof.Proofs

/-- Settles O57: the decoder runs on each of these words. -/
theorem decodeReadsTheEncodings : Obligations.DecodeReadsTheEncodings := by
  unfold Obligations.DecodeReadsTheEncodings
  exact ⟨rfl, rfl, rfl, rfl, rfl, rfl, rfl, rfl, rfl, rfl, rfl, rfl, rfl, rfl, ⟨rfl, rfl, rfl, rfl, rfl⟩, rfl, rfl, rfl⟩

end Sys2Proof.Proofs

/-!
SUPPORT. Compact forms (R72, R132): each is one word of the model's own computation, without prefixes.
-/

namespace Sys2Proof.Machine

/-- An instruction that is the model's computation of one word gives that word under its own prefixes (R107). -/
theorem gives_of_alu {i : Instr} {p : Pfx} {size : Nat} {srcs : List Src} {d : BitVec 7} {f v : Ctx → Fin 32 → Word}
    (hx : ∀ s, exec i s = s.alu p size srcs d f) (hv : ∀ c : Ctx, c.pfx = p → f c = v c) :
    Gives i p size { srcs := srcs, dsts := [(d, 1)] } d v := by
  have hd : (d, 1) ∈ ({ srcs := srcs, dsts := [(d, 1)] } : Req).dsts := List.mem_singleton.2 rfl
  refine ⟨hd, fun s s' c h => ⟨_, (hx s).trans (congrArg Host.Outcome.next (h.run _)), ?_⟩⟩
  have hp : c.pfx = p := State.issuer_pfx (c := { c with adv := [] }) h.agent
  rw [← hv c hp]
  exact h.finish hd fun t => [f c t]

theorem CReg.code_eq (f : CReg) : CReg.code f = compactB f := by
  obtain ⟨d, b, s⟩ := f
  have h : ∀ (b : BitVec 5) (s : Bool),
      (BitVec.ofBool s).setWidth 7 <<< 6 ||| b.setWidth 7 = BitVec.ofNat 7 (b.toNat + if s then 64 else 0) := by decide
  exact h b s

/-- A compact register form (R72, R132). -/
theorem gives_compact {i : Instr} {f : CReg} {k : Konst} {op v : Ctx → Word → Word → Word}
    (hx : ∀ s, exec i s = s.compact f k op) (hv : ∀ c : Ctx, c.pfx = Pfx.empty → op c = v c) :
    Gives i Pfx.empty 2 { srcs := [.reg (compactD f.d) 1 false k, .reg (compactB f) 1 false k], dsts := [(compactD f.d, 1)] } (compactD f.d)
      fun c t => v c (c.val (.reg (compactD f.d) 1 false k) t) (c.val (.reg (compactB f) 1 false k) t) := by
  rw [← CReg.code_eq]
  exact gives_of_alu hx fun c hc => by rw [hv c hc]; rfl

/-- A compact register form of integers. -/
theorem gives_compactInt {i : CReg → Instr} {op : Word → Word → Word}
    (hx : ∀ f s, exec (i f) s = s.compact f .int fun _ a b => op a b) (f : CReg) :
    Gives (i f) Pfx.empty 2
      { srcs := [.reg (compactD f.d) 1 false .int, .reg (compactB f) 1 false .int], dsts := [(compactD f.d, 1)] } (compactD f.d)
      fun c t => op (c.val (.reg (compactD f.d) 1 false .int) t) (c.val (.reg (compactB f) 1 false .int) t) :=
  gives_compact (v := fun _ a b => op a b) (hx f) fun _ _ => rfl

/-- A compact immediate form that reads d (R72, R132). -/
theorem gives_compactImm {i : CImm → Instr} {op v : BitVec 6 → Word → Word}
    (hx : ∀ f s, exec (i f) s = s.compactImm f (op f.imm)) (hv : ∀ n a, op n a = v n a) (f : CImm) :
    Gives (i f) Pfx.empty 2 { srcs := [.reg (compactD f.d) 1 false .int], dsts := [(compactD f.d, 1)] } (compactD f.d)
      fun c t => v f.imm (c.val (.reg (compactD f.d) 1 false .int) t) := by
  obtain rfl : op = v := funext₂ hv
  exact gives_of_alu (hx f) fun _ _ => rfl

theorem shiftLeft_eq_ofNat (a : Word) (n : Nat) : a <<< n = BitVec.ofNat 32 (a.toNat * 2 ^ n) :=
  BitVec.eq_of_toNat_eq (by simp [Nat.shiftLeft_eq])

theorem shiftRight_eq_ofNat (a : Word) (n : Nat) : a >>> n = BitVec.ofNat 32 (a.toNat / 2 ^ n) :=
  BitVec.eq_of_toNat_eq (by
    rw [BitVec.toNat_ushiftRight, Nat.shiftRight_eq_div_pow, BitVec.toNat_ofNat]
    exact (Nat.mod_eq_of_lt ((Nat.div_le_self ..).trans_lt a.isLt)).symm)

/-- Without MOD among its prefixes an FP32 result is rounded to nearest even, without FTZ and SAT (R99, R100, R132). -/
theorem Ctx.round32_empty {c : Ctx} (hc : c.pfx = Pfx.empty) (v : FVal) : c.round32 v = BitVec.ofNat 32 (Fmt.f32.round .rn false false v) := by
  simp [Ctx.round32, Ctx.ftz, Ctx.sat, Ctx.rnd, hc, Pfx.empty, w32]

theorem Ctx.f32_empty {c : Ctx} (hc : c.pfx = Pfx.empty) (x : Word) : c.f32 x = Fmt.f32.decode false x.toNat := by
  simp [Ctx.f32, Ctx.ftz, hc, Pfx.empty]

/-- A compact FP32 form that rounds an exact result once (R132). -/
theorem gives_compactFp {i : CReg → Instr} {op : FVal → FVal → FVal}
    (hx : ∀ f s, exec (i f) s = s.compact f .f32 fun c a b => c.round32 (op (c.f32 a) (c.f32 b))) (f : CReg) :
    Gives (i f) Pfx.empty 2
      { srcs := [.reg (compactD f.d) 1 false .f32, .reg (compactB f) 1 false .f32], dsts := [(compactD f.d, 1)] } (compactD f.d)
      fun c t => BitVec.ofNat 32 (Fmt.f32.round .rn false false
        (op (Fmt.f32.decode false (c.val (.reg (compactD f.d) 1 false .f32) t).toNat)
          (Fmt.f32.decode false (c.val (.reg (compactB f) 1 false .f32) t).toNat))) :=
  gives_compact (v := fun _ a b => BitVec.ofNat 32 (Fmt.f32.round .rn false false
    (op (Fmt.f32.decode false a.toNat) (Fmt.f32.decode false b.toNat)))) (hx f) fun c hc => by
      funext a b
      rw [Ctx.round32_empty hc, Ctx.f32_empty hc, Ctx.f32_empty hc]


theorem fp32_negZero (c : Ctx) : ∃ e, fp32 c 0x80000000#32 = .fin true 0 e := by
  cases h : c.ftz <;> simp [fp32, h, Fmt.decode, Fmt.f32, Fmt.sign]

theorem fp32_posZero (c : Ctx) : ∃ e, fp32 c 0#32 = .fin false 0 e := by
  cases h : c.ftz <;> simp [fp32, h, Fmt.decode, Fmt.f32, Fmt.sign]

/-- FMAX by the order of values and by the model's choice of a pattern are the same word (R115). -/
theorem fpExtreme_max (c : Ctx) (a b : Word) : fpExtreme c true a b = w32 (Fmt.f32.pick c.ftz true a.toNat b.toNat) := by
  have ha : a = 0x80000000#32 → ∃ e, fp32 c a = .fin true 0 e := by rintro rfl; exact fp32_negZero c
  have hb : b = 0#32 → ∃ e, fp32 c b = .fin false 0 e := by rintro rfl; exact fp32_posZero c
  have hw (x : Word) : w32 x.toNat = x := BitVec.eq_of_toNat_eq (by simp [w32])
  have hs : w32 Fmt.f32.sign = 0x80000000#32 := rfl
  have h0 : w32 0 = 0#32 := rfl
  have hn : w32 Fmt.f32.nanBits = 0x7FC00000#32 := rfl
  have hf (x : Word) : Fmt.f32.decode c.ftz x.toNat = fp32 c x := rfl
  unfold fpExtreme Fmt.pick
  simp only [hf]
  rcases hx : fp32 c a with _ | n | ⟨n, _ | m, e⟩ <;>
    rcases hy : fp32 c b with _ | n' | ⟨n', _ | m', e'⟩
  all_goals simp only [hx, hy, apply_ite w32, hs, h0, hw, hn] at ha hb ⊢
  case nan.nan | nan.fin.zero | fin.zero.nan => rfl
  case fin.zero.fin.zero =>
    have : FVal.cmp (.fin n 0 e) (.fin n' 0 e') = some 0 := by simp [FVal.cmp, finSum]
    simp only [this]
    cases n <;> cases n' <;> rfl
  all_goals
    simp at ha hb ⊢
    generalize FVal.cmp _ _ = o
    cases o with
    | none => rfl
    | some d =>
      obtain hd | rfl | hd := lt_trichotomy d 0
      · simp [hd, hd.ne, hd.not_ge]
      · simp [ha, hb]
      · simp [hd.ne', hd.not_gt, hd.le]
end Sys2Proof.Machine

namespace Sys2Proof.Proofs

open Sys2Proof.Machine

/-- Settles O9: each compact form is the model's computation of one word from d and b, and without prefixes its FP32 results are
rounded to nearest even without FTZ and SAT. -/
theorem compactForms : Obligations.CompactForms := by
  unfold Obligations.CompactForms
  refine ⟨⟨fun f => ?mov, ?two, ?one, fun f => gives_of_alu (fun _ => rfl) fun _ _ => rfl⟩, ?fp, fun f => ?fmax⟩
  case mov =>
    rw [← CReg.code_eq]
    exact gives_of_alu (fun _ => rfl) fun _ _ => rfl
  case two =>
    unfold compactTwo
    repeat refine List.forall_mem_cons.2 ⟨gives_compactInt fun _ _ => rfl, ?_⟩
    exact fun _ h => nomatch h
  case one =>
    unfold compactOne
    refine List.forall_mem_cons.2 ⟨gives_compactImm (op := fun n a => a + n.signExtend 32) (fun _ _ => rfl) fun _ _ => rfl, ?_⟩
    refine List.forall_mem_cons.2 ⟨gives_compactImm (op := fun n a => a <<< (n.toNat % 32)) (fun _ _ => rfl) fun n a =>
      shiftLeft_eq_ofNat a _, ?_⟩
    refine List.forall_mem_cons.2 ⟨gives_compactImm (op := fun n a => a >>> (n.toNat % 32)) (fun _ _ => rfl) fun n a =>
      shiftRight_eq_ofNat a _, ?_⟩
    exact fun _ h => nomatch h
  case fp =>
    unfold compactFp
    repeat refine List.forall_mem_cons.2 ⟨gives_compactFp fun _ _ => rfl, ?_⟩
    exact fun _ h => nomatch h
  case fmax =>
    have hx (s) : exec (.fmaxC f) s = s.compact f .f32 fun _ a b => w32 (Fmt.f32.pick false true a.toNat b.toNat) := rfl
    exact gives_compact hx fun c _ => funext₂ fun a b => (fpExtreme_max { c with pfx := Pfx.empty } a b).symm

end Sys2Proof.Proofs

/-!
SUPPORT. Causes without a handler (R151, R172, R173, R175, R177): what a fault record leaves, and what a tray that is killed leaves
behind it.
-/

namespace Sys2Proof.Machine

/-! The device's own writes leave the trays, teams, launches and contexts but for bytes and reservations. -/

/-- A tray without its scratch bytes and its reservations. -/
def Tray.bare (tr : Tray) : Tray := { tr with scratch := Store.empty, resv := Vector.replicate 32 none }

/-- A team without its shared bytes and its strand's reservation. -/
def Team.bare (tm : Team) : Team := { tm with shared := Store.empty, front := { tm.front with resv := none } }

/-- The trays, teams, launches and contexts, without bytes and reservations. -/
def State.scene (s : State) : List Tray × List Team × List Launch × List Context :=
  (s.trays.map Tray.bare, s.teams.map Team.bare, s.launches, s.ctxs)

theorem State.modTray_scene (s : State) (id : Nat) (g : Tray → Tray) (hg : ∀ x, (g x).bare = x.bare) : (s.modTray id g).scene = s.scene := by
  refine congrArg (·, s.teams.map Team.bare, s.launches, s.ctxs) ?_
  rw [State.modTray_trays, List.map_map]
  refine List.map_congr_left fun x _ => ?_
  simp only [Function.comp]
  split <;> simp [hg]

theorem State.modShared_scene (s : State) (id : Nat) (f : Store → Store) : (s.modShared id f).scene = s.scene := by
  refine congrArg (s.trays.map Tray.bare, ·, s.launches, s.ctxs) ?_
  simp only [State.modShared, State.modTeam_teams, List.map_map]
  refine List.map_congr_left fun x _ => ?_
  simp only [Function.comp]
  split <;> rfl

theorem State.putBase_scene (s : State) (l : Loc) (x : Byte) : (s.putBase l x).scene = s.scene := by
  cases l with
  | shared t o => exact s.modShared_scene t _
  | scratch t o => exact s.modTray_scene t _ fun _ => rfl
  | _ => rfl

theorem State.putSeen_scene (s : State) (ks : List VKey) (v : Bool) (l : Loc) (x : Byte) : (s.putSeen ks v l x).scene = s.scene := by
  unfold State.putSeen
  split
  · unfold State.putVersion
    split <;> rfl
  · exact s.putBase_scene l x

theorem State.putBytes_scene (ks : List VKey) (v : Bool) (bs : List Byte) (s : State) (l : Loc) :
    (s.putBytes ks v l bs).scene = s.scene := by
  induction bs generalizing s l with
  | nil => rfl
  | cons b bs ih => exact (ih _ _).trans (s.putSeen_scene ks v l b)

theorem State.putTag_scene (s : State) (ks : List VKey) (v : Bool) (l : Loc) (t : BitVec 2) : (s.putTag ks v l t).scene = s.scene := by
  unfold State.putTag
  split
  · rfl
  · cases l with
    | shared tm o => exact s.modShared_scene tm _
    | scratch tr o => exact s.modTray_scene tr _ fun _ => rfl
    | _ => rfl

theorem State.markProt_scene (s : State) (a : Attr) (ks : List VKey) (l : Loc) (n : Nat) (o : Option Party) :
    (s.markProt a ks l n o).scene = s.scene := by
  unfold State.markProt
  split
  · refine foldl_same (g := State.scene) (fun s g => ?_) _ s
    split
    · unfold State.markDirty
      dsimp only
      split <;> rfl
    · rfl
  · rfl

theorem State.markHub_scene (s : State) (hub : Bool) (l : Loc) (n : Nat) : (s.markHub hub l n).scene = s.scene := by
  unfold State.markHub
  split
  · refine foldl_same (g := State.scene) (fun s x => ?_) _ s
    split <;> rfl
  · rfl

theorem State.markLines_scene (s : State) (a : Attr) (ks : List VKey) (l : Loc) (n : Nat) : (s.markLines a ks l n).scene = s.scene := by
  unfold State.markLines
  split
  · split <;> rfl
  · rfl

theorem State.touch_scene (s : State) (ks : List VKey) (v : Bool) (l : Loc) (n : Nat) : (s.touch ks v l n).scene = s.scene := by
  have h1 (s : State) (k : Option VKey) : (s.touchShadows k l n).scene = s.scene := by
    unfold State.touchShadows
    split <;> rfl
  have h2 (s : State) (k : Option VKey) : (s.touchCmds k l n).scene = s.scene := by
    unfold State.touchCmds
    dsimp only
    split <;> rfl
  exact (h2 _ _).trans (h1 _ _)

theorem State.loseResv_scene (s : State) (g : Loc) (w : Writer) : (s.loseResv g w).scene = s.scene := by
  refine congrArg₂ (·, ·, s.launches, s.ctxs) ?_ ?_
  · rw [State.loseResv, List.map_map]
    exact List.map_congr_left fun x _ => rfl
  · rw [State.loseResv, List.map_map]
    refine List.map_congr_left fun x _ => ?_
    simp only [Function.comp]
    split <;> rfl

theorem State.store_scene (s : State) (ks : List VKey) (a : Attr) (l : Loc) (bs : List Byte) (w : Writer) (o : Option Party)
    (tag : Bool) : (s.store ks a l bs w o tag).scene = s.scene := by
  have htag : ∀ u : State, (if tag then (l.lines bs.length).foldl (fun s ln => s.putTag ks a.vers ln 3) u else u).scene = u.scene := by
    intro u
    split
    · exact foldl_same (g := State.scene) (fun s ln => s.putTag_scene ks a.vers ln 3) _ u
    · rfl
  unfold State.store
  dsimp only
  rw [foldl_same (g := State.scene) fun s g => s.loseResv_scene g w, htag, State.markLines_scene, State.putBytes_scene, State.touch_scene,
    State.markHub_scene, State.markProt_scene]

theorem State.ctxWrite_scene (c : Context) (ver : Nat) (bs : List Byte) (s : State) (va : Nat) : (s.ctxWrite c ver va bs).scene = s.scene := by
  induction bs generalizing s va with
  | nil => rfl
  | cons b bs ih =>
    rw [State.ctxWrite, ih]
    split
    · rfl
    · exact s.store_scene _ _ _ _ _ _ _
    · rfl

/-! What stands in two states of one scene. -/

variable {s t : State}

theorem State.tray?_of_scene (h : t.scene = s.scene) (id : Nat) : (t.tray? id).map Tray.bare = (s.tray? id).map Tray.bare := by
  have hfind (u : State) : (u.tray? id).map Tray.bare = (u.trays.map Tray.bare).find? (·.id == id) := by
    rw [List.find?_map]
    rfl
  rw [hfind, hfind]
  exact congrArg (·.1.find? (·.id == id)) h

theorem State.team?_of_scene (h : t.scene = s.scene) (id : Nat) : (t.team? id).map Team.bare = (s.team? id).map Team.bare := by
  have hfind (u : State) : (u.team? id).map Team.bare = (u.teams.map Team.bare).find? (·.id == id) := by
    rw [List.find?_map]
    rfl
  rw [hfind, hfind]
  exact congrArg (·.2.1.find? (·.id == id)) h

theorem State.launches_of_scene (h : t.scene = s.scene) : t.launches = s.launches := congrArg (·.2.2.1) h

theorem State.ctxs_of_scene (h : t.scene = s.scene) : t.ctxs = s.ctxs := congrArg (·.2.2.2) h

/-! A fault record (R172 to R174). -/

theorem State.writeCcb_scene (s : State) (ctx : Nat) : (s.writeCcb ctx).scene = s.scene := by
  unfold State.writeCcb
  split
  · rfl
  · rw [State.ctxWrite_scene, State.ctxWrite_scene]

/-- The context's ring has room for one more record (R173). -/
abbrev State.ringRoom (s : State) (c : Context) : Prop :=
  (c.fcHead + 1 - BitVec.ofNat 64 (s.ctxNat c (c.ccb.toNat + 0x20) 8)).toNat ≤ c.fcCap

/-- What a record makes of its context, with a bit of STICKY: it is appended where the ring has room, and counted lost else. -/
def Context.recorded (c : Context) (room : Prop) [Decidable room] (bit : BitVec 26) (x : Context) : Context :=
  if room then { x with fcHead := c.fcHead + 1, lostPend := false, sticky := x.sticky ||| bit }
  else { x with fcLost := x.fcLost + 1, lostPend := true, sticky := x.sticky ||| bit }

theorem Context.recorded_id (c : Context) (room : Prop) [Decidable room] (bit : BitVec 26) (x : Context) :
    (c.recorded room bit x).id = x.id := by
  unfold Context.recorded
  split <;> rfl

theorem State.modCtx_scene (h : t.scene = s.scene) (id : Nat) (g : Context → Context) : (t.modCtx id g).scene = (s.modCtx id g).scene :=
  congrArg (fun x : List Tray × List Team × List Launch × List Context =>
    (x.1, x.2.1, x.2.2.1, x.2.2.2.map fun y : Context => if y.id == id then g y else y)) h

/-- A record changes nothing but its context and bytes. -/
theorem State.record_scene {ctx : Nat} {c : Context} (r : Record) (hc : s.ctx? ctx = some c) (hr : r.info = false) :
    (s.record ctx r).scene = (s.modCtx ctx (c.recorded (s.ringRoom c) (stickyBit r.cause))).scene := by
  unfold State.record
  simp only [hc, hr, Bool.false_and, Bool.false_eq_true, if_false]
  by_cases hroom : s.ringRoom c
  · rw [if_pos hroom, State.writeCcb_scene, State.modCtx_scene (State.ctxWrite_scene ..)]
    exact congrArg (fun g => (s.modCtx ctx g).scene) (funext fun x => (if_pos hroom).symm)
  · rw [if_neg hroom, State.writeCcb_scene]
    exact congrArg (fun g => (s.modCtx ctx g).scene) (funext fun x => (if_neg hroom).symm)

theorem stickyBit_of_mem {code : Nat} (h : code ∈ 0x01 :: 0x0B :: trapCauses) :
    stickyBit code = if code = 0x0F ∨ code = 0x17 then 0 else 1#26 <<< (code - 1) := by
  revert code
  decide

theorem State.record_recorded {ctx : Nat} {r : Record} (hr : r.info = false) (hcode : r.cause ∈ 0x01 :: 0x0B :: trapCauses) :
    Recorded s (s.record ctx r) ctx r.cause := by
  intro cx hcx
  have hctx : (s.record ctx r).ctx? ctx = some (cx.recorded (s.ringRoom cx) (stickyBit r.cause) cx) := by
    unfold State.ctx?
    rw [State.ctxs_of_scene (s.record_scene r hcx hr)]
    refine (s.ctx?_modCtx ctx ctx _ fun x => Context.recorded_id ..).trans ?_
    rw [hcx, Option.map_some, if_pos (by simp [State.ctx?_id hcx])]
  refine ⟨_, hctx, ?_⟩
  rw [← stickyBit_of_mem hcode]
  unfold Context.recorded
  split <;> simp_all

end Sys2Proof.Machine

namespace Sys2Proof.Machine

/-! What remains once a tray, a team and a launch end. -/

/-- A tray that is there in t was there in s with the same frontier, and a launch with the same first cause. -/
structure Winds (s t : State) : Prop where
  trays : ∀ tr ∈ t.trays, ∃ x ∈ s.trays, x.id = tr.id ∧ x.frontier = tr.frontier
  launches : ∀ id l, t.launch? id = some l → ∃ x, s.launch? id = some x ∧ x.cause = l.cause

variable {s t u : State}

theorem Winds.trans (h : Winds s t) (k : Winds t u) : Winds s u where
  trays tr htr := by
    obtain ⟨x, hx, hid, hf⟩ := k.trays tr htr
    obtain ⟨y, hy, hid', hf'⟩ := h.trays x hx
    exact ⟨y, hy, hid'.trans hid, hf'.trans hf⟩
  launches id l hl := by
    obtain ⟨x, hx, hc⟩ := k.launches id l hl
    obtain ⟨y, hy, hc'⟩ := h.launches id x hx
    exact ⟨y, hy, hc'.trans hc⟩

theorem Winds.of_subset (htrays : t.trays ⊆ s.trays) (hlaunches : t.launches = s.launches) : Winds s t where
  trays tr htr := ⟨tr, htrays htr, rfl, rfl⟩
  launches id l hl := ⟨l, by rwa [State.launch?, ← hlaunches], rfl⟩

theorem Winds.of_eq (htrays : t.trays = s.trays) (hlaunches : t.launches = s.launches) : Winds s t :=
  .of_subset (htrays ▸ fun _ h => h) hlaunches

theorem Winds.refl (s : State) : Winds s s := .of_eq rfl rfl

theorem Winds.foldl {β : Type} {f : State → β → State} (hf : ∀ s b, Winds s (f s b)) (bs : List β) (s : State) : Winds s (bs.foldl f s) :=
  foldl_keeps (P := Winds s) (fun _ b h => h.trans (hf _ b)) bs s (.refl s)

theorem Winds.of_scene (h : t.scene = s.scene) : Winds s t where
  trays tr htr := by
    have htrays : t.trays.map Tray.bare = s.trays.map Tray.bare := congrArg (·.1) h
    obtain ⟨x, hx, he⟩ := List.mem_map.1 (htrays ▸ List.mem_map_of_mem htr)
    exact ⟨x, hx, (congrArg Tray.id he :), (congrArg Tray.frontier he :)⟩
  launches id l hl := ⟨l, by rwa [State.launch?, ← State.launches_of_scene h], rfl⟩

theorem winds_modTray (s : State) (id : Nat) {g : Tray → Tray} (hg : ∀ x, (g x).id = x.id ∧ (g x).frontier = x.frontier) :
    Winds s (s.modTray id g) where
  trays tr htr := by
    obtain ⟨x, hx, rfl⟩ := List.mem_map.1 htr
    refine ⟨x, hx, ?_⟩
    split <;> simp [hg]
  launches id l hl := ⟨l, hl, rfl⟩

theorem winds_modLaunch (s : State) (id : Nat) {g : Launch → Launch} (hg : ∀ x, (g x).id = x.id ∧ (g x).cause = x.cause) :
    Winds s (s.modLaunch id g) where
  trays tr htr := ⟨tr, htr, rfl, rfl⟩
  launches id' l hl := by
    rw [s.launch?_modLaunch id id' g fun x => (hg x).1] at hl
    obtain ⟨x, hx, rfl⟩ := Option.map_eq_some_iff.1 hl
    refine ⟨x, hx, ?_⟩
    split <;> simp [hg]

theorem winds_filterLaunches {id : Nat} (htrays : t.trays = s.trays) (hlaunches : t.launches = s.launches.filter (·.id != id)) :
    Winds s t where
  trays tr htr := ⟨tr, htrays ▸ htr, rfl, rfl⟩
  launches id' l hl := by
    rw [State.launch?, hlaunches] at hl
    have hne : l.id ≠ id := by simpa using (List.mem_filter.1 (List.mem_of_find?_eq_some hl)).2
    obtain rfl : l.id = id' := by simpa using List.find?_some hl
    refine ⟨l, ?_, rfl⟩
    rw [State.launch?, ← hl, List.find?_filter]
    refine congrArg (List.find? · s.launches) (funext fun x => ?_)
    by_cases hx : x.id = l.id <;> simp [hx, hne]

/-! The scheduler's and the memory system's part in it. -/

theorem State.modPast_launches (s : State) (f : Past → Past) : (s.modPast f).launches = s.launches := by
  unfold State.modPast
  split <;> rfl

theorem State.poolFreed_launches (s : State) (bench lane : Nat) (landed : Bool) : (s.poolFreed bench lane landed).launches = s.launches := by
  unfold State.poolFreed
  dsimp only
  split <;> rfl

theorem State.cmdOver_launches (s : State) (id : Nat) : (s.cmdOver id).launches = s.launches := s.modPast_launches _

theorem State.dropCmds_launches (s : State) (gone : Cmd → Bool) : (s.dropCmds gone).launches = s.launches := by
  unfold State.dropCmds
  exact foldl_same (g := State.launches) (fun s id => s.cmdOver_launches id) _ _

theorem State.dropTeam_launches (s : State) (id : Nat) : (s.dropTeam id).launches = s.launches := by
  unfold State.dropTeam
  rw [foldl_same (g := State.launches) fun s tr => s.poolFreed_launches _ _ _]
  exact s.dropCmds_launches _

theorem winds_poolFreed (s : State) (bench lane : Nat) (landed : Bool) : Winds s (s.poolFreed bench lane landed) :=
  .of_eq (State.poolFreed_trays ..) (State.poolFreed_launches ..)

theorem winds_dropTeam (s : State) (id : Nat) : Winds s (s.dropTeam id) :=
  .of_subset (by rw [State.dropTeam_trays]; exact List.filter_subset_self ..) (s.dropTeam_launches id)

theorem winds_forgetOwner (s : State) (o : Owner) : Winds s (s.forgetOwner o) := .of_eq (s.modPast_trays _) (s.modPast_launches _)

theorem winds_putRegs (o : Owner) (ws : List RegWrite) (s : State) : Winds s (s.putRegs o ws) := by
  refine .foldl (fun s w => ?_) ws s
  cases o with
  | tray id => exact winds_modTray s id fun tr => by cases w.reg <;> exact ⟨rfl, rfl⟩
  | front t => exact .of_eq rfl rfl

theorem winds_putResult (s : State) (o : Owner) (ws : List RegWrite) (launch : Nat) : Winds s (s.putResult o ws launch) := by
  cases o <;> exact (winds_putRegs _ ws s).trans (.of_eq rfl rfl)

theorem State.endItem_scene (s : State) (it : Item) (w : DWord) : (s.endItem it w).scene = s.scene := by
  have h : (match s.ctx? (it.ctxid.toNat % 4096) with
      | some c => if it.result == 0 then s else s.ctxWrite c 0 it.result.toNat (leBytes 8 w.toNat)
      | none => s).scene = s.scene := by
    split
    · split
      · rfl
      · exact State.ctxWrite_scene _ _ _ s _
    · rfl
  unfold State.endItem
  dsimp only
  split <;> exact h

theorem winds_endItem (s : State) (it : Item) (w : DWord) : Winds s (s.endItem it w) := .of_scene (s.endItem_scene it w)

theorem State.preemptOver_scene (s : State) (p : Preempt) : (s.preemptOver p).scene = s.scene := by
  unfold State.preemptOver
  split
  · rfl
  · dsimp only
    split
    · split
      · exact (State.endItem_scene _ _ _).trans (State.ctxWrite_scene _ _ _ _ _)
      · exact State.endItem_scene _ _ _
    · rfl
    · rfl

theorem winds_reported (s : State) (team teamno outcome off : Nat) : Winds s (s.reported team teamno outcome off) :=
  .of_scene (foldl_same (g := State.scene) (fun s p => s.preemptOver_scene p) _ _)

theorem winds_deliver (s : State) (d : Dest) (w : DWord) (launch : Nat) : Winds s (s.deliver d w launch) := by
  unfold State.deliver
  cases d with
  | none => exact .refl s
  | regs o lo hi => cases hi <;> exact winds_putResult s o _ launch
  | item it => exact winds_endItem s it w
  | group g =>
    dsimp only
    split
    case h_1 x _ =>
      have h := Winds.foldl (fun s it => winds_endItem s it w) x.recs s
      split <;> exact h.trans (.of_eq rfl rfl)
    case h_2 => exact .refl s
  | graph g =>
    dsimp only
    split
    case h_1 => exact .refl s
    case h_2 x _ =>
      refine .trans (t := { s with sched := { s.sched with graphs := s.sched.graphs.filter (·.id != g) } }) (.of_eq rfl rfl) ?_
      split
      case h_1 => exact winds_endItem _ _ w
      case h_2 c _ =>
        have hw : ∀ (u : State) (res : Nat), Winds u (if res == 0 then u else u.ctxWrite c 0 res (leBytes 8 w.toNat)) := fun u res => by
          split
          · exact .refl u
          · exact .of_scene (u.ctxWrite_scene ..)
        split
        case h_1 => exact (hw _ _).trans (.of_eq rfl rfl)
        case h_2 => exact (hw _ _).trans (winds_endItem _ _ w)

theorem winds_endLaunch (s : State) (id : Nat) (w : DWord) : Winds s (s.endLaunch id w) := by
  unfold State.endLaunch
  split
  · exact .refl s
  case h_2 l _ =>
    refine .trans ?_ (winds_deliver _ l.dest w id)
    refine winds_filterLaunches (id := id) ?_ ?_
    · rw [State.launchReleased, State.modPast_trays]
      split <;> rfl
    · rw [State.launchReleased, State.modPast_launches]
      split <;> rfl

/-- A launch ends with its last team (R321). -/
theorem winds_endLast (h : Winds s t) (launch : Nat) :
    Winds s (match t.launch? launch with
      | some l => if l.endedTeams ≥ l.teams then t.endLaunch l.id l.result else t
      | none => t) := by
  split
  · split
    · exact h.trans (winds_endLaunch ..)
    · exact h
  · exact h

theorem winds_endTeam (s : State) (id : Nat) : Winds s (s.endTeam id) := by
  unfold State.endTeam
  split
  · exact .refl s
  case h_2 tm _ =>
    refine winds_endLast (.trans (.trans (.trans (.trans (.foldl winds_forgetOwner (s.ownersOf id) s) ?remnants) (winds_dropTeam ..))
      (winds_reported ..)) (winds_modLaunch _ _ ?counted)) tm.launch
    case counted => exact fun _ => ⟨rfl, rfl⟩
    case remnants =>
      split
      · split
        · exact .of_eq rfl rfl
        · exact .refl _
      · exact .refl _

theorem winds_checkTeam (s : State) (id : Nat) : Winds s (s.checkTeam id) := by
  unfold State.checkTeam
  split
  · exact .refl s
  · split
    · exact .refl s
    · exact winds_endTeam s id

theorem Winds.filterTrays (h : Winds s t) (stays : Tray → Bool) (ps : List Producer) :
    Winds s { t with trays := t.trays.filter stays, prods := ps } :=
  h.trans (.of_subset (List.filter_subset_self _) rfl)

theorem winds_endTray (s : State) (id : Nat) : Winds s (s.endTray id) := by
  unfold State.endTray
  split
  · exact .refl s
  case h_2 tr _ =>
    have hforgotten (spawned : Bool) : Winds s (if spawned then s else s.forgetOwner (.tray id)) := by
      cases spawned
      · exact winds_forgetOwner s _
      · exact .refl s
    exact (((hforgotten _).filterTrays _ _).trans (winds_poolFreed _ tr.bench tr.lane tr.landed.isSome)).trans (winds_checkTeam _ tr.team)

/-- Without a trap's frontier to go back to, a tray without threads ends or waits for its spawns to be written. -/
theorem winds_checkTray {id : Nat} (h : ∀ tr, s.tray? id = some tr → tr.trap = none) : Winds s (s.checkTray id) := by
  unfold State.checkTray
  split
  · exact .refl s
  case h_2 tr htr =>
    rw [h tr htr]
    split
    · exact .refl s
    · refine .trans (winds_modTray s id (g := fun tr => { tr with trap := none }) fun _ => ⟨rfl, rfl⟩) ?_
      dsimp only [Option.map_none, Option.getD_none]
      split
      · split
        · exact .refl _
        · exact winds_endTray _ id
      · exact winds_endTray _ id

/-- A tray's threads have ended, and its launch has a first cause (R82, R321). -/
def State.killed (s : State) (id launch cause : Nat) : State :=
  (s.modLaunch launch fun l => { l with cause := some (l.cause.getD cause) }).modTray id fun tr => { tr with frontier := [], trap := none }

theorem State.killTray_eq {id cause : Nat} {tr : Tray} {tm : Team} (htr : s.tray? id = some tr) (htm : s.team? tr.team = some tm) :
    s.killTray id cause = (s.killed id tm.launch cause).checkTray id := by
  unfold State.killTray
  rw [htr]
  dsimp only
  rw [htm]
  rfl

theorem State.killed_launch? {id launch cause : Nat} {l : Launch} (hl : s.launch? launch = some l) :
    (s.killed id launch cause).launch? launch = some { l with cause := some (l.cause.getD cause) } := by
  refine (State.launch?_modLaunch s _ _ (fun l => { l with cause := some (l.cause.getD cause) }) fun _ => rfl).trans ?_
  rw [hl, Option.map_some, if_pos (by simp [State.launch?_id hl])]

theorem State.killed_trays {id launch cause : Nat} {tr : Tray} (h : tr ∈ (s.killed id launch cause).trays) (hid : tr.id = id) :
    tr.frontier = [] ∧ tr.trap = none := by
  obtain ⟨x, -, rfl⟩ := List.mem_map.1 h
  by_cases hx : x.id = id
  · simp [hx]
  · rw [if_neg (by simpa using hx)] at hid
    exact absurd hid hx

/-- A tray is killed: it ends, or stays without a thread (R143), and its launch, while it is there, keeps the first cause (R321). -/
theorem State.killTray_ends {id cause : Nat} {tr : Tray} {tm : Team} {l : Launch} (htr : s.tray? id = some tr)
    (htm : s.team? tr.team = some tm) (hl : s.launch? tm.launch = some l) :
    ((s.killTray id cause).tray? id = none ∨ ∃ x, (s.killTray id cause).tray? id = some x ∧ x.frontier = []) ∧
      ∀ x, (s.killTray id cause).launch? tm.launch = some x → x.cause = some (l.cause.getD cause) := by
  have hwinds : Winds (s.killed id tm.launch cause) (s.killTray id cause) := by
    rw [State.killTray_eq htr htm]
    exact winds_checkTray fun x hx => (State.killed_trays (List.mem_of_find?_eq_some hx) (State.tray?_id hx)).2
  refine ⟨?_, fun x hx => ?_⟩
  · cases hstays : (s.killTray id cause).tray? id with
    | none => exact .inl rfl
    | some x =>
      obtain ⟨y, hy, hid, hfront⟩ := hwinds.trays x (List.mem_of_find?_eq_some hstays)
      exact .inr ⟨x, rfl, hfront ▸ (State.killed_trays hy (hid.trans (State.tray?_id hstays))).1⟩
  · obtain ⟨y, hy, hcause⟩ := hwinds.launches _ x hx
    rw [State.killed_launch? hl] at hy
    rw [← hcause, ← Option.some.inj hy]

/-! Raising a cause without a handler. -/

/-- What stands when a cause is taken: the issuer's reads at peers are forgotten. -/
def State.raising (s : State) (c : Ctx) : State :=
  { s with stalled := false, fab := { s.fab with pulled := s.fab.pulled.filter fun x => x.owner != c.owner } }

theorem State.landsAt_of_landing {c : Ctx} {va : DWord} (h : s.landing c.cx c.launch.ver c.team.id va = true) : landsAt s c va := by
  obtain ⟨heven, hbytes⟩ := Bool.and_eq_true_iff.1 h
  rw [List.all_eq_true] at hbytes
  refine ⟨by simpa using heven, fun i => ?_⟩
  have hi := hbytes (i.val, BitVec.ofNat 8 (0x000001BB / 2 ^ (8 * i.val))) (by revert i; decide)
  dsimp only at hi
  split at hi
  case h_1 x hx => rw [hx, eq_of_beq hi]
  case h_2 => exact absurd hi Bool.false_ne_true

/-- The state once the record of a cause that no handler takes is appended. -/
def State.noted (s : State) (c : Ctx) (f : Cause) : State := (s.raising c).record c.cx.id { c.recordOf s.devNo f with kill := true }

theorem State.raise_front {c : Ctx} {f : Cause} (h : c.front = true) :
    s.raise c f = (s.noted c f).modFront c.team.id fun fr => { fr with status := .ended } := if_pos h

theorem State.raise_kills {c : Ctx} {f : Cause} (h : c.front = false)
    (hf : f.code = 1 ∨ c.tray.trap.isSome = true ∨ s.handler c.cx c.ver c.team.id = false) :
    s.raise c f = (s.noted c f).killTray c.tray.id f.code := by
  refine (if_neg (by simp [h])).trans (if_pos ?_)
  change (f.code == 1 || c.tray.trap.isSome || !s.handler c.cx c.ver c.team.id) = true
  rcases hf with hf | hf | hf <;> simp [hf]

/-- Where TRAPPC is 0 or no landing point there is no handler (R171). -/
theorem State.no_handler {c : Ctx} (h : c.cx.trapPc = 0 ∨ ¬landsAt s c c.cx.trapPc) : s.handler c.cx c.ver c.team.id = false := by
  rw [← Bool.not_eq_true]
  intro hh
  obtain ⟨hpc, hland⟩ := Bool.and_eq_true_iff.1 hh
  exact h.elim (fun h0 => by simp [h0] at hpc) fun hno => hno (State.landsAt_of_landing hland)

section
variable {c : Ctx} (f : Cause) (hctx : s.ctx? c.cx.id = some c.cx)
include hctx

theorem State.noted_scene : ∃ g : Context → Context, (s.noted c f).scene = (s.modCtx c.cx.id g).scene :=
  ⟨_, (s.raising c).record_scene _ hctx rfl⟩

theorem State.noted_tray? (id : Nat) : ((s.noted c f).tray? id).map Tray.bare = (s.tray? id).map Tray.bare := by
  obtain ⟨g, h⟩ := State.noted_scene f hctx
  exact State.tray?_of_scene h id

theorem State.noted_team? (id : Nat) : ((s.noted c f).team? id).map Team.bare = (s.team? id).map Team.bare := by
  obtain ⟨g, h⟩ := State.noted_scene f hctx
  exact State.team?_of_scene h id

theorem State.noted_launch? (id : Nat) : (s.noted c f).launch? id = s.launch? id := by
  obtain ⟨g, h⟩ := State.noted_scene f hctx
  exact congrArg (·.find? (·.id == id)) (State.launches_of_scene h)

end

end Sys2Proof.Machine

namespace Sys2Proof.Proofs

open Sys2Proof.Machine

/-- Settles O26: the record leaves the trays, teams and launches; killing the tray then takes its threads and notes the cause, and nothing
that ends after it brings a thread back or notes another cause. In front code the record and the strand's end are all there is. -/
theorem causesWithoutAHandler : Obligations.CausesWithoutAHandler := by
  unfold Obligations.CausesWithoutAHandler
  refine ⟨fun s c f hfront htray hctx hteam hlaunch _ hkills => ?tray, fun s c f hfront hteam hctx hcode => ⟨?ended, ?recorded, fun id => ?kept⟩,
    fun p s s' c h => ?trap⟩
  case tray =>
    rw [State.raise_kills hfront (hkills.imp_right (Or.imp_right fun h => State.no_handler h.2))]
    obtain ⟨tr, htr, htrbare⟩ := Option.map_eq_some_iff.1 ((State.noted_tray? f hctx c.tray.id).trans (congrArg _ htray))
    obtain ⟨tm, htm, htmbare⟩ := Option.map_eq_some_iff.1 ((State.noted_team? f hctx c.tray.team).trans (congrArg _ hteam))
    have hown : tr.team = c.tray.team := (congrArg Tray.team htrbare :)
    have hof : tm.launch = c.team.launch := (congrArg Team.launch htmbare :)
    rw [← hown] at htm
    rw [← State.noted_launch? f hctx, ← hof] at hlaunch
    rw [← hof]
    exact State.killTray_ends htr htm hlaunch
  case ended =>
    obtain ⟨tm, htm, -⟩ := Option.map_eq_some_iff.1 ((State.noted_team? f hctx c.team.id).trans (congrArg _ hteam))
    refine ⟨{ tm with front := { tm.front with status := .ended } }, ?_, rfl⟩
    rw [State.raise_front hfront]
    refine (State.team?_modTeam _ _ _ (fun t => { t with front := { t.front with status := .ended } }) fun _ => rfl).trans ?_
    rw [htm, Option.map_some, if_pos (by simp [State.team?_id htm])]
  case recorded =>
    rw [State.raise_front hfront]
    exact State.record_recorded (s := s.raising c) rfl hcode
  case kept =>
    rw [State.raise_front hfront]
    have h := congrArg (Option.map Tray.frontier) (State.noted_tray? f hctx id)
    rw [Option.map_map, Option.map_map] at h
    exact h
  case trap =>
    have hd0 : p.immU.setWidth 64 = match p.imm with | some i => i.setWidth 64 | none => 0 := by
      unfold Pfx.immU
      cases p.imm <;> simp
    exact (congrArg Host.Outcome.next (h.run _)).trans
      (congrArg (fun d => Host.Outcome.next (s'.raise c { code := 0x1A, mask := if c.front then 0 else c.act, d0 := d })) hd0)

end Sys2Proof.Proofs

/-!
SUPPORT. A step of a device whose dies run (R68, R79, R82, R194): what it fetches decodes as the bytes that decide it, whatever stands
behind them.
-/

namespace Sys2Proof

/-- A group that is decided by some bytes is decided alike with more behind them. -/
theorem decodeFrom_append (more : List Byte) (n : Nat) : ∀ (p : Pfx) (bs : List Byte), decodeFrom n p bs ≠ .error .short →
    decodeFrom n p (bs ++ more) = (decodeFrom n p bs).map fun x => (x.1, x.2 ++ more) := by
  induction n with
  | zero => exact fun _ _ _ => rfl
  | succ n ih =>
    intro p bs h
    match bs, h with
    | [], h => exact absurd rfl h
    | [_], h => exact absurd rfl h
    | b0 :: b1 :: rest, h =>
      rw [List.cons_append, List.cons_append]
      unfold decodeFrom at h ⊢
      by_cases hhalf : (!b0.getLsbD 0) = true
      · rw [if_pos hhalf, if_pos hhalf]
        split <;> rfl
      · rw [if_neg hhalf] at h
        rw [if_neg hhalf, if_neg hhalf]
        match rest, h with
        | [], h => exact absurd rfl h
        | [_], h => exact absurd rfl h
        | b2 :: b3 :: rest, h =>
          dsimp only [List.cons_append] at h ⊢
          by_cases hpfx : (fieldOf (wordOf b0 b1 b2 b3) 0 6 == 0x3F#6) = true
          · rw [if_pos hpfx] at h
            rw [if_pos hpfx, if_pos hpfx]
            cases hq : p.add (wordOf b0 b1 b2 b3) with
            | ok q =>
              rw [hq] at h
              exact ih q rest h
            | error e => rfl
          · rw [if_neg hpfx, if_neg hpfx]
            cases decodeWord p (wordOf b0 b1 b2 b3) <;> rfl

theorem decode_append_ok {bs r : List Byte} {i : Instr} (more : List Byte) (h : decode bs = .ok (i, r)) :
    decode (bs ++ more) = .ok (i, r ++ more) := by
  have happend := decodeFrom_append more 3 Pfx.empty bs
  rw [show decodeFrom 3 Pfx.empty bs = .ok (i, r) from h] at happend
  exact happend nofun

theorem decode_append_error {bs : List Byte} {e : DecodeError} (more : List Byte) (h : decode bs = .error e) (he : e ≠ .short) :
    decode (bs ++ more) = .error e := by
  have happend := decodeFrom_append more 3 Pfx.empty bs
  rw [show decodeFrom 3 Pfx.empty bs = .error e from h] at happend
  exact happend fun hs => he (Except.error.inj hs)

end Sys2Proof

namespace Sys2Proof.Machine

variable {s : State} {c : Ctx}

/-- A fetch takes up the bytes that are there and goes on behind them (R68, R194). -/
theorem State.fetchFrom_readable (n : Nat) (bs : List Byte) : ∀ off,
    (∀ k b, bs[k]? = some b → s.fetchByte c.cx c.ver c.team.id (c.ent.pc + BitVec.ofNat 64 (off + k)) = .ok b) →
    s.fetchFrom c (bs.length + n) off =
      (bs ++ (s.fetchFrom c n (off + bs.length)).1, (s.fetchFrom c n (off + bs.length)).2) := by
  induction bs with
  | nil => exact fun off _ => by simp
  | cons b bs ih =>
    intro off h
    have htail := ih (off + 1) fun k x hx => by
      rw [Nat.add_assoc, Nat.add_comm 1]
      exact h (k + 1) x hx
    have hhead : s.fetchByte c.cx c.ver c.team.id (c.ent.pc + BitVec.ofNat 64 off) = .ok b := h 0 b rfl
    rw [List.length_cons, Nat.add_right_comm, State.fetchFrom, hhead]
    dsimp only
    rw [htail, Nat.add_assoc, Nat.add_comm 1]
    rfl

section
variable {bs : List Byte} (hlen : bs.length ≤ 12) (hreads : s.readsCode c bs)
include hlen hreads

theorem State.fetchFrom_code :
    s.fetchFrom c 12 0 =
      (bs ++ (s.fetchFrom c (12 - bs.length) bs.length).1, (s.fetchFrom c (12 - bs.length) bs.length).2) := by
  have h := State.fetchFrom_readable (12 - bs.length) bs 0 fun k b hk => by
    rw [Nat.zero_add]
    exact hreads k b hk
  rwa [Nat.add_sub_cancel' hlen, Nat.zero_add] at h

theorem State.fetchGroup_op {i : Instr} {r : List Byte} (hdec : decode bs = .ok (i, r)) (hlegal : i.legal c.front = true) :
    s.fetchGroup c = .op i := by
  unfold State.fetchGroup
  rw [State.fetchFrom_code hlen hreads]
  dsimp only
  rw [decode_append_ok _ hdec]
  exact if_pos hlegal

theorem State.fetchGroup_illegal
    (hdec : (∃ e, decode bs = .error e ∧ e ≠ .short) ∨ (∃ i r, decode bs = .ok (i, r) ∧ i.legal c.front = false)) :
    s.fetchGroup c = .cause 0x01 0 := by
  unfold State.fetchGroup
  rw [State.fetchFrom_code hlen hreads]
  dsimp only
  rcases hdec with ⟨e, hdec, he⟩ | ⟨i, r, hdec, hlegal⟩
  · rw [decode_append_error _ hdec he]
    cases e with
    | short => exact absurd rfl he
    | _ => rfl
  · rw [decode_append_ok _ hdec]
    exact if_neg (by simp [hlegal])

theorem State.fetchGroup_unfetched {e : Nat} (hdec : decode bs = .error .short) (hmore : bs.length < 12)
    (he : s.fetchByte c.cx c.ver c.team.id (c.ent.pc + BitVec.ofNat 64 bs.length) = .error e) :
    s.fetchGroup c = .cause e (if e = 0x0A then c.ent.pc else c.ent.pc + BitVec.ofNat 64 bs.length) := by
  obtain ⟨n, hn⟩ : ∃ n, 12 - bs.length = n + 1 := ⟨11 - bs.length, by omega⟩
  unfold State.fetchGroup
  rw [State.fetchFrom_code hlen hreads, hn, State.fetchFrom, he]
  simp [hdec]

end

/-- A step of a device whose dies run makes the next move. -/
theorem step_of_nextMove {s' : State} {m : Move} (hpower : s.pkg.power = .running) (hnext : s.nextMove = some (m, s')) :
    step s = s'.ticked.perform m := by
  unfold step
  rw [if_neg (by simp [State.alive, hpower]), hnext]
  rfl

section
variable {a : Agent} (hctx : s.agentCtx a = some c) (htry : s.canTry a = true)
include hctx htry

theorem State.issue_of_op {i : Instr} (h : s.fetchGroup c = .op i) : s.issue a = exec i ((s.begin a).fetched c) := by
  unfold State.issue
  rw [hctx]
  dsimp only
  rw [if_neg (by simp [htry]), h]

theorem State.issue_of_cause {code : Nat} {addr : DWord} (h : s.fetchGroup c = .cause code addr) :
    s.issue a = .next ((s.begin a).raise c { code := code, mask := c.ent.mask, addr := addr }) := by
  unfold State.issue
  rw [hctx]
  dsimp only
  rw [if_neg (by simp [htry]), h]

end

end Sys2Proof.Machine

namespace Sys2Proof.Proofs

open Sys2Proof.Machine

/-- Settles O56: a step performs the next move, and of an issue the bytes that decide the group decide what is fetched. -/
theorem stepRunsTheDecodedInstruction : Obligations.StepRunsTheDecodedInstruction := by
  unfold Obligations.StepRunsTheDecodedInstruction
  refine ⟨State.readTokens_unnoted, fun s hpower => ⟨fun m rest h => ?agenda, fun i x s' h => step_of_nextMove hpower h,
    fun a s' c bs h hctx htry hlen hreads => ?issue⟩⟩
  case agenda =>
    unfold State.nextMove
    rw [h]
  case issue =>
    have hstep : step s = s'.ticked.issue a := step_of_nextMove hpower h
    refine ⟨fun i r hdec hlegal => ?_, fun hdec => ?_, fun e hdec hmore he => ?_⟩
    · exact hstep.trans (State.issue_of_op hctx htry (State.fetchGroup_op hlen hreads hdec hlegal))
    · exact hstep.trans (State.issue_of_cause hctx htry (State.fetchGroup_illegal hlen hreads hdec))
    · exact hstep.trans (State.issue_of_cause hctx htry (State.fetchGroup_unfetched hlen hreads hdec hmore he))

end Sys2Proof.Proofs

/-!
SUPPORT. Barriers (R154 to R157, R167): an entry that begins a wait, and when a barrier is met at once.
-/

namespace Sys2Proof.Machine

/-- An attached issuer meets a barrier by its level's scope: at FAB and SURV the release part comes first (R154 to R157). -/
theorem State.meetAt_attached {s : State} {c : Ctx} (n : Nat) (hc : c.front = true ∨ c.tray.landed = none) :
    s.meetAt c n =
      if scopeOf c.launch n = 4 then s.afterAcks c false .all (fun _ => true) fun s => s.waitAt c (.meet n)
      else if scopeOf c.launch n = 5 then
        s.afterAcks c false .all (fun _ => true) fun s => s.survive c fun s => s.waitAt c (.meet n)
      else s.waitAt c (.meet n) := by
  have hdetached : c.detached = false := by
    unfold Ctx.detached
    rcases hc with hc | hc <;> simp [hc]
  unfold State.meetAt scopeOf
  rw [hdetached]
  cases c.launch.levels[n]? <;> simp

/-- Where the writes that a release waits for are acknowledged, a barrier of an attached tray is met at once (R154 to R157). -/
theorem State.meetAt_arrives {s : State} {c : Ctx} {n : Nat} (hc : c.front = true ∨ c.tray.landed = none) (hm : MeetsAtOnce s c n) :
    s.meetAt c n = s.waitAt c (.meet n) := by
  have hacked (hack : NoneUnacked s c) (k : State → State) : s.afterAcks c false .all (fun _ => true) k = k s :=
    s.afterAcks_acked c false .all _ k fun x hx hdue => absurd hdue (by simp [hack x hx])
  rw [State.meetAt_attached n hc]
  rcases hm with hlow | ⟨h4 | ⟨h5, hver⟩, hack⟩
  · have h4 : scopeOf c.launch n ≠ 4 := by omega
    have h5 : scopeOf c.launch n ≠ 5 := by omega
    simp [h4, h5]
  · simp [h4, hacked hack]
  · simp [h5, hacked hack, s.survive_version c _ hver]

/-- A detached tray passes every barrier (R221). -/
theorem State.meetAt_detached {s : State} {c : Ctx} (n : Nat) (hf : c.front = false) (hl : c.tray.landed.isSome = true) :
    s.meetAt c n = s.retire c := by
  unfold State.meetAt Ctx.detached
  rw [if_pos (by simp [hf, hl])]

theorem exec_meet {s u : State} {c : Ctx} (h : Issues s Pfx.empty 4 {} c u) :
    exec .meet s = .next (u.meetAt c c.launch.teamLevel) := congrArg Host.Outcome.next (h.run _)

/-- MEETL at a level of the launch other than level 0. -/
theorem exec_meetl {s u : State} {c : Ctx} {f : FMeet} (h : Issues s Pfx.empty 4 {} c u) (hn : f.n ≠ 0)
    (hl : f.n.toNat < c.launch.levels.length) : exec (.meetl f) s = .next (u.meetAt c f.n.toNat) := by
  have hn' : f.n.toNat ≠ 0 := fun e => hn (BitVec.eq_of_toNat_eq e)
  refine (congrArg Host.Outcome.next (h.run _)).trans (congrArg Host.Outcome.next (if_neg ?_))
  simpa using ⟨hn', hl⟩

theorem exec_meetl_illegal {s u : State} {c : Ctx} {f : FMeet} (h : Issues s Pfx.empty 4 {} c u)
    (hn : f.n = 0 ∨ c.launch.levels.length ≤ f.n.toNat) :
    exec (.meetl f) s = .next (u.raise c { code := 0x01, mask := c.act }) := by
  refine (congrArg Host.Outcome.next (h.run _)).trans (congrArg Host.Outcome.next (if_pos ?_))
  rcases hn with hn | hn <;> simp [hn]

end Sys2Proof.Machine

namespace Sys2Proof.Proofs

open Sys2Proof.Machine

/-- Settles O22: a barrier that is met at once only begins its entry's wait, a detached tray's group retires, and a level that the
launch does not have is refused before either. -/
theorem barriersHoldTheirEntry : Obligations.BarriersHoldTheirEntry := by
  unfold Obligations.BarriersHoldTheirEntry
  refine ⟨fun s s' c h hc hm => ?meet, fun f s s' c h hc hn hl hm => ?meetl, fun f s s' c h hf hl => ⟨?passes, fun hn hlev => ?passesl⟩,
    fun f s s' c h hn => exec_meetl_illegal h hn⟩
  case meet => exact ⟨_, (exec_meet h).trans (by rw [State.meetAt_arrives hc hm]), h.acts_waitAt _⟩
  case meetl => exact ⟨_, (exec_meetl h hn hl).trans (by rw [State.meetAt_arrives hc hm]), h.acts_waitAt _⟩
  case passes => exact ⟨_, (exec_meet h).trans (by rw [State.meetAt_detached _ hf hl]), h.acts_retire rfl rfl⟩
  case passesl => exact ⟨_, (exec_meetl h hn hlev).trans (by rw [State.meetAt_detached _ hf hl]), h.acts_retire rfl rfl⟩

end Sys2Proof.Proofs

/-!
SUPPORT. Threads that end (R168, R169): the tray after its slots left it, and what a tray without threads comes to.
-/

namespace Sys2Proof.Machine

/-- A tray with neither threads nor a trap's threads to go back to. -/
def Tray.spent (tr : Tray) : Prop := tr.frontier = [] ∧ (tr.trap.map (·.frontier)).getD [] = []

/-- A tray once the slots of a mask have ended as threads (R168). -/
def Tray.ended (tr : Tray) (m : BitVec 32) : Tray :=
  { tr.without m with remap := Slots.gen fun t => if m.getLsbD t.val then none else tr.remap[t] }

theorem State.endSlots_eq (s : State) (id : Nat) (m : BitVec 32) : s.endSlots id m = (s.modTray id (·.ended m)).checkTray id := rfl

theorem Tray.ended_frontier (tr : Tray) (m : BitVec 32) : (tr.ended m).frontier = cutMask tr.frontier m := rfl

theorem Tray.ended_remap (tr : Tray) (m : BitVec 32) (u : Fin 32) :
    (tr.ended m).remap[u] = if m.getLsbD u.val then none else tr.remap[u] := Slots.gen_get _ u

/-- No entry keeps a slot when every slot leaves. -/
theorem cutMask_allOnes (es : List Entry) : cutMask es (BitVec.allOnes 32) = [] := by
  unfold cutMask
  rw [List.filter_eq_nil_iff]
  intro e he
  obtain ⟨x, -, rfl⟩ := List.mem_map.1 he
  simp

/-- Once all its slots have ended a tray is spent, in a trap too. -/
theorem Tray.ended_allOnes_spent (tr : Tray) : (tr.ended (BitVec.allOnes 32)).spent := by
  refine ⟨cutMask_allOnes tr.frontier, ?_⟩
  change ((tr.trap.map _).map _).getD [] = []
  cases tr.trap with
  | none => rfl
  | some ts => exact cutMask_allOnes ts.frontier

/-- A tray that has a thread stays as it is. -/
theorem State.checkTray_busy {s : State} {id : Nat} {tr : Tray} (ht : s.tray? id = some tr) (hf : tr.frontier ≠ []) :
    s.checkTray id = s := by
  unfold State.checkTray
  rw [ht]
  exact if_pos (by simpa using hf)

theorem State.tray?_modTray_self {s : State} {id : Nat} {tr : Tray} (ht : s.tray? id = some tr) (g : Tray → Tray)
    (hg : ∀ x, (g x).id = x.id) : (s.modTray id g).tray? id = some (g tr) := by
  rw [s.tray?_modTray id id g hg, ht]
  simp [State.tray?_id ht]

/-- A tray whose trap is over. -/
def Tray.untrapped (tr : Tray) : Tray := { tr with trap := none }

/-- A tray that has ended is gone, whatever ends with it. -/
theorem State.endTray_gone (s : State) (id : Nat) : (s.endTray id).tray? id = none := by
  unfold State.endTray
  split
  case h_1 hnone => exact hnone
  case h_2 tr _ =>
    rw [State.tray?, List.find?_eq_none]
    intro x hx
    obtain ⟨y, hy, hid, -⟩ := ((winds_poolFreed _ tr.bench tr.lane tr.landed.isSome).trans (winds_checkTeam _ tr.team)).trays x hx
    rw [← hid]
    simpa using (List.mem_filter.1 hy).2

/-- A spent tray ends, or stays without a thread until its spawned threads' records are written (R143, R168). -/
theorem State.checkTray_spent {s : State} {id : Nat} {tr : Tray} (ht : s.tray? id = some tr) (hs : tr.spent) :
    (s.checkTray id).tray? id = none ∨ ∃ x, (s.checkTray id).tray? id = some x ∧ x.frontier = [] := by
  obtain ⟨hf, htrap⟩ := hs
  have hstays : (s.modTray id Tray.untrapped).tray? id = some tr.untrapped := State.tray?_modTray_self ht _ fun _ => rfl
  have hchecked : s.checkTray id = s.modTray id Tray.untrapped ∨ s.checkTray id = (s.modTray id Tray.untrapped).endTray id := by
    unfold State.checkTray
    rw [ht]
    dsimp only
    rw [hf, htrap]
    rw [if_neg (by simp)]
    dsimp only
    split
    · split
      · exact .inl rfl
      · exact .inr rfl
    · exact .inr rfl
  rcases hchecked with h | h
  · exact .inr ⟨tr.untrapped, by rw [h]; exact hstays, hf⟩
  · exact .inl (by rw [h]; exact State.endTray_gone _ id)

/-- What a retired group leaves of its tray: the frontier is the entry's past, the still part is the tray's. -/
theorem Issues.tray_retire {s u : State} {p : Pfx} {size : Nat} {r : Req} {c : Ctx} (h : Issues s p size r c u) (hf : c.front = false) :
    ∃ tr, (u.retire c).tray? c.tray.id = some tr ∧ tr.frontier = mergeAll (modAt (fun _ => c.past) c.tray.frontier c.entry) ∧
      tr.still = c.tray.still := by
  have hstill := tray?_still_eq (congrArg State.trays (u.retire_still c)) c.tray.id
  have hflow := (h.acts_retire rfl rfl).flow.trays c.tray.id
  rw [h.tray hf, Option.map_some] at hstill hflow
  obtain ⟨tr, htr, he⟩ := Option.map_eq_some_iff.1 hstill
  rw [htr, Option.map_some, if_pos ⟨hf, rfl⟩] at hflow
  exact ⟨tr, htr, Option.some.inj hflow, he⟩

theorem exec_exit {s u : State} {p : Pfx} {c : Ctx} (h : Issues s p (groupSize p) {} c u) :
    exec (.exit p) s = .next ((u.retire c).endSlots c.tray.id c.act) := congrArg Host.Outcome.next (h.run _)

theorem exec_kill {s u : State} {c : Ctx} (h : Issues s Pfx.empty 4 {} c u) :
    exec .kill s = .next ((u.counted c).endSlots c.tray.id (BitVec.allOnes 32)) := congrArg Host.Outcome.next (h.run _)

/-- Ending threads of a tray leaves every register and byte as it is. -/
theorem State.sameFiles_ended (s : State) (id : Nat) (m : BitVec 32) :
    (∀ o r, (s.modTray id (·.ended m)).held o r = s.held o r) ∧ SameBytes s (s.modTray id (·.ended m)) :=
  ⟨s.held_modTray_same id _ (fun _ => rfl) fun _ r => Tray.reg_congr rfl rfl rfl rfl r,
    s.byteSeen_modTray id _ (fun _ => rfl) fun _ => rfl⟩

end Sys2Proof.Machine

namespace Sys2Proof.Proofs

open Sys2Proof.Machine

/-- Settles O24: the group retires, or with KILL is counted, and its slots leave their tray; a tray with a thread left stays as it is then,
and one without goes or waits without a thread. -/
theorem exitAndKillEndThreads : Obligations.ExitAndKillEndThreads := by
  unfold Obligations.ExitAndKillEndThreads
  refine ⟨fun p s s' c h hf => ⟨_, exec_exit h, fun hne => ?stays, fun hnil htrap => ?ends⟩, fun s s' c h hf => ⟨_, exec_kill h, ?killed⟩⟩
  case stays =>
    obtain ⟨tr, htr, hfront, hstill⟩ := h.tray_retire hf
    have hend : ((s'.retire c).modTray c.tray.id (·.ended c.act)).tray? c.tray.id = some (tr.ended c.act) :=
      State.tray?_modTray_self htr _ fun _ => rfl
    rw [State.endSlots_eq, State.checkTray_busy hend (by rwa [Tray.ended_frontier, hfront])]
    have hremap : tr.remap = c.tray.remap := (congrArg Tray.remap hstill :)
    obtain ⟨hheld, hbytes⟩ := (s'.retire c).sameFiles_ended c.tray.id c.act
    refine ⟨_, hend, by rw [Tray.ended_frontier, hfront], fun u => ?_, fun o r => ?_, fun ks l => ?_⟩
    · rw [Tray.ended_remap, hremap]
    · rw [hheld, State.held_retire]
    · rw [hbytes, sameBytes_of_still (s'.retire_still c)]
  case ends =>
    obtain ⟨tr, htr, hfront, hstill⟩ := h.tray_retire hf
    have htrap' : tr.trap = none := (congrArg Tray.trap hstill :).trans htrap
    refine State.checkTray_spent (State.tray?_modTray_self htr (·.ended c.act) fun _ => rfl) ⟨by rwa [Tray.ended_frontier, hfront], ?_⟩
    simp [Tray.ended, Tray.without, htrap']
  case killed =>
    have hcounted := tray?_still_eq (congrArg State.trays (s'.counted_still c)) c.tray.id
    rw [h.tray hf] at hcounted
    obtain ⟨tr, htr, -⟩ := Option.map_eq_some_iff.1 hcounted
    exact State.checkTray_spent (State.tray?_modTray_self htr (·.ended (BitVec.allOnes 32)) fun _ => rfl) tr.ended_allOnes_spent

end Sys2Proof.Proofs

/-!
SUPPORT. LOOP (R149, R150, R165): what its body is judged by, and the loop that it opens or skips.
-/

namespace Sys2Proof.Machine

/-- Where a LOOP's body starts. -/
def Ctx.loopStart (c : Ctx) (p : Pfx) : DWord := c.ent.pc + BitVec.ofNat 64 (groupSize p)

/-- Where a LOOP's body ends (R165). -/
def Ctx.loopStop (c : Ctx) (p : Pfx) (f : FLoop) : DWord := c.ent.pc + BitVec.ofNat 64 (groupSize p - 4 + 2 * loopSpan p f)

/-- The open loops of an entry, with their counters and ends. -/
def Ctx.openLoops (c : Ctx) : List (BitVec 2 × Nat) := c.ent.loops.map fun l => (l.lc, l.stop.toNat)

/-- A LOOP's counter is free and its body ends within every open loop (R149). -/
def Ctx.loopFits (c : Ctx) (p : Pfx) (f : FLoop) : Bool :=
  !(c.openLoops.any fun o => o.1 == f.lc || o.2 < (c.loopStop p f).toNat)

/-- A LOOP's body breaks no restriction (R149). -/
def State.loopBodyOk (s : State) (c : Ctx) (p : Pfx) (f : FLoop) : Bool :=
  State.bodyOk (loopSpan p f + 1) s c ((f.lc, (c.loopStop p f).toNat) :: c.openLoops) (c.loopStart p).toNat (c.loopStop p f).toNat

theorem loopSpan_eq (p : Pfx) (f : FLoop) : loopSpan p f = match p.imm with | some i => i.toNat | none => f.e.toNat := by
  unfold loopSpan Pfx.immNat
  cases p.imm <;> rfl

/-- A body is judged by the code alone, whatever cursors the group advances. -/
theorem State.bodyOk_adv (s : State) (c : Ctx) (adv : List (BitVec 7)) (n : Nat) :
    ∀ open_ pos stop, State.bodyOk n s { c with adv := adv } open_ pos stop = State.bodyOk n s c open_ pos stop := by
  induction n with
  | zero => intros; rfl
  | succ n ih => intros; simp only [State.bodyOk, ih]; rfl

theorem Ctx.loopFits_iff (c : Ctx) (p : Pfx) (f : FLoop) :
    c.loopFits p f = true ↔ ∀ l ∈ c.ent.loops, l.lc ≠ f.lc ∧ (c.loopStop p f).toNat ≤ l.stop.toNat := by
  simp [Ctx.loopFits, Ctx.openLoops]

/-- What a LOOP with a legal body makes of its entry: past the end at a count of 0, else inside the loop that it opens (R165). -/
def Ctx.looped (c : Ctx) (p : Pfx) (f : FLoop) (e : Entry) : Entry :=
  let n := c.val (.reg f.a 1 f.ta .int) c.low
  if n = 0 then { e.flowTo (c.loopStop p f) with wait := .none }
  else
    { e with
      pc := c.loopStart p
      wait := .none
      loops := { lc := f.lc, count := n, start := c.loopStart p, stop := c.loopStop p f } :: e.loops }

theorem exec_loop_legal {s u : State} {p : Pfx} {f : FLoop} {c : Ctx}
    (h : Issues s p (groupSize p) { srcs := [.reg f.a 1 f.ta .int] } c u) (hfit : c.loopFits p f = true)
    (hbody : s.loopBodyOk c p f = true) :
    exec (.loop p f) s = .next (((u.advance c).modEntry c (c.looped p f)).counted c) := by
  change execLoop p f s = _
  unfold execLoop
  dsimp only
  rw [h.agent]
  dsimp only
  refine (if_pos (Bool.and_eq_true_iff.2 ⟨hfit, (s.bodyOk_adv c [] _ _ _ _).trans hbody⟩)).trans ?_
  rw [h.run]
  unfold Ctx.looped
  simp only [beq_iff_eq]
  rfl

theorem exec_loop_illegal {s : State} {p : Pfx} {f : FLoop} {c : Ctx} (h : s.issuer p (groupSize p) = some c)
    (hbad : c.loopFits p f = false ∨ s.loopBodyOk c p f = false) :
    exec (.loop p f) s = .next (s.raise c { code := 0x01, mask := c.act }) := by
  change execLoop p f s = _
  unfold execLoop
  dsimp only
  rw [h]
  refine if_neg ?_
  rw [Bool.not_eq_true, Bool.and_eq_false_iff]
  exact hbad

theorem Issues.acts_modEntry {s u : State} {p : Pfx} {size : Nat} {r : Req} {c : Ctx} (h : Issues s p size r c u) (f : Entry → Entry) :
    Acts u (((u.advance c).modEntry c f).counted c) u c [] (f c.ent) where
  regs := RegsAfter.of_same (fun o x => by rw [State.held_counted, State.held_modEntry, State.held_advance]) _
  rest := by rw [State.counted_still, State.modEntry_still, State.advance_still]
  flow := by
    refine (State.modEntry_moved (u := u.advance c) f (u.stands_advance c) h.entry).congr ?_
    rw [State.counted, State.stands_served]
    exact State.stands_modTeam _ _ _ (by intro x; rfl) (by intro x; exact ⟨rfl, rfl, rfl⟩)

/-- A body whose first group is barred or passes the end breaks a restriction (R149). -/
theorem State.bodyOk_first {s : State} {c : Ctx} {n : Nat} {open_ : List (BitVec 2 × Nat)} {start : DWord} {stop : Nat} {i : Instr}
    {rest : List Byte} (hlt : start.toNat < stop) (hdec : decode ((s.codeAt c start 16).take 12) = .ok (i, rest))
    (hbad : barredInLoop i = true ∨ stop < start.toNat + i.size ∧ 0 < n) :
    State.bodyOk (n + 1) s c open_ start.toNat stop = false := by
  have hne : (start.toNat == stop) = false := by simp; omega
  have hge : ¬stop < start.toNat := by omega
  rw [State.bodyOk]
  simp only [hne, hge, BitVec.ofNat_toNat, BitVec.setWidth_eq, hdec, Bool.false_eq_true, if_false]
  by_cases hbar : barredInLoop i = true
  · rw [if_pos hbar]
  · obtain ⟨hpast, hn⟩ := hbad.resolve_left hbar
    obtain ⟨m, rfl⟩ : ∃ m, n = m + 1 := ⟨n - 1, by omega⟩
    have hend (o : List (BitVec 2 × Nat)) : State.bodyOk (m + 1) s c o (start.toNat + i.size) stop = false := by
      rw [State.bodyOk, if_neg (by simp; omega), if_pos hpast]
    rw [if_neg hbar]
    split
    · split
      · rfl
      · exact hend _
    · exact hend _

/-- A LOOP whose first body group passes the end has a body. -/
theorem Ctx.loopSpan_pos {c : Ctx} {p : Pfx} {f : FLoop} {n : Nat} (hlt : (c.loopStart p).toNat < (c.loopStop p f).toNat)
    (hpast : (c.loopStop p f).toNat < (c.loopStart p).toNat + n) (hn : n ≤ 12) : 0 < loopSpan p f := by
  rw [Nat.pos_iff_ne_zero]
  intro h0
  have hsize : 4 ≤ groupSize p ∧ groupSize p ≤ 20 := by
    have := fun b : Bool => b.toNat_le
    unfold groupSize
    have h1 := this p.imm.isSome
    have h2 := this p.guard.isSome
    have h3 := this p.mod.isSome
    have h4 := this p.ximm.isSome
    omega
  simp only [Ctx.loopStart, Ctx.loopStop, h0, BitVec.toNat_add, BitVec.toNat_ofNat] at hlt hpast
  have := c.ent.pc.isLt
  omega

end Sys2Proof.Machine

namespace Sys2Proof.Proofs

open Sys2Proof.Machine

/-- Settles O20: the body is judged before the run, by the code alone, and what issues then only moves its entry; a first group that is
barred or passes the end is met at once by the judgement (log 91: illegal groups and bytes that cannot be fetched are judged where they
issue, but for what their lengths show). -/
theorem loopOpensOrSkipsItsBody : Obligations.LoopOpensOrSkipsItsBody := by
  unfold Obligations.LoopOpensOrSkipsItsBody
  refine ⟨fun p f s s' c h => ?_, fun p f s c h => ?_⟩
  · intro e
    have he : loopSpan p f = e := loopSpan_eq p f
    clear_value e
    subst he
    intro start stop outer n hfit hbody
    exact ⟨_, exec_loop_legal h ((c.loopFits_iff p f).2 hfit) hbody, h.acts_modEntry _⟩
  · intro e
    have he : loopSpan p f = e := loopSpan_eq p f
    clear_value e
    subst he
    intro start stop outer illegal
    refine ⟨fun ⟨l, hl, hbad⟩ => ?clash, fun hbody => exec_loop_illegal h (.inr hbody), fun i rest hlt hdec hbad => ?first⟩
    case clash =>
      refine exec_loop_illegal h (.inl ?_)
      rw [← Bool.not_eq_true, c.loopFits_iff]
      intro hfit
      obtain ⟨hlc, hstop⟩ := hfit l hl
      exact hbad.elim hlc (Nat.not_lt.2 hstop)
    case first =>
      refine exec_loop_illegal h (.inr (State.bodyOk_first hlt hdec ?_))
      have hsize : i.size ≤ 12 := by
        have := decode_length hdec
        simp at this
        omega
      rcases hbad with hpast | hbad
      · exact .inr ⟨hpast, c.loopSpan_pos hlt hpast hsize⟩
      · left
        rcases hbad with hbad | ⟨b, rfl⟩ | ⟨b, rfl⟩ | ⟨b, rfl⟩ | ⟨q, b, rfl⟩ | ⟨b, rfl⟩ | ⟨b, rfl⟩ | ⟨b, rfl⟩ | ⟨b, rfl⟩ | ⟨b, rfl⟩ |
          ⟨q, rfl⟩ | ⟨q, rfl⟩ | ⟨q, b, rfl⟩ | ⟨b, rfl⟩
        · simp only [List.mem_cons, List.not_mem_nil, or_false] at hbad
          rcases hbad with rfl | rfl | rfl | rfl | rfl <;> rfl
        all_goals rfl

end Sys2Proof.Proofs

/-!
SUPPORT. Merged frontiers (R135), entries that wait to be spawned, and the return from a trap (R169, R178, R179).
-/

namespace Sys2Proof.Machine

theorem mergeInto_forall {P : Entry → Prop} (hu : ∀ a b, P a → P b → P (a.union b)) {e : Entry} (he : P e) {es : List Entry}
    (h : ∀ x ∈ es, P x) : ∀ x ∈ mergeInto es e, P x := by
  induction es with
  | nil => simpa [mergeInto] using he
  | cons y ys ih =>
    obtain ⟨hy, hys⟩ := List.forall_mem_cons.1 h
    unfold mergeInto
    split
    · exact List.forall_mem_cons.2 ⟨hu y e hy he, hys⟩
    · exact List.forall_mem_cons.2 ⟨hy, ih hys⟩

theorem foldl_mergeInto_forall {P : Entry → Prop} (hu : ∀ a b, P a → P b → P (a.union b)) {es : List Entry} (h : ∀ x ∈ es, P x)
    {acc : List Entry} (hacc : ∀ x ∈ acc, P x) : ∀ x ∈ es.foldl mergeInto acc, P x := by
  induction es generalizing acc with
  | nil => exact hacc
  | cons y ys ih =>
    obtain ⟨hy, hys⟩ := List.forall_mem_cons.1 h
    exact ih hys (mergeInto_forall hu hy hacc)

/-- What holds of every entry, and of two as one, holds of the merged entries. -/
theorem mergeAll_forall {P : Entry → Prop} (hu : ∀ a b, P a → P b → P (a.union b)) {es : List Entry} (h : ∀ x ∈ es, P x) :
    ∀ x ∈ mergeAll es, P x := foldl_mergeInto_forall hu h (by simp)

theorem modAt_forall {P : Entry → Prop} {f : Entry → Entry} (hf : ∀ x, P x → P (f x)) {es : List Entry} (h : ∀ x ∈ es, P x) (n : Nat) :
    ∀ x ∈ modAt f es n, P x := by
  induction es generalizing n with
  | nil => simp [modAt]
  | cons y ys ih =>
    obtain ⟨hy, hys⟩ := List.forall_mem_cons.1 h
    cases n with
    | zero => exact List.forall_mem_cons.2 ⟨hf y hy, hys⟩
    | succ n => exact List.forall_mem_cons.2 ⟨hy, ih hys n⟩

/-- A change of the issuing entry alone is the same for the entry found there. -/
theorem modAt_of_get (f : Entry → Entry) {es : List Entry} {n : Nat} {x : Entry} (h : es[n]? = some x) :
    modAt f es n = modAt (fun _ => f x) es n := by
  induction es generalizing n with
  | nil => rfl
  | cons y ys ih =>
    cases n with
    | zero => simp only [List.getElem?_cons_zero, Option.some.injEq] at h; simp [modAt, h]
    | succ n => simp only [List.getElem?_cons_succ] at h; simp [modAt, ih h]

/-- An entry that does not wait for room to spawn. -/
def Entry.settled (e : Entry) : Prop := ∀ n, e.wait ≠ .spawn n

/-- What waits for different things waits for nothing as one (log 13). -/
theorem Entry.settled_union (a b : Entry) (ha : a.settled) (_ : b.settled) : (a.union b).settled := by
  intro n
  unfold Entry.union
  dsimp only
  split
  · exact ha n
  · nofun

/-- Without an entry that waits to be spawned there is nothing to try again. -/
theorem State.retrySpawns_settled {s : State} {team : Nat} (h : ∀ tr ∈ s.trays, tr.team = team → ∀ x ∈ tr.frontier, x.settled) :
    s.retrySpawns team = s := by
  have hidle : ∀ (es : List Entry) (f : State → Entry → Nat → State) (u : State), (∀ x ∈ es, x.settled) →
      es.foldl (fun u e => match e.wait with | .spawn live => f u e live | _ => u) u = u := by
    intro es f u hes
    induction es generalizing u with
    | nil => rfl
    | cons e es ih =>
      obtain ⟨he, hes⟩ := List.forall_mem_cons.1 hes
      have hkeep : (match e.wait with | .spawn live => f u e live | _ => u) = u := by
        split
        · rename_i live hw; exact absurd hw (he live)
        · rfl
      rw [List.foldl_cons, hkeep, ih u hes]
  unfold State.retrySpawns
  have hall : ∀ tr ∈ s.trays.filter fun t => t.team == team, ∀ x ∈ tr.frontier, x.settled := by
    intro tr htr
    obtain ⟨hmem, hteam⟩ := List.mem_filter.1 htr
    exact h tr hmem (by simpa using hteam)
  revert hall
  generalize s.trays.filter (fun t => t.team == team) = trs
  induction trs with
  | nil => intro _; rfl
  | cons tr trs ih =>
    intro hall
    obtain ⟨htr, htrs⟩ := List.forall_mem_cons.1 hall
    rw [List.foldl_cons]
    refine (congrArg (fun u => trs.foldl _ u) ?_).trans (ih htrs)
    exact hidle tr.frontier _ s htr

/-- A tray that has returned from its trap. -/
def Tray.returned (ts : TrapState) (tr : Tray) : Tray :=
  { tr with frontier := mergeAll (ts.restored tr.fcause tr.fmask), trap := none }

/-- The held commands of a trapped tray, queued again (R179). -/
def Cmd.restarted (id : Nat) (k : Cmd) : Cmd :=
  match k.state with
  | .held _ _ _ true => if k.owner == Owner.tray id then { k with state := .queued, tags := [], got := [] } else k
  | _ => k

theorem State.eret_eq (s : State) (c : Ctx) (ts : TrapState) :
    s.eret c ts =
      { { s with stalled := false }.modTray c.tray.id (·.returned ts) with cmds := s.cmds.map (Cmd.restarted c.tray.id) } := rfl

theorem Cmd.restarted_free (id : Nat) (k : Cmd) (h : (k.restarted id).owner = .tray id) :
    ∀ a b d, (k.restarted id).state ≠ .held a b d true := by
  intro a b d
  unfold Cmd.restarted at h ⊢
  split
  · rename_i hst
    rw [hst] at h
    dsimp only at h
    split
    · nofun
    · rename_i hne
      rw [if_neg hne] at h
      exact absurd (by simp [h]) hne
  · rename_i hst
    exact fun heq => hst _ _ _ heq

theorem Entry.settled_flowTo {e : Entry} (h : e.settled) (pc : DWord) : (e.flowTo pc).settled := h

theorem TrapState.restored_settled {ts : TrapState} (h : ∀ x ∈ ts.frontier, x.settled) (fcause : BitVec 8) (fmask : BitVec 32) :
    ∀ x ∈ ts.restored fcause fmask, x.settled := by
  unfold TrapState.restored
  split
  · exact h
  · rename_i e he
    have hpast : (e.flowTo (e.pc + BitVec.ofNat 64 ts.size)).settled := Entry.settled_flowTo (h e (List.mem_of_getElem? he)) _
    split
    · exact modAt_forall (fun _ _ => hpast) h _
    · split
      · refine modAt_forall (fun x hx => ?_) h _
        exact hx
      · exact h

/-- A return from a trap leaves no entry of the team to spawn where none of the saved frontier waits for that. -/
theorem State.retrySpawns_eret {s : State} {c : Ctx} {ts : TrapState} (hts : ∀ x ∈ ts.frontier, x.settled)
    (h : ∀ tr ∈ s.trays, tr.team = c.team.id → ∀ x ∈ tr.frontier, x.settled) :
    (s.eret c ts).retrySpawns c.team.id = s.eret c ts := by
  refine State.retrySpawns_settled fun tr htr hteam => ?_
  rw [State.eret_eq] at htr
  obtain ⟨x, hx, rfl⟩ := List.mem_map.1 htr
  by_cases hid : (x.id == c.tray.id) = true
  · rw [if_pos hid]
    exact mergeAll_forall Entry.settled_union (ts.restored_settled hts _ _)
  · rw [if_neg hid] at hteam ⊢
    exact h x hx hteam

/-- A return from a trap leaves registers, predicates and bytes. -/
theorem State.sameFiles_eret (s : State) (c : Ctx) (ts : TrapState) : SameFiles s (s.eret c ts) := by
  rw [State.eret_eq]
  have hreg : ∀ x r, (Tray.returned ts x).reg r = x.reg r := fun _ r => Tray.reg_congr rfl rfl rfl rfl r
  exact ⟨State.held_modTray_same { s with stalled := false } c.tray.id _ (fun _ => rfl) hreg,
    State.byteSeen_modTray { s with stalled := false } c.tray.id _ (fun _ => rfl) fun _ => rfl,
    State.samePreds_modTray { s with stalled := false } c.tray.id _ (fun _ => rfl) fun _ => rfl⟩

theorem exec_eret {s u : State} {c : Ctx} {ts : TrapState} (h : Issues s Pfx.empty 4 {} c u) (ht : c.tray.trap = some ts) :
    exec .eret s = .next ((u.eret c ts).retrySpawns c.team.id) := by
  refine congrArg Host.Outcome.next ((h.run _).trans ?_)
  rw [ht]

theorem exec_eret_illegal {s u : State} {c : Ctx} (h : Issues s Pfx.empty 4 {} c u) (ht : c.tray.trap = none) :
    exec .eret s = .next (u.raise c { code := 0x01, mask := c.act }) := by
  refine congrArg Host.Outcome.next ((h.run _).trans ?_)
  rw [ht]

end Sys2Proof.Machine

namespace Sys2Proof.Proofs

open Sys2Proof.Machine

/-- Settles O27: the return changes its tray's frontier and trap and the state of its held commands; each cause is a branch of the restored
frontier (the skipped slots after 0x02 are log 70's), and nothing waits to be spawned then. -/
theorem eretReturnsFromATrap : Obligations.EretReturnsFromATrap := by
  unfold Obligations.EretReturnsFromATrap
  refine fun s s' c h hf => ⟨fun ts e hts he hsaved hteam => ?_, exec_eret_illegal h⟩
  have hrun := (exec_eret h hts).trans (congrArg Host.Outcome.next (State.retrySpawns_eret hsaved hteam))
  have htray : (s'.eret c ts).tray? c.tray.id = some (c.tray.returned ts) :=
    State.tray?_modTray_self (s := { s' with stalled := false }) (h.tray hf) _ fun _ => rfl
  have hfront : (c.tray.returned ts).frontier = mergeAll (ts.restored c.tray.fcause c.tray.fmask) := rfl
  obtain ⟨hheld, hbytes, hpreds⟩ := s'.sameFiles_eret c ts
  refine ⟨_, _, hrun, htray, rfl, rfl, rfl, rfl, fun h1a => ?_, fun h02 => ?_, fun h1a h02 => ?_, hheld, hpreds, hbytes, rfl,
    fun k hk ho => ?_⟩
  · rw [hfront, TrapState.restored, he, h1a]
    rfl
  · rw [hfront, TrapState.restored, he, h02]
    exact congrArg mergeAll (modAt_of_get _ he)
  · rw [hfront, TrapState.restored, he]
    dsimp only
    rw [if_neg (by simpa using h1a), if_neg (by simpa using h02)]
  · obtain ⟨k0, -, rfl⟩ := List.mem_map.1 hk
    exact k0.restarted_free _ ho

end Sys2Proof.Proofs

/-!
SUPPORT. Waits that end (R159): what an owner's entries are after they went past their group.
-/

namespace Sys2Proof.Machine

/-! Where one tray's entries, or one strand, stand after a change. -/

theorem State.frontier_modTray (s : State) (id j : Nat) (g : Tray → Tray) (hg : ∀ x, (g x).id = x.id) {F : List Entry → List Entry}
    (hF : ∀ x, (g x).frontier = F x.frontier) :
    ((s.modTray id g).tray? j).map (·.frontier) = (s.tray? j).map fun tr => if j = id then F tr.frontier else tr.frontier := by
  rw [State.tray?_modTray _ _ _ _ hg, Option.map_map]
  cases ht : s.tray? j with
  | none => rfl
  | some tr =>
    simp only [Option.map_some, Function.comp, State.tray?_id ht, beq_iff_eq]
    split <;> simp [hF]

theorem State.samePreds_modFront (s : State) (id : Nat) (g : Front → Front) (hp : ∀ x, (g x).preds = x.preds) :
    SamePreds s (s.modFront id g) := by
  refine ⟨fun _ => rfl, fun j => ?_⟩
  rw [State.modFront, State.team?_modTeam _ _ _ _ (by intro x; rfl)]
  cases s.team? j with
  | none => rfl
  | some tm =>
    simp only [Option.map_some]
    split <;> simp [hp]

theorem samePreds_of_still {s t : State} (h : t.still = s.still) : SamePreds s t := by
  refine ⟨fun id => ?_, fun id => ?_⟩
  · have := congrArg (Option.map Tray.preds) (tray?_still_eq (congrArg State.trays h) id)
    rw [Option.map_map, Option.map_map] at this
    exact this
  · have := congrArg (Option.map fun tm : Team => tm.front.preds) (team?_still_eq (congrArg State.teams h) id)
    rw [Option.map_map, Option.map_map] at this
    exact this

theorem SameFiles.of_congr {s u : State} (hheld : ∀ o r, u.held o r = s.held o r) (hstill : u.still = s.still) : SameFiles s u :=
  ⟨hheld, sameBytes_of_still hstill, samePreds_of_still hstill⟩

/-! An owner that goes on. -/

/-- An entry that stands in a wait goes past its group. -/
def Entry.woken (w : Wait) (size : Nat) (e : Entry) : Entry := if e.wait == w then e.past size else e

/-- A tray whose entries that stand in a wait go past their group. -/
def Tray.woken (w : Wait) (size : Nat) (tr : Tray) : Tray :=
  { tr with
    frontier := mergeAll (tr.frontier.map (Entry.woken w size))
    trap := tr.trap.map fun ts => { ts with frontier := ts.frontier.map (Entry.woken w size) } }

/-- A strand that goes past its group where it stands in a wait. -/
def Front.woken (w : Wait) (size : Nat) (fr : Front) : Front :=
  if fr.wait == w then
    { fr with
      pc := (loopEnd (fr.pc + BitVec.ofNat 64 size) fr.loops).1
      loops := (loopEnd (fr.pc + BitVec.ofNat 64 size) fr.loops).2
      wait := .none }
  else fr

theorem State.wake_tray (s : State) (id : Nat) (w : Wait) (size : Nat) : s.wake (.tray id) w size = s.modTray id (Tray.woken w size) := rfl

theorem State.wake_front (s : State) (id : Nat) (w : Wait) (size : Nat) : s.wake (.front id) w size = s.modFront id (Front.woken w size) := rfl

theorem Front.woken_kept (w : Wait) (size : Nat) (fr : Front) : (fr.woken w size).fregs = fr.fregs ∧ (fr.woken w size).preds = fr.preds := by
  unfold Front.woken
  split <;> exact ⟨rfl, rfl⟩

theorem Front.woken_place (w : Wait) (size : Nat) (fr : Front) :
    ((fr.woken w size).pc, (fr.woken w size).loops, (fr.woken w size).wait) =
      if fr.wait = w then ((loopEnd (fr.pc + BitVec.ofNat 64 size) fr.loops).1, (loopEnd (fr.pc + BitVec.ofNat 64 size) fr.loops).2, Wait.none)
      else (fr.pc, fr.loops, fr.wait) := by
  unfold Front.woken
  by_cases h : fr.wait = w <;> simp [h]

theorem Entry.woken_eq (w : Wait) (size : Nat) : Entry.woken w size = fun e => if e.wait = w then goneOn e size else e := by
  funext e
  unfold Entry.woken
  by_cases h : e.wait = w
  · simp only [h, beq_self_eq_true, if_true]
    rfl
  · simp [h]

/-- Going on leaves registers, bytes and predicates. -/
theorem State.sameFiles_wake (s : State) (o : Owner) (w : Wait) (size : Nat) : SameFiles s (s.wake o w size) := by
  cases o with
  | tray id =>
    exact ⟨s.held_modTray_same id _ (fun _ => rfl) fun _ r => Tray.reg_congr rfl rfl rfl rfl r,
      s.byteSeen_modTray id _ (fun _ => rfl) fun _ => rfl, s.samePreds_modTray id _ (fun _ => rfl) fun _ => rfl⟩
  | front id =>
    exact ⟨s.held_modTeam_same id _ (fun _ => rfl) fun x r => Front.reg_congr (x.front.woken_kept w size).1 r,
      s.byteSeen_modFront id _, s.samePreds_modFront id _ fun x => (x.woken_kept w size).2⟩

theorem State.trays_wake (s : State) (o : Owner) (w : Wait) (size id : Nat) :
    ((s.wake o w size).tray? id).map (·.frontier) = (s.tray? id).map fun tr =>
      if o = .tray id then mergeAll (tr.frontier.map fun e => if e.wait = w then goneOn e size else e) else tr.frontier := by
  cases o with
  | front j =>
    simp only [reduceCtorEq, if_false]
    rfl
  | tray j =>
    rw [State.wake_tray, s.frontier_modTray j id (Tray.woken w size) (fun _ => rfl) (F := fun es => mergeAll (es.map (Entry.woken w size)))
      fun _ => rfl, Entry.woken_eq]
    simp only [Owner.tray.injEq, @eq_comm _ j id]

theorem State.fronts_wake (s : State) (o : Owner) (w : Wait) (size id : Nat) :
    ((s.wake o w size).team? id).map (fun tm => (tm.front.pc, tm.front.loops, tm.front.wait)) = (s.team? id).map fun tm =>
      if o = .front id ∧ tm.front.wait = w then
        ((loopEnd (tm.front.pc + BitVec.ofNat 64 size) tm.front.loops).1, (loopEnd (tm.front.pc + BitVec.ofNat 64 size) tm.front.loops).2,
          Wait.none)
      else (tm.front.pc, tm.front.loops, tm.front.wait) := by
  cases o with
  | tray j =>
    simp only [reduceCtorEq, false_and, if_false]
    rfl
  | front j =>
    rw [State.wake_front, State.modFront, State.team?_modTeam _ _ _ _ (by intro x; rfl), Option.map_map]
    cases ht : s.team? id with
    | none => rfl
    | some tm =>
      simp only [Option.map_some, Function.comp, State.team?_id ht, beq_iff_eq, Owner.front.injEq, @eq_comm _ j id]
      by_cases hid : id = j
      · simp only [hid, if_true, true_and]
        exact congrArg some (tm.front.woken_place w size)
      · simp [hid]

/-- What a wake leaves of a state that another became without moving its agents. -/
theorem State.woken_wake {s u : State} {o : Owner} {w : Wait} {size : Nat} {ws : List RegWrite} (hregs : RegsAfter s u o ws)
    (hstands : u.stands = s.stands) (hbytes : SameBytes s u) (hpreds : SamePreds s u)
    (hrest : u.cmds = s.cmds ∧ u.prods = s.prods ∧ u.ctxs = s.ctxs ∧ u.launches = s.launches ∧ u.outbox = s.outbox ∧ u.fab = s.fab) :
    Woken s (u.wake o w size) o w size ws where
  regs o' r := ((u.sameFiles_wake o w size).held o' r).trans (hregs o' r)
  trays id := by
    have h := congrArg (Option.map fun es => if o = .tray id then mergeAll (es.map fun e => if e.wait = w then goneOn e size else e) else es)
      (State.stands_tray hstands id)
    rw [Option.map_map, Option.map_map] at h
    exact (u.trays_wake o w size id).trans h
  fronts id := by
    have h := congrArg (Option.map fun x : DWord × List Loop × Wait => if o = .front id ∧ x.2.2 = w then
      ((loopEnd (x.1 + BitVec.ofNat 64 size) x.2.1).1, (loopEnd (x.1 + BitVec.ofNat 64 size) x.2.1).2, Wait.none) else x)
      (State.stands_team hstands id)
    rw [Option.map_map, Option.map_map] at h
    exact (u.fronts_wake o w size id).trans h
  bytes ks l := ((u.sameFiles_wake o w size).bytes ks l).trans (hbytes ks l)
  preds := ⟨fun id => ((u.sameFiles_wake o w size).preds.1 id).trans (hpreds.1 id),
    fun id => ((u.sameFiles_wake o w size).preds.2 id).trans (hpreds.2 id)⟩
  rest := by cases o <;> exact hrest

/-! WAITNE. -/

theorem State.putRegs_append (s : State) (o : Owner) (xs ys : List RegWrite) : s.putRegs o (xs ++ ys) = (s.putRegs o xs).putRegs o ys :=
  List.foldl_append ..

/-- The watched words are written as registers, watch by watch. -/
theorem State.watched_eq (s : State) (keys : List VKey) (o : Owner) (ws : List Watch) :
    s.watched keys o ws = s.putRegs o (watchWrites ws fun w => (w.word s keys).getD 0) := by
  unfold State.watched watchWrites
  dsimp only
  rw [List.foldl_map]
  generalize hv : (fun w : Watch => (w.word s keys).getD 0) = v
  have hv' (w : Watch) : (w.word s keys).getD 0 = v w := congrFun hv w
  simp only [hv']
  clear hv hv'
  induction ws generalizing s with
  | nil => rfl
  | cons w ws ih => rw [List.foldl_cons, List.flatMap_cons, State.putRegs_append, ih]

theorem Watch.word_local {w : Watch} (h : ∀ d a, w.loc ≠ .peer d a) (s : State) (cx : Context) (ver : Nat) :
    w.word s (cx.keys ver) = some (wordOf s cx ver w) := by
  unfold Watch.word
  split
  · rename_i d a hloc; exact absurd hloc (h d a)
  · rfl

/-- The cursors of a tray after a WAITNE's operands advanced. -/
def Tray.watchedCursors (ws : List Watch) (adv : List (BitVec 7)) (tr : Tray) : Tray :=
  { tr with cursors := (adv.foldl (fun tr x => tr.advance (watchMask ws) x) tr).cursors }

theorem Tray.watchedCursors_eq (ws : List Watch) (adv : List (BitVec 7)) (tr : Tray) :
    adv.foldl (fun tr x => tr.advance (watchMask ws) x) tr = tr.watchedCursors ws adv := by
  unfold Tray.watchedCursors
  induction adv generalizing tr with
  | nil => rfl
  | cons x xs ih =>
    rw [List.foldl_cons, ih]
    unfold Tray.advance
    split <;> rfl

/-- An owner that went on with a result is so with its cursors advanced. -/
theorem Woken.watchedCursors {s t : State} {o : Owner} {w : Wait} {size : Nat} {rs : List RegWrite} (h : Woken s t o w size rs) (id : Nat)
    (ws : List Watch) (adv : List (BitVec 7)) : Woken s (t.modTray id (·.watchedCursors ws adv)) o w size rs where
  regs o' r := (t.held_modTray_same id (·.watchedCursors ws adv) (fun _ => rfl) (fun _ r => Tray.reg_congr rfl rfl rfl rfl r) o' r).trans (h.regs o' r)
  trays j := by
    rw [t.frontier_modTray id j (·.watchedCursors ws adv) (fun _ => rfl) (F := fun es => es) fun _ => rfl]
    simpa using h.trays j
  fronts := h.fronts
  bytes ks l := (t.byteSeen_modTray id (·.watchedCursors ws adv) (fun _ => rfl) (fun _ => rfl) ks l).trans (h.bytes ks l)
  preds :=
    have k := t.samePreds_modTray id (·.watchedCursors ws adv) (fun _ => rfl) fun _ => rfl
    ⟨fun j => (k.1 j).trans (h.preds.1 j), h.preds.2⟩
  rest := h.rest

/-- The end of a WAITNE whose words are this device's (R253). -/
theorem State.woken_endWatch {s : State} {cx : Context} {ver : Nat} {o : Owner} {ws : List Watch} (hloc : ∀ w ∈ ws, ∀ d a, w.loc ≠ .peer d a)
    (hregs : ∀ w ∈ ws, ∀ r ∈ w.regs, s.has o r = true) (t0 size : Nat) (adv : List (BitVec 7)) (rg : Option (Nat × Nat)) :
    Woken s (s.endWatch (cx.keys ver) o t0 size ws adv rg) o (.waitne t0 size ws adv rg) size (watchWrites ws (wordOf s cx ver)) := by
  have hwrites : watchWrites ws (fun w => (w.word s (cx.keys ver)).getD 0) = watchWrites ws (wordOf s cx ver) := by
    unfold watchWrites
    exact congrArg List.flatten (List.map_congr_left fun w hw => by dsimp only; rw [w.word_local (hloc w hw)]; rfl)
  have hhas : ∀ x ∈ watchWrites ws (wordOf s cx ver), s.has o x.reg = true := by
    intro x hx
    obtain ⟨w, hw, hx⟩ := List.mem_flatMap.1 hx
    obtain ⟨r, hr, rfl⟩ := List.mem_map.1 hx
    exact hregs w hw r hr
  have hstill := State.putRegs_still o (watchWrites ws (wordOf s cx ver)) s
  have hw := State.woken_wake (w := .waitne t0 size ws adv rg) (size := size) (State.putRegs_regs o _ s hhas) (State.stands_putRegs o _ s)
    (sameBytes_of_still hstill) (samePreds_of_still hstill) ⟨(congrArg State.cmds hstill :), (congrArg State.prods hstill :), (congrArg State.ctxs hstill :),
      (congrArg State.launches hstill :), (congrArg State.outbox hstill :), (congrArg State.fab hstill :)⟩
  unfold State.endWatch
  rw [State.watched_eq, hwrites]
  cases o with
  | front id => exact hw
  | tray id =>
    simp only [Tray.watchedCursors_eq]
    exact hw.watchedCursors id ws adv

/-! The events. -/

theorem exec_waittWake {s : State} {o : Owner} {v : DWord} {size : Nat} (ho : ownerOf s.input.agent = some o)
    (hw : s.waitOf s.input.agent = .waitt v size) (hv : v.toInt ≤ s.time) : exec .waittWake s = .next (s.wake o (.waitt v size) size) := by
  change execWaittWake s = _
  unfold execWaittWake
  dsimp only
  rw [hw, ho]
  dsimp only
  rw [if_pos hv]

theorem State.modPast_eq (s : State) (f : Past → Past) : s.modPast f = { s with past := (s.modPast f).past } := by
  unfold State.modPast
  split <;> rfl

theorem exec_acqWake {s : State} {o : Owner} {l : Loc} {v va : DWord} {size tag n : Nat} {m : BitVec 32} {tm : Team} {la : Launch} {cx : Context}
    (ho : ownerOf s.input.agent = some o) (hw : s.waitOf s.input.agent = .acq l v size tag va n m)
    (hc : s.ownerCtx o = some (tm, la, cx)) (hl : ∀ d a, l ≠ .peer d a)
    (hv : (BitVec.ofNat 64 (leNat (s.seen (cx.keys la.ver) l 8)) - v).toNat < 2 ^ 63) :
    exec .acqWake s = .next ((s.acquireOn cx o m (.object va.toNat) n).wake o (.acq l v size tag va n m) size) := by
  change execAcqWake s = _
  unfold execAcqWake
  dsimp only
  rw [hw, ho]
  dsimp only
  rw [hc]
  dsimp only
  split
  · exact absurd rfl (hl _ _)
  · rw [if_pos (show reached _ v = true by simpa [reached] using hv)]
    rfl

theorem exec_waitneWake {s : State} {o : Owner} {t0 size : Nat} {ws : List Watch} {adv : List (BitVec 7)} {rg : Option (Nat × Nat)} {tm : Team}
    {la : Launch} {cx : Context} (ho : ownerOf s.input.agent = some o) (hw : s.waitOf s.input.agent = .waitne t0 size ws adv rg)
    (hc : s.ownerCtx o = some (tm, la, cx)) (hloc : ∀ w ∈ ws, ∀ d a, w.loc ≠ .peer d a) (hdiff : ∀ w ∈ ws, wordOf s cx la.ver w ≠ w.cmp) :
    exec .waitneWake s = .next (s.endWatch (cx.keys la.ver) o t0 size ws adv rg) := by
  have hall : s.allDiffer (cx.keys la.ver) ws = true := by
    refine List.all_eq_true.2 fun w hw => ?_
    rw [w.word_local (hloc w hw)]
    simpa using hdiff w hw
  change execWaitneWake s = _
  unfold execWaitneWake
  dsimp only
  rw [hw, ho]
  dsimp only
  rw [hc]
  dsimp only
  rw [if_pos hall]

theorem exec_waitneTimeout {s : State} {o : Owner} {t0 size : Nat} {ws : List Watch} {adv : List (BitVec 7)} {rg : Option (Nat × Nat)} {tm : Team}
    {la : Launch} {cx : Context} (ho : ownerOf s.input.agent = some o) (hw : s.waitOf s.input.agent = .waitne t0 size ws adv rg)
    (hc : s.ownerCtx o = some (tm, la, cx)) (hloc : ∀ w ∈ ws, ∀ d a, w.loc ≠ .peer d a) (ht : t0 + 65536 ≤ s.time) :
    exec .waitneTimeout s = .next (s.endWatch (cx.keys la.ver) o t0 size ws adv rg) := by
  have hall : (ws.all fun w => (w.word s (cx.keys la.ver)).isSome) = true :=
    List.all_eq_true.2 fun w hw => by rw [w.word_local (hloc w hw)]; rfl
  change execWaitneTimeout s = _
  unfold execWaitneTimeout
  dsimp only
  rw [hw, ho]
  dsimp only
  rw [hc]
  dsimp only
  rw [if_neg (Nat.not_lt.2 ht), if_pos hall]

end Sys2Proof.Machine

namespace Sys2Proof.Proofs

open Sys2Proof.Machine

/-- Settles O42: each event finds its wait and wakes the owner, an ACQ after its acquire and a WAITNE after its words; WAITT's time is
compared as a signed number (log 68). -/
theorem waitsEnd : Obligations.WaitsEnd := by
  unfold Obligations.WaitsEnd
  refine ⟨fun s o v size ho hw hv => ⟨_, exec_waittWake ho hw hv, ?_⟩,
    fun s o l v va size tag n m tm la cx ho hw hc hl hv => ⟨_, exec_acqWake ho hw hc hl hv, ?_, ?_⟩, fun x hx => ?_⟩
  · exact State.woken_wake (RegsAfter.of_same (fun _ _ => rfl) o) rfl (fun _ _ => rfl) ⟨fun _ => rfl, fun _ => rfl⟩ ⟨rfl, rfl, rfl, rfl, rfl, rfl⟩
  · rw [State.acquireOn, State.modPast_eq]
    exact State.woken_wake (RegsAfter.of_same (fun _ _ => rfl) o) rfl (fun _ _ => rfl) ⟨fun _ => rfl, fun _ => rfl⟩ ⟨rfl, rfl, rfl, rfl, rfl, rfl⟩
  · cases o <;> rfl
  · simp only [List.mem_cons, List.not_mem_nil, or_false] at hx
    intro s o t0 size ws adv rg tm la cx ho hw hc hloc hregs hend
    rcases hx with rfl | rfl
    · exact ⟨_, exec_waitneWake ho hw hc hloc hend, State.woken_endWatch hloc hregs t0 size adv rg⟩
    · exact ⟨_, exec_waitneTimeout ho hw hc hloc hend, State.woken_endWatch hloc hregs t0 size adv rg⟩

end Sys2Proof.Proofs

/-!
SUPPORT. Splits (R136, R137), branches (R133, R163) and the threads that they spawn (R143).
-/

namespace Sys2Proof.Machine

/-! Merged frontiers. -/

theorem mergeInto_ne_nil (es : List Entry) (e : Entry) : mergeInto es e ≠ [] := by
  cases es with
  | nil => simp [mergeInto]
  | cons x xs =>
    unfold mergeInto
    split <;> simp

theorem mergeInto_length_le (es : List Entry) (e : Entry) : (mergeInto es e).length ≤ es.length + 1 := by
  induction es with
  | nil => simp [mergeInto]
  | cons x xs ih =>
    unfold mergeInto
    split
    · simp
    · simpa using ih

theorem foldl_mergeInto_ne_nil (es : List Entry) {acc : List Entry} (h : acc ≠ []) : es.foldl mergeInto acc ≠ [] := by
  induction es generalizing acc with
  | nil => exact h
  | cons e es ih => exact ih (mergeInto_ne_nil acc e)

theorem foldl_mergeInto_length_le (es acc : List Entry) : (es.foldl mergeInto acc).length ≤ acc.length + es.length := by
  induction es generalizing acc with
  | nil => simp
  | cons e es ih =>
    have := mergeInto_length_le acc e
    have := ih (mergeInto acc e)
    simp only [List.foldl_cons, List.length_cons]
    omega

theorem mergeAll_ne_nil {es : List Entry} (h : es ≠ []) : mergeAll es ≠ [] := by
  cases es with
  | nil => exact absurd rfl h
  | cons e es => exact foldl_mergeInto_ne_nil es (mergeInto_ne_nil [] e)

theorem mergeAll_length_le (es : List Entry) : (mergeAll es).length ≤ es.length := by
  simpa [mergeAll] using foldl_mergeInto_length_le es []

/-! The place of a split. -/

/-- A tray with another frontier. -/
def Tray.withFrontier (es : List Entry) (tr : Tray) : Tray := { tr with frontier := es }

theorem State.stands_counted (s : State) (c : Ctx) : (s.counted c).stands = s.stands := by
  rw [State.counted, State.stands_served]
  exact State.stands_modTeam _ _ _ (by intro x; rfl) (by intro x; exact ⟨rfl, rfl, rfl⟩)

/-- Where a strand stands, but for its wait. -/
theorem State.stands_front {s t : State} (h : t.stands = s.stands) (id : Nat) :
    (t.team? id).map (fun tm => (tm.front.pc, tm.front.loops)) = (s.team? id).map fun tm => (tm.front.pc, tm.front.loops) := by
  have h' := congrArg (Option.map fun x : DWord × List Loop × Wait => (x.1, x.2.1)) (State.stands_team h id)
  rw [Option.map_map, Option.map_map] at h'
  exact h'

theorem State.frontier_counted (s : State) (c : Ctx) (id : Nat) :
    ((s.counted c).tray? id).map (·.frontier) = (s.tray? id).map (·.frontier) := State.stands_tray (s.stands_counted c) id

/-- A tray's new frontier, counted, has a tray with it there. -/
theorem State.tray_counted_withFrontier {s : State} {id : Nat} {tr : Tray} (ht : s.tray? id = some tr) (c : Ctx) (es : List Entry) :
    ∃ x, ((s.modTray id (Tray.withFrontier es)).counted c).tray? id = some x ∧ x.frontier = es := by
  have h := State.frontier_counted (s.modTray id (Tray.withFrontier es)) c id
  rw [State.tray?_modTray_self ht (Tray.withFrontier es) fun _ => rfl] at h
  obtain ⟨x, hx, hf⟩ := Option.map_eq_some_iff.1 h
  exact ⟨x, hx, hf⟩

theorem State.splitTray_fits {s : State} {n id : Nat} {e : Entry} {old places : List Entry} (h : (mergeAll (old ++ places)).length ≤ 6) :
    State.splitTray (n + 1) s id e old places = s.modTray id (Tray.withFrontier (mergeAll (old ++ places))) := by
  rw [State.splitTray]
  exact if_pos h

/-- A branch of tray code is its split, counted, and its tray is looked at. -/
theorem State.branch_tray {s : State} {c : Ctx} (hf : c.front = false) (places : List Entry) :
    s.branch c places = ((State.splitTray 38 s c.tray.id c.ent (c.tray.frontier.eraseIdx c.entry)
      (places.filter fun e => e.mask != 0)).counted c).checkTray c.tray.id := by
  unfold State.branch
  simp [hf]

/-- A split that leaves an entry in its tray's frontier is the whole branch. -/
theorem State.branch_of_split {s u : State} {c : Ctx} {tr : Tray} {places es : List Entry} (hf : c.front = false)
    (ht : u.tray? c.tray.id = some tr) (hne : es ≠ [])
    (hsplit : State.splitTray 38 s c.tray.id c.ent (c.tray.frontier.eraseIdx c.entry) (places.filter fun e => e.mask != 0) =
      u.modTray c.tray.id (Tray.withFrontier es)) :
    s.branch c places = (u.modTray c.tray.id (Tray.withFrontier es)).counted c := by
  obtain ⟨x, hx, hes⟩ := State.tray_counted_withFrontier ht c es
  rw [State.branch_tray hf, hsplit, State.checkTray_busy hx (hes ▸ hne)]

/-- Places that fit in six entries are the issuing entry's own. -/
theorem State.branch_fits {s : State} {c : Ctx} {tr : Tray} {places : List Entry} (hf : c.front = false)
    (ht : s.tray? c.tray.id = some tr) (hfit : c.fit places) (hne : (places.filter fun e => e.mask != 0) ≠ []) :
    s.branch c places = (s.modTray c.tray.id
      (Tray.withFrontier (mergeAll (c.tray.frontier.eraseIdx c.entry ++ places.filter fun e => e.mask != 0)))).counted c :=
  State.branch_of_split hf ht (mergeAll_ne_nil fun h => hne (List.append_eq_nil_iff.1 h).2) (State.splitTray_fits hfit)

theorem State.held_withFrontier (s : State) (id : Nat) (es : List Entry) (c : Ctx) (o : Owner) (r : RegName) :
    ((s.modTray id (Tray.withFrontier es)).counted c).held o r = s.held o r := by
  rw [State.held_counted]
  exact s.held_modTray_same id (Tray.withFrontier es) (fun _ => rfl) (fun _ r => Tray.reg_congr rfl rfl rfl rfl r) o r

theorem State.still_withFrontier (s : State) (id : Nat) (es : List Entry) (c : Ctx) :
    ((s.modTray id (Tray.withFrontier es)).counted c).still = s.still := by
  rw [State.counted_still]
  exact s.modTray_still id (Tray.withFrontier es) fun _ => rfl

theorem State.branches_tray {s : State} {c : Ctx} {places : List Entry} (hf : c.front = false) (ht : s.tray? c.tray.id = some c.tray)
    (hfit : c.fit places) (hne : (places.filter fun e => e.mask != 0) ≠ []) : Branches s (s.branch c places) c places := by
  rw [State.branch_fits hf ht hfit hne]
  refine ⟨s.held_withFrontier _ _ c, s.still_withFrontier _ _ c, fun id => ?_, fun id => ?_⟩
  · rw [State.frontier_counted, s.frontier_modTray c.tray.id id (Tray.withFrontier _) (fun _ => rfl) (F := fun _ => _) fun _ => rfl]
    by_cases hid : id = c.tray.id
    · simp [hid, hf, ht]
    · simp [hid]
  · refine (State.stands_front (State.stands_counted _ c) id).trans ?_
    simp only [hf, Bool.false_eq_true, false_and, if_false]
    rfl

/-- A strand goes to the first of its places. -/
theorem State.branches_front {s : State} {c : Ctx} (hf : c.front = true) (places : List Entry) : Branches s (s.branch c places) c places := by
  unfold State.branch
  simp only [hf, if_true]
  split
  case h_1 p ps hps =>
    refine ⟨fun o r => by rw [State.held_counted, State.held_modEntry], by rw [State.counted_still, State.modEntry_still], fun id => ?_, fun id => ?_⟩
    · rw [State.frontier_counted, State.modEntry, if_pos hf]
      simp only [hf, Bool.true_eq_false, false_and, if_false]
      rfl
    · refine (State.stands_front (State.stands_counted (s.modEntry c fun _ => p) c) id).trans ?_
      rw [State.modEntry, if_pos hf, State.modFront, State.team?_modTeam _ _ _ _ (by intro x; rfl), Option.map_map]
      cases ht : s.team? id with
      | none => rfl
      | some tm =>
        simp only [Option.map_some, Function.comp, State.team?_id ht, beq_iff_eq, hf, true_and, hps]
        split <;> rfl
  case h_2 hps =>
    refine ⟨fun o r => by rw [State.held_counted], by rw [State.counted_still], fun id => ?_, fun id => ?_⟩
    · rw [State.frontier_counted]
      simp [hf]
    · simp only [hf, true_and, hps, ite_self]
      exact State.stands_front (s.stands_counted c) id

/-- Places that fit and hold a slot are what a branch leaves. -/
theorem State.branches_branch {s u : State} {p : Pfx} {size : Nat} {r : Req} {c : Ctx} (h : Issues s p size r c u) {places : List Entry}
    (hfit : c.fit places) (hne : (places.filter fun e => e.mask != 0) ≠ []) : Branches u (u.branch c places) c places := by
  cases hf : c.front with
  | false => exact State.branches_tray hf (h.tray hf) hfit hne
  | true => exact State.branches_front hf places

/-! Spawned threads. -/

/-- One thread of a tray spawned. -/
def State.addSpawn (s : State) (tr : Tray) (tray : Nat) (pc : DWord) (prio : BitVec 6) (live : Nat) (t : Fin 32) : Option State :=
  match s.team? tr.team with
  | none => none
  | some tm =>
    match spawnFit tm.spawnUsed (spawnSize live) with
    | none => none
    | some off =>
      let sp : Spawn :=
        { id := s.nextId, tid := (tr.remap[t]).getD 0, tray := tray, slot := t, live := live, pc := pc, prio := prio,
          preds := tr.preds[t], curs := tr.cursors[t], off := off, written := false, image := [], since := s.clk }
      some ({ s with nextId := s.nextId + 1 }.modTeam tr.team fun tm => { tm with spawns := tm.spawns ++ [sp] })

/-- The earlier writes of spawned threads are released (R235). -/
def State.spawnRelease (s : State) (team tray : Nat) (m : BitVec 32) : State :=
  match s.around team with
  | some (_, _, cx) => s.releaseOn cx (.tray tray) m .all 1
  | none => s

theorem State.spawnThreads_eq {s : State} {tray : Nat} {tr : Tray} (ht : s.tray? tray = some tr) (pc : DWord) (prio : BitVec 6) (live : Nat)
    (m : BitVec 32) :
    s.spawnThreads tray pc prio live m = ((maskSlots m).foldlM (fun s t => State.addSpawn s tr tray pc prio live t) s).map fun s =>
      (s.modTray tray fun tr => tr.leave m).spawnRelease tr.team tray m := by
  unfold State.spawnThreads
  rw [ht]
  rfl

theorem State.spawnRelease_trays (s : State) (team tray : Nat) (m : BitVec 32) : (s.spawnRelease team tray m).trays = s.trays := by
  unfold State.spawnRelease
  split
  · exact State.releaseOn_trays ..
  · rfl

theorem State.spawnRelease_teams (s : State) (team tray : Nat) (m : BitVec 32) : (s.spawnRelease team tray m).teams = s.teams := by
  unfold State.spawnRelease
  split
  · exact State.releaseOn_teams ..
  · rfl

/-- While threads are spawned, trays and strands stand, and what was spawned stays. -/
structure Spawning (s u : State) : Prop where
  trays : u.trays = s.trays
  fronts : ∀ id, (u.team? id).map (·.front) = (s.team? id).map (·.front)
  spawns : ∀ tm ∈ s.teams, ∃ x ∈ u.teams, x.id = tm.id ∧ tm.spawns ⊆ x.spawns

theorem Spawning.refl (s : State) : Spawning s s := ⟨rfl, fun _ => rfl, fun tm h => ⟨tm, h, rfl, List.Subset.refl _⟩⟩

theorem Spawning.trans {s u v : State} (h : Spawning s u) (k : Spawning u v) : Spawning s v where
  trays := k.trays.trans h.trays
  fronts id := (k.fronts id).trans (h.fronts id)
  spawns tm htm := by
    obtain ⟨x, hx, hid, hsub⟩ := h.spawns tm htm
    obtain ⟨y, hy, hid', hsub'⟩ := k.spawns x hx
    exact ⟨y, hy, hid'.trans hid, List.Subset.trans hsub hsub'⟩

/-- A slot's thread stands in its team's spawn area with what it takes along (R143). -/
def Spawned (u : State) (tr : Tray) (tray : Nat) (pc : DWord) (prio : BitVec 6) (t : Fin 32) : Prop :=
  ∃ tm ∈ u.teams, tm.id = tr.team ∧ ∃ sp ∈ tm.spawns, sp.tray = tray ∧ sp.slot = t ∧ sp.pc = pc ∧ sp.prio = prio ∧
    sp.preds = tr.preds[t] ∧ sp.curs = tr.cursors[t] ∧ sp.tid = (tr.remap[t]).getD 0

theorem Spawned.mono {u v : State} {tr : Tray} {tray : Nat} {pc : DWord} {prio : BitVec 6} {t : Fin 32} (h : Spawned u tr tray pc prio t)
    (k : ∀ tm ∈ u.teams, ∃ x ∈ v.teams, x.id = tm.id ∧ tm.spawns ⊆ x.spawns) : Spawned v tr tray pc prio t := by
  obtain ⟨tm, htm, hid, sp, hsp, hfields⟩ := h
  obtain ⟨x, hx, hid', hsub⟩ := k tm htm
  exact ⟨x, hx, hid'.trans hid, sp, hsub hsp, hfields⟩

theorem State.addSpawn_spec {s u : State} {tr : Tray} {tray live : Nat} {pc : DWord} {prio : BitVec 6} {t : Fin 32}
    (h : s.addSpawn tr tray pc prio live t = some u) : Spawning s u ∧ Spawned u tr tray pc prio t := by
  unfold State.addSpawn at h
  split at h
  case h_1 => cases h
  case h_2 tm htm =>
    split at h
    case h_1 => cases h
    case h_2 off _ =>
      cases h
      refine ⟨⟨rfl, fun id => ?_, fun x hx => ?_⟩, ?_⟩
      · rw [State.team?_modTeam _ _ _ _ (by intro x; rfl), Option.map_map]
        change Option.map _ (s.team? id) = _
        cases s.team? id with
        | none => rfl
        | some x =>
          simp only [Option.map_some, Function.comp]
          split <;> rfl
      · refine ⟨_, List.mem_map_of_mem hx, ?_⟩
        split
        · exact ⟨rfl, List.subset_append_left ..⟩
        · exact ⟨rfl, List.Subset.refl _⟩
      · have hid : (tm.id == tr.team) = true := by simpa using State.team?_id htm
        refine ⟨_, List.mem_map_of_mem (List.mem_of_find?_eq_some htm), ?_⟩
        rw [if_pos hid]
        exact ⟨(State.team?_id htm :), _, List.mem_append_right _ (List.mem_singleton_self _), rfl, rfl, rfl, rfl, rfl, rfl, rfl⟩

theorem State.addSpawns_spec {tr : Tray} {tray live : Nat} {pc : DWord} {prio : BitVec 6} (ts : List (Fin 32)) {s u : State}
    (h : ts.foldlM (fun s t => State.addSpawn s tr tray pc prio live t) s = some u) :
    Spawning s u ∧ ∀ t ∈ ts, Spawned u tr tray pc prio t := by
  induction ts generalizing s with
  | nil =>
    cases h
    exact ⟨.refl _, by simp⟩
  | cons t ts ih =>
    rw [List.foldlM_cons] at h
    obtain ⟨v, hv, h⟩ := Option.bind_eq_some_iff.1 h
    obtain ⟨hkeep, hthis⟩ := State.addSpawn_spec hv
    obtain ⟨hkeep', hrest⟩ := ih h
    exact ⟨hkeep.trans hkeep', List.forall_mem_cons.2 ⟨hthis.mono hkeep'.spawns, hrest⟩⟩

/-- What spawning leaves: the slots are gone from their tray and stand in the spawn area, and no register changes. -/
theorem State.spawnThreads_spec {s u : State} {tray live : Nat} {tr : Tray} {pc : DWord} {prio : BitVec 6} {m : BitVec 32}
    (ht : s.tray? tray = some tr) (h : s.spawnThreads tray pc prio live m = some u) :
    u.trays = (s.modTray tray (·.leave m)).trays ∧ (∀ t ∈ maskSlots m, Spawned u tr tray pc prio t) ∧ ∀ o r, u.held o r = s.held o r := by
  rw [State.spawnThreads_eq ht] at h
  obtain ⟨v, hv, rfl⟩ := Option.map_eq_some_iff.1 h
  obtain ⟨hkeep, hspawned⟩ := State.addSpawns_spec _ hv
  have htrays : (v.modTray tray (·.leave m)).trays = (s.modTray tray (·.leave m)).trays := by
    simp only [State.modTray_trays, hkeep.trays]
  refine ⟨(State.spawnRelease_trays ..).trans htrays, fun t hts => (hspawned t hts).mono fun tm htm => ?_, fun o r => ?_⟩
  · rw [State.spawnRelease_teams]
    exact ⟨tm, htm, rfl, List.Subset.refl _⟩
  · have hleave : (v.modTray tray (·.leave m)).held o r = v.held o r :=
      v.held_modTray_same tray (·.leave m) (fun _ => rfl) (fun _ r => Tray.reg_congr rfl rfl rfl rfl r) o r
    have hrel : ((v.modTray tray (·.leave m)).spawnRelease tr.team tray m).held o r = (v.modTray tray (·.leave m)).held o r :=
      State.held_congr (State.spawnRelease_trays ..) (State.spawnRelease_teams ..) o r
    refine hrel.trans (hleave.trans ?_)
    cases o with
    | tray id =>
      unfold State.held State.tray?
      rw [hkeep.trays]
    | front id =>
      have hfront := congrArg (Option.map fun fr : Front => fr.reg r) (hkeep.fronts id)
      rw [Option.map_map, Option.map_map] at hfront
      unfold State.held
      cases hv : v.team? id <;> cases hs : s.team? id <;> simp_all

/-! BRSP. -/

/-- The target of a branch word (R71). -/
theorem Ctx.target_eq (c : Ctx) (off : BitVec 14) : c.target off = targetOf c off := by
  have hoff : off.signExtend 64 <<< 1 = BitVec.ofInt 64 (2 * off.toInt) := by
    rw [BitVec.ofInt_mul, BitVec.mul_comm, BitVec.shiftLeft_eq_mul_twoPow]
    rfl
  unfold Ctx.target targetOf
  rw [hoff]

theorem Ctx.taken_eq (c : Ctx) (p : BitVec 3) (want : Bool) : c.taken p want = takenBy c p want := by
  have hcode : 64 + p.setWidth 7 = BitVec.ofNat 7 (64 + p.toNat) := by
    apply BitVec.eq_of_toNat_eq
    simp
  unfold Ctx.taken takenBy
  rw [hcode]

/-- The live count of a BRSP: IMM modulo 64, or 32. -/
def brspLive (p : Pfx) : Nat := match p.imm with | some i => i.toNat % 64 | none => 32

/-- The sides of a BRSP: the one that it takes and the one that goes on. -/
def Ctx.side (c : Ctx) (f : FBrp) (taken : Bool) : Entry :=
  if taken then c.to (targetOf c f.off) f.pri (takenBy c f.p true) else c.onward (c.act &&& ~~~takenBy c f.p true)

/-- The taken side of a BRSP is the smaller one, or they are equal. -/
def Ctx.takenGoes (c : Ctx) (f : FBrp) : Bool :=
  (maskSlots (takenBy c f.p true)).length ≤ (maskSlots (c.act &&& ~~~takenBy c f.p true)).length

/-- What a BRSP does: it spawns its smaller side, or lets it wait for room, where both sides have slots and it can spawn (R163). -/
def State.sides (s : State) (c : Ctx) (f : FBrp) (live : Nat) : State :=
  if takenBy c f.p true != 0 && c.act &&& ~~~takenBy c f.p true != 0 && c.ent.depth == 0 && s.canSpawn c.tray then
    match s.spawnThreads c.tray.id (c.side f (c.takenGoes f)).pc (c.side f (c.takenGoes f)).prio live (c.side f (c.takenGoes f)).mask with
    | some u => u.branch c [c.side f !c.takenGoes f]
    | none => s.branch c [{ c.side f (c.takenGoes f) with wait := .spawn live }, c.side f !c.takenGoes f]
  else s.branch c [c.side f true, c.side f false]

theorem brsp_run (s : State) (p : Pfx) (f : FBrp) :
    exec (.brsp p f) s = .next (s.run p (groupSize p) { preds := [f.p] } fun c u => u.sides c f (brspLive p)) := by
  refine congrArg (fun k => Host.Outcome.next (s.run p (groupSize p) { preds := [f.p] } k)) (funext fun c => funext fun u => ?_)
  have hlive : (match p.imm with | some _ => p.immNat % 64 | none => 32) = brspLive p := by
    unfold brspLive Pfx.immNat
    cases p.imm <;> rfl
  simp only [Ctx.taken_eq, Ctx.target_eq]
  refine Eq.trans ?_ (congrArg (u.sides c f) hlive)
  unfold State.sides Ctx.takenGoes
  by_cases hle : (maskSlots (takenBy c f.p true)).length ≤ (maskSlots (c.act &&& ~~~takenBy c f.p true)).length
  · simp only [hle, if_true, decide_true]
    rfl
  · simp only [hle, if_false, decide_false]
    rfl

theorem exec_brsp {s u : State} {p : Pfx} {f : FBrp} {c : Ctx} (h : Issues s p (groupSize p) { preds := [f.p] } c u) :
    exec (.brsp p f) s = .next (u.sides c f (brspLive p)) := (brsp_run s p f).trans (congrArg Host.Outcome.next (h.run _))

/-- A BRSP whose side goes finds room to spawn it. -/
theorem State.sides_spawned {s u : State} {c : Ctx} {f : FBrp} {live : Nat} (hm : takenBy c f.p true ≠ 0)
    (hn : c.act &&& ~~~takenBy c f.p true ≠ 0) (hdepth : c.ent.depth = 0) (hspawn : s.canSpawn c.tray = true)
    (hu : s.spawnThreads c.tray.id (c.side f (c.takenGoes f)).pc (c.side f (c.takenGoes f)).prio live (c.side f (c.takenGoes f)).mask = some u) :
    s.sides c f live = u.branch c [c.side f !c.takenGoes f] := by
  unfold State.sides
  rw [if_pos, hu]
  simp only [Bool.and_eq_true, bne_iff_ne, beq_iff_eq]
  exact ⟨⟨⟨hm, hn⟩, hdepth⟩, hspawn⟩

/-- A BRSP whose side goes finds no room to spawn it. -/
theorem State.sides_waits {s : State} {c : Ctx} {f : FBrp} {live : Nat} (hm : takenBy c f.p true ≠ 0)
    (hn : c.act &&& ~~~takenBy c f.p true ≠ 0) (hdepth : c.ent.depth = 0) (hspawn : s.canSpawn c.tray = true)
    (hnone : s.spawnThreads c.tray.id (c.side f (c.takenGoes f)).pc (c.side f (c.takenGoes f)).prio live (c.side f (c.takenGoes f)).mask = none) :
    s.sides c f live = s.branch c [{ c.side f (c.takenGoes f) with wait := .spawn live }, c.side f !c.takenGoes f] := by
  unfold State.sides
  rw [if_pos, hnone]
  simp only [Bool.and_eq_true, bne_iff_ne, beq_iff_eq]
  exact ⟨⟨⟨hm, hn⟩, hdepth⟩, hspawn⟩

theorem Ctx.side_mask_ne {c : Ctx} {f : FBrp} (hm : takenBy c f.p true ≠ 0) (hn : c.act &&& ~~~takenBy c f.p true ≠ 0) (b : Bool) :
    (c.side f b).mask ≠ 0 := by
  cases b
  · exact hn
  · exact hm

/-- Spawn areas only grow for what leaves the teams' still parts. -/
theorem Spawned.of_still {u v : State} {tr : Tray} {tray : Nat} {pc : DWord} {prio : BitVec 6} {t : Fin 32} (h : Spawned u tr tray pc prio t)
    (hstill : v.still = u.still) : Spawned v tr tray pc prio t := by
  refine h.mono fun tm htm => ?_
  have hteams : v.teams.map Team.still = u.teams.map Team.still := congrArg State.teams hstill
  obtain ⟨y, hy, he⟩ := List.mem_map.1 (hteams.symm ▸ List.mem_map_of_mem htm)
  have hspawns : y.spawns = tm.spawns := (congrArg Team.spawns he :)
  exact ⟨y, hy, (congrArg Team.id he :), hspawns ▸ List.Subset.refl _⟩

end Sys2Proof.Machine

namespace Sys2Proof.Proofs

open Sys2Proof.Machine

/-- Settles O17: the smaller side leaves its tray for the spawn area and the other one is the branch's only place; without room both sides
are its places (log 13: what waits to be spawned merges with its like alone). -/
theorem brspSpawnsTheSmallerSide : Obligations.BrspSpawnsTheSmallerSide := by
  unfold Obligations.BrspSpawnsTheSmallerSide
  intro p f s s' c h hf m n there next gone stays live hm hn hdepth hspawn hfit
  have hgone : gone = c.side f (c.takenGoes f) := by
    simp only [gone, Ctx.side, Ctx.takenGoes, decide_eq_true_eq]
    rfl
  have hstays : stays = c.side f !c.takenGoes f := by
    simp only [stays, Ctx.side, Ctx.takenGoes, Bool.not_eq_true', decide_eq_false_iff_not, ite_not]
    rfl
  have hlive : live = brspLive p := rfl
  have hmask : stays.mask ≠ 0 := hstays ▸ Ctx.side_mask_ne hm hn _
  have hkeep : (stays.mask != 0) = true := bne_iff_ne.2 hmask
  have hplaces : ([stays].filter fun e => e.mask != 0) = [stays] := List.filter_eq_self.2 (List.forall_mem_singleton.2 hkeep)
  refine ⟨fun u hu => ?_, fun hnone hfit' => ?_⟩
  · obtain ⟨htrays, hspawned, hheld⟩ := State.spawnThreads_spec (h.tray hf) hu
    have htray : u.tray? c.tray.id = some (c.tray.leave gone.mask) := by
      unfold State.tray?
      rw [htrays]
      exact State.tray?_modTray_self (h.tray hf) (·.leave gone.mask) fun _ => rfl
    have hbranch := State.branch_fits hf htray hfit (by rw [hplaces]; simp)
    rw [hplaces] at hbranch
    rw [hgone, hlive] at hu
    have hexec := (exec_brsp h).trans (congrArg Host.Outcome.next ((State.sides_spawned hm hn hdepth hspawn hu).trans (hstays ▸ hbranch)))
    rw [← hstays] at hexec
    have hstill := u.still_withFrontier c.tray.id (mergeAll (c.tray.frontier.eraseIdx c.entry ++ [stays])) c
    refine ⟨_, hexec, hstill, fun o r => (u.held_withFrontier _ _ c o r).trans (hheld o r), State.tray_counted_withFrontier htray c _,
      fun x hx => ?_⟩
    have hteam : c.tray.team = c.team.id := (State.team?_id (State.around_team (State.issuer_tray h.agent hf).2.2.1)).symm
    obtain ⟨tm, htm, hid, hsp⟩ := (hspawned x hx).of_still hstill
    exact ⟨tm, htm, hid.trans hteam, hsp⟩
  · have hplace : stays ∈ [{ gone with wait := .spawn live }, stays].filter fun e => e.mask != 0 := List.mem_filter.2 ⟨by simp, hkeep⟩
    have hbranches := State.branches_branch h hfit' (List.ne_nil_of_mem hplace)
    rw [hgone, hlive] at hnone
    refine ⟨_, (exec_brsp h).trans (congrArg Host.Outcome.next (State.sides_waits hm hn hdepth hspawn hnone)), ?_⟩
    rwa [← hgone, ← hlive, ← hstays]

end Sys2Proof.Proofs

/-!
SUPPORT. Splits that need a seventh entry (R137): the victim, and what six entries allow.
-/

namespace Sys2Proof.Machine

/-! The groups of a split by ascending address. -/

theorem insertPc_perm (p : Entry) (es : List Entry) : (insertPc p es).Perm (p :: es) := by
  induction es with
  | nil => exact .refl _
  | cons x xs ih =>
    unfold insertPc
    split
    · exact .refl _
    · exact (ih.cons x).trans (.swap p x xs)

theorem sortPc_perm (es : List Entry) : (sortPc es).Perm es := by
  induction es with
  | nil => exact .refl _
  | cons x xs ih => exact (insertPc_perm x (sortPc xs)).trans (ih.cons x)

theorem insertPc_ascending (p : Entry) {es : List Entry} (h : es.Pairwise fun x y => x.pc.toNat ≤ y.pc.toNat) :
    (insertPc p es).Pairwise fun x y => x.pc.toNat ≤ y.pc.toNat := by
  induction es with
  | nil => simp [insertPc]
  | cons x xs ih =>
    obtain ⟨hx, hxs⟩ := List.pairwise_cons.1 h
    unfold insertPc
    split
    next hlt =>
      refine List.pairwise_cons.2 ⟨fun y hy => ?_, h⟩
      rcases List.mem_cons.1 hy with rfl | hy
      · exact hlt.le
      · exact hlt.le.trans (hx y hy)
    next hle =>
      refine List.pairwise_cons.2 ⟨fun y hy => ?_, ih hxs⟩
      rcases List.mem_cons.1 ((insertPc_perm p xs).mem_iff.1 hy) with rfl | hy
      · exact Nat.not_lt.1 hle
      · exact hx y hy

theorem sortPc_ascending (es : List Entry) : (sortPc es).Pairwise fun x y => x.pc.toNat ≤ y.pc.toNat := by
  induction es with
  | nil => exact .nil
  | cons x xs ih => exact insertPc_ascending x ih

/-! As many groups as six entries allow. -/

theorem heldEntry_length_le (e : Entry) (es : List Entry) : (heldEntry e es).length ≤ 1 := by
  unfold heldEntry
  split <;> simp

/-- Before a group moves, the split holds one entry at most beside those that stay. -/
theorem unmoved_length_le {old : List Entry} (hold : old.length ≤ 5) (e : Entry) (ps : List Entry) :
    (mergeAll (old ++ [] ++ heldEntry e ps)).length ≤ 6 := by
  have h1 := mergeAll_length_le (old ++ [] ++ heldEntry e ps)
  have h2 := heldEntry_length_le e ps
  simp only [List.append_nil, List.length_append] at h1 ⊢
  omega

/-- The groups that move, the ones that stay, and why the first of those does. -/
theorem moveSome_spec (e : Entry) (old : List Entry) (ps moved : List Entry) (h : (mergeAll (old ++ moved ++ heldEntry e ps)).length ≤ 6) :
    ∃ done left, ps = done ++ left ∧ moveSome e old moved ps = mergeAll (old ++ (moved ++ done) ++ heldEntry e left) ∧
      (moveSome e old moved ps).length ≤ 6 ∧
      ∀ x xs, left = x :: xs → 6 < (mergeAll (old ++ (moved ++ done) ++ [x] ++ heldEntry e xs)).length := by
  induction ps generalizing moved with
  | nil =>
    have hheld : heldEntry e [] = [] := rfl
    rw [hheld, List.append_nil] at h
    exact ⟨[], [], rfl, by rw [hheld, List.append_nil, List.append_nil]; rfl, h, by simp⟩
  | cons p ps ih =>
    unfold moveSome
    split
    next hfit =>
      obtain ⟨done, left, rfl, hmoved, hlen, hnext⟩ := ih (moved ++ [p]) (by rwa [← List.append_assoc])
      refine ⟨p :: done, left, rfl, ?_, hlen, fun x xs hx => ?_⟩
      · rw [hmoved, List.append_assoc moved, List.singleton_append]
      · have := hnext x xs hx
        rwa [List.append_assoc moved, List.singleton_append] at this
    next hfull =>
      refine ⟨[], p :: ps, rfl, by rw [List.append_nil], h, fun x xs hx => ?_⟩
      obtain ⟨rfl, rfl⟩ := List.cons.inj hx
      rw [List.append_nil]
      exact Nat.not_le.1 hfull

/-! The victim. -/

theorem Tray.victim_eq_none {tr : Tray} {es : List Entry} (h : ∀ e ∈ es, e.depth ≠ 0 ∨ e.loops ≠ []) : tr.victim es = none := by
  have hnil : (es.filter fun e => e.depth == 0 && e.loops.isEmpty) = [] := by
    rw [List.filter_eq_nil_iff]
    intro e he
    rcases h e he with hd | hl <;> simp_all
  unfold Tray.victim
  rw [hnil]

/-- The victim comes before an entry. -/
def Entry.precedes (tr : Tray) (v e : Entry) : Prop :=
  v.prio.toNat < e.prio.toNat ∨ v.prio = e.prio ∧ lowestTid tr e.mask < lowestTid tr v.mask

theorem betterVictim_keeps {tr : Tray} {v e : Entry} (h : e ≠ v → v.precedes tr e) : betterVictim tr v e = v := by
  unfold betterVictim
  split
  next hbetter =>
    by_contra hne
    simp only [Bool.or_eq_true, decide_eq_true_eq, Bool.and_eq_true, beq_iff_eq] at hbetter
    have hworse : ¬(e.prio.toNat < v.prio.toNat ∨ e.prio = v.prio ∧ lowestTid tr v.mask < lowestTid tr e.mask) := by
      rcases h hne with hlt | ⟨heq, hlt⟩
      · rintro (hb | ⟨hb, -⟩)
        · omega
        · rw [hb] at hlt
          exact Nat.lt_irrefl _ hlt
      · rw [heq]
        omega
    exact hworse hbetter
  next => rfl

theorem betterVictim_takes {tr : Tray} {v a : Entry} (h : a ≠ v → v.precedes tr a) : betterVictim tr a v = v := by
  by_cases ha : a = v
  · rw [ha, betterVictim_keeps fun hne => absurd rfl hne]
  · unfold betterVictim
    refine if_pos ?_
    simp only [Bool.or_eq_true, decide_eq_true_eq, Bool.and_eq_true, beq_iff_eq]
    exact h ha

theorem betterVictim_or (tr : Tray) (a b : Entry) : betterVictim tr a b = a ∨ betterVictim tr a b = b := by
  unfold betterVictim
  split
  · exact .inr rfl
  · exact .inl rfl

/-- The entry that comes before every other one is found in any order. -/
theorem foldl_betterVictim {tr : Tray} {v : Entry} {es : List Entry} (h : ∀ e ∈ es, e ≠ v → v.precedes tr e) {a : Entry}
    (ha : a ≠ v → v.precedes tr a) (hv : a = v ∨ v ∈ es) : es.foldl (betterVictim tr) a = v := by
  induction es generalizing a with
  | nil => simpa using hv
  | cons x xs ih =>
    obtain ⟨hx, hxs⟩ := List.forall_mem_cons.1 h
    have hnext : betterVictim tr a x ≠ v → v.precedes tr (betterVictim tr a x) := by
      rcases betterVictim_or tr a x with he | he <;> rw [he]
      · exact ha
      · exact hx
    refine ih hxs hnext ?_
    rcases hv with rfl | hv
    · exact .inl (betterVictim_keeps hx)
    · rcases List.mem_cons.1 hv with rfl | hv
      · exact .inl (betterVictim_takes ha)
      · exact .inr hv

theorem Tray.victim_of_isVictim {tr : Tray} {es : List Entry} {v : Entry} (h : IsVictim tr es v) : tr.victim es = some v := by
  obtain ⟨hmem, hdepth, hloops, hbest⟩ := h
  have hv : v ∈ es.filter fun e => e.depth == 0 && e.loops.isEmpty := List.mem_filter.2 ⟨hmem, by simp [hdepth, hloops]⟩
  have hall : ∀ e ∈ es.filter fun e => e.depth == 0 && e.loops.isEmpty, e ≠ v → v.precedes tr e := by
    intro e he hne
    obtain ⟨hmem, hok⟩ := List.mem_filter.1 he
    simp only [Bool.and_eq_true, beq_iff_eq, List.isEmpty_iff] at hok
    exact hbest e hmem hne hok.1 hok.2
  unfold Tray.victim
  revert hv hall
  cases (es.filter fun e => e.depth == 0 && e.loops.isEmpty) with
  | nil => exact fun hv => absurd hv (by simp)
  | cons x xs =>
    intro hv hall
    obtain ⟨hx, hxs⟩ := List.forall_mem_cons.1 hall
    exact congrArg some (foldl_betterVictim hxs hx ((List.mem_cons.1 hv).imp_left Eq.symm))

/-! Splits past six entries. -/

/-- Without a victim or without a spawn area part of the split is held. -/
theorem State.splitTray_partly {s : State} {n id : Nat} {tr : Tray} {e : Entry} {old places : List Entry}
    (ht : s.tray? id = some tr) (hfull : ¬(mergeAll (old ++ places)).length ≤ 6)
    (hnone : s.canSpawn tr = false ∨ tr.victim (mergeAll (old ++ places)) = none) :
    State.splitTray (n + 1) s id e old places = s.modTray id (Tray.withFrontier (moveSome e old [] (sortPc places))) := by
  rw [State.splitTray]
  rw [if_neg hfull, ht]
  have hvictim : (if s.canSpawn tr then tr.victim (mergeAll (old ++ places)) else none) = none := by
    rcases hnone with h | h <;> simp [h]
  dsimp only
  rw [hvictim]
  rfl

/-- A victim that is spawned makes room. -/
theorem State.splitTray_spawns {s u : State} {n id : Nat} {tr : Tray} {e v : Entry} {old places : List Entry}
    (ht : s.tray? id = some tr) (hfull : ¬(mergeAll (old ++ places)).length ≤ 6) (hspawn : s.canSpawn tr = true)
    (hv : tr.victim (mergeAll (old ++ places)) = some v) (hu : s.spawnThreads id (s.resumePc v) v.prio 32 v.mask = some u) :
    State.splitTray (n + 1) s id e old places = State.splitTray n u id e (cutMask old v.mask) (cutMask places v.mask) := by
  rw [State.splitTray]
  rw [if_neg hfull, ht]
  dsimp only
  rw [if_pos hspawn, hv]
  dsimp only
  rw [hu]

theorem State.resumePc_of_no_reply {s : State} {v : Entry} (h : ∀ id t0, v.wait ≠ .reply id t0) : s.resumePc v = v.pc := by
  unfold State.resumePc
  split
  next id t0 hw => exact absurd hw (h id t0)
  next => rfl

/-- An instruction whose effect is a branch splits as R137 says where its places need a seventh entry. -/
theorem splitsPastSix_of_branch {s u : State} {i : Instr} {p : Pfx} {size : Nat} {r : Req} {c : Ctx} {places : List Entry}
    (h : Issues s p size r c u) (hexec : exec i s = .next (u.branch c places)) : SplitsPastSix i s u c places := by
  unfold SplitsPastSix
  intro old new all_ hf hsix hfull
  have htray := h.tray hf
  have hold : old.length ≤ 5 := by
    obtain ⟨hlt, -⟩ := List.getElem?_eq_some_iff.1 (State.issuer_tray h.agent hf).2.1
    have : old.length = c.tray.frontier.length - 1 := List.length_eraseIdx_of_lt hlt
    omega
  have hnew : new ≠ [] := by
    intro hnil
    have := mergeAll_length_le (old ++ new)
    rw [hnil, List.append_nil] at this
    exact hfull (by change (mergeAll (old ++ new)).length ≤ 6; rw [hnil, List.append_nil]; omega)
  refine ⟨fun hnone => ?_, fun v w hspawn hv hreply hw hfit hne => ?_⟩
  · have hvictim : u.canSpawn c.tray = false ∨ c.tray.victim all_ = none := hnone.imp_right Tray.victim_eq_none
    obtain ⟨done, left, hsort, hmoved, hlen, hnext⟩ := moveSome_spec c.ent old (sortPc new) [] (unmoved_length_le hold _ _)
    have hparts : done ++ left ≠ [] := hsort ▸ fun hnil => hnew ((hnil ▸ sortPc_perm new).symm.eq_nil)
    have hne : moveSome c.ent old [] (sortPc new) ≠ [] := by
      rw [hmoved]
      refine mergeAll_ne_nil fun hnil => hparts ?_
      obtain ⟨hmoved, hheld⟩ := List.append_eq_nil_iff.1 hnil
      rw [show done = [] from (List.append_eq_nil_iff.1 hmoved).2]
      cases left with
      | nil => rfl
      | cons x xs => exact absurd hheld (by simp [heldEntry])
    have hbranch := State.branch_of_split hf htray hne (State.splitTray_partly htray hfull hvictim)
    obtain ⟨tr, htr, hfront⟩ := State.tray_counted_withFrontier htray c (moveSome c.ent old [] (sortPc new))
    rw [hbranch] at hexec
    exact ⟨_, tr, done, left, hexec, htr, hsort ▸ sortPc_perm new, hsort ▸ sortPc_ascending new, hfront ▸ hlen, hfront.trans hmoved, hnext⟩
  · have hpc : u.spawnThreads c.tray.id (u.resumePc v) v.prio 32 v.mask = some w := by rwa [State.resumePc_of_no_reply hreply]
    have hsplit := State.splitTray_spawns (n := 37) (e := c.ent) htray hfull hspawn (Tray.victim_of_isVictim hv) hpc
    obtain ⟨htrays, -, -⟩ := State.spawnThreads_spec htray hw
    have hleft : w.tray? c.tray.id = some (c.tray.leave v.mask) := by
      unfold State.tray?
      rw [htrays]
      exact State.tray?_modTray_self htray (·.leave v.mask) fun _ => rfl
    have hbranch := State.branch_of_split hf hleft (mergeAll_ne_nil hne) (hsplit.trans (State.splitTray_fits hfit))
    rw [hbranch] at hexec
    exact ⟨_, hexec, w.still_withFrontier _ _ c, State.tray_counted_withFrontier hleft c _⟩

/-! The branches. -/

theorem exec_bra {s u : State} {f : FBra} {c : Ctx} (h : Issues s Pfx.empty 4 {} c u) :
    exec (.bra f) s = .next (u.branch c [c.to (targetOf c f.off) f.pri c.act]) := by
  refine congrArg Host.Outcome.next ((h.run _).trans ?_)
  rw [Ctx.target_eq]
  rfl

theorem State.branchReq_eq (s : State) (p : BitVec 3) : s.branchReq p = asksPred s p := by
  unfold State.branchReq State.inFront asksPred
  cases s.cur <;> rfl

theorem exec_condBranch {s u : State} {f : FBrp} {c : Ctx} (h : Issues s Pfx.empty 4 (asksPred s f.p) c u) (want : Bool) :
    s.condBranch f want =
      .next (u.branch c [c.to (targetOf c f.off) f.pri (takenBy c f.p want), c.onward (c.act &&& ~~~takenBy c f.p want)]) := by
  rw [← State.branchReq_eq] at h
  refine congrArg Host.Outcome.next ((h.run _).trans ?_)
  rw [Ctx.target_eq, Ctx.taken_eq]
  rfl

/-- BRP and BRNP with what they branch on. -/
theorem exec_brps {s u : State} {f : FBrp} {c : Ctx} (h : Issues s Pfx.empty 4 (asksPred s f.p) c u) :
    ∀ x ∈ [((Instr.brp : FBrp → Instr), true), (.brnp, false)], exec (x.1 f) s =
      .next (u.branch c [c.to (targetOf c f.off) f.pri (takenBy c f.p x.2), c.onward (c.act &&& ~~~takenBy c f.p x.2)]) := by
  intro x hx
  simp only [List.mem_cons, List.not_mem_nil, or_false] at hx
  rcases hx with rfl | rfl
  · exact exec_condBranch h true
  · exact exec_condBranch h false

/-- A BRSP with an empty side, inside a call, or without a spawn area is a BRP (R148, R163). -/
theorem exec_brsp_stays {s u : State} {p : Pfx} {f : FBrp} {c : Ctx} (h : Issues s p (groupSize p) { preds := [f.p] } c u)
    (hno : takenBy c f.p true = 0 ∨ c.act &&& ~~~takenBy c f.p true = 0 ∨ c.ent.depth ≠ 0 ∨ u.canSpawn c.tray = false) :
    exec (.brsp p f) s =
      .next (u.branch c [c.to (targetOf c f.off) f.pri (takenBy c f.p true), c.onward (c.act &&& ~~~takenBy c f.p true)]) := by
  refine (exec_brsp h).trans (congrArg Host.Outcome.next (if_neg ?_))
  simp only [Bool.and_eq_true, bne_iff_ne, beq_iff_eq]
  rintro ⟨⟨⟨hm, hn⟩, hd⟩, hs⟩
  rcases hno with h0 | h0 | h0 | h0
  · exact hm h0
  · exact hn h0
  · exact h0 hd
  · rw [hs] at h0
    cases h0

/-- The two sides of a branch hold the active slots between them. -/
theorem sides_hold_slots {s u : State} {p : Pfx} {size : Nat} {r : Req} {c : Ctx} (h : Issues s p size r c u) (m : BitVec 32) (pc : DWord)
    (prio : BitVec 6) : ([c.to pc prio m, c.onward (c.act &&& ~~~m)].filter fun e => e.mask != 0) ≠ [] := by
  by_cases hm : m = 0
  · refine List.ne_nil_of_mem (a := c.onward (c.act &&& ~~~m)) (List.mem_filter.2 ⟨by simp, bne_iff_ne.2 ?_⟩)
    have hact : c.act ≠ 0 := by simpa using h.active
    have hall : (c.onward (c.act &&& ~~~m)).mask = c.act := by
      rw [hm]
      exact BitVec.and_allOnes
    rwa [hall]
  · exact List.ne_nil_of_mem (a := c.to pc prio m) (List.mem_filter.2 ⟨by simp, bne_iff_ne.2 hm⟩)

end Sys2Proof.Machine

namespace Sys2Proof.Proofs

open Sys2Proof.Machine

/-- Settles O16: each branch is the placing of its sides, which is the frontier merged (log 13) where six entries are enough, and else
spawns its victim or holds what does not fit. -/
theorem branchesWithinSixEntries : Obligations.BranchesWithinSixEntries := by
  unfold Obligations.BranchesWithinSixEntries
  refine ⟨fun f s s' c h hfit => ⟨_, exec_bra h, State.branches_branch h hfit ?_⟩,
    fun x hx f s s' c h hfit => ⟨_, exec_brps h x hx, State.branches_branch h hfit (sides_hold_slots h _ _ _)⟩,
    fun p f s s' c h hno hfit => ⟨_, exec_brsp_stays h hno, State.branches_branch h hfit (sides_hold_slots h _ _ _)⟩,
    fun p f s s' c h hspawn => splitsPastSix_of_branch h (exec_brsp_stays h (.inr (.inr (.inr hspawn)))),
    fun x hx f s s' c h => splitsPastSix_of_branch h (exec_brps h x hx)⟩
  have hact : c.act ≠ 0 := by simpa using h.active
  exact List.ne_nil_of_mem (a := c.to (targetOf c f.off) f.pri c.act) (List.mem_filter.2 ⟨List.mem_singleton_self _, bne_iff_ne.2 hact⟩)

end Sys2Proof.Proofs

/-!
SUPPORT. Frontiers of at most six entries (R134): what every part of an issue keeps.
-/

namespace Sys2Proof.Machine

/-- At most six entries stand in a tray's frontier and in the one that its trap saved. -/
def Tray.six (tr : Tray) : Prop := tr.frontier.length ≤ 6 ∧ ∀ ts, tr.trap = some ts → ts.frontier.length ≤ 6

/-- At most six entries stand in every frontier, the saved ones included. -/
def State.six (s : State) : Prop := ∀ tr ∈ s.trays, tr.six

/-- At most six entries stand in every tray's frontier. -/
def State.narrow (s : State) : Prop := ∀ tr ∈ s.trays, tr.frontier.length ≤ 6

theorem State.six.narrow {s : State} (h : s.six) : s.narrow := fun tr htr => (h tr htr).1

theorem Tray.six.of_same {a b : Tray} (h : a.six) (hf : b.frontier = a.frontier) (ht : b.trap = a.trap) : b.six := by
  unfold Tray.six
  rw [hf, ht]
  exact h

theorem State.six.of_trays {s t : State} (h : s.six) (htrays : t.trays = s.trays) : t.six := by
  unfold State.six
  rw [htrays]
  exact h

theorem State.six.modTray {s : State} (h : s.six) (id : Nat) {g : Tray → Tray} (hg : ∀ x, x.six → (g x).six) : (s.modTray id g).six := by
  intro tr htr
  obtain ⟨x, hx, rfl⟩ := List.mem_map.1 htr
  split
  · exact hg x (h x hx)
  · exact h x hx

theorem State.six.tray {s : State} (h : s.six) {id : Nat} {tr : Tray} (ht : s.tray? id = some tr) : tr.six := h tr (List.mem_of_find?_eq_some ht)

/-! Changes of one tray. -/

theorem Tray.six.withFrontier {tr : Tray} (h : tr.six) {es : List Entry} (hes : es.length ≤ 6) : (tr.withFrontier es).six := ⟨hes, h.2⟩

theorem cutMask_length_le (es : List Entry) (m : BitVec 32) : (cutMask es m).length ≤ es.length := by
  unfold cutMask
  exact (List.length_filter_le ..).trans (List.length_map ..).le

theorem Tray.six.without {tr : Tray} (h : tr.six) (m : BitVec 32) : (tr.without m).six := by
  refine ⟨(cutMask_length_le tr.frontier m).trans h.1, fun ts hts => ?_⟩
  obtain ⟨x, hx, rfl⟩ := Option.map_eq_some_iff.1 hts
  exact (cutMask_length_le x.frontier m).trans (h.2 x hx)

theorem Tray.six.deliver {tr : Tray} (h : tr.six) (c : Ctx) (f : Cause) : (tr.deliver c f).six := by
  refine ⟨by simp [Tray.deliver], fun ts hts => ?_⟩
  obtain rfl := Option.some.inj hts
  exact h.1

theorem Tray.six.advance {tr : Tray} (h : tr.six) (act : BitVec 32) (code : BitVec 7) : (tr.advance act code).six := by
  unfold Tray.advance
  split
  · exact h.of_same rfl rfl
  · exact h

theorem modAt_length {α : Type} (f : α → α) (es : List α) (n : Nat) : (modAt f es n).length = es.length := by
  induction es generalizing n with
  | nil => rfl
  | cons x xs ih => cases n <;> simp [modAt, ih]

/-! Retiring, recording and taking exceptions. -/

section
variable {s : State} (h : s.six)
include h

theorem State.six.modEntry (c : Ctx) (f : Entry → Entry) : (s.modEntry c f).six := by
  unfold State.modEntry
  split
  · exact h
  · exact h.modTray _ fun x hx => hx.withFrontier ((mergeAll_length_le _).trans ((modAt_length ..).le.trans hx.1))

theorem State.six.counted (c : Ctx) : (s.counted c).six := by
  unfold State.counted State.served
  dsimp only
  split
  · exact h
  · exact State.six.modTray (s := { s.modTeam c.team.id _ with stalled := false }) h _ fun x hx => hx.of_same rfl rfl

theorem State.six.advance (c : Ctx) : (s.advance c).six := by
  unfold State.advance
  split
  · exact h
  · refine h.modTray _ fun x hx => ?_
    induction c.adv generalizing x with
    | nil => exact hx
    | cons code codes ih =>
      exact ih _ (hx.advance c.act code)

theorem State.six.retire (c : Ctx) : (s.retire c).six := ((h.advance c).modEntry c _).counted c

theorem State.six.clearSlots (c : Ctx) (m : BitVec 32) : (s.clearSlots c m).six := by
  unfold State.clearSlots State.setPred
  split
  · split
    · exact h
    · split
      · split <;> exact h
      · exact h.modTray _ fun x hx => hx.of_same rfl rfl
  · exact h

theorem State.six.record (ctx : Nat) {r : Record} (hr : r.info = false) : (s.record ctx r).six := by
  cases hc : s.ctx? ctx with
  | none =>
    unfold State.record
    rw [hc]
    exact h
  | some cx =>
    have hbare : (s.record ctx r).trays.map Tray.bare = s.trays.map Tray.bare := congrArg (·.1) (State.record_scene r hc hr)
    intro tr htr
    obtain ⟨x, hx, he⟩ := List.mem_map.1 (hbare ▸ List.mem_map_of_mem htr)
    exact (h x hx).of_same (congrArg Tray.frontier he :).symm (congrArg Tray.trap he :).symm

omit h in
theorem Winds.narrow {t : State} (hw : Winds s t) (h : s.narrow) : t.narrow := by
  intro tr htr
  obtain ⟨x, hx, -, hf⟩ := hw.trays tr htr
  exact hf ▸ h x hx

/-- A tray that ends takes its frontier along, and one whose handler ended goes back to the saved one. -/
theorem State.six.checkTray (id : Nat) : (s.checkTray id).narrow := by
  unfold State.checkTray
  split
  · exact h.narrow
  case h_2 tr htr =>
    split
    · exact h.narrow
    · have huntrapped : (s.modTray id Tray.untrapped).six := h.modTray id fun x hx => ⟨hx.1, by simp [Tray.untrapped]⟩
      split
      · dsimp only
        split
        · split
          · exact huntrapped.narrow
          · exact (winds_endTray _ id).narrow huntrapped.narrow
        · exact (winds_endTray _ id).narrow huntrapped.narrow
      case h_2 es hes =>
        have hsaved : ((tr.trap.map (·.frontier)).getD []).length ≤ 6 := by
          cases htrap : tr.trap with
          | none => simp
          | some ts => exact (h.tray htr).2 ts htrap
        exact (h.modTray id fun x _ => ⟨hsaved, by simp⟩).narrow

theorem State.six.killTray (id cause : Nat) : (s.killTray id cause).narrow := by
  unfold State.killTray
  split
  · exact h.narrow
  · refine State.six.checkTray (State.six.modTray ?_ id fun x _ => ⟨by simp, by simp⟩) id
    split <;> exact h

theorem State.six.raise (c : Ctx) (f : Cause) : (s.raise c f).narrow := by
  have hrec (r : Record) (hr : r.info = false) :
      (State.record { s with stalled := false, fab := { s.fab with pulled := s.fab.pulled.filter fun x => x.owner != c.owner } } c.cx.id r).six :=
    State.six.record (s := { s with stalled := false, fab := _ }) h c.cx.id hr
  unfold State.raise
  dsimp only
  split
  · exact (hrec _ rfl).narrow
  · split
    · exact (hrec _ rfl).killTray _ _
    · exact ((hrec _ rfl).modTray _ fun x hx => hx.deliver c f).narrow

/-! Splits and branches. -/

theorem State.six.spawnThreads {u : State} {tray live : Nat} {pc : DWord} {prio : BitVec 6} {m : BitVec 32}
    (hu : s.spawnThreads tray pc prio live m = some u) : u.six := by
  cases ht : s.tray? tray with
  | none =>
    unfold State.spawnThreads at hu
    rw [ht] at hu
    cases hu
  | some tr => exact (h.modTray tray (g := (·.leave m)) fun x hx => (hx.without m).of_same rfl rfl).of_trays (State.spawnThreads_spec ht hu).1

end

theorem moveSome_length_le {e : Entry} {old : List Entry} (hold : old.length ≤ 5) (ps : List Entry) : (moveSome e old [] ps).length ≤ 6 := by
  obtain ⟨_, _, _, _, hlen, _⟩ := moveSome_spec e old ps [] (unmoved_length_le hold _ _)
  exact hlen

theorem State.six.splitTray {n id : Nat} {e : Entry} : ∀ {s : State} {old places : List Entry}, s.six → old.length ≤ 5 →
    (State.splitTray n s id e old places).six := by
  induction n with
  | zero => exact fun h hold => h.modTray id fun x hx => hx.withFrontier (moveSome_length_le hold _)
  | succ n ih =>
    intro s old places h hold
    have hpartly : (s.modTray id (Tray.withFrontier (moveSome e old [] (sortPc places)))).six :=
      h.modTray id fun x hx => hx.withFrontier (moveSome_length_le hold _)
    rw [State.splitTray]
    split
    next hfit => exact h.modTray id fun x hx => hx.withFrontier hfit
    next =>
      split
      next => exact h
      next =>
        split
        next => exact hpartly
        next v _ =>
          split
          next => exact hpartly
          next u hu => exact ih (h.spawnThreads hu) ((cutMask_length_le old v.mask).trans hold)

/-- An issuer's entry stands in a frontier of at most six. -/
def Ctx.seated (c : Ctx) : Prop := (c.tray.frontier.eraseIdx c.entry).length ≤ 5

theorem State.six.branch {s : State} (h : s.six) {c : Ctx} (hc : c.seated) (places : List Entry) : (s.branch c places).narrow := by
  cases hf : c.front with
  | true =>
    unfold State.branch
    simp only [hf, if_true]
    split
    · exact ((h.modEntry c _).counted c).narrow
    · exact (h.counted c).narrow
  | false =>
    rw [State.branch_tray hf]
    exact ((h.splitTray hc).counted c).checkTray _

/-! Issuing. -/

theorem State.issuer_front {s : State} {p : Pfx} {size : Nat} {c : Ctx} (hi : s.issuer p size = some c) (hf : c.front = true) :
    c.tray = Tray.fresh := by
  unfold State.issuer at hi
  split at hi
  case h_1 => cases hi
  case h_2 id k _ =>
    cases hc : s.trayCtx id k p size with
    | none => simp [hc] at hi
    | some x =>
      have hx : x.front = false := by
        unfold State.trayCtx at hc
        split at hc
        · cases hc
        · split at hc
          · cases hc; rfl
          · cases hc
      simp only [hc] at hi
      split at hi
      · cases hi; rw [hx] at hf; cases hf
      · cases hi
  case h_3 t _ =>
    cases hc : s.frontCtx t p size with
    | none => simp [hc] at hi
    | some x =>
      have hx : x.tray = Tray.fresh := by
        unfold State.frontCtx at hc
        split at hc
        · cases hc
        · cases hc; rfl
      simp only [hc] at hi
      split at hi
      · cases hi; exact hx
      · cases hi

theorem State.six.issuer {s : State} (h : s.six) {p : Pfx} {size : Nat} {c : Ctx} (hi : s.issuer p size = some c) : c.seated := by
  unfold Ctx.seated
  cases hf : c.front with
  | true => simp [State.issuer_front hi hf, Tray.fresh]
  | false =>
    obtain ⟨htray, hent, -⟩ := State.issuer_tray hi hf
    obtain ⟨hlt, -⟩ := List.getElem?_eq_some_iff.1 hent
    have hlen := (h.tray htray).1
    rw [List.length_eraseIdx_of_lt hlt]
    omega

theorem State.readTokens_trays (s : State) (c : Ctx) (r : Req) : (s.readTokens c r).trays = s.trays :=
  (congrArg State.trays (s.readTokens_unnoted c r) :)

theorem State.six.judgedOps {s : State} (h : s.six) {c : Ctx} (once : Bool) (bad : Fin 32 → Option SlotCause) {k : Ctx → State → State}
    (hk : ∀ m u, u.six → (k { c with act := m } u).narrow) : (s.judgedOps c once bad k).narrow := by
  unfold State.judgedOps
  split
  · exact h.raise c _
  · split
    · exact hk c.act s h
    · dsimp only
      split
      · exact ((h.clearSlots c _).retire _).narrow
      · exact hk _ _ (h.clearSlots c _)

/-- A group whose effect keeps frontiers of at most six entries does so however it issues. -/
theorem State.six.run {s : State} (h : s.six) (p : Pfx) (size : Nat) (r : Req) {k : Ctx → State → State}
    (hk : ∀ c u, u.six → c.seated → (k c u).narrow) : (s.run p size r k).narrow := by
  unfold State.run
  split
  · exact h.narrow
  case h_2 c hc =>
    split
    · exact h.narrow
    · split
      · exact (h.retire c).narrow
      · dsimp only
        split
        · exact h.narrow
        · refine h.judgedOps _ _ fun m u hu => ?_
          split
          · exact hu.narrow
          · exact hk _ _ (hu.of_trays (u.readTokens_trays ..)) (h.issuer (c := c) hc)

theorem State.six.sides {s : State} (h : s.six) {c : Ctx} (hc : c.seated) (f : FBrp) (live : Nat) :
    (s.sides c f live).narrow := by
  unfold State.sides
  split
  · split
    next hu => exact (h.spawnThreads hu).branch hc _
    next => exact h.branch hc _
  · exact h.branch hc _

theorem State.six.condBranch {s t : State} (h : s.six) {f : FBrp} {want : Bool} (ht : s.condBranch f want = .next t) : t.narrow := by
  cases ht
  exact h.run _ _ _ fun c u hu hc => hu.branch hc _

theorem State.six.execBra {s t : State} (h : s.six) {f : FBra} (ht : exec (.bra f) s = .next t) : t.narrow := by
  cases ht
  exact h.run _ _ _ fun c u hu hc => hu.branch hc _

theorem State.six.execBrsp {s t : State} (h : s.six) {p : Pfx} {f : FBrp} (ht : exec (.brsp p f) s = .next t) : t.narrow := by
  rw [brsp_run] at ht
  cases ht
  exact h.run _ _ _ fun c u hu hc => hu.sides hc f _

theorem State.six.execJmpi {s t : State} (h : s.six) {f : FJmp} (ht : exec (.jmpi f) s = .next t) : t.narrow := by
  cases ht
  refine h.run _ _ _ fun c u hu hc => ?_
  dsimp only
  split
  · exact hu.raise c _
  · split
    · exact hu.raise c _
    · have hparked (bad : BitVec 32) (r : Record) (hr : r.info = false) :
          (if bad == 0 then u else (u.record c.cx.id r).modTray c.tray.id fun tr => tr.park bad).six := by
        split
        · exact hu
        · exact (hu.record c.cx.id hr).modTray _ fun x hx => (hx.without bad).of_same rfl rfl
      split
      · exact State.six.checkTray (((hparked _ _ rfl).modTray c.tray.id fun x hx => hx.withFrontier (Nat.le_succ_of_le hc)).counted c) _
      · exact (hparked _ _ rfl).branch hc _

end Sys2Proof.Machine

namespace Sys2Proof.Proofs

open Sys2Proof.Machine

/-- Settles O18: every way in which a branch can issue keeps six entries in each frontier, the saved ones included, but that a tray which
ends shows only the frontiers of the others. -/
theorem branchesKeepSixEntries : Obligations.BranchesKeepSixEntries := by
  unfold Obligations.BranchesKeepSixEntries
  intro s t p b f j h i hi ht
  have hsix : s.six := h
  simp only [List.mem_cons, List.not_mem_nil, or_false] at hi
  rcases hi with rfl | rfl | rfl | rfl | rfl
  · exact hsix.execBra ht
  · exact hsix.condBranch ht
  · exact hsix.condBranch ht
  · exact hsix.execBrsp ht
  · exact hsix.execJmpi ht

end Sys2Proof.Proofs

/-!
SUPPORT. What the host writes (R199, R359, R365, R385): a home-table entry, bytes of memory, the package registers.
-/

namespace Sys2Proof.Machine

/-! Home-table entries. -/

theorem modAt_getElem? {α : Type} (f : α → α) (l : List α) (i j : Nat) : (modAt f l i)[j]? = if j = i then l[j]?.map f else l[j]? := by
  induction l generalizing i j with
  | nil => simp [modAt]
  | cons x xs ih =>
    cases i with
    | zero => cases j <;> simp [modAt]
    | succ i => cases j <;> simp [modAt, ih]

/-- A change after which an entry is not counted, of one that was not counted, leaves what is counted. -/
theorem filter_modAt {α : Type} {p : α → Bool} {f : α → α} (hf : ∀ x, p (f x) = false) {l : List α} {i : Nat}
    (h : ∀ x, l[i]? = some x → p x = false) : (modAt f l i).filter p = l.filter p := by
  induction l generalizing i with
  | nil => rfl
  | cons x xs ih =>
    cases i with
    | zero => simp [modAt, hf, h x rfl]
    | succ i => simp only [modAt, List.filter_cons, ih fun y hy => h y hy]

/-- An entry that rests in HBM, or is not valid, is given up without more. -/
theorem State.unpin_resting {s : State} {i : Nat} (h : ∀ x, s.homeTab[i]? = some x → ¬(x.valid = true ∧ (x.home = 2 ∨ x.home = 3))) :
    s.unpin i = s := by
  unfold State.unpin
  split
  · rfl
  case h_2 x hx =>
    have hx := h x hx
    by_cases hv : x.valid = true
    · have h3 : (x.home == 3) = false := by
        rw [beq_eq_false_iff_ne]
        exact fun he => hx ⟨hv, .inr he⟩
      have h2 : (x.home == 2) = false := by
        rw [beq_eq_false_iff_ne]
        exact fun he => hx ⟨hv, .inl he⟩
      simp only [hv, h2, h3, Bool.not_true, Bool.false_eq_true, if_false]
    · simp [hv]

/-- An entry that is not valid. -/
def HomeEntry.void (h : HomeEntry) : HomeEntry := { h with valid := false }

/-- The home table with room for an entry, which is not valid. -/
def State.voided (s : State) (i : Nat) : State :=
  { s with homeTab := modAt HomeEntry.void (s.homeTab ++ List.replicate (i + 1 - s.homeTab.length) (homeEntryOf []).1) i }

/-- The entry that 32 bytes make: valid where they say so, are fit, and have room. -/
def State.homeEntry (s : State) (i : Nat) (bs : List Byte) : HomeEntry :=
  let h := (homeEntryOf bs).1
  { h with valid := h.valid && (homeEntryOf bs).2 && (s.voided i).pinFits h }

theorem State.writeHome_eq {s : State} {i : Nat} (hfree : s.unpin i = s) (bs : List Byte) :
    s.writeHome i bs = { s with homeTab := modAt (fun _ => s.homeEntry i bs) (s.voided i).homeTab i } := by
  unfold State.writeHome
  rw [hfree]
  rfl

/-- Room in a tile store is what its own allocations and valid ranges leave. -/
theorem State.tileSpace_voided {s : State} {i : Nat} (h : ∀ x, s.homeTab[i]? = some x → ¬(x.valid = true ∧ (x.home = 2 ∨ x.home = 3)))
    (die n : Nat) : (s.voided i).tileSpace die n = s.tileSpace die n := by
  have hunits : (s.voided i).pinnedUnits die (fun _ => true) = s.pinnedUnits die fun _ => true := by
    unfold State.pinnedUnits State.voided
    dsimp only
    rw [filter_modAt (fun x => by simp [HomeEntry.void]), List.filter_append, List.filter_replicate_of_neg (by simp [homeEntryOf, fieldAt, leNat]),
      List.append_nil]
    intro x hx
    by_cases hlt : i < s.homeTab.length
    · rw [List.getElem?_append_left hlt] at hx
      have hx := h x hx
      by_cases hv : x.valid = true
      · have h3 : (x.home == 3) = false := by
          rw [beq_eq_false_iff_ne]
          exact fun he => hx ⟨hv, .inr he⟩
        simp only [h3, Bool.and_false, Bool.false_and]
      · simp [hv]
    · rw [List.getElem?_append_right (Nat.not_lt.1 hlt)] at hx
      obtain rfl := List.eq_of_mem_replicate (List.mem_of_getElem? hx)
      simp [homeEntryOf, fieldAt, leNat]
  unfold State.tileSpace
  rw [hunits]
  rfl

/-- A range for a context that does not exist yet fits where its tile store has room for it (R195). -/
theorem State.pinFits_voided {s : State} {i : Nat} (h : ∀ x, s.homeTab[i]? = some x → ¬(x.valid = true ∧ (x.home = 2 ∨ x.home = 3)))
    {e : HomeEntry} (hctx : s.ctx? e.ctx = none) :
    (s.voided i).pinFits e = true ↔ (e.home.toNat = 3 → (s.tileSpace e.aff.toNat e.pages).isSome = true) := by
  have hctx' : (s.voided i).ctx? e.ctx = none := hctx
  have hhome : (e.home != 3) = true ↔ e.home.toNat ≠ 3 := by
    rw [bne_iff_ne, Ne, ← BitVec.toNat_inj]
    rfl
  unfold State.pinFits
  rw [hctx', s.tileSpace_voided h]
  dsimp only
  rw [Bool.or_eq_true, hhome]
  tauto

/-- What has to hold of an entry's 32 bytes (R199). -/
def homeFit (bs : List Byte) : Prop :=
  fieldAt bs 0 8 % 65536 = 0 ∧ 1 ≤ fieldAt bs 8 4 ∧ fieldAt bs 8 4 ≤ 2 ^ 24 ∧ fieldAt bs 12 2 < 4096 ∧ 2 ≤ fieldAt bs 14 1 % 4 ∧
    fieldAt bs 15 1 = 0 ∧ fieldAt bs 16 8 < 2 ^ 36 ∧ fieldAt bs 24 8 = 0

theorem homeEntryOf_fit (bs : List Byte) : (homeEntryOf bs).2 = true ↔ homeFit bs := by
  have hhome : (BitVec.ofNat 2 (fieldAt bs 14 1)).getLsbD 1 = true ↔ 2 ≤ fieldAt bs 14 1 % 4 := by
    rw [BitVec.getLsbD_ofNat, Nat.testBit_eq_decide_div_mod_eq]
    simp only [Nat.one_lt_ofNat, decide_true, Bool.true_and, decide_eq_true_eq]
    omega
  unfold homeEntryOf homeFit
  dsimp only
  simp only [Bool.and_eq_true, beq_iff_eq, decide_eq_true_eq, hhome]
  tauto

theorem exec_registerWrite_home {s : State} {i : Nat} (hi : i < 256) (hid : s.input.id = 0x10000 + 32 * i) (hlen : s.input.bytes.length = 32) :
    exec .registerWrite s = .next (s.writeHome i s.input.bytes) := by
  change execRegisterWrite s = _
  have hidx : (0x10000 + 32 * i - 0x10000) / 32 = i := by omega
  have h1 : 0x10000 + 32 * i ≠ 0x20 ∧ 0x10000 + 32 * i ≠ 0x28 ∧ 0x10000 + 32 * i ≠ 0x44 ∧ 0x10000 + 32 * i ≠ 0x48 := by omega
  have h2 : 0x10000 ≤ 0x10000 + 32 * i ∧ 0x10000 + 32 * i < 0x12000 ∧ (0x10000 + 32 * i) % 32 = 0 := by omega
  unfold execRegisterWrite
  dsimp only
  rw [hid, hidx]
  simp only [beq_iff_eq, h1, h2, hlen, if_false, decide_true, beq_self_eq_true, Bool.and_self, if_true]

/-! Bytes that the host writes. -/

theorem Unpinned.of_homeTab {s t : State} (h : Unpinned s) (ht : t.homeTab = s.homeTab) : Unpinned t := by
  intro pa
  have := h pa
  unfold State.physLoc at this ⊢
  rwa [ht]

theorem State.touch_homeTab (s : State) (ks : List VKey) (v : Bool) (l : Loc) (n : Nat) : (s.touch ks v l n).homeTab = s.homeTab := by
  have hshadows (s : State) (k : Option VKey) : (s.touchShadows k l n).homeTab = s.homeTab := by unfold State.touchShadows; split <;> rfl
  have hcmds (s : State) (k : Option VKey) : (s.touchCmds k l n).homeTab = s.homeTab := by unfold State.touchCmds; dsimp only; split <;> rfl
  unfold State.touch
  rw [hcmds, hshadows]

/-- A byte at a physical address of an unpinned device is HBM's. -/
theorem State.physWrite_byte {s : State} (h : Unpinned s) (a : Nat) (x : Byte) :
    (s.physWrite a [x]).mem = s.mem.write a x ∧ (s.physWrite a [x]).homeTab = s.homeTab := by
  have hstore : s.physWrite a [x] = ((Loc.hbm a).sectors 1).foldl (fun s g => s.loseResv g .agent)
      (((Loc.hbm a).lines 1).foldl (fun s ln => s.putTag [] false ln 3) ((s.touch [] false (.hbm a) 1).putBase (.hbm a) x)) := by
    unfold State.physWrite
    rw [h a]
    rfl
  have htags (u : State) : (((Loc.hbm a).lines 1).foldl (fun s ln => s.putTag [] false ln 3) u).homeTab = u.homeTab := by
    unfold Loc.lines
    rw [if_neg (by simp), List.foldl_map]
    refine foldl_same (g := State.homeTab) (fun s i => ?_) _ u
    rfl
  rw [hstore]
  constructor
  · rw [foldl_same (g := State.mem) (f := fun s g => s.loseResv g .agent) fun _ _ => rfl,
      foldl_same (g := State.mem) fun s ln => s.putTag_mem [] false ln 3]
    exact congrArg (·.write a x) (s.touch_mem [] false (.hbm a) 1)
  · rw [foldl_same (g := State.homeTab) (f := fun s g => s.loseResv g .agent) fun _ _ => rfl, htags]
    exact s.touch_homeTab [] false (.hbm a) 1

/-- The host's write of one byte of a frame. -/
def State.cxlWrite (s : State) (x : Nat × Byte) : State := if hostSees x.1 then s.physWrite x.1 [x.2] else s

/-- Bytes written to distinct frames read back, and every other byte stands (R385). -/
theorem State.cxlWrites_read {cells : List (Nat × Byte)} (hin : ∀ x ∈ cells, x.1 < 2 ^ 40) (hdistinct : cells.Pairwise fun x y => x.1 ≠ y.1)
    {s : State} (hs : Unpinned s) (hwf : s.mem.wf = true) :
    (∀ x ∈ cells, (cells.foldl State.cxlWrite s).mem.read x.1 = x.2) ∧
      ∀ a, (∀ x ∈ cells, x.1 ≠ a) → (cells.foldl State.cxlWrite s).mem.read a = s.mem.read a := by
  induction cells generalizing s with
  | nil => exact ⟨by simp, fun _ _ => rfl⟩
  | cons x xs ih =>
    obtain ⟨hx, hxs⟩ := List.forall_mem_cons.1 hin
    obtain ⟨hne, hrest⟩ := List.pairwise_cons.1 hdistinct
    have hwrite : s.cxlWrite x = s.physWrite x.1 [x.2] := if_pos (decide_eq_true hx)
    obtain ⟨hmem, htab⟩ := State.physWrite_byte hs x.1 x.2
    obtain ⟨hread, hkept⟩ := ih hxs hrest (hs.of_homeTab (hwrite ▸ htab)) (hwrite ▸ hmem ▸ Memory.write_wf x.1 x.2 hwf)
    have hfirst (a : Nat) : (s.cxlWrite x).mem.read a = if a = x.1 then x.2 else s.mem.read a := by
      rw [hwrite, hmem, Memory.read_write _ _ _ hwf]
    refine ⟨List.forall_mem_cons.2 ⟨?_, hread⟩, fun a ha => ?_⟩
    · rw [List.foldl_cons, hkept x.1 fun y hy => (hne y hy).symm, hfirst, if_pos rfl]
    · obtain ⟨hxa, hxsa⟩ := List.forall_mem_cons.1 ha
      rw [List.foldl_cons, hkept a hxsa, hfirst, if_neg hxa.symm]

/-! Package registers. -/

theorem dieCtl_bit (v : BitVec 64) (n i : Nat) (hi : i < 32) :
    (dieCtl v false n).getLsbD i = (v.getLsbD i && decide (i < 9) || (decide (28 ≤ i) && n.testBit (i - 28))) := by
  have hmask : ∀ j : Fin 32, (0x1FF#32).getLsbD j.val = decide (j.val < 9) := by decide
  have hmask := hmask ⟨i, hi⟩
  unfold dieCtl
  rw [BitVec.getLsbD_or, BitVec.getLsbD_and, hmask, BitVec.getLsbD_setWidth, BitVec.getLsbD_ofNat, Bool.toNat_false, Nat.zero_mul, Nat.add_zero,
    Nat.testBit_mul_two_pow]
  simp [hi]

/-- DIECTL without GO keeps its low bits as written and its status (R365). -/
theorem dieCtl_fields (v : BitVec 64) (old : Word) :
    (dieCtl v false (old.extractLsb' 28 3).toNat).extractLsb' 0 9 = v.extractLsb' 0 9 ∧
      (dieCtl v false (old.extractLsb' 28 3).toNat).extractLsb' 28 3 = old.extractLsb' 28 3 ∧
      (dieCtl v false (old.extractLsb' 28 3).toNat).getLsbD 31 = false := by
  have hstatus (i : Nat) : (old.extractLsb' 28 3).toNat.testBit i = (decide (i < 3) && old.getLsbD (28 + i)) := by
    rw [BitVec.testBit_toNat, BitVec.getLsbD_extractLsb']
  refine ⟨?_, ?_, ?_⟩
  · ext i hi
    simp only [BitVec.getElem_extractLsb', dieCtl_bit _ _ (0 + i) (by omega), hstatus]
    have : ¬28 ≤ i := by omega
    simp [hi, this]
  · ext i hi
    simp only [BitVec.getElem_extractLsb', dieCtl_bit _ _ (28 + i) (by omega), hstatus]
    have : ¬28 + i < 9 := by omega
    simp [hi, this]
  · rw [dieCtl_bit _ _ 31 (by omega), hstatus]
    simp

theorem exec_registerWrite_diectl {s : State} (hid : s.input.id = 0x20) (hoff : s.goingOff = none) (hgo : s.input.val.getLsbD 31 = false) :
    exec .registerWrite s = .next { s with pkg := { s.pkg with
      diectl := dieCtl s.input.val false (s.pkg.diectl.extractLsb' 28 3).toNat } } := by
  change execRegisterWrite s = _
  unfold execRegisterWrite
  dsimp only
  rw [hid, hoff, hgo]
  rfl

/-- The entry that the host wrote is what its bytes say, valid where they say so, are fit and have room (R199). -/
theorem State.homeEntry_valid {s : State} {i : Nat} (h : ∀ x, s.homeTab[i]? = some x → ¬(x.valid = true ∧ (x.home = 2 ∨ x.home = 3)))
    {bs : List Byte} (hctx : s.ctx? (fieldAt bs 12 2) = none) :
    (s.homeEntry i bs).valid = true ↔ (fieldAt bs 14 1).testBit 7 = true ∧ homeFit bs ∧
      (fieldAt bs 14 1 % 4 = 3 → (s.tileSpace (fieldAt bs 14 1 / 4 % 4) (fieldAt bs 8 4)).isSome = true) := by
  have hroom := State.pinFits_voided h (e := (homeEntryOf bs).1) hctx
  unfold State.homeEntry
  dsimp only
  rw [Bool.and_eq_true, Bool.and_eq_true, homeEntryOf_fit, hroom]
  simp only [homeEntryOf, BitVec.toNat_ofNat]
  tauto

/-- The home table has room for the entry, and its other entries stand. -/
theorem State.voided_room (s : State) (i : Nat) : i < (s.voided i).homeTab.length ∧
    ∀ j, j < s.homeTab.length → j ≠ i → (s.voided i).homeTab[j]? = s.homeTab[j]? := by
  constructor
  · unfold State.voided
    rw [modAt_length, List.length_append, List.length_replicate]
    omega
  · intro j hj hne
    unfold State.voided
    rw [modAt_getElem?, if_neg hne, List.getElem?_append_left hj]

/-- The markers of a reconfiguration: every virtual channel of each port that changes (R378). -/
def markersOf (ports : List (Nat × Nat)) : List (Nat × Nat) := ports.flatMap fun x => (List.range 4).map fun vc => (x.1, vc)

theorem mem_markersOf (ports : List (Nat × Nat)) (port vc : Nat) : (port, vc) ∈ markersOf ports ↔ vc < 4 ∧ ∃ peer, (port, peer) ∈ ports := by
  unfold markersOf
  simp only [List.mem_flatMap, List.mem_map, List.mem_range, Prod.mk.injEq, Prod.exists]
  constructor
  · rintro ⟨a, b, hmem, c, hc, rfl, rfl⟩
    exact ⟨hc, b, hmem⟩
  · rintro ⟨hvc, peer, hmem⟩
    exact ⟨port, peer, hmem, vc, hvc, rfl, rfl⟩

theorem exec_fabReconfig {s : State} (hcap : s.cap 0 = true) (hidle : s.fab.reconfig = none) (hne : s.input.pairs ≠ [])
    (hin : ∀ x ∈ s.input.pairs, x.1 < 16 ∧ x.2 < 16) :
    exec .fabReconfig s = .next { s with
      outbox := s.outbox ++ (markersOf s.input.pairs).map fun x => Out.marker x.1 x.2
      fab := { s.fab with reconfig := some { ports := s.input.pairs, markers := markersOf s.input.pairs } }
      pkg := { s.pkg with fabcfgGo := true } } := by
  have hports : (s.input.pairs.filter fun (x : Nat × Nat) => x.1 < 16 && x.2 < 16) = s.input.pairs :=
    List.filter_eq_self.2 fun x hx => by simpa using hin x hx
  change execFabReconfig s = _
  unfold execFabReconfig
  rw [hcap, hidle, hports]
  dsimp only
  rw [if_neg (by simp), if_neg (by simpa using hne)]
  rfl

end Sys2Proof.Machine

namespace Sys2Proof.Proofs

open Sys2Proof.Machine

/-- Settles O55: each of the host's writes and questions changes what its register, range or part of the package is; the place of the home
table among the registers is log 64's, what a host reset leaves log 65's, and the report's order log 12's. -/
theorem hostDrivesThePackage : Obligations.HostDrivesThePackage := by
  unfold Obligations.HostDrivesThePackage
  refine ⟨fun s => ⟨fun hdown => ?down, fun ⟨q, hq⟩ => ?up⟩, fun s hcap hidle hne hin => ?reconfig, fun s hlo hhi => ?cap, fun s => ?registers,
    fun s hw hs hin hd => ?write, fun s hs hin => ?read, fun s => ?clock, fun s => ⟨_, rfl, rfl, rfl, rfl, rfl, rfl, rfl, rfl, rfl⟩,
    fun s => ⟨_, rfl, rfl, rfl, rfl, rfl, fun hne hall => ?boots, fun ⟨x, hx, hbad⟩ => ?stays⟩,
    fun s => ⟨_, rfl, rfl, rfl, rfl, rfl, rfl, rfl, rfl⟩, fun s id k hag => ?tray, fun s id hag => ?front, fun s hlen => ?report⟩
  case down =>
    change execFabnoWrite s = _
    unfold execFabnoWrite
    rw [if_neg]
    rw [List.any_eq_true]
    rintro ⟨p, hp, hup⟩
    obtain ⟨i, hi, rfl⟩ := Vector.mem_iff_getElem.1 (Vector.mem_toList_iff.1 hp)
    exact absurd hup (by simpa using hdown ⟨i, hi⟩)
  case up =>
    change execFabnoWrite s = _
    unfold execFabnoWrite
    exact if_pos (List.any_eq_true.2 ⟨s.pkg.portstat[q], Vector.mem_toList_iff.2 (Vector.getElem_mem _), hq⟩)
  case cap =>
    change execPwrcapWrite s = _
    unfold execPwrcapWrite
    exact if_pos (by simp [hlo, hhi])
  case registers =>
    refine ⟨fun hid hoff hgo => ?_, fun hid => ?_, fun hid => ?_, fun hid => ?_, fun i hi hid hlen hfree hctx => ?_⟩
    · exact ⟨_, exec_registerWrite_diectl hid hoff hgo, rfl, dieCtl_fields ..⟩
    · change execRegisterWrite s = _
      unfold execRegisterWrite
      rw [hid]
      rfl
    · change execRegisterWrite s = _
      unfold execRegisterWrite
      rw [hid]
      rfl
    · change execRegisterWrite s = _
      unfold execRegisterWrite
      rw [hid]
      rfl
    · obtain ⟨hlt, hkept⟩ := s.voided_room i
      refine ⟨_, s.homeEntry i s.input.bytes, (exec_registerWrite_home hi hid hlen).trans
        (congrArg Host.Outcome.next (State.writeHome_eq (State.unpin_resting hfree) _)), ?_, State.homeEntry_valid hfree hctx, rfl, rfl, rfl,
        BitVec.toNat_ofNat .., BitVec.toNat_ofNat .., rfl, rfl, rfl, rfl, rfl, fun j hj hne => ?_⟩
      · rw [modAt_getElem?, if_pos rfl, List.getElem?_eq_getElem hlt, Option.map_some]
      · rw [modAt_getElem?, if_neg hne, hkept j hj hne]
  case write =>
    obtain ⟨hread, hkept⟩ := State.cxlWrites_read hin hd hs hw.stores.1
    exact ⟨_, rfl, hread, fun a ha => hkept a fun x hx => (ha x hx)⟩
  case read =>
    change execCxlMemRead s = _
    unfold execCxlMemRead
    have hsees : hostSees (s.input.id + s.input.n - 1) = true := decide_eq_true (by omega)
    rw [hsees]
    simp only [hs _]
    rfl
  case clock => rfl
  case report =>
    change execAttestationRequest s = _
    unfold execAttestationRequest
    exact if_neg (by simp [hlen])
  case tray =>
    change execDebuggerResume s = _
    unfold execDebuggerResume
    rw [hag]
    simp [State.modTray]
  case front =>
    change execDebuggerResume s = _
    unfold execDebuggerResume
    rw [hag]
    simp [State.modFront, State.modTeam]
  case boots =>
    have hok : (!s.input.images.isEmpty && s.input.images.all imageOk) = true := by
      rw [Bool.and_eq_true, List.all_eq_true]
      exact ⟨by simpa using hne, fun x hx => by simpa [imageOk] using hall x hx⟩
    exact ⟨if_pos hok, if_pos hok⟩
  case stays =>
    refine if_neg ?_
    rw [Bool.and_eq_true, List.all_eq_true]
    exact fun h => absurd (h.2 x hx) (by simp [imageOk, hbad])
  case reconfig =>
    exact ⟨_, _, exec_fabReconfig hcap hidle hne hin, rfl, rfl, rfl, mem_markersOf s.input.pairs, rfl⟩

end Sys2Proof.Proofs


namespace Sys2Proof.Machine

/-! Two trays with one id, whose threads fill five entries each. Each of them has room for what goes on from the barrier; once the first
has passed, its id stands for a frontier of six entries, and what the second's slots need there is a seventh. No run brings two trays
with one id about, but the statement asks nothing of the ids. -/

/-- Entries of threads 0 and 1 and of threads 2 and 3, which wait at the barrier of level 1, and of three threads that wait for nothing. -/
def twinEntries : List Entry :=
  [(0x10000, 3, .meet 1), (0x10010, 12, .meet 1), (0x20000, 16, .none), (0x20010, 32, .none), (0x20020, 64, .none)].map
    fun x : DWord × BitVec 32 × Wait => { pc := x.1, prio := 0, mask := x.2.1, depth := 0, loops := [], wait := x.2.2, skip := 0 }

/-- Slots 0 to 6 with a thread each, of which the one in slot u alone is in unit 0 of level 1. -/
def twinThreads (u : Nat) : Slots (Option Nat) :=
  Vector.ofFn fun v => if v.val < 7 then some (if v.val = u then v.val else 32 + v.val) else none

/-- A tray with id 1, whose thread of unit 0 is in slot u. -/
def twinTray (u : Nat) : Tray :=
  { Tray.fresh with id := 1, team := 1, remap := twinThreads u, frontier := twinEntries }

/-- The two trays in one team, whose barrier of level 1 completes. -/
def twins : State :=
  { State.reset.withFetchWord 0 0 with
    trays := [twinTray 0, twinTray 2]
    input := { Input.blank with barrier := { launch := 1, level := 1, unit := 0 } } }

/-- The launch of the twins' team. -/
def twinLaunch : Launch :=
  { id := 1, ctx := 1, ver := 0, recAddr := 0, trayPc := 0x10000, frontPc := 0x10000, regres := 0, prio := 0, restart := false,
    shmem := 0, spillBase := 0, spillStride := 0, fairPeriod := 4096, formerTimeout := 2048, args := Vector.replicate 8 0,
    levels := [{ scope := 0, dom := 0, extent := 32 }, { scope := 0, dom := 1, extent := 1 }], nextTeam := 1, endedTeams := 0,
    value := 0, cause := none, dest := .none, itemPrio := 0, deadline := 0, est := 0, stream := 0, role := 0, seq := 0, fn := 0,
    dies := [] }

theorem twins_launch : twins.launch? 1 = some twinLaunch := by decide

theorem twins_arrived : twins.arrived twinLaunch 1 0 = true := by decide

theorem twins_members : twins.barrierMembers twinLaunch 1 0 = [(1, 1), (1, 4)] := by decide

theorem twins_tray : twins.tray? 1 = some (twinTray 0) := rfl

/-- Each of the members' slots goes on to a frontier of six entries. -/
theorem twins_fit : ((twinTray 0).passed 1 1).length = 6 ∧ ((twinTray 0).passed 1 4).length = 6 := by decide

/-- Once the first has passed, the second does not: its slots need a seventh entry, and there is no area to spawn into. -/
theorem twins_stuck : ([(1, 1), (1, 4)] : List (Nat × BitVec 32)).foldlM (fun s x => s.passTray 38 x.1 1 x.2)
    (twins.syncAll 1 0 [(.tray 1, 1), (.tray 1, 4)]) = none := by
  refine Option.isNone_iff_eq_none.1 ?_
  decide

theorem twins_release : twins.release twinLaunch 1 0 = twins := by
  have hstuck := twins_stuck
  simp only [State.release, twins_members]
  rw [show twinLaunch.ctx = 1 from rfl, show twinLaunch.scopeOf 1 = 0 from rfl]
  simp only [List.map_cons, List.map_nil, hstuck]

theorem exec_barrierComplete_twins : exec .barrierComplete twins = .next twins := by
  have hlaunch : twins.launch? twins.input.barrier.launch = some twinLaunch := twins_launch
  have harrived : twins.arrived twinLaunch twins.input.barrier.level twins.input.barrier.unit = true := twins_arrived
  show execBarrierComplete twins = _
  simp only [execBarrierComplete, hlaunch, harrived, if_true]
  exact congrArg Host.Outcome.next twins_release

end Sys2Proof.Machine

namespace Sys2Proof.Proofs

open Sys2Proof.Machine

/-- Refutes O44: in `twins` the barrier of level 1 completes and each tray alone has room for its slots, but the second, which goes by the
id of the first, needs a seventh entry there; so no thread goes on. No run makes trays with one id, which the statement does not exclude. -/
theorem not_threadsAreFormedMetAndShipped : ¬ Obligations.ThreadsAreFormedMetAndShipped := by
  unfold Obligations.ThreadsAreFormedMetAndShipped
  rintro ⟨-, -, -, -, hbarrier, -⟩
  have hfit : ∀ x ∈ twins.barrierMembers twinLaunch 1 0, ∀ tr, twins.tray? x.1 = some tr → (tr.passed 1 x.2).length ≤ 6 := by
    rw [twins_members]
    rintro x hx tr htr
    obtain rfl | rfl : x = (1, 1) ∨ x = (1, 4) := by simpa using hx
    · cases twins_tray.symm.trans htr
      exact twins_fit.1.le
    · cases twins_tray.symm.trans htr
      exact twins_fit.2.le
  obtain ⟨t, hexec, -, -, -, hgo⟩ := hbarrier twins twinLaunch twins_launch twins_arrived hfit
  cases Host.Outcome.next.inj (exec_barrierComplete_twins.symm.trans hexec)
  obtain ⟨tr, htr, hslots⟩ := hgo 1 (twinTray 0) _ twins_tray rfl rfl rfl (by decide)
  cases twins_tray.symm.trans htr
  obtain ⟨e, he, hbit, -, hwait, -⟩ := hslots 0 (by decide) (twinEntries.head (by decide)) (by decide) rfl (by decide)
  revert e
  decide

end Sys2Proof.Proofs

/-!
SUPPORT. A trap with a handler (R171, R175, R176): what its record leaves, and what its delivery makes of the tray.
-/

namespace Sys2Proof.Machine

variable {s t : State}

/-! Registers and predicates in two states of one scene. -/

theorem Tray.bare_reg (tr : Tray) (r : RegName) : tr.bare.reg r = tr.reg r := by
  cases r <;> rfl

theorem Team.bare_reg (tm : Team) (r : RegName) : tm.bare.front.reg r = tm.front.reg r := Front.reg_congr rfl r

theorem State.held_of_scene (h : t.scene = s.scene) (o : Owner) (r : RegName) : t.held o r = s.held o r := by
  cases o with
  | tray id =>
    have hread (u : State) : u.held (.tray id) r =
        (((u.tray? id).map Tray.bare).map fun tr => ((tr.reg r).val.setWidth 64, (tr.reg r).full)).getD (0, true) := by
      cases hu : u.tray? id <;> simp [State.held, hu, Tray.bare_reg]
    rw [hread, hread, State.tray?_of_scene h]
  | front id =>
    have hread (u : State) : u.held (.front id) r =
        (((u.team? id).map Team.bare).map fun tm => ((tm.front.reg r).val, (tm.front.reg r).full)).getD (0, true) := by
      cases hu : u.team? id <;> simp [State.held, hu, Team.bare_reg]
    rw [hread, hread, State.team?_of_scene h]

theorem samePreds_of_scene (h : t.scene = s.scene) : SamePreds s t := by
  refine ⟨fun id => ?_, fun id => ?_⟩
  · have := congrArg (Option.map Tray.preds) (State.tray?_of_scene h id)
    rwa [Option.map_map, Option.map_map] at this
  · have := congrArg (Option.map fun tm : Team => tm.front.preds) (State.team?_of_scene h id)
    rwa [Option.map_map, Option.map_map] at this

/-! Where a handler stands. -/

section
variable {c : Ctx} {f : Cause}

/-- An even address that holds the LAND word is a landing point (R158). -/
theorem State.landing_of_landsAt {va : DWord} (h : landsAt s c va) : s.landing c.cx c.ver c.team.id va = true := by
  obtain ⟨heven, hbytes⟩ := h
  have hread (i : Fin 4) : s.fetchByte c.cx c.ver c.team.id (va + BitVec.ofNat 64 i.val) = _ := hbytes i
  refine Bool.and_eq_true_iff.2 ⟨by simpa using heven, List.all_eq_true.2 fun x hx => ?_⟩
  have hword : ∃ i : Fin 4, x = (i.val, BitVec.ofNat 8 (0x000001BB / 2 ^ (8 * i.val))) := by
    revert x
    decide
  obtain ⟨i, rfl⟩ := hword
  simp [hread i]

/-- The state once the record of a cause that a handler takes is appended. -/
def State.trapNoted (s : State) (c : Ctx) (f : Cause) : State := (s.raising c).record c.cx.id { c.recordOf s.devNo f with trap := true }

/-- A cause that has a handler traps, in a tray that is in no trap (R175, R176). -/
theorem State.raise_traps (hfront : c.front = false) (hcode : f.code ≠ 1) (htrap : c.tray.trap = none) (hpc : c.cx.trapPc ≠ 0)
    (hland : landsAt s c c.cx.trapPc) : s.raise c f = (s.trapNoted c f).modTray c.tray.id (·.deliver c f) := by
  have hhandler : s.handler c.cx c.ver c.team.id = true := Bool.and_eq_true_iff.2 ⟨by simpa using hpc, State.landing_of_landsAt hland⟩
  refine (if_neg (by simp [hfront])).trans (if_neg ?_)
  change ¬(f.code == 1 || c.tray.trap.isSome || !s.handler c.cx c.ver c.team.id) = true
  simp [hcode, htrap, hhandler]

/-- The record leaves the scene but for its context. -/
theorem State.trapNoted_scene (f : Cause) (hctx : s.ctx? c.cx.id = some c.cx) :
    ∃ g : Context → Context, (s.trapNoted c f).scene = (s.modCtx c.cx.id g).scene :=
  ⟨_, (s.raising c).record_scene _ hctx rfl⟩

/-- A trap's code fits FCAUSE, and is not that of an illegal instruction (R175, R176). -/
theorem trapCauses_bounds : ∀ code ∈ trapCauses, code ≠ 1 ∧ code < 256 := by
  decide

end

end Sys2Proof.Machine

namespace Sys2Proof.Proofs

open Sys2Proof.Machine

/-- Settles O25: the cause has a handler, so that its record is appended, which leaves the trays but for bytes and reservations, and the
trap is delivered to the tray alone, which keeps its registers and predicates. -/
theorem trapEntersTheHandler : Obligations.TrapEntersTheHandler := by
  unfold Obligations.TrapEntersTheHandler
  intro s c f hfront htray hctx hcode htrap hpc hland
  obtain ⟨hillegal, hfits⟩ := trapCauses_bounds _ hcode
  obtain ⟨g, hscene⟩ := State.trapNoted_scene f hctx
  obtain ⟨tr, htr, hbare⟩ := Option.map_eq_some_iff.1 ((State.tray?_of_scene hscene c.tray.id).trans (congrArg (Option.map Tray.bare) htray))
  have hfrontier : tr.frontier = c.tray.frontier := (congrArg Tray.frontier hbare :)
  have hpreds := samePreds_of_scene hscene
  rw [State.raise_traps hfront hillegal htrap hpc hland]
  refine ⟨tr.deliver c f, State.tray?_modTray_self htr _ fun _ => rfl, rfl, Nat.mod_eq_of_lt hfits, rfl, rfl, ?trap, fun u => ?resv,
    ?recorded, fun o r => ?held, ?preds⟩
  case trap => rw [← hfrontier]; rfl
  case resv => simp [Tray.deliver]
  case recorded => exact State.record_recorded (s := s.raising c) rfl (List.mem_cons_of_mem _ (List.mem_cons_of_mem _ hcode))
  case held =>
    refine ((s.trapNoted c f).held_modTray_same c.tray.id (·.deliver c f) (fun _ => rfl) (fun x q => ?_) o r).trans
      (State.held_of_scene hscene o r)
    exact Tray.reg_congr rfl rfl rfl rfl q
  case preds =>
    have hdelivered := State.samePreds_modTray (s.trapNoted c f) c.tray.id (·.deliver c f) (fun _ => rfl) fun _ => rfl
    exact ⟨fun id => (hdelivered.1 id).trans (hpreds.1 id), fun id => (hdelivered.2 id).trans (hpreds.2 id)⟩

end Sys2Proof.Proofs

/-!
SUPPORT. Producers and stopped contexts (R43, R180, R183): what fills a producer's registers, and which operations of a stop say which
contexts have stopped.
-/

namespace Sys2Proof.Machine

/-! A producer that fills its registers. -/

/-- The state without a producer. -/
def State.withoutProd (s : State) (id : Nat) : State := { s with prods := s.prods.filter fun y => y.id != id }

theorem State.fillProducer_found {s : State} {id : Nat} {pr : Producer} {kind : ProdKind}
    (h : s.prods.find? (fun y => y.id == id) = some pr) (hkind : pr.kind = kind) :
    s.fillProducer id kind = (s.withoutProd id).putRegs pr.owner pr.writes := by
  unfold State.fillProducer
  rw [h]
  exact if_pos (by simp [hkind])

/-- Writing registers that exist fills them, and changes nothing else. -/
theorem State.fills_putRegs {s u : State} {o : Owner} {ws : List RegWrite} (htrays : u.trays = s.trays) (hteams : u.teams = s.teams)
    (hhas : ∀ w ∈ ws, s.has o w.reg = true) : Fills s (u.putRegs o ws) u o ws where
  regs o' r := by
    have hwritten := State.putRegs_regs o ws u (fun w hw => (State.has_congr htrays hteams o w.reg).trans (hhas w hw)) o' r
    rwa [State.held_congr htrays hteams] at hwritten
  rest := State.putRegs_still o ws u
  trays id := by
    have hfrontier := State.stands_tray (State.stands_putRegs o ws u) id
    have hcursors := SameIx.putRegs o ws u id
    cases hu : u.tray? id <;> cases ht : (u.putRegs o ws).tray? id <;> simp_all [Tray.ixPart]
  fronts id := State.stands_team (State.stands_putRegs o ws u) id

/-- The state once a load's corrected error, if it met one, is counted (R180). -/
def State.loadCounted (s : State) : State := if s.input.flag then s.countCorrected s.input.n else s

theorem State.loadCounted_resident (s : State) :
    s.loadCounted.prods = s.prods ∧ s.loadCounted.trays = s.trays ∧ s.loadCounted.teams = s.teams := by
  unfold State.loadCounted
  split <;> exact ⟨rfl, rfl, rfl⟩

section
variable {s : State} {pr : Producer} (hpr : s.prods.find? (fun y => y.id == s.input.id) = some pr) (hkind : pr.kind = .load)
  (hawaits : s.awaits pr.owner pr.id = false) (htags : pr.tags = [])
include hpr hkind hawaits htags

theorem exec_loadReturn_fills (herr : s.input.err = none) :
    exec .loadReturn s = .next (s.loadCounted.fillProducer s.input.id .load) := by
  have hid : pr.id = s.input.id := by simpa using List.find?_some hpr
  show execLoadReturn s = _
  unfold execLoadReturn
  simp only [herr, hpr, hawaits, hkind, htags]
  simp [hid, State.loadCounted]

/-- A load whose data could not be corrected meets its consumer (R182). -/
theorem exec_loadReturn_fails {cls : Nat} (herr : s.input.err = some cls) (hk : s.input.k = 0) :
    exec .loadReturn s = .next (s.consumerFailed cls) := by
  show execLoadReturn s = _
  unfold execLoadReturn
  simp [herr, hk, hpr, hawaits, hkind, htags]

end

/-! Which contexts have stopped. -/

/-- What a context says of its stop. -/
def Context.halt (c : Context) : Nat × Bool × BitVec 8 := (c.id, c.stopped, c.stopCause)

/-- Which contexts have stopped, and for what cause. -/
def State.halts (s : State) : List (Nat × Bool × BitVec 8) := s.ctxs.map Context.halt

/-- A context stopped for a cause (R183). -/
def Context.haltedFor (cause : Nat) (c : Context) : Context := { c with stopped := true, stopCause := BitVec.ofNat 8 cause }

variable {s t : State}

theorem State.halts_of_ctxs (h : t.ctxs = s.ctxs) : t.halts = s.halts := congrArg (List.map Context.halt) h

theorem State.halts_of_scene (h : t.scene = s.scene) : t.halts = s.halts := State.halts_of_ctxs (State.ctxs_of_scene h)

theorem State.halts_modCtx (s : State) (id : Nat) {g : Context → Context} (hg : ∀ c, (g c).halt = c.halt) :
    (s.modCtx id g).halts = s.halts := by
  unfold State.halts
  rw [State.modCtx_ctxs, List.map_map]
  refine List.map_congr_left fun c _ => ?_
  simp only [Function.comp]
  split <;> simp [hg]

/-- A context is found with the same stop in two states whose contexts say the same of theirs. -/
theorem State.ctx?_halt (h : t.halts = s.halts) (id : Nat) : (t.ctx? id).map Context.halt = (s.ctx? id).map Context.halt := by
  have hfind (u : State) : (u.ctx? id).map Context.halt = u.halts.find? (·.1 == id) := by
    rw [State.halts, List.find?_map]
    rfl
  rw [hfind, hfind, h]

theorem State.modPast_ctxs (s : State) (f : Past → Past) : (s.modPast f).ctxs = s.ctxs := by
  unfold State.modPast
  split <;> rfl

theorem State.poolFreed_ctxs (s : State) (bench lane : Nat) (landed : Bool) : (s.poolFreed bench lane landed).ctxs = s.ctxs := by
  unfold State.poolFreed
  dsimp only
  split <;> rfl

theorem State.cmdOver_ctxs (s : State) (id : Nat) : (s.cmdOver id).ctxs = s.ctxs := s.modPast_ctxs _

theorem State.dropCmds_ctxs (s : State) (gone : Cmd → Bool) : (s.dropCmds gone).ctxs = s.ctxs := by
  unfold State.dropCmds
  exact foldl_same (g := State.ctxs) (fun s id => s.cmdOver_ctxs id) _ _

theorem State.dropTeam_ctxs (s : State) (id : Nat) : (s.dropTeam id).ctxs = s.ctxs := by
  unfold State.dropTeam
  rw [foldl_same (g := State.ctxs) fun s tr => s.poolFreed_ctxs _ _ _]
  exact s.dropCmds_ctxs _

theorem State.reported_ctxs (s : State) (team teamno outcome off : Nat) : (s.reported team teamno outcome off).ctxs = s.ctxs :=
  foldl_same (g := State.ctxs) (fun s p => State.ctxs_of_scene (s.preemptOver_scene p)) _ _

theorem State.putRegs_ctxs (s : State) (o : Owner) (ws : List RegWrite) : (s.putRegs o ws).ctxs = s.ctxs := by
  have hstill := congrArg State.ctxs (State.putRegs_still o ws s)
  exact hstill

theorem State.putResult_ctxs (s : State) (o : Owner) (ws : List RegWrite) (launch : Nat) : (s.putResult o ws launch).ctxs = s.ctxs := by
  cases o <;> exact s.putRegs_ctxs _ ws

theorem State.endItem_ctxs (s : State) (it : Item) (w : DWord) : (s.endItem it w).ctxs = s.ctxs := State.ctxs_of_scene (s.endItem_scene it w)

theorem State.deliver_ctxs (s : State) (d : Dest) (w : DWord) (launch : Nat) : (s.deliver d w launch).ctxs = s.ctxs := by
  unfold State.deliver
  cases d with
  | none => rfl
  | regs o lo hi => cases hi <;> exact s.putResult_ctxs o _ launch
  | item it => exact s.endItem_ctxs it w
  | group g =>
    dsimp only
    split
    case h_1 x _ =>
      have h := foldl_same (g := State.ctxs) (fun s it => s.endItem_ctxs it w) x.recs s
      split <;> exact h
    case h_2 => rfl
  | graph g =>
    dsimp only
    split
    case h_1 => rfl
    case h_2 x _ =>
      split
      case h_1 => exact State.endItem_ctxs _ _ w
      case h_2 c _ =>
        have hw : ∀ (u : State) (res : Nat), (if res == 0 then u else u.ctxWrite c 0 res (leBytes 8 w.toNat)).ctxs = u.ctxs := fun u res => by
          split
          · rfl
          · exact State.ctxs_of_scene (u.ctxWrite_scene ..)
        split
        case h_1 => exact hw _ _
        case h_2 => exact (State.endItem_ctxs _ _ w).trans (hw _ _)

theorem State.endLaunch_halts (s : State) (id : Nat) (w : DWord) : (s.endLaunch id w).halts = s.halts := by
  unfold State.endLaunch
  split
  · rfl
  · dsimp only
    refine (State.halts_of_ctxs ((State.deliver_ctxs ..).trans (State.modPast_ctxs ..))).trans ?_
    split
    · rfl
    · refine (State.halts_modCtx _ _ ?_).trans rfl
      exact fun _ => rfl

theorem State.sendNotice_ctxs (s : State) (squash : Bool) (n : Notice) (ps : List Nat) : (s.sendNotice squash n ps).ctxs = s.ctxs := by
  unfold State.sendNotice
  refine (foldl_same (g := State.ctxs) (fun s p => ?_) _ _).trans ?_
  · rfl
  · exact (apply_ite State.ctxs _ _ _).trans (ite_self _)

theorem State.notify_ctxs (s : State) (squash : Bool) (gid parent : BitVec 16) (peers : List Nat) (waiter : Option Nat) :
    (s.notify squash gid parent peers waiter).ctxs = s.ctxs := State.sendNotice_ctxs _ _ _ _

/-- Teams that go, each with its report. -/
theorem State.dropTeams_ctxs (ts : List Team) (s : State) :
    (ts.foldl (fun s t => (s.dropTeam t.id).reported t.id t.teamno 0 0) s).ctxs = s.ctxs :=
  foldl_same (g := State.ctxs) (fun s t => (State.reported_ctxs ..).trans (s.dropTeam_ctxs t.id)) ts s

theorem State.endLaunches_halts (w : DWord) (ls : List Launch) (s : State) : (ls.foldl (fun s l => s.endLaunch l.id w) s).halts = s.halts :=
  foldl_same (g := State.halts) (fun s l => s.endLaunch_halts l.id w) ls s

/-- A squash stops no context (R328). -/
theorem State.squashSet_halts (s : State) (ctx : Nat) (vs : List Nat) (waiter : Option Nat) : (s.squashSet ctx vs waiter).halts = s.halts := by
  unfold State.squashSet
  split
  · rfl
  case h_2 c _ =>
    dsimp only
    rw [foldl_same (g := State.halts) fun u v => ?notices]
    case notices =>
      split
      · rfl
      · exact State.halts_of_ctxs (State.notify_ctxs ..)
    refine (State.halts_of_ctxs ((State.dropCmds_ctxs _ _).trans (foldl_same (g := State.ctxs) (fun u k => ?tokens) _ _))).trans ?_
    case tokens => exact State.putRegs_ctxs u k.owner [_]
    refine (State.endLaunches_halts ..).trans ?_
    refine (State.halts_of_ctxs (foldl_same (g := State.ctxs) (fun u d => u.deliver_ctxs d _ 0) _ _)).trans ?_
    refine (State.halts_modCtx _ _ ?_).trans (State.halts_of_ctxs ?_)
    · exact fun _ => rfl
    · exact State.dropTeams_ctxs _ s

theorem State.record_halts (s : State) (ctx : Nat) (r : Record) : (s.record ctx r).halts = s.halts := by
  unfold State.record
  split
  · rfl
  · dsimp only
    split
    · refine (State.halts_of_scene (State.writeCcb_scene ..)).trans ((State.halts_modCtx _ _ ?_).trans ?_)
      · exact fun _ => rfl
      · exact State.halts_of_scene (State.ctxWrite_scene ..)
    · refine (State.halts_of_scene (State.writeCcb_scene ..)).trans (State.halts_modCtx _ _ ?_)
      exact fun _ => rfl

theorem State.endItems_halts (w : DWord) (is : List Item) (s : State) : (is.foldl (fun s it => s.endItem it w) s).halts = s.halts :=
  foldl_same (g := State.halts) (fun s it => State.halts_of_ctxs (s.endItem_ctxs it w)) is s

theorem State.forgetSaved_halts (s : State) (mine : Saved → Bool) : (s.forgetSaved mine).halts = s.halts := rfl

theorem State.halts_ring (s : State) (r : Ring) : State.halts { s with ring := r } = s.halts := rfl

theorem State.halts_sched (s : State) (x : Sched) : State.halts { s with sched := x } = s.halts := rfl

/-- A stop of a context that runs stops it and no other (R183). -/
theorem State.stopContext_halts {ctx cause : Nat} {c : Context} (r : Record) (hc : s.ctx? ctx = some c) (hruns : c.stopped = false) :
    (s.stopContext ctx cause r).halts = (s.modCtx ctx (·.haltedFor cause)).halts := by
  unfold State.stopContext
  simp only [hc, hruns, Bool.false_eq_true, if_false]
  rw [State.halts_ring, State.squashSet_halts, State.endItems_halts, State.halts_sched, State.endLaunches_halts, State.forgetSaved_halts,
    State.halts_of_ctxs (State.dropTeams_ctxs ..), State.halts_of_ctxs (State.dropCmds_ctxs ..), State.record_halts]
  rfl

theorem State.ctx?_of_halt {ctx : Nat} {c : Context} (h : (t.ctx? ctx).map Context.halt = some c.halt) :
    ∃ x, t.ctx? ctx = some x ∧ x.stopped = c.stopped ∧ x.stopCause = c.stopCause := by
  obtain ⟨x, hx, he⟩ := Option.map_eq_some_iff.1 h
  exact ⟨x, hx, (congrArg (·.2.1) he :), (congrArg (·.2.2) he :)⟩

/-- A context that is to stop is stopped afterwards, for the cause where it ran before (R183). -/
theorem State.stopContext_stops {ctx cause : Nat} {c : Context} (r : Record) (hc : s.ctx? ctx = some c) :
    ∃ x, (s.stopContext ctx cause r).ctx? ctx = some x ∧ x.stopped = true ∧ (c.stopped = false → x.stopCause = BitVec.ofNat 8 cause) := by
  cases hruns : c.stopped with
  | true =>
    refine ⟨c, ?_, hruns, fun h => absurd h (by decide)⟩
    unfold State.stopContext
    simp only [hc, hruns, if_true]
  | false =>
    have hmod : (s.modCtx ctx (·.haltedFor cause)).ctx? ctx = some (c.haltedFor cause) := by
      rw [State.ctx?_modCtx _ _ _ (·.haltedFor cause) fun _ => rfl, hc]
      simp [State.ctx?_id hc]
    obtain ⟨x, hx, hstop, hcause⟩ := State.ctx?_of_halt (c := c.haltedFor cause)
      ((State.ctx?_halt (State.stopContext_halts r hc hruns) ctx).trans (congrArg _ hmod))
    exact ⟨x, hx, hstop, fun _ => hcause⟩

/-- A failed memory unit that is no hub slice stops the consumer's context and no other (R180, R183, R185). -/
theorem State.memoryFailed_ctxs (s : State) (ctx cls unit line : Nat) (r : Record) :
    (s.memoryFailed ctx cls unit line false r).ctxs = (s.memoryStop ctx cls line r).ctxs := by
  unfold State.memoryFailed State.benchFailed State.fenceFns
  simp only [Bool.and_false, Bool.false_eq_true, if_false]
  split
  · split <;> rfl
  · rfl

/-- The consumer of a producer is its owner's context (R180). -/
theorem State.consumerFailed_producer (cls : Nat) {pr : Producer} {tm : Team} {l : Launch} {cx : Context}
    (hpr : s.prods.find? (fun y => y.id == s.input.id) = some pr) (hk : s.input.k = 0) (howner : s.ownerCtx pr.owner = some (tm, l, cx))
    (hflag : s.input.flag = false) : ∃ r, s.consumerFailed cls = s.memoryFailed cx.id cls s.input.n s.input.val.toNat false r := by
  unfold State.consumerFailed
  simp only [hk, hpr, howner, hflag]
  exact ⟨_, rfl⟩

end Sys2Proof.Machine

namespace Sys2Proof.Proofs

open Sys2Proof.Machine

/-- Settles O41: every event of `fillers` fills its producer's registers, a load once its responses are in and its corrected error is
counted; an error that was not corrected stops the consumer's context, and what ends with the context stops no other and gives no other
cause. -/
theorem producersFillTheirRegisters : Obligations.ProducersFillTheirRegisters := by
  unfold Obligations.ProducersFillTheirRegisters
  refine ⟨fun x hx s pr hpr hkind hload hhas => ?fills, fun s d _ e _ hwf => ?counts, fun s pr cls tm l cx hpr hkind htags hawaits herr hk
    howner hctx hflag => ?stops⟩
  case fills =>
    have hid : pr.id = s.input.id := by simpa using List.find?_some hpr
    rw [hid]
    simp only [fillers, List.mem_cons, List.not_mem_nil, or_false] at hx
    rcases hx with rfl | hlong
    · obtain ⟨htags, herr, hawaits⟩ := hload hkind
      have hcounted : (if ProdKind.load = .load ∧ s.input.flag = true then s.countCorrected s.input.n else s) = s.loadCounted :=
        if_congr (by simp) rfl rfl
      obtain ⟨hprods, htrays, hteams⟩ := s.loadCounted_resident
      refine ⟨_, exec_loadReturn_fills hpr hkind hawaits htags herr, ?_⟩
      rw [State.fillProducer_found (by rw [hprods]; exact hpr) hkind, hcounted, ← hprods]
      exact State.fills_putRegs htrays hteams hhas
    · have hexec : exec x.1 s = .next (s.fillProducer s.input.id x.2) := by rcases hlong with rfl | rfl | rfl | rfl <;> rfl
      have hnot : x.2 ≠ .load := by rcases hlong with rfl | rfl | rfl | rfl <;> decide
      refine ⟨_, hexec, ?_⟩
      rw [State.fillProducer_found hpr hkind, if_neg fun h => hnot h.1]
      exact State.fills_putRegs rfl rfl hhas
  case counts =>
    refine (Sparse.get_put d e _ hwf).trans ?_
    split
    case isTrue h => rw [h]
    case isFalse => rfl
  case stops =>
    obtain ⟨r, hfails⟩ := State.consumerFailed_producer cls hpr hk howner hflag
    obtain ⟨cx', hctx', hstop, hcause⟩ := State.stopContext_stops (cause := 0x13)
      { r with cause := 0x13, d0 := BitVec.ofNat 64 cls, d1 := BitVec.ofNat 64 s.input.val.toNat } hctx
    refine ⟨_, cx', exec_loadReturn_fails hpr hkind hawaits htags herr hk, ?_, hstop, hcause⟩
    rw [hfails]
    exact (congrArg (·.find? (·.id == cx.id)) (State.memoryFailed_ctxs ..)).trans hctx'

end Sys2Proof.Proofs

/-!
SUPPORT. Result words in the bytes of a team that has ended (R189, R341): a remnant whose bytes do not stand in rising order.
-/

namespace Sys2Proof.Machine

/-- The bytes of team 0, which has ended: place 100 before place 0. -/
def tangledRemnant : Remnant := { team := 0, shmem := 8, shared := { bytes := [(100, 1), (0, 5)], valid := [0], tags := [] } }

/-- A NOP of context 1 whose result word stands in the shared window. -/
def tangledItem : Item := { Item.blank with ctxid := 1, result := 0x00F0000000000000 }

/-- The device as reset leaves it, with context 1, the remnant and the item. -/
def tangled : State :=
  { State.reset with
    ctxs := [newContext 1 0 0 [] false], remnants := [tangledRemnant], input := { Input.blank with item := tangledItem } }

theorem tangled_whole : tangled.Whole := ⟨State.reset_whole.stores, State.reset_whole.lines⟩

theorem tangled_ctx : tangled.ctx? (itemCtx tangledItem) = some (newContext 1 0 0 [] false) := rfl

theorem tangled_wordAt : WordAt tangled (newContext 1 0 0 [] false) tangledItem.result.toNat (.shared 0 0) := by
  refine ⟨fun _ _ => nofun, fun m _ i hi => ⟨Attr.team, ?_⟩⟩
  interval_cases i <;> rfl

/-- Writing a zero at place 0 stops at place 100, before the 5 that is seen. -/
theorem tangled_byteSeen : (tangled.endItem tangledItem (resultWord 1 0)).byteSeen [] (.shared 0 0) = 5 := by
  decide

end Sys2Proof.Machine

namespace Sys2Proof.Proofs

open Sys2Proof.Machine

/-- Refutes O50: `ItemEnds.word` asks of the state no more than `State.Whole`, which does not speak of the remnants (the shared memory
of teams that have ended while copies still use it), yet a result word may be written there. Where a remnant's bytes do not stand in rising
order, the bytes written are not the bytes seen afterwards: the NOP's word 0x0100000000000000 at `tangled` leaves byte 0 at 5. A
remnant that a run makes is a team's shared memory in rising order; this does not refute a statement that counts the remnants among the
whole stores. -/
theorem not_workItemsHaveTheirEffects : ¬ Obligations.WorkItemsHaveTheirEffects := by
  unfold Obligations.WorkItemsHaveTheirEffects
  rintro ⟨hnop, -⟩
  obtain ⟨t, hexec, hends⟩ := hnop tangled
  have ht : tangled.endItem tangledItem (resultWord 1 0) = t := by injection hexec
  have hword := hends.word _ _ tangled_whole tangled_ctx (by decide) tangled_wordAt 0 (by decide)
  rw [← ht] at hword
  exact absurd (tangled_byteSeen.symm.trans hword) (by decide)

end Sys2Proof.Proofs
